-- ==== Sys2Proof/Word.lean ====
section
/-! DEFINITION. The word types of the machine: 64-bit registers (R37, R94), bytes of memory (R5), 32-bit
instruction words (R53). -/
namespace Sys2Proof

/-- A lane register of one lane, or a scalar register: 64 bits (R37, R94). -/
abbrev Word := BitVec 64

/-- One byte of memory. -/
abbrev Byte := BitVec 8

/-- A hierarchical mask over the 1,024 lanes a team can have (R39). Bit `i` of lane word `k` is bit
`32 * k + i`; the 32-bit summary word is computed from the lane words and never stored, since the third
invariant of R39 makes it a function of them. -/
abbrev Mask := BitVec 1024

end Sys2Proof
end

