-- ==== Sys2Proof/Syntax.lean ====
section
/-! DEFINITION. The whole instruction set as one inductive: one constructor for each row of the opcode table.
The first 219 rows are instructions with an encoding (R70, R71); the others are the steps the device takes by
itself, which have operands but no encoding. -/
namespace Sys2Proof

/-! ## Fields (R56 to R59) -/

/-- The integer widths of the `w` field (R56). -/
inductive IW where | w8 | w16 | w32 | w64
deriving DecidableEq, Repr

/-- The float formats of the `w` field (R56). -/
inductive FW where | f64 | f32 | f16 | bf16
deriving DecidableEq, Repr

/-- The two widths of the integer atomics (R158). -/
inductive AW where | w32 | w64
deriving DecidableEq, Repr

/-- The `ord` field (R56). -/
inductive Ord where | plain | acq | rel | ar
deriving DecidableEq, Repr

/-- The `ord` field of `fence`, where plain is reserved (R147). -/
inductive FenceOrd where | acq | rel | ar
deriving DecidableEq, Repr

/-- The `scope` field (R56). -/
inductive Scope where | team | group | die | dev | pod
deriving DecidableEq, Repr

/-- The scopes that `lds` and `sts` accept (R146). -/
inductive SScope where | team | group
deriving DecidableEq, Repr

/-- A lane register v0 to v95 (R57). -/
abbrev VReg := Fin 96
/-- A scalar register s0 to s31 (R58). -/
abbrev SReg := Fin 32
/-- A scalar register s0 to s15 named as a broadcast source, field values 0x68 to 0x77 (R57). -/
abbrev BReg := Fin 16
/-- A mask m0 to m7 (R59). -/
abbrev MReg := Fin 8
/-- A mask as a destination: m0 to m5 (R40, R59). -/
abbrev MDst := Fin 6

/-- A lane register field as a source (R57). -/
inductive LSrc where
  /-- v0 to v95. -/
  | v (r : VReg)
  /-- A lane latch f0 to f3. -/
  | f (k : Fin 4)
  /-- s0 to s15, broadcast to every lane. -/
  | s (r : BReg)
  /-- The constant zero. -/
  | zero
  /-- `%lane`: every sub-element holds the lane number. -/
  | lane
  /-- `%sub`: sub-element `j` holds `j`. -/
  | sub
deriving DecidableEq, Repr

/-- A uniform register field as a source (R58). -/
inductive USrc where
  | s (r : SReg)
  /-- A uniform latch; `f 0` is f4 and `f 3` is f7. -/
  | f (k : Fin 4)
  | zero
deriving DecidableEq, Repr

/-- A lane destination: `none` is `nwb` = 1, whose d field holds zero (R60). -/
abbrev VDst := Option VReg
/-- A scalar destination: `none` is `nwb` = 1, whose d field holds zero (R60). -/
abbrev SDst := Option SReg

/-- `aux` of the loads (R153). -/
inductive LdAux where | zx | sx | whole
deriving DecidableEq, Repr

/-- `aux` of the stores (R153). -/
inductive StAux where | lo | whole
deriving DecidableEq, Repr

/-- The conditions of `vote` (R139). -/
inductive VoteKind where | any | all | eq
deriving DecidableEq, Repr

/-- The conditions of `bc` (R56). -/
inductive BcCond where | eq | ne | lt | ge | ltu | geu
deriving DecidableEq, Repr

/-- The conditions of `scmp` (R96). -/
inductive SCond where | eq | ne | lt | ltu | le | leu
deriving DecidableEq, Repr

/-- The patterns of `shfli` (R138). -/
inductive ShflPat where | xor | up | down | bcast
deriving DecidableEq, Repr

/-- The operations of `atom` without offset (R159). -/
inductive AtomAux where | add | xchg | min | max
deriving DecidableEq, Repr

/-- The integer atomic operations, codes 0 to 8 of R158. -/
inductive IntAtom where | add | xchg | min | max | minu | maxu | and | or | xor
deriving DecidableEq, Repr

/-- What `atom` with offset does: an integer code at 32 or 64 bits, or `fadd` in a float format (R158). -/
inductive AtomKind where
  | int (op : IntAtom) (w : AW)
  | fadd (f : FW)
deriving DecidableEq, Repr

/-- What `redm` does (R159). -/
inductive RedmKind where
  | add (w : AW) | fadd (f : FW) | min (w : AW) | max (w : AW)
deriving DecidableEq, Repr

/-- What `atomu` does: an integer code, or `fadd` at binary32 or binary64 (R158, R161). -/
inductive AtomuKind where
  | int (op : IntAtom) (w : AW)
  | fadd (w : AW)
deriving DecidableEq, Repr

/-- The integer operations of the `red` family: codes 0 and 2 to 8 of R70. -/
inductive RedInt where | add | min | max | minu | maxu | and | or | xor
deriving DecidableEq, Repr

/-- The float operations of the `red` family: codes 9 to 11 of R70. -/
inductive RedFloat where | fadd | fmin | fmax
deriving DecidableEq, Repr

/-- What one of `red`, `scan`, `scan.ex` and `segred` combines with (R140). -/
inductive RedKind where
  | int (op : RedInt) (w : IW)
  | float (op : RedFloat) (w : FW)
deriving DecidableEq, Repr

/-- The classes of `wait` (R104). -/
inductive WaitClass where | ld | st | at | cp
deriving DecidableEq, Repr

/-- The kinds of `hold` with their extents (R172). -/
inductive HoldKind where
  | spad (ext : USrc) | queue | chan | plant | sbuf | pslot (ext : USrc)
deriving DecidableEq, Repr

/-- The kinds of object that `unhold` names (R172). -/
inductive ObjKind where | spad | queue | chan | plant | sbuf | pslot
deriving DecidableEq, Repr

/-- The operations of `sar` (R211). -/
inductive SarOp where | sum | min | max
deriving DecidableEq, Repr

/-- The per-lane special registers that the lane form of `srd` reads (R106). -/
inductive LaneSpecial where | lane | wid
deriving DecidableEq, Repr

/-- The special registers of R45. -/
inductive Special where
  | lane | team | group | wid | widw | stage | fflags | frm | feat | ftrap
  | pidx | recCount | rpc | escv0 | escv1 | escs | abroad | wher
  | cwp (n : Fin 8) | qseq (q : Fin 4) | sett | cyc | cong | tcause | tinfo
deriving DecidableEq, Repr

/-- The modulus registers s28 to s31 of the modular instructions: s(28+w) (R135). -/
abbrev QReg := Fin 4
/-- The masks m1 to m4 that `addc`, `subb` and `sel` name: m(1+w) (R124, R125). -/
abbrev CMask := Fin 4

/-! ## What events name -/

/-- Who makes an access to control space (R418): the root core, or a general-purpose hart running a world's code. -/
inductive Agent where
  | root
  | gp (world : Nat)
deriving DecidableEq, Repr

/-- Where a fault or a poison mark lies (R397, R400). -/
inductive Site where
  /-- A 64-byte line of HBM, by physical address / 64. -/
  | line (n : Nat)
  /-- An 8-byte word of a cluster's scratchpad, by offset / 8. -/
  | spad (cluster n : Nat)
  /-- A lane of a lane register of a team. -/
  | vreg (tid reg lane : Nat)
  /-- A scalar register, mask or slot entry of a team, in a way that no retry mends. -/
  | slot (tid : Nat)
  /-- A team's escort frame in the Lodge or a pen: its header, or a lane of a lane register that it carries. -/
  | frame (tid : Nat)
  | frameLane (tid reg lane : Nat)
  /-- A record of a cluster's task pool, an entry of a die's fault buffer, the storage in which a cluster stages saves. -/
  | taskRec (cluster id : Nat)
  | faultEntry (die idx : Nat)
  | staging (cluster : Nat)
  /-- A line of the instruction cache of core 2c + k, or of cluster c's translation cache: whether the fault lasts, and
  whether it has been met before. -/
  | icache (core : Nat) (persistent met : Bool)
  | tcache (cluster : Nat) (persistent met : Bool)
  /-- A pipeline register, latch or slot entry of core 2c + k: the parity of its next instruction does not match. -/
  | parity (core : Nat) (persistent : Bool)
  | estate (group num : Nat)
  | tag (cluster slot : Nat)
  /-- A line of a die's replica of a replicated page. -/
  | replica (die n : Nat)
  /-- Core 2c + k's lane datapath: the residue of its next lane result does not match. -/
  | datapath (core : Nat) (persistent : Bool)
  /-- Element 128 * row + column of bank 0 or 1, or of the accumulator (2), of engine 3c + e. -/
  | planting (engine bank n : Nat)
  /-- A macro, broadcast bit-plane or check column of engine 3c + e: the residue of its next pass does not match, or, where
  the fault lasts, that of every pass until the engine is fenced. -/
  | macro_ (engine : Nat) (persistent : Bool)
  /-- Logic of engine or core `unit` that no code or residue covers: its items' signatures come out wrong (R399, R405). -/
  | logic (engine : Bool) (unit : Nat)
  /-- Storage of the root core. -/
  | rootCore
  /-- A team's save record, and an engine image, in memory. -/
  | saved (tid : Nat)
  | image (unit : Nat)
deriving DecidableEq, Repr

/-- What a pod fetch asks of a peer (R356, R358). -/
inductive PodOp where
  | load
  /-- A store, or the data of an `stf`. -/
  | store
  | atom (k : AtomKind)
  | cas (w : AW)
  /-- An increment of an `stf`'s flag word. -/
  | flagAdd
deriving DecidableEq, Repr

/-- Every row of the opcode table. Operands named `d` are destinations, `a`, `b`, `c`, `e`, `n` sources. -/
inductive Instr where
  /-- ADD (R121). Adds two lane sources per sub-element, wrapping at width w. -/
  | add (w : IW) (d : VDst) (a b : LSrc)
  /-- SUB (R121). Subtracts b from a per sub-element, wrapping; neg is this instruction with a = zero. -/
  | sub (w : IW) (d : VDst) (a b : LSrc)
  /-- ADD_SAT (R121). Signed saturating addition per sub-element. -/
  | addSat (w : IW) (d : VDst) (a b : LSrc)
  /-- ADD_SATU (R121). Unsigned saturating addition per sub-element. -/
  | addSatu (w : IW) (d : VDst) (a b : LSrc)
  /-- SUB_SAT (R121). Signed saturating subtraction per sub-element. -/
  | subSat (w : IW) (d : VDst) (a b : LSrc)
  /-- SUB_SATU (R121). Unsigned saturating subtraction per sub-element. -/
  | subSatu (w : IW) (d : VDst) (a b : LSrc)
  /-- MUL (R121). Low w bits of the product per sub-element. -/
  | mul (w : IW) (d : VDst) (a b : LSrc)
  /-- MULH (R121). High half of the signed 2w-bit product. -/
  | mulh (w : IW) (d : VDst) (a b : LSrc)
  /-- MULHU (R121). High half of the unsigned 2w-bit product. -/
  | mulhu (w : IW) (d : VDst) (a b : LSrc)
  /-- MAD (R121). Adds the low w bits of a times b to d. -/
  | mad (w : IW) (d : VDst) (a b : LSrc)
  /-- ADDC (R124). 64-bit add with carry in and out through mask m(1+w). -/
  | addc (m : CMask) (d : VDst) (a b : LSrc)
  /-- SUBB (R124). 64-bit subtract with borrow in and out through mask m(1+w). -/
  | subb (m : CMask) (d : VDst) (a b : LSrc)
  /-- MIN (R121). Signed minimum per sub-element. -/
  | min (w : IW) (d : VDst) (a b : LSrc)
  /-- MINU (R121). Unsigned minimum per sub-element. -/
  | minu (w : IW) (d : VDst) (a b : LSrc)
  /-- MAX (R121). Signed maximum per sub-element. -/
  | max (w : IW) (d : VDst) (a b : LSrc)
  /-- MAXU (R121). Unsigned maximum per sub-element. -/
  | maxu (w : IW) (d : VDst) (a b : LSrc)
  /-- ABS (R121). Absolute value per sub-element; the most negative value stays. -/
  | abs (w : IW) (d : VDst) (a : LSrc)
  /-- AND (R122). Bitwise AND. -/
  | and (w : IW) (d : VDst) (a b : LSrc)
  /-- OR (R122). Bitwise OR. -/
  | or (w : IW) (d : VDst) (a b : LSrc)
  /-- XOR (R122). Bitwise XOR. -/
  | xor (w : IW) (d : VDst) (a b : LSrc)
  /-- SHL (R122). Shift left by b mod w per sub-element. -/
  | shl (w : IW) (d : VDst) (a b : LSrc)
  /-- SHR (R122). Logical shift right by b mod w. -/
  | shr (w : IW) (d : VDst) (a b : LSrc)
  /-- SRA (R122). Arithmetic shift right by b mod w. -/
  | sra (w : IW) (d : VDst) (a b : LSrc)
  /-- ROT (R122). Rotate left by b mod w. -/
  | rot (w : IW) (d : VDst) (a b : LSrc)
  /-- CLZ (R121). Count of leading zero bits per sub-element. -/
  | clz (w : IW) (d : VDst) (a : LSrc)
  /-- POP (R121). Count of one bits per sub-element. -/
  | pop (w : IW) (d : VDst) (a : LSrc)
  /-- BFE (R123). Bit-field extract per sub-element under the descriptor in b. -/
  | bfe (w : IW) (d : VDst) (a b : LSrc)
  /-- BFI (R123). Bit-field insert of a into d per sub-element. -/
  | bfi (w : IW) (d : VDst) (a b : LSrc)
  /-- SEL (R125). Selects whole register a or b per lane by mask m(1+w). -/
  | sel (m : CMask) (d : VDst) (a b : LSrc)
  /-- MOV (R125). Copies the whole register. -/
  | mov (d : VDst) (a : LSrc)
  /-- CMP_EQ (R126). Writes a mask of active lanes whose sub-element 0 of a equals that of b. -/
  | cmpEq (w : IW) (d : MDst) (a b : LSrc)
  /-- CMP_NE (R126). Mask compare, not equal. -/
  | cmpNe (w : IW) (d : MDst) (a b : LSrc)
  /-- CMP_LT (R126). Mask compare, signed less than. -/
  | cmpLt (w : IW) (d : MDst) (a b : LSrc)
  /-- CMP_LTU (R126). Mask compare, unsigned less than. -/
  | cmpLtu (w : IW) (d : MDst) (a b : LSrc)
  /-- CMP_LE (R126). Mask compare, signed less or equal. -/
  | cmpLe (w : IW) (d : MDst) (a b : LSrc)
  /-- CMP_LEU (R126). Mask compare, unsigned less or equal. -/
  | cmpLeu (w : IW) (d : MDst) (a b : LSrc)
  /-- ADD_IMM (R121). Adds a sign-extended imm7 to each sub-element. -/
  | addImm (w : IW) (d : VDst) (a : LSrc) (imm : BitVec 7)
  /-- AND_IMM (R122). Bitwise AND with zero-extended imm7. -/
  | andImm (w : IW) (d : VDst) (a : LSrc) (imm : BitVec 7)
  /-- OR_IMM (R122). Bitwise OR with zero-extended imm7. -/
  | orImm (w : IW) (d : VDst) (a : LSrc) (imm : BitVec 7)
  /-- XOR_IMM (R122). Bitwise XOR with zero-extended imm7. -/
  | xorImm (w : IW) (d : VDst) (a : LSrc) (imm : BitVec 7)
  /-- SHL_IMM (R122). Shift left by imm7 mod w. -/
  | shlImm (w : IW) (d : VDst) (a : LSrc) (imm : BitVec 7)
  /-- SHR_IMM (R122). Logical shift right by imm7 mod w. -/
  | shrImm (w : IW) (d : VDst) (a : LSrc) (imm : BitVec 7)
  /-- SRA_IMM (R122). Arithmetic shift right by imm7 mod w. -/
  | sraImm (w : IW) (d : VDst) (a : LSrc) (imm : BitVec 7)
  /-- ROT_IMM (R122). Rotate left by imm7 mod w. -/
  | rotImm (w : IW) (d : VDst) (a : LSrc) (imm : BitVec 7)
  /-- LI (R121). Loads sign-extended imm7 into each sub-element. -/
  | li (w : IW) (d : VDst) (imm : BitVec 7)
  /-- CMP_EQ_IMM (R126). Mask compare of sub-element 0 with sign-extended imm7, equal. -/
  | cmpEqImm (w : IW) (d : MDst) (a : LSrc) (imm : BitVec 7)
  /-- CMP_LT_IMM (R126). Mask compare with sign-extended imm7, signed less than. -/
  | cmpLtImm (w : IW) (d : MDst) (a : LSrc) (imm : BitVec 7)
  /-- FADD (R127). Float addition per sub-element, rounded once by %frm. -/
  | fadd (w : FW) (d : VDst) (a b : LSrc)
  /-- FSUB (R127). Float subtraction per sub-element. -/
  | fsub (w : FW) (d : VDst) (a b : LSrc)
  /-- FMUL (R127). Float multiplication per sub-element. -/
  | fmul (w : FW) (d : VDst) (a b : LSrc)
  /-- FMA (R127). Fused a times b plus d, one rounding. -/
  | fma (w : FW) (d : VDst) (a b : LSrc)
  /-- FMA3 (R127). Wide fused multiply-add with addend c and optional negations and flush. -/
  | fma3 (w : FW) (d : VDst) (a b c : LSrc) (ftz np na : Bool)
  /-- FMIN (R128). Float minimum with -0 < +0 and NaN handling. -/
  | fmin (w : FW) (d : VDst) (a b : LSrc)
  /-- FMAX (R128). Float maximum. -/
  | fmax (w : FW) (d : VDst) (a b : LSrc)
  /-- FABS (R128). Clears the sign of each float sub-element. -/
  | fabs (w : FW) (d : VDst) (a : LSrc)
  /-- FNEG (R128). Inverts the sign of each float sub-element. -/
  | fneg (w : FW) (d : VDst) (a : LSrc)
  /-- FCMP_EQ (R129). Float mask compare, equal. -/
  | fcmpEq (w : FW) (d : MDst) (a b : LSrc)
  /-- FCMP_NE (R129). Float mask compare, not equal. -/
  | fcmpNe (w : FW) (d : MDst) (a b : LSrc)
  /-- FCMP_LT (R129). Float mask compare, less than. -/
  | fcmpLt (w : FW) (d : MDst) (a b : LSrc)
  /-- FCMP_LE (R129). Float mask compare, less or equal. -/
  | fcmpLe (w : FW) (d : MDst) (a b : LSrc)
  /-- FCMP_UN (R129). Float mask compare, unordered. -/
  | fcmpUn (w : FW) (d : MDst) (a b : LSrc)
  /-- FRND (R128). Rounds each float to an integral value by %frm. -/
  | frnd (w : FW) (d : VDst) (a : LSrc)
  /-- FCLASS (R128). Writes a one-hot class mask for each float. -/
  | fclass (w : FW) (d : VDst) (a : LSrc)
  /-- FADD_FTZ (R127). Float addition with subnormals flushed. -/
  | faddFtz (w : FW) (d : VDst) (a b : LSrc)
  /-- FSUB_FTZ (R127). Float subtraction with subnormals flushed. -/
  | fsubFtz (w : FW) (d : VDst) (a b : LSrc)
  /-- FMUL_FTZ (R127). Float multiplication with subnormals flushed. -/
  | fmulFtz (w : FW) (d : VDst) (a b : LSrc)
  /-- FMA_FTZ (R127). Fused multiply-add with subnormals flushed. -/
  | fmaFtz (w : FW) (d : VDst) (a b : LSrc)
  /-- FCVT (R131). Converts elements of a under the descriptor in a broadcast scalar. -/
  | fcvt (d : VDst) (a : LSrc) (b : BReg)
  /-- FCVTI (R132). Converts floats to signed integers of the same width. -/
  | fcvti (w : FW) (d : VDst) (a : LSrc)
  /-- FCVTIU (R132). Converts floats to unsigned integers of the same width. -/
  | fcvtiu (w : FW) (d : VDst) (a : LSrc)
  /-- ICVTF (R132). Converts signed integers to the float format of w. -/
  | icvtf (w : FW) (d : VDst) (a : LSrc)
  /-- ICVTFU (R132). Converts unsigned integers to the float format of w. -/
  | icvtfu (w : FW) (d : VDst) (a : LSrc)
  /-- PACK (R133). Packs low halves of elements of a and b into d. -/
  | pack (w : IW) (d : VDst) (a b : LSrc)
  /-- UNPACK (R133). Widens half-width slots of a into elements of d. -/
  | unpack (w : IW) (d : VDst) (a b : LSrc)
  /-- SWZ (R133). Permutes elements of a under byte selectors in b. -/
  | swz (w : IW) (d : VDst) (a b : LSrc)
  /-- FRCP (R134). Correctly rounded reciprocal. -/
  | frcp (w : FW) (d : VDst) (a : LSrc)
  /-- FRSQ (R134). Correctly rounded reciprocal square root. -/
  | frsq (w : FW) (d : VDst) (a : LSrc)
  /-- FSQRT (R134). Square root rounded by %frm. -/
  | fsqrt (w : FW) (d : VDst) (a : LSrc)
  /-- FEX2 (R134). Correctly rounded 2 to the power a. -/
  | fex2 (w : FW) (d : VDst) (a : LSrc)
  /-- FLG2 (R134). Correctly rounded log base 2. -/
  | flg2 (w : FW) (d : VDst) (a : LSrc)
  /-- FSIN (R134). Correctly rounded sine. -/
  | fsin (w : FW) (d : VDst) (a : LSrc)
  /-- FCOS (R134). Correctly rounded cosine. -/
  | fcos (w : FW) (d : VDst) (a : LSrc)
  /-- SHFL (R137). Reads elements from lanes of the own lane word by index. -/
  | shfl (w : IW) (d : VDst) (a b : LSrc)
  /-- SHFLI (R138). Moves whole registers within a lane word by an immediate pattern. -/
  | shfli (d : VDst) (a : LSrc) (p : ShflPat) (k : BitVec 5)
  /-- VOTE (R139). Writes a mask from any, all or eq over active lanes' predicates. -/
  | vote (v : VoteKind) (d : MDst) (a : LSrc)
  /-- LGET (R137). Reads elements from any lane of the team by index. -/
  | lget (w : IW) (d : VDst) (a b : LSrc)
  /-- LPUT (R137). Writes elements into any live lane of the team by index. -/
  | lput (w : IW) (d : VDst) (a b : LSrc)
  /-- RED (R140). Reduces a sub-element across active lanes in lane order. -/
  | red (op : RedKind) (d : VDst) (a : LSrc)
  /-- SCAN (R140). Inclusive scan across active lanes. -/
  | scan (op : RedKind) (d : VDst) (a : LSrc)
  /-- SCAN_EX (R140). Exclusive scan across active lanes. -/
  | scanEx (op : RedKind) (d : VDst) (a : LSrc)
  /-- SEGRED (R140). Segmented reduction with segments from m5. -/
  | segred (op : RedKind) (d : VDst) (a : LSrc)
  /-- WALKI (R141). Turns row lengths into end offsets and resets %pidx. -/
  | walki (d : VDst) (a : LSrc) (b : BReg)
  /-- WALK (R141). Deals the next ragged elements to active lanes, writing m4, m5 and %pidx. -/
  | walk (d : VDst) (a : LSrc) (b : BReg)
  /-- MMUL (R135). Modular product with modulus s(28+w). -/
  | mmul (q : QReg) (d : VDst) (a b : LSrc)
  /-- MADD (R135). Modular sum. -/
  | madd (q : QReg) (d : VDst) (a b : LSrc)
  /-- MSUB (R135). Modular difference. -/
  | msub (q : QReg) (d : VDst) (a b : LSrc)
  /-- BFLY (R136). Forward transform butterfly writing d and a. -/
  | bfly (q : QReg) (d : VDst) (a : VReg) (b : LSrc)
  /-- IBFLY (R136). Inverse transform butterfly writing d and a. -/
  | ibfly (q : QReg) (d : VDst) (a : VReg) (b : LSrc)
  /-- MRED (R135). Reduces the 128-bit value b:a modulo q. -/
  | mred (q : QReg) (d : VDst) (a b : LSrc)
  /-- LD (R153). Loads one element or the whole register per acting lane, optionally escorted. -/
  | ld (esc : Bool) (o : Ord) (sc : Scope) (w : IW) (x : LdAux) (d : VReg) (a : LSrc)
  /-- ST (R153). Stores sub-element 0 or the whole register per acting lane. -/
  | st (esc : Bool) (o : Ord) (sc : Scope) (w : IW) (x : StAux) (d a : LSrc)
  /-- LDX (R154). Wide gather of one element per sub-element. -/
  | ldx (esc : Bool) (o : Ord) (sc : Scope) (w : IW) (k : Fin 4) (d : VReg) (a base : LSrc) (off : BitVec 18)
  /-- STX (R154). Wide scatter of one element per sub-element. -/
  | stx (esc : Bool) (o : Ord) (sc : Scope) (w : IW) (k : Fin 4) (d a base : LSrc) (off : BitVec 18)
  /-- STF (R156). Stores data and increments flag words once the data is visible. -/
  | stf (esc : Bool) (o : Ord) (sc : Scope) (w : IW) (d a flag : LSrc) (inc : BitVec 18)
  /-- LDS (R153). Scratchpad load per active lane. -/
  | lds (o : Ord) (sc : SScope) (w : IW) (x : LdAux) (d : VReg) (a : LSrc)
  /-- STS (R153). Scratchpad store per active lane. -/
  | sts (o : Ord) (sc : SScope) (w : IW) (x : StAux) (d a : LSrc)
  /-- ATOM (R159). Lane atomic with operand in d and old value out to d. -/
  | atom (esc : Bool) (o : Ord) (sc : Scope) (w : AW) (op : AtomAux) (d : VReg) (a : LSrc)
  /-- ATOM_OFFSET (R159). Wide lane atomic with offset and operand register, codes 0 to 9. -/
  | atomOffset (esc : Bool) (o : Ord) (sc : Scope) (op : AtomKind) (d : VReg) (a c : LSrc) (off : BitVec 14)
  /-- CAS (R160). Wide lane compare-and-swap in lane order, writing m5. -/
  | cas (esc : Bool) (o : Ord) (sc : Scope) (w : AW) (d : VReg) (a e n : LSrc)
  /-- REDM (R159). No-return reduction to memory per active lane. -/
  | redm (o : Ord) (sc : Scope) (op : RedmKind) (d a : LSrc)
  /-- SADD (R94). Scalar 64-bit addition. -/
  | sadd (d : SDst) (a b : USrc)
  /-- SSUB (R94). Scalar subtraction. -/
  | ssub (d : SDst) (a b : USrc)
  /-- SMUL (R94). Scalar low product. -/
  | smul (d : SDst) (a b : USrc)
  /-- SMULH (R94). Scalar signed high product. -/
  | smulh (d : SDst) (a b : USrc)
  /-- SMULHU (R94). Scalar unsigned high product. -/
  | smulhu (d : SDst) (a b : USrc)
  /-- SDIV (R94). Scalar signed division, defined for every case, holding the uniform pipe. -/
  | sdiv (d : SDst) (a b : USrc)
  /-- SDIVU (R94). Scalar unsigned division. -/
  | sdivu (d : SDst) (a b : USrc)
  /-- SREM (R94). Scalar signed remainder. -/
  | srem (d : SDst) (a b : USrc)
  /-- SREMU (R94). Scalar unsigned remainder. -/
  | sremu (d : SDst) (a b : USrc)
  /-- SAND (R94). Scalar AND. -/
  | sand (d : SDst) (a b : USrc)
  /-- SOR (R94). Scalar OR. -/
  | sor (d : SDst) (a b : USrc)
  /-- SXOR (R94). Scalar XOR. -/
  | sxor (d : SDst) (a b : USrc)
  /-- SSHL (R94). Scalar shift left by b mod 64. -/
  | sshl (d : SDst) (a b : USrc)
  /-- SSHR (R94). Scalar logical shift right. -/
  | sshr (d : SDst) (a b : USrc)
  /-- SSRA (R94). Scalar arithmetic shift right. -/
  | ssra (d : SDst) (a b : USrc)
  /-- SMIN (R94). Scalar signed minimum. -/
  | smin (d : SDst) (a b : USrc)
  /-- SMINU (R94). Scalar unsigned minimum. -/
  | sminu (d : SDst) (a b : USrc)
  /-- SMAX (R94). Scalar signed maximum. -/
  | smax (d : SDst) (a b : USrc)
  /-- SMAXU (R94). Scalar unsigned maximum. -/
  | smaxu (d : SDst) (a b : USrc)
  /-- SCLZ (R94). Scalar count of leading zeros. -/
  | sclz (d : SDst) (a : USrc)
  /-- SPOP (R94). Scalar population count. -/
  | spop (d : SDst) (a : USrc)
  /-- SBFE (R95). Scalar bit-field extract. -/
  | sbfe (d : SDst) (a b : USrc)
  /-- SBFI (R95). Scalar bit-field insert into d. -/
  | sbfi (d : SDst) (a b : USrc)
  /-- SMOV (R94). Scalar move. -/
  | smov (d : SDst) (a : USrc)
  /-- SADD_IMM (R94). Scalar add of sign-extended imm11. -/
  | saddImm (d : SDst) (a : USrc) (imm : BitVec 11)
  /-- SMUL_IMM (R94). Scalar multiply by sign-extended imm11. -/
  | smulImm (d : SDst) (a : USrc) (imm : BitVec 11)
  /-- SAND_IMM (R94). Scalar AND with zero-extended imm11. -/
  | sandImm (d : SDst) (a : USrc) (imm : BitVec 11)
  /-- SOR_IMM (R94). Scalar OR with zero-extended imm11. -/
  | sorImm (d : SDst) (a : USrc) (imm : BitVec 11)
  /-- SXOR_IMM (R94). Scalar XOR with zero-extended imm11. -/
  | sxorImm (d : SDst) (a : USrc) (imm : BitVec 11)
  /-- SSHL_IMM (R94). Scalar shift left by imm11 mod 64. -/
  | sshlImm (d : SDst) (a : USrc) (imm : BitVec 11)
  /-- SSHR_IMM (R94). Scalar logical shift right by imm11 mod 64. -/
  | sshrImm (d : SDst) (a : USrc) (imm : BitVec 11)
  /-- SSRA_IMM (R94). Scalar arithmetic shift right by imm11 mod 64. -/
  | ssraImm (d : SDst) (a : USrc) (imm : BitVec 11)
  /-- SLI_I (R66). Writes sign-extended imm18 to d. -/
  | sliI (d : SReg) (imm : BitVec 18)
  /-- SLI_Z (R66). Writes zero-extended imm18 to d. -/
  | sliZ (d : SReg) (imm : BitVec 18)
  /-- SLIL (R66). Places imm18 in bits 27:10 of d. -/
  | slil (d : SReg) (imm : BitVec 18)
  /-- SLIM (R66). Places imm18 in bits 45:28 of d. -/
  | slim (d : SReg) (imm : BitVec 18)
  /-- SLIH (R66). Places imm18 in bits 63:46 of d. -/
  | slih (d : SReg) (imm : BitVec 18)
  /-- SLI_F64 (R67). Writes a BF16 immediate widened to binary64. -/
  | sliF64 (d : SReg) (x : BitVec 16)
  /-- SLI_F32 (R67). Writes a BF16 immediate widened to binary32. -/
  | sliF32 (d : SReg) (x : BitVec 16)
  /-- SLI_F16 (R67). Writes a BF16 immediate rounded to binary16. -/
  | sliF16 (d : SReg) (x : BitVec 16)
  /-- SADR (R96). Writes the head address plus 4 times imm18. -/
  | sadr (d : SReg) (imm : BitVec 18)
  /-- SCMP (R96). Writes 1 or 0 by the condition in func5. -/
  | scmp (c : SCond) (d : SDst) (a b : USrc)
  /-- SSEL (R96). Selects a or b by the scalar register named in func5. -/
  | ssel (d : SDst) (a b : USrc) (c : SReg)
  /-- BR (R97). Unconditional relative branch. -/
  | br (off : BitVec 24)
  /-- BC (R97). Conditional relative branch comparing two scalars. -/
  | bc (c : BcCond) (a b : USrc) (off : BitVec 9)
  /-- JMP (R97). Jumps to the address in a. -/
  | jmp (a : USrc)
  /-- CALL (R97). Writes the link and branches relative. -/
  | call (d : SReg) (imm : BitVec 18)
  /-- RET (R97). Returns to the address in a. -/
  | ret (a : USrc)
  /-- LOOP (R97). Decrements the counter and branches while nonzero. -/
  | loop (a : SReg) (off : BitVec 9)
  /-- EXIT (R98). Ends the team after its accesses are performed, releasing registers and slot. -/
  | exit
  /-- YIELD (R99). Ends the tenure, leaving the team ready. -/
  | yield
  /-- NOP (R99). Does nothing but count in the quantum. -/
  | nop
  /-- EMIT (R112). Copies a scratchpad record to a successor stage queue as a device-scope release. -/
  | emit (k : Fin 4) (d : SDst) (a b : USrc)
  /-- LAUNCH (R113). Submits a launch header and parks until it is accepted or refused. -/
  | launch (d : SDst) (a : USrc)
  /-- WIDF (R114). Extracts a field of lane 0's work identifier. -/
  | widf (d : SDst) (f : Fin 6)
  /-- DVG (R100). Pushes m0, narrows it by a mask, and branches if empty. -/
  | dvg (m : MReg) (off : BitVec 9)
  /-- FLIP (R100). Turns m0 to the other lanes of the saved mask, branching if empty. -/
  | flip (off : BitVec 9)
  /-- CVG (R100). Pops the divergence stack into m0. -/
  | cvg
  /-- BANY (R101). Branches when a mask has any lane set. -/
  | bany (m : MReg) (off : BitVec 9)
  /-- BNONE (R101). Branches when a mask is empty. -/
  | bnone (m : MReg) (off : BitVec 9)
  /-- MAND (R102). Mask AND. -/
  | mand (d : MDst) (a b : MReg)
  /-- MOR (R102). Mask OR. -/
  | mor (d : MDst) (a b : MReg)
  /-- MANDN (R102). Mask AND NOT. -/
  | mandn (d : MDst) (a b : MReg)
  /-- MXOR (R102). Mask XOR. -/
  | mxor (d : MDst) (a b : MReg)
  /-- MNOT (R102). Mask NOT, corrected to live lanes. -/
  | mnot (d : MDst) (a : MReg)
  /-- MMOV (R102). Mask copy. -/
  | mmov (d : MDst) (a : MReg)
  /-- MCNT (R103). Counts lanes set in a mask. -/
  | mcnt (d : SDst) (m : MReg)
  /-- MFIRST (R103). Lowest lane set in a mask. -/
  | mfirst (d : SDst) (m : MReg)
  /-- MLW (R103). Reads one lane word of a mask. -/
  | mlw (d : SDst) (m : MReg) (k : Fin 32)
  /-- WAIT (R104). Proceeds once at most n operations of a class are outstanding, else ends the tenure. -/
  | wait (c : WaitClass) (n : BitVec 8)
  /-- WAITQ (R105). Parks escorted until a task queue completes a sequence number. -/
  | waitq (a : USrc) (q : Fin 4)
  /-- LDU (R157). Uniform load of 8 to 64 bits from a + b. -/
  | ldu (o : Ord) (sc : Scope) (w : IW) (d : SDst) (a b : USrc)
  /-- STU (R157). Uniform store of 8 to 64 bits to a + b. -/
  | stu (o : Ord) (sc : Scope) (w : IW) (d a b : USrc)
  /-- ATOMU (R161). Uniform atomic on a global address, old value to d. -/
  | atomu (o : Ord) (sc : Scope) (op : AtomuKind) (d : SDst) (a : USrc)
  /-- CASU (R161). Wide uniform compare-and-swap. -/
  | casu (o : Ord) (sc : Scope) (w : AW) (d : SDst) (a e n : USrc)
  /-- TLOOK (R162). Looks up a tag in a partition, returning slot or miss with victim. -/
  | tlook (d : SDst) (a b : USrc)
  /-- TINS (R162). Installs a tag in a slot, returning the old entry. -/
  | tins (d : SDst) (a b : USrc)
  /-- TINV (R162). Reads and optionally invalidates a tag entry. -/
  | tinv (d : SDst) (a b : USrc)
  /-- FENCE (R147). Orders the team's accesses at a scope. -/
  | fence (o : FenceOrd) (sc : Scope)
  /-- QFENCE (R148). Appends a fence entry to a set of task queues. -/
  | qfence (qs : BitVec 4)
  /-- ARRIVE (R164). Adds a count to a barrier word, returning the old word. -/
  | arrive (o : Ord) (sc : Scope) (d : SDst) (a b : USrc)
  /-- AWAIT (R164). Completes when the barrier phase differs or is bereaved, else parks. -/
  | await (o : Ord) (sc : Scope) (d : SDst) (a b : USrc)
  /-- ARWAIT (R164). Arrives and then awaits the end of that phase. -/
  | arwait (o : Ord) (sc : Scope) (d : SDst) (a b : USrc)
  /-- MWAIT (R165). Completes when a word differs from b, else parks on writes to it. -/
  | mwait (o : Ord) (sc : Scope) (d : SDst) (a b : USrc)
  /-- LKACQ (R167). Wide lock acquire with heir, timeout and modifiers. -/
  | lkacq (o : Ord) (sc : Scope) (d : SDst) (a : USrc) (heir : Option USrc) (t : USrc) (orph tryOnce : Bool)
  /-- LKREL (R168). Releases a lock held by the group and removes its estate entry. -/
  | lkrel (o : Ord) (sc : Scope) (a : USrc)
  /-- PRNEW (R170). Wide promise creation registering an estate entry. -/
  | prnew (o : Ord) (sc : Scope) (d : SDst) (a heir v : USrc)
  /-- PRFUL (R170). Fulfils a promise and removes the group's entry for it. -/
  | prful (o : Ord) (sc : Scope) (a b : USrc)
  /-- PRWAIT (R170). Completes when a promise is fulfilled, else parks. -/
  | prwait (o : Ord) (sc : Scope) (d : SDst) (a : USrc)
  /-- HOLD (R172). Wide registration of an owned object in the estate. -/
  | hold (k : HoldKind) (sc : Scope) (d : SDst) (a heir : USrc)
  /-- UNHOLD (R172). Removes the group's most recent entry of a kind and address. -/
  | unhold (k : ObjKind) (a : USrc)
  /-- HEIR (R173). Sets the heir of one estate holding. -/
  | heir (a b : USrc)
  /-- MTASK (R192). Checks and queues a tile-task record, returning its sequence number. -/
  | mtask (d : SDst) (a : Fin 4)
  /-- CPY (R175). Queues a linear copy on a copy channel. -/
  | cpy (ch : Fin 8) (d a b : USrc)
  /-- CPY2 (R176). Queues a two-dimensional copy on a copy channel. -/
  | cpy2 (ch : Fin 8) (d a b : USrc)
  /-- KICK (R177). Sends a transfer notice to another group's kick queue as a release. -/
  | kick (a b : USrc)
  /-- KPOP (R178). Pops the oldest notice of the group's kick queue. -/
  | kpop (d : SDst)
  /-- KACK (R178). Acknowledges a popped notice on the sender's barrier after earlier copies. -/
  | kack (a : USrc)
  /-- SAR (R212). Starts this device's part of an all-reduce on a named buffer. -/
  | sar (op : SarOp) (a b : USrc)
  /-- SAG (R212). Starts this device's part of an all-gather. -/
  | sag (a b : USrc)
  /-- SSTAT (R213). Reads the buffer's collective status. -/
  | sstat (d : SDst) (a : USrc)
  /-- ESCSET (R108). Writes the escort set registers from three scalars. -/
  | escset (d a b : USrc)
  /-- RGN (R109). Marks a restartable region and invalidates latches. -/
  | rgn
  /-- SRD (R106). Reads a special register into a scalar. -/
  | srd (d : SDst) (n : Special)
  /-- SRD_LANE (R106). Writes %lane or %wid into a lane register of active lanes. -/
  | srdLane (d : VReg) (n : LaneSpecial)
  /-- SWR (R107). Writes a special register, trapping on a locked change. -/
  | swr (n : Special) (a : USrc)
  /-- TRAP (R110). Stops the team with software trap cause 0x0A. -/
  | trap (code : BitVec 18)
  /-- BRK (R110). Stops the team with breakpoint cause 0x0B. -/
  | brk (code : BitVec 18)
  /-- SYS (R111). Queues a service record and parks until answered. -/
  | sys (code : BitVec 18)
  /-- ILLEGAL_WORD (R68). A fetched word failing decode checks raises illegal-encoding or absent-unit trap. -/
  | illegalWord (tid : Nat)
  /-- FETCH_FAULT (R346). An instruction fetch that faults holds the team not ready or raises the access fault. -/
  | fetchFault (tid : Nat)
  /-- BOUNDARY_TRAP (R324). A pending boundary trap is taken at the next instruction boundary, lowest cause first. -/
  | boundaryTrap (tid : Nat)
  /-- TEAM_STOP (R325). After draining, a trapped team's record is saved and a stop event queued. -/
  | teamStop (tid : Nat)
  /-- TENURE_GRANT (R220). The issue selector grants a free lead to a ready resident team. -/
  | tenureGrant (c k : Nat)
  /-- TENURE_SUSPEND (R219). A tenure reaching 512 instructions is suspended at the next boundary. -/
  | tenureSuspend (tid : Nat)
  /-- CONGESTION_PUBLISH (R232). A memory slice publishes its congestion level. -/
  | congestionPublish (slice : Nat)
  /-- THROTTLE_WINDOW (R232). At the end of a 4,096 ck window a group's throttling is decided from its counters. -/
  | throttleWindow (h : Nat)
  /-- CONGESTION_WINDOW (R233). A new 256 ck window resumes teams suspended by the allowance. -/
  | congestionWindow (c : Nat)
  /-- BUDGET_GRANT (R223). Freed abroad bytes are granted to a waiting escort, oldest first. -/
  | budgetGrant (c k : Nat)
  /-- CARRIER_ADMIT (R224). A carrier admits a waiting request once pen space is reserved. -/
  | carrierAdmit (slice : Nat)
  /-- FETCH_ACCESS (R228). A sub-access or unescorted access is performed at a slice and answered. -/
  | fetchAccess (tid seq idx : Nat) (answer : Option Nat)
  /-- PEN_MERGE (R150). A returning element merges into the pen image; an empty pending mask sends the reply. -/
  | penMerge (tid : Nat)
  /-- WATCH_WAKE (R224). A wake-up on the control channel sends a watched frame from the Lodge as a reply. -/
  | watchWake (tid : Nat)
  /-- BARRIER_UNIT_FRAME (R149). The barrier and monitor unit performs a scratchpad or empty escorted access and returns the frame. -/
  | barrierUnitFrame (tid : Nat)
  /-- FRAME_LAND (R225). A reply frame lands in the register store or the Lodge. -/
  | frameLand (tid : Nat)
  /-- LODGE_TO_REGISTER (R225). A lodged frame moves to the register store when room frees. -/
  | lodgeToRegister (c k : Nat)
  /-- LODGE_EVICT (R225). A frame waiting 16,384 ck evicts the longest idle resident team to its save area. -/
  | lodgeEvict (c k : Nat)
  /-- EVICTED_RETURN (R225). An evicted team returns from its save area once room frees and the Lodge is empty. -/
  | evictedReturn (tid : Nat)
  /-- RECALL (R226). A recall on the control channel returns or saves an escort frame with its status. -/
  | recall (tid : Nat)
  /-- UNESCORTED_RESULT (R217). An unescorted load or atomic result writes its destination. -/
  | unescortedResult (tid seq : Nat)
  /-- COMBINE_ENTRY_TIMEOUT (R248). A combining-buffer entry drains 1,024 ck after its first store. -/
  | combineEntryTimeout (c k : Nat)
  /-- LKACQ_TIMEOUT (R167). A parked lock acquire whose timeout runs out completes without acquiring. -/
  | lkacqTimeout (tid : Nat)
  /-- EMIT_SLOT_GRANT (R313). A parked emit appends its record when a queue slot becomes takeable. -/
  | emitSlotGrant (tid : Nat)
  /-- MTASK_RECORD_GRANT (R192). A parked mtask enters the pool when a record frees. -/
  | mtaskRecordGrant (tid : Nat)
  /-- KICK_ENTRY_GRANT (R177). A parked kick queues its notice when a kick entry frees. -/
  | kickEntryGrant (tid : Nat)
  /-- TASK_START (R195). The task scheduler starts a task whose queue, dependences and engines allow it. -/
  | taskStart (c : Nat)
  /-- TASK_AGING (R195). After 4,096 ck a waiting task bars younger tasks from its engines. -/
  | taskAging (c id : Nat)
  /-- TASK_PASS (R185). A pass of 8 A rows completes with its residue checks. -/
  | taskPass (c id : Nat)
  /-- TASK_COMPLETE (R197). A finished or failed task writes its completion word and raises the queue count. -/
  | taskComplete (c id : Nat)
  /-- COPY_PIECE (R243). A copy engine delivers a 256-byte piece and advances %cwpN. -/
  | copyPiece (c : Nat) (ch : Fin 8)
  /-- MULTICAST_APPLY (R264). A replica applies a replicated-page update in series order. -/
  | multicastApply (home die : Nat)
  /-- STAGE_EVALUATION (R230). A cluster evaluates stage pressure and launches at most one group. -/
  | stageEvaluation (c : Nat)
  /-- COALESCE_TIMEOUT (R314). A stage's oldest unbound record waiting tmo ck makes its coalescing condition hold. -/
  | coalesceTimeout (lh k c : Nat)
  /-- ALLOCATION_CLEAR (R236). A freed scratchpad range is cleared in spare bank cycles. -/
  | allocationClear (c base : Nat)
  /-- CONVEYANCE_WRITE (R286). The conveyance agent hands one holding to its heir or makes it heirless. -/
  | conveyanceWrite (h : Nat)
  /-- CONVEYANCE_COMPLETE (R287). Conveyance ends and the group's resources are freed. -/
  | conveyanceComplete (h : Nat)
  /-- SUPERVISOR_RECORD_WRITE (R326). A waiting record is written into a freed supervisor-queue slot. -/
  | supervisorRecordWrite (n : Nat)
  /-- PREEMPT (R330). The device OS pre-empts a context's teams on a set of cores. -/
  | preempt (ctx : Nat) (cores : List Nat)
  /-- PREEMPT_SAVE (R336). Once drained and recalled, a team's record and tag are written. -/
  | preemptSave (tid : Nat)
  /-- TEAM_RESTORE (R339). A saved team is restored when a core can allocate its registers. -/
  | teamRestore (tid : Nat)
  /-- GROUP_KILL (R332). A kill stops and drains the group's teams and begins conveyance. -/
  | groupKill (h reason : Nat)
  /-- CONTEXT_DEATH (R333). A context dies, cancelling its launches and killing its groups. -/
  | contextDeath (ctx cause : Nat)
  /-- TCMD_RETRY (R328). Resumes a stopped team at its trap PC. -/
  | tcmdRetry (who : Agent) (ctx : Nat) (w0 w1 : Word)
  /-- TCMD_SKIP (R328). Resumes a stopped team after the trapping instruction. -/
  | tcmdSkip (who : Agent) (ctx : Nat) (w0 w1 : Word)
  /-- TCMD_REGION (R328). Resumes a stopped team at %rpc with the recorded sr_ctr. -/
  | tcmdRegion (who : Agent) (ctx : Nat) (w0 w1 : Word)
  /-- TCMD_GOTO (R328). Resumes a stopped team at a given address. -/
  | tcmdGoto (who : Agent) (ctx : Nat) (w0 w1 : Word)
  /-- TCMD_KILL (R327). Kills the stopped team's group. -/
  | tcmdKill (who : Agent) (ctx : Nat) (w0 w1 : Word)
  /-- TCMD_ANSWER (R327). Delivers the result of a queued sys request to s4. -/
  | tcmdAnswer (who : Agent) (ctx : Nat) (w0 w1 : Word)
  /-- LAUNCH_ACCEPT (R316). The launch unit examines a header and accepts or refuses the launch. -/
  | launchAccept (tid : Nat)
  /-- LCSTART_WRITE (R317). Sets the first chain entry when the chain is idle. -/
  | lcstartWrite (who : Agent) (w0 : Word)
  /-- LCTAIL_WRITE (R318). Appends to the launch chain and resumes a stalled unit. -/
  | lctailWrite (who : Agent) (w0 : Word)
  /-- CHAIN_ENTRY_PROCESS (R318). The launch unit takes the next chain entry and writes its result. -/
  | chainEntryProcess
  /-- LAUNCH_CANCEL (R320). The device OS cancels a launch, discarding records and killing groups. -/
  | launchCancel (lh : Nat)
  /-- LAUNCH_COMPLETE (R319). A launch with no records, groups or tasks writes its completion word. -/
  | launchComplete (lh : Nat)
  /-- QUOTA_ROW_WRITE (R321). Writes a quota row unless it overcommits capacity or shares an engine. -/
  | quotaRowWrite (who : Agent) (c r : Nat) (w0 w1 w2 : Word)
  /-- TGMAP_WRITE (R240). Writes a tag partition register, refusing bad ones and invalidating entries. -/
  | tgmapWrite (who : Agent) (c p : Nat) (w0 w1 : Word)
  /-- CTXBASE_WRITE (R424). Sets the descriptor base once after reset. -/
  | ctxbaseWrite (who : Agent) (w0 : Word)
  /-- PODCFG_WRITE (R355). Sets the pod identity, ignoring n16 on the ZLX-20. -/
  | podcfgWrite (who : Agent) (w0 : Word)
  /-- TRINV_WRITE (R344). Starts invalidation of translations over a range. -/
  | trinvWrite (who : Agent) (w0 w1 w2 : Word)
  /-- TRINV_COMPLETE (R344). Invalidation completes once caches drop, accesses perform and held faults re-mark. -/
  | trinvComplete
  /-- FRPLY_WRITE (R346). Replays a held fault element with a fresh translation. -/
  | frplyWrite (who : Agent) (d : Nat) (w0 : Word)
  /-- FBHEAD_WRITE (R345). Consumes fault-buffer entries, letting waiting faulting elements enter. -/
  | fbheadWrite (who : Agent) (d : Nat) (w0 : Word)
  /-- SETT_TABLE_WRITE (R366). Registers a named Sett buffer in all base dies unless refused. -/
  | settTableWrite (who : Agent) (b : Nat) (w0 w1 w2 w3 : Word)
  /-- SETT_ABORT (R372). Writing abort ends a collective in flight, bereaved. -/
  | settAbort (who : Agent) (b : Nat)
  /-- MTCFG_WRITE (R404). Configures Marten, ignoring an out-of-range k. -/
  | mtcfgWrite (who : Agent) (w0 : Word)
  /-- SEAL_KEY_WRITE (R390). A write-only link key takes effect when its fourth word is written. -/
  | sealKeyWrite (who : Agent) (j which key : Nat)
  /-- HDBIN_WRITE (R417). The host posts its mailbox producer index. -/
  | hdbinWrite (w0 : Word)
  /-- HDBOUT_WRITE (R417). The device OS posts its producer index and raises MSI-X vector 0. -/
  | hdboutWrite (w0 : Word)
  /-- REGISTER_WRITE (R418). A control-space write to a register without its own row, with access checks. -/
  | registerWrite (who : Agent) (addr size : Nat) (v : Word)
  /-- ASSIGN (R385). Assigns unowned frames privately to a world after wiping. -/
  | assign (who : Agent) (page : Nat) (w0 w1 w2 : Word)
  /-- SHARE (R385). Makes a world's private frames shared. -/
  | share (who : Agent) (page : Nat) (w0 w1 w2 : Word)
  /-- UNSHARE (R385). Makes a world's shared frames private. -/
  | unshare (who : Agent) (page : Nat) (w0 w1 w2 : Word)
  /-- RECLAIM (R385). Returns a world's frames to unowned after wiping. -/
  | reclaim (who : Agent) (page : Nat) (w0 w1 w2 : Word)
  /-- DESTROY (R385). Kills every context of a world and reclaims its frames. -/
  | destroy (who : Agent) (page : Nat) (w0 w1 w2 : Word)
  /-- OWNERSHIP_CHANGE_COMPLETE (R385). After transition, drains and wipe, the new ownership state is written. -/
  | ownershipChangeComplete (n : Nat)
  /-- SEALED_UNIT_SEND (R389). A link seals and sends a unit, rolling or warning at the counter threshold. -/
  | sealedUnitSend (j payload : Nat)
  /-- SEAL_STALL_TIMEOUT (R392). A seal stall lasting 10 ms causes a machine check or context deaths. -/
  | sealStallTimeout (j : Nat)
  /-- SEALED_UNIT_RECEIVE (R389). A receiver verifies a unit's tag and counter and checks its flit. The operands
  are what came on the wire: ciphertext, tag, and of the trailer the counter and the bits above it (R388). -/
  | sealedUnitReceive (j cipher tag ctr high : Nat)
  /-- LINK_CONTROL_RECEIVE (R357). A link-control flit makes the sender resend from the last good flit. -/
  | linkControlReceive (sett : Bool) (port last : Nat)
  /-- LINK_ACK_TIMEOUT (R357). No ack for 160,000 ck with flits outstanding takes the link down. -/
  | linkAckTimeout (sett : Bool) (port : Nat)
  /-- REMOTE_ELEMENT_ARRIVE (R360). A peer performs or denies a remote element through its windows. `args` holds the
  value stored or combined, and what a compare and swap expects. -/
  | remoteElementArrive (src world eseq tag pa size : Nat) (op : PodOp) (args : Nat × Nat)
  /-- REMOTE_TIMEOUT (R362). A remote element unanswered for 2 ms kills the issuing context with cause 0x0D. -/
  | remoteTimeout (tag : Nat)
  /-- MAILBOX_FLIT (R358). A mailbox flit lands in the per-source queue for the device OS. -/
  | mailboxFlit (src payload : Nat)
  /-- SETT_PARAMETER_EXCHANGE (R368). Base dies exchange a collective's parameters, ending it on mismatch. The collective
  is number `num` of buffer `b`. -/
  | settParameterExchange (b d num : Nat)
  /-- SETT_CHUNK_STEP (R368). A base die combines or forwards one chunk step of a collective: on what
  device `src` has sent of chunk `c`, partial or complete; with this device as `src`, its own first sending. -/
  | settChunkStep (b c num src : Nat) (complete : Bool)
  /-- SETT_FAILURE_DETECT (R372). A base die detecting failure sends stops and stops starting steps. -/
  | settFailureDetect (b d : Nat)
  /-- SETT_STOP_RECEIVE (R372). A base die receiving a stop ceases new chunk steps. -/
  | settStopReceive (b d : Nat)
  /-- SETT_FAILURE_WINDOW_END (R372). After 5 ms the die writes status records and arrives bereaved. -/
  | settFailureWindowEnd (b d : Nat)
  /-- SCRUB_LINE (R401). A patrol scrubber reads, corrects or poisons a line. -/
  | scrubLine (site : Site) (corrected : Bool)
  /-- AUDIT_REPLAY_COMPLETE (R405). A Marten replay finishes and its signature is compared. -/
  | auditReplayComplete (item unit : Nat) (abandoned : Bool)
  /-- AUDIT_ARBITRATION (R407). A third replay decides the faulty side, which is fenced. -/
  | auditArbitration (item unit : Nat)
  /-- AUDIT_DUE_TIME (R406). A unit's due time passes and its next item is sampled. -/
  | auditDueTime (engine : Bool) (unit : Nat)
  /-- PROBE_START (R406). No item within 100,000 ck after due time starts a probe. -/
  | probeStart (engine : Bool) (unit : Nat)
  /-- PROBE_COMPLETE (R406). A probe's signature is compared with another cluster's. -/
  | probeComplete (engine : Bool) (unit other third : Nat)
  /-- MACHINE_CHECK_RECORD (R409). A unit writes a machine-check record to its die's ring. -/
  | machineCheckRecord (d addr det ctx kind unit sev how : Nat)
  /-- DEVICE_MACHINE_CHECK (R409). A severity-3 event stops all issue and takes every link down. -/
  | deviceMachineCheck (d kind unit how : Nat)
  /-- POWER_WINDOW (R422). Power averaged over 1 ms above design halves every cluster's issue rate. -/
  | powerWindow (above : Bool)
  /-- ENVELOPE_BREACH (R422). Overtemperature or a supply out of range for 1 ms raises a device machine check. -/
  | envelopeBreach (hot : Bool)
  /-- RESET (R412). A reset wipes the device and starts the boot chain. -/
  | reset
  /-- WIPE_COMPLETE (R411). The wipe finishes and the root core proceeds with the boot chain. -/
  | wipeComplete
  /-- MEASUREMENT_EXTEND (R414). The device OS asks the root core to extend slots 5 to 16. -/
  | measurementExtend (slot digest : Nat)
  /-- GET_VERSION (R393). SPDM request for supported versions. -/
  | getVersion (peer : Option Nat)
  /-- GET_CAPABILITIES (R393). SPDM request for capabilities. -/
  | getCapabilities (peer : Option Nat)
  /-- NEGOTIATE_ALGORITHMS (R393). SPDM algorithm negotiation. -/
  | negotiateAlgorithms (peer : Option Nat) (common : Bool)
  /-- GET_DIGESTS (R393). SPDM request for certificate digests. -/
  | getDigests (peer : Option Nat)
  /-- GET_CERTIFICATE (R393). SPDM request for a certificate chain. -/
  | getCertificate (peer : Option Nat)
  /-- CHALLENGE (R393). SPDM challenge, Busy during firmware activation. -/
  | challenge (peer : Option Nat)
  /-- GET_MEASUREMENTS (R394). Returns measurement blocks, world blocks only in a bound session. -/
  | getMeasurements (peer session : Option Nat) (index : Nat)
  /-- KEY_EXCHANGE (R393). Opens an SPDM session, up to 16. -/
  | keyExchange (peer : Option Nat)
  /-- FINISH (R393). Completes SPDM session establishment. -/
  | finish (peer : Option Nat) (session : Nat) (leaf : Option Nat)
  /-- HEARTBEAT (R393). SPDM session heartbeat. -/
  | heartbeat (peer : Option Nat) (session : Nat)
  /-- KEY_UPDATE (R393). Updates SPDM session keys. -/
  | keyUpdate (peer : Option Nat) (session : Nat)
  /-- END_SESSION (R393). Ends an SPDM session. -/
  | endSession (peer : Option Nat) (session : Nat)
  /-- VENDOR_DEFINED_REQUEST (R394). Passes a payload to and from a bound world's queue. -/
  | vendorDefinedRequest (peer : Option Nat) (session payload : Nat)
  /-- UNSUPPORTED_REQUEST (R393). Any other SPDM request receives ERROR UnsupportedRequest. -/
  | unsupportedRequest (peer : Option Nat)
  /-- FIRMWARE_STAGE (R396). The root core stages new firmware. -/
  | firmwareStage (image : Nat)
  /-- FIRMWARE_ACTIVATE (R396). Activation begins after pending measurement responses, opening the Busy window. -/
  | firmwareActivate
  /-- FIRMWARE_COMMIT (R396). The new measurement values take effect and the Busy window ends. -/
  | firmwareCommit
  /-- FIRMWARE_ABANDON (R396). An abandoned activation restores old values and ends the Busy window. -/
  | firmwareAbandon
  /-- LIFE_CYCLE_TRANSITION (R420). A signed token blows the life-cycle fuses and resets the device. -/
  | lifeCycleTransition (target token : Nat)
  /-- HOST_BAR2_ACCESS (R416). A host access through a memory window is performed or refused. -/
  | hostBar2Access (off size : Nat) (data : Option Nat)
  /-- SINGLE_FAULT (R397). A soft error flips one stored bit, or a persistent fault of one logic element or storage cell begins, in some unit of the device. -/
  | singleFault (site : Site) (uncorrectable : Bool)
deriving DecidableEq, Repr

end Sys2Proof
end

