-- ==== Sys2Proof/Machine/Bits.lean ====
section
/-! DEFINITION. Bit fields, sign extension, byte order and canonical memory cells: the helpers every other file
of the machine uses. -/
namespace Sys2Proof.Machine
open Sys2Proof

/-! ## Words -/

/-- Bits `lo + len - 1 : lo` of a word, as a number. -/
def bits (x : Word) (lo len : Nat) : Nat := x.toNat / 2 ^ lo % 2 ^ len

/-- One bit of a word. -/
def bitAt (x : Word) (i : Nat) : Bool := x.toNat / 2 ^ i % 2 == 1

/-- A word from a number, modulo 2^64. -/
def word (n : Nat) : Word := BitVec.ofNat 64 n

/-- `v` placed at bits `lo + len - 1 : lo` of an otherwise zero word, cut to its field. -/
def field (v lo len : Nat) : Nat := v % 2 ^ len * 2 ^ lo

/-- Word `x` with bits `lo + len - 1 : lo` replaced by the low bits of `v`. -/
def setBits (x : Word) (lo len v : Nat) : Word :=
  word (x.toNat - bits x lo len * 2 ^ lo + field v lo len)

/-- The two's complement value of the low `w` bits of `n`. -/
def signed (w n : Nat) : Int :=
  if n % 2 ^ w < 2 ^ (w - 1) then (n % 2 ^ w : Nat) else (n % 2 ^ w : Nat) - (2 ^ w : Nat)

/-- An integer modulo 2^w, as a number below 2^w. -/
def wrap (w : Nat) (z : Int) : Nat := (z % (2 ^ w : Nat)).toNat

/-- The low `w` bits of `n`, sign-extended to 64 bits (R65, R153). -/
def signExtend (w n : Nat) : Word := word (wrap 64 (signed w n))

/-- Number of one bits among the low `k` bits. -/
def popCount : Nat → Nat → Nat
  | 0, _ => 0
  | k + 1, n => n % 2 + popCount k (n / 2)

/-- Number of significant bits, for a value below 2^k. -/
def bitLength : Nat → Nat → Nat
  | 0, _ => 0
  | k + 1, n => if n = 0 then 0 else 1 + bitLength k (n / 2)

/-- Leading zeros of a `w`-bit value (R94, R121). -/
def clz (w n : Nat) : Nat := w - bitLength w (n % 2 ^ w)

def b2n (b : Bool) : Nat := if b then 1 else 0

/-- `n` rounded up to a multiple of `k`. -/
def roundUp (n k : Nat) : Nat := (n + k - 1) / k * k

def ceilDiv (n k : Nat) : Nat := (n + k - 1) / k

/-! ## Lists indexed from zero -/

/-- Entry `i` of a list, or `d` past its end. -/
def nth {α : Type} (d : α) : List α → Nat → α
  | [], _ => d
  | a :: _, 0 => a
  | _ :: l, i + 1 => nth d l i

/-- Entry `i` replaced, nothing past the end. -/
def setNth {α : Type} : List α → Nat → α → List α
  | [], _, _ => []
  | _ :: l, 0, b => b :: l
  | a :: l, i + 1, b => a :: setNth l i b

/-- The first `n` naturals through `f`. -/
def tabulate {α : Type} (n : Nat) (f : Nat → α) : List α := (List.range n).map f

/-- Sum of a function over a list. -/
def sumOf {α : Type} (f : α → Nat) (l : List α) : Nat := (l.map f).foldl (· + ·) 0

/-- Replaces every entry that satisfies `p` by `f` of it. -/
def updWhere {α : Type} (p : α → Bool) (f : α → α) (l : List α) : List α := l.map fun a => if p a then f a else a

/-- Changes entry `i`. -/
def updAt {α : Type} : List α → Nat → (α → α) → List α
  | [], _, _ => []
  | a :: l, 0, f => f a :: l
  | a :: l, i + 1, f => a :: updAt l i f

/-- Replaces the first entry that satisfies `p`. -/
def updFirst {α : Type} (p : α → Bool) (f : α → α) : List α → List α
  | [] => []
  | a :: l => if p a then f a :: l else a :: updFirst p f l

/-- Removes the first entry that satisfies `p`. -/
def eraseFirst {α : Type} (p : α → Bool) : List α → List α
  | [] => []
  | a :: l => if p a then l else a :: eraseFirst p l

/-- The last entry that satisfies `p`. -/
def findLast? {α : Type} (p : α → Bool) (l : List α) : Option α := l.reverse.find? p

/-- The least element of a list of numbers. -/
def minOf : List Nat → Option Nat
  | [] => none
  | a :: l => some (l.foldl Nat.min a)

/-- The entry whose key is least, the earlier one on a tie. -/
def minBy {α : Type} (key : α → Nat) : List α → Option α
  | [] => none
  | a :: l => some (l.foldl (fun b c => if key c < key b then c else b) a)

/-- The entry whose key is greatest, the earlier one on a tie. -/
def maxBy {α : Type} (key : α → Int) : List α → Option α
  | [] => none
  | a :: l => some (l.foldl (fun b c => if key b < key c then c else b) a)

/-! ## Widths -/

def iwBits : IW → Nat
  | .w8 => 8 | .w16 => 16 | .w32 => 32 | .w64 => 64
def fwBits : FW → Nat
  | .f64 => 64 | .f32 => 32 | .f16 => 16 | .bf16 => 16
def awBits : AW → Nat
  | .w32 => 32 | .w64 => 64

/-- Sub-element `j` of a lane register at width `w` (R37). -/
def subEl (w : Nat) (x : Word) (j : Nat) : Nat := bits x (j * w) w

/-- A lane register from its sub-elements at width `w`: sub-element `j` is `f j` modulo 2^w (R37). -/
def fromSubs (w n : Nat) (f : Nat → Nat) : Word :=
  word ((List.range n).foldl (fun acc j => acc + field (f j) (j * w) w) 0)

/-! ## Bytes -/

/-- Byte `i` of a number, the lowest first (R5). -/
def byteOf (n i : Nat) : Byte := BitVec.ofNat 8 (n / 256 ^ i)

/-- The number of little-endian bytes (R5). -/
def leNat : List Byte → Nat
  | [] => 0
  | b :: l => b.toNat + 256 * leNat l

/-- The low `n` bytes of a number, little-endian. -/
def leBytes (n v : Nat) : List Byte := tabulate n (byteOf v)

/-! ## Cells: sparse data in one canonical form -/

/-- The byte at address `a`: an address that is not listed reads as zero. -/
def cellGet : List (Nat × Byte) → Nat → Byte
  | [], _ => 0
  | (k, b) :: m, a => if k = a then b else if a < k then 0 else cellGet m a

/-- Writes a byte, keeping the addresses strictly rising and no entry equal to zero. -/
def cellSet : List (Nat × Byte) → Nat → Byte → List (Nat × Byte)
  | [], a, v => if v = 0 then [] else [(a, v)]
  | (k, b) :: m, a, v =>
    if a = k then (if v = 0 then m else (a, v) :: m)
    else if a < k then (if v = 0 then (k, b) :: m else (a, v) :: (k, b) :: m)
    else (k, b) :: cellSet m a v

/-- The canonical form of a list of cells: every address is at least `lo`, they rise strictly, and no byte is
zero. -/
def cellsFrom : Nat → List (Nat × Byte) → Bool
  | _, [] => true
  | lo, (k, b) :: m => decide (lo ≤ k) && decide (b ≠ 0) && cellsFrom (k + 1) m

/-- Sparse numbers by key in the same canonical form; an unlisted key reads as zero. -/
def keyGet : List (Nat × Nat) → Nat → Nat
  | [], _ => 0
  | (k, b) :: m, a => if k = a then b else if a < k then 0 else keyGet m a

def keySet : List (Nat × Nat) → Nat → Nat → List (Nat × Nat)
  | [], a, v => if v = 0 then [] else [(a, v)]
  | (k, b) :: m, a, v =>
    if a = k then (if v = 0 then m else (a, v) :: m)
    else if a < k then (if v = 0 then (k, b) :: m else (a, v) :: (k, b) :: m)
    else (k, b) :: keySet m a v

end Sys2Proof.Machine
end

