-- ==== Sys2Proof/Machine/TeamState.lean ====
section
/-! DEFINITION. The state of one team and of the accesses and escorts it has in flight (R35 to R51, R104, R150,
R222, R226, R336). -/
namespace Sys2Proof.Machine
open Sys2Proof

/-- One lane register or one lane latch: the value of each lane, lane 0 first. A lane past the end reads zero. -/
abbrev LaneVal := List Word

/-! ## Accesses in flight -/

/-- The ordering kind of a page (R251); scratchpad has no page. -/
inductive PageKind where
  | relCons | strong | unordered
  /-- Replicated, with its home die (R264). -/
  | replicated (home : Nat)
  | spad
deriving DecidableEq, Repr

/-- Where an element lies once its address is translated. -/
inductive Target where
  /-- A byte of this device's HBM at a physical address. -/
  | hbm (pa : Nat)
  /-- A byte of a cluster's scratchpad. -/
  | spad (cluster off : Nat)
  /-- A byte of a pod peer: the peer device and the physical address the entry gives (R358). -/
  | remote (dev pa : Nat)
deriving DecidableEq, Repr

/-- How far an element has come. -/
inductive ElemSt where
  /-- Translated, not yet performed. -/
  | todo
  /-- A store that sits in the combining buffer (R247). -/
  | buffered
  /-- Held for a translation fault, without or with an entry in the fault buffer (R345). -/
  | queued
  | held
  /-- Sent to a pod peer, not yet answered (R358), or an update in a replicated page's series (R264). -/
  | sent
  /-- An update that its own die's replica has applied, and another die's has not: performed at die scope (R264). -/
  | near
  /-- Performed; a read has its value. -/
  | done
  /-- Its value stands in the destination. -/
  | home
deriving DecidableEq, Repr

/-- One element of an access (R253). -/
structure Elem where
  /-- The lane; 1024 for the one element of a uniform instruction. -/
  lane : Nat
  sub : Nat
  /-- The address as the program gave it. -/
  va : Nat
  /-- Bytes. -/
  size : Nat
  kind : PageKind
  tgt : Option Target
  /-- The memory slice that holds it (R249, R359). -/
  slice : Nat
  /-- The value to store, the operand of an atomic, or the increment of a flag. -/
  arg : Nat
  /-- `cas`: the expected value. `stf` data: the flag address that counts this lane. -/
  aux : Nat
  /-- A flag increment of `stf` rather than a data store. -/
  flag : Bool
  /-- The value read. -/
  got : Nat
  st : ElemSt
deriving DecidableEq, Repr

/-- How a load's elements form the destination (R153, R154, R157). -/
inductive LoadForm where
  | zx (w : IW) | sx (w : IW) | whole (w : IW) | gather (w : IW)
deriving DecidableEq, Repr

/-- A placeholder element. -/
def Elem.zero : Elem := ⟨0, 0, 0, 1, .relCons, none, 0, 0, 0, false, 0, .done⟩

/-- What an access does to its elements. -/
inductive AccOp where
  | load (f : LoadForm)
  | store (w : IW)
  | atom (k : AtomKind)
  | redm (k : AtomKind)
  | cas (w : AW)
  | stf (w : IW)
deriving DecidableEq, Repr

/-- The destination of an access. -/
inductive AccDst where
  | none
  | lane (d : VReg)
  | scalar (d : SReg)
deriving DecidableEq, Repr

/-- An access in flight: one memory instruction and its elements (R104, R150). -/
structure Acc where
  /-- Issue order within the team. -/
  seq : Nat
  op : AccOp
  ord : Ord
  scope : Scope
  /-- The wait class that counts it (R104); none for an escorted access. -/
  cls : Option WaitClass
  dst : AccDst
  /-- The lanes the access acts on (R152). -/
  acting : Mask
  /-- The instruction was escorted, or ran unescorted with EO set: R255 row 5 orders it before later accesses. -/
  esc : Bool
  elems : List Elem
deriving DecidableEq, Repr

/-! ## Waiting on a word, a queue or a unit -/

/-- An estate or barrier word's place with the operation on it: what a monitor, barrier, lock or promise
instruction does once its word is translated (R164 to R170, R425). -/
inductive WordOp where
  | arrive (b : Word)
  | await (phase : Nat)
  | arwait (b : Word)
  /-- An `arwait` whose arrival stands: the word that the arrival found (R164). -/
  | arwaited (old : Word)
  | mwait (b : Word)
  /-- The number of the reserved entry (`none` for `.noest`), the timeout in ck from issue, `.orph`, `.try`. -/
  | lkacq (entry : Option Nat) (timeout : Option Nat) (orph tryOnce : Bool)
  | lkrel
  /-- The number of the reserved entry. -/
  | prnew (entry : Nat)
  | prful (v : Word)
  | prwait
  /-- The reserved entry (`none` where the estate was full and the slot already held), the heir and the extent. -/
  | holdSlot (entry : Option Nat) (heir ext : Word)
deriving DecidableEq, Repr

/-- A word operation with everything it needs to be made again after a fault (R425). -/
structure WordReq where
  op : WordOp
  /-- The address operand. -/
  addr : Nat
  tgt : Option Target
  /-- The kind of its page, which for a replicated one says where the word is read and written (R264). -/
  kind : PageKind
  ord : Ord
  scope : Scope
  dst : SDst
  /-- Ck of the cluster at issue, from which a timeout counts (R167). -/
  issued : Nat
  /-- It has acted on its word. One that a fault held before it could acts, at its replay, as if it had just issued
  (R425). -/
  acted : Bool
deriving DecidableEq, Repr

/-- What an escorted team waits for. -/
inductive EscWhat where
  /-- A memory access whose elements merge into the frame (R150). -/
  | access (seq : Nat)
  /-- A barrier, monitor, lock or promise word (R164 to R170). -/
  | word (r : WordReq)
  /-- `waitq s, q` (R105). -/
  | queue (q : Fin 4) (s : Word)
  /-- `emit` waiting for a slot (R112). -/
  | emit (k : Fin 4) (off len : Nat) (dst : SDst)
  /-- `kick` waiting for an entry (R177). -/
  | kick (target : Nat) (barrier : Nat) (notice : Word)
  /-- `mtask` waiting for a record (R192). -/
  | mtask (rec : List Word) (dst : SDst)
  /-- `launch` waiting for the launch unit (R113); the result once accepted or refused. -/
  | launch (hdr : Nat) (dst : SDst) (result : Option Word)
  /-- `sys` waiting for its answer (R111); whether its record is queued, and the answer. -/
  | sys (code : Nat) (queued : Bool) (args : List Word) (answer : Option Word)
  /-- A scratchpad access or an access without elements at the barrier and monitor unit (R149). -/
  | unitAccess (seq : Nat)
deriving DecidableEq, Repr

/-- Where an escort is (R226). -/
inductive EscPlace where
  | budget | faultHold | request | pen | unit | watched | reply | lodged | saved
deriving DecidableEq, Repr

/-- An escort frame and where it is (R222, R226). The registers it carries stand in the team record until it
lands; the rest die then (R44). -/
structure Escort where
  what : EscWhat
  /-- Bytes of the instruction, by which the PC advances when it is performed. -/
  len : Nat
  /-- It ran unescorted for lack of budget: no register dies and the team stays resident (R151). -/
  eo : Bool
  place : EscPlace
  /-- The carrier slice, when at one (R150). -/
  slice : Nat
  /-- Lane words carried: the summary of m0 and of the stack entries (R222). -/
  carried : BitVec 32
  escv : BitVec 96
  escs : BitVec 32
  /-- Bytes charged to the abroad budget (R223). -/
  charge : Nat
  /-- Frame status: 0 in progress, 1 performed, 2 unperformed, 3 recalled from a pen, 4 arrived (R222). -/
  status : Nat
  /-- Arrival order at the present place, from the device's event counter. -/
  arrived : Nat
  /-- Ck of the cluster at arrival in the Lodge (R225). -/
  lodgedAt : Nat
  /-- The destinations that the instruction has written and that live after the return (R44). -/
  liveV : BitVec 96
  liveS : BitVec 32
  recalled : Bool
  /-- It waited in place before a recall, so that no register has left and no lane word was carried (R151). -/
  whole : Bool
deriving DecidableEq, Repr

/-! ## The team -/

/-- What a team is doing (R218, R226, R325, R330). -/
inductive TeamSt where
  /-- Resident and ready. -/
  | ready
  /-- Resident, waiting until the class count is at most `n` (R104). -/
  | waitClass (c : WaitClass) (n : Nat)
  /-- Resident, waiting for its own unescorted access or for abroad budget (R150, R151). -/
  | waitAcc (seq : Nat)
  | waitBudget (charge order : Nat)
  /-- Resident; a word instruction that ran unescorted for lack of budget waits for its condition (R151). -/
  | waitWord
  /-- Resident; its fetch faulted (R346). -/
  | fetchHeld (va : Nat)
  /-- Its frame is abroad (R226). -/
  | abroad
  /-- Draining after a trap, an `exit` or a pre-emption (R98, R325, R330). -/
  | stopping
  | exiting
  | preempting
  | evicting
  /-- In its save area: 0 pre-empted, 1 stopped, 2 evicted (R336). -/
  | saved (stop : Nat)
deriving DecidableEq, Repr

/-- A tenure with the count of its issued instructions (R218, R219). -/
inductive Tenure where
  | none
  | held (n : Nat)
  /-- Suspended, or saved: the latches stay valid and the next grant resumes it. -/
  | suspended (n : Nat)
deriving DecidableEq, Repr

/-- One patched code word: byte address of the word, low bit of its field, field width and value (R75). -/
structure Patch where
  addr : Nat
  width : Nat
  value : Nat
deriving DecidableEq, Repr

/-- The state of one team (R35). -/
structure Team where
  /-- The model's own name for the team, unique on the device. -/
  tid : Nat
  /-- Group handle; index in the group (`%team`); the core (0 or 1) and slot it holds or last held. -/
  group : Nat
  index : Nat
  cluster : Nat
  core : Nat
  slot : Nat
  /-- L lane words and V declared lane registers (R36). -/
  lwords : Nat
  nregs : Nat
  pc : Word
  /-- v0 to v95; registers at or above V are never named. -/
  v : Vector LaneVal 96
  s : Vector Word 32
  /-- m0 to m7. -/
  m : Vector Mask 8
  /-- The divergence stack, top first (R41). -/
  stack : List Mask
  /-- f0 to f3, f4 to f7 and their valid bits, bit i for fi (R42, R43). -/
  fl : Vector LaneVal 4
  fu : Vector Word 4
  fvalid : BitVec 8
  pidx : Word
  fflags : BitVec 9
  frm : BitVec 3
  ftrap : BitVec 5
  recCount : Word
  rpc : Word
  srCtr : Word
  /-- `sr_ctr` recorded at `rgn` (R28). -/
  srRgn : Word
  escv : BitVec 96
  escs : BitVec 32
  qseq : Vector Word 4
  /-- Tasks issued to Q0 to Q3 (R192). -/
  qissued : Vector Word 4
  /-- Queues in the failed state (R199): the sequence number of the first task that failed, 0 for none. -/
  qfail : Vector Word 4
  /-- `qfence`: for each queue, the completed counts of Q0 to Q3 that its next tasks wait for (R148). -/
  qfence : Vector (Vector Word 4) 4
  sett : Word
  tcause : BitVec 8
  tinfo : Word
  widw : Word
  stage : Nat
  /-- The work base G of the group and the launch's random seed (R312, R28). -/
  workBase : Word
  seed : Word
  /-- Scalars dead after a return, and lane registers dead per lane word (R44). -/
  deadS : BitVec 32
  deadV : Vector (BitVec 32) 96
  /-- The lane words carried at the last return (R336). -/
  lastCarried : BitVec 32
  st : TeamSt
  tenure : Tenure
  accs : List Acc
  /-- Issue number of the next access. -/
  nextSeq : Nat
  /-- A release fence has issued, so that every later write of the team is a release (R257). -/
  relFence : Bool
  escort : Option Escort
  /-- Bytes of abroad budget granted to the escort it is about to issue again (R223). -/
  granted : Nat
  /-- An `arwait` whose arrival stands: its address (R164). -/
  arrivedAt : Option Word
  /-- Boundary traps not yet taken: cause and detail (R324). -/
  pending : List (Nat × Word)
  /-- Ck at which the team became ready, and whether it was ready at the core's previous grant (R220). -/
  readyAt : Nat
  readyPrev : Bool
  /-- Ck at which its last tenure ended or it became resident (R225). -/
  idleSince : Nat
  /-- Global memory instructions issued in the present congestion window (R233). -/
  winCount : Nat
  /-- Ck of the present throttle window spent parked on memory or stalled for it (R232). -/
  memCk : Nat
  resCk : Nat
  /-- The PC at which its last issue turn found an instruction that waits in place for memory (R232). -/
  stalledPc : Option Word
  /-- The launch's patches that overlay this team's fetches (R75). -/
  patches : List Patch
  /-- A command that resumes it at its restore: the PC to resume at (R327, R339). -/
  resume : Bool
  /-- Bytes of the record last written, and the record's save sequence (R336, R337). -/
  saveSeq : Nat
  saveStatus : Nat
  saveWher : Nat
deriving DecidableEq, Repr

/-- A team with every field zero or empty: what a name that denotes no team reads as. -/
def Team.empty : Team where
  tid := 0
  group := 0
  index := 0
  cluster := 0
  core := 0
  slot := 0
  lwords := 1
  nregs := 8
  pc := 0
  v := Vector.replicate 96 []
  s := Vector.replicate 32 0
  m := Vector.replicate 8 0
  stack := []
  fl := Vector.replicate 4 []
  fu := Vector.replicate 4 0
  fvalid := 0
  pidx := 0
  fflags := 0
  frm := 0
  ftrap := 0
  recCount := 0
  rpc := 0
  srCtr := 0
  srRgn := 0
  escv := 0
  escs := 0
  qseq := Vector.replicate 4 0
  qissued := Vector.replicate 4 0
  qfail := Vector.replicate 4 0
  qfence := Vector.replicate 4 (Vector.replicate 4 0)
  sett := 0
  tcause := 0
  tinfo := 0
  widw := 0
  stage := 0
  workBase := 0
  seed := 0
  deadS := 0
  deadV := Vector.replicate 96 0
  lastCarried := 0
  st := .ready
  tenure := .none
  accs := []
  nextSeq := 0
  relFence := false
  escort := none
  granted := 0
  arrivedAt := none
  pending := []
  readyAt := 0
  readyPrev := false
  idleSince := 0
  winCount := 0
  memCk := 0
  resCk := 0
  stalledPc := none
  patches := []
  resume := false
  saveSeq := 0
  saveStatus := 0
  saveWher := 0

/-- Lanes of the team: 32 per lane word (R3). -/
def Team.lanes (t : Team) : Nat := 32 * t.lwords

/-! ## Estate entries (R283, R284) -/

/-- One holding: kind by the numbers of R284 (0 lock, 1 promise, 2 + the kind of `hold`). -/
structure Holding where
  num : Nat
  kind : Nat
  obj : Word
  heir : Word
  aux : Word
  scope : Scope
  order : Nat
  /-- The team whose queue a task-queue holding names, or the group whose channel a copy-channel holding names
  (R172). -/
  owner : Nat
  /-- Reserved at issue by a `lkacq` that has not acquired yet (R167, R174). -/
  reserved : Bool
  /-- It came to the group by conveyance (R288). -/
  conveyed : Bool
deriving DecidableEq, Repr

end Sys2Proof.Machine
end

