-- ==== Sys2Proof/Machine/DeviceState.lean ====
section
/-! DEFINITION. The state of groups, launches, clusters, memory slices, dies, links and the root core: everything of
the device outside its teams. -/
namespace Sys2Proof.Machine
open Sys2Proof

/-! ## Groups and launches -/

/-- An entry of a group's kick queue (R177, R178). -/
structure Kick where
  notice : Word
  /-- The sending group, its cluster and its acknowledgement barrier. -/
  sender : Nat
  cluster : Nat
  barrier : Nat
  popped : Bool
  /-- Acknowledged, once these copies have delivered their last byte (R178). -/
  acked : Option (List Nat)
deriving DecidableEq, Repr

/-- Where a group stands (R285, R287, R332). -/
inductive GroupSt where
  | alive
  /-- Killed, its teams draining; the conveyance reason (R332). -/
  | dying (reason : Nat)
  /-- Conveyance in progress: the reason, and whether the context is dying (R285, R292). -/
  | conveying (reason : Nat) (ctxDead : Bool)
deriving DecidableEq, Repr

/-- A stage heir's test, made once before the lock phase (R288): stage, whether it passed, the `why` code when it
failed, and the group handle reserved. -/
structure StageTest where
  stage : Nat
  passed : Bool
  why : Nat
  handle : Nat
  /-- Slots of the stage's queue reserved for it, until the records are appended. -/
  room : Nat
  /-- Holdings that have gone to the stage, in the order of their records (R291). -/
  holdings : List Holding
  /-- The append of the records was refused: the holdings become heirless one by one (R313). -/
  refused : Bool
deriving DecidableEq, Repr

/-- A group (R3, R35). -/
structure Group where
  handle : Nat
  /-- The launch's handle. -/
  launch : Nat
  ctx : Nat
  cluster : Nat
  stage : Nat
  base : Word
  /-- Scratchpad allocation: offset and bytes as declared (R235). -/
  spadBase : Nat
  spadBytes : Nat
  /-- Write pointers of the copy channels (R175). -/
  cwp : Vector Word 8
  estate : List Holding
  orderCtr : Nat
  kicks : List Kick
  /-- The records bound to it: queue sequence of the first, and how many (R314). -/
  recSeq : Nat
  recCount : Nat
  mbound : Bool
  /-- Throttled by its counters (R232). -/
  detected : Bool
  /-- The slices that carried its requests (R232). -/
  slices : BitVec 64
  /-- Ck at which its window of 4,096 ck began (R232). -/
  window : Nat
  st : GroupSt
  tests : List StageTest
  killed : Bool
  /-- Slots that teams of it have left and that stay taken until its conveyance completes: core, slot and register bytes
  (R287). -/
  held : List (Nat × Nat × Nat)
deriving DecidableEq, Repr

/-- What a kernel header gives the stage that names it (R72). -/
structure Kernel where
  code : Nat
  codeBytes : Nat
  entry : Nat
  pblkBytes : Nat
  spadBytes : Nat
  teams : Nat
  lwords : Nat
  nregs : Nat
  frm : Nat
  mbound : Bool
  patches : List Patch
deriving DecidableEq, Repr

/-- A record in a stage queue, bound or not (R313, R314). -/
structure QRec where
  seq : Nat
  bound : Bool
  /-- The group that it is bound to, or the handle reserved for one. -/
  group : Nat
  /-- Ck of the cluster at its append. -/
  at_ : Nat
deriving DecidableEq, Repr

/-- Bereavement records awaiting their group: the reserved handle, the first record's sequence number, the
holdings and the dead group's cluster-bound flag (R291). -/
structure Bereave where
  handle : Nat
  seq : Nat
  holdings : List Holding
  /-- Handle of the dead group, the `from` of its records. -/
  dead : Nat
deriving DecidableEq, Repr

/-- The input queue of a stage on one cluster (R313). -/
structure StageQueue where
  cluster : Nat
  nextSeq : Nat
  recs : List QRec
  /-- Pending starts: their start indexes (R315). -/
  starts : List Nat
  bereaved : List Bereave
  /-- The stage's shares of slots, register bytes and abroad bytes, from the last evaluation (R231). -/
  share : Option (Nat × Nat × Nat)
deriving DecidableEq, Repr

/-- A stage of a launch (R311). -/
structure Stage where
  cap : Nat
  qbase : Nat
  tmo : Nat
  kc : Nat
  pcls : Nat
  wgt : Nat
  /-- Successors 0 to 3: `none` where not declared. -/
  next : List (Option Nat)
  rlen : Nat
  kernel : Kernel
  queues : List StageQueue
deriving DecidableEq, Repr

/-- A live launch (R309). -/
structure Launch where
  handle : Nat
  ctx : Nat
  widw : Word
  seed : Word
  pblk : Nat
  supq : Nat
  supn : Nat
  cword : Nat
  /-- Clusters of the set, lowest first. -/
  clusters : List Nat
  stages : List Stage
  ending : Bool
  cancelled : Bool
  kills : Nat
  groups : Nat
  /-- The completion word is held for a translation fault (R319). -/
  cwordHeld : Bool
deriving DecidableEq, Repr

/-! ## Clusters -/

/-- A scratchpad range of a cluster: an allocation, a region conveyed to an heir, or a range being cleared
(R235, R236, R290). -/
structure Alloc where
  base : Nat
  size : Nat
  /-- Owning group; 0 when only the device OS keeps it. -/
  owner : Nat
  ctx : Nat
  clearing : Bool
deriving DecidableEq, Repr

/-- A tag-table slot that is or was valid (R162). -/
structure Tag where
  slot : Nat
  tag : Nat
  valid : Bool
  dirty : Bool
  owner : Nat
deriving DecidableEq, Repr

/-- How a bank was planted (R180, R182 to R184). -/
inductive PlantMode where
  | dense
  /-- N-of-24 with the index of each macro row (R183). -/
  | sparse (n : Nat) (idx : List Nat)
  | mod64
deriving DecidableEq, Repr

/-- A planting bank (R180): slots keyed 128 * row + column, a slot not listed is zero; the format code of its
elements; the check columns of its macro rows, mod 255 under 2 * row and mod 257 under 2 * row + 1 (R210); the slots
that hold an uncorrectable error (R400). -/
structure Bank where
  mode : PlantMode
  fmt : Nat
  slots : List (Nat × Nat)
  checks : List (Nat × Nat)
  poison : List Nat
deriving DecidableEq, Repr

def Bank.zero : Bank := ⟨.dense, 3, [], [], []⟩

/-- A Bruin engine (R180). -/
structure Engine where
  /-- The context it serves. -/
  ctx : Option Nat
  bank0 : Bank
  bank1 : Bank
  /-- FP32 bit patterns keyed 128 * row + column. -/
  acc : List (Nat × Nat)
  /-- The 192-bit integers of MOD64 mode, keyed the same way. -/
  acc192 : List (Nat × Nat)
  /-- Accumulator elements that hold an uncorrectable error (R400). -/
  accPoison : List Nat
  /-- The A row buffer's two halves: rows of 256 elements, each a code and its scale. -/
  rows0 : List (List (Nat × Nat))
  rows1 : List (List (Nat × Nat))
  fenced : Bool
  /-- A residue mismatch that its check columns will find (R210), and the ck of the last one found (R403). -/
  mismatch : Bool
  lastMismatch : Option Nat
  /-- A fault that lasts: every pass mismatches until the engine is fenced (R397, R399). -/
  lasting : Bool
  /-- Due time of its next audit (R406). -/
  due : Nat
  /-- The due time has passed and the next item to begin is sampled; and the engine is the replay target of the next audit
  from another cluster (R406). -/
  owed : Bool
  target : Bool
deriving DecidableEq, Repr

def Engine.zero : Engine := ⟨none, .zero, .zero, [], [], [], [], [], false, false, none, false, 3000000, false, false⟩

/-- What a task is doing (R195, R197, R199). -/
inductive TaskSt where
  | queued
  | running
  /-- Stalled on a translation fault of an operand or destination. -/
  | held
  /-- All its passes are done, or it has failed; it completes next. -/
  | finished
  /-- All writes performed; its completion word is held for a translation fault. -/
  | wordHeld
deriving DecidableEq, Repr

/-- A tile task in the pool (R186 to R190). -/
structure Task where
  /-- Issue order on the device. -/
  id : Nat
  /-- The team that issued it and its index, its group, launch and context. -/
  tid : Nat
  index : Nat
  group : Nat
  launch : Nat
  ctx : Nat
  seq : Word
  words : List Word
  /-- The pool record it occupies. -/
  slot : Nat
  st : TaskSt
  /-- Rows completed in the current phase and the phase (R190). -/
  prog : Nat
  ph : Nat
  nsat : Nat
  /-- The completed counts that `qfence` makes it wait for (R148). -/
  after : Vector Word 4
  /-- Ck of the cluster since which it could start but for its engines (R195). -/
  waiting : Option Nat
  /-- It has aged: no younger task takes an engine of its mask (R195). -/
  aged : Bool
  /-- Its team's accesses of lower issue number are performed before it reads an operand (R193). -/
  accBound : Nat
  /-- The failure code of R199, 0 for none. -/
  fail : Nat
  /-- Sampled for an audit when it began (R404); what the log holds of it, and the destination bytes that it has written, by
  virtual address (R405). -/
  sampled : Bool
  log : List Nat
  wrote : List (Nat × Byte)
  /-- Runs on by a `hold .queue` conveyed to an heir (R290). -/
  kept : Bool
deriving DecidableEq, Repr

/-- Completed counts of a team that has exited, which its tasks' dependences read (R98, R195). -/
structure GhostQueues where
  tid : Nat
  qseq : Vector Word 4
deriving DecidableEq, Repr

/-- A copy on a channel (R175, R176, R243 to R245). -/
structure Copy where
  id : Nat
  tid : Nat
  /-- Index of the team in its group. -/
  index : Nat
  group : Nat
  ctx : Nat
  ch : Fin 8
  dst : Nat
  src : Word
  /-- Row length, rows and pitches in bytes; one row for `cpy`. -/
  rlen : Nat
  rows : Nat
  spitch : Nat
  dpitch : Nat
  /-- The team's accesses of lower issue number that store are performed before it reads its source (R175). -/
  after : Nat
  /-- Bytes delivered. -/
  done : Nat
  held : Bool
  /-- Its last byte is delivered, and an older copy of its team is not over: it leaves the count after that one (R78). -/
  delivered : Bool
  /-- Runs on by a `hold .chan` conveyed to an heir (R290). -/
  kept : Bool
deriving DecidableEq, Repr

/-- An entry of the combining buffer: a 64-byte line of one team with the bytes it holds (R247). -/
structure Comb where
  tid : Nat
  /-- The device that holds the line, 16 for this one, and the line's number there: its physical address over 64. -/
  dev : Nat
  line : Nat
  bytes : List (Nat × Byte)
  /-- The bytes' presence: bit i for byte i of the line. -/
  mask : BitVec 64
  /-- Ck at the first store, and its age order. -/
  since : Nat
  age : Nat
deriving DecidableEq, Repr

/-- A translation cache entry (R343). -/
structure Tlb where
  ctx : Nat
  /-- Virtual base and size of the leaf. -/
  va : Nat
  size : Nat
  pte : Word
deriving DecidableEq, Repr

/-- One team core (R215, R216, R220). -/
structure Core where
  comb : List Comb
  /-- Teams that hold its two leads: lane pipe and uniform pipe. -/
  laneLead : Option Nat
  uniLead : Option Nat
  lastSlot : Nat
  fenced : Bool
  due : Nat
  /-- Grants made, which R221 counts. -/
  grants : Nat
  /-- The due time has passed and the next item to begin is sampled; and the core is the replay target of the next audit
  from another cluster (R406). -/
  owed : Bool
  target : Bool
  /-- The tenure holder last refused a pipe: the team, whether the uniform pipe, and the ck (R215). -/
  refused : Option (Nat × Bool × Nat)
deriving DecidableEq, Repr

def Core.zero : Core := ⟨[], none, none, 31, false, 3000000, 0, false, false, none⟩

/-- A cluster (R3, R4). -/
structure Cluster where
  core0 : Core
  core1 : Core
  allocs : List Alloc
  tags : List Tag
  /-- tgmap0 to tgmap15: two words each (R240). -/
  tgmap : Vector (Word × Word) 16
  /-- Quota rows 0 to 15: three words each (R321). -/
  quota : Vector (Word × Word × Word) 16
  e0 : Engine
  e1 : Engine
  e2 : Engine
  tasks : List Task
  copies : List Copy
  tlb : List Tlb
  /-- Sequence of the last save of each record index 32k + t (R337). -/
  saveSeq : List (Nat × Nat)
  audit : Word
  /-- The channel engines' round robin: the groups that each engine has served, the one served last at the end (R243). -/
  served : Vector (List Nat) 8
  /-- Ck at which its window of 256 ck began (R233). -/
  window : Nat
deriving DecidableEq, Repr

def Cluster.zero : Cluster where
  core0 := .zero
  core1 := .zero
  allocs := []
  tags := []
  tgmap := Vector.replicate 16 (0, 0)
  quota := Vector.replicate 16 (0, 0, 0)
  e0 := .zero
  e1 := .zero
  e2 := .zero
  tasks := []
  copies := []
  tlb := []
  saveSeq := []
  audit := 0
  served := Vector.replicate 8 []
  window := 0

/-- A memory slice (R224, R232). -/
structure Slice where
  /-- Congestion levels it has published: ck and level. -/
  pubs : List (Nat × Nat)
deriving DecidableEq, Repr

/-- The image of an engine withdrawn from a context, that a later grant to the context restores (R338): its unit
3c + e and the sequence number of the save. -/
structure EngineImg where
  ctx : Nat
  unit : Nat
  seq : Nat
  engine : Engine
deriving DecidableEq, Repr

/-! ## Faults, multicasts, records -/

/-- What a held element belongs to (R345, R346). -/
inductive FaultRef where
  | elem (tid seq idx : Nat)
  | word (tid : Nat)
  | fetch (tid : Nat)
  | task (cluster id : Nat)
  | taskWord (cluster id : Nat)
  | copy (cluster id : Nat)
  | convey (group : Nat)
  | launchWord (launch : Nat)
  | append (tid : Nat)
  | dropped
deriving DecidableEq, Repr

/-- An entry of a die's fault buffer (R345). -/
structure FaultEntry where
  idx : Nat
  ctx : Nat
  va : Nat
  acc : Nat
  req : Nat
  unit : Nat
  group : Nat
  ref : FaultRef
deriving DecidableEq, Repr

/-- A faulting element that waits at its requester for an entry (R345). -/
structure FaultWait where
  ctx : Nat
  va : Nat
  acc : Nat
  req : Nat
  unit : Nat
  group : Nat
  ref : FaultRef
deriving DecidableEq, Repr

/-- An update of a replicated page in its home die's series (R264). -/
structure Multi where
  num : Nat
  /-- Physical address of the page's own copy; a replica adds `rofs`d. -/
  pa : Nat
  bytes : List Byte
  ctx : Nat
  group : Nat
  /-- The team, and the access and element it belongs to; `none` for the word of a barrier, lock or promise. -/
  tid : Nat
  /-- The die it was made on. -/
  die : Nat
  part : Option (Nat × Nat)
  /-- A release, which is performed only when every replica has applied it. -/
  rel : Bool
  /-- Dies that have applied it, and dies where it failed (R265). -/
  applied : BitVec 4
  torn : BitVec 4
deriving DecidableEq, Repr

/-- A machine-check record (R409). -/
structure McRec where
  addr : Nat
  det : Nat
  time : Nat
  ctx : Nat
  kind : Nat
  unit : Nat
  sev : Nat
  how : Nat
  rep : Nat
deriving DecidableEq, Repr

/-- A die's registers and buffers (R345, R409, R418). -/
structure Die where
  faults : List FaultEntry
  waits : List FaultWait
  fbhead : Nat
  fbtail : Nat
  mcw : Nat
  mcr : Nat
  mcdrop : Nat
  /-- Records that wait in their unit for a slot (R409). -/
  mcWait : List McRec
  /-- The severity-0 records that stand in the ring, for merging, the last one first: ring number and record. -/
  mcRecent : List (Nat × McRec)
  /-- The series of updates homed on this die that some replica has not applied (R264). -/
  series : List Multi
  nextNum : Nat
deriving DecidableEq, Repr

def Die.zero : Die := ⟨[], [], 0, 0, 0, 0, 0, [], [], [], 0⟩

/-- A record for a context's or a launch's supervisor queue that waits for a slot (R310, R326). -/
structure SupRec where
  /-- Address and capacity of the launch's queue that it is for, or `none` for the context's queue. -/
  launch : Option (Nat × Nat)
  ctx : Nat
  /-- The four words of each slot, one or two slots. -/
  slots : List (List Word)
  cluster : Nat
  /-- The estate entry it replaces stays allocated in that cluster's store (R310). -/
  entry : Bool
  /-- The parked team whose `sys` request it is (R111). -/
  tid : Option Nat
deriving DecidableEq, Repr

/-! ## Control space -/

/-- One seal block (R390): register fields, the four keys, and the traffic it holds. -/
structure Seal where
  st : Nat
  pend : Bool
  kph : Bool
  warn : Bool
  afail : Bool
  ctr : Nat
  thr : Nat
  curS : Option Nat
  penS : Option Nat
  curR : Option Nat
  penR : Option Nat
  /-- Receiving side: last counter accepted and phase. -/
  rxCtr : Option Nat
  rxPh : Bool
  /-- Ck of its stall (R392). -/
  stallAt : Option Nat
  /-- Sending keys that have been in use, under which no counter value may come again (R389). -/
  spent : List Nat
  /-- Receiving keys that have been in use, with the last counter accepted under each (R389). -/
  past : List (Nat × Nat)
deriving DecidableEq, Repr

def Seal.zero : Seal := ⟨0, false, false, false, false, 0, 0xF00000000000, none, none, none, none, none, false, none, [], []⟩

/-! ## Flits (R356, R364, R365, R368, R372) -/

/-- What a flit carries, by the operations of R356 and the messages of the Sett rings. -/
inductive FlitBody where
  /-- Pod fetch: the world, the place and the operation with its operands; `stf` tells data of an `stf` from a store. -/
  | fetch (world pa size : Nat) (op : PodOp) (stf : Bool) (arg aux : Nat)
  /-- Pod forward: a value, an acknowledgement, a denial, or bytes that are poisoned. -/
  | reply (value : Nat)
  | ack
  | denial
  | poisoned
  | mailbox (payload : Nat)
  /-- Sett: the parameters of the `n`-th collective on a buffer (R368): format, chunks, participants and operation. -/
  | params (buf n fmt nchk pmask op : Nat)
  /-- Sett: part `part` of a chunk of the `n`-th collective on a buffer, with its contributors and whether the value is
  complete (log 100). -/
  | chunk (buf n c part : Nat) (data : List Byte) (contrib : Nat) (complete : Bool)
  /-- Sett: a stop, with participants of the collective that it stops (R372; log 101). -/
  | stop (buf n who : Nat)
deriving DecidableEq, Repr

/-- A flit of 256 bytes with its header fields (R356); `seq` is the number its link gives it. -/
structure Flit where
  seq : Nat
  eseq : Nat
  src : Nat
  dst : Nat
  /-- 0 pod fetch or Sett data, 1 pod forward, 2 mailbox. -/
  vn : Nat
  rly : Bool
  tag : Nat
  body : FlitBody
deriving DecidableEq, Repr

/-- A sealed unit of 288 bytes (R388): 256 encrypted bytes, the tag of 16 bytes, and the counter and key phase of the
trailer of 16 bytes, with the trailer's other bits. -/
structure SealedUnit where
  cipher : Nat
  tag : Nat
  ctr : Nat
  phase : Bool
  rest : Nat
deriving DecidableEq, Repr

/-- One link's link-layer state: pod port, Sett port or on-package direction (R357, R363, R389). -/
structure Link where
  up : Bool
  nextSeq : Nat
  /-- The replay buffer, oldest first, and how many of its flits have been put on the wire since the last resend. -/
  replay : List Flit
  sent : Nat
  rxSeq : Nat
  resends : Nat
  /-- Ck since which flits have been outstanding without an `ack`. -/
  since : Nat
  /-- The receiver has named the last good number, and discards what follows until that number's successor comes. -/
  asked : Bool
deriving DecidableEq, Repr

def Link.zero : Link := ⟨true, 0, [], 0, 0xFFFF, 0, 0, false⟩

/-- A remote element on its way (R358, R362). -/
structure Remote where
  tag : Nat
  tid : Nat
  seq : Nat
  idx : Nat
  dev : Nat
  ctx : Nat
  group : Nat
  /-- Timer in ck since it was sent, and whether it stands still behind a seal stall (R392). -/
  timer : Nat
  stalled : Bool
deriving DecidableEq, Repr

/-- An entry of the Sett buffer table (R366). -/
structure SettEntry where
  w0 : Word
  w1 : Word
  w2 : Word
  w3 : Word
  /-- `sstat` (R213). -/
  state : Nat
  refused : Bool
  partials : Nat
  gen : Nat
  /-- The reservation has gone back to the device OS (R290). -/
  released : Bool
deriving DecidableEq, Repr

def SettEntry.zero : SettEntry := ⟨0, 0, 0, 0, 0, false, 0, 0, false⟩

/-- A base die's part of a collective (R368 to R372). -/
structure SettDie where
  /-- Its parameters have been sent round the ring, and those of these participants have come and agree (R368). -/
  sent : Bool
  heard : List Nat
  agreed : Bool
  arrived : Bool
  /-- A failure window in progress: ck of the detection or stop (R372). -/
  stopAt : Option Nat
deriving DecidableEq, Repr

/-- A collective in flight on a named buffer, the `num`-th of this device there (R368). -/
structure Collective where
  buf : Nat
  num : Nat
  gather : Bool
  op : SarOp
  /-- Virtual address of the barrier word in the context of the request. -/
  barrier : Nat
  dies : List SettDie
  /-- Status of each chunk that is not untouched: chunk, 1 partial or 2 complete, contributors. -/
  chunks : List (Nat × Nat × Nat)
  /-- Chunks that this device has sent to the next participant as their owner. -/
  opened : List Nat
  group : Nat
  ctx : Nat
deriving DecidableEq, Repr

/-- An answer to the host (R416). -/
inductive HostReply where
  | read (addr : Nat) (value : Nat)
  | written (addr : Nat)
  | unsupported (addr : Nat)
deriving DecidableEq, Repr

/-! ## The root core -/

/-- A world the root core has created (R382, R394). -/
structure World where
  id : Nat
  owner : Nat
  image : Nat
  /-- Number of its save key, never readable (R337). -/
  saveKey : Nat
  /-- Physical address of its queue of vendor-defined messages (R394). -/
  queueAt : Nat
  /-- Vendor-defined messages queued to and from it (R394). -/
  inbox : List Nat
  outbox : List Nat
deriving DecidableEq, Repr

/-- An SPDM session (R393, R394). -/
structure Session where
  id : Nat
  /-- The pod mailbox peer, or `none` for the host's DOE. -/
  peer : Option Nat
  established : Bool
  mutualAuth : Bool
  /-- Hash of the requester's leaf key, when authenticated. -/
  leaf : Nat
  keyGen : Nat
deriving DecidableEq, Repr

/-- What the root core has authenticated on a port: pod ports from 0 and Sett ports from 16, the export master secret of the
session, and the SHA-512 of the peer's device public key (R391, R395). -/
structure LinkAuth where
  port : Nat
  secret : Nat
  peerKey : Nat
deriving DecidableEq, Repr

/-- A hart of a general-purpose core: the world that it carries, where it runs once it has been started, and its integer
registers by number, unlisted ones zero. The spec names its instruction set and gives none of it (R2, R382, R412). -/
structure Hart where
  world : Nat
  pc : Option Nat
  regs : List (Nat × Nat)
deriving DecidableEq, Repr
/-- The root core: where it runs, outside its boot ROM, and its integer registers (R2, R412). -/
structure RootCore where
  pc : Option Nat
  regs : List (Nat × Nat)
deriving DecidableEq, Repr

/-- The algorithms that the root core negotiates, and its capabilities (R393). -/
inductive SpdmAlg where
  | asymEd25519 | hashSha512 | measurementSha512 | dheSecp384r1 | aeadAes256Gcm | scheduleSpdm
deriving DecidableEq, Repr
inductive SpdmCap where
  | cert | chal | measSigned | keyEx | mutAuth | encrypt | mac | hbeat | keyUpd
deriving DecidableEq, Repr
def SpdmAlg.all : List SpdmAlg := [.asymEd25519, .hashSha512, .measurementSha512, .dheSecp384r1, .aeadAes256Gcm, .scheduleSpdm]
def SpdmCap.all : List SpdmCap := [.cert, .chal, .measSigned, .keyEx, .mutAuth, .encrypt, .mac, .hbeat, .keyUpd]
/-- A request that the root core sends to a peer device, for link keys (R391, R393). -/
inductive SpdmRequest where
  | getVersion | getCapabilities | negotiateAlgorithms | getDigests | getCertificate | challenge | keyExchange | finish
  | heartbeat | keyUpdate | endSession
deriving DecidableEq, Repr

/-- A message the root core has sent (R393 to R396). -/
inductive SpdmReply where
  | version
  | capabilities (l : List SpdmCap)
  | algorithms (l : List SpdmAlg)
  | digests | certificate | challengeAuth
  | measurements (blocks : List (Nat × Nat))
  | keyExchange (session : Nat)
  | finish | heartbeat | keyUpdate | endSession
  | vendor (payload : Nat)
  | errUnsupported | errSessionLimit | errInvalid | errBusy
deriving DecidableEq, Repr

/-- Live firmware activation (R396). -/
inductive FwSt where
  | idle
  | staged (image : Nat)
  | active (image : Nat) (old : Vector (BitVec 512) 16) (since : Nat)
deriving DecidableEq, Repr

/-- The boot chain (R412, R415). -/
inductive BootSt where
  | wiping | romRun | rootRun | osStarting | running | stopped
deriving DecidableEq, Repr

/-- An image place of the flash: the header bytes and the payload's bytes, sparse (R412, R413). -/
structure FlashImage where
  header : List Byte
  /-- Payload bytes keyed by offset; unlisted bytes are zero. -/
  payload : List (Nat × Byte)
  readable : Bool
deriving DecidableEq, Repr

def FlashImage.blank : FlashImage := ⟨[], [], true⟩

/-- One-time fuses and counters (R413, R419, R420). -/
structure Fuses where
  lcs : Nat
  rma : Nat
  keyMfg : Nat
  keyDev : Nat
  keyProd : Nat
  floorRoot : Nat
  floorOs : Nat
deriving DecidableEq, Repr

/-- An audit in progress (R405, R407): engine 3c + e or core 2c + k that ran the item, the task or group handle, its
context, and the unit that replayed it with another signature. A group is audited team by team. -/
structure Audit where
  engine : Bool
  unit : Nat
  item : Nat
  ctx : Nat
  replay : Option Nat
  /-- What the log holds of it from the beginning: a task's record and reads, or the seed and identifiers from which a
  team's roundings follow (R28). -/
  log : List Nat
  /-- Its place in the log area and the bytes written there. -/
  place : Nat
  size : Nat
  /-- What the original's signature is formed over, and what a replay forms its own over. -/
  orig : List Byte
  copy : List Byte
  /-- The team that it audits, as it last stood after an instruction, and the shadow that the log has brought as far. -/
  seen : Option Team
  shadow : Option Team
deriving DecidableEq, Repr

/-- A change of ownership in progress (R385). -/
structure OwnerChange where
  /-- The ownership page it was issued through. -/
  page : Nat
  frames : List Nat
  /-- The states that the frames' entries had, under which accesses translated before are performed (R385 step 3). -/
  was : List Nat
  /-- World and state of the new entries. -/
  world : Nat
  state : Nat
  wipe : Bool
deriving DecidableEq, Repr

/-! ## Poison -/

/-- A single fault's mark on stored state, found at the next read of it (R397, R400). -/
abbrev Poison := Site
/-- What one store has written of a marked place: the access of a team by its numbers, or a copy under team 0. -/
structure Mend where
  who : Nat × Nat
  site : Poison
  bytes : BitVec 64
deriving DecidableEq, Repr

end Sys2Proof.Machine
end

