-- ==== Sys2Proof/Config.lean ====
section
/-! DEFINITION. What differs between parts (R1, R2) and the values the spec leaves open: opaque constants without
a body, of which nothing can be proved. -/
namespace Sys2Proof

/-- The two parts (R1). -/
inductive Part where | zlx40 | zlx20
deriving DecidableEq, Repr

/-- Clusters, compute dies, HBM stacks and pod ports of a part (R2). -/
def Part.clusters : Part → Nat
  | .zlx40 => 128 | .zlx20 => 64
def Part.dies : Part → Nat
  | .zlx40 => 4 | .zlx20 => 2
def Part.stacks : Part → Nat
  | .zlx40 => 8 | .zlx20 => 4
def Part.ports : Part → Nat
  | .zlx40 => 15 | .zlx20 => 7
/-- HBM bytes of a part: 48 GiB per stack (R2). -/
def Part.hbmBytes (p : Part) : Nat := p.stacks * 51539607552
/-- Whether the part has Sett ports and MOD64 arithmetic (R1, R52). -/
def Part.full : Part → Bool
  | .zlx40 => true | .zlx20 => false

/-- A free value of `w` bits, one for each number drawn. -/
opaque Config.freeValue : Nat → (w : Nat) → BitVec w
/-- A free choice, one for each number drawn. -/
opaque Config.freeChoice : Nat → Bool
/-- The rounded value of a transcendental function that the model's bounds leave undecided, by operand code. -/
opaque Config.hardCase : Nat → Nat
/-- What a core's cycle counter read when the device's did 0 (R46: values on different cores are not
comparable). -/
opaque Config.coreSkew : Nat → Nat
/-- What the local cycle counter of another reporting unit read when the device's did 0, by kind and unit number of R409
(R10). -/
opaque Config.unitSkew : Nat → Nat → Nat
/-- The start of each cluster's audit counter, which the root core draws at reset (R404). -/
opaque Config.auditStart : Nat → BitVec 64
/-- The fused key hash of MANUFACTURE, DEVELOP and PRODUCTION (R413, R419). -/
opaque Config.keyHash : Nat → Nat
/-- SHA-512 of a byte string (R413, R414). -/
opaque Config.sha512 : List Byte → BitVec 512
/-- Ed25519 verification: public key, signature, message (R413). -/
opaque Config.ed25519 : List Byte → List Byte → List Byte → Bool
/-- AES-256-GMAC: key number, IV and message give a 128-bit tag (R337). -/
opaque Config.gmac : Nat → Nat → List Byte → BitVec 128
/-- AES-256-GCM of a link's units: key, IV and 256 plain bytes give 256 encrypted ones, and back; key, IV, encrypted
bytes and trailer give the tag of 128 bits (R387, R388). -/
opaque Config.gcmSeal : Nat → Nat → Nat → Nat
opaque Config.gcmOpen : Nat → Nat → Nat → Nat
opaque Config.gcmTag : Nat → Nat → Nat → Nat → Nat
/-- The operation code, the length and the payload with which a flit carries what it says, and back: R356 names the
operations without codes, and gives the payload no layout. -/
opaque Config.bodyBits : Machine.FlitBody → Nat × Nat × Nat
opaque Config.bodyOf : Nat → Nat → Nat → Option Machine.FlitBody
/-- A key that the root core generates, for an on-package link or for a world's saves (R382, R391). -/
opaque Config.derivedKey : Nat → Nat
/-- The test key of a world in the MANUFACTURE state (R419). -/
opaque Config.testKey : Nat → Nat
/-- HKDF-Expand with SHA-512: a session's export master secret and a link identifier give a link's key (R391). -/
opaque Config.linkKey : Nat → Nat → Nat
/-- What a task whose engine's logic has a fault should have written, by what its log holds (R405). -/
opaque Config.replayed : List Nat → List Nat
/-- What the probes of a core and of an engine form their signatures over (R406). -/
opaque Config.probeBytes : Bool → List Byte
/-- The signature of a replay on a unit whose logic has a fault. -/
opaque Config.wrongSignature : Bool → Nat → List Byte → Nat
/-- Whether a firmware or life-cycle token carries Zalgil's signature for this device (R420). -/
opaque Config.tokenValid : Nat → Bool
/-- Where the root firmware puts the frame ownership table, and the pod identity it writes, by the boot's number
(R355, R383, R412). -/
opaque Config.bootFotbase : Nat → BitVec 64
opaque Config.bootPodcfg : Nat → BitVec 64
/-- The bytes 0x4_0000 to 0x4_0FEF of an engine image, whose layout the spec does not give (R338). -/
opaque Config.engineTail : Nat → List Byte
/-- How a torn-multicast record packs the failed die and the series number into its detail word (R265, R326). -/
opaque Config.tornDetail : Nat → Nat → BitVec 64
/-- The congestion level that a slice publishes, from an occupancy measure the spec does not fix (R232). -/
opaque Config.publishLevel : Nat → Nat

end Sys2Proof
end

