-- ==== Sys2Proof/Machine/State.lean ====
section
/-! DEFINITION. The machine state: one module, its teams, memory, control space and root core, and the turns that
other agents are about to take; the reasons a step stops; the state after reset (R411, R412). -/
namespace Sys2Proof.Machine
open Sys2Proof

/-- Memory: bytes by address, the addresses strictly rising and no byte zero. An unlisted address reads as zero,
since a reset wipes every byte to zero (R411). -/
abbrev Memory := List Host.Cell

/-- The canonical form of memory. -/
def Memory.wf (m : Memory) : Bool := cellsFrom 0 m

/-- Who acts at the next step (R1 to R10: no agent's pace is fixed against another's). -/
inductive Turn where
  /-- A team that holds a tenure issues its next instruction. -/
  | issue (tid : Nat)
  /-- The device takes one of its own steps, or one that an outside agent asked for. -/
  | event (e : Instr)
  /-- Nothing happens for `n` ck. -/
  | elapse (n : Nat)
  /-- The root core sets the world of the code that a general-purpose core's hart runs (R382). -/
  | enterWorld (hart world : Nat)
  /-- A hart stores bytes in HBM, or loads some (R382, R384). -/
  | gpStore (hart pa : Nat) (bytes : List Byte)
  | gpLoad (hart pa n : Nat)
  /-- The root core stores bytes in HBM, or loads some (R384). -/
  | rootStore (pa : Nat) (bytes : List Byte)
  | rootLoad (pa n : Nat)
  /-- The device OS takes the oldest mailbox flit of a device from its queue, or sends one (R358). -/
  | takeMail (src : Nat)
  | sendMail (dst payload : Nat)
  /-- The device OS, or a debugger, reads an entry of a group's estate (R283). -/
  | readEntry (group num : Nat)
  /-- The device OS frees a region that a supervisor queue holds (R290). -/
  | freeRegion (cluster base : Nat)
  /-- The outside world places an image in the flash (R412). -/
  | flash (place : Nat) (image : FlashImage)
  /-- The root core sends a request to the device at the other end of a port, pod ports from 0 and Sett ports from 16, as
  the requester of a link session (R391, R393). -/
  | linkRequest (port : Nat) (r : SpdmRequest)
  /-- The link session of a port ends: with the export master secret and the hash of the peer's device key, or with a peer
  that is not authenticated (R391, R395). -/
  | linkSession (port : Nat) (result : Option (Nat × Nat))
  /-- The root core loads the sending key that a port's session gives (R391). -/
  | linkKey (port : Nat)
  /-- The root core creates a world (R382, R394). -/
  | world (w : World)
  /-- A world queues a vendor-defined payload, or takes one from its queue (R394). -/
  | worldSend (w payload : Nat)
  | worldTake (w : Nat)
  /-- The wipe after a reset fails (R412, R415). -/
  | wipeFails
  /-- The third replay of an audited item meets a fault of its own (R405). -/
  | thirdFails (item unit : Nat)
  /-- An agent reads a register of BAR0 (R415, R416). -/
  | readBar0 (off : Nat)
  /-- A hart, or the root core, has run code of its own: where it is now, and its registers (R2). -/
  | hartRun (hart pc : Nat) (regs : List (Nat × Nat))
  | rootRun (core : RootCore)
  /-- A debugger sets the root core's registers (R419). -/
  | rootDebug (core : RootCore)
  /-- The device OS sets stage 4 of `hbst` (R415). -/
  | osRunning
deriving DecidableEq, Repr

/-- The whole state of one device. -/
structure State where
  part : Part
  /-- The team in focus, `tid` = 0 for none, and every other team of the device. -/
  cur : Team
  others : List Team
  groups : List Group
  launches : List Launch
  clusters : List Cluster
  slices : List Slice
  dies : List Die
  /-- HBM by physical address; scratchpad by 2^22 * cluster + offset. -/
  hbm : Memory
  spad : Memory
  poison : List Poison
  /-- The model's own record of the stores that have written part of a marked place (R400). -/
  mended : List Mend
  ghosts : List GhostQueues
  engImgs : List EngineImg
  supRecs : List SupRec
  remotes : List Remote
  changes : List OwnerChange
  -- control space (R418)
  podcfg : Word
  lcstart : Word
  lctail : Word
  lcdone : Word
  ctxbase : Word
  fotbase : Word
  mcbase : Word
  /-- The invalidation in progress: context, every address, virtual base, length (R344). -/
  trinv : Option (Nat × Bool × Nat × Nat)
  trinvDone : Bool
  /-- The model's own record of what walks have found since the last invalidation of the page: an entry, zero for an
  invalid one, that any access may still use after it has changed (R343). -/
  walked : List Tlb
  rly : Vector Word 16
  pwin : Vector (Word × Word) 64
  scrub : Word
  mtcfg : Word
  rofs : Vector Word 4
  hwin : Vector Word 4
  sett : Vector SettEntry 64
  seals : Vector Seal 86
  /-- Words 1 and up of multi-word registers, by address, until word 0 is written (R418). -/
  staged : List (Nat × Nat)
  /-- `tcst` by context, `fotcmd` status by world; unlisted reads 0. -/
  tcst : List (Nat × Nat)
  fotst : List (Nat × Nat)
  -- links
  /-- The link layer of each on-package direction, numbered as the seal blocks are (R387, R389). -/
  pkgLinks : Vector Link 24
  podLinks : Vector Link 15
  settLinks : Vector Link 16
  /-- Next end-to-end number to each peer, and the next one accepted from each (R357). -/
  eseqTx : Vector Nat 16
  eseqRx : Vector Nat 16
  /-- Flits that came ahead of their turn, and flits that wait for room in a port's replay buffer (R357). -/
  early : List Flit
  podOut : List Flit
  /-- Link-control flits sent: Sett or pod, port, and the last number received in order (R357). -/
  controlOut : List (Bool × Nat × Nat)
  /-- Mailbox flits that have come, by source, oldest first, and those that the device OS has taken (R358). -/
  mail : List (Nat × Nat)
  mailRead : List (Nat × Nat)
  wire : List (Nat × SealedUnit)
  /-- Ports whose last link session did not authenticate the peer, pod ports from 0 and Sett ports from 16 (R395). -/
  authFailed : List Nat
  /-- What the last session of a port authenticated (R391, R395). -/
  linkAuth : List LinkAuth
  /-- Requests that the root core has sent to peer devices: port and request (R393). -/
  spdmReqs : List (Nat × SpdmRequest)
  collectives : List Collective
  /-- Sett messages that have come to a base die and wait for it: die, ck of arrival, message. Flits that wait for room in
  a Sett port's replay buffer. -/
  settIn : List (Nat × Nat × Flit)
  settOut : List (Nat × Flit)
  /-- Bereaved arrivals for refused requests that wait for a translation fault of their barrier's page: context and
  address (R212). -/
  settHeld : List (Nat × Nat)
  /-- Objects that conveyance has released to the device OS: context, kind and object (R290). -/
  osObjects : List (Nat × Nat × Nat)
  /-- Estate entries that the device OS or a debugger has read, in the layout of R284 (R283). -/
  entriesRead : List (List Word)
  -- root core and host
  boot : BootSt
  hbErr : Nat
  /-- The measurement slots 1 to 16 (R414). -/
  slots : Vector (BitVec 512) 16
  fuses : Fuses
  flash : Vector FlashImage 4
  fw : FwSt
  worlds : List World
  /-- Number of the save key of world 0 (R337, R382). -/
  osKey : Nat
  /-- The harts of the general-purpose cores, GP(8d) to GP(8d + 7) on die d (R4, R382). -/
  harts : List Hart
  /-- The root core, and whether its firmware has been entered since the reset (R412, R416). -/
  root : RootCore
  rootUp : Bool
  /-- What harts have loaded: hart, address and value; what the root core has loaded. -/
  gpLoads : List (Nat × Nat × Nat)
  rootLoads : List (Nat × Nat)
  /-- Peers with which the algorithms have been negotiated (R393). -/
  agreed : List (Option Nat)
  sessions : List Session
  spdmOut : List SpdmReply
  hdbin : Word
  hdbout : Word
  hostOut : List HostReply
  msix : BitVec 32
  /-- Interrupt of each die's fault buffer to the general-purpose cores (R345). -/
  fbIrq : BitVec 4
  /-- Access-fault exceptions that general-purpose cores took in control space: world and address (R418). -/
  gpFaults : List (Nat × Nat)
  rootAlarms : Nat
  -- reliability
  audits : List Audit
  /-- Engines and cores whose logic has a fault that only Marten finds (R399). -/
  faulty : List (Bool × Nat)
  probes : List (Bool × Nat)
  /-- A device machine check has stopped every core and engine (R409). -/
  mcStop : Bool
  powerCut : Bool
  -- names and time
  /-- Ck since reset; a core's `%cyc` adds a skew of its own (R10, R46). -/
  ck : Nat
  nextTid : Nat
  nextId : Nat
  events : Nat
  /-- The model's own counter of free values drawn. -/
  freeCtr : Nat
  agenda : List Turn
deriving DecidableEq, Repr

/-- Why a step ends the run. -/
inductive Fault where
  /-- Raised by `step` when a device machine check has stopped the device and no turn of another agent is due:
  the device resumes only through a reset (R409). Safe: the hardware does nothing either. -/
  | machineCheck
  /-- Raised by `step` when the boot chain has stopped (R412) and no turn is due. Safe, for the same reason. -/
  | bootStopped
deriving DecidableEq, Repr

/-- Why a step has no meaning in the model. -/
inductive Refusal where
  /-- Raised by `exec` for an instruction that has no meaning yet. Safe. -/
  | notModelled (mnemonic : String)
deriving DecidableEq, Repr

/-- What a meaning answers. -/
abbrev Out := Host.Outcome State Fault Refusal

/-! ## Reset -/

/-- The state after reset of a part with given fuses, flash and audit start values (R411, R412). -/
def State.resetOf (p : Part) (fuses : Fuses) (flash : Vector FlashImage 4) : State where
  part := p
  cur := .empty
  others := []
  groups := []
  launches := []
  clusters := (List.range p.clusters).map fun c => { Cluster.zero with audit := Config.auditStart c }
  slices := List.replicate (16 * p.dies) ⟨[]⟩
  dies := List.replicate p.dies .zero
  hbm := []
  spad := []
  poison := []
  mended := []
  ghosts := []
  engImgs := []
  supRecs := []
  remotes := []
  changes := []
  podcfg := 0
  lcstart := 0
  lctail := 0
  lcdone := 0
  ctxbase := 0
  fotbase := 0
  mcbase := 0
  trinv := none
  trinvDone := false
  walked := []
  rly := Vector.replicate 16 0
  pwin := Vector.replicate 64 (0, 0)
  -- en = 1, hbmh = 24, sramms = 100 (R401)
  scrub := 0x8000001800640000
  -- en = 1, grp = 1, k = 10 (R404)
  mtcfg := 0xC00A000000000000
  rofs := Vector.replicate 4 0
  hwin := Vector.replicate 4 0
  sett := Vector.replicate 64 .zero
  seals := Vector.replicate 86 .zero
  staged := []
  tcst := []
  fotst := []
  pkgLinks := Vector.replicate 24 .zero
  podLinks := Vector.replicate 15 .zero
  settLinks := Vector.replicate 16 .zero
  eseqTx := Vector.replicate 16 0
  eseqRx := Vector.replicate 16 0
  early := []
  podOut := []
  controlOut := []
  mail := []
  mailRead := []
  wire := []
  authFailed := []
  linkAuth := []
  spdmReqs := []
  collectives := []
  settIn := []
  settOut := []
  settHeld := []
  osObjects := []
  entriesRead := []
  boot := .wiping
  hbErr := 0
  slots := Vector.replicate 16 0
  fuses := fuses
  flash := flash
  fw := .idle
  worlds := []
  osKey := 0
  harts := List.replicate (8 * p.dies) ⟨0, none, []⟩
  root := ⟨none, []⟩
  rootUp := false
  gpLoads := []
  rootLoads := []
  agreed := []
  sessions := []
  spdmOut := []
  hdbin := 0
  hdbout := 0
  hostOut := []
  msix := 0
  fbIrq := 0
  gpFaults := []
  rootAlarms := 0
  audits := []
  faulty := []
  probes := []
  mcStop := false
  powerCut := false
  ck := 0
  nextTid := 1
  nextId := 1
  events := 0
  freeCtr := 0
  agenda := []

/-- The fuses of the device the model starts from: PRODUCTION, keys free, floors 0 (DESIGN CHOICE). -/
def Fuses.start : Fuses := ⟨2, 0, Config.keyHash 0, Config.keyHash 1, Config.keyHash 2, 0, 0⟩

/-- The machine right after reset: a ZLX-40 whose flash holds nothing. -/
def State.reset : State := State.resetOf .zlx40 Fuses.start (Vector.replicate 4 .blank)

end Sys2Proof.Machine
end

