-- ==== Sys2Proof/Machine/Flags.lean ====
section
/-! DEFINITION. `%fflags`: its bits (R47), how an instruction raises them, and the trap an enabled one leaves for
the next boundary (R33, R34, R48). -/
namespace Sys2Proof.Machine
open Sys2Proof

/-- The nine flags of `%fflags`. -/
abbrev FFlags := BitVec 9

def flagNX : FFlags := 0x001
def flagUF : FFlags := 0x002
def flagOF : FFlags := 0x004
def flagDZ : FFlags := 0x008
def flagNV : FFlags := 0x010
def flagEL : FFlags := 0x020
def flagEO : FFlags := 0x040
def flagLL : FFlags := 0x080
def flagPZ : FFlags := 0x100

/-- `fl` when `c` holds. -/
def flagIf (c : Bool) (fl : FFlags) : FFlags := if c then fl else 0

/-- The union of the flags of a list of results. -/
def flagUnion (l : List FFlags) : FFlags := l.foldl (· ||| ·) 0

/-- Whether one of the raised flags has its enable set in `%ftrap` (R34, R48). -/
def flagTraps (ftrap : BitVec 5) (fl : FFlags) : Bool := (fl.setWidth 5 &&& ftrap) != 0

/-- ORs flags into `%fflags`; an enabled one makes the arithmetic trap pending, with the flags that the
instruction raised as its detail (R33, R34). -/
def Team.raise (t : Team) (fl : FFlags) : Team :=
  { t with
    fflags := t.fflags ||| fl
    pending := if flagTraps t.ftrap fl then t.pending ++ [(4, (fl &&& 0x1F).setWidth 64)] else t.pending }

end Sys2Proof.Machine
end

