-- ==== Sys2Proof/Machine/Float.lean ====
section
/-! DEFINITION. Number formats and rounding (R11 to R32): every finite value is held exactly as a sign, a natural
significand and a power of two; each format has one decoder and one encoder, and each result is rounded once. -/
namespace Sys2Proof.Machine
open Sys2Proof

/-! ## Formats -/

/-- The formats of R11; code 0xF is reserved. -/
inductive Fmt where
  | f64 | f32 | f16 | bf16 | e5m2 | e4m3 | e2m1 | t8 | t6 | int8 | int16 | int32 | int64 | mod64 | e8m0
deriving DecidableEq, Repr

def fmtOf : Nat → Option Fmt
  | 0 => some .f64 | 1 => some .f32 | 2 => some .f16 | 3 => some .bf16 | 4 => some .e5m2 | 5 => some .e4m3
  | 6 => some .e2m1 | 7 => some .t8 | 8 => some .t6 | 9 => some .int8 | 10 => some .int16 | 11 => some .int32
  | 12 => some .int64 | 13 => some .mod64 | 14 => some .e8m0 | _ => none

/-- The format of a `w` field (R56). -/
def fwFmt : FW → Fmt
  | .f64 => .f64 | .f32 => .f32 | .f16 => .f16 | .bf16 => .bf16

/-- Bits of an element (R11). -/
def Fmt.bits : Fmt → Nat
  | .f64 => 64 | .f32 => 32 | .f16 => 16 | .bf16 => 16 | .e5m2 => 8 | .e4m3 => 8 | .e2m1 => 4 | .t8 => 8
  | .t6 => 6 | .int8 => 8 | .int16 => 16 | .int32 => 32 | .int64 => 64 | .mod64 => 64 | .e8m0 => 8

/-- Exponent bits, fraction bits and bias of a binary format (R15); zeros for the others. -/
def Fmt.expBits : Fmt → Nat
  | .f64 => 11 | .f32 => 8 | .f16 => 5 | .bf16 => 8 | .e5m2 => 5 | .e4m3 => 4 | .e2m1 => 2 | _ => 0
def Fmt.fracBits : Fmt → Nat
  | .f64 => 52 | .f32 => 23 | .f16 => 10 | .bf16 => 7 | .e5m2 => 2 | .e4m3 => 3 | .e2m1 => 1 | _ => 0
def Fmt.bias : Fmt → Nat
  | .f64 => 1023 | .f32 => 127 | .f16 => 15 | .bf16 => 127 | .e5m2 => 15 | .e4m3 => 7 | .e2m1 => 1 | _ => 0

/-- Code of the largest finite magnitude, sign bit clear (R17). -/
def Fmt.maxCode : Fmt → Nat
  | .f64 => 0x7FEFFFFFFFFFFFFF | .f32 => 0x7F7FFFFF | .f16 => 0x7BFF | .bf16 => 0x7F7F | .e5m2 => 0x7B
  | .e4m3 => 0x7E | .e2m1 => 0x7 | .t8 => 0x7F | .t6 => 0x1F | _ => 0

/-- The canonical NaN (R16); for a tapered format, NaR (R20). -/
def Fmt.nanCode : Fmt → Nat
  | .f64 => 0x7FF8000000000000 | .f32 => 0x7FC00000 | .f16 => 0x7E00 | .bf16 => 0x7FC0 | .e5m2 => 0x7E
  | .e4m3 => 0x7F | .t8 => 0x80 | .t6 => 0x20 | .e8m0 => 0xFF | _ => 0

/-- Code of +∞ in the formats that have it (R15). -/
def Fmt.infCode : Fmt → Nat
  | .f64 => 0x7FF0000000000000 | .f32 => 0x7F800000 | .f16 => 0x7C00 | .bf16 => 0x7F80 | .e5m2 => 0x7C | _ => 0

/-! ## Values -/

/-- A decoded value. A finite one is (-1)^neg * m * 2^e; a zero keeps its sign. -/
inductive FVal where
  | fin (neg : Bool) (m : Nat) (e : Int)
  | inf (neg : Bool)
  | nan (signalling : Bool)
deriving DecidableEq, Repr

def FVal.isNan : FVal → Bool
  | .nan _ => true | _ => false
def FVal.isSig : FVal → Bool
  | .nan s => s | _ => false
def FVal.isInf : FVal → Bool
  | .inf _ => true | _ => false
def FVal.isZero : FVal → Bool
  | .fin _ m _ => m == 0 | _ => false
def FVal.neg : FVal → Bool
  | .fin n _ _ => n | .inf n => n | .nan _ => false
def FVal.negate : FVal → FVal
  | .fin n m e => .fin (!n) m e | .inf n => .inf (!n) | .nan s => .nan s

/-- NV for a signalling NaN among the operands. -/
def sigFlags (l : List FVal) : FFlags := flagIf (l.any FVal.isSig) flagNV

/-- Decodes a binary format (R15, R16). -/
def decodeBin (f : Fmt) (c : Nat) : FVal :=
  let F := f.fracBits
  let E := f.expBits
  let neg := c / 2 ^ (E + F) % 2 == 1
  let e := c / 2 ^ F % 2 ^ E
  let fr := c % 2 ^ F
  if f = .e4m3 ∧ e = 15 ∧ fr = 7 then .nan false
  else if e = 2 ^ E - 1 ∧ f ≠ .e4m3 ∧ f ≠ .e2m1 then
    if fr = 0 then .inf neg else .nan (fr / 2 ^ (F - 1) % 2 == 0)
  else if e = 0 then .fin neg fr (1 - (f.bias : Int) - F)
  else .fin neg (2 ^ F + fr) ((e : Int) - f.bias - F)

/-- Number of consecutive bits equal to `b` in `w`, from bit `i - 1` downward (R19). -/
def runLength (w : Nat) (b : Bool) : Nat → Nat
  | 0 => 0
  | i + 1 => if (w / 2 ^ i % 2 == 1) == b then 1 + runLength w b i else 0

/-- The magnitude of a tapered word whose sign bit is clear and which is not zero (R19): significand and
exponent. -/
def taperedMag (n w : Nat) : Nat × Int :=
  let b := w / 2 ^ (n - 2) % 2 == 1
  let m := runLength w b (n - 1)
  let k : Int := if b then (m : Int) - 1 else -(m : Int)
  -- bits below the run's terminating bit
  let len := n - 1 - m - 1
  let rest := w % 2 ^ len
  let e : Nat := if len = 0 then 0 else rest / 2 ^ (len - 1)
  let fb := len - 1
  let fr := rest % 2 ^ fb
  (2 ^ fb + fr, 2 * k + e - fb)

/-- Decodes a tapered word of `n` bits (R19). That NaR is quiet is the model's choice (log 106). -/
def decodeTapered (n w : Nat) : FVal :=
  let w := w % 2 ^ n
  if w = 0 then .fin false 0 0
  else if w = 2 ^ (n - 1) then .nan false
  else
    let neg := w / 2 ^ (n - 1) == 1
    let a := if neg then 2 ^ n - w else w
    let r := taperedMag n a
    .fin neg r.1 r.2

/-- Decodes an element of any format but MOD64, from the low bits of `c` (R13, R15, R19, R22). That the NaN of E8M0 is quiet, as
that of E4M3 is, is the model's choice (log 106). -/
def decodeFmt (f : Fmt) (c : Nat) : FVal :=
  match f with
  | .f64 | .f32 | .f16 | .bf16 | .e5m2 | .e4m3 | .e2m1 => decodeBin f (c % 2 ^ f.bits)
  | .t8 => decodeTapered 8 c
  | .t6 => decodeTapered 6 c
  | .int8 | .int16 | .int32 | .int64 =>
    let z := signed f.bits c
    .fin (z < 0) z.natAbs 0
  | .mod64 => .fin false (c % 2 ^ 64) 0
  | .e8m0 => if c % 256 = 255 then .nan false else .fin false 1 ((c % 256 : Nat) - 127)

/-- Reads a subnormal input as a zero of its sign, under `.ftz` (R18). -/
def flushIn (f : Fmt) (ftz : Bool) (v : FVal) : FVal :=
  match v with
  | .fin n m e => if ftz && decide (m < 2 ^ f.fracBits) then .fin n 0 e else .fin n m e
  | v => v

/-! ## Rounding (R25 to R27) -/

/-- A rounding mode; stochastic rounding carries the 24 random bits of its element (R27, R28). -/
inductive RMode where
  | rne | rtz | rup | rdn
  | rsr (bits : Nat)
deriving DecidableEq, Repr

/-- `%frm` where stochastic rounding does not apply (R27). -/
def modeOf (frm : BitVec 3) : RMode :=
  match frm.toNat with
  | 1 => .rtz | 2 => .rup | 3 => .rdn | _ => .rne

/-- Whether rounding moves away from zero: `n` is the truncated magnitude, `r / 2^k` of the way to the next. -/
def roundsUp (mode : RMode) (neg : Bool) (n r k : Nat) : Bool :=
  match mode with
  | .rne => decide (2 ^ k < 2 * r) || (decide (2 * r = 2 ^ k) && n % 2 == 1)
  | .rtz => false
  | .rup => !neg && r != 0
  | .rdn => neg && r != 0
  | .rsr b => decide (b < r * 16777216 / 2 ^ k)

/-- The magnitude m * 2^e in units of 2^q, rounded to an integer, and whether it was inexact. -/
def roundAt (mode : RMode) (neg : Bool) (m : Nat) (e q : Int) : Nat × Bool :=
  if q ≤ e then (m * 2 ^ (e - q).toNat, false)
  else
    let k := (q - e).toNat
    let n := m / 2 ^ k
    let r := m % 2 ^ k
    (if roundsUp mode neg n r k then n + 1 else n, r != 0)

/-- floor(log2 (m * 2^e)) for m > 0. -/
def log2Floor (m : Nat) (e : Int) : Int := (Nat.log2 m : Int) + e

/-- Whether an overflow delivers an infinity (R31). -/
def overflowsToInf (mode : RMode) (neg : Bool) : Bool :=
  match mode with
  | .rne | .rsr _ => true
  | .rtz => false
  | .rup => !neg
  | .rdn => neg

/-- The sign bit of a format's code. -/
def signCode (f : Fmt) (neg : Bool) : Nat := b2n neg * 2 ^ (f.bits - 1)

/-- What an overflow writes, sign included (R31). -/
def overflowCode (f : Fmt) (mode : RMode) (sat neg : Bool) : Nat :=
  signCode f neg +
    (if f = .e2m1 || sat || !overflowsToInf mode neg then f.maxCode
     else if f = .e4m3 then f.nanCode else f.infCode)

/-- Encodes a finite value in a binary format with one rounding: the code and the flags OF, UF, NX (R26, R31).
Tininess is detected before rounding. -/
def encodeBin (f : Fmt) (mode : RMode) (sat ftz : Bool) (neg : Bool) (m : Nat) (e : Int) : Nat × FFlags :=
  if m = 0 then (signCode f neg, 0)
  else
    let F := f.fracBits
    let emin : Int := 1 - f.bias
    let l := log2Floor m e
    let q := max (l - F) (emin - F)
    let r := roundAt mode neg m e q
    let code := (q - (emin - F)).toNat * 2 ^ F + r.1
    let tiny := decide (l < emin)
    if f.maxCode < code then (overflowCode f mode sat neg, flagOF ||| flagNX)
    else if ftz && decide (code < 2 ^ F) && code != 0 then (signCode f neg, flagUF ||| flagNX)
    else (signCode f neg + code, flagIf r.2 flagNX ||| flagIf (tiny && r.2) flagUF)

/-- Compares m1 * 2^e1 with m2 * 2^e2. -/
def magLt (m1 : Nat) (e1 : Int) (m2 : Nat) (e2 : Int) : Bool :=
  let e := min e1 e2
  decide (m1 * 2 ^ (e1 - e).toNat < m2 * 2 ^ (e2 - e).toNat)

/-- The largest pattern from 1 to `p` whose magnitude is at most m * 2^e, 0 if none is. -/
def taperedFloor (n : Nat) (m : Nat) (e : Int) : Nat → Nat
  | 0 => 0
  | p + 1 => let v := taperedMag n (p + 1); if magLt m e v.1 v.2 then taperedFloor n m e p else p + 1

/-- Encodes a nonzero finite value in a tapered format of `n` bits (R20, R27): nearest, ties to the pattern that
ends in 0, or stochastically; never 0. -/
def encodeTapered (n : Nat) (mode : RMode) (neg : Bool) (m : Nat) (e : Int) : Nat × FFlags :=
  let top := 2 ^ (n - 1) - 1
  let sgn (p : Nat) : Nat := if neg then 2 ^ n - p else p
  let p := taperedFloor n m e top
  let a := taperedMag n p
  let b := taperedMag n (p + 1)
  if p = 0 then (sgn 1, flagUF ||| flagNX)
  else if p = top then
    if magLt a.1 a.2 m e then (sgn top, flagOF ||| flagNX) else (sgn top, 0)
  else
    let u := min e (min a.2 b.2)
    let x := m * 2 ^ (e - u).toNat
    let lo := a.1 * 2 ^ (a.2 - u).toNat
    let hi := b.1 * 2 ^ (b.2 - u).toNat
    if x = lo then (sgn p, 0)
    else
      let up := match mode with
        | .rsr r => decide (r < (x - lo) * 16777216 / (hi - lo))
        | _ => decide (hi - x < x - lo) || (decide (hi - x = x - lo) && p % 2 == 1)
      (sgn (if up then p + 1 else p), flagNX)

/-- A finite value rounded to an integer and clamped to `lo .. hi` (R32). -/
def encodeInt (mode : RMode) (lo hi : Int) (neg : Bool) (m : Nat) (e : Int) : Int × FFlags :=
  let mode := match mode with | .rsr _ => .rne | k => k
  let r := roundAt mode neg m e 0
  let z : Int := if neg then -(r.1 : Int) else r.1
  if z < lo then (lo, flagNV) else if hi < z then (hi, flagNV) else (z, flagIf r.2 flagNX)

/-- Any value as an integer of `w` bits, signed or unsigned (R32). -/
def toInteger (sgn : Bool) (w : Nat) (mode : RMode) (v : FVal) : Nat × FFlags :=
  let lo : Int := if sgn then -(2 ^ (w - 1) : Nat) else 0
  let hi : Int := if sgn then (2 ^ (w - 1) : Nat) - 1 else (2 ^ w : Nat) - 1
  match v with
  | .nan _ => (0, flagNV)
  | .inf neg => (wrap w (if neg then lo else hi), flagNV)
  | .fin neg m e => let r := encodeInt mode lo hi neg m e; (wrap w r.1, r.2)

/-- Any value as an E8M0 scale (R30). -/
def toScale (v : FVal) : Nat × FFlags :=
  match v with
  | .nan _ | .inf _ => (0xFF, flagNV)
  | .fin _ m e =>
    if m = 0 then (0, flagUF ||| flagNX)
    else
      let s := log2Floor m e + 127
      if s < 0 then (0, flagUF ||| flagNX)
      else if 254 < s then (0xFE, flagOF ||| flagNX)
      else (s.toNat, flagIf (m != 2 ^ Nat.log2 m) flagNX)

/-- Any value in any target format of a conversion but MOD64 (R29 to R32): the element's code and its flags. -/
def encodeFmt (f : Fmt) (mode : RMode) (sat ftz : Bool) (v : FVal) : Nat × FFlags :=
  match f with
  | .f64 | .f32 | .f16 | .bf16 | .e5m2 =>
    match v with
    | .nan s => (f.nanCode, flagIf s flagNV)
    | .inf neg => (signCode f neg + f.infCode, 0)
    | .fin neg m e => encodeBin f mode sat ftz neg m e
  | .e4m3 =>
    match v with
    | .nan s => (f.nanCode, flagIf s flagNV)
    | .inf neg =>
      if sat then (signCode f neg + f.maxCode, flagOF ||| flagNX) else (signCode f neg + f.nanCode, flagNV)
    | .fin neg m e => encodeBin f mode sat ftz neg m e
  | .e2m1 =>
    match v with
    | .nan _ => (0, flagNV)
    | .inf neg => (signCode f neg + f.maxCode, flagOF ||| flagNX)
    | .fin neg m e => encodeBin f mode sat ftz neg m e
  | .t8 | .t6 =>
    match v with
    | .nan s => (f.nanCode, flagIf s flagNV)
    | .inf _ => (f.nanCode, flagNV)
    | .fin neg m e => if m = 0 then (0, 0) else encodeTapered f.bits mode neg m e
  | .int8 | .int16 | .int32 | .int64 => toInteger true f.bits mode v
  | .mod64 => (0, flagNV)
  | .e8m0 => toScale v

/-! ## Exact arithmetic (R127) -/

/-- m * 2^e with its sign as an integer in units of 2^u, for u at most e. -/
def scaledInt (neg : Bool) (m : Nat) (e u : Int) : Int :=
  let z : Int := (m * 2 ^ (e - u).toNat : Nat)
  if neg then -z else z

/-- The exact sum of two values. An exact zero is +0, or -0 under RDN, unless both operands are zeros of one sign
(R127). NV for the infinities of opposite sign. -/
def addVal (rdn : Bool) (x y : FVal) : FVal × FFlags :=
  match x, y with
  | .nan _, _ | _, .nan _ => (.nan false, sigFlags [x, y])
  | .inf a, .inf b => if a = b then (.inf a, 0) else (.nan false, flagNV)
  | .inf a, _ => (.inf a, 0)
  | _, .inf b => (.inf b, 0)
  | .fin n1 m1 e1, .fin n2 m2 e2 =>
    if m1 = 0 ∧ m2 = 0 then (.fin (if n1 = n2 then n1 else rdn) 0 0, 0)
    else
      let u := min e1 e2
      let z := scaledInt n1 m1 e1 u + scaledInt n2 m2 e2 u
      if z = 0 then (.fin rdn 0 0, 0) else (.fin (z < 0) z.natAbs u, 0)

/-- The exact product of two values; NV for 0 times infinity. -/
def mulVal (x y : FVal) : FVal × FFlags :=
  match x, y with
  | .nan _, _ | _, .nan _ => (.nan false, sigFlags [x, y])
  | .inf a, .inf b => (.inf (a != b), 0)
  | .inf a, .fin b m _ | .fin b m _, .inf a => if m = 0 then (.nan false, flagNV) else (.inf (a != b), 0)
  | .fin n1 m1 e1, .fin n2 m2 e2 => (.fin (n1 != n2) (m1 * m2) (e1 + e2), 0)

/-- Whether the product of two values is 0 times infinity, which is invalid whatever the addend (R127). -/
def zeroTimesInf (x y : FVal) : Bool := (x.isZero && y.isInf) || (x.isInf && y.isZero)

/-- The exact value of x * y + z, and NV (R127). -/
def fmaVal (rdn : Bool) (x y z : FVal) : FVal × FFlags :=
  if zeroTimesInf x y then (.nan false, flagNV ||| sigFlags [x, y, z])
  else if x.isNan || y.isNan || z.isNan then (.nan false, sigFlags [x, y, z])
  else addVal rdn (mulVal x y).1 z

/-- Rounds an exact result into a binary format, flags joined to those raised on the way. -/
def finishBin (f : Fmt) (mode : RMode) (ftz : Bool) (r : FVal × FFlags) : Nat × FFlags :=
  let c := encodeFmt f mode false ftz r.1
  (c.1, c.2 ||| r.2)

def isRdn (mode : RMode) : Bool := mode == .rdn

def floatAdd (f : Fmt) (mode : RMode) (ftz : Bool) (a b : Nat) : Nat × FFlags :=
  finishBin f mode ftz (addVal (isRdn mode) (flushIn f ftz (decodeFmt f a)) (flushIn f ftz (decodeFmt f b)))

def floatSub (f : Fmt) (mode : RMode) (ftz : Bool) (a b : Nat) : Nat × FFlags :=
  finishBin f mode ftz
    (addVal (isRdn mode) (flushIn f ftz (decodeFmt f a)) (flushIn f ftz (decodeFmt f b)).negate)

def floatMul (f : Fmt) (mode : RMode) (ftz : Bool) (a b : Nat) : Nat × FFlags :=
  finishBin f mode ftz (mulVal (flushIn f ftz (decodeFmt f a)) (flushIn f ftz (decodeFmt f b)))

/-- (±) a * b (±) c with one rounding (R127). -/
def floatFma (f : Fmt) (mode : RMode) (ftz np na : Bool) (a b c : Nat) : Nat × FFlags :=
  let x := flushIn f ftz (decodeFmt f a)
  let y := flushIn f ftz (decodeFmt f b)
  let z := flushIn f ftz (decodeFmt f c)
  finishBin f mode ftz (fmaVal (isRdn mode) (if np then x.negate else x) y (if na then z.negate else z))

/-! ## Order (R128, R129) -/

/-- x < y for values that are no NaN; zeros of either sign are equal. -/
def ltVal (x y : FVal) : Bool :=
  match x, y with
  | .nan _, _ | _, .nan _ => false
  | .inf a, .inf b => a && !b
  | .inf a, _ => a
  | _, .inf b => !b
  | .fin n1 m1 e1, .fin n2 m2 e2 =>
    let u := min e1 e2
    decide (scaledInt n1 m1 e1 u < scaledInt n2 m2 e2 u)

def eqVal (x y : FVal) : Bool := !x.isNan && !y.isNan && !ltVal x y && !ltVal y x

/-- x < y with -0 below +0, for `fmin` and `fmax` (R128). -/
def ltTotal (x y : FVal) : Bool := ltVal x y || (eqVal x y && x.neg && !y.neg)

/-- `fmin` (`less` = true) or `fmax`: a NaN yields the other operand, two NaNs the canonical NaN (R128). -/
def floatMinMax (f : Fmt) (less : Bool) (a b : Nat) : Nat × FFlags :=
  let x := decodeFmt f a
  let y := decodeFmt f b
  let fl := sigFlags [x, y]
  if x.isNan && y.isNan then (f.nanCode, fl)
  else if x.isNan then (b % 2 ^ f.bits, fl)
  else if y.isNan then (a % 2 ^ f.bits, fl)
  else if ltTotal x y then ((if less then a else b) % 2 ^ f.bits, fl)
  else ((if less then b else a) % 2 ^ f.bits, fl)

/-- The classes of `fclass` (R128). -/
def floatClass (f : Fmt) (a : Nat) : Nat :=
  match decodeFmt f a with
  | .inf n => if n then 1 else 128
  | .nan s => if s then 256 else 512
  | .fin n m _ =>
    if m = 0 then (if n then 8 else 16)
    else if m < 2 ^ f.fracBits then (if n then 4 else 32)
    else (if n then 2 else 64)

/-- `frnd`: rounded to an integral value in its own format, without NX (R128). -/
def floatRound (f : Fmt) (mode : RMode) (a : Nat) : Nat × FFlags :=
  match decodeFmt f a with
  | .nan s => (f.nanCode, flagIf s flagNV)
  | .inf n => (signCode f n + f.infCode, 0)
  | .fin n m e =>
    let r := roundAt mode n m e 0
    ((encodeBin f .rne false false n r.1 0).1, 0)

/-! ## Stochastic rounding's random bits (R28) -/

/-- mix64 of R28, wrapping at 2^64. -/
def mix64 (z : Word) : Word :=
  let z := (z ^^^ (z >>> 30)) * 0xBF58476D1CE4E5B9#64
  let z := (z ^^^ (z >>> 27)) * 0x94D049BB133111EB#64
  z ^^^ (z >>> 31)

/-- sr_bits(sub) of R28. -/
def srBits (seed wid ctr : Word) (sub : Nat) : Word :=
  mix64 (mix64 (seed ^^^ wid) ^^^ (ctr * 16 + word sub))

/-- Whether stochastic rounding applies to a conversion target: 16 or fewer bits, and no integer or scale (R27). -/
def Fmt.stochastic : Fmt → Bool
  | .f16 | .bf16 | .e5m2 | .e4m3 | .e2m1 | .t8 | .t6 => true
  | _ => false

end Sys2Proof.Machine
end

