-- ==== Sys2Proof/WellFormed.lean ====
section
/-! DEFINITION. What the operands of an instruction still have to satisfy beyond their types (R57 to R63, R68
step 7), and the registers an instruction names (R36). -/
namespace Sys2Proof

/-! ## Registers an instruction names -/

def LSrc.vregs : LSrc → List VReg
  | .v r => [r]
  | _ => []

def VDst.vregs (d : VDst) : List VReg := d.toList

/-- Every lane register the instruction's fields name, in heads and tails alike (R36, R57). A destination
suppressed by `nwb` names none. -/
def Instr.vregs : Instr → List VReg
  | .add _ d a b | .sub _ d a b | .addSat _ d a b | .addSatu _ d a b | .subSat _ d a b | .subSatu _ d a b
  | .mul _ d a b | .mulh _ d a b | .mulhu _ d a b | .mad _ d a b | .min _ d a b | .minu _ d a b
  | .max _ d a b | .maxu _ d a b | .and _ d a b | .or _ d a b | .xor _ d a b | .shl _ d a b | .shr _ d a b
  | .sra _ d a b | .rot _ d a b | .bfe _ d a b | .bfi _ d a b | .pack _ d a b | .unpack _ d a b
  | .swz _ d a b | .shfl _ d a b | .lget _ d a b | .lput _ d a b => VDst.vregs d ++ a.vregs ++ b.vregs
  | .addc _ d a b | .subb _ d a b | .sel _ d a b => VDst.vregs d ++ a.vregs ++ b.vregs
  | .mmul _ d a b | .madd _ d a b | .msub _ d a b | .mred _ d a b => VDst.vregs d ++ a.vregs ++ b.vregs
  | .fadd _ d a b | .fsub _ d a b | .fmul _ d a b | .fma _ d a b | .fmin _ d a b | .fmax _ d a b
  | .faddFtz _ d a b | .fsubFtz _ d a b | .fmulFtz _ d a b | .fmaFtz _ d a b =>
      VDst.vregs d ++ a.vregs ++ b.vregs
  | .fma3 _ d a b c _ _ _ => VDst.vregs d ++ a.vregs ++ b.vregs ++ c.vregs
  | .abs _ d a | .clz _ d a | .pop _ d a => VDst.vregs d ++ a.vregs
  | .mov d a => VDst.vregs d ++ a.vregs
  | .fabs _ d a | .fneg _ d a | .frnd _ d a | .fclass _ d a | .fcvti _ d a | .fcvtiu _ d a | .icvtf _ d a
  | .icvtfu _ d a | .frcp _ d a | .frsq _ d a | .fsqrt _ d a | .fex2 _ d a | .flg2 _ d a | .fsin _ d a
  | .fcos _ d a => VDst.vregs d ++ a.vregs
  | .fcvt d a _ | .walki d a _ | .walk d a _ => VDst.vregs d ++ a.vregs
  | .cmpEq _ _ a b | .cmpNe _ _ a b | .cmpLt _ _ a b | .cmpLtu _ _ a b | .cmpLe _ _ a b | .cmpLeu _ _ a b =>
      a.vregs ++ b.vregs
  | .fcmpEq _ _ a b | .fcmpNe _ _ a b | .fcmpLt _ _ a b | .fcmpLe _ _ a b | .fcmpUn _ _ a b =>
      a.vregs ++ b.vregs
  | .addImm _ d a _ | .andImm _ d a _ | .orImm _ d a _ | .xorImm _ d a _ | .shlImm _ d a _ | .shrImm _ d a _
  | .sraImm _ d a _ | .rotImm _ d a _ => VDst.vregs d ++ a.vregs
  | .li _ d _ => VDst.vregs d
  | .cmpEqImm _ _ a _ | .cmpLtImm _ _ a _ => a.vregs
  | .shfli d a _ _ => VDst.vregs d ++ a.vregs
  | .vote _ _ a => a.vregs
  | .red _ d a | .scan _ d a | .scanEx _ d a | .segred _ d a => VDst.vregs d ++ a.vregs
  | .bfly _ d a b | .ibfly _ d a b => VDst.vregs d ++ a :: b.vregs
  | .ld _ _ _ _ _ d a => d :: a.vregs
  | .st _ _ _ _ _ d a => d.vregs ++ a.vregs
  | .ldx _ _ _ _ _ d a b _ => d :: a.vregs ++ b.vregs
  | .stx _ _ _ _ _ d a b _ => d.vregs ++ a.vregs ++ b.vregs
  | .stf _ _ _ _ d a f _ => d.vregs ++ a.vregs ++ f.vregs
  | .lds _ _ _ _ d a => d :: a.vregs
  | .sts _ _ _ _ d a => d.vregs ++ a.vregs
  | .atom _ _ _ _ _ d a => d :: a.vregs
  | .atomOffset _ _ _ _ d a c _ => d :: a.vregs ++ c.vregs
  | .cas _ _ _ _ d a e n => d :: a.vregs ++ e.vregs ++ n.vregs
  | .redm _ _ _ d a => d.vregs ++ a.vregs
  | .srdLane d _ => [d]
  | _ => []

/-- No lane register of the instruction is numbered `v` or above (R36). -/
def Instr.fits (v : Nat) (i : Instr) : Bool := i.vregs.all fun r => decide (r.val < v)

/-! ## Constraints between fields -/

/-- The register that d = `none` still encodes: a suppressed destination's field holds zero (R60). -/
def VDst.field (d : VDst) : VReg := d.getD 0

/-- What R36, R63, R71 and R136 ask of an instruction beyond the types of its fields. -/
def Instr.wellFormed : Instr → Bool
  | .bfly _ d a _ | .ibfly _ d a _ => decide (VDst.field d ≠ a)
  | .stf _ _ _ _ _ _ _ inc => decide (inc ≠ 0)
  | .srd _ n => decide (n ≠ .lane) && decide (n ≠ .wid)
  | _ => true

/-- An instruction that a team whose kernel declares `v` lane registers may issue: well formed, naming no lane
register at or above `v` (R36, R68 step 7). -/
def Instr.legalFor (v : Nat) (i : Instr) : Bool := i.wellFormed && i.fits v

end Sys2Proof
end

