-- ==== Sys2Proof/Machine/Operands.lean ====
section
/-! DEFINITION. Every operand form: lane and scalar sources, destinations, masks and latches of one team (R36 to
R44, R57 to R60, R116). -/
namespace Sys2Proof.Machine
open Sys2Proof

/-! ## Masks (R39, R40) -/

/-- The execution mask m0. -/
def Team.exec (t : Team) : Mask := t.m[0]
/-- The dead-lane mask m6 and the pending mask m7. -/
def Team.dead (t : Team) : Mask := t.m[6]
def Team.pend7 (t : Team) : Mask := t.m[7]

/-- The lanes of the team: every bit below 32 L. -/
def Team.full (t : Team) : Mask := BitVec.ofNat 1024 (2 ^ t.lanes - 1)

/-- The correction of R39: no bit at or beyond the lane count, none of a dead lane. -/
def Team.correct (t : Team) (x : Mask) : Mask := x &&& t.full &&& ~~~ t.dead

/-- Whether lane `x` acts: set in m0 (R116). -/
def Team.active (t : Team) (x : Nat) : Bool := t.exec.getLsbD x

/-- Writes a mask m0 to m5, corrected (R39). -/
def Team.setMask (t : Team) (d : MDst) (x : Mask) : Team :=
  { t with m := t.m.set d.val (t.correct x) (by omega) }

/-- A mask by number. -/
def Team.mask (t : Team) (k : MReg) : Mask := t.m[k.val]

/-- A mask from a predicate on lanes. -/
def maskOf (n : Nat) (p : Nat → Bool) : Mask :=
  BitVec.ofNat 1024 ((List.range n).foldl (fun acc x => acc + b2n (p x) * 2 ^ x) 0)

/-- Lane word `k` of a mask (R39). -/
def laneWord (x : Mask) (k : Nat) : Nat := x.toNat / 2 ^ (32 * k) % 4294967296

/-- The summary word of a mask: bit `k` is 1 exactly when lane word `k` is nonzero (R39). -/
def summary (x : Mask) : BitVec 32 :=
  BitVec.ofNat 32 ((List.range 32).foldl (fun acc k => acc + b2n (laneWord x k != 0) * 2 ^ k) 0)

/-- The lanes set in a mask, ascending. -/
def lanesOf (x : Mask) : List Nat := (List.range 1024).filter fun i => x.getLsbD i

/-- The active lanes of the team, ascending. -/
def Team.activeLanes (t : Team) : List Nat := (List.range t.lanes).filter t.active

/-! ## Lane sources (R37, R44, R57, R116) -/

/-- The 64 bits that lane `x` reads from a source, `w` being the width at which `%lane` and `%sub` are laid out. A
dead element holds zero; an invalid latch reads zero (R43, R44). -/
def Team.laneSrc (t : Team) (w : Nat) (a : LSrc) (x : Nat) : Word :=
  match a with
  | .v r => nth 0 t.v[r] x
  | .f k => if t.fvalid.getLsbD k.val then nth 0 t.fl[k] x else 0
  | .s r => t.s[r.val]
  | .zero => 0
  | .lane => fromSubs w (64 / w) fun _ => x
  | .sub => fromSubs w (64 / w) id

/-- Whether lane `x` of register `r` is dead after a return (R44). -/
def Team.deadElem (t : Team) (r : VReg) (x : Nat) : Bool := t.deadV[r].getLsbD (x / 32)

/-- EL and LL as reading the source in the lanes `xs` raises them: a dead element that one of the lanes uses, a
dead scalar, an invalid latch (R43, R44). An instruction whose m0 is empty reads an invalid latch or a dead broadcast scalar all
the same, and raises LL or EL, though no lane acts: the model's choice (log 108). -/
def Team.srcFlagsAt (t : Team) (xs : List Nat) : LSrc → FFlags
  | .v r => flagIf (xs.any (t.deadElem r)) flagEL
  | .f k => flagIf (!t.fvalid.getLsbD k.val) flagLL
  | .s r => flagIf (t.deadS.getLsbD r.val) flagEL
  | _ => 0

/-- The same for the active lanes. -/
def Team.srcFlags (t : Team) (a : LSrc) : FFlags := t.srcFlagsAt t.activeLanes a

/-- The same for a destination that is also read. -/
def Team.oldFlags (t : Team) (d : VDst) : FFlags := t.srcFlags (.v (VDst.field d))

/-- The value that `d` holds in lane `x` before the instruction; with `nwb` the field names v0 (R60). -/
def Team.old (t : Team) (d : VDst) (x : Nat) : Word := nth 0 t.v[VDst.field d] x

/-! ## Lane results (R42, R60, R116) -/

/-- Writes whole lane register `r`; a written register is live in every lane word (R44). -/
def Team.setV (t : Team) (r : VReg) (v : LaneVal) : Team :=
  { t with v := t.v.set r.val v, deadV := t.deadV.set r.val 0 }

/-- Writes the lanes that `act` names and leaves the others; with none named nothing is written. -/
def Team.writeLanes (t : Team) (r : VReg) (act : Nat → Bool) (val : Nat → Word) : Team :=
  if (List.range t.lanes).any act then
    t.setV r (tabulate t.lanes fun x => if act x then val x else nth 0 t.v[r] x)
  else t

/-- Pushes a lane latch: f3 := f2, f2 := f1, f1 := f0, f0 := the value (R42). -/
def Team.pushLane (t : Team) (v : LaneVal) : Team :=
  { t with
    fl := #v[v, t.fl[0], t.fl[1], t.fl[2]]
    fvalid := (t.fvalid &&& 0xF0) ||| ((t.fvalid <<< 1) &&& 0x0F) ||| 0x01 }

/-- Pushes a uniform latch in the same way: f7 := f6 and so on, f4 := the value (R42). -/
def Team.pushUni (t : Team) (v : Word) : Team :=
  { t with
    fu := #v[v, t.fu[0], t.fu[1], t.fu[2]]
    fvalid := (t.fvalid &&& 0x0F) ||| ((t.fvalid <<< 1) &&& 0xF0) ||| 0x10 }

/-- The result of a lane instruction: each active lane's value to `d` unless `nwb`, and to f0, where an inactive or
dead lane holds zero (R42, R60). -/
def Team.laneResult (t : Team) (d : VDst) (val : Nat → Word) : Team :=
  let r := tabulate t.lanes fun x => if t.active x then val x else 0
  let t' := match d with
    | some q => t.writeLanes q t.active (nth 0 r)
    | none => t
  t'.pushLane r

/-! ## Scalars (R38, R58) -/

/-- A scalar source; an invalid latch reads zero (R43). -/
def Team.uniSrc (t : Team) : USrc → Word
  | .s r => t.s[r]
  | .f k => if t.fvalid.getLsbD (4 + k.val) then t.fu[k] else 0
  | .zero => 0

/-- EL and LL as reading a scalar source raises them. -/
def Team.uniFlags (t : Team) : USrc → FFlags
  | .s r => flagIf (t.deadS.getLsbD r.val) flagEL
  | .f k => flagIf (!t.fvalid.getLsbD (4 + k.val)) flagLL
  | .zero => 0

/-- EL for a scalar register read outright. -/
def Team.sFlags (t : Team) (r : SReg) : FFlags := t.uniFlags (.s r)

/-- Writes a scalar register, which is live from then on (R44). -/
def Team.setS (t : Team) (r : SReg) (v : Word) : Team :=
  { t with s := t.s.set r.val v, deadS := t.deadS &&& ~~~ (1#32 <<< r.val) }

/-- Writes a scalar destination unless `nwb` (R60). -/
def Team.setSDst (t : Team) (d : SDst) (v : Word) : Team :=
  match d with
  | some r => t.setS r v
  | none => t

/-- The result of a uniform instruction that pushes f4: to `d` unless `nwb`, and to the latch (R42, R90). -/
def Team.uniResult (t : Team) (d : SDst) (v : Word) : Team := (t.setSDst d v).pushUni v

/-! ## Latches, tenure and the program counter -/

/-- All eight latches lose their valid bits (R43). -/
def Team.dropLatches (t : Team) : Team := { t with fvalid := 0 }

/-- Ends the tenure: the latches become invalid (R43, R218). -/
def Team.endTenure (t : Team) : Team := { t.dropLatches with tenure := .none }

/-- Moves past an instruction of `n` bytes (R53). -/
def Team.advance (t : Team) (n : Nat) : Team := { t with pc := t.pc + word n }

/-! ## Work identifiers (R49, R312) -/

/-- Width of field `f` (1 to 6) of the work identifier (R49). -/
def widWidth (widw : Word) (f : Nat) : Nat := bits widw (7 * (f - 1)) 7

/-- `%wid` of lane `x`: l + (t << w1) + (G << (w1 + w2)), modulo 2^64 (R312). -/
def Team.wid (t : Team) (x : Nat) : Word :=
  let w1 := widWidth t.widw 1
  let w2 := widWidth t.widw 2
  word (x + t.index * 2 ^ w1 + t.workBase.toNat * 2 ^ (w1 + w2))

end Sys2Proof.Machine
end

