-- ==== Sys2Proof/Machine/Ops.lean ====
section
/-! DEFINITION. The named operations over the state: teams, groups, launches and clusters by name; memory bytes and
poison; records for supervisors and machine checks; taking a trap and returning from one. -/
namespace Sys2Proof.Machine
open Sys2Proof

/-! ## Teams -/

/-- Applies `f` to the team in focus. -/
def State.onCur (s : State) (f : Team → Team) : State := { s with cur := f s.cur }

/-- The team of a name; a name of no team reads as the empty team. -/
def State.team (s : State) (tid : Nat) : Team :=
  if s.cur.tid = tid then s.cur else (s.others.find? fun t => t.tid == tid).getD .empty

/-- Applies `f` to the team of a name. -/
def State.modTeam (s : State) (tid : Nat) (f : Team → Team) : State :=
  if s.cur.tid = tid then { s with cur := f s.cur }
  else { s with others := updWhere (fun t => t.tid == tid) f s.others }

/-- Every team of the device. -/
def State.teams (s : State) : List Team := if s.cur.tid = 0 then s.others else s.cur :: s.others

/-- Removes a team. -/
def State.dropTeam (s : State) (tid : Nat) : State :=
  if s.cur.tid = tid then { s with cur := .empty }
  else { s with others := s.others.filter fun t => t.tid != tid }

/-- Brings a team into focus. -/
def State.focus (s : State) (tid : Nat) : State :=
  if s.cur.tid = tid then s
  else
    match s.others.find? fun t => t.tid == tid with
    | none => s
    | some t =>
      let rest := s.others.filter fun u => u.tid != tid
      { s with cur := t, others := if s.cur.tid = 0 then rest else s.cur :: rest }

/-- Draws the next free value. -/
def State.drawFree (s : State) : State := { s with freeCtr := s.freeCtr + 1 }

/-! ## Groups, launches, clusters -/

def Group.empty : Group where
  handle := 0
  launch := 0
  ctx := 0
  cluster := 0
  stage := 0
  base := 0
  spadBase := 0
  spadBytes := 0
  cwp := Vector.replicate 8 0
  estate := []
  orderCtr := 0
  kicks := []
  recSeq := 0
  recCount := 0
  mbound := false
  detected := false
  slices := 0
  window := 0
  st := .alive
  tests := []
  killed := false
  held := []

def State.group? (s : State) (h : Nat) : Option Group := s.groups.find? fun g => g.handle == h
def State.group (s : State) (h : Nat) : Group := (s.group? h).getD .empty
def State.modGroup (s : State) (h : Nat) (f : Group → Group) : State :=
  { s with groups := updWhere (fun g => g.handle == h) f s.groups }

/-- The group of the team in focus. -/
def State.curGroup (s : State) : Group := s.group s.cur.group

def Kernel.empty : Kernel := ⟨0, 0, 0, 0, 0, 1, 1, 8, 0, false, []⟩
def Stage.empty : Stage := ⟨1, 0, 0, 1, 0, 1, [none, none, none, none], 8, .empty, []⟩
def StageQueue.empty (c : Nat) : StageQueue := ⟨c, 0, [], [], [], none⟩
def Launch.empty : Launch := ⟨0, 0, 0, 0, 0, 0, 0, 0, [], [], false, false, 0, 0, false⟩

def State.launch? (s : State) (h : Nat) : Option Launch := s.launches.find? fun l => l.handle == h
def State.launch (s : State) (h : Nat) : Launch := (s.launch? h).getD .empty
def State.modLaunch (s : State) (h : Nat) (f : Launch → Launch) : State :=
  { s with launches := updWhere (fun l => l.handle == h) f s.launches }
def Launch.stage (l : Launch) (k : Nat) : Stage := nth .empty l.stages k
def Launch.modStage (l : Launch) (k : Nat) (f : Stage → Stage) : Launch :=
  { l with stages := setNth l.stages k (f (l.stage k)) }
def Stage.queue (g : Stage) (c : Nat) : StageQueue := (g.queues.find? fun q => q.cluster == c).getD (.empty c)
def Stage.modQueue (g : Stage) (c : Nat) (f : StageQueue → StageQueue) : Stage :=
  { g with queues := updWhere (fun q => q.cluster == c) f g.queues }
/-- Applies `f` to one queue of a launch. -/
def State.modQueue (s : State) (l k c : Nat) (f : StageQueue → StageQueue) : State :=
  s.modLaunch l fun x => x.modStage k fun g => g.modQueue c f

def State.cluster (s : State) (c : Nat) : Cluster := nth .zero s.clusters c
def State.modCluster (s : State) (c : Nat) (f : Cluster → Cluster) : State :=
  { s with clusters := setNth s.clusters c (f (s.cluster c)) }

/-- Core 0 or 1 of a cluster. -/
def Cluster.core (c : Cluster) (k : Nat) : Core := if k = 0 then c.core0 else c.core1
def Cluster.modCore (c : Cluster) (k : Nat) (f : Core → Core) : Cluster :=
  if k = 0 then { c with core0 := f c.core0 } else { c with core1 := f c.core1 }
def State.modCore (s : State) (c k : Nat) (f : Core → Core) : State := s.modCluster c fun x => x.modCore k f

/-- Engine E0 to E2 of a cluster. -/
def Cluster.engine (c : Cluster) (e : Nat) : Engine := if e = 0 then c.e0 else if e = 1 then c.e1 else c.e2
def Cluster.modEngine (c : Cluster) (e : Nat) (f : Engine → Engine) : Cluster :=
  if e = 0 then { c with e0 := f c.e0 } else if e = 1 then { c with e1 := f c.e1 } else { c with e2 := f c.e2 }

def State.die (s : State) (d : Nat) : Die := nth .zero s.dies d
def State.modDie (s : State) (d : Nat) (f : Die → Die) : State := { s with dies := setNth s.dies d (f (s.die d)) }

/-- The die of a global cluster number (R4). -/
def dieOf (cluster : Nat) : Nat := cluster / 32

/-! ## Memory bytes -/

/-- Scratchpad byte `off` of a cluster, in the memory `spad` (R234). -/
def spadKey (cluster off : Nat) : Nat := cluster * 4194304 + off

/-- One byte of HBM, of scratchpad. -/
def State.hbmByte (s : State) (pa : Nat) : Byte := cellGet s.hbm pa
def State.spadByte (s : State) (c off : Nat) : Byte := cellGet s.spad (spadKey c off)

/-- `n` bytes of a memory from address `a`, as a little-endian number (R5). -/
def memRead (m : Memory) (a n : Nat) : Nat := leNat (tabulate n fun i => cellGet m (a + i))

/-- Writes bytes from address `a` upward. -/
def memWrite (m : Memory) (a : Nat) : List Byte → Memory
  | [] => m
  | b :: l => memWrite (cellSet m a b) (a + 1) l

def State.hbmRead (s : State) (pa n : Nat) : Nat := memRead s.hbm pa n
def State.hbmWrite (s : State) (pa : Nat) (l : List Byte) : State := { s with hbm := memWrite s.hbm pa l }
def State.spadRead (s : State) (c off n : Nat) : Nat := memRead s.spad (spadKey c off) n
def State.spadWrite (s : State) (c off : Nat) (l : List Byte) : State :=
  { s with spad := memWrite s.spad (spadKey c off) l }

/-- Reads and writes at a translated place; a remote place is not here. -/
def State.readAt (s : State) (t : Target) (n : Nat) : Nat :=
  match t with
  | .hbm pa => s.hbmRead pa n
  | .spad c off => s.spadRead c off n
  | .remote _ _ => 0
def State.writeAt (s : State) (t : Target) (n v : Nat) : State :=
  match t with
  | .hbm pa => s.hbmWrite pa (leBytes n v)
  | .spad c off => s.spadWrite c off (leBytes n v)
  | .remote _ _ => s

/-- A target `n` bytes further on. -/
def Target.offset (t : Target) (n : Nat) : Target :=
  match t with
  | .hbm pa => .hbm (pa + n)
  | .spad c off => .spad c (off + n)
  | .remote d pa => .remote d (pa + n)

/-- The device of a place, 16 for this one, and the address there. -/
def Target.device : Target → Nat
  | .remote d _ => d
  | _ => 16
def Target.addr : Target → Nat
  | .hbm a => a
  | .spad _ a => a
  | .remote _ a => a

/-- Whether two ranges at targets share a byte. -/
def Target.overlaps (t : Target) (n : Nat) (u : Target) (k : Nat) : Bool :=
  match t, u with
  | .hbm a, .hbm b => decide (a < b + k) && decide (b < a + n)
  | .spad c a, .spad d b => decide (c = d) && decide (a < b + k) && decide (b < a + n)
  | .remote c a, .remote d b => decide (c = d) && decide (a < b + k) && decide (b < a + n)
  | _, _ => false

/-- The scope with which an access to scratchpad acts: no wider than group (R146). -/
def Scope.inSpad : Scope → Scope
  | .team => .team
  | _ => .group

/-! ## Poison (R400) -/

def State.poisoned (s : State) (p : Poison) : Bool := s.poison.contains p
def State.markPoison (s : State) (p : Poison) : State :=
  if s.poison.contains p then s else { s with poison := p :: s.poison }
def State.clearPoison (s : State) (p : Poison) : State := { s with poison := s.poison.filter fun q => q != p }

/-- The poison marks that a range of `n` bytes at a target lies on. -/
def poisonKeys (t : Target) (n : Nat) : List Poison :=
  match t with
  | .hbm pa => (List.range ((pa + n - 1) / 64 + 1 - pa / 64)).map fun i => .line (pa / 64 + i)
  | .spad c off => (List.range ((off + n - 1) / 8 + 1 - off / 8)).map fun i => .spad c (off / 8 + i)
  | .remote _ _ => []

/-- Whether a read of the range meets poison. -/
def State.poisonedAt (s : State) (t : Target) (n : Nat) : Bool :=
  !s.poison.isEmpty && (poisonKeys t n).any s.poison.contains

/-- A store that writes the whole of a poisoned line or word clears its mark (R400). -/
def State.healAt (s : State) (t : Target) (n : Nat) : State :=
  if s.poison.isEmpty then s
  else
    { s with poison := s.poison.filter fun p =>
        match p, t with
        | .line k, .hbm pa => !(decide (pa ≤ 64 * k) && decide (64 * k + 64 ≤ pa + n))
        | .spad c k, .spad d off => !(decide (c = d) && decide (off ≤ 8 * k) && decide (8 * k + 8 ≤ off + n))
        | _, _ => true }

/-- One store, by the access or copy that makes it, leaves the bytes that it has written of a marked line or word; once it has
written all of them the mark is gone (R400). -/
def State.noteStore (s : State) (who : Nat × Nat) (t : Target) (n : Nat) : State :=
  if s.poison.isEmpty then s
  else (poisonKeys t n).foldl (fun s p =>
    let at_ (lo len a : Nat) : BitVec 64 × BitVec 64 :=
      (BitVec.ofNat 64 (2 ^ (min (lo + len) (a + n) - lo) - 2 ^ (max lo a - lo)), BitVec.ofNat 64 (2 ^ len - 1))
    let m : BitVec 64 × BitVec 64 := match p, t with
      | .line k, .hbm a => at_ (64 * k) 64 a
      | .spad _ k, .spad _ a => at_ (8 * k) 8 a
      | _, _ => (0, 1)
    if !s.poisoned p then s
    else
      let old := ((s.mended.find? fun x => x.who == who && x.site == p).map Mend.bytes).getD 0
      let rest := s.mended.filter fun x => !(x.who == who && x.site == p)
      if (old ||| m.1) = m.2 then { s.clearPoison p with mended := rest }
      else { s with mended := ⟨who, p, old ||| m.1⟩ :: rest }) s
/-- A store's bytes at a place, with what it does to poison marks. -/
def State.storeAt (s : State) (t : Target) (n v : Nat) : State := (s.writeAt t n v).healAt t n

/-! ## Frame ownership (R383, R384) -/

/-- The ownership entry of the 64 KiB frame that holds a physical address. -/
def State.fotEntry (s : State) (pa : Nat) : Nat := s.hbmRead (s.fotbase.toNat + 4 * (pa / 65536)) 4
def State.frameWorld (s : State) (pa : Nat) : Nat := s.fotEntry pa / 65536
def State.frameState (s : State) (pa : Nat) : Nat := s.fotEntry pa / 16384 % 4

/-- Whether a context of world `w` may access a frame whose entry names world `o` and a state. -/
def ownerAdmits (w o state : Nat) : Bool :=
  o != 0xFFFF &&
    (match state with
    | 0 => w == 0
    | 1 => w == o
    | 2 => w == o || w == 0
    | _ => false)
/-- Whether a context of world `w` may access the frame of `pa`. -/
def State.frameOk (s : State) (w pa : Nat) : Bool :=
  decide (pa < s.part.hbmBytes) && ownerAdmits w (s.frameWorld pa) (s.frameState pa)
/-! ## The part and the context descriptor -/

/-- `%feat` (R52). -/
def featWord (p : Part) : Word :=
  word (p.stacks * 65536 + p.ports * 256 + p.dies * 16 + 3 * b2n p.full)

/-- Word `i` of the descriptor of context `n` (R334). Descriptors lie in memory that world 0 owns: one in a frame that does
not admit world 0 is neither read, which gives zero, nor written (R384). -/
def State.descAddr (s : State) (n i : Nat) : Nat := s.ctxbase.toNat + 64 * n + 8 * i
def State.descWord (s : State) (n i : Nat) : Word :=
  if s.frameOk 0 (s.descAddr n i) then word (s.hbmRead (s.descAddr n i) 8) else 0
def State.setDescWord (s : State) (n i : Nat) (v : Word) : State :=
  if s.frameOk 0 (s.descAddr n i) then s.hbmWrite (s.descAddr n i) (leBytes 8 v.toNat) else s
def State.ctxState (s : State) (n : Nat) : Nat := bits (s.descWord n 0) 0 2
def State.ctxWorld (s : State) (n : Nat) : Nat := bits (s.descWord n 1) 48 16
/-- The context's tables exist and it is active (R424). -/
def State.ctxActive (s : State) (n : Nat) : Bool := s.ctxbase != 0 && s.ctxState n == 1

/-- The context of the team in focus. -/
def State.curCtx (s : State) : Nat := s.curGroup.ctx

/-- The quota row of a context on a cluster, by number (R321). -/
def State.quotaRow (s : State) (c ctx : Nat) : Option Nat :=
  (List.range 16).find? fun r =>
    let q := nth (0, 0, 0) (s.cluster c).quota.toList r
    bitAt q.1 47 && bits q.1 48 16 == ctx
def State.quotaWord (s : State) (c r i : Nat) : Word :=
  let q := nth (0, 0, 0) (s.cluster c).quota.toList r
  if i = 0 then q.1 else if i = 1 then q.2.1 else q.2.2
/-- Word 0 of the context's quota row on a cluster; 0 without one. -/
def State.ctxQuota (s : State) (c ctx i : Nat) : Word :=
  match s.quotaRow c ctx with
  | some r => s.quotaWord c r i
  | none => 0

/-! ## Accesses under a change of ownership (R385) -/

/-- Whether an access that has been translated may be performed there: while a change of ownership waits for it, under the
state from which the frame is changing (R385 step 3). -/
def State.frameHeld (s : State) (w pa : Nat) : Bool :=
  s.frameOk w pa || s.changes.any fun c => (c.frames.zip c.was).any fun f =>
    f.1 == pa / 65536 && ownerAdmits w (s.frameWorld pa) f.2

/-- Whether a frame is private to a world, as every frame that a walk reads shall be. -/
def State.framePrivate (s : State) (w pa : Nat) : Bool :=
  decide (pa < s.part.hbmBytes) && s.frameState pa == 1 && s.frameWorld pa == w && w != 0xFFFF

/-! ## Records for supervisors (R284, R310, R326) -/

/-- A record of the event layout of R326: its four words, the lowest first. -/
def eventRec (event cause team fromG : Nat) (w1 w2 w3 : Word) : List Word :=
  [word (fromG * 4294967296 + 3 * 1073741824 + event % 64 * 16777216 + cause % 256 * 65536 + team % 16 * 4096),
    w1, w2, w3]

/-- Queues a record for a context's supervisor queue (R326). -/
def State.queueRec (s : State) (ctx cluster : Nat) (slots : List (List Word)) : State :=
  { s with supRecs := s.supRecs ++ [⟨none, ctx, slots, cluster, false, none⟩] }

/-- An event record about a team. -/
def State.teamEvent (s : State) (t : Team) (event cause : Nat) (w1 w2 w3 : Word) : State :=
  s.queueRec (s.group t.group).ctx t.cluster [eventRec event cause t.index t.group w1 w2 w3]

/-! ## Machine-check records (R409) -/

/-- The four words of a machine-check record. -/
def McRec.words (r : McRec) (die : Nat) : List Word :=
  [word (r.ctx % 65536 * 281474976710656 + r.kind % 256 * 1099511627776 + r.unit % 256 * 4294967296 +
      r.sev % 16 * 268435456 + r.how % 16 * 16777216 + die % 16 * 1048576 + r.rep % 1048576),
    word r.time, word r.det, word r.addr]

/-- Writes the bytes of a record at its ring slot, which lies in frames of world 0 (R384, R409). -/
def State.putMc (s : State) (d n : Nat) (r : McRec) : State :=
  let a := s.mcbase.toNat + 131072 * d + 32 * (n % 4096)
  if s.frameOk 0 a && s.frameOk 0 (a + 31) then s.hbmWrite a ((r.words d).flatMap fun w => leBytes 8 w.toNat) else s

/-- A device machine check: every core and engine stops, the root core signals the host mailbox, and every link goes
down. -/
def State.stopDevice (s : State) : State :=
  { s with mcStop := true, rootAlarms := s.rootAlarms + 1, msix := s.msix ||| 1,
           podLinks := s.podLinks.map fun l => { l with up := false }
           settLinks := s.settLinks.map fun l => { l with up := false }
           pkgLinks := s.pkgLinks.map fun l => { l with up := false } }

/-- Whether a record is merged into an earlier one: identical errors of severity 0 at one address within 16,000,000 ck. -/
def McRec.merges (r o : McRec) : Bool :=
  r.sev == 0 && o.addr == r.addr && o.kind == r.kind && o.unit == r.unit && o.how == r.how && decide (r.time < o.time + 16000000)

/-- Reports a machine-check record on die `d`: merged into one that the device OS has not consumed, dropped and counted or
kept waiting when the ring is full, and for `sev` 3 the device stops. -/
def State.machineCheck (s : State) (d : Nat) (r : McRec) : State :=
  let die := s.die d
  let s := if r.sev = 3 then s.stopDevice else s
  match die.mcRecent.find? fun p => decide (die.mcr ≤ p.1) && r.merges p.2 with
  | some (n, o) =>
    let o' := { o with rep := min (o.rep + 1) 1048575 }
    (s.modDie d fun x => { x with mcRecent := updWhere (fun p => p.1 == n) (fun p => (p.1, o')) x.mcRecent }).putMc d n o'
  | none =>
    if die.mcw - die.mcr < 4096 then
      (s.modDie d fun x => { x with
        mcw := x.mcw + 1
        mcRecent := if r.sev = 0 then (x.mcw, r) :: x.mcRecent.filter (fun p => decide (x.mcr ≤ p.1)) else x.mcRecent }).putMc d die.mcw r
    else if r.sev = 0 then s.modDie d fun x => { x with mcdrop := x.mcdrop + 1 }
    else s.modDie d fun x => { x with mcWait := x.mcWait ++ [r] }

/-- A machine-check record of a unit with no address or detail, at the unit's own local count. -/
def mcOf (s : State) (ctx kind unit sev how : Nat) : McRec :=
  ⟨0, 0, s.ck + Config.unitSkew kind unit, ctx, kind, unit, sev, how, 0⟩
/-- The record of an error that is contained where it is consumed, with its syndrome, which is free (R398, R409). -/
def State.contained (s : State) (d ctx kind unit addr : Nat) : State :=
  (s.machineCheck d { mcOf s ctx kind unit 1 0 with addr := addr, det := (Config.freeValue s.freeCtr 64).toNat }).drawFree
/-- The local count of a core, which `%cyc` reads (R46). -/
def State.coreCount (s : State) (core : Nat) : Nat := s.ck + Config.coreSkew core

/-! ## Tenures and leads (R215, R218) -/

/-- Takes both leads of a core from a team; the holder that remains leads both pipes. -/
def Core.release (c : Core) (tid : Nat) : Core :=
  let other := if c.laneLead = some tid then c.uniLead else c.laneLead
  let keep := if other = some tid then none else other
  if c.laneLead = some tid ∨ c.uniLead = some tid then { c with laneLead := keep, uniLead := keep } else c

/-- Ends the tenure of the team in focus: latches invalid, leads released, the end noted (R43, R215, R225). -/
def State.endTenure (s : State) : State :=
  let t := s.cur
  (s.onCur fun t => { t.endTenure with idleSince := s.ck }).modCore t.cluster t.core fun c => c.release t.tid

/-- Ends the tenure of the team in focus and leaves it resident and ready from now on (R99, R218, R220). -/
def State.yieldTenure (s : State) : State :=
  s.endTenure.onCur fun t => { t with st := .ready, readyAt := s.ck, readyPrev := false }

/-- Whether a tenure has spent its quantum of 256 instructions (R218). -/
def Team.quantumSpent (t : Team) : Bool :=
  match t.tenure with
  | .held n => decide (256 < n)
  | _ => false

/-- Bytes of a core's abroad budget in use (R45, R223). -/
def State.abroad (s : State) (c k : Nat) : Nat :=
  sumOf (fun t => match t.escort with
    | some e => if t.cluster = c ∧ t.core = k ∧ e.place ≠ .budget ∧ e.place ≠ .saved then e.charge else 0
    | none => 0) s.teams

/-- Sets what the team in focus is doing. -/
def State.setSt (s : State) (st : TeamSt) : State := s.onCur fun t => { t with st := st }

/-! ## Taking a trap and returning from one (R324 to R328) -/

/-- Taking an exception: the tenure ends, `%tcause` and `%tinfo` are written, every other register keeps its value,
and the team stops at its PC. What remains of the stop (drain, save record, stop event) is TEAM_STOP (R325). -/
def takeTrap (cause : Nat) (info : Word) (s : State) : State :=
  s.endTenure.onCur fun t => { t with tcause := BitVec.ofNat 8 cause, tinfo := info, st := .stopping }

/-- Returning from a trap: the saved team is made ready to restore at a PC, with all latches invalid (R328). -/
def returnFromTrap (tid : Nat) (pc : Word) (clearM7 restoreSr : Bool) (s : State) : State :=
  s.modTeam tid fun t =>
    { t.dropLatches with
      pc := pc
      resume := true
      tenure := .none
      m := if clearM7 then t.m.set 7 0 else t.m
      arrivedAt := if pc = t.pc then t.arrivedAt else none
      srCtr := if restoreSr then t.srRgn else t.srCtr }

/-- Adds a boundary trap to a team (R324). -/
def State.pendTrap (s : State) (tid cause : Nat) (info : Word) : State :=
  s.modTeam tid fun t => { t with pending := t.pending ++ [(cause, info)] }

/-! ## Common endings of a meaning -/

/-- The team in focus changed by `f` and moved past an instruction of `n` bytes. -/
def teamStep (n : Nat) (f : Team → Team) (s : State) : Out := .next (s.onCur fun t => (f t).advance n)

/-- A trap at issue. -/
def trapAt (cause : Nat) (info : Word) (s : State) : Out := .next (takeTrap cause info s)

/-- A trap at issue whose operands have been read: what their reads raise stands (R44, R352). -/
def trapRead (fl : FFlags) (cause : Nat) (info : Word) (s : State) : Out := trapAt cause info (s.onCur (Team.raise · fl))

end Sys2Proof.Machine
end

