-- ==== Sys2Proof/Machine/Memory.lean ====
section
/-! DEFINITION. Addresses, translation, ownership, the fault buffer, and what one element does to memory (R143,
R158, R341 to R346, R359, R384, R400). -/
namespace Sys2Proof.Machine
open Sys2Proof

/-! ## Paths between dies (R265, R387) -/

/-- The dies in the order of the ring of UCIe boundaries: boundary `i` joins entry `i` to the next. -/
def dieRing : List Nat := [0, 1, 3, 2]
/-- The seal block of the direction of boundary `i` that a die sends on. -/
def boundaryDir (i sender : Nat) : Nat :=
  let other := if nth 0 dieRing i = sender then nth 0 dieRing ((i + 1) % 4) else nth 0 dieRing i
  2 * i + b2n (decide (other < sender))
/-- Whether a die reaches another, one way round or the other, over directions that `ok` admits; the two dies of a
ZLX-20 share boundary 0. -/
def ringPath (two : Bool) (ok : Nat → Bool) (a b : Nat) : Bool :=
  let p := dieRing.idxOf a
  let q := dieRing.idxOf b
  if two then a == b || ok (boundaryDir 0 a)
  else
    (List.range ((q + 4 - p) % 4)).all (fun k => ok (boundaryDir ((p + k) % 4) (nth 0 dieRing ((p + k) % 4)))) ||
      (List.range ((p + 4 - q) % 4)).all fun k => ok (boundaryDir ((p + 3 - k) % 4) (nth 0 dieRing ((p + 4 - k) % 4)))

/-- An on-package direction is up, and runs: it has a key and is not stalled (R387, R390, R392). -/
def State.dirUp (s : State) (j : Nat) : Bool := (nth .zero s.pkgLinks.toList j).up
def State.dirRuns (s : State) (j : Nat) : Bool := s.dirUp j && (nth .zero s.seals.toList j).st == 1
/-- Whether a path leads from one die to another (R265). -/
def State.pathUp (s : State) (a b : Nat) : Bool := ringPath (s.part.dies == 2) s.dirUp a b
/-- Whether the links carry an access of a die to a slice and its answer: they hold their traffic without a key and during
a stall (R390, R392). -/
def State.linkOpen (s : State) (die slice : Nat) : Bool :=
  let h := slice / 8
  s.dirRuns (8 + 2 * h) && s.dirRuns (9 + 2 * h) && ringPath (s.part.dies == 2) s.dirRuns die (slice / 16) &&
    ringPath (s.part.dies == 2) s.dirRuns (slice / 16) die
/-- The slice of a byte on stack H(h). -/
def stackSlice (h pa : Nat) : Nat := 16 * (h / 2) + 8 * (h % 2) + pa / 256 % 8
/-- Whether they carry a die's access to a byte by its physical address, which no leaf places (R249). -/
def State.readOpen (s : State) (die pa : Nat) : Bool := s.linkOpen die (stackSlice (pa / 4096 % (2 * s.part.dies)) pa)
/-- The record of an error that a read on a cluster has met at a place: by the stack that holds it, `slice` being the place's,
or by the cluster whose scratchpad does. -/
def State.containedAt (s : State) (cl ctx slice : Nat) (tgt : Option Target) : State :=
  match tgt with
  | some (.hbm pa) => s.contained (slice / 16) ctx 0 (slice / 8) pa
  | some (.spad c off) => s.contained (dieOf c) ctx 1 c off
  | _ => s.contained (dieOf cl) ctx 0 0 0
/-- Whether they carry everything on the package. -/
def State.memoryOpen (s : State) : Bool :=
  ((List.range 8).all fun j => (s.part.dies == 2 && 2 ≤ j) || s.dirRuns j) &&
    (List.range (2 * s.part.stacks)).all fun j => s.dirRuns (8 + j)

/-! ## The walk (R341 to R343) -/

/-- Why a translation gives no address: a translation fault, which is replayable, or an access fault. -/
inductive XFault where | replay | access
deriving DecidableEq, Repr

/-- The low bit and the number of entries of the index of levels 0 to 3. -/
def walkLevels : List (Nat × Nat) := [(39, 512), (30, 512), (21, 512), (16, 32)]

/-- What the rest of a walk gives under an entry that points on: an invalid entry at a later level comes first, whatever
is wrong with this one (R343). -/
def underEntry (wrong : Bool) : Except XFault (Word × Nat) → Except XFault (Word × Nat)
  | .error .replay => .error .replay
  | r => if wrong then .error .access else r

/-- Reads entries from level to level; a leaf with the low bit of its level. -/
def State.walk (s : State) (w va : Nat) : List (Nat × Nat) → Nat → Except XFault (Word × Nat)
  | [], _ => .error .access
  | (sh, n) :: rest, table =>
    let a := table + 8 * (va / 2 ^ sh % n)
    if !s.framePrivate w a then .error .access
    else
      let e := word (s.hbmRead a 8)
      let addr := bits e 8 40 * 256
      if !bitAt e 0 then .error .replay
      else if bitAt e 1 then
        if bits e 2 6 ≠ 0 ∨ bits e 48 3 ≠ 0 ∨ sh = 39 ∨ 2 ≤ bits e 58 2 ∨ addr % 2 ^ sh ≠ 0 then .error .access
        else .ok (e, sh)
      else
        match rest with
        | [] => .error .access
        | (_, k) :: _ =>
          underEntry (decide (bits e 2 6 ≠ 0 ∨ bits e 48 16 ≠ 0 ∨ addr % (8 * k) ≠ 0)) (s.walk w va rest addr)

/-- The table root of a context (R334). -/
def State.ptRoot (s : State) (ctx : Nat) : Nat := bits (s.descWord ctx 0) 8 40 * 256

/-- The device number and pod size of `podcfg` (R355). -/
def State.podDev (s : State) : Nat := bits s.podcfg 0 4
def State.podSize (s : State) : Nat := if bitAt s.podcfg 4 then 16 else 8
def State.podEn (s : State) : Bool := bitAt s.podcfg 7

/-- The kind of a leaf (R251). -/
def leafKind (e : Word) : PageKind :=
  match bits e 60 2 with
  | 1 => .strong | 2 => .unordered | 3 => .replicated (bits e 56 2) | _ => .relCons

/-- Address of die `d`'s replica of a replicated page's byte (R342). -/
def State.replicaAt (s : State) (d pa : Nat) : Nat := pa + (nth 0 s.rofs.toList d).toNat

/-- Where an element lies: its bytes, the kind of its page and the slice that holds them. -/
structure Place where
  tgt : Target
  kind : PageKind
  slice : Nat
deriving DecidableEq, Repr

/-- The slice of a byte of a page that is die-local to die `d`, as each replica of a replicated page is (R249). -/
def dieSlice (d pa : Nat) : Nat := stackSlice (2 * d + pa / 4096 % 2) pa
/-- The slice of a byte of HBM under the placement of its leaf (R249). -/
def State.sliceOf (s : State) (e : Word) (pa : Nat) : Nat :=
  if bits e 58 2 = 1 then dieSlice (bits e 56 2) pa else stackSlice (pa / 4096 % (2 * s.part.dies)) pa

/-- Whether a multicast tore a line of `n` bytes of a die's replica (R265). -/
def State.torn (s : State) (die at_ n : Nat) : Bool :=
  !s.poison.isEmpty && (poisonKeys (.hbm at_) n).any fun p => match p with
    | .line k => s.poisoned (.replica die k)
    | _ => false

/-- Whether a die's replica of some bytes is poisoned or torn. -/
def State.badReplica (s : State) (die pa n : Nat) : Bool :=
  s.poisonedAt (.hbm (s.replicaAt die pa)) n || s.torn die (s.replicaAt die pa) n

/-- The die whose replica an access uses: its own, or the home's for a read of a torn line and for a read-modify-write
(R264, R265). -/
def State.replicaDie (s : State) (own home pa acc : Nat) : Nat :=
  if acc = 2 ∨ ((acc = 0 ∨ acc = 3) ∧ s.torn own (s.replicaAt own pa) 1) then home else own

/-- Checks of order 3 and 4 on a leaf, and the place it gives (R343, R359). `acc` is 0 for a read, 1 a write, 2 a
read-modify-write, 3 a fetch (R345). -/
def State.useLeaf (s : State) (cl w va acc : Nat) (e : Word) (size : Nat) : Except XFault Place :=
  let pa := bits e 8 40 * 256 + va % size
  let kind := leafKind e
  if ((acc = 1 ∨ acc = 2) ∧ !bitAt e 62) ∨ (acc = 3 ∧ !bitAt e 63) then .error .access
  else if bitAt e 51 then
    let dev := bits e 52 4
    if bits e 60 2 = 3 ∨ dev = s.podDev ∨ s.podSize ≤ dev ∨ !s.podEn then .error .access
    else .ok ⟨.remote dev pa, kind, 16 * dieOf cl + va / 256 % 16⟩
  else
    match kind with
    | .replicated home =>
      let d := s.replicaDie (dieOf cl) home pa acc
      let at_ := s.replicaAt d pa
      if s.frameOk w at_ then .ok ⟨.hbm pa, kind, dieSlice d at_⟩ else .error .access
    | _ => if s.frameOk w pa then .ok ⟨.hbm pa, kind, s.sliceOf e pa⟩ else .error .access

/-- The addresses of the entries that a walk reads. -/
def State.walkTrail (s : State) (va : Nat) : List (Nat × Nat) → Nat → List Nat
  | [], _ => []
  | (sh, n) :: rest, table =>
    let a := table + 8 * (va / 2 ^ sh % n)
    let e := word (s.hbmRead a 8)
    a :: (if bitAt e 0 && !bitAt e 1 then s.walkTrail va rest (bits e 8 40 * 256) else [])

/-- What a walk for a cluster reads: the descriptor, its entries, and the ownership entries of the frames that they and the
leaf's page lie in. -/
def State.walkReads (s : State) (cl ctx va : Nat) : List Nat :=
  let trail := s.walkTrail va walkLevels (s.ptRoot ctx)
  let leaf : List Nat := match s.walk (s.ctxWorld ctx) va walkLevels (s.ptRoot ctx) with
    | .ok (e, sh) =>
      if bitAt e 51 then []
      else
        let pa := bits e 8 40 * 256 + va % 2 ^ sh
        match leafKind e with
        | .replicated _ => [s.replicaAt (dieOf cl) pa]
        | _ => [pa]
    | .error _ => []
  (s.ctxbase.toNat + 64 * ctx) :: trail ++ (trail ++ leaf).map fun a => s.fotbase.toNat + 4 * (a / 65536)

/-- A walk that reads a poisoned page-table or ownership entry is a device machine check (R400). -/
def State.walkPoison (s : State) (cl ctx va : Nat) : State :=
  if s.poison.isEmpty then s
  else
    match (s.walkReads cl ctx va).find? fun a => s.poisoned (.line (a / 64)) with
    | some a => s.machineCheck (dieOf cl) { mcOf s ctx 0 0 3 0 with addr := a }
    | none => s

/-- The walk from a context's root. -/
def State.walkCtx (s : State) (ctx va : Nat) : Except XFault (Word × Nat) :=
  s.walk (s.ctxWorld ctx) va walkLevels (s.ptRoot ctx)

/-- Whether a cached translation covers an address of a context. -/
def Tlb.hits (t : Tlb) (ctx va : Nat) : Bool := t.ctx == ctx && decide (t.va ≤ va) && decide (va < t.va + t.size)

/-- Whether the links carry what a translation of a cluster reads: nothing where the cluster has it cached (R343, R390). -/
def State.walkOpen (s : State) (cl ctx va : Nat) : Bool :=
  s.memoryOpen || (s.cluster cl).tlb.any (·.hits ctx va) || (s.walkReads cl ctx va).all (s.readOpen (dieOf cl))

/-- Adds a translation to a cluster's cache in the place of another of its page, dropping the oldest of 2,048 (R343). -/
def State.cacheLeaf (s : State) (cl ctx va : Nat) (e : Word) (sh : Nat) : State :=
  s.modCluster cl fun c =>
    { c with tlb := (⟨ctx, va / 2 ^ sh * 2 ^ sh, 2 ^ sh, e⟩ :: c.tlb.filter fun t => !t.hits ctx va).take 2048 }

/-- What a walk gives, as an entry and the size of its leaf. One that ends in a fault gives an entry of the smallest page:
zero for an invalid one, and one with a reserved bit set for a malformed one. -/
def walkEntry : Except XFault (Word × Nat) → Word × Nat
  | .ok (e, sh) => (e, 2 ^ sh)
  | .error .replay => (0, 65536)
  | .error .access => (7, 65536)

/-- Whether a translation found before is what a walk gives now. -/
def Tlb.agrees (t : Tlb) (fresh : Except XFault (Word × Nat)) : Bool := walkEntry fresh == (t.pte, t.size)

/-- The model's record of what walks have found for the page of an address. -/
def State.noteWalk (s : State) (ctx va : Nat) (fresh : Except XFault (Word × Nat)) : State :=
  let e := walkEntry fresh
  let t : Tlb := ⟨ctx, va / e.2 * e.2, e.2, e.1⟩
  if s.walked.contains t then s else { s with walked := t :: s.walked }

/-- The place that an entry gives; an invalid one gives the translation fault, and a malformed one the access fault. -/
def State.useEntry (s : State) (cl w va acc : Nat) (t : Tlb) : Except XFault Place :=
  if !bitAt t.pte 0 then .error .replay
  else if bits t.pte 2 6 ≠ 0 then .error .access
  else s.useLeaf cl w va acc t.pte t.size

/-- What a walk has found, cached, with the place it gives a context of world `w`. -/
def State.useWalk (s : State) (w cl ctx va acc : Nat) (fresh : Except XFault (Word × Nat)) : State × Except XFault Place :=
  match fresh with
  | .ok (e, sh) => (s.cacheLeaf cl ctx va e sh, s.useLeaf cl w va acc e (2 ^ sh))
  | .error x => (s, .error x)

/-- The entries of the page that were found before and have changed since: until the `trinv` that covers it completes, any
access on any cluster may use one of them. -/
def State.staleEntries (s : State) (ctx va : Nat) (fresh : Except XFault (Word × Nat)) : List Tlb :=
  s.walked.filter fun t => t.hits ctx va && !t.agrees fresh

/-- A free choice of one of some entries, or of none. -/
def State.chooseEntry (s : State) (l : List Tlb) : Option Tlb := l[(Config.freeValue s.freeCtr 64).toNat % (l.length + 1)]?

/-- Translates an address for a context on a cluster (R343): by what a walk gives now, or, where changed entries have not
been invalidated, by a free choice among the old ones and the new. -/
def State.translate (s : State) (cl ctx va acc : Nat) : State × Except XFault Place :=
  if 2 ^ 48 ≤ va ∨ va < 0x400000 then (s, .error .access)
  else
    let w := s.ctxWorld ctx
    let fresh := s.walkCtx ctx va
    let s0 := s.noteWalk ctx va fresh
    match s.staleEntries ctx va fresh with
    | [] =>
      match (s.cluster cl).tlb.find? (·.hits ctx va) with
      | some t => (s0, s0.useEntry cl w va acc t)
      | none => (s0.walkPoison cl ctx va).useWalk w cl ctx va acc fresh
    | l =>
      match s0.chooseEntry l with
      | some t => (s0.drawFree, s0.drawFree.useEntry cl w va acc t)
      | none => (s0.drawFree.walkPoison cl ctx va).useWalk w cl ctx va acc fresh

/-! ## Scratchpad addresses (R143, R235) -/

/-- Whether `n` bytes at a scratchpad offset lie inside a group's allocation, or inside a region conveyed to it
(R290). -/
def State.ownsSpad (s : State) (g : Group) (off n : Nat) : Bool :=
  (decide (g.spadBase ≤ off) && decide (off + n ≤ g.spadBase + g.spadBytes)) ||
    (s.cluster g.cluster).allocs.any fun r => r.owner == g.handle && !r.clearing && (r.base != g.spadBase || g.spadBytes == 0) &&
      decide (r.base ≤ off) && decide (off + n ≤ r.base + r.size)

/-- How an instruction reads an address operand (R143). -/
inductive AddrKind where | global | scratch | either
deriving DecidableEq, Repr

/-- Places `n` bytes at an address operand of the group: scratchpad or translated. -/
def State.place (s : State) (cl : Nat) (g : Group) (k : AddrKind) (va n acc : Nat) :
    State × Except XFault Place :=
  if k = .scratch ∨ (k = .either ∧ va < 0x400000) then
    (s, if s.ownsSpad g va n then .ok ⟨.spad cl va, .spad, 0⟩ else .error .access)
  else s.translate cl g.ctx va acc

/-- Whether an address operand can be placed now: none waits for its walk over a link that holds its traffic (R387). -/
def State.wayOpen (s : State) (cl ctx : Nat) (k : AddrKind) (va : Nat) : Bool :=
  k == .scratch || (k == .either && decide (va < 0x400000)) || s.walkOpen cl ctx va

/-! ## The fault buffer (R345) -/

/-- Puts a faulting element into its die's fault buffer, or lets it wait at its requester when the buffer is full. -/
def State.holdFault (s : State) (cl : Nat) (w : FaultWait) : State :=
  s.modDie (dieOf cl) fun d =>
    if d.fbtail - d.fbhead < 2048 then
      { d with faults := d.faults ++ [⟨d.fbtail, w.ctx, w.va, w.acc, w.req, w.unit, w.group, w.ref⟩], fbtail := d.fbtail + 1 }
    else { d with waits := d.waits ++ [w] }

/-- The same with the interrupt that a buffer raises when it becomes non-empty. -/
def State.addFault (s : State) (cl : Nat) (w : FaultWait) : State :=
  let d := s.die (dieOf cl)
  let s' := s.holdFault cl w
  if d.fbtail = d.fbhead then { s' with fbIrq := s'.fbIrq ||| (1#4 <<< dieOf cl) } else s'

/-- Drops the held and waiting elements that `p` names. -/
def State.dropFaults (s : State) (p : FaultRef → Bool) : State :=
  { s with dies := s.dies.map fun d =>
      { d with
        faults := updWhere (fun e => p e.ref) (fun e => { e with ref := .dropped, req := 0x3F }) d.faults
        waits := d.waits.filter fun w => !p w.ref } }

/-- The work that a held element of a task or a copy belongs to is gone. -/
def State.goneWork (s : State) (r : FaultRef) : Bool :=
  match r with
  | .task c id | .taskWord c id => !((s.cluster c).tasks.any fun k => k.id == id)
  | .copy c id => !((s.cluster c).copies.any fun k => k.id == id)
  | _ => false

/-- Drops the held elements of tasks and copies that a kill has discarded (R351). -/
def State.dropGone (s : State) : State := s.dropFaults s.goneWork

/-! ## Lane death (R118, R408) -/

/-- Lane `x` dies: it enters m6, leaves every other mask, and PZ is set. -/
def Team.killLane (t : Team) (x : Nat) : Team :=
  let b : Mask := 1#1024 <<< x
  { t with
    m := Vector.ofFn fun k => if k.val = 6 then t.m[k] ||| b else t.m[k] &&& ~~~ b
    fflags := t.fflags ||| flagPZ }

/-- A lane of a team dies and is reported (R326). -/
def State.laneDies (s : State) (tid x : Nat) : State :=
  let t := s.team tid
  if t.dead.getLsbD x then s
  else (s.modTeam tid fun t => t.killLane x).teamEvent t 6 0x0C 0 (word x) 0

/-! ## Killing a group (R332, R400) -/

/-- The tasks of a group's teams are discarded, but for those of a queue that its estate holds (R200). -/
def State.dropTasks (s : State) (h : Nat) : State :=
  let held (t : Task) : Bool := (s.group h).estate.any fun e =>
    e.kind == 3 && !e.reserved && e.owner == t.tid && e.obj.toNat == bits (nth 0 t.words 0) 2 2
  let gone (t : Task) : Bool := t.group == h && !t.kept && !held t
  (s.modCluster (s.group h).cluster fun c => { c with tasks := c.tasks.filter fun t => !gone t }).dropGone

/-- What a kill leaves of an element: one that a fault holds is dropped, and so is what a discarded frame has not sent
yet. An element keeps its number, by which a peer's answer still finds it (R332, R362). -/
def Elem.discard (framed : Bool) (e : Elem) : Elem :=
  if e.st = .held ∨ e.st = .queued ∨ (framed ∧ e.st = .todo) then { e with st := .done } else e

/-- A kill: each team stops at its boundary and drains what it has issued; saved records and frames abroad are
discarded, and so are its tasks and the entries that its parked instructions have reserved. The group conveys once its
last team has gone. -/
def State.killGroup (s : State) (h reason : Nat) : State :=
  match (s.group h).st with
  | .alive =>
    let s := s.modGroup h fun g =>
      { g with st := .dying reason, killed := true, estate := g.estate.filter fun e => !e.reserved }
    let s := { s with audits := s.audits.filter fun a => a.engine || a.item != h }
    let s := (s.teams.filter fun t => t.group == h).foldl (fun s t =>
      let s := s.modCore t.cluster t.core fun c => c.release t.tid
      let s := s.dropFaults fun r => match r with
        | .elem tid _ _ | .word tid | .fetch tid | .append tid => tid == t.tid
        | _ => false
      s.modTeam t.tid fun t =>
        let framed (seq : Nat) : Bool := match t.escort with
          | some e => (match e.what with | .access q | .unitAccess q => q == seq | _ => false)
          | none => false
        { t.endTenure with
          -- a saved record is discarded, and a team abroad holds no registers
          st := match t.st with | .saved _ => .saved 3 | .abroad => .abroad | _ => .exiting
          escort := none
          pending := []
          accs := t.accs.map fun a => { a with dst := .none, elems := a.elems.map (Elem.discard (framed a.seq)) } }) s
    s.dropTasks h
  | _ => s

/-! ## What an element does (R153, R158, R160) -/

/-- The new value of an integer atomic at width `w`. -/
def intAtom (op : IntAtom) (w old x : Nat) : Nat :=
  match op with
  | .add => (old + x) % 2 ^ w
  | .xchg => x % 2 ^ w
  | .min => if signed w old < signed w x then old else x % 2 ^ w
  | .max => if signed w old < signed w x then x % 2 ^ w else old
  | .minu => Nat.min old (x % 2 ^ w)
  | .maxu => Nat.max old (x % 2 ^ w)
  | .and => old &&& (x % 2 ^ w)
  | .or => old ||| (x % 2 ^ w)
  | .xor => old ^^^ (x % 2 ^ w)

/-- The new value of any atomic; `fadd` rounds nearest-even whatever the mode (R158). -/
def atomNew (k : AtomKind) (old x : Nat) : Nat :=
  match k with
  | .int op w => intAtom op (awBits w) old x
  | .fadd f => (floatAdd (fwFmt f) .rne false old (x % 2 ^ fwBits f)).1

/-- What an element does to the bytes it addresses: the value it reads and the value it leaves, where it writes. -/
def elemEffect (op : AccOp) (flag : Bool) (arg aux old : Nat) : Nat × Option Nat :=
  match op with
  | .load _ => (old, none)
  | .store _ => (old, some arg)
  | .stf _ => (old, some (if flag then (old + arg) % 2 ^ 64 else arg))
  | .atom k => (old, some (atomNew k old arg))
  | .redm k => (old, some (atomNew k old arg))
  | .cas _ => (old, if old = aux then some arg else none)

/-- Whether an element reads the bytes it addresses, so that poison there is consumed (R400). -/
def elemReads (op : AccOp) (flag : Bool) : Bool :=
  match op with
  | .store _ => false
  | .stf _ => flag
  | _ => true
/-- Whether it is a read and nothing else. -/
def AccOp.isLoad : AccOp → Bool
  | .load _ => true
  | _ => false
/-- Whether it first drains the team's combining entries over its bytes (R247). -/
def AccOp.drains : AccOp → Bool
  | .atom _ | .redm _ | .cas _ => true
  | _ => false
/-- Whether it returns a value to a register. -/
def AccOp.returns : AccOp → Bool
  | .load _ | .atom _ | .cas _ => true
  | _ => false
/-- The access kind of R345. -/
def AccOp.code : AccOp → Nat
  | .load _ => 0
  | .store _ => 1
  | .stf _ => 1
  | _ => 2

end Sys2Proof.Machine
end

