-- ==== Sys2Proof/Machine/Pod.lean ====
section
/-! DEFINITION. Pod ports and the way of a flit to a peer (R354, R357, R363, R392). -/
namespace Sys2Proof.Machine
open Sys2Proof

/-- The device at the other end of port Pk (R354); `none` where the port is unused. -/
def State.peerOf (s : State) (k : Nat) : Option Nat :=
  let d := s.podDev
  if s.part.ports ≤ k then none
  else if s.part.full && !bitAt s.podcfg 4 then
    if k = 14 then none else some (d ^^^ (k % 7 + 1))
  else some (d ^^^ (k + 1))

/-- Ports to a peer, the lower first. -/
def State.portsTo (s : State) (dev : Nat) : List Nat := (List.range 15).filter fun k => s.peerOf k == some dev

def State.podLink (s : State) (k : Nat) : Link := nth .zero s.podLinks.toList k
def State.modPodLink (s : State) (k : Nat) (f : Link → Link) : State :=
  { s with podLinks := Vector.ofFn fun i => if i.val = k then f s.podLinks[i] else s.podLinks[i] }

/-- Mode and relay device of a destination (R363). -/
def State.relayMode (s : State) (dev : Nat) : Nat := bits (nth 0 s.rly.toList dev) 14 2
def State.relayAlt (s : State) (dev : Nat) : Nat := bits (nth 0 s.rly.toList dev) 4 4

/-- The port to a device that takes the flit of number `n`: traffic is striped over the links that are up (R354). -/
def State.upPort (s : State) (dev n : Nat) : Option Nat :=
  let l := (s.portsTo dev).filter fun k => (s.podLink k).up
  l[n % l.length]?

/-- The port that takes a flit to a destination, and whether it goes by a relay; `none` for one that is not sent. -/
def State.route (s : State) (dev n : Nat) : Option (Nat × Bool) :=
  match s.relayMode dev with
  | 2 => none
  | 1 => (s.upPort (s.relayAlt dev) n).map fun k => (k, true)
  | _ => (s.upPort dev n).map fun k => (k, false)

/-! ## Sending (R357) -/

/-- A flit enters a replay buffer under the link's next number. -/
def Link.put (l : Link) (ck : Nat) (f : Flit) : Link :=
  { l with
    replay := l.replay ++ [{ f with seq := l.nextSeq }]
    nextSeq := (l.nextSeq + 1) % 65536
    since := if l.replay.isEmpty then ck else l.since }

def Link.full (l : Link) : Bool := decide (1024 ≤ l.replay.length)

/-- Puts a flit into a port's replay buffer, or, while that is full, lets it wait for room. -/
def State.putFlit (s : State) (k : Nat) (f : Flit) : State :=
  if (s.podLink k).full then { s with podOut := s.podOut ++ [f] } else s.modPodLink k fun l => l.put s.ck f

/-- A flit's way: a relayed flit goes only by the direct link to its destination (R363). -/
def State.wayOf (s : State) (f : Flit) : Option (Nat × Bool) :=
  if f.rly ∧ f.src ≠ s.podDev then (s.upPort f.dst f.eseq).map fun k => (k, true) else s.route f.dst f.eseq

/-- Puts a numbered flit on its way; one without a way is dropped. -/
def State.launchFlit (s : State) (f : Flit) : State :=
  match s.wayOf f with
  | none => s
  | some (k, relayed) => s.putFlit k { f with rly := relayed }

/-- Flits that wait for room, tried again in order; none passes an older one to its destination. -/
def State.retryFlits (s : State) : State :=
  s.podOut.foldl (fun s f =>
    let blocked : Bool := (s.podOut.find? fun g => g.dst == f.dst) != some f || match s.wayOf f with
      | some (k, _) => (s.podLink k).full
      | none => false
    if blocked then s else { s with podOut := eraseFirst (· == f) s.podOut }.launchFlit f) s

/-- The number of the next flit to a device. -/
def State.nextEseq (s : State) (dst : Nat) : Nat := nth 0 s.eseqTx.toList dst

/-- Whether a fetch to a device can leave now: room on its way, and no older flit waiting. -/
def State.mayFetch (s : State) (dst : Nat) : Bool :=
  (s.podOut.all fun f => f.dst != dst) && match s.route dst (s.nextEseq dst) with
    | some (k, _) => !(s.podLink k).full
    | none => true

/-- Sends a flit to a device under the next end-to-end number. -/
def State.sendFlit (s : State) (dst vn tag : Nat) (body : FlitBody) : State :=
  let e := s.nextEseq dst
  let f : Flit := ⟨0, e, s.podDev, dst, vn, false, tag, body⟩
  let s' := { s with eseqTx := Vector.ofFn fun i => if i.val = dst then (e + 1) % 65536 else s.eseqTx[i] }
  if s'.podOut.any fun g => g.dst == dst then { s' with podOut := s'.podOut ++ [f] } else s'.launchFlit f

/-- The seal block of a pod port's sending direction is stalled (R392). -/
def State.portStalled (s : State) (k : Nat) : Bool := (nth .zero s.seals.toList (24 + k)).st == 2

/-- Whether the next flit to a device waits behind a seal stall. -/
def State.stalledTo (s : State) (dst : Nat) : Bool :=
  match s.route dst (s.nextEseq dst) with
  | some (k, _) => s.portStalled k
  | none => false

end Sys2Proof.Machine
end

