-- ==== Sys2Proof/Machine/Words.lean ====
section
/-! DEFINITION. The indivisible operations on barrier, monitor, lock and promise words, the estate entries that they
register, and the teams that a write to a word wakes (R163 to R170, R174, R283). -/
namespace Sys2Proof.Machine
open Sys2Proof

/-! ## Estate entries (R174, R283) -/

/-- Whether another entry fits: 64 to a group, 1,024 to a cluster. -/
def State.estateRoom (s : State) (h : Nat) : Bool :=
  let g := s.group h
  decide (g.estate.length < 64) &&
    decide (sumOf (fun x : Group => if x.cluster = g.cluster then x.estate.length else 0) s.groups +
      (s.supRecs.filter fun r => r.entry && r.cluster == g.cluster).length < 1024)

/-- The number of a new entry: which of the free ones is left open, so it is a free value. -/
def freshEntry (estate : List Holding) (seed : Nat) : Nat :=
  let used (n : Nat) : Bool := estate.any fun e => e.num == n
  let n := (Config.freeValue seed 6).toNat
  if used n then ((List.range 64).find? fun k => !used k).getD 0 else n

/-- Takes an entry for a holding; it is listed once `commitEntry` gives it its order number. -/
def State.reserveEntry (s : State) (h kind : Nat) (obj heir aux : Word) (sc : Scope) (owner : Nat) : State × Nat :=
  let n := freshEntry (s.group h).estate s.freeCtr
  (s.drawFree.modGroup h fun g => { g with estate := g.estate ++ [⟨n, kind, obj, heir, aux, sc, 0, owner, true, false⟩] }, n)

/-- Registers a reserved entry: it takes the group's next order number and stands last. -/
def State.commitEntry (s : State) (h num : Nat) : State :=
  s.modGroup h fun g =>
    match g.estate.find? fun e => e.num == num with
    | none => g
    | some e =>
      { g with
        estate := (g.estate.filter fun x => x.num != num) ++ [{ e with reserved := false, order := g.orderCtr }]
        orderCtr := (g.orderCtr + 1) % 4294967296 }

/-- Frees an entry. -/
def State.freeEntry (s : State) (h num : Nat) : State :=
  s.modGroup h fun g => { g with estate := g.estate.filter fun e => e.num != num }

/-- Removes the group's most recent registered entry that `p` names. -/
def State.removeLast (s : State) (h : Nat) (p : Holding → Bool) : State :=
  match findLast? (fun e => !e.reserved && p e) (s.group h).estate with
  | some e => s.freeEntry h e.num
  | none => s

/-! ## Barrier words (R163, R164) -/

def barPhase (w : Word) : Nat := bits w 48 8
/-- The word after an arrival of `b`. -/
def arriveWord (w b : Word) : Word :=
  let c := bits b 0 24
  if c = 0 ∧ !bitAt b 63 then w
  else
    let e := if bits w 24 24 = 0 then 1 else bits w 24 24
    let t := bits w 0 24 + c
    let w := setBits (setBits w 0 24 (t % e)) 48 8 (bits w 48 8 + t / e)
    if bitAt b 63 then setBits w 63 1 1 else w
/-- Whether a wait on a phase completes. -/
def phaseOver (w : Word) (phase : Nat) : Bool := barPhase w != phase || bitAt w 63

/-! ## Lock words (R166 to R168) -/

def lockHolder (w : Word) : Nat := bits w 24 32
/-- `lkacq` acquires for a group: the holder, the next generation, bits 61:56 zero. -/
def acquireWord (w : Word) (h : Nat) : Word :=
  setBits (setBits (setBits w 24 32 h) 0 24 (bits w 0 24 + 1)) 56 6 0
/-- `lkrel` frees it. -/
def releaseWord (w : Word) : Word := word (bits w 0 24)

/-! ## Promise words (R169, R170) -/

def fulfilWord (w v : Word) : Word := setBits (setBits w 63 1 1) 0 56 (bits v 0 56)

/-! ## Accesses and elements by name -/

def State.acc? (s : State) (tid seq : Nat) : Option Acc := (s.team tid).accs.find? fun a => a.seq == seq
def State.modAcc (s : State) (tid seq : Nat) (f : Acc → Acc) : State :=
  s.modTeam tid fun t => { t with accs := updFirst (fun a => a.seq == seq) f t.accs }
def State.modElem (s : State) (tid seq idx : Nat) (f : Elem → Elem) : State :=
  s.modAcc tid seq fun a => { a with elems := setNth a.elems idx (f (nth .zero a.elems idx)) }

/-! ## Where a word lies -/

/-- Whether an operation only reads its word (R254): its translation is that of a read. -/
def WordOp.reads : WordOp → Bool
  | .await _ | .arwaited _ | .mwait _ | .prwait => true
  | _ => false

/-- The home die of a word on a replicated page. -/
def WordReq.home (r : WordReq) : Option Nat :=
  match r.kind with
  | .replicated home => some home
  | _ => none

/-- Whether a scope reaches no further than a die (R146). -/
def Scope.nearby : Scope → Bool
  | .team | .group | .die => true
  | _ => false

/-- Where a word operation reads its word: on a replicated page a read takes the own die's replica and the others act at
the home (R264). -/
def State.wordAt (s : State) (tid : Nat) (r : WordReq) : Option Target :=
  match r.tgt, r.home with
  | some (.hbm pa), some home =>
    some (.hbm (s.replicaAt (s.replicaDie (dieOf (s.team tid).cluster) home pa (if r.op.reads then 0 else 2)) pa))
  | t, _ => t

/-! ## Updates of replicated pages (R264, R265) -/

/-- Writes an update's bytes at one die, or tears that die's lines where its replica refuses it or no path leads there;
whether it was applied. -/
def State.applyBytes (s : State) (home die : Nat) (m : Multi) : State × Bool :=
  let at_ := s.replicaAt die m.pa
  if s.frameHeld (s.ctxWorld m.ctx) at_ && s.pathUp home die then
    let s := (s.hbmWrite at_ m.bytes).healAt (.hbm at_) m.bytes.length
    (match m.part with | some x => s.noteStore (m.tid, x.1) (.hbm at_) m.bytes.length | none => s, true)
  else
    let s := (poisonKeys (.hbm at_) m.bytes.length).foldl (fun s p =>
      match p with | .line n => s.markPoison (.replica die n) | _ => s) s
    (s.queueRec m.ctx 0 [eventRec 5 0 (s.team m.tid).index m.group (word m.pa) (Config.tornDetail die m.num) 0], false)

/-- Appends an update to a home die's series. -/
def State.addUpdate (s : State) (home : Nat) (m : Multi) : State :=
  s.modDie home fun d => { d with series := d.series ++ [{ m with num := d.nextNum }], nextNum := d.nextNum + 1 }

/-- Whether a die has applied or refused an update. -/
def Multi.settled (m : Multi) (die : Nat) : Bool := (m.applied ||| m.torn).getLsbD die

/-- Whether a die has every update of a home die's series. -/
def State.caughtUp (s : State) (home die : Nat) : Bool := (s.die home).series.all (·.settled die)

/-- Whether a read of a replicated page must wait: for an update of its own team that its replica has not applied, and,
at a scope beyond its die, for one that another team of the die has made and not every die has (R262, R264). -/
def State.readWaits (s : State) (t : Team) (sc : Scope) (home pa n : Nat) : Bool :=
  let own := dieOf t.cluster
  (s.die home).series.any fun m => (Target.hbm m.pa).overlaps m.bytes.length (.hbm pa) n &&
    ((m.tid == t.tid && !m.settled own) || (m.tid != t.tid && m.die == own && m.settled own && !Scope.nearby sc))

/-- Whether an operation on a word of a replicated page may look at it: a read as any read may, and one that acts at the
home once the home and the team's own die have every update, and, for one that is ordered, so has every other die. -/
def State.homeReady (s : State) (tid : Nat) (r : WordReq) : Bool :=
  match r.tgt, r.home with
  | some (.hbm pa), some home =>
    if r.op.reads then !s.readWaits (s.team tid) r.scope home pa 8
    else s.caughtUp home home && s.caughtUp home (dieOf (s.team tid).cluster) &&
      (r.ord == .plain || (List.range s.part.dies).all (s.caughtUp home ·))
  | _, _ => true

/-- Whether the word that an operation would read holds an uncorrectable error, or was torn (R118, R265, R400). -/
def State.wordBad (s : State) (tid : Nat) (r : WordReq) (tgt : Target) : Bool :=
  match r.tgt, r.home with
  | some (.hbm pa), some home =>
    s.badReplica (s.replicaDie (dieOf (s.team tid).cluster) home pa (if r.op.reads then 0 else 2)) pa 8
  | _, _ => s.poisonedAt tgt 8

/-- Writes a word. On a replicated page the home takes it at once and the others by its series; an ordered operation
reaches every replica at once (R264). -/
def State.putWord (s : State) (tid : Nat) (r : WordReq) (tgt : Target) (v : Word) : State :=
  let s' := s.storeAt tgt 8 v.toNat
  match r.tgt, r.home with
  | some (.hbm pa), some home =>
    let t := s.team tid
    let m : Multi := ⟨0, pa, leBytes 8 v.toNat, (s.group t.group).ctx, t.group, tid, dieOf t.cluster, none, r.ord != .plain, 1#4 <<< home, 0⟩
    if r.ord = .plain then s'.addUpdate home m
    else (List.range s.part.dies).foldl (fun s d => if d = home then s else (s.applyBytes home d m).1) s'
  | _, _ => s'

/-! ## One operation on a word -/

/-- A holding of a pod-buffer slot: an object that the group already holds gives its entry, and otherwise a new one is
registered (R172). -/
def State.holdSlotTry (s : State) (tid : Nat) (r : WordReq) (n : Option Nat) (heir ext : Word) : State × Option Word :=
  let h := (s.team tid).group
  match (s.group h).estate.find? fun e => e.kind == 7 && e.obj == word r.addr && !e.reserved with
  | some e => (match n with | some k => s.freeEntry h k | none => s, some (word e.num))
  | none =>
    match n with
    | some k => (s.commitEntry h k, some (word k))
    | none =>
      if s.estateRoom h then
        let p := s.reserveEntry h 7 (word r.addr) heir ext r.scope h
        (p.1.commitEntry h p.2, some (word p.2))
      else (s, none)

/-- Whether a holding of a slot finds neither an entry of the group nor room for one (R174). -/
def State.noEntry (s : State) (tid : Nat) (r : WordReq) : Bool :=
  let h := (s.team tid).group
  match r.op with
  | .holdSlot none _ _ => !s.estateRoom h && !((s.group h).estate.any fun e => e.kind == 7 && e.obj == word r.addr && !e.reserved)
  | _ => false

/-- What an operation does at its word `w`: the state with what it wrote, and the value of d when it completes; `none`
when it must wait. -/
def State.wordEffect (s : State) (tid : Nat) (r : WordReq) (tgt : Target) (w : Word) : State × Option Word :=
  let h := (s.team tid).group
  let put (s : State) (v : Word) : State := if v = w then s else s.putWord tid r tgt v
  match r.op with
  | .arrive b => (put s (arriveWord w b), some w)
  | .await phase => (s, if phaseOver w phase then some w else none)
  | .arwait b =>
    let w' := arriveWord w b
    (put s w', if phaseOver w' (barPhase w) then some w' else none)
  | .arwaited old => (s, if phaseOver w (barPhase old) then some w else none)
  | .mwait b => (s, if w ≠ b then some w else none)
  | .lkacq entry timeout orph tryOnce =>
    let drop (s : State) := match entry with | some n => s.freeEntry h n | none => s
    if lockHolder w = h then (drop s, some w)
    else if lockHolder w = 0 then
      if bitAt w 62 ∧ !orph then (drop s, some w)
      else
        let w' := acquireWord w h
        let s := put s w'
        (match entry with | some n => s.commitEntry h n | none => s, some w')
    else if tryOnce ∨ timeout = some 0 then (drop s, some w)
    else (s, none)
  -- the group's most recent entry for the address leaves the estate, whatever its kind (R168, R170)
  | .lkrel =>
    if lockHolder w = h then ((put s (releaseWord w)).removeLast h fun e => e.obj == word r.addr, some w) else (s, some w)
  | .prnew n => ((put s 0).commitEntry h n, some (word n))
  | .prful v =>
    let s := if bitAt w 63 then s else put s (fulfilWord w v)
    (s.removeLast h fun e => e.obj == word r.addr, some w)
  | .prwait => (s, if bitAt w 63 then some w else none)
  | .holdSlot n heir ext => s.holdSlotTry tid r n heir ext

/-- Makes a word operation of a team at its translated word. -/
def State.wordTry (s : State) (tid : Nat) (r : WordReq) : State × Option Word :=
  match s.wordAt tid r with
  | none => (s, none)
  | some tgt =>
    match r.op with
    | .holdSlot n heir ext => s.holdSlotTry tid r n heir ext
    | _ =>
      if !s.homeReady tid r then (s, none)
      else if s.wordBad tid r tgt then
        let t := s.team tid
        let slice := match tgt with | .hbm pa => stackSlice (pa / 4096 % (2 * s.part.dies)) pa | _ => 0
        ((s.containedAt t.cluster (s.group t.group).ctx slice (some tgt)).killGroup t.group 0x1C, none)
      else s.wordEffect tid r tgt (word (s.readAt tgt 8))

/-! ## Completing a wait (R150, R151) -/

/-- A parked operation completes: its scalar is written and lives, the PC moves past the instruction, and the frame
sets out as a reply. A watched frame waits for its wake-up (R224). A wait that ran unescorted makes its team ready.
`push` is set for a `launch`, and a parked `emit` or `mtask`, whose result enters f4 too (R90, R192). The latches are invalid
all the same, since the tenure has ended (R43, R44): that both hold is the model's reading (log 72). -/
def State.completeWait (s : State) (tid : Nat) (dst : SDst) (d : Word) (push : Bool) : State :=
  s.modTeam tid fun t =>
    match t.escort with
    | none => t
    | some e =>
      let t := (t.setSDst dst d).advance e.len
      let t := if push then { t.pushUni d with fvalid := t.fvalid } else t
      if e.eo then { t with escort := none, st := .ready, readyAt := s.ck, readyPrev := false }
      else
        let live : BitVec 32 := match dst with | some r => 1#32 <<< r.val | none => 0
        { t with escort := some { e with
            status := 1
            liveS := e.liveS ||| live
            place := if e.place = .watched then .watched else .reply
            arrived := s.events } }

/-- Whether a frame waits at a place where writes to its word are seen. -/
def Escort.listens (e : Escort) : Bool :=
  e.status == 0 && (e.eo || e.place == .pen || e.place == .unit || e.place == .watched)

/-- The word operation that a team waits with where writes are seen, once it has acted on its word. -/
def Team.listening (t : Team) : Option (Escort × WordReq) :=
  match t.escort with
  | some e =>
    match e.what with
    | .word r => if e.listens && r.acted then some (e, r) else none
    | _ => none
  | none => none

/-- The teams parked on words that `p` names, in the order they parked. -/
def State.waiters (s : State) (p : Nat → WordReq → Bool) : List (Nat × Nat) :=
  s.teams.filterMap fun t =>
    match t.listening with
    | some (e, r) => if p t.tid r then some (e.arrived, t.tid) else none
    | none => none

/-- The teams parked on a range. -/
def State.waitersAt (s : State) (tgt : Target) (n : Nat) : List (Nat × Nat) :=
  s.waiters fun tid r => (s.wordAt tid r).any fun u => u.overlaps 8 tgt n

/-- Evaluates one parked team again. -/
def State.wakeOne (s : State) (tid : Nat) : State :=
  match (s.team tid).listening with
  | some (_, r) =>
    let p := s.wordTry tid r
    match p.2 with
    | some d => { p.1 with events := p.1.events + 1 }.completeWait tid r.dst d false
    | none => p.1
  | none => s

/-- Whether a team still waits for the lock of another waiter's address. -/
def State.sameLock (s : State) (a b : Nat) : Bool :=
  match (s.team a).listening, (s.team b).listening with
  | some (_, r), some (_, q) =>
    match r.op, q.op with
    | .lkacq .., .lkacq .. => r.tgt == q.tgt
    | _, _ => false
  | _, _ => false

/-- Evaluates teams in the order they parked; behind an acquirer that goes on waiting, the others of its lock wait too
(R167). -/
def State.wakeEach (s : State) : Nat → List (Nat × Nat) → State
  | 0, _ => s
  | k + 1, l =>
    match minBy Prod.fst l with
    | none => s
    | some p =>
      let s' := s.wakeOne p.2
      s'.wakeEach k (l.filter fun q => q != p && !s'.sameLock p.2 q.2)

/-- What a write of `n` bytes at a place wakes. A second round lets a monitor see the write of a lock that the first
round acquired, on whichever die it watches a replicated page. -/
def State.wakeAt (s : State) (tgt : Target) (n : Nat) : State :=
  let l := s.waitersAt tgt n
  if l.isEmpty then s
  else
    let s := s.wakeEach l.length l
    let l := s.waiters fun tid r => r.home.isSome || (s.wordAt tid r).any fun u => u.overlaps 8 tgt n
    s.wakeEach l.length l

/-- Evaluates one parked team again outside a write: what it writes itself wakes others (R165). -/
def State.lookAgain (s : State) (tid : Nat) : State :=
  let s' := s.wakeOne tid
  match (s.team tid).listening with
  | some (_, r) =>
    match s.wordAt tid r with
    | some tgt => if s'.hbm = s.hbm ∧ s'.spad = s.spad then s' else s'.wakeAt tgt 8
    | none => s'
  | none => s'

/-- Operations that wait to act at a home die try again when a die has applied one of its updates. -/
def State.wakeHome (s : State) (home : Nat) : State :=
  let l := s.waiters fun _ r => r.home == some home && !r.op.reads
  s.wakeEach l.length l

/-- A store of any agent: bytes, poison marks, and the waiters of the words it writes. -/
def State.store (s : State) (tgt : Target) (n v : Nat) : State := (s.storeAt tgt n v).wakeAt tgt n

/-! ## Applying a series (R264) -/

/-- The element of an update has come to its own die, or to every die. -/
def State.noteApplied (s : State) (m : Multi) (die : Nat) (all : Bool) : State :=
  match m.part with
  | none => s
  | some (seq, idx) =>
    if all then s.modElem m.tid seq idx fun e => { e with st := .done }
    else if die = m.die then s.modElem m.tid seq idx fun e => { e with st := .near }
    else s

/-- Applies update `num` of a home die's series at one die. -/
def State.applyOne (s : State) (home die num : Nat) : State :=
  match (s.die home).series.find? fun m => m.num == num && !m.settled die with
  | none => s
  | some m =>
    let p := s.applyBytes home die m
    let bit : BitVec 4 := 1#4 <<< die
    let m' := if p.2 then { m with applied := m.applied ||| bit } else { m with torn := m.torn ||| bit }
    let all := (List.range s.part.dies).all m'.settled
    let s := p.1.modDie home fun d => { d with
      series := if all then d.series.filter fun x => x.num != num else updFirst (fun x => x.num == num) (fun _ => m') d.series }
    let s := s.noteApplied m die all
    let seen := if all then List.range s.part.dies else if p.2 then [die] else []
    (seen.foldl (fun s d => s.wakeAt (.hbm (s.replicaAt d m.pa)) m.bytes.length) s).wakeHome home

/-- A die applies what its home's series holds up to update `num`. -/
def State.applyUpTo (s : State) (home die num : Nat) : State :=
  ((s.die home).series.filter fun m => decide (m.num ≤ num)).foldl (fun s m => s.applyOne home die m.num) s

/-- Applies the next update of a home die's series at one die. A release becomes readable at every die at once, so that
no two dies see releases in different orders (R262, R264). -/
def State.applyMulti (s : State) (home die : Nat) : State :=
  match (s.die home).series.find? fun m => !m.settled die with
  | none => s
  | some m =>
    if m.rel then
      let s := if m.num = 0 then s
        else (List.range s.part.dies).foldl (fun s d => s.applyUpTo home d (m.num - 1)) s
      (List.range s.part.dies).foldl (fun s d => s.applyOne home d m.num) s
    else s.applyOne home die m.num

/-- A die applies the whole of a home's series. -/
def State.catchUp (s : State) (home die : Nat) : State := (s.die home).series.foldl (fun s _ => s.applyMulti home die) s

/-- Applies every update of every series at every die. What orders a team's accesses before those of another agent (a
release, a kick, a task, a copy) does so for what it has read, too: no later read finds an older value (R258, R260). -/
def State.applyAllMulti (s : State) : State :=
  if s.dies.all fun d => d.series.isEmpty then s
  else (List.range s.part.dies).foldl (fun s home => (List.range s.part.dies).foldl (fun s die => s.catchUp home die) s) s

/-! ## The first time that an operation acts -/

/-- The home die and the team's own, or every die, take its updates before an operation acts there: what the team reads
later on its own die is no older than what it reads at the home (R260). -/
def State.prepareHome (s : State) (tid : Nat) (r : WordReq) : State :=
  match r.home with
  | none => s
  | some home =>
    if r.op.reads then s
    else if r.ord = .plain then (s.catchUp home home).catchUp home (dieOf (s.team tid).cluster)
    else (List.range s.part.dies).foldl (fun s d => s.catchUp home d) s

/-- A word operation acts for the first time, with what its write wakes; and the operation as it waits from then on, an
`arwait` with its arrival made (R164). -/
def State.wordRun (s : State) (tid : Nat) (r : WordReq) : State × Option Word × WordReq :=
  let s := s.prepareHome tid r
  let p := s.wordTry tid r
  let r' : WordReq := { r with acted := true, op := match r.op, s.wordAt tid r with
    | .arwait _, some tgt => .arwaited (word (s.readAt tgt 8))
    | k, _ => k }
  match s.wordAt tid r with
  | some tgt => if p.1.hbm = s.hbm ∧ p.1.spad = s.spad then (p.1, p.2, r') else (p.1.wakeAt tgt 8, p.2, r')
  | none => (p.1, p.2, r')

end Sys2Proof.Machine
end

