-- ==== Sys2Proof/Machine/Access.lean ====
section
/-! DEFINITION. Accesses in flight: which element may be performed when (R145, R155, R156, R160, R251, R255, R264),
the combining buffer (R247, R248), results (R217), wait classes (R104), and the forced progress of an instruction
that must wait. -/
namespace Sys2Proof.Machine
open Sys2Proof

/-! ## What has been performed -/

/-- Whether an element has been performed everywhere. -/
def Elem.performed (e : Elem) : Bool := e.st == .done || e.st == .home

/-- Whether an element has been performed at a scope: an update of a replicated page is, at a die's scope, once that
die's replica has applied it (R264). -/
def Elem.performedAt (e : Elem) (sc : Scope) : Bool := e.performed || (e.st == .near && Scope.nearby sc)

/-- Whether an access has been performed, everywhere and at its own scope. -/
def Acc.performed (a : Acc) : Bool := a.elems.all Elem.performed
/-- Whether nothing of an access is outstanding: its results stand in the destination too. -/
def Acc.finished (a : Acc) : Bool :=
  a.elems.all fun e => e.st == .home || (e.st == .done && (a.dst == .none || !a.op.returns))

/-- Whether an access no longer counts in its class: it has its result, or is performed at its scope (R104). -/
def Acc.left (a : Acc) : Bool := a.finished || ((a.dst == .none || !a.op.returns) && a.elems.all (·.performedAt a.scope))

/-- Operations of a class that count (R78, R104): they leave the count oldest first. -/
def Team.classCount (t : Team) (c : WaitClass) : Nat :=
  ((t.accs.filter fun a => a.cls == some c).dropWhile Acc.left).length

/-- Whether the team's escort frame waits for an access, which then ends only at its merge. -/
def Team.framed (t : Team) (seq : Nat) : Bool :=
  match t.escort with
  | some e => (match e.what with | .access q | .unitAccess q => q == seq | _ => false)
  | none => false

/-- Drops what no longer counts: finished accesses with no unfinished older one of their class. -/
def Team.retire (t : Team) : Team :=
  { t with accs := t.accs.filter fun a =>
      !(a.finished && !t.framed a.seq && t.accs.all fun b => !(decide (b.seq < a.seq) && b.cls == a.cls && !b.finished)) }

/-! ## Preserved program order (R255) -/

/-- Whether two elements share a byte. An element without a place is compared by its address. -/
def Elem.overlaps (e f : Elem) : Bool :=
  match e.tgt, f.tgt with
  | some a, some b => a.overlaps e.size b f.size
  | _, _ => decide (e.va < f.va + f.size) && decide (f.va < e.va + e.size)

def Elem.remote (e : Elem) : Bool :=
  match e.tgt with
  | some (.remote _ _) => true
  | _ => false

/-- An update that stands in its home's series, which keeps the order of what follows (R264). -/
def Elem.inSeries (e : Elem) : Bool :=
  (e.st == .sent || e.st == .near) && match e.kind with | .replicated _ => true | _ => false

def Ord.acquires : Ord → Bool
  | .acq | .ar => true
  | _ => false
def Ord.releases : Ord → Bool
  | .rel | .ar => true
  | _ => false

/-- Whether a store enters the combining buffer: an unescorted one, of any order, to a release-consistent or unordered
page (R247). -/
def Elem.combines (a : Acc) (e : Elem) : Bool :=
  !a.esc && (match a.op with | .store _ => true | _ => false) && (e.kind == .relCons || e.kind == .unordered) &&
    (match e.tgt with | some (.hbm _) | some (.remote _ _) => true | _ => false)

/-- Whether an element of an earlier access keeps element `e` of access `a` back: rows 1 and 7. A load forwards from a
store that stands in the combining buffer, and a combining store merges with it; an update in a replicated page's series
keeps back only a read, until its own replica has it. -/
def keepsBack (f : Elem) (a : Acc) (e : Elem) : Bool :=
  !f.performed &&
    ((f.kind == .spad && e.kind == .spad) || (f.kind == .strong && e.kind == .strong) ||
      (f.kind != .unordered && e.kind != .unordered && f.overlaps e &&
        !(f.st == .buffered && (a.op.isLoad || e.combines a)) && !(f.inSeries && (f.st == .near || !a.op.isLoad))))

/-- Whether an edge of a scope from `f` to `e` is still open. A remote access counts only edges of pod scope (R259). -/
def edgeOpen (sc : Scope) (f e : Elem) : Bool := !f.performedAt sc && (sc == .pod || !(f.remote || e.remote))

/-- Whether element `f` of an earlier access `b` keeps element `e` of access `a` back: rows 1, 2, 3, 5 and 7. -/
def Acc.holds (b a : Acc) (f e : Elem) : Bool :=
  ((Ord.acquires b.ord || b.esc) && edgeOpen b.scope f e) || (Ord.releases a.ord && edgeOpen a.scope f e) || keepsBack f a e

/-- Whether an earlier access keeps an element back. -/
def Acc.blocks (b a : Acc) (e : Elem) : Bool := b.elems.any fun f => b.holds a f e

/-- Whether a data element of an `stf` keeps its flag back: until it is visible at the scope of the instruction. At a
scope below pod no edge between devices counts (R259), and the flag of a remote one follows it on the way to the peer,
which takes both in that order (R156, R357, R361). -/
def Elem.flagWaits (f : Elem) (sc : Scope) : Bool := !f.performedAt sc && !(f.remote && sc != .pod && f.st == .sent)

/-- Whether an earlier element of the same access keeps an element back: overlapping elements act in lane order
(R155, R160), and a flag follows the data of its lanes (R156). -/
def Acc.blocksOwn (a : Acc) (idx : Nat) (e : Elem) : Bool :=
  !a.op.isLoad &&
    ((a.elems.take idx).any (fun f => !f.performed && f.overlaps e && f.flag == e.flag &&
        !(f.st == .buffered && e.combines a) && !f.inSeries) ||
      (e.flag && a.elems.any fun f => !f.flag && f.aux == e.va && f.flagWaits a.scope))

/-- Whether an element may be performed now. -/
def Team.mayPerform (t : Team) (a : Acc) (idx : Nat) : Bool :=
  let e := nth .zero a.elems idx
  e.st == .todo && !a.blocksOwn idx e && t.accs.all fun b => !(decide (b.seq < a.seq) && b.blocks a e)

/-! ## Remote elements (R358, R360, R362) -/

/-- The operation that a pod fetch carries for an element. -/
def podOpOf (op : AccOp) (e : Elem) : PodOp :=
  match op with
  | .load _ => .load
  | .store _ => .store
  | .stf _ => if e.flag then .flagAdd else .store
  | .atom k | .redm k => .atom k
  | .cas w => .cas w

/-- The pod fetch of an element. -/
def fetchBody (world pa : Nat) (op : AccOp) (e : Elem) : FlitBody :=
  .fetch world pa e.size (podOpOf op e) (match op with | .stf _ => !e.flag | _ => false) e.arg e.aux

/-- Sends an element to a peer: its timer starts (R362). -/
def State.sendElem (s : State) (tid : Nat) (a : Acc) (idx : Nat) (e : Elem) (dev pa : Nat) : State :=
  let g := s.group (s.team tid).group
  let r : Remote := ⟨s.nextId, tid, a.seq, idx, dev, g.ctx, g.handle, 0, s.stalledTo dev⟩
  let s' := s.sendFlit dev 0 s.nextId (fetchBody (s.ctxWorld g.ctx) pa a.op e)
  { s' with remotes := s'.remotes ++ [r], nextId := s'.nextId + 1 }.modElem tid a.seq idx fun e => { e with st := .sent }

/-! ## The combining buffer (R247, R248) -/

def State.combOf (s : State) (t : Team) : List Comb := ((s.cluster t.cluster).core t.core).comb

/-- Whether an entry holds byte `a` of a device for a team. -/
def Comb.has (c : Comb) (tid dev a : Nat) : Bool := c.tid == tid && c.dev == dev && c.line == a / 64 && c.mask.getLsbD (a % 64)

/-- The bytes that a team's own entries hold over `n` bytes from `pa`, laid over `old`. -/
def forwardBytes (comb : List Comb) (tid dev pa n old : Nat) : Nat :=
  leNat (tabulate n fun i =>
    match comb.find? fun c => c.has tid dev (pa + i) with
    | some c => cellGet c.bytes ((pa + i) % 64)
    | none => byteOf old i)

/-- How many of `n` bytes from `pa` a team's own entries hold. -/
def bytesHeld (comb : List Comb) (tid dev pa n : Nat) : Nat :=
  ((List.range n).filter fun i => comb.any fun c => c.has tid dev (pa + i)).length

/-- Writes an entry to memory: its bytes become memory's, and a full line clears poison (R400). -/
def State.writeComb (s : State) (c : Comb) : State :=
  let s := (List.range 64).foldl (fun s i =>
    if c.mask.getLsbD i then { s with hbm := cellSet s.hbm (64 * c.line + i) (cellGet c.bytes i) } else s) s
  let s := if c.mask = BitVec.allOnes 64 then s.clearPoison (.line c.line) else s
  s.wakeAt (.hbm (64 * c.line)) 64

/-- Whether an element is a store that stands in a line of the buffer. -/
def Elem.inLine (e : Elem) (dev line : Nat) : Bool :=
  e.st == .buffered && e.tgt.any fun t => t.device == dev && t.addr / 64 == line

/-- The line of an element that stands in the buffer. -/
def Elem.line? (e : Elem) : Option (Nat × Nat) :=
  if e.st = .buffered then e.tgt.map fun t => (t.device, t.addr / 64) else none

def State.removeComb (s : State) (t : Team) (c : Comb) : State :=
  s.modCore t.cluster t.core fun k => { k with comb := k.comb.filter fun d => d.age != c.age }

/-- Sends the stores of a remote line, in the order of issue, as far as their way has room. -/
def State.sendLine (s : State) (tid : Nat) (c : Comb) : State :=
  let l := (s.team tid).accs.flatMap fun a => (List.range a.elems.length).filterMap fun i =>
    if (nth .zero a.elems i).inLine c.dev c.line then some (a, i) else none
  let s := l.foldl (fun s p => if s.mayFetch c.dev then
    s.sendElem tid p.1 p.2 (nth .zero p.1.elems p.2) c.dev (((nth .zero p.1.elems p.2).tgt.map Target.addr).getD 0) else s) s
  if (s.team tid).accs.any fun a => a.elems.any (·.inLine c.dev c.line) then s else s.removeComb (s.team tid) c

/-- The slice of a line in the buffer, as its stores know it. -/
def Team.lineSlice (t : Team) (dev line : Nat) : Nat :=
  ((t.accs.flatMap Acc.elems).find? (·.inLine dev line)).elim 0 Elem.slice

/-- Drains one entry of a team (R248): into this device's memory, or to the peer that holds its line. Nothing drains over
a link that holds its traffic. -/
def State.drainEntry (s : State) (tid dev line : Nat) : State :=
  let t := s.team tid
  match (s.combOf t).find? fun c => c.tid == tid && c.dev == dev && c.line == line with
  | none => s
  | some c =>
    if c.dev ≠ 16 then s.sendLine tid c
    else if !s.linkOpen (dieOf t.cluster) (t.lineSlice dev line) then s
    else
      ((s.writeComb c).removeComb t c).modTeam tid fun t => { t with accs := t.accs.map fun a => { a with
        elems := a.elems.map fun e => if e.inLine 16 line then { e with st := .done } else e } }

/-- Drains every entry of a team, oldest first. -/
def State.drainTeam (s : State) (tid : Nat) : State :=
  ((s.combOf (s.team tid)).filter fun c => c.tid == tid).foldl (fun s c => s.drainEntry tid c.dev c.line) s

/-- Drains the entries that hold a byte of a range. -/
def State.drainOver (s : State) (tid : Nat) (tgt : Target) (n : Nat) : State :=
  ((s.combOf (s.team tid)).filter fun c => (List.range n).any fun i => c.has tid tgt.device (tgt.addr + i)).foldl
    (fun s c => s.drainEntry tid c.dev c.line) s

/-- Makes room in a full buffer by evicting its oldest entry. -/
def State.combRoom (s : State) (t : Team) : State :=
  match s.combOf t with
  | c :: _ => if 64 ≤ (s.combOf t).length then s.drainEntry c.tid c.dev c.line else s
  | [] => s

/-- An entry with a store's bytes laid over it. -/
def Comb.put (c : Comb) (off n v : Nat) : Comb :=
  { c with
    bytes := (List.range n).foldl (fun b i => cellSet b (off + i) (byteOf v i)) c.bytes
    mask := c.mask ||| BitVec.ofNat 64 ((2 ^ n - 1) * 2 ^ off) }

/-- Merges a store into the team's entry for its line, or takes a new entry when there is room; a full entry drains. The
store waits where the buffer stays full. -/
def State.combStore (s : State) (tid seq idx dev pa n v : Nat) : State :=
  let t := s.team tid
  let line := pa / 64
  let mine (c : Comb) : Bool := c.tid == tid && c.dev == dev && c.line == line
  let s := if (s.combOf t).any mine then s else s.combRoom t
  if !(s.combOf t).any mine ∧ 64 ≤ (s.combOf t).length then s
  else
    let s := s.modElem tid seq idx fun e => { e with st := .buffered }
    let s := if (s.combOf t).any mine then
        s.modCore t.cluster t.core fun k => { k with comb := updFirst mine (Comb.put · (pa % 64) n v) k.comb }
      else { s with events := s.events + 1 }.modCore t.cluster t.core fun k =>
        { k with comb := k.comb ++ [Comb.put ⟨tid, dev, line, [], 0, s.ck, s.events⟩ (pa % 64) n v] }
    if ((s.combOf t).find? mine).any (fun c => c.mask == BitVec.allOnes 64) then s.drainEntry tid dev line else s

/-! ## An element that meets a fault after issue (R313, R346, R360) -/

/-- The access fault of an element at its team's next boundary. The elements of one access give one trap, with the lowest
address; an exiting team's goes to its supervisor. -/
def State.pendAccess (s : State) (tid va : Nat) (same : Nat → Bool) : State :=
  let t := s.team tid
  if t.st = .exiting then s.teamEvent t 4 6 0 (word va) 0
  else
    let mine (p : Nat × Word) : Bool := p.1 == 6 && same p.2.toNat
    if t.pending.any mine then
      s.modTeam tid fun t => { t with pending := t.pending.map fun p => if mine p then (6, word (min p.2.toNat va)) else p }
    else s.pendTrap tid 6 (word va)

/-- The element is not performed: it reads zero, and its team takes the fault. -/
def State.refuseElem (s : State) (tid : Nat) (a : Acc) (idx : Nat) (e : Elem) : State :=
  (s.modElem tid a.seq idx fun e => { e with got := 0, st := .done }).pendAccess tid e.va fun v => a.elems.any fun x => x.va == v

/-! ## Performing an element -/

/-- What poison does to the consumer of an element (R118, R156, R400): the lane dies, or the group of a uniform load
is killed; a flag's lanes die. A record names the place (R398). The death, with its PZ, comes when the element is performed: the
model's choice, since R47 gives it no place in the order of issue (log 105). -/
def State.consumePoison (s : State) (tid : Nat) (a : Acc) (e : Elem) : State :=
  let t := s.team tid
  let s := s.containedAt t.cluster (s.group t.group).ctx e.slice e.tgt
  if e.flag then (a.elems.filter fun f => !f.flag && f.aux == e.va).foldl (fun s f => s.laneDies tid f.lane) s
  else if e.lane < 1024 then s.laneDies tid e.lane
  else s.killGroup t.group 0x1C

/-- An element at a place of this device. -/
def State.performLocal (s : State) (tid : Nat) (a : Acc) (idx : Nat) (e : Elem) (tgt : Target) : State :=
  let t := s.team tid
  if elemReads a.op e.flag && s.poisonedAt tgt e.size then
    (s.modElem tid a.seq idx fun e => { e with st := .done }).consumePoison tid a e
  else
    let mem := s.readAt tgt e.size
    let fwd := match tgt with
      | .hbm pa => if a.op.isLoad then forwardBytes (s.combOf t) tid 16 pa e.size mem else mem
      | _ => mem
    let old := if fwd ≠ mem ∧ e.kind = .unordered ∧ !Config.freeChoice s.freeCtr then mem else fwd
    let s := if fwd ≠ mem ∧ e.kind = .unordered then s.drawFree else s
    let r := elemEffect a.op e.flag e.arg e.aux old
    let s := match r.2 with
      | some v => (s.store tgt e.size v).noteStore (tid, a.seq) tgt e.size
      | none => s
    s.modElem tid a.seq idx fun e => { e with got := r.1, st := .done }

/-- The update that an element's write makes, a release where its instruction is one or follows a release fence (R257). -/
def State.elemUpdate (s : State) (t : Team) (a : Acc) (idx pa n v : Nat) : Multi :=
  ⟨0, pa, leBytes n v, (s.group t.group).ctx, t.group, t.tid, dieOf t.cluster, some (a.seq, idx),
    Ord.releases a.ord || t.relFence, 0, 0⟩

/-- A load of a replicated page: from the own die's replica, or the home's where its own line is poisoned (R265). -/
def State.loadReplica (s : State) (tid : Nat) (a : Acc) (idx : Nat) (e : Elem) (home pa : Nat) : State :=
  let t := s.team tid
  let own := dieOf t.cluster
  if s.readWaits t a.scope home pa e.size then s
  else
    -- a read that is redirected is followed by no older one (R260)
    let bad := s.badReplica own pa e.size
    let d := if bad then home else own
    let s := if bad then s.catchUp home own else s
    if s.badReplica d pa e.size then (s.modElem tid a.seq idx fun e => { e with st := .done }).consumePoison tid a e
    else if !s.frameHeld (s.ctxWorld (s.group t.group).ctx) (s.replicaAt d pa) then s.refuseElem tid a idx e
    else s.modElem tid a.seq idx fun e => { e with got := s.hbmRead (s.replicaAt d pa) e.size, st := .done }

/-- A read-modify-write of a replicated page, made at the home as one event: the home has applied its series up to here,
and multicasts the new value (R264). So has the team's own die, whose replica its later reads take (R260). -/
def State.atomReplica (s : State) (tid : Nat) (a : Acc) (idx : Nat) (e : Elem) (home pa : Nat) : State :=
  let t := s.team tid
  let s := (s.catchUp home home).catchUp home (dieOf t.cluster)
  if s.badReplica home pa e.size then (s.modElem tid a.seq idx fun e => { e with st := .done }).consumePoison tid a e
  else if !s.frameHeld (s.ctxWorld (s.group t.group).ctx) (s.replicaAt home pa) then s.refuseElem tid a idx e
  else
    let r := elemEffect a.op e.flag e.arg e.aux (s.hbmRead (s.replicaAt home pa) e.size)
    match r.2 with
    | none => s.modElem tid a.seq idx fun e => { e with got := r.1, st := .done }
    | some v =>
      ((s.modElem tid a.seq idx fun e => { e with got := r.1, st := .sent }).addUpdate home
        (s.elemUpdate t a idx pa e.size v)).applyMulti home home

/-- An element of a replicated page; a store, or the data of an `stf`, joins the home's series. -/
def State.performReplicated (s : State) (tid : Nat) (a : Acc) (idx : Nat) (e : Elem) (home pa : Nat) : State :=
  if a.op.isLoad then s.loadReplica tid a idx e home pa
  else if !elemReads a.op e.flag then
    (s.addUpdate home (s.elemUpdate (s.team tid) a idx pa e.size e.arg)).modElem tid a.seq idx fun e => { e with st := .sent }
  else s.atomReplica tid a idx e home pa

/-- An element of a peer's memory: a combining store enters the buffer, a load takes what its team's own entries hold of
its bytes, and any other is sent when its way has room. -/
def State.performRemote (s : State) (tid : Nat) (a : Acc) (idx : Nat) (e : Elem) (dev pa : Nat) : State :=
  let comb := s.combOf (s.team tid)
  let held := if a.op.isLoad then bytesHeld comb tid dev pa e.size else 0
  if e.combines a then s.combStore tid a.seq idx dev pa e.size e.arg
  else if held = e.size ∧ e.kind ≠ .unordered then
    s.modElem tid a.seq idx fun e => { e with got := forwardBytes comb tid dev pa e.size 0, st := .done }
  else if held ≠ 0 ∧ e.kind ≠ .unordered then s.drainOver tid (.remote dev pa) e.size
  else if s.mayFetch dev then s.sendElem tid a idx e dev pa
  else s

/-- What drains before an element of an access: the entries of older stores that keep it back, and, for an atomic or
`redm` on a page of any kind, those that cover its bytes (R247, R248). -/
def State.drainBefore (s : State) (tid : Nat) (a : Acc) (e : Elem) : State :=
  let lines := ((s.team tid).accs.filter fun b => decide (b.seq < a.seq)).flatMap fun b =>
    (b.elems.filter fun f => b.holds a f e).filterMap Elem.line?
  let s := lines.eraseDups.foldl (fun s p => s.drainEntry tid p.1 p.2) s
  match a.op.drains, e.tgt with
  | true, some (.hbm pa) => s.drainOver tid (.hbm pa) e.size
  | true, some (.remote d pa) => s.drainOver tid (.remote d pa) e.size
  | _, _ => s

/-- Whether an entry of the team still covers bytes of an atomic or `redm`, which drains it first. -/
def State.ownEntry (s : State) (tid : Nat) (a : Acc) (e : Elem) : Bool :=
  let held (dev pa : Nat) : Bool := bytesHeld (s.combOf (s.team tid)) tid dev pa e.size != 0
  a.op.drains && match e.tgt with
    | some (.hbm pa) => held 16 pa
    | some (.remote d pa) => held d pa
    | _ => false

/-- Performs an element that may be performed now: here, on a replicated page, or by a pod fetch to a peer (R358). -/
def State.performElem (s : State) (tid seq idx : Nat) : State :=
  match s.acc? tid seq with
  | none => s
  | some a0 =>
    if (nth .zero a0.elems idx).st ≠ .todo then s
    else
      let s := s.drainBefore tid a0 (nth .zero a0.elems idx)
      let a := (s.acc? tid seq).getD a0
      let e := nth .zero a.elems idx
      if !(s.team tid).mayPerform a idx || s.ownEntry tid a e then s
      else
        let s := if Ord.releases a.ord then s.applyAllMulti else s
        match e.tgt with
        | none => s
        | some (.remote dev pa) => s.performRemote tid a idx e dev pa
        | some (.hbm pa) =>
          if e.combines a then s.combStore tid seq idx 16 pa e.size e.arg
          else if !s.linkOpen (dieOf (s.team tid).cluster) e.slice then s
          else
            match e.kind with
            | .replicated home => s.performReplicated tid a idx e home pa
            | _ => s.performLocal tid a idx e (.hbm pa)
        | some tgt => s.performLocal tid a idx e tgt

/-! ## Results (R217) -/

/-- The lane register after one element's result. -/
def mergeElem (op : AccOp) (sub : Nat) (got : Nat) (old : Word) : Word :=
  match op with
  | .load (.zx w) => word (got % 2 ^ iwBits w)
  | .load (.sx w) => signExtend (iwBits w) got
  | .load (.whole w) => setBits old (sub * iwBits w) (iwBits w) got
  | .load (.gather w) => setBits old (sub * iwBits w) (iwBits w) got
  | _ => word got

/-- Writes an element's result into its destination: a dead lane receives nothing (R408); `cas` also writes its bit of
m5 (R160). -/
def Team.deliver (t : Team) (a : Acc) (e : Elem) : Team :=
  match a.dst with
  | .none => t
  | .scalar d => t.setS d (word e.got)
  | .lane r =>
    if t.dead.getLsbD e.lane then t
    else
      let t' := t.setV r (tabulate t.lanes fun x =>
        let old := nth 0 t.v[r] x
        if x = e.lane then mergeElem a.op e.sub e.got old else old)
      match a.op with
      | .cas _ =>
        let b : Mask := 1#1024 <<< e.lane
        t'.setMask 5 (if e.got = e.aux then t'.m[5] &&& ~~~ b else t'.m[5] ||| b)
      | _ => t'

/-- Delivers one performed element of an unescorted access. -/
def State.deliverElem (s : State) (tid seq idx : Nat) : State :=
  match s.acc? tid seq with
  | none => s
  | some a =>
    let e := nth .zero a.elems idx
    if e.st = .done ∧ a.op.returns ∧ a.dst ≠ .none then
      (s.modTeam tid fun t => t.deliver a e).modElem tid seq idx fun e => { e with st := .home }
    else s

/-! ## Forced progress -/

/-- The accesses that must be performed before or with access `seq`: it, and each older one that keeps one of them
back. -/
def Team.needed (t : Team) (seq : Nat) : List Nat :=
  (t.accs.reverse.foldl (fun (need : List Acc) b =>
    if b.seq == seq || need.any (fun a => decide (b.seq < a.seq) && a.elems.any fun e => b.blocks a e) then b :: need
    else need) []).map Acc.seq

/-- Performs what it can of one access. -/
def State.performAcc (s : State) (tid seq : Nat) : State :=
  match s.acc? tid seq with
  | none => s
  | some a => (List.range a.elems.length).foldl (fun s i => s.performElem tid seq i) s
def State.deliverAcc (s : State) (tid seq : Nat) : State :=
  match s.acc? tid seq with
  | none => s
  | some a => (List.range a.elems.length).foldl (fun s i => s.deliverElem tid seq i) s
/-- Drains the entries that an access's stores stand in. -/
def State.drainAcc (s : State) (tid seq : Nat) : State :=
  match s.acc? tid seq with
  | none => s
  | some a => (a.elems.filterMap Elem.line?).eraseDups.foldl (fun s p => s.drainEntry tid p.1 p.2) s
/-- The home, and every other die, applies the updates of an access. -/
def State.spreadAcc (s : State) (tid seq : Nat) : State :=
  match s.acc? tid seq with
  | none => s
  | some a => if a.elems.any Elem.inSeries then s.applyAllMulti else s

/-- Performs an access and what must come before it, as far as nothing is held, remote, or kept by a link. -/
def State.forceAcc (s : State) (tid seq : Nat) : State :=
  ((s.team tid).needed seq).foldl (fun s q => ((s.performAcc tid q).drainAcc tid q).spreadAcc tid q) s

/-- Performs every access of a team, its combining buffer and its multicasts included. -/
def State.forceAll (s : State) (tid : Nat) : State :=
  ((s.team tid).accs.map Acc.seq).foldl (fun s q => ((s.performAcc tid q).drainAcc tid q).spreadAcc tid q) s

/-- Performs and delivers every result that a team still awaits. -/
def State.forceResults (s : State) (tid : Nat) : State :=
  let want := ((s.team tid).accs.filter fun a => a.op.returns && a.dst != .none).map Acc.seq
  let s := want.foldl (fun s q => s.forceAcc tid q) s
  want.foldl (fun s q => s.deliverAcc tid q) s

/-- Whether everything that a fence of a scope covers has been performed: every access, or only loads and waits (R147). A
remote access counts only at pod scope (R259). -/
def Team.fenced (t : Team) (rel : Bool) (sc : Scope) : Bool :=
  t.accs.all fun a => (!rel && !a.op.returns) || a.elems.all fun e => e.performedAt sc || (e.remote && sc != .pod)
/-- Whether every result has been delivered. -/
def Team.allHome (t : Team) : Bool := t.accs.all fun a => a.finished || !a.op.returns

/-- Whether a team has nothing left to drain (R325, R330). -/
def State.drained (s : State) (tid : Nat) : Bool :=
  let t := s.team tid
  t.accs.all Acc.finished && (s.combOf t).all fun c => c.tid != tid

/-- An instruction that must wait in place: the tenure continues, the PC stays, and it has not issued (R147, R217). -/
def stall (s : State) : Out :=
  .next (s.onCur fun t => { t with tenure := match t.tenure with | .held n => .held (n - 1) | k => k })

end Sys2Proof.Machine
end

