-- ==== Sys2Proof/Machine/Escorts.lean ====
section
/-! DEFINITION. Escort frames: their size and charge (R151, R222, R223), leaving the register store and coming back
(R44, R150, R225), and the parking of an instruction that must wait (R149, R150, R425). -/
namespace Sys2Proof.Machine
open Sys2Proof

/-! ## Size and charge -/

/-- The lane words that a frame carries (R222). -/
def Team.carried (t : Team) : BitVec 32 := t.stack.foldl (fun acc x => acc ||| summary x) (summary t.exec)

/-- Bytes of a stored mask: a summary, then its nonzero lane words (R222). -/
def maskBytes (x : Mask) : Nat := 4 + 4 * popCount 32 (summary x).toNat

/-- Bytes of the team's frame under its escort set (R222). -/
def Team.frameBytes (t : Team) : Nat :=
  let masks := roundUp (sumOf maskBytes t.m.toList + sumOf maskBytes t.stack) 16
  roundUp (64 + masks + 8 * popCount 32 t.escs.toNat +
    256 * popCount 96 t.escv.toNat * popCount 32 t.carried.toNat) 16

/-- Whether a team holds registers of its core's register store. -/
def Team.resident (t : Team) : Bool :=
  match t.st with
  | .abroad | .saved _ => false
  | _ => true
/-- Bytes of its register allocation (R36). -/
def Team.regBytes (t : Team) : Nat := 256 * t.lwords * t.nregs

/-- Bytes of a core's 384 KiB that resident teams hold, or groups whose conveyance has not completed (R36, R287). -/
def State.regsInUse (s : State) (c k : Nat) : Nat :=
  sumOf (fun t => if t.cluster = c ∧ t.core = k ∧ t.resident then t.regBytes else 0) s.teams +
    sumOf (fun g : Group => if g.cluster = c then sumOf (fun x => if x.1 = k then x.2.2 else 0) g.held else 0) s.groups
/-- Whether the core can allocate a team's whole register allocation (R225). -/
def State.roomFor (s : State) (t : Team) : Bool := decide (s.regsInUse t.cluster t.core + t.regBytes ≤ 393216)

/-- Budget of the context on the core: the lesser of 256 KiB and its abroad quota (R223). -/
def State.abroadBudget (s : State) (t : Team) : Nat :=
  min 262144 (bits (s.ctxQuota t.cluster (s.group t.group).ctx (1 + t.core)) 0 16 * 1024)

/-- Bytes charged or granted to a team. -/
def Team.bytesOut (t : Team) : Nat :=
  t.granted + match t.escort with
    | some e => if e.place = .budget ∨ e.place = .saved then 0 else e.charge
    | none => 0

/-- Bytes charged or granted to other teams, on the core and of the context there. -/
def State.bytesOut (s : State) (t : Team) (ofCtx : Bool) : Nat :=
  sumOf (fun u => if u.tid ≠ t.tid ∧ u.cluster = t.cluster ∧ u.core = t.core ∧
      (ofCtx → (s.group u.group).ctx = (s.group t.group).ctx) then u.bytesOut else 0) s.teams

/-- Teams of a stage of a launch on a cluster. -/
def State.stageTeams (s : State) (c l k : Nat) : List Team :=
  s.teams.filter fun t => t.cluster == c && t.stage == k && (s.group t.group).launch == l

/-- Whether a team's stage is above its share of the abroad budget, as the last evaluation set it (R223, R231). -/
def State.aboveShare (s : State) (t : Team) : Bool :=
  let g := s.group t.group
  match (((s.launch g.launch).stage g.stage).queue t.cluster).share with
  | some (_, _, abroad) => decide (abroad < sumOf Team.bytesOut (s.stageTeams t.cluster g.launch g.stage))
  | none => false

/-- The charge that a team waits for, and the order of its issue. -/
def Team.budgetWait (t : Team) : Option (Nat × Nat) :=
  match t.st with
  | .waitBudget charge order => some (charge, order)
  | _ => none

/-- What the test of R150 step 1 decides. -/
inductive Fit where | fits | unescorted | short
deriving DecidableEq, Repr

/-- Whether the bytes in force leave room for a charge. -/
def State.bytesFree (s : State) (t : Team) (charge : Nat) : Bool :=
  decide (s.bytesOut t false + charge ≤ 262144) && decide (s.bytesOut t true + charge ≤ s.abroadBudget t)

/-- Whether another team waits for the bytes that a newly issuing team would take: bytes that free are granted oldest
issue first, stages within their share before the others (R223). A team that only its own context's quota keeps waiting
does not stand before a team of another context. -/
def State.queuedBefore (s : State) (t : Team) : Bool :=
  s.teams.any fun u => u.tid != t.tid && u.cluster == t.cluster && u.core == t.core &&
    (match u.budgetWait with
      | some (charge, _) => (s.group u.group).ctx == (s.group t.group).ctx || decide (262144 < s.bytesOut u false + charge)
      | none => false) && !(s.aboveShare u && !s.aboveShare t)

def State.escortFit (s : State) (t : Team) (charge : Nat) : Fit :=
  if s.abroadBudget t < charge then .unescorted
  else if charge ≤ t.granted ∨ (s.bytesFree t charge ∧ !s.queuedBefore t) then .fits
  else .short

/-! ## Leaving -/

/-- The next arrival number. -/
def State.tickEvent (s : State) : State := { s with events := s.events + 1 }

/-- The registers as the frame carries them. At the return every register of the escort set lives in the lane words
carried, one that was dead included, with the zero it held; every other register, and the lane words not carried, are dead
(R44). The latches never travel: none of their values is left (R35). -/
def Team.depart (t : Team) : Team :=
  let c := t.carried
  { t.dropLatches with
    fl := Vector.replicate 4 []
    fu := Vector.replicate 4 0
    v := Vector.ofFn fun r =>
      if t.escv.getLsbD r.val then tabulate t.lanes fun x => if c.getLsbD (x / 32) then nth 0 t.v[r] x else 0
      else []
    deadV := Vector.ofFn fun r => if t.escv.getLsbD r.val then ~~~ c else BitVec.allOnes 32
    s := Vector.ofFn fun r => if t.escs.getLsbD r.val then t.s[r] else 0
    deadS := ~~~ t.escs }

/-- A frame of the team in focus with its charge. -/
def Team.frame (t : Team) (what : EscWhat) (len charge slice : Nat) (place : EscPlace) (arrived : Nat) : Escort :=
  { what := what, len := len, eo := false, place := place, slice := slice, carried := t.carried, escv := t.escv,
    escs := t.escs, charge := charge, status := 0, arrived := arrived, lodgedAt := 0, liveV := 0, liveS := 0,
    recalled := false, whole := false }

/-- The same, kept in place (R151). -/
def Escort.inPlace (e : Escort) : Escort := { e with eo := true }

/-- The team in focus goes abroad: its tenure ends and its register allocation is released (R150 step 2). -/
def State.sendAbroad (s : State) (what : EscWhat) (len charge slice : Nat) (place : EscPlace) : State :=
  let s := s.endTenure.tickEvent
  s.onCur fun t =>
    { t.depart with escort := some (t.frame what len charge slice place s.events), st := .abroad, granted := 0 }

/-- The team in focus waits, resident, for bytes of the budget, and will issue again (R150 step 1, R226). -/
def State.waitBytes (s : State) (charge : Nat) : State :=
  let s := s.endTenure.tickEvent
  s.onCur fun t => { t with st := .waitBudget charge s.events }

/-- The team in focus waits in place, unescorted, with EO set (R151): every register stays live. -/
def State.waitUnescorted (s : State) (what : EscWhat) (len : Nat) : State :=
  let s := s.endTenure.tickEvent
  s.onCur fun t =>
    { t with
      fflags := t.fflags ||| flagEO,
      escort := some (Escort.inPlace (t.frame what len 0 0 .unit s.events))
      st := .waitWord
      granted := 0 }

/-! ## Coming back -/

/-- The lane words that a frame carried, noted at its return (R336). -/
def Escort.words (e : Escort) : Option (BitVec 32) := if e.whole then none else some e.carried
def Team.noteReturn (t : Team) : Team := { t with lastCarried := (t.escort.bind Escort.words).getD t.lastCarried }

/-- A frame lands in the register store: the team is resident and ready (R225). -/
def State.land (s : State) (tid : Nat) : State :=
  s.modTeam tid fun t =>
    match t.escort with
    | none => t
    | some _ =>
      { t.noteReturn with escort := none, st := .ready, readyAt := s.ck, readyPrev := false, idleSince := s.ck }

/-- Another place of a frame. -/
def State.moveFrame (s : State) (tid : Nat) (place : EscPlace) : State :=
  s.tickEvent.modTeam tid fun t =>
    { t with escort := t.escort.map fun e => { e with place := place, arrived := s.events } }

/-! ## Waiting in place with progress -/

/-- An instruction that must wait for the team's own accesses: what can be performed and delivered now is, and the
instruction is tried again (R147, R217). -/
def stallDrain (s : State) : Out :=
  stall (((s.forceAll s.cur.tid).forceResults s.cur.tid).onCur Team.retire)

/-- Everything that an escorted instruction waits for before it leaves: results at home, the combining buffer drained
(R150 step 2, R217, R248). -/
def State.readyToLeave (s : State) : State × Bool :=
  let s := (s.forceResults s.cur.tid).drainTeam s.cur.tid
  (s, s.cur.allHome && (s.combOf s.cur).all fun c => c.tid != s.cur.tid)

/-! ## Slices that carry a group's requests (R232) -/

/-- Marks the slices that carry a group's requests. -/
def State.noteSlices (s : State) (h : Nat) (es : List Elem) : State :=
  s.modGroup h fun g => { g with slices := es.foldl (fun m e =>
    match e.tgt with | some (.spad _ _) => m | none => m | _ => m ||| (1#64 <<< e.slice)) g.slices }

/-- Marks the slice of a place that a group's request goes to. -/
def State.notePlace (s : State) (h : Nat) (p : Except XFault Place) : State :=
  match p with
  | .ok pl => (match pl.tgt with
    | .hbm _ => s.modGroup h fun g => { g with slices := g.slices ||| (1#64 <<< pl.slice) }
    | _ => s)
  | .error _ => s

/-! ## Parking (R149, R150, R425) -/

/-- Where a parked frame goes: a unit of the cluster, or the carrier slice of a global word. -/
inductive ParkAt where
  | unit
  | slice (n : Nat)
  | lodge
deriving DecidableEq, Repr

/-- Parks the instruction of the team in focus. `before` is the state as it was before the instruction did anything:
a team that lacks budget waits there and issues again (R150 step 1). One that waits in place drains its combining entries as
one that leaves does (R248). -/
def parkTeam (before after : State) (what : EscWhat) (len : Nat) (at_ : ParkAt) : Out :=
  let t := before.cur
  let charge := t.frameBytes
  match before.escortFit t charge with
  | .unescorted => .next ((after.drainTeam t.tid).waitUnescorted what len)
  | .short => .next (before.waitBytes charge)
  | .fits =>
    let p := after.readyToLeave
    if !p.2 then stallDrain before
    else
      match at_ with
      | .unit => .next (p.1.sendAbroad what len charge 0 .unit)
      | .slice n => .next (p.1.sendAbroad what len charge n .request)
      | .lodge => .next (p.1.sendAbroad what len charge 0 .faultHold)

/-- The lowest of a list of addresses, for `%tinfo`. -/
def lowest (l : List Nat) : Word := word ((minOf l).getD 0)

/-- What a fence of an order and scope waits for, performed as far as it can be, and whether it has been (R147). A release
fence drains the combining buffer, and makes the team's later writes releases (R257). -/
def State.fenceTry (s : State) (rel : Bool) (sc : Scope) : State × Bool :=
  let tid := s.cur.tid
  let s := if rel then (s.forceAll tid).applyAllMulti
    else (s.cur.accs.filter fun a => a.op.returns).foldl (fun s a => s.forceAcc tid a.seq) s
  let ok := s.cur.fenced rel sc && (!rel || (s.combOf s.cur).all fun c => c.tid != tid || (c.dev != 16 && sc != .pod))
  (s.onCur fun t => { t.retire with relFence := t.relFence || rel }, ok)

/-- What an ordered access without an element does: it acts as a fence of its order and scope (R145, R256). -/
def State.emptyFence (s : State) (ord : Ord) (sc : Scope) : State × Bool :=
  match ord with
  | .plain => (s, true)
  | .acq => s.fenceTry false sc
  | _ => s.fenceTry true sc

/-! ## Instructions on words (R143, R144, R164 to R172, R425) -/

/-- The element that stands for a word in the ordering rules, and the access it belongs to. -/
def WordReq.probe (r : WordReq) : Elem :=
  { Elem.zero with va := r.addr, size := 8, kind := r.kind, tgt := r.tgt, st := .todo }
def WordReq.access (r : WordReq) (seq : Nat) : Acc :=
  ⟨seq, if r.op.reads then .load (.zx .w64) else .redm (.int .add .w64), r.ord, r.scope, none, .none, 0, false, [r.probe]⟩

/-- Whether nothing of a team keeps its word operation back: no earlier access, and no combining entry over its bytes. -/
def State.wordReady (s : State) (tid : Nat) (r : WordReq) : Bool :=
  let t := s.team tid
  !(t.accs.any fun b => b.blocks (r.access t.nextSeq) r.probe) &&
    match r.tgt with
    | some (.hbm pa) => bytesHeld (s.combOf t) tid 16 pa 8 == 0
    | _ => true

/-- Performs what must come before a word operation: everything before a release, and otherwise what keeps it back, with
the buffer's entries that hold its bytes. -/
def State.clearWord (s : State) (tid : Nat) (r : WordReq) : State :=
  let t := s.team tid
  let s := if Ord.releases r.ord then (s.forceAll tid).applyAllMulti
    else (t.accs.filter fun b => b.blocks (r.access t.nextSeq) r.probe).foldl (fun s b => s.forceAcc tid b.seq) s
  match r.tgt with
  | some (.hbm pa) => s.drainOver tid (.hbm pa) 8
  | _ => s

/-- Issues an instruction on a word of `n` bytes' alignment. The order of its checks is the model's (R174; log 74): alignment, a
full estate, translation. An operation that can write its word, which that of a pod-buffer slot is too, is translated as a
read-modify-write: the model's choice, since no rule names the kind of a slot's access (log 74). `prep` takes what the instruction takes at issue from the state (an estate entry). The results enter
only d, without a push (R42). -/
def wordIssue (k : AddrKind) (n len : Nat) (addr : Word) (ord : Ord) (sc : Scope) (dst : SDst) (fl : FFlags)
    (prep : State → Option (State × WordOp)) (s : State) : Out :=
  let t := s.cur
  let g := s.curGroup
  let raised (s : State) : State := s.onCur (Team.raise · fl)
  if addr.toNat % n ≠ 0 then trapRead fl 5 addr s
  else
    match prep s with
    | none => trapRead fl 7 addr s
    | some (s1, op) =>
      if !s1.wayOpen t.cluster g.ctx k addr.toNat then stallDrain s else
      let p := s1.place t.cluster g k addr.toNat n (if op.reads then 0 else 2)
      let req (tgt : Option Target) (kind : PageKind) : WordReq :=
        ⟨op, addr.toNat, tgt, kind, ord, if kind = .spad then Scope.inSpad sc else sc, dst, s.ck, false⟩
      match p.2 with
      | .error .access => trapRead fl 6 addr s
      | .error .replay =>
        -- the escort goes to the Lodge and the word's element to the fault buffer (R425)
        match parkTeam s (raised p.1) (.word (req none .relCons)) len .lodge with
        | .next s3 =>
          if s3.cur.escort.isSome then
            .next (s3.addFault t.cluster ⟨g.ctx, addr.toNat, if op.reads then 0 else 2, 1, t.cluster, g.handle, .word t.tid⟩)
          else .next s3
        | o => o
      | .ok pl =>
        match pl.tgt with
        | .remote _ _ => trapRead fl 6 addr s
        | tgt =>
          let r := req (some tgt) pl.kind
          let s3 := p.1.clearWord t.tid r
          if !s3.wordReady t.tid r then stallDrain s
          else
            let x := ((raised s3).noteSlices t.group [{ r.probe with slice := pl.slice }]).wordRun t.tid r
            if x.1.cur.st = .exiting then .next x.1
            else
              match x.2.1 with
              | some d => .next (x.1.onCur fun t => (t.setSDst dst d).advance len)
              | none => parkTeam s x.1 (.word x.2.2) len (match tgt with | .hbm _ => .slice pl.slice | _ => .unit)

end Sys2Proof.Machine
end

