-- ==== Sys2Proof/Machine/Groups.lean ====
section
/-! DEFINITION. Launch headers and their acceptance, record queues, and the start of groups (R38, R40, R72 to R75,
R230, R231, R235, R309 to R316, R322). -/
namespace Sys2Proof.Machine
open Sys2Proof

/-! ## A context's memory as the device's units reach it -/

/-- Where a context's address lies, for a unit other than a team (R252, R343); a remote page is refused, and a replicated
page is met at its home. -/
def State.ctxPlace (s : State) (ctx va acc : Nat) : Except XFault Place :=
  if 2 ^ 48 ≤ va ∨ va < 0x400000 then .error .access
  else
    match s.walkCtx ctx va with
    | .error x => .error x
    | .ok (e, sh) =>
      let cl := match leafKind e with | .replicated home => 32 * home | _ => 0
      match s.useLeaf cl (s.ctxWorld ctx) va acc e (2 ^ sh) with
      | .ok pl =>
        match pl.tgt, pl.kind with
        | .remote _ _, _ => .error .access
        | .hbm pa, .replicated home => .ok { pl with tgt := .hbm (s.replicaAt home pa) }
        | _, _ => .ok pl
      | .error x => .error x

/-- A write by such a unit, as a release: on a replicated page every replica takes it at once (R252, R264). -/
def State.ctxStore (s : State) (ctx : Nat) (pl : Place) (n v : Nat) : State :=
  match pl.kind, pl.tgt with
  | .replicated home, .hbm at_ =>
    let m : Multi := ⟨0, at_ - (nth 0 s.rofs.toList home).toNat, leBytes n v, ctx, 0, 0, home, none, true, 0, 0⟩
    (List.range s.part.dies).foldl (fun s d =>
      ((s.catchUp home d).applyBytes home d m).1.wakeAt (.hbm (s.replicaAt d m.pa)) n) s
  | _, tgt => s.store tgt n v

/-- The state in which such a unit reads a place to write it again: the home has its whole series. -/
def State.ctxReady (s : State) (pl : Place) : State :=
  match pl.kind with
  | .replicated home => s.catchUp home home
  | _ => s

/-- A number of at most 8 bytes of a context; the bytes beyond a page boundary are read where their page lies. -/
def State.ctxRead (s : State) (ctx va n : Nat) : Except (XFault × Nat) Nat :=
  let k := 65536 - va % 65536
  match s.ctxPlace ctx va 0 with
  | .error x => .error (x, va)
  | .ok pl =>
    if n ≤ k then .ok (s.readAt pl.tgt n)
    else
      match s.ctxPlace ctx (va + k) 0 with
      | .error x => .error (x, va + k)
      | .ok q => .ok (s.readAt pl.tgt k + 256 ^ k * s.readAt q.tgt (n - k))

/-- Reads `k` words of 8 bytes. -/
def State.ctxWords (s : State) (ctx va : Nat) : Nat → Except (XFault × Nat) (List Word)
  | 0 => .ok []
  | k + 1 =>
    match s.ctxRead ctx va 8, s.ctxWords ctx (va + 8) k with
    | .ok x, .ok l => .ok (word x :: l)
    | .error e, _ => .error e
    | _, .error e => .error e

/-! ## What the launch unit reads (R72, R309, R311) -/

/-- A stage declaration with its kernel. -/
structure Decl where
  w0 : Word
  w1 : Word
  w2 : Word
  w3 : Word
  /-- The eight words of the kernel header. -/
  kern : List Word
  /-- Patch entries with the word they name, the word before it, and the parameter word. -/
  patches : List (Word × Nat × Nat × Word)
deriving DecidableEq, Repr

def Decl.cap (d : Decl) : Nat := bits d.w0 48 16
def Decl.kaddr (d : Decl) : Nat := bits d.w0 0 48
def Decl.start (d : Decl) : Nat := bits d.w1 48 16
def Decl.qbase (d : Decl) : Nat := bits d.w1 0 48
def Decl.rlen (d : Decl) : Nat := 8 * bits d.w3 0 6
def Decl.kw (d : Decl) (i : Nat) : Word := nth 0 d.kern i
def Decl.patchN (d : Decl) : Nat := bits (d.kw 2) 32 16
def Decl.patchOff (d : Decl) : Nat := bits (d.kw 3) 0 32
def Decl.pblkBytes (d : Decl) : Nat := bits (d.kw 3) 32 32
def Decl.spadBytes (d : Decl) : Nat := bits (d.kw 2) 0 24
def Decl.codeBytes (d : Decl) : Nat := bits (d.kw 1) 32 32
def Decl.entry (d : Decl) : Nat := bits (d.kw 1) 0 32
def Decl.nteams (d : Decl) : Nat := bits (d.kw 0) 54 5
def Decl.lwords (d : Decl) : Nat := bits (d.kw 0) 48 6
def Decl.nregs (d : Decl) : Nat := bits (d.kw 0) 40 8

/-- The eight words of a launch header. -/
structure Header where
  ws : List Word
deriving DecidableEq, Repr

def Header.w (h : Header) (i : Nat) : Word := nth 0 h.ws i
def Header.nst (h : Header) : Nat := bits (h.w 0) 40 5
/-- The clusters of the set, lowest first. -/
def Header.clusters (h : Header) : List Nat :=
  ((List.range 64).filter fun c => bitAt (h.w 6) c) ++ ((List.range 64).filter fun c => bitAt (h.w 7) c).map (64 + ·)

/-- Reads a list of things, stopping at the first failure. -/
def readAll {α β : Type} (f : α → Except (XFault × Nat) β) : List α → Except (XFault × Nat) (List β)
  | [] => .ok []
  | a :: l =>
    match f a with
    | .error e => .error e
    | .ok b => match readAll f l with
      | .ok r => .ok (b :: r)
      | .error e => .error e

/-- The record of an error in HBM at a virtual address of a context (R409). -/
def State.containedVa (s : State) (cl ctx va : Nat) : State :=
  match s.ctxPlace ctx va 0 with
  | .ok pl => s.containedAt cl ctx pl.slice (some pl.tgt)
  | .error _ => s.contained (dieOf cl) ctx 0 0 0

/-- One patch entry's words: the word it names, the one before it where the entry names a tail, and the parameter word
(R74, R75, R316). A word before that the context cannot read is a fault as on the named word: the model's choice (log 97). -/
def State.readPatch (s : State) (ctx kaddr code pblk : Nat) (e : Word) : Except (XFault × Nat) (Word × Nat × Nat × Word) :=
  let n := bits e 0 24
  let off := bits e 32 16
  let code_ (k : Nat) : Except (XFault × Nat) Nat := if 4 * k < code then s.ctxRead ctx (kaddr + 64 + 4 * k) 4 else .ok 0
  let before := if n = 0 ∨ bits e 24 2 ≠ 2 ∨ code ≤ 4 * n then .ok 0 else code_ (n - 1)
  match before, code_ n, s.ctxRead ctx (pblk + off) 8 with
  | .ok b, .ok a, .ok p => .ok (e, a, b, word p)
  | .error x, _, _ => .error x
  | _, .error x, _ => .error x
  | _, _, .error x => .error x

/-- A stage declaration and all that acceptance reads through it. -/
def State.readDecl (s : State) (ctx pblk a : Nat) : Except (XFault × Nat) Decl :=
  match s.ctxWords ctx a 4 with
  | .error x => .error x
  | .ok l =>
    let d : Decl := ⟨nth 0 l 0, nth 0 l 1, nth 0 l 2, nth 0 l 3, [], []⟩
    match s.ctxWords ctx d.kaddr 8 with
    | .error x => .error x
    | .ok k =>
      let d := { d with kern := k }
      match s.ctxWords ctx (d.kaddr + d.patchOff) d.patchN with
      | .error x => .error x
      | .ok ps =>
        match readAll (s.readPatch ctx d.kaddr d.codeBytes pblk) ps with
        | .error x => .error x
        | .ok r => .ok { d with patches := r }

/-- Whether a range of a context is writable by the device: every 64 KiB page that it touches. -/
def State.writable (s : State) (ctx va n : Nat) : Except (XFault × Nat) Unit :=
  if n = 0 then .ok () else
  match readAll (fun k => (s.ctxPlace ctx (max va (k * 65536)) 1).mapError fun x => (x, max va (k * 65536)))
      ((List.range ((va + n - 1) / 65536 + 1 - va / 65536)).map (va / 65536 + ·)) with
  | .ok _ => .ok ()
  | .error x => .error x

/-- Bytes of one cluster's queue area: each record is written twice (R313). -/
def queueBytes (cap rlen : Nat) : Nat := 2 * (cap + 64) * rlen

/-- The header and every declaration, with the readability that order 1 asks for. -/
def State.readLaunch (s : State) (ctx a : Nat) : Except (XFault × Nat) (Header × List Decl) :=
  match s.ctxWords ctx a 8 with
  | .error x => .error x
  | .ok ws =>
    let h : Header := ⟨ws⟩
    match readAll (fun k => s.readDecl ctx (bits (h.w 3) 0 48) (a + 64 + 32 * k)) (List.range h.nst) with
    | .error x => .error x
    | .ok ds =>
      match readAll (fun d : Decl => s.writable ctx d.qbase (h.clusters.length * queueBytes d.cap d.rlen)) ds with
      | .ok _ => .ok (h, ds)
      | .error x => .error x

/-! ## The rules of acceptance (R316) -/

/-- Order 3. -/
def Header.ok (h : Header) (a : Nat) : Bool :=
  let w := h.w 1
  let nf := bits w 42 3
  decide (a % 64 = 0) && decide (bits (h.w 0) 0 32 = 0x4C414C5A) && decide (bits (h.w 0) 32 8 = 1) &&
    decide (bits (h.w 0) 45 19 = 0) && decide (bits w 45 19 = 0) && decide (bits (h.w 3) 48 16 = 0) &&
    decide (bits (h.w 5) 48 16 = 0) && decide (1 ≤ h.nst) && decide (h.nst ≤ 16) &&
    decide (bits (h.w 3) 0 48 % 8 = 0) && decide (bits (h.w 4) 0 48 % 64 = 0) &&
    (bits (h.w 4) 48 16 != 0 || bits (h.w 4) 0 48 == 0) && decide (bits (h.w 5) 0 48 % 8 = 0) &&
    decide (1 ≤ nf) && decide (nf ≤ 6) && decide (widWidth w 1 ≤ 10) && decide (widWidth w 2 ≤ 4) &&
    ((List.range' 1 6).all fun f => decide (f ≤ nf) || widWidth w f == 0) &&
    decide (sumOf (widWidth w) (List.range' 1 6) ≤ 64)

/-- Order 4. -/
def Decl.ok (d : Decl) (nst : Nat) : Bool :=
  decide (1 ≤ d.cap) && decide (d.kaddr % 64 = 0) && decide (d.qbase % 8 = 0) && decide (1 ≤ bits d.w2 16 16) &&
    decide (bits d.w2 16 16 ≤ d.cap) && decide (bits d.w2 10 6 = 0) && decide (1 ≤ bits d.w2 4 4) &&
    decide (bits d.w2 0 4 = 0) && decide (bits d.w3 32 32 = 0) && decide (bits d.w3 6 6 = 0) &&
    decide (1 ≤ bits d.w3 0 6) && decide (bits d.w3 0 6 ≤ 32) &&
    (List.range 4).all fun k =>
      if bitAt d.w3 (12 + k) then decide (bits d.w3 (16 + 4 * k) 4 < nst) else bits d.w3 (16 + 4 * k) 4 == 0

/-- Order 5 (R72, R73). -/
def Decl.kernOk (d : Decl) : Bool :=
  decide (bits (d.kw 0) 0 32 = 0x4B584C5A) && decide (bits (d.kw 0) 32 8 = 1) && decide (bits (d.kw 0) 63 1 = 0) &&
    decide (bits (d.kw 0) 59 3 ≤ 4) && decide (1 ≤ d.nteams) && decide (d.nteams ≤ 16) && decide (1 ≤ d.lwords) &&
    decide (d.lwords ≤ 32) && decide (d.nregs % 8 = 0) && decide (8 ≤ d.nregs) && decide (d.nregs ≤ 96) &&
    decide (d.codeBytes % 4 = 0) && decide (d.codeBytes ≠ 0) && decide (d.entry % 4 = 0) && decide (d.entry < d.codeBytes) &&
    decide (d.spadBytes % 256 = 0) && decide (d.spadBytes ≤ 3145728) && decide (bits (d.kw 2) 24 8 = 0) &&
    decide (d.patchN ≤ 4096) && decide (bits (d.kw 2) 48 16 = 0) && decide (d.patchOff % 8 = 0) &&
    decide (d.pblkBytes ≤ 65536) && ((List.range' 4 4).all fun i => d.kw i == 0) &&
    (d.patchN == 0 || decide (64 + d.codeBytes ≤ d.patchOff))

/-- Order 6: the kind of word that a patch entry names (R74). -/
def patchSiteOk (code pblkBytes : Nat) (p : Word × Nat × Nat × Word) : Bool :=
  let e := p.1
  let op := p.2.1 / 16777216
  let before := p.2.2.1 / 16777216
  decide (bits e 54 10 = 0) && decide (bits e 27 5 = 0) && decide (4 * bits e 0 24 < code) &&
    decide (bits e 32 16 + 8 ≤ pblkBytes) &&
    (match bits e 24 2 with
    | 0 => decide (0x81 ≤ op) && decide (op ≤ 0x88)
    | 1 => decide (0x89 ≤ op) && decide (op ≤ 0x90)
    -- the tail of a `ldx`, `stx` or `stf`: the marker of R62 with the head's bit 31
    | 2 => decide (before = 0x72 ∨ before = 0x73 ∨ before = 0x74) && decide (bits e 0 24 ≠ 0) && op / 2 == 0x3F
    | _ => false)
def Decl.sitesOk (d : Decl) : Bool :=
  (d.patches.all (patchSiteOk d.codeBytes d.pblkBytes)) &&
    (d.patches.map fun p => bits p.1 0 24).Nodup

/-- A patch's value and whether it fits (R75). -/
def patchValue (p : Word × Nat × Nat × Word) : Int :=
  let e := p.1
  let v := p.2.2.2
  if bitAt e 26 then (v.sshiftRight (bits e 48 6)).toInt else (v >>> bits e 48 6).toNat
def patchWidth (e : Word) : Nat := if bits e 24 2 = 0 then 11 else 18
def patchFits (p : Word × Nat × Nat × Word) : Bool :=
  let n := patchWidth p.1
  let v := patchValue p
  if bitAt p.1 26 then decide (-(2 ^ (n - 1) : Nat) ≤ v) && decide (v < (2 ^ (n - 1) : Nat))
  else decide (v < (2 ^ n : Nat))
def Decl.overlay (d : Decl) : List Patch := d.patches.map fun p =>
  ⟨d.kaddr + 64 + 4 * bits p.1 0 24, patchWidth p.1, wrap (patchWidth p.1) (patchValue p)⟩

/-! ## Placement (R322) -/

/-- Free slots and free register bytes of a context on the two cores. -/
structure Free where
  slots0 : Nat
  slots1 : Nat
  regs0 : Nat
  regs1 : Nat
deriving DecidableEq, Repr

/-- Places teams one by one: the core with a free slot and the larger free register quota, TC0 on a tie. -/
def placeTeams (bytes : Nat) : Nat → Free → Option (List Nat)
  | 0, _ => some []
  | k + 1, f =>
    let can0 : Bool := 0 < f.slots0
    let can1 : Bool := 0 < f.slots1
    let use0 : Bool := can0 && (!can1 || decide (f.regs1 ≤ f.regs0))
    if use0 then
      if bytes ≤ f.regs0 then
        (placeTeams bytes k { f with slots0 := f.slots0 - 1, regs0 := f.regs0 - bytes }).map (0 :: ·)
      else none
    else if can1 && decide (bytes ≤ f.regs1) then
      (placeTeams bytes k { f with slots1 := f.slots1 - 1, regs1 := f.regs1 - bytes }).map (1 :: ·)
    else none

/-- The quota of a context on a cluster, with nothing used. -/
def State.quotaFree (s : State) (c ctx : Nat) : Free :=
  let q0 := s.ctxQuota c ctx 1
  let q1 := s.ctxQuota c ctx 2
  ⟨bits q0 32 6, bits q1 32 6, bits q0 16 16 * 1024, bits q1 16 16 * 1024⟩

/-- Whether a team holds its slot. -/
def Team.slotted (t : Team) : Bool := match t.st with | .saved _ => false | _ => true

/-- Slots and register bytes that a context holds on a core: its teams, and what groups whose conveyance has not completed
keep (R287). -/
def State.quotaUse (s : State) (c k ctx : Nat) : Nat × Nat :=
  let mine := s.teams.filter fun t => t.cluster == c && t.core == k && t.slotted && (s.group t.group).ctx == ctx
  let kept := (s.groups.filter fun g => g.cluster == c && g.ctx == ctx).flatMap fun g => g.held.filter fun x => x.1 == k
  (mine.length + kept.length,
    sumOf (fun t => if t.resident then t.regBytes else 0) mine + sumOf (fun x : Nat × Nat × Nat => x.2.2) kept)

/-- The same less what the context's teams hold. A fenced core (R402), or one for which a frame waits in the Lodge
(R225), takes no new team. -/
def State.nowFree (s : State) (c ctx : Nat) : Free :=
  let f := s.quotaFree c ctx
  let shut (k : Nat) : Bool := ((s.cluster c).core k).fenced || s.teams.any fun t => t.cluster == c && t.core == k &&
    (match t.escort with | some e => e.place == .lodged | none => false)
  let u0 := s.quotaUse c 0 ctx
  let u1 := s.quotaUse c 1 ctx
  ⟨if shut 0 then 0 else f.slots0 - u0.1, if shut 1 then 0 else f.slots1 - u1.1, f.regs0 - u0.2, f.regs1 - u1.2⟩

/-- Scratchpad bytes below the task pool (R234). -/
def spadLimit : Nat := 0x2FC000

/-- First fit: the lowest multiple of 1,024 from which `n` bytes lie free (R235). -/
def firstFit (allocs : List Alloc) (n : Nat) : Option Nat :=
  let free (b : Nat) : Bool := decide (b + n ≤ spadLimit) &&
    allocs.all fun r => decide (b + n ≤ r.base) || decide (r.base + r.size ≤ b)
  minOf ((0 :: allocs.map fun r => roundUp (r.base + r.size) 1024).filter free)

/-- Scratchpad bytes that a context's groups hold on a cluster. -/
def State.spadUsed (s : State) (c ctx : Nat) : Nat :=
  sumOf (fun r : Alloc => if r.ctx = ctx ∧ r.owner ≠ 0 then r.size else 0) (s.cluster c).allocs

/-- Whether a context uses more of something on a cluster than its lowered quota: it starts no group there until it no longer
does (R321). -/
def State.overQuota (s : State) (c ctx : Nat) : Bool :=
  let f := s.quotaFree c ctx
  let u0 := s.quotaUse c 0 ctx
  let u1 := s.quotaUse c 1 ctx
  let out (k : Nat) : Nat := sumOf (fun t => if t.cluster = c ∧ t.core = k ∧ (s.group t.group).ctx = ctx then t.bytesOut else 0) s.teams
  decide (f.slots0 < u0.1) || decide (f.slots1 < u1.1) || decide (f.regs0 < u0.2) || decide (f.regs1 < u1.2) ||
    decide (bits (s.ctxQuota c ctx 0) 24 12 * 1024 < s.spadUsed c ctx) ||
    decide (bits (s.ctxQuota c ctx 0) 15 9 < ((s.cluster c).tasks.filter fun k => k.ctx == ctx).length) ||
    decide (bits (s.ctxQuota c ctx 1) 0 16 * 1024 < out 0) || decide (bits (s.ctxQuota c ctx 2) 0 16 * 1024 < out 1)

/-- Bytes of the record of a team (R336). -/
def recordSize (lwords nregs : Nat) : Nat := 4112 + 256 * lwords * (nregs + 4)

/-- Order 9: a group of the stage fits an empty quota on some cluster of the set, and its teams' records fit the
context's record size (R335). -/
def State.declFits (s : State) (ctx : Nat) (cs : List Nat) (d : Decl) : Bool :=
  decide (recordSize d.lwords d.nregs ≤ 4096 * bits (s.descWord ctx 2) 48 8) && cs.any fun c =>
    (placeTeams (256 * d.lwords * d.nregs) d.nteams (s.quotaFree c ctx)).isSome &&
      decide (roundUp d.spadBytes 1024 ≤ bits (s.ctxQuota c ctx 0) 24 12 * 1024)

/-- The status of the first rule that a header breaks; 0 when it breaks none. -/
def State.verdict (s : State) (ctx a : Nat) (h : Header) (ds : List Decl) : Nat :=
  if !s.ctxActive ctx then 0x0A
  else if !h.ok a then 0x01
  else if !ds.all (Decl.ok · h.nst) then 0x02
  else if !ds.all Decl.kernOk then 0x03
  else if !ds.all Decl.sitesOk then 0x04
  else if !ds.all (fun d => d.patches.all patchFits) then 0x05
  else if h.clusters.isEmpty || h.clusters.any fun c => decide (s.part.clusters ≤ c) || (s.quotaRow c ctx).isNone then 0x07
  else if !ds.all (s.declFits ctx h.clusters) then 0x06
  else if 4096 ≤ s.launches.length then 0x09
  else 0

/-- What the kernel header gives a stage. -/
def Decl.kernel (d : Decl) : Kernel :=
  { code := d.kaddr + 64, codeBytes := d.codeBytes, entry := d.entry, pblkBytes := d.pblkBytes,
    spadBytes := d.spadBytes, teams := d.nteams, lwords := d.lwords, nregs := d.nregs, frm := bits (d.kw 0) 59 3,
    mbound := bitAt (d.kw 0) 62, patches := d.overlay }

/-- The stage of a declaration, with an empty queue on each cluster. Start index i goes to cluster i mod n (R315). -/
def Decl.stage (d : Decl) (cs : List Nat) : Stage :=
  { cap := d.cap, qbase := d.qbase, tmo := bits d.w2 32 32, kc := bits d.w2 16 16, pcls := bits d.w2 8 2,
    wgt := bits d.w2 4 4,
    next := (tabulate 4 fun k => if bitAt d.w3 (12 + k) then some (bits d.w3 (16 + 4 * k) 4) else none),
    rlen := d.rlen,
    kernel := d.kernel,
    queues := tabulate cs.length fun p =>
      { StageQueue.empty (nth 0 cs p) with
        starts := (List.range d.start).filter fun i => i % cs.length == p } }

/-- A 32-bit name that is new: which one is left open, so it is a free value. -/
def freshName (seed : Nat) (used : Nat → Bool) : Nat :=
  let n := (Config.freeValue seed 32).toNat
  if n = 0 ∨ n = 0xFFFFFFFF ∨ used n then
    ((List.range 1000000).find? fun k => !used (k + 1)).getD 0 + 1
  else n

/-- Examines a header and, if nothing is wrong, makes the launch: its state and the result word of R113. A fault
is left to the caller, with its address. -/
def State.accept (s : State) (ctx a : Nat) : Except (XFault × Nat) (State × Word) :=
  match s.readLaunch ctx a with
  | .error x => .error x
  | .ok (h, ds) =>
    let st := s.verdict ctx a h ds
    if st ≠ 0 then .ok (s, word (st * 4294967296))
    else
      let n := freshName s.freeCtr fun k => s.launches.any fun l => l.handle == k
      let cs := h.clusters
      let l : Launch :=
        { handle := n, ctx := ctx, widw := word (bits (h.w 1) 0 45), seed := h.w 2, pblk := bits (h.w 3) 0 48,
          supq := bits (h.w 4) 0 48, supn := bits (h.w 4) 48 16, cword := bits (h.w 5) 0 48, clusters := cs,
          stages := ds.map (Decl.stage · cs), ending := false, cancelled := false, kills := 0, groups := 0,
          cwordHeld := false }
      .ok ({ s.drawFree with launches := s.launches ++ [l] }, word n)

/-! ## Starting a group (R35, R38, R40, R235, R315) -/

/-- Where a queue's physical slot lies (R313). -/
def Launch.slotAddr (l : Launch) (g : Stage) (c q : Nat) : Nat :=
  g.qbase + l.clusters.idxOf c * queueBytes g.cap g.rlen + q * g.rlen

/-- A free slot number of a core, the lowest. -/
def State.freeSlot (s : State) (c k : Nat) : Nat :=
  ((List.range 32).find? fun n => !(s.teams.any fun t => t.cluster == c && t.core == k && t.slotted && t.slot == n) &&
    !(s.groups.any fun g => g.cluster == c && g.held.any fun x => x.1 == k && x.2.1 == n)).getD 0

/-- The patches of a launch, those of the stage's own kernel first: they overlay every fetch of its teams (R75). -/
def Launch.patches (l : Launch) (k : Kernel) : List Patch := k.patches ++ l.stages.flatMap fun g => g.kernel.patches

/-- A new team of a group. -/
def newTeam (tid : Nat) (l : Launch) (g : Group) (k : Kernel) (idx core slot batch n ck : Nat) : Team :=
  let pc := word (k.code + k.entry)
  { Team.empty with
    tid := tid, group := g.handle, index := idx, cluster := g.cluster, core := core, slot := slot,
    lwords := k.lwords, nregs := k.nregs, pc := pc,
    s := ((((Vector.replicate 32 0).set 0 (word l.pblk)).set 1 (word batch)).set 2 (word g.spadBase)).set 3 (word n),
    m := (Vector.replicate 8 0).set 0 (BitVec.ofNat 1024 (2 ^ (32 * k.lwords) - 1)),
    frm := BitVec.ofNat 3 k.frm, rpc := pc, widw := l.widw, stage := g.stage,
    workBase := g.base, seed := l.seed, patches := l.patches k, readyAt := ck, idleSince := ck }

/-- Adds the teams of a group on the cores that placement gave. -/
def State.addTeams (s : State) (l : Launch) (g : Group) (k : Kernel) (batch n : Nat) : Nat → List Nat → State
  | _, [] => s
  | idx, core :: rest =>
    let t := newTeam s.nextTid l g k idx core (s.freeSlot g.cluster core) batch n s.ck
    let s' := { s with others := s.others ++ [t], nextTid := s.nextTid + 1 }
    s'.addTeams l g k batch n (idx + 1) rest

/-- What a new group is bound to: a start index, records, or bereavement records with a reserved handle. -/
inductive Bind where
  | start (idx : Nat)
  | recs (seq n : Nat)
  | heir (b : Bereave)
deriving DecidableEq, Repr

/-- Starts a group of a stage on a cluster if its demand fits there now. -/
def State.startGroup (s : State) (lh k c : Nat) (b : Bind) : Option State :=
  let l := s.launch lh
  let g := l.stage k
  let kn := g.kernel
  let size := roundUp kn.spadBytes 1024
  match placeTeams (256 * kn.lwords * kn.nregs) kn.teams (s.nowFree c l.ctx), firstFit (s.cluster c).allocs size with
  | some cores, some base =>
    if s.overQuota c l.ctx ∨ bits (s.ctxQuota c l.ctx 0) 24 12 * 1024 < s.spadUsed c l.ctx + size then none
    else
      let used (h : Nat) : Bool := s.groups.any (fun x => x.handle == h || x.tests.any fun t => t.handle == h) ||
        s.launches.any fun x => x.stages.any fun y => y.queues.any fun z => z.bereaved.any fun r => r.handle == h
      let h := match b with | .heir r => r.handle | _ => freshName s.freeCtr used
      let seq := match b with | .start _ => 0 | .recs q _ => q | .heir r => r.seq
      let n := match b with | .start _ => 0 | .recs _ n => n | .heir r => r.holdings.length
      let workBase : Word := match b with
        | .start i => word i
        | _ => word (c * 2 ^ 40 + seq)
      let batch := if n = 0 then 0 else l.slotAddr g c (seq % (g.cap + 64))
      let grp : Group := { Group.empty with
        handle := h, launch := lh, ctx := l.ctx, cluster := c, stage := k, base := workBase, spadBase := base,
        spadBytes := kn.spadBytes, recSeq := seq, recCount := n, mbound := kn.mbound, window := s.ck,
        estate := match b with
          | .heir r => (List.range r.holdings.length).map fun i =>
              let e := nth ⟨0, 0, 0, 0, 0, .team, 0, 0, false, false⟩ r.holdings i
              { e with num := i, order := i, heir := word (2 * 2 ^ 62), conveyed := true }
          | _ => [],
        orderCtr := match b with | .heir r => r.holdings.length | _ => 0 }
      let s := s.drawFree
      let s := if size = 0 then s
        else s.modCluster c fun x => { x with allocs := ⟨base, size, h, l.ctx, false⟩ :: x.allocs }
      let s := { s with groups := s.groups ++ [grp] }
      let s := s.modQueue lh k c fun q => match b with
        | .start i => { q with starts := q.starts.erase i }
        | .recs _ n => { q with recs := (List.range q.recs.length).map fun i =>
            let r := nth ⟨0, true, 0, 0⟩ q.recs i
            if !r.bound && decide (((q.recs.take i).filter fun x => !x.bound).length < n) then { r with bound := true, group := h }
            else r }
        | .heir r => { q with bereaved := q.bereaved.filter fun x => x.handle != r.handle }
      some (s.addTeams l grp kn batch n 0 cores)
  | _, _ => none

/-! ## Stage pressure (R230, R231) -/

/-- Records of a queue that are not bound. -/
def StageQueue.unbound (q : StageQueue) : List QRec := q.recs.filter fun r => !r.bound
/-- floor(256 R / C); each pending start counts as an unbound record (R315). -/
def Stage.occ (g : Stage) (c : Nat) : Nat :=
  256 * ((g.queue c).unbound.length + (g.queue c).starts.length) / max g.cap 1
/-- (occ - bp) × W. -/
def Launch.pressure (l : Launch) (k c : Nat) : Int :=
  let g := l.stage k
  let bp := (g.next.filterMap id).foldl (fun m j => max m ((l.stage j).occ c)) 0
  ((g.occ c : Int) - bp) * g.wgt

/-- Whether the coalescing condition of a stage holds on a cluster (R314, R315). -/
def State.coalesced (s : State) (g : Stage) (c : Nat) : Bool :=
  let q := g.queue c
  !q.starts.isEmpty || decide (g.kc ≤ q.unbound.length) ||
    (g.tmo != 0 && (match q.unbound with | r :: _ => decide (r.at_ + g.tmo ≤ s.ck) | [] => false))

/-- Stages of a context with records, starts or groups on a cluster: launch handle and stage. -/
def State.liveStages (s : State) (c ctx : Nat) : List (Nat × Nat) :=
  (s.launches.filter fun l => l.ctx == ctx).flatMap fun l =>
    ((List.range l.stages.length).filter fun k =>
      let q := (l.stage k).queue c
      !q.recs.isEmpty || !q.starts.isEmpty || s.groups.any fun g => g.launch == l.handle && g.stage == k && g.cluster == c).map
      fun k => (l.handle, k)

/-- A stage's share of an amount: proportional to max(pressure, 1), and at least `least` where its condition holds
(R231). A fraction is rounded down, which is the model's choice (log 95). -/
def State.share (s : State) (c ctx lh k amount least : Nat) : Nat :=
  let weight (p : Nat × Nat) : Nat := max ((s.launch p.1).pressure p.2 c).toNat 1
  let total := sumOf weight (s.liveStages c ctx)
  let part := amount * weight (lh, k) / max total 1
  if s.coalesced ((s.launch lh).stage k) c then max part least else part

/-- A stage's shares of the context's slots, register bytes and abroad budget on a cluster. -/
def State.shares (s : State) (c ctx lh k : Nat) : Nat × Nat × Nat :=
  let f := s.quotaFree c ctx
  let kn := ((s.launch lh).stage k).kernel
  let abroad := (bits (s.ctxQuota c ctx 1) 0 16 + bits (s.ctxQuota c ctx 2) 0 16) * 1024
  (s.share c ctx lh k (f.slots0 + f.slots1) kn.teams, s.share c ctx lh k (f.regs0 + f.regs1) (kn.teams * 256 * kn.lwords * kn.nregs),
    s.share c ctx lh k abroad 0)

/-- An evaluation divides each context's quota anew among its stages on the cluster; the shares stand until the next. -/
def State.divide (s : State) (c : Nat) : State :=
  s.launches.foldl (fun t l => (List.range l.stages.length).foldl (fun t k =>
    let live : Bool := (s.liveStages c l.ctx).any fun p => p == (l.handle, k)
    let x := if live then some (s.shares c l.ctx l.handle k) else none
    t.modQueue l.handle k c fun q => { q with share := x }) t) s

/-- Slots and register bytes of a stage on a cluster: its teams', and what its groups keep whose conveyance has not
completed (R287). A team abroad holds no registers. -/
def State.stageUse (s : State) (c lh k : Nat) : Nat × Nat :=
  let mine := (s.stageTeams c lh k).filter Team.slotted
  let kept := (s.groups.filter fun g => g.cluster == c && g.launch == lh && g.stage == k).flatMap Group.held
  (mine.length + kept.length,
    sumOf (fun t : Team => if t.resident then t.regBytes else 0) mine + sumOf (fun x : Nat × Nat × Nat => x.2.2) kept)
/-- Whether a stage stands below its shares of slots and registers. -/
def State.belowShare (s : State) (c lh k : Nat) : Bool :=
  match (((s.launch lh).stage k).queue c).share with
  | some (slots, regs, _) => decide ((s.stageUse c lh k).1 < slots) && decide ((s.stageUse c lh k).2 < regs)
  | none => true

/-- The stages that an evaluation may launch from, best first is chosen by pressure, ties to the lower stage. -/
def State.candidates (s : State) (c : Nat) : List (Nat × Nat) :=
  s.launches.flatMap fun l =>
    ((List.range l.stages.length).filter fun k =>
      l.clusters.contains c && s.coalesced (l.stage k) c && !l.ending && s.belowShare c l.handle k).map fun k => (l.handle, k)

/-- What a launch of a stage would be bound to. -/
def StageQueue.bind (q : StageQueue) : Bind :=
  match q.starts with
  | i :: _ => .start i
  | [] => .recs ((q.unbound.headD ⟨0, false, 0, 0⟩).seq) (min q.unbound.length 65535)

/-- Tries candidates in order of pressure until one starts. Stages of equal number in different launches, of equal pressure, go
in the order of their launches: the model's choice (log 75), since R230 ties by stage number alone. -/
def State.launchBest (s : State) (c : Nat) : Nat → List (Nat × Nat) → Option State
  | 0, _ => none
  | n + 1, cands =>
    match maxBy (fun p : Nat × Nat => ((s.launch p.1).pressure p.2 c * 65536) - (p.2 : Int)) cands with
    | none => none
    | some p =>
      match s.startGroup p.1 p.2 c (((s.launch p.1).stage p.2).queue c).bind with
      | some s' => some s'
      | none => s.launchBest c n (cands.filter fun q => q != p)

/-- Groups that start on bereavement records come first (R291). -/
def State.launchHeir (s : State) (c : Nat) : Option State :=
  (s.launches.flatMap fun l =>
    (List.range l.stages.length).flatMap fun k =>
      (((l.stage k).queue c).bereaved.map fun b => (l.handle, k, b))).findSome? fun p =>
    s.startGroup p.1 p.2.1 c (.heir p.2.2)

/-- One evaluation of a cluster: at most one group starts. -/
def State.evaluate (s : State) (c : Nat) : State :=
  let s := s.divide c
  match s.launchHeir c with
  | some s' => s'
  | none => (s.launchBest c (s.candidates c).length (s.candidates c)).getD s

/-! ## Appending records (R313) -/

/-- Where the aligned 8-byte units of `n` bytes from `va` begin. -/
def unitStarts (va n : Nat) : List Nat := (List.range n).filter fun i => i = 0 ∨ (va + i) % 8 = 0

/-- The first failure of a write of bytes of a context. -/
def State.ctxFault (s : State) (ctx va n : Nat) : Option (XFault × Nat) :=
  (unitStarts va n).findSome? fun i => match s.ctxPlace ctx (va + i) 1 with | .error x => some (x, va + i) | .ok _ => none

/-- Writes bytes of a context, each unit at its own translated place. -/
def State.ctxPut (s : State) (ctx va : Nat) (l : List Byte) : State :=
  (unitStarts va l.length).foldl (fun s i =>
    match s.ctxPlace ctx (va + i) 1 with
    | .ok pl =>
      let n := min (8 - (va + i) % 8) (l.length - i)
      s.ctxStore ctx pl n (leNat ((l.drop i).take n))
    | .error _ => s) s

/-- Writes bytes of a context, or nothing where one of them may not be written. -/
def State.ctxWrite (s : State) (ctx va : Nat) (l : List Byte) : Except (XFault × Nat) State :=
  match s.ctxFault ctx va l.length with
  | some x => .error x
  | none => .ok (s.ctxPut ctx va l)

/-- A record of a queue: zero-filled or cut to the stage's length, written twice, or not at all. A slot that refuses it is
named by its own address. -/
def State.writeRecord (s : State) (l : Launch) (g : Stage) (c seq : Nat) (bytes : List Byte) : Except (XFault × Nat) State :=
  let q := seq % (g.cap + 64)
  let b := (bytes ++ List.replicate g.rlen 0).take g.rlen
  let slots := [l.slotAddr g c q, l.slotAddr g c (q + g.cap + 64)]
  match slots.findSome? fun a => (s.ctxFault l.ctx a b.length).map fun x => (x.1, if x.1 = .access then a else x.2) with
  | some x => .error x
  | none => .ok (slots.foldl (fun s a => s.ctxPut l.ctx a b) s)

/-- Slots of a queue that conveyances have reserved and not filled yet (R288). -/
def State.reservedRoom (s : State) (lh k c : Nat) : Nat :=
  sumOf (fun g : Group => if g.launch = lh ∧ g.cluster = c then
    sumOf (fun t : StageTest => if t.stage = k ∧ t.passed then t.room else 0) g.tests else 0) s.groups

/-- Whether the next `n` logical slots of a queue can be taken: free, and within the capacity and the reserve (R313). -/
def StageQueue.hasRoom (q : StageQueue) (g : Stage) (n : Nat) : Bool :=
  decide (q.recs.length + n ≤ g.cap + 64) &&
    (List.range n).all fun i => q.recs.all fun r => r.seq % (g.cap + 64) != (q.nextSeq + i) % (g.cap + 64)

/-- Whether an emitted record can take the next slot of a queue: fewer than C are occupied, and what conveyances have
reserved stays free behind it. -/
def StageQueue.slotFree (q : StageQueue) (g : Stage) (reserved : Nat) : Bool :=
  decide (q.recs.length < g.cap) && q.hasRoom g (reserved + 1)

/-- Appends a record to a successor's queue; one that is bound from its append names its group's handle. -/
def State.appendRecord (s : State) (lh k c : Nat) (bytes : List Byte) (owner : Option Nat) : Except (XFault × Nat) State :=
  let l := s.launch lh
  let g := l.stage k
  let q := g.queue c
  match s.writeRecord l g c q.nextSeq bytes with
  | .error x => .error x
  | .ok s => .ok (s.modQueue lh k c fun q => { q with
      recs := q.recs ++ [⟨q.nextSeq, owner.isSome, owner.getD 0, s.ck⟩], nextSeq := q.nextSeq + 1 })

end Sys2Proof.Machine
end

