-- ==== Sys2Proof/Machine/Estates.lean ====
section
/-! DEFINITION. Conveyance of a group's estate to its heirs (R171, R177, R178, R283 to R293). -/
namespace Sys2Proof.Machine
open Sys2Proof

/-! ## Heirs and records -/

/-- The kind of a heir operand (R171): 0 group, 1 stage, 2 supervisor queue, 3 none. -/
def heirKind (h : Word) : Nat := bits h 62 2

/-- The cluster-bound kinds: scratchpad region, task queue, copy channel, planting. -/
def clusterBound (kind : Nat) : Bool := decide (2 ≤ kind) && decide (kind ≤ 5)

/-- The four words of an estate record (R284). -/
def estateRec (fromG type why reason : Nat) (e : Holding) : List Word :=
  let sc := match e.scope with | .team => 0 | .group => 1 | .die => 2 | .dev => 3 | .pod => 4
  [word (fromG * 4294967296 + type * 1073741824 + why * 268435456 + reason * 8388608 + sc * 1048576 +
      e.kind % 16 * 65536 + e.order % 65536), e.heir, e.obj, e.aux]

/-- Where a holding goes. -/
inductive HeirTo where
  | group (h : Nat)
  | stage (k handle : Nat)
  | supervisor
  /-- With the `why` code of its fault record, or `none` where no record is placed (R292). -/
  | none (why : Option Nat)
deriving DecidableEq, Repr

/-- The test of a group heir (R288). -/
def State.groupHeir (s : State) (dead : Group) (e : Holding) (h : Nat) : HeirTo :=
  match s.group? h with
  | .none => .none (some 0)
  | some g =>
    -- a killed group counts as dead from its kill on (R285)
    if g.st ≠ .alive then .none (some 0)
    else if g.ctx ≠ dead.ctx ∨ (clusterBound e.kind ∧ g.cluster ≠ dead.cluster) then .none (some 2)
    else if !s.estateRoom h then .none (some 1)
    else .group h

/-- The heir of an entry at the moment of its write (R288, R292, R400). -/
def State.heirOf (s : State) (dead : Group) (ctxDead : Bool) (e : Holding) : HeirTo :=
  if heirKind e.heir = 3 then .none .none
  else if ctxDead then .none (some 3)
  else if s.poisoned (.estate dead.handle e.num) then .none (some 0)
  else
    match heirKind e.heir with
    | 0 => s.groupHeir dead e (bits e.heir 0 32)
    | 1 =>
      match dead.tests.find? fun t => t.stage == bits e.heir 0 4 with
      | some t => if t.passed then .stage t.stage t.handle else .none (some t.why)
      | .none => .none (some 0)
    | _ => if (s.launch dead.launch).supn ≠ 0 then .supervisor else .none (some 0)

/-- What the device OS or a debugger reads of a live entry: the layout of an estate record, with `type`, `why` and `reason`
zero (R283). -/
def State.estateEntry (s : State) (h num : Nat) : Option (List Word) :=
  ((s.group h).estate.find? fun e => e.num == num && !e.reserved).map (estateRec h 0 0 0)

/-- Whether a context is dying: its descriptor is ending or dead (R292, R333). -/
def State.ctxDying (s : State) (ctx : Nat) : Bool := decide (2 ≤ s.ctxState ctx)

/-! ## Beginning -/

/-- The test of one stage over the entries that name it; it reserves the room, and the handle (R288, R291, R313). -/
def State.stageTest (s : State) (g : Group) (n k : Nat) : StageTest :=
  let l := s.launch g.launch
  let st := l.stage k
  let q := st.queue g.cluster
  let used (h : Nat) : Bool := s.groups.any (fun x => x.handle == h || x.tests.any fun t => t.handle == h) ||
    s.launches.any fun x => x.stages.any fun y => y.queues.any fun z => z.bereaved.any fun r => r.handle == h
  let h := freshName s.freeCtr used
  if l.stages.length ≤ k ∨ l.ending then ⟨k, false, 0, 0, 0, [], false⟩
  else if st.rlen < 32 ∨ !q.hasRoom st (s.reservedRoom g.launch k g.cluster + n) then ⟨k, false, 1, 0, 0, [], false⟩
  else ⟨k, true, 0, h, n, [], false⟩

/-- Conveyance begins: the group counts as dead; entries that were only reserved are released; each stage heir is
tested once. -/
def State.beginConveyance (s : State) (h reason : Nat) (ctxDead : Bool) : State :=
  let s := s.applyAllMulti.modGroup h fun g =>
    { g with st := .conveying reason ctxDead, estate := g.estate.filter fun e => !e.reserved }
  let g := s.group h
  let named := (g.estate.filter fun e => heirKind e.heir == 1).map fun e => bits e.heir 0 4
  named.eraseDups.foldl (fun s k =>
    let t := s.stageTest (s.group h) (named.filter (· == k)).length k
    s.drawFree.modGroup h fun g => { g with tests := g.tests ++ [t] }) s

/-! ## One entry -/

/-- The next entry: locks, then held objects, then promises; in each phase the highest order number first (R286). -/
def nextEntry (estate : List Holding) : Option Holding :=
  let pick (p : Holding → Bool) : Option Holding := maxBy (fun e => (e.order : Int)) (estate.filter p)
  match pick (fun e => e.kind == 0) with
  | some e => some e
  | .none => match pick (fun e => decide (2 ≤ e.kind)) with
    | some e => some e
    | .none => pick fun e => e.kind == 1

/-- A group heir, or the group that a stage will start, gains the entry (R288, R291). -/
def State.gainEntry (s : State) (h : Nat) (e : Holding) : State :=
  let n := freshEntry (s.group h).estate s.freeCtr
  s.drawFree.modGroup h fun g => { g with
    estate := g.estate ++ [{ e with num := n, heir := word (2 * 2 ^ 62), order := g.orderCtr, reserved := false, conveyed := true }]
    orderCtr := (g.orderCtr + 1) % 4294967296 }

/-- The records and entries of an outcome, and the entry leaves the dead group's estate. -/
def State.handOver (s : State) (dead : Group) (reason : Nat) (e : Holding) (to_ : HeirTo) : State :=
  let s := if s.poisoned (.estate dead.handle e.num) then
      (s.clearPoison (.estate dead.handle e.num)).contained (dieOf dead.cluster) dead.ctx 8 dead.cluster 0 else s
  let s := s.freeEntry dead.handle e.num
  match to_ with
  | .group h => s.gainEntry h e
  | .stage k _ => s.modGroup dead.handle fun g => { g with
      tests := updWhere (fun t => t.stage == k) (fun t => { t with holdings := t.holdings ++ [e] }) g.tests }
  | .supervisor => { s with supRecs := s.supRecs ++
      [⟨some ((s.launch dead.launch).supq, (s.launch dead.launch).supn), dead.ctx, [estateRec dead.handle 1 0 reason e], dead.cluster, true, .none⟩] }
  | .none (some why) => { s with supRecs := s.supRecs ++
      [⟨.none, dead.ctx, [estateRec dead.handle 2 why reason e], dead.cluster, true, .none⟩] }
  | .none .none => s

/-- A lock word as conveyance writes it (R289). -/
def conveyLock (w : Word) (to_ : HeirTo) : Word :=
  let give (h : Nat) : Word := word (2 ^ 63 + h * 2 ^ 24 + bits w 0 24)
  match to_ with
  | .group h => give h
  | .stage _ h => give h
  | .supervisor => give 0xFFFFFFFF
  | .none _ => word (2 ^ 62 + bits w 0 24)

/-- A promise word as conveyance writes it (R290). -/
def conveyPromise (w : Word) (reason : Nat) (v : Word) (to_ : HeirTo) : Word :=
  let w := setBits (setBits w 56 5 reason) 0 56 (bits v 0 56)
  match to_ with
  | .none _ => setBits (setBits w 63 1 1) 61 1 1
  | _ => setBits w 62 1 1

/-- Who a held object stays with: a group, or 0 for the device OS; `none` when heirless. -/
def HeirTo.owner : HeirTo → Option Nat
  | .group h => some h
  | .stage _ h => some h
  | .supervisor => some 0
  | .none _ => .none

/-- A bank of an engine, by its number in a `hold .plant`: engine × 2 + bank. -/
def Engine.setBank (e : Engine) (b : Nat) (k : Bank) : Engine := if b = 0 then { e with bank0 := k } else { e with bank1 := k }

/-- What happens to a held object (R290). -/
def State.conveyObject (s : State) (dead : Group) (e : Holding) (to_ : HeirTo) : State :=
  let n := e.obj.toNat
  match e.kind with
  | 2 =>
    match to_.owner with
    | some h => s.modCluster dead.cluster fun c => { c with allocs := ⟨n, e.aux.toNat, h, dead.ctx, false⟩ :: c.allocs }
    | .none => s
  | 3 =>
    let mine (t : Task) : Bool := t.tid == e.owner && bits (nth 0 t.words 0) 2 2 == n
    (s.modCluster dead.cluster fun c => { c with
      tasks := if to_.owner.isSome then updWhere mine (fun t => { t with kept := true }) c.tasks
        else c.tasks.filter fun t => !mine t }).dropGone
  | 4 =>
    let mine (k : Copy) : Bool := k.group == e.owner && k.ch.val == n
    (s.modCluster dead.cluster fun c => { c with
      copies := if to_.owner.isSome then updWhere mine (fun k => { k with kept := true }) c.copies
        else c.copies.filter fun k => !mine k }).dropGone
  | 5 =>
    if to_.owner.isSome then s
    else s.modCluster dead.cluster fun c => c.modEngine (n / 2) fun x => x.setBank (n % 2) .zero
  | 6 =>
    -- the reservation stays with the context while a group of it holds the buffer
    match to_.owner with
    | some (_ + 1) => s
    | _ => { s with
        sett := Vector.ofFn fun i => if i.val = n then { s.sett[i] with released := true } else s.sett[i]
        osObjects := s.osObjects ++ [(dead.ctx, 6, n)] }
  | 7 => if to_.owner.isSome then s else { s with osObjects := s.osObjects ++ [(dead.ctx, 7, n)] }
  | _ => s

/-- Conveys one entry of a group (R286 to R290). A word that takes a translation fault makes the agent wait. -/
def State.conveyEntry (s : State) (h : Nat) : State :=
  let dead := s.group h
  match dead.st, nextEntry dead.estate with
  | .conveying reason ctxDead, some e =>
    -- a context that dies during the conveyance counts from then on
    let to_ := s.heirOf dead (ctxDead || s.ctxDying dead.ctx) e
    if e.kind = 0 ∨ e.kind = 1 then
      match s.ctxPlace dead.ctx e.obj.toNat 2 with
      | .error .replay =>
        s.addFault dead.cluster ⟨dead.ctx, e.obj.toNat, 2, 6, dead.cluster, h, .convey h⟩
      | .error .access =>
        (s.freeEntry h e.num).queueRec dead.ctx dead.cluster [eventRec 8 0 0 h e.obj 0 (word e.kind)]
      | .ok pl =>
        let s := s.ctxReady pl
        let w := word (s.readAt pl.tgt 8)
        if (e.kind = 0 ∧ lockHolder w ≠ h) ∨ (e.kind = 1 ∧ bitAt w 63) then s.freeEntry h e.num
        else
          let v := if e.kind = 0 then conveyLock w to_ else conveyPromise w reason e.aux to_
          (s.handOver dead reason e to_).ctxStore dead.ctx pl 8 v.toNat
    else (s.conveyObject dead e to_).handOver dead reason e to_
  | _, _ => s

/-! ## Completion -/

/-- The record of a holding that a refused append leaves heirless. -/
def State.refusedRecord (s : State) (h : Nat) (reason : Nat) (e : Holding) : State :=
  { s with supRecs := s.supRecs ++
    [⟨.none, (s.group h).ctx, [estateRec h 2 1 reason e], (s.group h).cluster, true, .none⟩] }

/-- A holding that a refused append leaves heirless after it had been given to the stage's group `to_`: the word or the
object takes the heirless effect of its table, as though it had never gone to the stage (R289, R290, R292, R313). Its word
may meet a translation fault, which is the error, or a fault that leaves it without a write (R286). -/
def State.heirlessAfter (s : State) (dead : Group) (reason to_ : Nat) (e : Holding) : Except Nat State :=
  if e.kind = 0 ∨ e.kind = 1 then
    match s.ctxPlace dead.ctx e.obj.toNat 2 with
    | .error .replay => .error e.obj.toNat
    | .error .access => .ok (s.queueRec dead.ctx dead.cluster [eventRec 8 0 0 dead.handle e.obj 0 (word e.kind)])
    | .ok pl =>
      let s := s.ctxReady pl
      let w := word (s.readAt pl.tgt 8)
      if (e.kind = 0 ∧ lockHolder w ≠ to_) ∨ (e.kind = 1 ∧ bitAt w 63) then .ok s
      else .ok ((s.ctxStore dead.ctx pl 8 (if e.kind = 0 then conveyLock w (.none none)
        else setBits (conveyPromise w reason e.aux (.none none)) 62 1 0).toNat).refusedRecord dead.handle reason e)
  else if e.kind = 2 then .ok ((s.modCluster dead.cluster fun c => { c with
    allocs := updWhere (fun r => r.owner == to_ && r.base == e.obj.toNat) (fun r => { r with owner := 0, clearing := true }) c.allocs }).refusedRecord
      dead.handle reason e)
  else .ok ((s.conveyObject dead e (.none none)).refusedRecord dead.handle reason e)

/-- Appends the bereavement records of a stage test and binds the group that will start on them (R291, R313); or the fault
that a slot meets. -/
def State.appendBereaved (s : State) (h : Nat) (reason : Nat) (t : StageTest) : Except (XFault × Nat) State :=
  let dead := s.group h
  if t.holdings.isEmpty then .ok s
  else
    let seq := (((s.launch dead.launch).stage t.stage).queue dead.cluster).nextSeq
    let step (acc : Except (XFault × Nat) State) (e : Holding) : Except (XFault × Nat) State :=
      match acc with
      | .error x => .error x
      | .ok s => s.appendRecord dead.launch t.stage dead.cluster
          ((estateRec h 0 0 reason e).flatMap fun w => leBytes 8 w.toNat) (some t.handle)
    match t.holdings.foldl step (.ok s) with
    | .ok s' => .ok (s'.modQueue dead.launch t.stage dead.cluster fun q => { q with
        bereaved := q.bereaved ++ [⟨t.handle, seq, t.holdings, h⟩] })
    | .error x => .error x

/-- A bereaved arrival, count 1, on a sender's acknowledgement barrier (R177, R178): dropped when the sender has
ended. -/
def State.bereavedArrival (s : State) (sender cluster barrier : Nat) : State :=
  match s.group? sender with
  | .none => s
  | some _ =>
    let tgt := Target.spad cluster barrier
    s.store tgt 8 (arriveWord (word (s.readAt tgt 8)) (word (2 ^ 63 + 1))).toNat

/-- The pieces of a range that no region inside it covers, for clearing (R236, R290). -/
def cutRange (base size ctx : Nat) : List Alloc → List Alloc
  | [] => if size = 0 then [] else [⟨base, size, 0, ctx, true⟩]
  | r :: rest =>
    if r.base < base + size ∧ base < r.base + r.size then
      (if base < r.base then cutRange base (r.base - base) ctx rest else []) ++
        (if r.base + r.size < base + size then cutRange (r.base + r.size) (base + size - r.base - r.size) ctx rest else [])
    else cutRange base size ctx rest

/-- What a group held on its cluster is freed: its own allocation and the regions conveyed to it are cleared, but for
the parts that others now own (R236, R290). -/
def freeAllocs (h : Nat) (allocs : List Alloc) : List Alloc :=
  let mine := allocs.filter fun r => r.owner == h
  let others := allocs.filter fun r => r.owner != h
  mine.flatMap (fun r => cutRange r.base r.size r.ctx others) ++ others

/-- The device OS frees a region that conveyance left to it: it is cleared, and then free (R290). -/
def State.freeRegion (s : State) (cl base : Nat) : State :=
  s.modCluster cl fun c => { c with
    allocs := updWhere (fun r => r.base == base && r.owner == 0) (fun r => { r with clearing := true }) c.allocs }

/-- Ends a group whose conveyance has nothing left: the records it was bound to leave their slots, senders whose notices
it has not acknowledged are told, and its resources are freed (R178, R236, R287, R314). -/
def State.endGroup (s : State) (h : Nat) : State :=
  let g := s.group h
  let s := g.kicks.foldl (fun s k => s.bereavedArrival k.sender k.cluster k.barrier) s
  let s := s.modQueue g.launch g.stage g.cluster fun q => { q with
    recs := q.recs.filter fun r => !(r.bound && r.group == h) }
  let s := s.modCluster g.cluster fun c => { c with
    allocs := freeAllocs h c.allocs
    copies := c.copies.filter fun k => k.group != h || k.kept
    tags := updWhere (fun t => t.owner == h) (fun t => { t with valid := false, dirty := false }) c.tags
    tasks := if g.killed then c.tasks.filter fun t => t.group != h || t.kept else c.tasks }
  let s := s.dropGone
  let s := s.modLaunch g.launch fun l => { l with
    groups := min (l.groups + 1) 0xFFFFFFFF, kills := if g.killed then min (l.kills + 1) 0xFFFFFF else l.kills }
  { s with groups := s.groups.filter fun x => x.handle != h }

/-- One step of a stage whose append was refused: its next holding becomes heirless, or the agent waits for a word. -/
def State.refuseNext (s : State) (h reason : Nat) (t : StageTest) : State :=
  let g := s.group h
  match t.holdings with
  | [] => s.modGroup h fun g => { g with tests := g.tests.drop 1 }
  | e :: rest =>
    match s.heirlessAfter g reason t.handle e with
    | .error a => s.addFault g.cluster ⟨g.ctx, a, 2, 6, g.cluster, h, .convey h⟩
    | .ok s' => s'.modGroup h fun g => { g with tests := { t with holdings := rest } :: g.tests.drop 1 }

/-- The end of a conveyance: the bereavement records of each stage are appended, and the group ends. A translation fault on a
slot makes the agent wait; a refused append makes the holdings heirless with `why` 1. -/
def State.finishConveyance (s : State) (h : Nat) : State :=
  let g := s.group h
  match g.st with
  | .conveying reason _ =>
    if !g.estate.isEmpty then s
    else
      match g.tests with
      | [] => s.endGroup h
      | t :: rest =>
        if t.refused then s.refuseNext h reason t
        else
          match s.appendBereaved h reason t with
          | .ok s' =>
            let s' := s'.modGroup h fun g => { g with tests := rest }
            if rest.isEmpty then s'.endGroup h else s'
          | .error (.replay, a) => s.addFault g.cluster ⟨g.ctx, a, 1, 6, g.cluster, h, .convey h⟩
          | .error (.access, _) => s.modGroup h fun g => { g with tests := { t with refused := true, room := 0 } :: rest }
  | _ => s

end Sys2Proof.Machine
end

