-- ==== Sys2Proof/Machine/Scalar.lean ====
section
/-! DEFINITION. Scalar arithmetic, constants, compares and selection of the uniform set (R66, R67, R94 to R96). -/
namespace Sys2Proof.Machine
open Sys2Proof

/-! ## Shared forms -/

/-- A uniform instruction of two sources: EL and LL by what it reads, the result to `d` and f4 (R42, R44, R90). -/
def uni2 (d : SDst) (a b : USrc) (f : Word → Word → Word) (s : State) : Out :=
  teamStep 4 (fun t => (t.raise (t.uniFlags a ||| t.uniFlags b)).uniResult d (f (t.uniSrc a) (t.uniSrc b))) s

/-- One source. -/
def uni1 (d : SDst) (a : USrc) (f : Word → Word) (s : State) : Out :=
  teamStep 4 (fun t => (t.raise (t.uniFlags a)).uniResult d (f (t.uniSrc a))) s

/-- A constant builder: d := f of the old d, `reads` when it reads it; EL of that read stands beside R66's word that no
constant builder raises a flag (DEDUCED: R44 raises it for every read of a dead element; log 67). -/
def uniConst (d : SReg) (reads : Bool) (f : Team → Word → Word) (s : State) : Out :=
  teamStep 4 (fun t => (t.raise (if reads then t.sFlags d else 0)).uniResult (some d) (f t (t.uniSrc (.s d)))) s

/-! ## Results -/

/-- A 128-bit product's high half, signed or unsigned (R94). -/
def mulHigh (sgn : Bool) (a b : Word) : Word :=
  if sgn then word (wrap 128 (a.toInt * b.toInt) / 2 ^ 64) else word (a.toNat * b.toNat / 2 ^ 64)

/-- Signed quotient toward zero; -1 for a zero divisor, and -2^63 / -1 stays -2^63 (R94). -/
def sdivW (a b : Word) : Word := if b = 0 then BitVec.allOnes 64 else word (wrap 64 (Int.tdiv a.toInt b.toInt))
/-- Signed remainder with the sign of a; a for a zero divisor (R94). -/
def sremW (a b : Word) : Word := if b = 0 then a else word (wrap 64 (Int.tmod a.toInt b.toInt))
def udivW (a b : Word) : Word := if b = 0 then BitVec.allOnes 64 else a / b
def uremW (a b : Word) : Word := if b = 0 then a else a % b

/-- A shift amount mod 64 (R94). -/
def shAmt (b : Word) : Nat := b.toNat % 64

/-- Bit-field extract at width w (R95, R123). -/
def bfeAt (w a desc : Nat) : Nat :=
  let l := min (desc % 128) w
  let p := desc / 256 % 64
  if l = 0 ∨ w ≤ p then 0
  else
    let f := a % 2 ^ w / 2 ^ p % 2 ^ l
    if desc / 32768 % 2 = 1 ∧ f / 2 ^ (l - 1) % 2 = 1 then f + (2 ^ w - 2 ^ l) else f

/-- Bit-field insert at width w (R95, R123). -/
def bfiAt (w d a desc : Nat) : Nat :=
  let l := min (desc % 128) w
  let p := desc / 256 % 64
  if w ≤ p then d % 2 ^ w
  else
    let top := min (p + l) w
    let hi := d % 2 ^ w / 2 ^ top * 2 ^ top
    hi + a % 2 ^ (top - p) * 2 ^ p + d % 2 ^ p

/-- The conditions of `scmp` (R96). -/
def scondHolds (c : SCond) (a b : Word) : Bool :=
  match c with
  | .eq => a == b | .ne => a != b | .lt => a.slt b | .ltu => a.ult b | .le => a.sle b | .leu => a.ule b

/-- An immediate of a UI form, sign- or zero-extended (R65). -/
def imm11s (i : BitVec 11) : Word := i.signExtend 64
def imm11z (i : BitVec 11) : Word := i.setWidth 64

/-- `sli.f*`: BF16 widened exactly, or narrowed to binary16 by nearest-even (R67). -/
def bf16To (f : Nat) (x : BitVec 16) : Nat :=
  let sgn := x.toNat / 32768
  let e := x.toNat / 128 % 256
  let fr := x.toNat % 128
  if e = 255 ∧ fr ≠ 0 then (if f = 64 then 0x7FF8000000000000 else if f = 32 then 0x7FC00000 else 0x7E00)
  else if f = 32 then x.toNat * 65536
  else if f = 64 then
    if e = 255 then sgn * 2 ^ 63 + 0x7FF0000000000000
    else if e = 0 then
      if fr = 0 then sgn * 2 ^ 63
      else
        -- a subnormal BF16: fr * 2^-133, normal in binary64
        let l := Nat.log2 fr
        sgn * 2 ^ 63 + (l + 890) * 2 ^ 52 + (fr - 2 ^ l) * 2 ^ (52 - l)
    else sgn * 2 ^ 63 + (e + 896) * 2 ^ 52 + fr * 2 ^ 45
  else
    if 143 ≤ e then sgn * 32768 + 0x7C00
    else if 113 ≤ e then sgn * 32768 + (e - 112) * 1024 + fr * 8
    else
      -- below binary16's smallest normal: units of 2^-24, rounded to nearest-even
      let m := if e = 0 then fr else 128 + fr
      let sh := 110 - (if e = 0 then 1 else e)
      let n := if e < 110 then m / 2 ^ sh else m * 2 ^ (e - 110)
      let r := if e < 110 then m % 2 ^ sh else 0
      let up : Bool := e < 110 && (decide (2 ^ sh < 2 * r) || (decide (2 * r = 2 ^ sh) && n % 2 == 1))
      sgn * 32768 + n + b2n up

/-! ## The scalar ALU (R94, R95) -/

def execSadd (d : SDst) (a b : USrc) (s : State) : Out := uni2 d a b (· + ·) s
def execSsub (d : SDst) (a b : USrc) (s : State) : Out := uni2 d a b (· - ·) s
def execSmul (d : SDst) (a b : USrc) (s : State) : Out := uni2 d a b (· * ·) s
def execSmulh (d : SDst) (a b : USrc) (s : State) : Out := uni2 d a b (mulHigh true) s
def execSmulhu (d : SDst) (a b : USrc) (s : State) : Out := uni2 d a b (mulHigh false) s
def execSdiv (d : SDst) (a b : USrc) (s : State) : Out := uni2 d a b sdivW s
def execSdivu (d : SDst) (a b : USrc) (s : State) : Out := uni2 d a b udivW s
def execSrem (d : SDst) (a b : USrc) (s : State) : Out := uni2 d a b sremW s
def execSremu (d : SDst) (a b : USrc) (s : State) : Out := uni2 d a b uremW s
def execSand (d : SDst) (a b : USrc) (s : State) : Out := uni2 d a b (· &&& ·) s
def execSor (d : SDst) (a b : USrc) (s : State) : Out := uni2 d a b (· ||| ·) s
def execSxor (d : SDst) (a b : USrc) (s : State) : Out := uni2 d a b (· ^^^ ·) s
def execSshl (d : SDst) (a b : USrc) (s : State) : Out := uni2 d a b (fun x y => x <<< shAmt y) s
def execSshr (d : SDst) (a b : USrc) (s : State) : Out := uni2 d a b (fun x y => x >>> shAmt y) s
def execSsra (d : SDst) (a b : USrc) (s : State) : Out := uni2 d a b (fun x y => x.sshiftRight (shAmt y)) s
def execSmin (d : SDst) (a b : USrc) (s : State) : Out := uni2 d a b (fun x y => if x.slt y then x else y) s
def execSminu (d : SDst) (a b : USrc) (s : State) : Out := uni2 d a b (fun x y => if x.ult y then x else y) s
def execSmax (d : SDst) (a b : USrc) (s : State) : Out := uni2 d a b (fun x y => if x.slt y then y else x) s
def execSmaxu (d : SDst) (a b : USrc) (s : State) : Out := uni2 d a b (fun x y => if x.ult y then y else x) s
def execSbfe (d : SDst) (a b : USrc) (s : State) : Out := uni2 d a b (fun x y => word (bfeAt 64 x.toNat y.toNat)) s
/-- `sbfi` also reads d; with `nwb` its field names s0 (R60, R95). -/
def execSbfi (d : SDst) (a b : USrc) (s : State) : Out :=
  teamStep 4 (fun t =>
    let old : USrc := .s (d.getD 0)
    (t.raise (t.uniFlags a ||| t.uniFlags b ||| t.uniFlags old)).uniResult d
      (word (bfiAt 64 (t.uniSrc old).toNat (t.uniSrc a).toNat (t.uniSrc b).toNat))) s
def execSclz (d : SDst) (a : USrc) (s : State) : Out := uni1 d a (fun x => word (clz 64 x.toNat)) s
def execSpop (d : SDst) (a : USrc) (s : State) : Out := uni1 d a (fun x => word (popCount 64 x.toNat)) s
def execSmov (d : SDst) (a : USrc) (s : State) : Out := uni1 d a id s

/-! ## Immediate forms (R65, R94) -/

def execSaddImm (d : SDst) (a : USrc) (i : BitVec 11) (s : State) : Out := uni1 d a (· + imm11s i) s
def execSmulImm (d : SDst) (a : USrc) (i : BitVec 11) (s : State) : Out := uni1 d a (· * imm11s i) s
def execSandImm (d : SDst) (a : USrc) (i : BitVec 11) (s : State) : Out := uni1 d a (· &&& imm11z i) s
def execSorImm (d : SDst) (a : USrc) (i : BitVec 11) (s : State) : Out := uni1 d a (· ||| imm11z i) s
def execSxorImm (d : SDst) (a : USrc) (i : BitVec 11) (s : State) : Out := uni1 d a (· ^^^ imm11z i) s
def execSshlImm (d : SDst) (a : USrc) (i : BitVec 11) (s : State) : Out := uni1 d a (· <<< shAmt (imm11z i)) s
def execSshrImm (d : SDst) (a : USrc) (i : BitVec 11) (s : State) : Out := uni1 d a (· >>> shAmt (imm11z i)) s
def execSsraImm (d : SDst) (a : USrc) (i : BitVec 11) (s : State) : Out :=
  uni1 d a (fun x => x.sshiftRight (shAmt (imm11z i))) s

/-! ## Constants (R66, R67, R96) -/

def execSliI (d : SReg) (i : BitVec 18) (s : State) : Out := uniConst d false (fun _ _ => i.signExtend 64) s
def execSliZ (d : SReg) (i : BitVec 18) (s : State) : Out := uniConst d false (fun _ _ => i.setWidth 64) s
def execSlil (d : SReg) (i : BitVec 18) (s : State) : Out := uniConst d true (fun _ x => setBits x 10 18 i.toNat) s
def execSlim (d : SReg) (i : BitVec 18) (s : State) : Out := uniConst d true (fun _ x => setBits x 28 18 i.toNat) s
def execSlih (d : SReg) (i : BitVec 18) (s : State) : Out := uniConst d true (fun _ x => setBits x 46 18 i.toNat) s
def execSliF64 (d : SReg) (x : BitVec 16) (s : State) : Out := uniConst d false (fun _ _ => word (bf16To 64 x)) s
def execSliF32 (d : SReg) (x : BitVec 16) (s : State) : Out := uniConst d false (fun _ _ => word (bf16To 32 x)) s
def execSliF16 (d : SReg) (x : BitVec 16) (s : State) : Out := uniConst d false (fun _ _ => word (bf16To 16 x)) s
def execSadr (d : SReg) (i : BitVec 18) (s : State) : Out :=
  uniConst d false (fun t _ => t.pc + 4 * i.signExtend 64) s
def execScmp (c : SCond) (d : SDst) (a b : USrc) (s : State) : Out :=
  uni2 d a b (fun x y => word (b2n (scondHolds c x y))) s
def execSsel (d : SDst) (a b : USrc) (c : SReg) (s : State) : Out :=
  teamStep 4 (fun t =>
    (t.raise (t.uniFlags a ||| t.uniFlags b ||| t.sFlags c)).uniResult d
      (if t.uniSrc (.s c) ≠ 0 then t.uniSrc a else t.uniSrc b)) s

/-! ## Time (R94): ck for which a scalar instruction holds the uniform pipe -/

/-- A division: 4 + ceil(q / 2) ck for a quotient of q significant bits, 4 in the two special cases. -/
def divCk (sgn : Bool) (a b : Word) : Nat :=
  if b = 0 then 4
  else if sgn then
    if a.toNat = 2 ^ 63 ∧ b = BitVec.allOnes 64 then 4
    else 4 + (bitLength 65 (Int.tdiv a.toInt b.toInt).natAbs + 1) / 2
  else 4 + (bitLength 65 (a.toNat / b.toNat) + 1) / 2

end Sys2Proof.Machine
end

