-- ==== Sys2Proof/Machine/Lane.lean ====
section
/-! DEFINITION. Integer, logic, select and compare instructions of the lane set (R116, R119, R121 to R126). -/
namespace Sys2Proof.Machine
open Sys2Proof

/-! ## Shared forms -/

/-- Sub-element `j` of a lane source at width `w` (R37, R116). -/
def Team.sub (t : Team) (w : Nat) (a : LSrc) (x j : Nat) : Nat := subEl w (t.laneSrc w a x) j

/-- Every sub-element of a lane through `f` (R116). -/
def perSub (w : Nat) (f : Nat → Nat) : Word := fromSubs w (64 / w) f

/-- A lane instruction of two sources, per sub-element. -/
def lane2 (w : IW) (d : VDst) (a b : LSrc) (f : Nat → Nat → Nat → Nat) (s : State) : Out :=
  let n := iwBits w
  teamStep 4 (fun t => (t.raise (t.srcFlags a ||| t.srcFlags b)).laneResult d fun x =>
    perSub n fun j => f n (t.sub n a x j) (t.sub n b x j)) s

/-- One source. -/
def lane1 (w : IW) (d : VDst) (a : LSrc) (f : Nat → Nat → Nat) (s : State) : Out :=
  let n := iwBits w
  teamStep 4 (fun t => (t.raise (t.srcFlags a)).laneResult d fun x => perSub n fun j => f n (t.sub n a x j)) s

/-- Two sources and the old d. -/
def lane2d (w : IW) (d : VDst) (a b : LSrc) (f : Nat → Nat → Nat → Nat → Nat) (s : State) : Out :=
  let n := iwBits w
  teamStep 4 (fun t => (t.raise (t.srcFlags a ||| t.srcFlags b ||| t.oldFlags d)).laneResult d fun x =>
    perSub n fun j => f n (subEl n (t.old d x) j) (t.sub n a x j) (t.sub n b x j)) s

/-- The whole register (R116). -/
def laneWhole (d : VDst) (a b : LSrc) (f : Nat → Word → Word → Word) (s : State) : Out :=
  teamStep 4 (fun t => (t.raise (t.srcFlags a ||| t.srcFlags b)).laneResult d fun x =>
    f x (t.laneSrc 64 a x) (t.laneSrc 64 b x)) s

/-- A compare of sub-element 0 into a mask (R126). -/
def laneCmp (w : IW) (d : MDst) (a b : LSrc) (p : Nat → Nat → Nat → Bool) (s : State) : Out :=
  let n := iwBits w
  teamStep 4 (fun t => (t.raise (t.srcFlags a ||| t.srcFlags b)).setMask d
    (maskOf t.lanes fun x => t.active x && p n (t.sub n a x 0) (t.sub n b x 0))) s

/-- A compare with an immediate. -/
def laneCmpImm (w : IW) (d : MDst) (a : LSrc) (i : BitVec 7) (p : Nat → Nat → Nat → Bool) (s : State) : Out :=
  let n := iwBits w
  teamStep 4 (fun t => (t.raise (t.srcFlags a)).setMask d
    (maskOf t.lanes fun x => t.active x && p n (t.sub n a x 0) (wrap n i.toInt))) s

/-! ## Results at width w (R121, R122): sub-elements are numbers below 2^w -/

/-- An integer clamped into a range and put into `w` bits. -/
def clampTo (w : Nat) (lo hi z : Int) : Nat := wrap w (if z < lo then lo else if hi < z then hi else z)
/-- The signed and unsigned ranges of a width. -/
def smin' (w : Nat) : Int := -((2 ^ (w - 1) : Nat) : Int)
def smax' (w : Nat) : Int := ((2 ^ (w - 1) : Nat) : Int) - 1
def umax' (w : Nat) : Int := ((2 ^ w : Nat) : Int) - 1

def addAt (w a b : Nat) : Nat := (a + b) % 2 ^ w
def subAt (w a b : Nat) : Nat := wrap w ((a : Int) - b)
def addSatAt (w a b : Nat) : Nat := clampTo w (smin' w) (smax' w) (signed w a + signed w b)
def addSatuAt (w a b : Nat) : Nat := clampTo w 0 (umax' w) ((a : Int) + b)
def subSatAt (w a b : Nat) : Nat := clampTo w (smin' w) (smax' w) (signed w a - signed w b)
def subSatuAt (w a b : Nat) : Nat := clampTo w 0 (umax' w) ((a : Int) - b)
def mulAt (w a b : Nat) : Nat := a * b % 2 ^ w
def mulhAt (w a b : Nat) : Nat := wrap (2 * w) (signed w a * signed w b) / 2 ^ w
def mulhuAt (w a b : Nat) : Nat := a * b / 2 ^ w
def sltAt (w a b : Nat) : Bool := decide (signed w a < signed w b)
def minAt (w a b : Nat) : Nat := if sltAt w b a then b else a
def maxAt (w a b : Nat) : Nat := if sltAt w a b then b else a
def minuAt (_w a b : Nat) : Nat := Nat.min a b
def maxuAt (_w a b : Nat) : Nat := Nat.max a b
def absAt (w a : Nat) : Nat := wrap w (signed w a).natAbs
def shlAt (w a b : Nat) : Nat := a * 2 ^ (b % w) % 2 ^ w
def shrAt (w a b : Nat) : Nat := a / 2 ^ (b % w)
def sraAt (w a b : Nat) : Nat := wrap w (signed w a / (2 ^ (b % w) : Nat))
def rotAt (w a b : Nat) : Nat := a * 2 ^ (b % w) % 2 ^ w + a / 2 ^ (w - b % w)

/-! ## Arithmetic (R121) -/

def execAdd (w : IW) (d : VDst) (a b : LSrc) (s : State) : Out := lane2 w d a b addAt s
def execSub (w : IW) (d : VDst) (a b : LSrc) (s : State) : Out := lane2 w d a b subAt s
def execAddSat (w : IW) (d : VDst) (a b : LSrc) (s : State) : Out := lane2 w d a b addSatAt s
def execAddSatu (w : IW) (d : VDst) (a b : LSrc) (s : State) : Out := lane2 w d a b addSatuAt s
def execSubSat (w : IW) (d : VDst) (a b : LSrc) (s : State) : Out := lane2 w d a b subSatAt s
def execSubSatu (w : IW) (d : VDst) (a b : LSrc) (s : State) : Out := lane2 w d a b subSatuAt s
def execMul (w : IW) (d : VDst) (a b : LSrc) (s : State) : Out := lane2 w d a b mulAt s
def execMulh (w : IW) (d : VDst) (a b : LSrc) (s : State) : Out := lane2 w d a b mulhAt s
def execMulhu (w : IW) (d : VDst) (a b : LSrc) (s : State) : Out := lane2 w d a b mulhuAt s
def execMad (w : IW) (d : VDst) (a b : LSrc) (s : State) : Out :=
  lane2d w d a b (fun n o x y => (o + x * y) % 2 ^ n) s
def execMin (w : IW) (d : VDst) (a b : LSrc) (s : State) : Out := lane2 w d a b minAt s
def execMinu (w : IW) (d : VDst) (a b : LSrc) (s : State) : Out := lane2 w d a b minuAt s
def execMax (w : IW) (d : VDst) (a b : LSrc) (s : State) : Out := lane2 w d a b maxAt s
def execMaxu (w : IW) (d : VDst) (a b : LSrc) (s : State) : Out := lane2 w d a b maxuAt s
def execAbs (w : IW) (d : VDst) (a : LSrc) (s : State) : Out := lane1 w d a absAt s
def execClz (w : IW) (d : VDst) (a : LSrc) (s : State) : Out := lane1 w d a clz s
def execPop (w : IW) (d : VDst) (a : LSrc) (s : State) : Out := lane1 w d a popCount s
def execAddImm (w : IW) (d : VDst) (a : LSrc) (i : BitVec 7) (s : State) : Out :=
  lane1 w d a (fun n x => (x + wrap n i.toInt) % 2 ^ n) s
def execLi (w : IW) (d : VDst) (i : BitVec 7) (s : State) : Out :=
  teamStep 4 (fun t => t.laneResult d fun _ => perSub (iwBits w) fun _ => wrap (iwBits w) i.toInt) s

/-! ## Logic and shifts (R122) -/

def execAnd (w : IW) (d : VDst) (a b : LSrc) (s : State) : Out := lane2 w d a b (fun _ x y => x &&& y) s
def execOr (w : IW) (d : VDst) (a b : LSrc) (s : State) : Out := lane2 w d a b (fun _ x y => x ||| y) s
def execXor (w : IW) (d : VDst) (a b : LSrc) (s : State) : Out := lane2 w d a b (fun _ x y => x ^^^ y) s
def execShl (w : IW) (d : VDst) (a b : LSrc) (s : State) : Out := lane2 w d a b shlAt s
def execShr (w : IW) (d : VDst) (a b : LSrc) (s : State) : Out := lane2 w d a b shrAt s
def execSra (w : IW) (d : VDst) (a b : LSrc) (s : State) : Out := lane2 w d a b sraAt s
def execRot (w : IW) (d : VDst) (a b : LSrc) (s : State) : Out := lane2 w d a b rotAt s
def execAndImm (w : IW) (d : VDst) (a : LSrc) (i : BitVec 7) (s : State) : Out := lane1 w d a (fun _ x => x &&& i.toNat) s
def execOrImm (w : IW) (d : VDst) (a : LSrc) (i : BitVec 7) (s : State) : Out := lane1 w d a (fun _ x => x ||| i.toNat) s
def execXorImm (w : IW) (d : VDst) (a : LSrc) (i : BitVec 7) (s : State) : Out := lane1 w d a (fun _ x => x ^^^ i.toNat) s
def execShlImm (w : IW) (d : VDst) (a : LSrc) (i : BitVec 7) (s : State) : Out := lane1 w d a (shlAt · · i.toNat) s
def execShrImm (w : IW) (d : VDst) (a : LSrc) (i : BitVec 7) (s : State) : Out := lane1 w d a (shrAt · · i.toNat) s
def execSraImm (w : IW) (d : VDst) (a : LSrc) (i : BitVec 7) (s : State) : Out := lane1 w d a (sraAt · · i.toNat) s
def execRotImm (w : IW) (d : VDst) (a : LSrc) (i : BitVec 7) (s : State) : Out := lane1 w d a (rotAt · · i.toNat) s

/-! ## Bit fields (R123): b's whole register is the descriptor -/

def execBfe (w : IW) (d : VDst) (a b : LSrc) (s : State) : Out :=
  let n := iwBits w
  teamStep 4 (fun t => (t.raise (t.srcFlags a ||| t.srcFlags b)).laneResult d fun x =>
    perSub n fun j => bfeAt n (t.sub n a x j) (t.laneSrc 64 b x).toNat) s
def execBfi (w : IW) (d : VDst) (a b : LSrc) (s : State) : Out :=
  let n := iwBits w
  teamStep 4 (fun t => (t.raise (t.srcFlags a ||| t.srcFlags b ||| t.oldFlags d)).laneResult d fun x =>
    perSub n fun j => bfiAt n (subEl n (t.old d x) j) (t.sub n a x j) (t.laneSrc 64 b x).toNat) s

/-! ## Carry chains (R124) -/

/-- The carry mask m(1+w), as a source and as a destination. -/
def carrySrc (m : CMask) : MReg := ⟨m.val + 1, by omega⟩
def carryDst (m : CMask) : MDst := ⟨m.val + 1, by omega⟩

/-- A 64-bit operation with a carry in and out of a mask: `f` gives the carry out and the result. -/
def laneCarry (m : CMask) (d : VDst) (a b : LSrc) (f : Nat → Nat → Nat → Bool × Nat) (s : State) : Out :=
  teamStep 4 (fun t =>
    let r (x : Nat) := f (t.laneSrc 64 a x).toNat (t.laneSrc 64 b x).toNat (b2n ((t.mask (carrySrc m)).getLsbD x))
    ((t.raise (t.srcFlags a ||| t.srcFlags b)).laneResult d fun x => word (r x).2).setMask (carryDst m)
      ((t.mask (carrySrc m) &&& ~~~ t.exec) ||| maskOf t.lanes fun x => t.active x && (r x).1)) s

def execAddc (m : CMask) (d : VDst) (a b : LSrc) (s : State) : Out :=
  laneCarry m d a b (fun x y c => (decide (2 ^ 64 ≤ x + y + c), (x + y + c) % 2 ^ 64)) s
def execSubb (m : CMask) (d : VDst) (a b : LSrc) (s : State) : Out :=
  laneCarry m d a b (fun x y c => (decide (x < y + c), wrap 64 ((x : Int) - y - c))) s

/-! ## Selection and moves (R125) -/

/-- A lane uses only the source that its mask bit selects (R44, R125). -/
def execSel (m : CMask) (d : VDst) (a b : LSrc) (s : State) : Out :=
  teamStep 4 (fun t =>
    let k := t.mask (carrySrc m)
    let fl := t.srcFlagsAt (t.activeLanes.filter (k.getLsbD ·)) a |||
      t.srcFlagsAt (t.activeLanes.filter (!k.getLsbD ·)) b
    (t.raise fl).laneResult d fun x => if k.getLsbD x then t.laneSrc 64 a x else t.laneSrc 64 b x) s
def execMov (d : VDst) (a : LSrc) (s : State) : Out := laneWhole d a a (fun _ x _ => x) s

/-! ## Compares (R126) -/

def execCmpEq (w : IW) (d : MDst) (a b : LSrc) (s : State) : Out := laneCmp w d a b (fun _ x y => x == y) s
def execCmpNe (w : IW) (d : MDst) (a b : LSrc) (s : State) : Out := laneCmp w d a b (fun _ x y => x != y) s
def execCmpLt (w : IW) (d : MDst) (a b : LSrc) (s : State) : Out := laneCmp w d a b sltAt s
def execCmpLtu (w : IW) (d : MDst) (a b : LSrc) (s : State) : Out := laneCmp w d a b (fun _ x y => decide (x < y)) s
def execCmpLe (w : IW) (d : MDst) (a b : LSrc) (s : State) : Out := laneCmp w d a b (fun n x y => !sltAt n y x) s
def execCmpLeu (w : IW) (d : MDst) (a b : LSrc) (s : State) : Out := laneCmp w d a b (fun _ x y => decide (x ≤ y)) s
def execCmpEqImm (w : IW) (d : MDst) (a : LSrc) (i : BitVec 7) (s : State) : Out :=
  laneCmpImm w d a i (fun _ x y => x == y) s
def execCmpLtImm (w : IW) (d : MDst) (a : LSrc) (i : BitVec 7) (s : State) : Out := laneCmpImm w d a i sltAt s

/-! ## Time (R120) -/

/-- Ck that an instruction holds the lane pipe: `k` for each lane word whose summary bit is set in m0, and 1 with m0
empty (R216). -/
def laneCk (t : Team) (k : Nat) : Nat :=
  let n := popCount 32 (summary t.exec).toNat
  if n = 0 then 1 else k * n

end Sys2Proof.Machine
end

