-- ==== Sys2Proof/Machine/LaneMem.lean ====
section
/-! DEFINITION. Lane loads, stores and atomics (R143 to R146, R149 to R156, R158 to R160). -/
namespace Sys2Proof.Machine
open Sys2Proof

/-! ## Issuing an access -/

/-- An element before translation. -/
structure Raw where
  lane : Nat
  sub : Nat
  va : Nat
  size : Nat
  arg : Nat
  aux : Nat
  flag : Bool
deriving DecidableEq, Repr

/-- What a memory instruction asks for. -/
structure Ask where
  op : AccOp
  esc : Bool
  ord : Ord
  scope : Scope
  cls : WaitClass
  dst : AccDst
  kind : AddrKind
  acting : Mask
  raws : List Raw
  /-- Bytes of the instruction. -/
  len : Nat
  /-- EL and LL of the operand reads. -/
  flags : FFlags
  /-- Resumable through m7 (R152). -/
  resumes : Bool
  /-- Reply bytes of 8 per active lane are charged (R151). -/
  reply : Bool
deriving DecidableEq, Repr

/-- The access kind of an element (R345). -/
def rawCode (op : AccOp) (r : Raw) : Nat := if r.flag then 2 else op.code

/-- Translates elements in order: an element whose translation faults replayably is held; the other failures are the
addresses that stop the instruction. -/
def placeRaws (cl : Nat) (g : Group) (k : AddrKind) (op : AccOp) : State → List Raw → State × List Elem × List Nat
  | s, [] => (s, [], [])
  | s, r :: l =>
    let p := s.place cl g k r.va r.size (rawCode op r)
    let rest := placeRaws cl g k op p.1 l
    match p.2 with
    | .ok pl => (rest.1, ⟨r.lane, r.sub, r.va, r.size, pl.kind, some pl.tgt, pl.slice, r.arg, r.aux, r.flag, 0, .todo⟩ :: rest.2.1,
        rest.2.2)
    | .error .replay => (rest.1, ⟨r.lane, r.sub, r.va, r.size, .relCons, none, 0, r.arg, r.aux, r.flag, 0, .queued⟩ :: rest.2.1,
        rest.2.2)
    | .error .access => (rest.1, rest.2.1, r.va :: rest.2.2)

/-- Flag addresses of `stf` that lie on another device than the data they count (R156). -/
def flagsAstray (es : List Elem) : List Nat :=
  (es.filter Elem.flag).filterMap fun f =>
    if es.any fun e => !e.flag && e.aux == f.va &&
        (match e.tgt, f.tgt with | some a, some b => a.device != b.device | _, _ => false)
    then some f.va else none

/-- Addresses of an instruction that mixes scratchpad and global memory (R149). -/
def mixedAddrs (k : AddrKind) (raws : List Raw) : List Nat :=
  if k = .either ∧ (raws.any fun r => decide (r.va < 0x400000)) ∧ (raws.any fun r => decide (0x400000 ≤ r.va))
  then raws.map Raw.va else []

/-- Puts the held elements of an access into the fault buffer. -/
def State.holdElems (s : State) (t : Team) (a : Acc) (req unit : Nat) : State :=
  (List.range a.elems.length).foldl (fun s i =>
    let e := nth .zero a.elems i
    if e.st = .queued then
      (s.addFault t.cluster ⟨(s.group t.group).ctx, e.va, if e.flag then 2 else a.op.code, req, unit, t.group,
        .elem t.tid a.seq i⟩).modElem t.tid a.seq i fun e => { e with st := .held }
    else s) s

/-- Moves the stores of an access that combine into the buffer, in element order (R155); one that an older access keeps
back waits for its turn. -/
def State.combineAcc (s : State) (tid : Nat) (a : Acc) : State :=
  (List.range a.elems.length).foldl (fun s i =>
    if (nth .zero a.elems i).combines a then s.performElem tid a.seq i else s) s

/-- Adds an access to the team in focus, with the flags of its operand reads. -/
def State.pushAcc (s : State) (a : Acc) (fl : FFlags) : State :=
  s.onCur fun t => { t.raise fl with accs := t.accs ++ [a], nextSeq := t.nextSeq + 1 }

/-- The instruction leaves m7 empty where it is resumable (R152). -/
def Team.clearM7 (t : Team) (c : Bool) : Team := if c then { t with m := t.m.set 7 0 } else t

/-- Issues unescorted: the elements that combine enter the buffer, the held ones the fault buffer, and the others are
performed later (R150, R247, R346). -/
def issueInPlace (q : Ask) (eo : Bool) (es : List Elem) (s : State) : Out :=
  let t := s.cur
  let a : Acc := ⟨t.nextSeq, q.op, q.ord, q.scope, if eo then none else some q.cls, q.dst, q.acting, eo, es⟩
  let s := (s.pushAcc a q.flags).noteSlices t.group es
  let s := s.holdElems t a 2 t.cluster
  let s := if eo ∨ Ord.releases q.ord then s.drainTeam t.tid else s
  let s := if eo then s else s.combineAcc t.tid a
  let s := s.onCur fun t => (t.clearM7 q.resumes).advance q.len
  if eo then
    .next (s.endTenure.onCur fun t => { t with fflags := t.fflags ||| flagEO, st := .waitAcc a.seq, granted := 0 })
  else .next (s.onCur Team.retire)

/-- Issues escorted, when the charge fits (R149, R150 steps 2 and 3). A first element that faults keeps the frame in the
Lodge; otherwise every other element that faults goes to the fault buffer at once, for the pen of the carrier. -/
def issueAbroad (q : Ask) (charge : Nat) (es : List Elem) (s : State) : Out :=
  let t := s.cur
  let a : Acc := ⟨t.nextSeq, q.op, q.ord, q.scope, none, q.dst, q.acting, true, es⟩
  let local_ := es.all fun e => e.kind == .spad
  let firstHeld : Bool := match es with | e :: _ => e.st == .queued | [] => false
  let slice := match es with | e :: _ => e.slice | [] => 0
  let place : EscPlace := if local_ then .unit else if firstHeld then .faultHold else .request
  let s := (s.pushAcc a q.flags).noteSlices t.group es
  let s := s.sendAbroad (if local_ then .unitAccess a.seq else .access a.seq) q.len charge slice place
  if firstHeld then
    .next ((s.addFault t.cluster ⟨(s.group t.group).ctx, (es.headD .zero).va,
        if (es.headD .zero).flag then 2 else q.op.code, 1, t.cluster, t.group, .elem t.tid a.seq 0⟩).modElem t.tid a.seq 0
        fun e => { e with st := .held })
  else .next (s.holdElems t a 0 slice)

/-- The lanes of a mask that are the team's, ascending. -/
def Team.lanesIn (t : Team) (x : Mask) : List Nat := (List.range t.lanes).filter (x.getLsbD ·)

/-- Issues a memory instruction whose elements are placed: as an unescorted or an escorted access. The charge of R151
counts the lanes that the instruction acts on. -/
def placedIssue (q : Ask) (es : List Elem) (before s : State) : Out :=
  let t := before.cur
  if !q.esc then
    -- a class counter holds at most 255 operations (R104)
    if 255 ≤ t.classCount q.cls then stallDrain before else issueInPlace q false es s
  else
    let charge := t.frameBytes + (if q.reply then 8 * (t.lanesIn q.acting).length else 0)
    match before.escortFit t charge with
    | .unescorted => issueInPlace q true es s
    | .short => .next (before.waitBytes charge)
    | .fits =>
      let r := s.readyToLeave
      if !r.2 then stallDrain before else issueAbroad q charge es r.1

/-- An access to scratchpad acts with no scope wider than group (R146). -/
def Ask.narrowed (q : Ask) : Ask :=
  if q.kind ≠ .global ∧ q.raws.any fun r => decide (r.va < 0x400000) then { q with scope := Scope.inSpad q.scope } else q

/-- Issues a memory instruction: alignment, then translation and protection of every element, before any is performed
(R143, R144, R149). It waits for a walk that a link holds up (R387). Where one element is misaligned and another meets an access fault, the misaligned trap is taken: the
model's choice, since no rule orders the two (log 74). A trap leaves the flags that the operand reads raise (R44, R352). -/
def memIssue (ask : Ask) (s : State) : Out :=
  let t := s.cur
  let q := ask.narrowed
  let mis := (q.raws.filter fun r => r.va % r.size != 0).map Raw.va
  let mixed := mixedAddrs q.kind q.raws
  if !mis.isEmpty then trapRead q.flags 5 (lowest mis) s
  else if !mixed.isEmpty then trapRead q.flags 6 (lowest mixed) s
  else if q.raws.any fun r => !s.wayOpen t.cluster s.curGroup.ctx q.kind r.va then stallDrain s
  else
    let p := placeRaws t.cluster s.curGroup q.kind q.op s q.raws
    let bad := p.2.2 ++ flagsAstray p.2.1
    if !bad.isEmpty then trapRead q.flags 6 (lowest bad) s
    else if q.raws.isEmpty then
      let f := p.1.emptyFence q.ord q.scope
      if f.2 then placedIssue q p.2.1 s f.1 else stallDrain s
    else placedIssue q p.2.1 s p.1

/-! ## Elements of the lane forms -/

/-- The lanes a resumable instruction acts on: m0, or m0 AND m7 where m7 is not empty (R152). -/
def Team.actingMask (t : Team) : Mask := if t.pend7 = 0 then t.exec else t.exec &&& t.pend7
/-- One element per lane, or one per sub-element for a whole register (R153). -/
def wholeRaws (xs : List Nat) (w : Nat) (addr : Nat → Nat) (arg : Nat → Nat → Nat) : List Raw :=
  xs.flatMap fun x => tabulate (64 / w) fun j =>
    ⟨x, j, (addr x + j * (w / 8)) % 2 ^ 64, w / 8, arg x j, 0, false⟩
def laneRaws (xs : List Nat) (w : Nat) (addr : Nat → Nat) (arg aux : Nat → Nat) : List Raw :=
  xs.map fun x => ⟨x, 0, addr x, w / 8, arg x, aux x, false⟩

/-- The form of a load (R153). -/
def ldForm (x : LdAux) (w : IW) : LoadForm :=
  match x with
  | .zx => .zx w
  | .sx => .sx w
  | .whole => .whole w

/-- `ld` and `lds`. -/
def askLoad (esc resumes : Bool) (k : AddrKind) (o : Ord) (sc : Scope) (w : IW) (x : LdAux) (d : VReg) (a : LSrc)
    (t : Team) : Ask :=
  let act := if resumes then t.actingMask else t.exec
  let xs := t.lanesIn act
  let addr (l : Nat) := (t.laneSrc 64 a l).toNat
  { op := .load (ldForm x w), esc := esc, ord := o, scope := sc, cls := .ld, dst := .lane d, kind := k, acting := act,
    raws := if x = .whole then wholeRaws xs (iwBits w) addr fun _ _ => 0
      else laneRaws xs (iwBits w) addr (fun _ => 0) fun _ => 0
    len := 4, flags := t.srcFlagsAt xs a, resumes := resumes, reply := true }

/-- `st` and `sts`. -/
def askStore (esc resumes : Bool) (k : AddrKind) (o : Ord) (sc : Scope) (w : IW) (x : StAux) (d a : LSrc)
    (t : Team) : Ask :=
  let n := iwBits w
  let act := if resumes then t.actingMask else t.exec
  let xs := t.lanesIn act
  let addr (l : Nat) := (t.laneSrc 64 a l).toNat
  { op := .store w, esc := esc, ord := o, scope := sc, cls := .st, dst := .none, kind := k, acting := act,
    raws := match x with
      | .whole => wholeRaws xs n addr fun l j => t.sub n d l j
      | .lo => laneRaws xs n addr (fun l => t.sub n d l 0) fun _ => 0
    len := 4, flags := t.srcFlagsAt xs a ||| t.srcFlagsAt xs d, resumes := resumes, reply := false }

/-- The scopes of scratchpad instructions. -/
def wideScope : SScope → Scope
  | .team => .team
  | .group => .group

def execLd (esc : Bool) (o : Ord) (sc : Scope) (w : IW) (x : LdAux) (d : VReg) (a : LSrc) (s : State) : Out :=
  memIssue (askLoad esc true .global o sc w x d a s.cur) s
def execSt (esc : Bool) (o : Ord) (sc : Scope) (w : IW) (x : StAux) (d a : LSrc) (s : State) : Out :=
  memIssue (askStore esc true .global o sc w x d a s.cur) s
def execLds (o : Ord) (sc : SScope) (w : IW) (x : LdAux) (d : VReg) (a : LSrc) (s : State) : Out :=
  memIssue (askLoad false false .scratch o (wideScope sc) w x d a s.cur) s
def execSts (o : Ord) (sc : SScope) (w : IW) (x : StAux) (d a : LSrc) (s : State) : Out :=
  memIssue (askStore false false .scratch o (wideScope sc) w x d a s.cur) s

/-! ## Gather and scatter (R154) -/

/-- element_address(x, j). -/
def Team.elemAddr (t : Team) (w k : Nat) (a base : LSrc) (off : BitVec 18) (x j : Nat) : Nat :=
  (t.laneSrc 64 base x + word (t.sub w a x j * 2 ^ k) + off.signExtend 64).toNat

/-- One element per sub-element. -/
def scatterRaws (xs : List Nat) (w : Nat) (addr arg : Nat → Nat → Nat) : List Raw :=
  xs.flatMap fun x => tabulate (64 / w) fun j => ⟨x, j, addr x j, w / 8, arg x j, 0, false⟩

def execLdx (esc : Bool) (o : Ord) (sc : Scope) (w : IW) (k : Fin 4) (d : VReg) (a base : LSrc) (off : BitVec 18)
    (s : State) : Out :=
  let t := s.cur
  let xs := t.lanesIn t.actingMask
  let n := iwBits w
  memIssue
    { op := .load (.gather w), esc := esc, ord := o, scope := sc, cls := .ld, dst := .lane d, kind := .global,
      acting := t.actingMask, raws := scatterRaws xs n (t.elemAddr n k.val a base off) fun _ _ => 0,
      len := 8, flags := t.srcFlagsAt xs a ||| t.srcFlagsAt xs base, resumes := true, reply := true } s
def execStx (esc : Bool) (o : Ord) (sc : Scope) (w : IW) (k : Fin 4) (d a base : LSrc) (off : BitVec 18)
    (s : State) : Out :=
  let t := s.cur
  let xs := t.lanesIn t.actingMask
  let n := iwBits w
  memIssue
    { op := .store w, esc := esc, ord := o, scope := sc, cls := .st, dst := .none, kind := .global,
      acting := t.actingMask, raws := scatterRaws xs n (t.elemAddr n k.val a base off) (t.sub n d),
      len := 8, flags := t.srcFlagsAt xs a ||| t.srcFlagsAt xs base ||| t.srcFlagsAt xs d, resumes := true,
      reply := false } s

/-! ## Stores with flags (R156) -/

/-- Data of each active lane, then one increment for each distinct flag address. -/
def Team.stfRaws (t : Team) (w : Nat) (d a f : LSrc) (inc : Nat) : List Raw :=
  let xs := t.activeLanes
  let fa (x : Nat) := (t.laneSrc 64 f x).toNat
  (xs.map fun x => (⟨x, 0, (t.laneSrc 64 a x).toNat, w / 8, t.sub w d x 0, fa x, false⟩ : Raw)) ++
    ((xs.filter fun x => xs.find? (fun y => fa y == fa x) == some x).map fun x =>
      ⟨x, 0, fa x, 8, inc * (xs.filter fun y => fa y == fa x).length, 0, true⟩)

def execStf (esc : Bool) (o : Ord) (sc : Scope) (w : IW) (d a f : LSrc) (inc : BitVec 18) (s : State) : Out :=
  let t := s.cur
  memIssue
    { op := .stf w, esc := esc, ord := o, scope := sc, cls := .st, dst := .none, kind := .global, acting := t.exec,
      raws := t.stfRaws (iwBits w) d a f inc.toNat, len := 8,
      flags := t.srcFlags a ||| t.srcFlags d ||| t.srcFlags f, resumes := false, reply := false } s

/-! ## Atomics (R158 to R160) -/

/-- The operation and width of `atom` without offset. -/
def atomAux (op : AtomAux) (w : AW) : AtomKind :=
  match op with
  | .add => .int .add w
  | .xchg => .int .xchg w
  | .min => .int .min w
  | .max => .int .max w
/-- The operation of `redm`. -/
def redmKind : RedmKind → AtomKind
  | .add w => .int .add w
  | .fadd f => .fadd f
  | .min w => .int .min w
  | .max w => .int .max w
/-- Bits of an atomic's element. -/
def atomBits : AtomKind → Nat
  | .int _ w => awBits w
  | .fadd f => fwBits f

/-- A lane atomic with its operand in `c` at address `a` plus an offset. -/
def askAtom (esc : Bool) (o : Ord) (sc : Scope) (k : AtomKind) (d : VReg) (a c : LSrc) (off : BitVec 14) (len : Nat)
    (t : Team) : Ask :=
  let xs := t.lanesIn t.actingMask
  { op := .atom k, esc := esc, ord := o, scope := sc, cls := .at, dst := .lane d, kind := .either, acting := t.actingMask,
    raws := laneRaws xs (atomBits k) (fun x => (t.laneSrc 64 a x + off.signExtend 64).toNat) (fun x => t.sub (atomBits k) c x 0) fun _ => 0,
    len := len, flags := t.srcFlagsAt xs a ||| t.srcFlagsAt xs c, resumes := true, reply := true }

def execAtom (esc : Bool) (o : Ord) (sc : Scope) (w : AW) (op : AtomAux) (d : VReg) (a : LSrc) (s : State) : Out :=
  memIssue (askAtom esc o sc (atomAux op w) d a (.v d) 0 4 s.cur) s
def execAtomOffset (esc : Bool) (o : Ord) (sc : Scope) (k : AtomKind) (d : VReg) (a c : LSrc) (off : BitVec 14)
    (s : State) : Out :=
  memIssue (askAtom esc o sc k d a c off 8 s.cur) s
def execCas (esc : Bool) (o : Ord) (sc : Scope) (w : AW) (d : VReg) (a e n : LSrc) (s : State) : Out :=
  let t := s.cur
  let xs := t.lanesIn t.actingMask
  let k := awBits w
  memIssue
    { op := .cas w, esc := esc, ord := o, scope := sc, cls := .at, dst := .lane d, kind := .either,
      acting := t.actingMask,
      raws := laneRaws xs k (fun x => (t.laneSrc 64 a x).toNat) (fun x => t.sub k n x 0) fun x => t.sub k e x 0,
      len := 8, flags := t.srcFlagsAt xs a ||| t.srcFlagsAt xs e ||| t.srcFlagsAt xs n, resumes := true, reply := true } s
def execRedm (o : Ord) (sc : Scope) (op : RedmKind) (d a : LSrc) (s : State) : Out :=
  let t := s.cur
  let k := redmKind op
  memIssue
    { op := .redm k, esc := false, ord := o, scope := sc, cls := .st, dst := .none, kind := .either, acting := t.exec,
      raws := laneRaws t.activeLanes (atomBits k) (fun x => (t.laneSrc 64 a x).toNat) (fun x => t.sub (atomBits k) d x 0) fun _ => 0,
      len := 4, flags := t.srcFlags a ||| t.srcFlags d, resumes := false, reply := false } s

end Sys2Proof.Machine
end

