-- ==== Sys2Proof/Machine/UniMem.lean ====
section
/-! DEFINITION. Uniform loads, stores and atomics, fences and waits (R104, R147, R148, R157, R161). -/
namespace Sys2Proof.Machine
open Sys2Proof

/-! ## Accesses (R157, R161): one element, of no lane -/

/-- A uniform access at a global address. -/
def uniAsk (op : AccOp) (o : Ord) (sc : Scope) (cls : WaitClass) (dst : SDst) (va n arg aux len : Nat) (fl : FFlags) : Ask :=
  { op := op, esc := false, ord := o, scope := sc, cls := cls,
    dst := match dst with | some d => .scalar d | none => .none
    kind := .global, acting := 0, raws := [⟨1024, 0, va, n, arg, aux, false⟩], len := len, flags := fl, resumes := false,
    reply := false }

def execLdu (o : Ord) (sc : Scope) (w : IW) (d : SDst) (a b : USrc) (s : State) : Out :=
  let t := s.cur
  memIssue (uniAsk (.load (.zx w)) o sc .ld d (t.uniSrc a + t.uniSrc b).toNat (iwBits w / 8) 0 0 4
    (t.uniFlags a ||| t.uniFlags b)) s
def execStu (o : Ord) (sc : Scope) (w : IW) (d a b : USrc) (s : State) : Out :=
  let t := s.cur
  memIssue (uniAsk (.store w) o sc .st none (t.uniSrc a + t.uniSrc b).toNat (iwBits w / 8)
    ((t.uniSrc d).toNat % 2 ^ iwBits w) 0 4 (t.uniFlags a ||| t.uniFlags b ||| t.uniFlags d)) s

/-- The operation of `atomu`. -/
def atomuKind : AtomuKind → AtomKind
  | .int op w => .int op w
  | .fadd .w32 => .fadd .f32
  | .fadd .w64 => .fadd .f64

/-- The scalar register that a destination names as an operand; with `nwb` its field names s0 (R60). -/
def dstAsSrc (d : SDst) : USrc := .s (d.getD 0)

def execAtomu (o : Ord) (sc : Scope) (op : AtomuKind) (d : SDst) (a : USrc) (s : State) : Out :=
  let t := s.cur
  let k := atomuKind op
  memIssue (uniAsk (.atom k) o sc .at d (t.uniSrc a).toNat (atomBits k / 8)
    ((t.uniSrc (dstAsSrc d)).toNat % 2 ^ atomBits k) 0 4 (t.uniFlags a ||| t.uniFlags (dstAsSrc d))) s
def execCasu (o : Ord) (sc : Scope) (w : AW) (d : SDst) (a e n : USrc) (s : State) : Out :=
  let t := s.cur
  let m := 2 ^ awBits w
  memIssue (uniAsk (.cas w) o sc .at d (t.uniSrc a).toNat (awBits w / 8) ((t.uniSrc n).toNat % m)
    ((t.uniSrc e).toNat % m) 8 (t.uniFlags a ||| t.uniFlags e ||| t.uniFlags n)) s

/-! ## Fences (R147, R148) -/

/-- A fence waits until what it covers is performed, with the tenure running on. -/
def execFence (o : FenceOrd) (sc : Scope) (s : State) : Out :=
  let p := s.fenceTry (match o with | .acq => false | _ => true) sc
  if p.2 then .next (p.1.onCur fun t => t.advance 4) else stallDrain s

/-- From here on the next tasks of each queue of the set wait for every task issued to a queue of it before. -/
def execQfence (qs : BitVec 4) (s : State) : Out :=
  teamStep 4 (fun t =>
    { t with qfence := Vector.ofFn fun q =>
        if qs.getLsbD q.val then
          Vector.ofFn fun p => if qs.getLsbD p.val then t.qissued[p] else t.qfence[q][p]
        else t.qfence[q] }) s

/-! ## Waits on a class (R78, R104) -/

/-- Outstanding operations of a class. Copies are counted where their channels hold them, and leave the count oldest
first as well (R78). -/
def State.outstanding (s : State) (t : Team) (c : WaitClass) : Nat :=
  match c with
  | .cp => (((s.cluster t.cluster).copies.filter fun k => k.tid == t.tid).dropWhile Copy.delivered).length
  | _ => t.classCount c

/-- Completes at once where at most `n` operations are outstanding; otherwise the tenure ends and the team is not ready
until then. -/
def execWait (c : WaitClass) (n : BitVec 8) (s : State) : Out :=
  if s.outstanding s.cur c ≤ n.toNat then .next (s.onCur fun t => t.advance 4)
  else .next ((s.onCur fun t => t.advance 4).endTenure.setSt (.waitClass c n.toNat))

end Sys2Proof.Machine
end

