-- ==== Sys2Proof/Machine/Lifecycle.lean ====
section
/-! DEFINITION. Teams that become ready when their accesses are performed, and the end of a team and of its group
(R98, R104, R151, R285, R287, R330, R332). -/
namespace Sys2Proof.Machine
open Sys2Proof

/-! ## The end of a group's last team (R98, R285) -/

/-- The reason with which a group conveys: 1 for an exit, or the reason of its kill. -/
def Group.reason (g : Group) : Nat :=
  match g.st with
  | .dying r => r
  | _ => 1

/-- A group whose last team has gone: its holdings are conveyed, or, where it has none, it ends at once. -/
def State.groupDone (s : State) (h : Nat) : State :=
  let g := s.group h
  let s' := s.beginConveyance h g.reason (s.ctxDying g.ctx)
  if (s'.group h).estate.isEmpty && (s'.group h).tests.isEmpty then s'.endGroup h else s'

/-- A team that has drained leaves: its queues' counts stay with its tasks, and the last team of a group ends the group. Its
registers and slot are free, but for the last team's and a killed group's, which the group keeps until its conveyance
completes (R98, R287). -/
def State.finishExit (s : State) (tid : Nat) : State :=
  let t := s.team tid
  let h := t.group
  let last : Bool := !s.teams.any fun u => u.group == h && u.tid != tid
  let s := if t.slotted && (last || (s.group h).killed) then
      s.modGroup h fun g => { g with held := (t.core, t.slot, if t.resident then t.regBytes else 0) :: g.held }
    else s
  let s := if (s.cluster t.cluster).tasks.any fun k => k.tid == tid
    then { s with ghosts := s.ghosts ++ [⟨tid, t.qseq⟩] } else s
  let s := s.dropTeam tid
  if s.teams.any fun u => u.group == h then s else s.groupDone h

/-! ## Progress of one team -/

/-- A resident team becomes ready (R220). -/
def State.makeReady (s : State) (tid : Nat) : State :=
  s.modTeam tid fun t => { t with st := .ready, readyAt := s.ck, readyPrev := false }

/-- Whether an exiting team has nothing left to wait for: a killed one does not wait for its copies (R98, R332). -/
def State.mayLeave (s : State) (t : Team) : Bool :=
  s.drained t.tid && ((s.group t.group).killed || (s.cluster t.cluster).copies.all fun k => k.tid != t.tid || k.delivered)

/-- What a team's finished accesses bring about: a `wait` whose condition holds, a result that an unescorted
instruction waited for, or the end of an `exit`. -/
def State.settle (s : State) (tid : Nat) : State :=
  let s := s.modTeam tid Team.retire
  let t := s.team tid
  match t.st with
  | .waitClass c n => if s.outstanding t c ≤ n then s.makeReady tid else s
  | .waitAcc seq => if t.accs.any fun a => a.seq == seq then s else s.makeReady tid
  | .exiting => if s.mayLeave t then s.finishExit tid else s
  -- killed abroad, or in its save area
  | .abroad => if t.escort.isNone ∧ (s.group t.group).killed ∧ s.mayLeave t then s.finishExit tid else s
  | .saved _ => if (s.group t.group).killed then s.finishExit tid else s
  | _ => s

/-- The same for every team. -/
def State.settleAll (s : State) : State := (s.teams.map Team.tid).foldl State.settle s

/-! ## Exit (R98) -/

/-- `exit`: the team stops issuing, its returned values are discarded, and it leaves once it has drained. -/
def execExit (s : State) : Out :=
  let s := s.endTenure.onCur fun t =>
    { t with st := .exiting, accs := t.accs.map fun a => { a with dst := .none } }
  let tid := s.cur.tid
  .next ((s.forceAll tid).settle tid)

end Sys2Proof.Machine
end

