-- ==== Sys2Proof/Machine/Transfers.lean ====
section
/-! DEFINITION. Copies on channels and the kick unit (R175 to R178, R243 to R245). -/
namespace Sys2Proof.Machine
open Sys2Proof

/-! ## Release (R112, R147) -/

/-- Every access of the team in focus performed at device scope, its combining buffer drained; `none` while one is
not. -/
def State.released (s : State) : Option State :=
  let s1 := (s.forceAll s.cur.tid).applyAllMulti
  if s1.cur.fenced true .dev && (s1.combOf s1.cur).all fun c => c.tid != s1.cur.tid || c.dev != 16
  then some (s1.onCur Team.retire) else none

/-- An instruction that is a release: it stalls, resident and with its tenure running on, until then. -/
def whenReleased (s : State) (f : State → Out) : Out :=
  match s.released with
  | some s' => f s'
  | none => stallDrain s

/-! ## Queueing a copy (R175, R176) -/

/-- Adds a copy of `rows` rows to a channel of the team's group; one of no bytes completes at once. The issue drains the
team's combining buffer (R248). -/
def queueCopy (ch : Fin 8) (d : Nat) (src : Word) (rlen rows spitch dpitch : Nat) (fl : FFlags) (s : State) : Out :=
  let s := (s.drainTeam s.cur.tid).applyAllMulti
  let t := s.cur
  if rlen = 0 ∨ rows = 0 then teamStep 4 (Team.raise · fl) s
  else if 255 ≤ s.outstanding t .cp then stallDrain s
  else
    let k : Copy :=
      { id := s.nextId, tid := t.tid, index := t.index, group := t.group, ctx := s.curCtx, ch := ch, dst := d, src := src, rlen := rlen, rows := rows,
        spitch := spitch, dpitch := dpitch, after := t.nextSeq, done := 0, held := false, delivered := false, kept := false }
    let s := { s with nextId := s.nextId + 1 }
    teamStep 4 (Team.raise · fl) (s.modCluster t.cluster fun c => { c with copies := c.copies ++ [k] })

def execCpy (ch : Fin 8) (d a b : USrc) (s : State) : Out :=
  let t := s.cur
  let n := t.uniSrc b
  let fl := t.uniFlags d ||| t.uniFlags a ||| t.uniFlags b
  if n.toNat ≥ 4294967296 then trapRead fl 6 n s
  else queueCopy ch (t.uniSrc d).toNat (t.uniSrc a) n.toNat 1 0 0 fl s
def execCpy2 (ch : Fin 8) (d a b : USrc) (s : State) : Out :=
  let t := s.cur
  let n := t.uniSrc b
  let rows := bits n 16 16
  let fl := t.uniFlags d ||| t.uniFlags a ||| t.uniFlags b
  if 1 < rows ∧ 16 * bits n 48 16 < bits n 0 16 then trapRead fl 6 n s
  else queueCopy ch (t.uniSrc d).toNat (t.uniSrc a) (bits n 0 16) rows (16 * bits n 32 16) (16 * bits n 48 16) fl s

/-! ## Delivery (R243 to R245) -/

/-- The groups of a channel number with copies there, and the first copy of each. -/
def heads (l : List Copy) (ch : Nat) : List Copy :=
  (l.filter fun k => k.ch.val == ch && !k.delivered).foldl (fun acc k => if acc.any fun h => h.group == k.group then acc else acc ++ [k]) []

/-- Whether a copy may read its source: the earlier stores of its team are performed (R175). -/
def State.copyReady (s : State) (k : Copy) : Bool :=
  let t := s.team k.tid
  t.tid == 0 || (t.accs.all (fun a => decide (k.after ≤ a.seq) || a.op.isLoad || a.performed) &&
    (s.combOf t).all fun c => c.tid != k.tid)

/-- Where one byte of a copy lies: its source, of the kind Either or remote scratchpad, and its destination. -/
def State.copySrc (s : State) (cl : Nat) (ctx : Nat) (g : Group) (a : Word) : State × Except XFault Place :=
  if bits a 56 8 = 0xFE then
    let c := bits a 32 7
    let off := bits a 0 22
    (s, if (s.groups.any fun x => x.cluster == c && x.ctx == ctx && s.ownsSpad x off 1) then .ok ⟨.spad c off, .spad, 0⟩
      else .error .access)
  else s.place cl { g with ctx := ctx, cluster := cl } .either a.toNat 1 0
def State.copyDst (s : State) (cl : Nat) (ctx : Nat) (g : Group) (a : Nat) : State × Except XFault Place :=
  s.place cl { g with ctx := ctx, cluster := cl } .either a 1 1

/-- Why a unit of a copy is not delivered: a fault with its address and access kind, or a link that holds its traffic. -/
inductive CopyStop where
  | fault (x : XFault) (va acc : Nat)
  | link
deriving DecidableEq, Repr

/-- Where a copy may act: no page of a pod peer, which no rule admits, and no replicated page (R252). -/
def State.copyPlace (s : State) (cl va acc : Nat) : Except XFault Place → Except CopyStop Target
  | .error x => .error (.fault x va acc)
  | .ok pl =>
    match pl.tgt, pl.kind with
    | .remote _ _, _ | _, .replicated _ => .error (.fault .access va acc)
    | .hbm pa, _ => if s.linkOpen (dieOf cl) pl.slice then .ok (.hbm pa) else .error .link
    | tgt, _ => .ok tgt

/-- Places the bytes of one unit, each byte's source before its destination; the slices carry requests of the group (R232). -/
def State.placeUnit (s : State) (cl ctx : Nat) (g : Group) (src : Word) (dst : Nat) :
    Nat → State × Except CopyStop (List (Target × Target))
  | 0 => (s, .ok [])
  | n + 1 =>
    let p := s.placeUnit cl ctx g src dst n
    match p.2 with
    | .error e => (p.1, .error e)
    | .ok l =>
      let a := src + word n
      if (bits a 56 8 ≠ 0xFE ∧ !p.1.wayOpen cl ctx .either a.toNat) ∨ !p.1.wayOpen cl ctx .either ((dst + n) % 2 ^ 64) then
        (p.1, .error .link)
      else
      let x := p.1.copySrc cl ctx g (src + word n)
      let y := x.1.copyDst cl ctx g ((dst + n) % 2 ^ 64)
      match x.1.copyPlace cl (src + word n).toNat 0 x.2, y.1.copyPlace cl ((dst + n) % 2 ^ 64) 1 y.2 with
      | .error e, _ => (x.1, .error e)
      | _, .error e => (y.1, .error e)
      | .ok a, .ok b => ((y.1.notePlace g.handle x.2).notePlace g.handle y.2, .ok (l ++ [(a, b)]))

/-- The bytes of a unit: each source byte as it is once the destination bytes below it are written (R244). -/
def State.unitBytes (s : State) (l : List (Target × Target)) : List Byte :=
  (l.foldl (fun (acc : List (Target × Byte)) p =>
    acc ++ [(p.2, match acc.find? fun q => q.1 == p.1 with | some q => q.2 | none => BitVec.ofNat 8 (s.readAt p.1 1))]) []).map Prod.snd

/-- Writes a unit of a copy at once. Poison goes with the bytes (R400). -/
def State.putUnit (s : State) (id : Nat) (l : List (Target × Target)) : State :=
  match l with
  | [] => s
  | (_, b) :: _ =>
    let bad := l.any fun p => s.poisonedAt p.1 1
    let s := s.store b l.length (leNat (s.unitBytes l))
    if bad then (poisonKeys b l.length).foldl State.markPoison s else s.noteStore (0, id) b l.length

/-- Byte `i` of a copy, its rows one after another: its place in its row, its source and its destination. -/
def Copy.off (k : Copy) (i : Nat) : Nat := i % max k.rlen 1
def Copy.srcAt (k : Copy) (i : Nat) : Word := k.src + word (i / max k.rlen 1 * k.spitch + k.off i)
def Copy.dstAt (k : Copy) (i : Nat) : Nat := k.dst + i / max k.rlen 1 * k.dpitch + k.off i
def Copy.total (k : Copy) : Nat := k.rlen * k.rows

/-- Moves bytes `i` up to `n` of a copy in the aligned 8-byte units of the destination, in ascending order, each written at
once; stops at the first that it cannot deliver (R243, R244). -/
def State.moveUnits (s : State) (cl : Nat) (g : Group) (k : Copy) (n : Nat) : Nat → Nat → State × Nat × Option CopyStop
  | 0, i => (s, i, none)
  | f + 1, i =>
    if n ≤ i then (s, i, none)
    else
      let u := min (8 - k.dstAt i % 8) (min (n - i) (k.rlen - k.off i))
      let p := s.placeUnit cl k.ctx g (k.srcAt i) (k.dstAt i) u
      match p.2 with
      | .error e => (p.1, i, some e)
      | .ok l => (p.1.putUnit k.id l).moveUnits cl g k n f (i + u)

/-- Acknowledgements whose copies have all ended arrive at their senders, and their entries are free (R178). -/
def State.sendAcks (s : State) : State :=
  let live (id : Nat) : Bool := s.clusters.any fun c => c.copies.any fun k => k.id == id && !k.delivered
  let due (k : Kick) : Bool := match k.acked with | some l => !l.any live | none => false
  s.groups.foldl (fun s g =>
    let s' := (g.kicks.filter due).foldl (fun s k =>
      match s.group? k.sender with
      | none => s
      | some _ =>
        let tgt := Target.spad k.cluster k.barrier
        s.store tgt 8 (arriveWord (word (s.readAt tgt 8)) 1).toNat) s
    if g.kicks.any due then s'.modGroup g.handle fun g => { g with kicks := g.kicks.filter fun k => !due k } else s') s

/-- Conveyed channel holdings leave their estate when the channel drains (R290). -/
def State.leaveChannels (s : State) : State :=
  let busy (h n : Nat) : Bool := s.clusters.any fun c => c.copies.any fun k => k.group == h && k.ch.val == n && !k.delivered
  { s with groups := s.groups.map fun g => { g with estate := g.estate.filter fun e =>
      !(e.kind == 4 && e.conveyed && !busy e.owner e.obj.toNat) } }

/-- What follows when copies have left their channels. -/
def State.copiesLeft (s : State) : State := s.sendAcks.leaveChannels.settleAll

/-- A copy that has delivered its last byte leaves with the older ones of its team: a class empties oldest first (R78). -/
def State.dropDelivered (s : State) (cl tid : Nat) : State :=
  s.modCluster cl fun c => { c with copies :=
    (c.copies.filter fun k => !(k.tid == tid && k.delivered && c.copies.all fun x => x.tid != tid || x.delivered || decide (k.id < x.id))) }

/-- Sets a copy's fields in its cluster. -/
def State.modCopy (s : State) (cl id : Nat) (f : Copy → Copy) : State :=
  s.modCluster cl fun c => { c with copies := updWhere (fun k => k.id == id) f c.copies }

/-- A copy that met a non-replayable fault stops, with those queued behind it; its team or supervisor is told. -/
def State.stopCopy (s : State) (cl : Nat) (k : Copy) (addr : Nat) : State :=
  let s := s.modCluster cl fun c => { c with copies := c.copies.filter fun x => x.delivered || !(x.group == k.group && x.ch == k.ch) }
  let s := s.dropDelivered cl k.tid
  let t := s.team k.tid
  let s := if t.tid ≠ 0 ∧ t.st ≠ .exiting then s.pendTrap k.tid 6 (word addr)
    else s.queueRec k.ctx cl [eventRec 4 6 k.index k.group 0 (word addr) 0]
  s.copiesLeft

/-- The group in whose name a queue's task or a channel's copy acts: its own while it lives, and then the heir that
holds the queue or channel (R290). -/
def State.actingGroup (s : State) (h ctx cl kind owner obj : Nat) : Group :=
  match s.group? h with
  | some g => g
  | none =>
    match s.groups.find? fun g => g.estate.any fun e => e.kind == kind && e.owner == owner && e.obj == word obj with
    | some g => g
    | none => { Group.empty with ctx := ctx, cluster := cl }

/-- Where the next piece of a copy ends: after at most 256 of its bytes, at the end of an 8-byte unit of the destination or
of a row. -/
def Copy.pieceEnd (k : Copy) : Nat :=
  let e := k.done + 256
  if k.total ≤ e then k.total else e - min (k.dstAt e % 8) (k.off e)

/-- One piece of a copy at the head of its group's channel. -/
def State.copyPiece (s : State) (cl : Nat) (k : Copy) : State :=
  if k.held ∨ !s.copyReady k then s
  else
    let g := s.actingGroup k.group k.ctx cl 4 k.group k.ch.val
    let n := k.pieceEnd
    let r := s.moveUnits cl g k n (n - k.done) k.done
    let done := r.2.1
    let moved := done - k.done
    let s := r.1.modGroup k.group fun g => { g with cwp := g.cwp.set k.ch.val (g.cwp[k.ch] + word moved) }
    let s := s.modCluster cl fun c =>
      { c with served := c.served.set k.ch.val ((c.served[k.ch].filter fun h => h != k.group) ++ [k.group]) }
    match r.2.2 with
    | none | some .link =>
      if k.total ≤ done then
        ((s.modCopy cl k.id fun x => { x with done := done, delivered := true }).dropDelivered cl k.tid).copiesLeft
      else s.modCopy cl k.id fun x => { x with done := done }
    | some (.fault .replay va acc) =>
      (s.modCopy cl k.id fun x => { x with done := done, held := true }).addFault cl
        ⟨k.ctx, va, acc, 4, cl, k.group, .copy cl k.id⟩
    | some (.fault .access va _) => s.stopCopy cl k va

/-! ## Kicks (R177) -/

/-- A notice as the kick unit sends it. -/
def noticeWord (b : Word) (cluster : Nat) : Word := setBits (setBits b 32 8 (cluster % 128)) 56 8 0xFE

/-- Puts a notice into a group's kick queue; `none` while it is full. A notice to no living group of the context is
dropped, and its sender is told. -/
def State.postKick (s : State) (g : Group) (target barrier : Nat) (notice : Word) : Option State :=
  let live (h : Group) : Bool := h.ctx == g.ctx && h.st == .alive
  match (s.group? target).filter live with
  | none => some (s.bereavedArrival g.handle g.cluster barrier)
  | some h =>
    if 16 ≤ h.kicks.length then none
    else some (s.modGroup target fun x => { x with kicks := x.kicks ++ [⟨notice, g.handle, g.cluster, barrier, false, none⟩] })

/-- `kick` parks at the cluster's unit while the queue of its target is full. -/
def execKick (a b : USrc) (s : State) : Out :=
  let t := s.cur
  let x := t.uniSrc a
  let bar := bits x 32 22
  let fl := t.uniFlags a ||| t.uniFlags b
  if bar % 8 ≠ 0 then trapRead fl 5 (word bar) s
  else if !s.ownsSpad s.curGroup bar 8 then trapRead fl 6 (word bar) s
  else
    whenReleased s fun s1 =>
      let notice := noticeWord (t.uniSrc b) t.cluster
      match s1.postKick s1.curGroup (bits x 0 32) bar notice with
      | some s2 => teamStep 4 (Team.raise · fl) s2
      | none => parkTeam s1 (s1.onCur (Team.raise · fl)) (.kick (bits x 0 32) bar notice) 4 .unit

/-! ## Taking and acknowledging notices (R178) -/

def execKpop (d : SDst) (s : State) : Out :=
  match s.curGroup.kicks.find? fun k => !k.popped with
  | none => teamStep 4 (fun t => t.setSDst d 0) s
  | some k =>
    let s := s.modGroup s.cur.group fun g =>
      { g with kicks := updFirst (fun k => !k.popped) (fun k => { k with popped := true }) g.kicks }
    teamStep 4 (fun t => t.setSDst d k.notice) s

/-- The arrival of `kack` follows the copies that its team has issued, and is a release. -/
def execKack (a : USrc) (s : State) : Out :=
  whenReleased s fun s =>
    let t := s.cur
    let mine (k : Kick) : Bool := k.popped && k.acked.isNone && k.notice == t.uniSrc a
    let ids := ((s.cluster t.cluster).copies.filter fun k => k.tid == t.tid).map Copy.id
    let s := s.modGroup t.group fun g =>
      { g with kicks := updFirst mine (fun k => { k with acked := some ids }) g.kicks }
    teamStep 4 (Team.raise · (t.uniFlags a)) s.sendAcks

end Sys2Proof.Machine
end

