-- ==== Sys2Proof/Machine/Graph.lean ====
section
/-! DEFINITION. `emit`, `launch` and `sys`: records to successor stages, new launches, and services of the device OS
(R111 to R113, R313, R316). -/
namespace Sys2Proof.Machine
open Sys2Proof

/-! ## emit (R112, R313) -/

/-- What an attempt to append finds. -/
inductive EmitTry where
  | done (s : State)
  | full
  /-- A slot that takes a translation fault, and one that refuses the append. -/
  | held (va : Nat)
  | refused (va : Nat)
deriving DecidableEq, Repr

/-- The record that `emit` reads: bytes of scratchpad. -/
def State.recordBytes (s : State) (c off n : Nat) : List Byte := tabulate n fun i => s.spadByte c (off + i)

/-- The successor stage k of a group, where its stage declares it. -/
def State.successor (s : State) (g : Group) (k : Fin 4) : Option Nat := nth none ((s.launch g.launch).stage g.stage).next k.val

/-- Appends the record of a team to successor k, if its queue can take it now: fewer than C occupied slots, and the
next one free. -/
def State.tryEmit (s : State) (tid : Nat) (k : Fin 4) (off len : Nat) : EmitTry :=
  let t := s.team tid
  let g := s.group t.group
  match s.successor g k with
  | none => .full
  | some j =>
    let st := (s.launch g.launch).stage j
    if !(st.queue g.cluster).slotFree st (s.reservedRoom g.launch j g.cluster) then .full
    else
      match s.appendRecord g.launch j g.cluster (s.recordBytes g.cluster off len) none with
      | .ok s' => .done s'
      | .error (.replay, va) => .held va
      | .error (.access, va) => .refused va

/-- Ends an `emit` of the team in focus at issue with a status; its combining entries drain all the same (R248). -/
def emitStatus (d : SDst) (fl : FFlags) (st : Nat) (s : State) : Out :=
  teamStep 4 (fun t => (t.raise fl).uniResult d (word st)) (s.drainTeam s.cur.tid)

def execEmit (k : Fin 4) (d : SDst) (a b : USrc) (s : State) : Out :=
  let t := s.cur
  let g := s.curGroup
  let off := (t.uniSrc a).toNat
  let n := (t.uniSrc b).toNat
  let fl := t.uniFlags a ||| t.uniFlags b
  let top := g.spadBase + g.spadBytes
  if off % 8 ≠ 0 then trapRead fl 5 (word off) s
  else if n = 0 ∨ 256 < n then emitStatus d fl 2 s
  else if off < g.spadBase ∨ top < off + n then trapRead fl 6 (word (if off < g.spadBase then off else max off top)) s
  else if (s.successor g k).isNone then emitStatus d fl 1 s
  else if (s.launch g.launch).ending then emitStatus d fl 3 s
  else
    whenReleased s fun s1 =>
      let park (what : State → State) : Out :=
        match parkTeam s1 (s1.onCur (Team.raise · fl)) (.emit k off n d) 4 .unit with
        | .next s2 => .next (if s2.cur.escort.isSome then what s2 else s2)
        | o => o
      match s1.tryEmit t.tid k off n with
      | .done s2 => emitStatus d fl 0 s2
      | .full => park id
      | .held va => park fun s2 => s2.addFault t.cluster ⟨g.ctx, va, 1, 2, t.cluster, g.handle, .append t.tid⟩
      | .refused va => trapRead fl 6 (word va) s1

/-! ## launch (R113) -/

/-- Always parks until the launch unit has examined the header. -/
def execLaunch (d : SDst) (a : USrc) (s : State) : Out :=
  let t := s.cur
  let hdr := t.uniSrc a
  if hdr.toNat % 64 ≠ 0 then trapRead (t.uniFlags a) 5 hdr s
  else
    whenReleased s fun s1 =>
      parkTeam s1 (s1.onCur (Team.raise · (t.uniFlags a))) (.launch hdr.toNat d none) 4 .unit

/-! ## sys (R111, R326) -/

/-- The two slots of a service request. -/
def sysRec (code team group : Nat) (args : List Word) : List (List Word) :=
  [eventRec 2 0 team group (word code) (nth 0 args 0) (nth 0 args 1),
    eventRec 0x3F 0 team group (nth 0 args 2) (nth 0 args 3) 0]

/-- Queues the request and parks until its answer. A code above 0xFFFF is world 0's. -/
def execSys (code : BitVec 18) (s : State) : Out :=
  let t := s.cur
  let g := s.curGroup
  -- the arguments are not read where the code is not the world's
  if 0x10000 ≤ code.toNat ∧ s.ctxWorld g.ctx ≠ 0 then trapAt 3 (code.setWidth 64) s
  else
    let args := [t.s[4], t.s[5], t.s[6], t.s[7]]
    let fl := t.sFlags 4 ||| t.sFlags 5 ||| t.sFlags 6 ||| t.sFlags 7
    match parkTeam s (s.onCur (Team.raise · fl)) (.sys code.toNat false args none) 4 .unit with
    | .next s2 =>
      if s2.cur.escort.isSome then
        .next { s2 with supRecs := s2.supRecs ++
          [⟨none, g.ctx, sysRec code.toNat t.index g.handle args, t.cluster, false, some t.tid⟩] }
      else .next s2
    | o => o

end Sys2Proof.Machine
end

