-- ==== Sys2Proof/Machine/FloatFun.lean ====
section
/-! DEFINITION. The special functions (R134): each exact value rounded once. Reciprocals and roots come from integer
division and integer square roots; the transcendental functions from fixed-point bounds that are narrowed until
both bounds round to one code. -/
namespace Sys2Proof.Machine
open Sys2Proof

/-- The integer square root of `n`, for a root below 2^k. -/
def isqrtBits (n : Nat) : Nat → Nat → Nat
  | 0, r => r
  | k + 1, r => if (r + 2 ^ k) * (r + 2 ^ k) ≤ n then isqrtBits n k (r + 2 ^ k) else isqrtBits n k r
def isqrt (n : Nat) : Nat := isqrtBits n (Nat.log2 n / 2 + 1) 0

/-- A magnitude a little above n * 2^e, and equal to it when `exact`: one more bit holds the remainder. -/
def withSticky (n : Nat) (e : Int) (exact : Bool) : Nat × Int := (2 * n + b2n (!exact), e - 1)

/-- 1 / (m * 2^e) to more bits than any format has (R134). -/
def recipMag (m : Nat) (e : Int) : Nat × Int :=
  let k := Nat.log2 m + 60
  withSticky (2 ^ k / m) (-(k : Int) - e) (2 ^ k % m == 0)

/-- √(m * 2^e). -/
def sqrtMag (m : Nat) (e : Int) : Nat × Int :=
  let odd := e % 2 != 0
  let m' := if odd then 2 * m else m
  let e' := if odd then e - 1 else e
  let n := m' * 2 ^ 120
  let r := isqrt n
  withSticky r (e' / 2 - 60) (r * r == n)

/-- 1 / √(m * 2^e). -/
def rsqrtMag (m : Nat) (e : Int) : Nat × Int :=
  let odd := e % 2 != 0
  let m' := if odd then 2 * m else m
  let e' := if odd then e - 1 else e
  let k := Nat.log2 m' + 62
  let n := 2 ^ (2 * k) / m'
  let r := isqrt n
  withSticky r (-(k : Int) - e' / 2) (r * r * m' == 2 ^ (2 * k))

/-! ## Fixed point at scale 2^p -/

/-- Sum of z^(2k+1) / (2k+1) from a power `t` of z on, `z2` being z squared, with terms of alternating sign when
`alt`; stops at a zero term. -/
def oddSeries (p : Nat) (alt : Bool) (z2 : Nat) : Nat → Nat → Nat → Bool → Int → Int
  | 0, _, _, _, acc => acc
  | fuel + 1, t, k, neg, acc =>
    if t = 0 then acc
    else
      let u : Int := (t / k : Nat)
      oddSeries p alt z2 fuel (t * z2 / 2 ^ p) (k + 2) (alt && !neg) (if neg then acc - u else acc + u)

/-- arctan(1 / n) and artanh(1 / n) at scale 2^p. -/
def arctanInv (p n : Nat) : Int := oddSeries p true (2 ^ p / (n * n)) (p + 1) (2 ^ p / n) 1 false 0
def artanhInv (p n : Nat) : Int := oddSeries p false (2 ^ p / (n * n)) (p + 1) (2 ^ p / n) 1 false 0

/-- π and ln 2 at scale 2^p. -/
def piFix (p : Nat) : Int := 4 * (4 * arctanInv p 5 - arctanInv p 239)
def ln2Fix (p : Nat) : Int := 2 * artanhInv p 3

/-- Sum of x^k / k! from term `t`, the next divisor being `k`. -/
def expSeries (p : Nat) (x : Nat) : Nat → Nat → Nat → Nat → Nat
  | 0, _, _, acc => acc
  | fuel + 1, t, k, acc => if t = 0 then acc else expSeries p x fuel (t * x / 2 ^ p / k) (k + 1) (acc + t)

/-- Sum of (-1)^j x^(2j + i) / (2j + i)! from term `t`, the next two divisors being `k` and `k + 1`. -/
def trigSeries (p : Nat) (x2 : Nat) : Nat → Nat → Nat → Bool → Int → Int
  | 0, _, _, _, acc => acc
  | fuel + 1, t, k, neg, acc =>
    if t = 0 then acc
    else trigSeries p x2 fuel (t * x2 / 2 ^ p / (k * (k + 1))) (k + 2) (!neg)
      (if neg then acc - (t : Int) else acc + (t : Int))

/-- sin and cos of a reduced argument r at scale 2^p. -/
def sinFix (p : Nat) (r : Int) : Int :=
  let x := r.natAbs
  let v := trigSeries p (x * x / 2 ^ p) (p + 1) x 2 false 0
  if r < 0 then -v else v
def cosFix (p : Nat) (r : Int) : Int :=
  let x := r.natAbs
  trigSeries p (x * x / 2 ^ p) (p + 1) (2 ^ p) 1 false 0

/-- A magnitude m * 2^e at scale 2^p, exact when p is at least -e. -/
def toFix (p : Nat) (m : Nat) (e : Int) : Nat :=
  if 0 ≤ e + p then m * 2 ^ (e + p).toNat else m / 2 ^ (-(e + p)).toNat

/-- The functions that no finite computation gives exactly. -/
inductive TransFn where | ex2 | lg2 | sin | cos
deriving DecidableEq, Repr

/-- The value of a function at (-1)^neg * m * 2^e at scale 2^p, with the power of two it is still to be scaled by;
wrong by less than 32 (p + 16). -/
def transFix (fn : TransFn) (p : Nat) (neg : Bool) (m : Nat) (e : Int) : Int × Int :=
  match fn with
  | .ex2 =>
    let x : Int := (toFix p m e : Nat)
    let x := if neg then -x else x
    let n := x / (2 ^ p : Nat)
    let fr := (x - n * (2 ^ p : Nat)).toNat
    ((expSeries p ((fr * (ln2Fix p).toNat) / 2 ^ p) (p + 1) (2 ^ p) 1 0 : Nat), n)
  | .lg2 =>
    let l := Nat.log2 m
    let n := (l : Int) + e
    let y := toFix p m (-(l : Int))
    let z := (y - 2 ^ p) * 2 ^ p / (y + 2 ^ p)
    let ln := 2 * oddSeries p false (z * z / 2 ^ p) (p + 1) z 1 false 0
    (n * (2 ^ p : Nat) + ln * (2 ^ p : Nat) / ln2Fix p, 0)
  | .sin | .cos =>
    -- the quotient by π/2 needs as many more bits of π as the argument has before the point
    let w := p + (max 0 (log2Floor m e + 1)).toNat + 8
    let x : Int := (toFix w m e : Nat)
    let x := if neg then -x else x
    let h := piFix w / 2
    let k := (2 * x + h) / (2 * h)
    let r := (x - k * h) / (2 ^ (w - p) : Nat)
    let q := (if fn = .sin then k else k + 1) % 4
    (if q = 0 then sinFix p r else if q = 1 then cosFix p r else if q = 2 then -sinFix p r else -cosFix p r, 0)

/-- Rounds to nearest-even a value known to lie strictly between two bounds at scale 2^p; none if they round
apart. -/
def roundBetween (f : Fmt) (p : Nat) (sc : Int) (lo hi : Int) : Option (Nat × FFlags) :=
  if (0 < lo ∧ 0 < hi) ∨ (lo < 0 ∧ hi < 0) then
    let enc (z : Int) : Nat × FFlags :=
      encodeBin f .rne false false (z < 0) z.natAbs (sc - p - 1)
    let a := enc (2 * lo + 1)
    let b := enc (2 * hi - 1)
    if a = b then some a else none
  else none

/-- Narrows the bounds until they round together; each try has twice the bits of the one before. -/
def transRound (f : Fmt) (fn : TransFn) (neg : Bool) (m : Nat) (e : Int) : Nat → Nat → Option (Nat × FFlags)
  | 0, _ => none
  | tries + 1, extra =>
    let p := extra + (max 0 (-e)).toNat
    let v := transFix fn p neg m e
    let err : Int := 32 * (p + 16)
    match roundBetween f p v.2 (v.1 - err) (v.1 + err) with
    | some r => some r
    | none => transRound f fn neg m e tries (2 * extra)

/-- The rounded value of a transcendental function at a finite nonzero argument; where six doublings have not
decided it, a free value. -/
def transVal (f : Fmt) (fn : TransFn) (code neg : Nat) (m : Nat) (e : Int) : Nat × FFlags :=
  (transRound f fn (neg == 1) m e 7 96).getD (Config.hardCase code % 2 ^ f.bits, flagNX)

/-- 2^n for a huge |n|: overflow or total underflow with the flags of R26. -/
def hugePow (f : Fmt) (neg : Bool) : Nat × FFlags :=
  encodeBin f .rne false false false 3 (if neg then -20000 else 20000)

/-- `frcp` (R134). -/
def floatRcp (f : Fmt) (a : Nat) : Nat × FFlags :=
  match decodeFmt f a with
  | .nan s => (f.nanCode, flagIf s flagNV)
  | .inf n => (signCode f n, 0)
  | .fin n m e =>
    if m = 0 then (signCode f n + f.infCode, flagDZ)
    else let r := recipMag m e; encodeBin f .rne false false n r.1 r.2

/-- `frsq` (R134). -/
def floatRsq (f : Fmt) (a : Nat) : Nat × FFlags :=
  match decodeFmt f a with
  | .nan s => (f.nanCode, flagIf s flagNV)
  | .inf n => if n then (f.nanCode, flagNV) else (0, 0)
  | .fin n m e =>
    if m = 0 then (signCode f n + f.infCode, flagDZ)
    else if n then (f.nanCode, flagNV)
    else let r := rsqrtMag m e; encodeBin f .rne false false false r.1 r.2

/-- `fsqrt`, by `%frm` (R134). -/
def floatSqrt (f : Fmt) (mode : RMode) (a : Nat) : Nat × FFlags :=
  match decodeFmt f a with
  | .nan s => (f.nanCode, flagIf s flagNV)
  | .inf n => if n then (f.nanCode, flagNV) else (f.infCode, 0)
  | .fin n m e =>
    if m = 0 then (signCode f n, 0)
    else if n then (f.nanCode, flagNV)
    else let r := sqrtMag m e; encodeBin f mode false false false r.1 r.2

/-- The integer that m * 2^e is, if it is one. -/
def asInteger (neg : Bool) (m : Nat) (e : Int) : Option Int :=
  let r := roundAt .rtz neg m e 0
  if r.2 then none else some (if neg then -(r.1 : Int) else r.1)

/-- `fex2` (R134). -/
def floatEx2 (f : Fmt) (a : Nat) : Nat × FFlags :=
  match decodeFmt f a with
  | .nan s => (f.nanCode, flagIf s flagNV)
  | .inf n => if n then (0, 0) else (f.infCode, 0)
  | .fin n m e =>
    if m = 0 then encodeBin f .rne false false false 1 0
    else if 13 < log2Floor m e then hugePow f n
    else match asInteger n m e with
      | some k => encodeBin f .rne false false false 1 k
      | none => transVal f .ex2 a (b2n n) m e

/-- `flg2` (R134). -/
def floatLg2 (f : Fmt) (a : Nat) : Nat × FFlags :=
  match decodeFmt f a with
  | .nan s => (f.nanCode, flagIf s flagNV)
  | .inf n => if n then (f.nanCode, flagNV) else (f.infCode, 0)
  | .fin n m e =>
    if m = 0 then (signCode f true + f.infCode, flagDZ)
    else if n then (f.nanCode, flagNV)
    else if m = 2 ^ Nat.log2 m then
      let k := log2Floor m e
      encodeBin f .rne false false (k < 0) k.natAbs 0
    else transVal f .lg2 a 0 m e

/-- `fsin` and `fcos` (R134). -/
def floatSin (f : Fmt) (a : Nat) : Nat × FFlags :=
  match decodeFmt f a with
  | .nan s => (f.nanCode, flagIf s flagNV)
  | .inf _ => (f.nanCode, flagNV)
  | .fin n m e => if m = 0 then (signCode f n, 0) else transVal f .sin a (b2n n) m e
def floatCos (f : Fmt) (a : Nat) : Nat × FFlags :=
  match decodeFmt f a with
  | .nan s => (f.nanCode, flagIf s flagNV)
  | .inf _ => (f.nanCode, flagNV)
  | .fin n m e => if m = 0 then encodeBin f .rne false false false 1 0 else transVal f .cos a (b2n n) m e

end Sys2Proof.Machine
end

