-- ==== Sys2Proof/Machine/LaneFloat.lean ====
section
/-! DEFINITION. Float, conversion, special-function and modular instructions of the lane set (R127 to R136). -/
namespace Sys2Proof.Machine
open Sys2Proof

/-! ## Shared forms -/

/-- Sub-elements computed with their flags (R33). -/
def subsWith (w n : Nat) (f : Nat → Nat × FFlags) : Word × FFlags :=
  let l := tabulate n f
  (fromSubs w n fun j => (nth (0, 0) l j).1, flagUnion (l.map Prod.snd))

/-- A lane result whose lanes raise flags: those of the active lanes are ORed into `%fflags` with `fl`, the flags of
the operand reads (R33). -/
def Team.laneResultF (t : Team) (d : VDst) (fl : FFlags) (val : Nat → Word × FFlags) : Team :=
  let l := tabulate t.lanes fun x => if t.active x then val x else (0, 0)
  (t.raise (fl ||| flagUnion (l.map Prod.snd))).laneResult d fun x => (nth (0, 0) l x).1

/-- A float instruction of one or two sources, per sub-element, in the format and mode of the team. -/
def float2 (w : FW) (d : VDst) (a b : LSrc) (f : Fmt → RMode → Nat → Nat → Nat × FFlags) (s : State) : Out :=
  let n := fwBits w
  teamStep 4 (fun t => t.laneResultF d (t.srcFlags a ||| t.srcFlags b) fun x =>
    subsWith n (64 / n) fun j => f (fwFmt w) (modeOf t.frm) (t.sub n a x j) (t.sub n b x j)) s
def float1 (w : FW) (d : VDst) (a : LSrc) (f : Fmt → RMode → Nat → Nat × FFlags) (s : State) : Out :=
  let n := fwBits w
  teamStep 4 (fun t => t.laneResultF d (t.srcFlags a) fun x =>
    subsWith n (64 / n) fun j => f (fwFmt w) (modeOf t.frm) (t.sub n a x j)) s

/-- A fused multiply-add with the old d as addend. -/
def float2d (w : FW) (d : VDst) (a b : LSrc) (ftz : Bool) (s : State) : Out :=
  let n := fwBits w
  teamStep 4 (fun t => t.laneResultF d (t.srcFlags a ||| t.srcFlags b ||| t.oldFlags d) fun x =>
    subsWith n (64 / n) fun j =>
      floatFma (fwFmt w) (modeOf t.frm) ftz false false (t.sub n a x j) (t.sub n b x j) (subEl n (t.old d x) j)) s

/-- A float compare of sub-element 0 into a mask (R129): `p` gives the bit and the flags. -/
def floatCmp (w : FW) (d : MDst) (a b : LSrc) (p : FVal → FVal → Bool × FFlags) (s : State) : Out :=
  let n := fwBits w
  teamStep 4 (fun t =>
    let r (x : Nat) := p (decodeFmt (fwFmt w) (t.sub n a x 0)) (decodeFmt (fwFmt w) (t.sub n b x 0))
    let fl := flagUnion (t.activeLanes.map fun x => (r x).2)
    (t.raise (t.srcFlags a ||| t.srcFlags b ||| fl)).setMask d (maskOf t.lanes fun x => t.active x && (r x).1)) s

/-! ## Arithmetic (R127, R18) -/

def execFadd (w : FW) (d : VDst) (a b : LSrc) (s : State) : Out := float2 w d a b (floatAdd · · false) s
def execFsub (w : FW) (d : VDst) (a b : LSrc) (s : State) : Out := float2 w d a b (floatSub · · false) s
def execFmul (w : FW) (d : VDst) (a b : LSrc) (s : State) : Out := float2 w d a b (floatMul · · false) s
def execFma (w : FW) (d : VDst) (a b : LSrc) (s : State) : Out := float2d w d a b false s
def execFaddFtz (w : FW) (d : VDst) (a b : LSrc) (s : State) : Out := float2 w d a b (floatAdd · · true) s
def execFsubFtz (w : FW) (d : VDst) (a b : LSrc) (s : State) : Out := float2 w d a b (floatSub · · true) s
def execFmulFtz (w : FW) (d : VDst) (a b : LSrc) (s : State) : Out := float2 w d a b (floatMul · · true) s
def execFmaFtz (w : FW) (d : VDst) (a b : LSrc) (s : State) : Out := float2d w d a b true s
/-- A wide instruction: the addend is the tail's register (R63). -/
def execFma3 (w : FW) (d : VDst) (a b c : LSrc) (ftz np na : Bool) (s : State) : Out :=
  let n := fwBits w
  teamStep 8 (fun t => t.laneResultF d (t.srcFlags a ||| t.srcFlags b ||| t.srcFlags c) fun x =>
    subsWith n (64 / n) fun j =>
      floatFma (fwFmt w) (modeOf t.frm) ftz np na (t.sub n a x j) (t.sub n b x j) (t.sub n c x j)) s

/-! ## Minimum, sign, rounding, class (R128) -/

/-- A NaN becomes the canonical one; any other value gets sign `sg` of its old one. -/
def floatSign (f : Fmt) (sg : Bool → Bool) (a : Nat) : Nat × FFlags :=
  match decodeFmt f a with
  | .nan s => (f.nanCode, flagIf s flagNV)
  | v => (a % 2 ^ (f.bits - 1) + signCode f (sg v.neg), 0)

def execFmin (w : FW) (d : VDst) (a b : LSrc) (s : State) : Out := float2 w d a b (fun f _ => floatMinMax f true) s
def execFmax (w : FW) (d : VDst) (a b : LSrc) (s : State) : Out := float2 w d a b (fun f _ => floatMinMax f false) s
def execFabs (w : FW) (d : VDst) (a : LSrc) (s : State) : Out := float1 w d a (fun f _ => floatSign f fun _ => false) s
def execFneg (w : FW) (d : VDst) (a : LSrc) (s : State) : Out := float1 w d a (fun f _ => floatSign f not) s
def execFrnd (w : FW) (d : VDst) (a : LSrc) (s : State) : Out := float1 w d a floatRound s
def execFclass (w : FW) (d : VDst) (a : LSrc) (s : State) : Out :=
  float1 w d a (fun f _ x => (floatClass f x, 0)) s

/-! ## Compares (R129) -/

/-- NV for any NaN, as `.lt` and `.le` raise it. -/
def anyNan (x y : FVal) : FFlags := flagIf (x.isNan || y.isNan) flagNV

def execFcmpEq (w : FW) (d : MDst) (a b : LSrc) (s : State) : Out :=
  floatCmp w d a b (fun x y => (eqVal x y, sigFlags [x, y])) s
def execFcmpNe (w : FW) (d : MDst) (a b : LSrc) (s : State) : Out :=
  floatCmp w d a b (fun x y => (!eqVal x y, sigFlags [x, y])) s
def execFcmpLt (w : FW) (d : MDst) (a b : LSrc) (s : State) : Out :=
  floatCmp w d a b (fun x y => (ltVal x y, anyNan x y)) s
def execFcmpLe (w : FW) (d : MDst) (a b : LSrc) (s : State) : Out :=
  floatCmp w d a b (fun x y => (ltVal x y || eqVal x y, anyNan x y)) s
def execFcmpUn (w : FW) (d : MDst) (a b : LSrc) (s : State) : Out :=
  floatCmp w d a b (fun x y => (x.isNan || y.isNan, sigFlags [x, y])) s

/-! ## Conversions (R29 to R32, R130 to R132) -/

/-- The rounding mode of an element of a conversion: stochastic with the element's random bits where `st` (R27,
R28). -/
def Team.convMode (t : Team) (st : Bool) (x sub : Nat) : RMode :=
  if st then .rsr ((srBits t.seed (t.wid x) t.srCtr sub).toNat % 16777216) else modeOf t.frm

/-- Whether a conversion into `f` rounds stochastically now (R27). -/
def Team.stochastic (t : Team) (f : Fmt) : Bool := t.frm == 4 && f.stochastic

/-- `sr_ctr` after an instruction that rounds stochastically: one more if a lane was active (R28). -/
def Team.bumpSr (t : Team) (st : Bool) : Team :=
  if st && t.exec != 0 then { t with srCtr := t.srCtr + 1 } else t

/-- Formats that `fcvt` accepts: codes 0x0 to 0x9 and 0xE (R130). -/
def cvtFmt (c : Nat) : Option Fmt := if c ≤ 9 ∨ c = 14 then fmtOf c else none
/-- Element formats, which alone take a scale (R23). -/
def Fmt.scalable : Fmt → Bool
  | .e5m2 | .e4m3 | .e2m1 | .t8 | .t6 | .int8 => true
  | _ => false
/-- Bits of an element's slot in a lane register: T6 stands in 8 (R130). -/
def Fmt.slot (f : Fmt) : Nat := if f = .t6 then 8 else f.bits

/-- The value of an element under an E8M0 scale (R24). The NaN under scale 0xFF is quiet: the model's choice (log 106). -/
def scaleVal (v : FVal) (sc : Nat) : FVal :=
  match v with
  | .fin n m e => if sc = 255 then .nan false else .fin n m (e + sc - 127)
  | .inf n => if sc = 255 then .nan false else .inf n
  | .nan s => .nan s
/-- Times 2^(127 - tscale), exactly. -/
def unscaleVal (v : FVal) (sc : Nat) : FVal :=
  match v with
  | .fin n m e => .fin n m (e + 127 - sc)
  | v => v

/-- The formats of a descriptor that is valid (R131). -/
def cvtDesc (x : Word) : Option (Fmt × Fmt) :=
  match cvtFmt (bits x 0 4), cvtFmt (bits x 4 4) with
  | some sf, some tf =>
    if bits x 32 32 = 0 ∧ bits x 12 4 = 0 ∧ (bitAt x 8 → sf.scalable) ∧ (bitAt x 9 → tf.scalable) ∧
        ¬ (bitAt x 9 ∧ bits x 24 8 = 255) then some (sf, tf) else none
  | _, _ => none

/-- One element through a descriptor (R131). -/
def cvtElem (desc : Word) (sf tf : Fmt) (mode : RMode) (c : Nat) : Nat × FFlags :=
  let ftz := bitAt desc 11
  let v := flushIn sf ftz (decodeFmt sf c)
  let v := if bitAt desc 8 then scaleVal v (bits desc 16 8) else v
  let v := if bitAt desc 9 then unscaleVal v (bits desc 24 8) else v
  encodeFmt tf mode (bitAt desc 10) ftz v

/-- NV of an invalid descriptor or modulus: raised by an instruction that has an active lane (R33). -/
def Team.invalidFlag (t : Team) : FFlags := flagIf (t.exec != 0) flagNV

def execFcvt (d : VDst) (a : LSrc) (b : BReg) (s : State) : Out :=
  teamStep 4 (fun t =>
    let desc := t.s[b.val]
    let fl := t.srcFlagsAt [] (.s b)
    match cvtDesc desc with
    | none => (t.raise (fl ||| t.invalidFlag)).laneResult d fun _ => 0
    | some (sf, tf) =>
      let st := t.stochastic tf
      (t.laneResultF d (fl ||| t.srcFlags a) fun x =>
        subsWith tf.slot (64 / max sf.slot tf.slot) fun j =>
          cvtElem desc sf tf (t.convMode st x j) (t.sub sf.slot a x j)).bumpSr st) s

def execFcvti (w : FW) (d : VDst) (a : LSrc) (s : State) : Out :=
  float1 w d a (fun f m x => toInteger true f.bits m (decodeFmt f x)) s
def execFcvtiu (w : FW) (d : VDst) (a : LSrc) (s : State) : Out :=
  float1 w d a (fun f m x => toInteger false f.bits m (decodeFmt f x)) s

/-- An integer of the format's width converted to it (R32, R132): only the signed form rounds stochastically under RSR,
and the unsigned one reads RSR as RNE. -/
def fromInt (sgn : Bool) (w : FW) (d : VDst) (a : LSrc) (s : State) : Out :=
  let n := fwBits w
  teamStep 4 (fun t =>
    let st := sgn && t.stochastic (fwFmt w)
    (t.laneResultF d (t.srcFlags a) fun x =>
      subsWith n (64 / n) fun j =>
        let z : Int := if sgn then signed n (t.sub n a x j) else t.sub n a x j
        encodeFmt (fwFmt w) (t.convMode st x j) false false (.fin (z < 0) z.natAbs 0)).bumpSr st) s
def execIcvtf (w : FW) (d : VDst) (a : LSrc) (s : State) : Out := fromInt true w d a s
def execIcvtfu (w : FW) (d : VDst) (a : LSrc) (s : State) : Out := fromInt false w d a s

/-! ## Moving bits (R133) -/

def execPack (w : IW) (d : VDst) (a b : LSrc) (s : State) : Out :=
  let k := iwBits w
  teamStep 4 (fun t => (t.raise (t.srcFlags a ||| t.srcFlags b)).laneResult d fun x =>
    fromSubs (k / 2) (2 * (64 / k)) fun i =>
      if i < 64 / k then t.sub k a x i else t.sub k b x (i - 64 / k)) s
def execUnpack (w : IW) (d : VDst) (a b : LSrc) (s : State) : Out :=
  let k := iwBits w
  teamStep 4 (fun t => (t.raise (t.srcFlags a ||| t.srcFlags b)).laneResult d fun x =>
    let c := (t.laneSrc k b x).toNat
    perSub k fun i =>
      let v := subEl (k / 2) (t.laneSrc k a x) (c % 2 * (64 / k) + i)
      if c / 2 % 2 = 1 then wrap k (signed (k / 2) v) else v) s
def execSwz (w : IW) (d : VDst) (a b : LSrc) (s : State) : Out :=
  let k := iwBits w
  teamStep 4 (fun t => (t.raise (t.srcFlags a ||| t.srcFlags b)).laneResult d fun x =>
    perSub k fun i =>
      let c := subEl 8 (t.laneSrc k b x) i
      if 128 ≤ c then 0 else t.sub k a x (c % (64 / k))) s

/-! ## Special functions (R134) -/

def execFrcp (w : FW) (d : VDst) (a : LSrc) (s : State) : Out := float1 w d a (fun f _ => floatRcp f) s
def execFrsq (w : FW) (d : VDst) (a : LSrc) (s : State) : Out := float1 w d a (fun f _ => floatRsq f) s
def execFsqrt (w : FW) (d : VDst) (a : LSrc) (s : State) : Out := float1 w d a floatSqrt s
def execFex2 (w : FW) (d : VDst) (a : LSrc) (s : State) : Out := float1 w d a (fun f _ => floatEx2 f) s
def execFlg2 (w : FW) (d : VDst) (a : LSrc) (s : State) : Out := float1 w d a (fun f _ => floatLg2 f) s
def execFsin (w : FW) (d : VDst) (a : LSrc) (s : State) : Out := float1 w d a (fun f _ => floatSin f) s
def execFcos (w : FW) (d : VDst) (a : LSrc) (s : State) : Out := float1 w d a (fun f _ => floatCos f) s

/-! ## Modular arithmetic (R135, R136) -/

/-- The modulus register s(28+w). -/
def modReg (q : QReg) : SReg := ⟨28 + q.val, by omega⟩
/-- A modulus that is valid: odd, 3 or more, below 2^63. -/
def modulusOk (q : Nat) : Bool := q % 2 == 1 && decide (3 ≤ q) && decide (q < 2 ^ 63)

/-- A modular instruction: with an invalid modulus every result is 0 and NV is raised. -/
def laneMod (q : QReg) (d : VDst) (a b : LSrc) (f : Nat → Nat → Nat → Nat) (s : State) : Out :=
  teamStep 4 (fun t =>
    let m := (t.s[(modReg q)]).toNat
    let ok := modulusOk m
    (t.raise (t.srcFlags a ||| t.srcFlags b ||| t.sFlags (modReg q) ||| (if ok then 0 else t.invalidFlag))).laneResult d
      fun x => if ok then word (f m (t.laneSrc 64 a x).toNat (t.laneSrc 64 b x).toNat) else 0) s

/-- (x - y) mod m. -/
def modSub (m x y : Nat) : Nat := (((x : Int) - y) % (m : Int)).toNat

def execMmul (q : QReg) (d : VDst) (a b : LSrc) (s : State) : Out := laneMod q d a b (fun m x y => x * y % m) s
def execMadd (q : QReg) (d : VDst) (a b : LSrc) (s : State) : Out := laneMod q d a b (fun m x y => (x + y) % m) s
def execMsub (q : QReg) (d : VDst) (a b : LSrc) (s : State) : Out := laneMod q d a b modSub s
def execMred (q : QReg) (d : VDst) (a b : LSrc) (s : State) : Out :=
  laneMod q d a b (fun m x y => (y * 2 ^ 64 + x) % m) s

/-- A butterfly: `f` gives the new d and the new a; both are written in each active lane, d unless `nwb` (R136). -/
def butterfly (q : QReg) (d : VDst) (a : VReg) (b : LSrc) (f : Nat → Nat → Nat → Nat → Nat × Nat) (s : State) : Out :=
  teamStep 4 (fun t =>
    let m := (t.s[(modReg q)]).toNat
    let ok := modulusOk m
    let r (x : Nat) : Nat × Nat :=
      if ok then f m (t.old d x).toNat (nth 0 t.v[a] x).toNat (t.laneSrc 64 b x).toNat else (0, 0)
    let fl := t.srcFlags (.v a) ||| t.srcFlags b ||| t.oldFlags d ||| t.sFlags (modReg q)
    ((t.raise (fl ||| (if ok then 0 else t.invalidFlag))).laneResult d fun x => word (r x).1).writeLanes a t.active
      fun x => word (r x).2) s

def execBfly (q : QReg) (d : VDst) (a : VReg) (b : LSrc) (s : State) : Out :=
  butterfly q d a b (fun m x y z => ((x + y * z % m) % m, modSub m x (y * z % m))) s
def execIbfly (q : QReg) (d : VDst) (a : VReg) (b : LSrc) (s : State) : Out :=
  butterfly q d a b (fun m x y z => ((x + y) % m, modSub m x y * z % m)) s

end Sys2Proof.Machine
end

