-- ==== Sys2Proof/Machine/Sync.lean ====
section
/-! DEFINITION. Barriers, monitors, locks, promises and holdings (R163 to R174, R283), and waits on task queues
(R105). -/
namespace Sys2Proof.Machine
open Sys2Proof

/-! ## Barriers and monitors (R164, R165) -/

def execArrive (o : Ord) (sc : Scope) (d : SDst) (a b : USrc) (s : State) : Out :=
  let t := s.cur
  wordIssue .either 8 4 (t.uniSrc a) o sc d (t.uniFlags a ||| t.uniFlags b) (fun s => some (s, .arrive (t.uniSrc b))) s
def execAwait (o : Ord) (sc : Scope) (d : SDst) (a b : USrc) (s : State) : Out :=
  let t := s.cur
  wordIssue .either 8 4 (t.uniSrc a) o sc d (t.uniFlags a ||| t.uniFlags b)
    (fun s => some (s, .await (barPhase (t.uniSrc b)))) s

/-- The next issue after a recall with status 4, at the same PC, makes no arrival: it awaits with the phase of the
value that d then holds. -/
def execArwait (o : Ord) (sc : Scope) (d : SDst) (a b : USrc) (s : State) : Out :=
  let t := s.cur
  let op : WordOp := if t.arrivedAt = some t.pc then .arwaited (t.uniSrc (dstAsSrc d)) else .arwait (t.uniSrc b)
  wordIssue .either 8 4 (t.uniSrc a) o sc d (t.uniFlags a ||| t.uniFlags b)
    (fun s => some (s.onCur fun t => { t with arrivedAt := none }, op)) s
def execMwait (o : Ord) (sc : Scope) (d : SDst) (a b : USrc) (s : State) : Out :=
  let t := s.cur
  wordIssue .either 8 4 (t.uniSrc a) o sc d (t.uniFlags a ||| t.uniFlags b) (fun s => some (s, .mwait (t.uniSrc b))) s

/-! ## Locks (R167, R168) -/

/-- Without a heir, `.noest`, no entry is reserved; the timeout register `zero` stands for none. -/
def execLkacq (o : Ord) (sc : Scope) (d : SDst) (a : USrc) (h : Option USrc) (tr : USrc) (orph tryOnce : Bool)
    (s : State) : Out :=
  let t := s.cur
  let addr := t.uniSrc a
  let tmo : Option Nat := if tr = .zero then none else some (t.uniSrc tr).toNat
  let hf := match h with | some x => t.uniFlags x | none => 0
  wordIssue .global 8 8 addr o sc d (t.uniFlags a ||| hf ||| t.uniFlags tr)
    (fun s =>
      match h with
      | none => some (s, .lkacq none tmo orph tryOnce)
      | some x =>
        if s.estateRoom t.group then
          let p := s.reserveEntry t.group 0 addr (t.uniSrc x) 0 sc t.tid
          some (p.1, .lkacq (some p.2) tmo orph tryOnce)
        else none) s
def execLkrel (o : Ord) (sc : Scope) (a : USrc) (s : State) : Out :=
  wordIssue .global 8 4 (s.cur.uniSrc a) o sc none (s.cur.uniFlags a) (fun s => some (s, .lkrel)) s

/-! ## Promises (R170) -/

def execPrnew (o : Ord) (sc : Scope) (d : SDst) (a h v : USrc) (s : State) : Out :=
  let t := s.cur
  let addr := t.uniSrc a
  wordIssue .global 8 8 addr o sc d (t.uniFlags a ||| t.uniFlags h ||| t.uniFlags v)
    (fun s =>
      if s.estateRoom t.group then
        let p := s.reserveEntry t.group 1 addr (t.uniSrc h) (word (bits (t.uniSrc v) 0 56)) sc t.tid
        some (p.1, .prnew p.2)
      else none) s
def execPrful (o : Ord) (sc : Scope) (a b : USrc) (s : State) : Out :=
  let t := s.cur
  wordIssue .global 8 4 (t.uniSrc a) o sc none (t.uniFlags a ||| t.uniFlags b)
    (fun s => some (s, .prful (t.uniSrc b))) s
def execPrwait (o : Ord) (sc : Scope) (d : SDst) (a : USrc) (s : State) : Out :=
  wordIssue .global 8 4 (s.cur.uniSrc a) o sc d (s.cur.uniFlags a) (fun s => some (s, .prwait)) s

/-! ## Holdings (R172, R173) -/

/-- Kind numbers of R284: 2 more than the kind of `hold`. -/
def objCode : ObjKind → Nat
  | .spad => 2 | .queue => 3 | .chan => 4 | .plant => 5 | .sbuf => 6 | .pslot => 7
def objKind : HoldKind → ObjKind
  | .spad _ => .spad | .queue => .queue | .chan => .chan | .plant => .plant | .sbuf => .sbuf | .pslot _ => .pslot
/-- The extent operand; `zero` for the kinds that take none. -/
def holdExtent : HoldKind → USrc
  | .spad x => x
  | .pslot x => x
  | _ => .zero

/-- Whose queue or channel a holding names: the team's queue, the group's channel. -/
def holdOwner (k : ObjKind) (t : Team) : Nat :=
  match k with
  | .queue => t.tid
  | _ => t.group

/-- Whether an engine of the cluster is granted to a context (R321). -/
def State.engineOf (s : State) (c e ctx : Nat) : Bool := bitAt (s.ctxQuota c ctx 0) (44 + e)

/-- Whether a Sett buffer is registered and reserved by a context (R366). -/
def State.settOwned (s : State) (b ctx : Nat) : Bool :=
  let e := nth .zero s.sett.toList b
  decide (b < 64) && bitAt e.w0 63 && decide (bits e.w3 48 16 = ctx) && !e.released

/-- Whether an object operand lies within the limits of its kind and belongs to the group's context. -/
def State.holdable (s : State) (k : ObjKind) (t : Team) (a x : Word) : Bool :=
  let g := s.group t.group
  match k with
  | .spad => decide (1 ≤ x.toNat) && decide (a.toNat + x.toNat ≤ 0x300000) && s.ownsSpad g a.toNat x.toNat
  | .queue => decide (a.toNat < 4)
  | .chan => decide (a.toNat < 8)
  | .plant => decide (a.toNat < 6) && s.engineOf t.cluster (a.toNat / 2) g.ctx
  | .sbuf => s.settOwned a.toNat g.ctx
  | .pslot => true

/-- An entry of a kind and address. -/
def Holding.at_ (k : ObjKind) (a : Word) (e : Holding) : Bool := !e.reserved && e.kind == objCode k && e.obj == a
/-- The entry by which the group already holds an object: a queue is an object of its team. -/
def Holding.names (k : ObjKind) (t : Team) (a : Word) (e : Holding) : Bool :=
  e.at_ k a && (k != .queue || e.owner == t.tid)

/-- Registers an object that is no word in memory. -/
def holdObject (k : ObjKind) (sc : Scope) (d : SDst) (a h x : Word) (fl : FFlags) (s : State) : Out :=
  let t := s.cur
  if !s.holdable k t a x then trapRead fl 6 a s
  else
    match (s.group t.group).estate.find? (Holding.names k t a) with
    | some e => teamStep 8 (fun t => (t.raise fl).setSDst d (word e.num)) s
    | none =>
      if !s.estateRoom t.group then trapRead fl 7 a s
      else
        let aux := match k with | .spad => x | _ => 0
        let p := s.reserveEntry t.group (objCode k) a h aux sc (holdOwner k t)
        teamStep 8 (fun t => (t.raise fl).setSDst d (word p.2)) (p.1.commitEntry t.group p.2)

/-- A pod-buffer slot is translated first (R172, R425), at whatever alignment, and its bytes are not read; an existing
entry for it needs no free one. -/
def holdSlot (sc : Scope) (d : SDst) (a h x : Word) (fl : FFlags) (s : State) : Out :=
  let t := s.cur
  wordIssue .global 1 8 a .plain sc d fl
    (fun s =>
      if s.estateRoom t.group then
        let p := s.reserveEntry t.group (objCode .pslot) a h x sc t.group
        some (p.1, .holdSlot (some p.2) h x)
      else if (s.group t.group).estate.any (Holding.names .pslot t a) then some (s, .holdSlot none h x)
      else none) s

def execHold (k : HoldKind) (sc : Scope) (d : SDst) (a h : USrc) (s : State) : Out :=
  let t := s.cur
  let x := holdExtent k
  let fl := t.uniFlags a ||| t.uniFlags h ||| t.uniFlags x
  match k with
  | .pslot _ => holdSlot sc d (t.uniSrc a) (t.uniSrc h) (t.uniSrc x) fl s
  | _ => holdObject (objKind k) sc d (t.uniSrc a) (t.uniSrc h) (t.uniSrc x) fl s

/-- A region that came by conveyance is cleared and freed when its holder unholds it (R290). -/
def State.releaseRegion (s : State) (g : Group) (e : Holding) : State :=
  if e.kind = 2 ∧ e.conveyed then
    let mine (r : Alloc) : Bool := r.owner == g.handle && r.base == e.obj.toNat
    s.modCluster g.cluster fun c =>
      { c with allocs := updWhere mine (fun r => { r with owner := 0, clearing := true }) c.allocs }
  else s

/-- Removes the group's most recent entry of the kind and address, one that came by conveyance too. -/
def execUnhold (k : ObjKind) (a : USrc) (s : State) : Out :=
  let t := s.cur
  let g := s.curGroup
  let s := match findLast? (Holding.at_ k (t.uniSrc a)) g.estate with
    | some e => (s.releaseRegion g e).freeEntry g.handle e.num
    | none => s
  teamStep 4 (Team.raise · (t.uniFlags a)) s

/-- Values 0 to 63 name an entry by number; any other names the most recent entry of that address. -/
def execHeir (a b : USrc) (s : State) : Out :=
  let t := s.cur
  let n := (t.uniSrc a).toNat
  let hit := if n < 64 then s.curGroup.estate.find? fun e => !e.reserved && e.num == n
    else findLast? (fun e => !e.reserved && e.obj == t.uniSrc a) s.curGroup.estate
  let s := match hit with
    | some h => s.modGroup t.group fun g =>
        { g with estate := updWhere (fun e => e.num == h.num) (fun e => { e with heir := t.uniSrc b }) g.estate }
    | none => s
  teamStep 4 (Team.raise · (t.uniFlags a ||| t.uniFlags b)) s

/-! ## Waiting for a task queue (R105) -/

/-- Completes at once where `%qseq`q has reached the value, and otherwise parks at the cluster's unit. -/
def execWaitq (a : USrc) (q : Fin 4) (s : State) : Out :=
  let t := s.cur
  let v := t.uniSrc a
  let s' := s.onCur (Team.raise · (t.uniFlags a))
  if v.toNat ≤ t.qseq[q].toNat then .next (s'.onCur fun t => t.advance 4)
  else parkTeam s s' (.queue q v) 4 .unit

end Sys2Proof.Machine
end

