-- ==== Sys2Proof/Machine/TaskIssue.lean ====
section
/-! DEFINITION. Tile-task records, their refusal at issue, and `mtask` (R186 to R194). -/
namespace Sys2Proof.Machine
open Sys2Proof

/-! ## The record (R186 to R191) -/

/-- Word i of a record. -/
def recWord (r : List Word) (i : Nat) : Word := nth 0 r i

/-- 0 `PLANT`, 1 `MAC`, 2 `DRAIN`, 3 `MACDRAIN`. -/
def recKind (r : List Word) : Nat := bits (recWord r 0) 0 2
def recQueue (r : List Word) : Nat := bits (recWord r 0) 2 2
def recEmask (r : List Word) : Nat := bits (recWord r 0) 4 3
def recBank (r : List Word) : Nat := bits (recWord r 0) 7 1
def recAcc (r : List Word) : Bool := bitAt (recWord r 0) 8
def recSparse (r : List Word) : Nat := bits (recWord r 0) 9 2
def recM (r : List Word) : Nat := bits (recWord r 0) 11 9
def recK (r : List Word) : Nat := bits (recWord r 0) 27 10
def recN (r : List Word) : Nat := bits (recWord r 0) 37 8
def recDrain (r : List Word) : Nat := bits (recWord r 0) 45 3
def recMxfmt (r : List Word) : Nat := bits (recWord r 0) 48 4
def recMxblk (r : List Word) : Nat := bits (recWord r 0) 52 2

/-- Whether the kind reads an operand tensor, and whether it drains. -/
def recSource (r : List Word) : Bool := recKind r != 2
def recDrains (r : List Word) : Bool := decide (2 ≤ recKind r)

/-- Operand tensor: format, block shape, scale row length, address, pitch in bytes, scale plane. -/
def recFmt (r : List Word) : Nat := bits (recWord r 2) 48 4
def recBlk (r : List Word) : Nat := bits (recWord r 2) 52 2
def recSpitch (r : List Word) : Nat := bits (recWord r 2) 54 10
def recAddr (r : List Word) : Nat := bits (recWord r 2) 0 48
def recPitch (r : List Word) : Nat := 16 * bits (recWord r 3) 48 16
def recSaddr (r : List Word) : Nat := bits (recWord r 3) 0 48
/-- Destination: address, pitch in bytes, scale plane and its row length. -/
def recDaddr (r : List Word) : Nat := bits (recWord r 4) 0 48
def recDpitch (r : List Word) : Nat := 16 * bits (recWord r 4) 48 16
def recDsaddr (r : List Word) : Nat := bits (recWord r 5) 0 48
def recDspitch (r : List Word) : Nat := bits (recWord r 5) 48 10
def recCword (r : List Word) : Nat := bits (recWord r 7) 0 48

/-- Whether the record names MOD64: as a format, or by its drain (R11, R194 order 1). -/
def recNames64 (r : List Word) : Bool := recFmt r == 13 || recMxfmt r == 13 || recDrain r == 7

/-- Whether the record is one of MOD64 arithmetic. -/
def recMod64 (r : List Word) : Bool :=
  (recSource r && recFmt r == 13) || (recDrains r && recDrain r == 7)

/-- The dependences that are present: queue and the low 32 bits of a sequence number (R188). -/
def recDeps (r : List Word) : List (Fin 4 × Nat) :=
  let w := recWord r 0
  (if bitAt w 21 then [(Fin.ofNat 4 (bits w 22 2), bits (recWord r 1) 0 32)] else []) ++
    (if bitAt w 24 then [(Fin.ofNat 4 (bits w 25 2), bits (recWord r 1) 32 32)] else [])

/-- Engines of a mask, lowest first. -/
def enginesOf (mask : Nat) : List Nat := (List.range 3).filter fun e => mask / 2 ^ e % 2 == 1

/-- Bits of an element by format code (R11); 0 for the reserved code. -/
def codeBits (c : Nat) : Nat := match fmtOf c with | some f => f.bits | none => 0
/-- Bits of a destination element by drain mode (R191). -/
def drainBits (r : List Word) : Nat :=
  match recDrain r with
  | 0 => 32 | 4 => 32 | 7 => 64 | 3 => codeBits (recMxfmt r) | _ => 16
/-- Columns of the destination: N for each engine. -/
def destCols (r : List Word) : Nat := (enginesOf (recEmask r)).length * recN r
/-- Rows and columns of a block shape (R23). -/
def blockShape : Nat → Nat × Nat
  | 1 => (1, 32) | 2 => (16, 16) | 3 => (32, 32) | _ => (1, 1)

/-! ## Refusal at issue (R194) -/

/-- Words that a kind reads (R186). -/
def recReads (r : List Word) : List Nat :=
  (match recKind r with
    | 0 => [0, 1, 2, 3, 7] | 1 => [0, 1, 2, 3, 7] | 2 => [0, 1, 4, 5, 7] | _ => [0, 1, 2, 3, 4, 5, 7]) ++
    (if (recKind r == 0 && recSparse r != 0) || (recDrains r && recDrain r == 7) then [6] else [])

/-- Order 2: everything that shall be zero is. Four of these the spec says without a code, and their code 0x10 is the
model's choice (log 68): `mxfmt` and `mxblk` of a drain of another mode (R187), `dsaddr` of one (R189), a `d0seq` or
`d1seq` without its valid bit (R188), and `prog` and `ph` (R190). A `d0q` or `d1q` without its valid bit is not read. -/
def recZeros (r : List Word) : Bool :=
  let w := recWord r 0
  bits w 54 10 == 0 && !bitAt w 20 && bits (recWord r 7) 48 16 == 0 &&
    ((List.range 8).all fun i => (recReads r).contains i || recWord r i == 0) &&
    (bitAt w 21 || bits (recWord r 1) 0 32 == 0) && (bitAt w 24 || bits (recWord r 1) 32 32 == 0) &&
    (!recDrains r || (bits (recWord r 5) 58 6 == 0 && (recDrain r == 3 || recDsaddr r == 0))) &&
    ((recDrains r && recDrain r == 3) || (recMxfmt r == 0 && recMxblk r == 0)) &&
    (recDrains r || recDrain r == 0) &&
    (recKind r != 0 || (recM r == 0 && !recAcc r)) &&
    (recKind r != 2 || (!recAcc r && recBank r == 0 && recSparse r == 0))

/-- Formats accepted as B of a `PLANT` and as A (R181), and those that take a scale. -/
def fmtOkB (f : Nat) : Bool := (decide (2 ≤ f) && decide (f ≤ 9)) || f == 13
def fmtOkA (f : Nat) : Bool := (decide (3 ≤ f) && decide (f ≤ 9)) || f == 13
def fmtScales (f : Nat) : Bool := decide (4 ≤ f) && decide (f ≤ 9)

/-- Order 3: formats and modes. -/
def recFormats (r : List Word) : Bool :=
  (!recSource r ||
    ((if recKind r = 0 then fmtOkB (recFmt r) else fmtOkA (recFmt r)) && (recBlk r == 0 || fmtScales (recFmt r)) &&
      !(recFmt r == 13 && recSparse r != 0))) &&
    (recKind r != 3 || ((recFmt r == 13) == (recDrain r == 7))) &&
    (!(recDrains r && recDrain r == 3) || (decide (2 ≤ recMxblk r) && decide (4 ≤ recMxfmt r) && decide (recMxfmt r ≤ 9)))

/-- Whether a row of `n` bits is whole bytes and fits a pitch that is not zero. -/
def rowFits (n pitch : Nat) : Bool := n % 8 == 0 && pitch != 0 && decide (n ≤ 8 * pitch)

/-- Order 4: sizes and pitches (R187, R191, R206). -/
def recSizes (r : List Word) : Bool :=
  let kmax := if recMod64 r then 64 else match recSparse r with | 0 => 256 | 1 => 480 | 2 => 720 | _ => 960
  decide (1 ≤ recN r) && decide (recN r ≤ 128) && decide (1 ≤ recK r) && decide (recK r ≤ kmax) &&
    (recKind r == 0 || (decide (1 ≤ recM r) && decide (recM r ≤ if recMod64 r then 32 else 256))) &&
    (!recSource r || rowFits ((if recKind r = 0 then recN r else recK r) * codeBits (recFmt r)) (recPitch r)) &&
    (!recDrains r || (rowFits (destCols r * drainBits r) (recDpitch r) &&
      (recDrain r != 3 || decide ((enginesOf (recEmask r)).length ≤ 1) || recN r % (blockShape (recMxblk r)).2 == 0)))

/-- Order 5: no dependence names a task that is not yet issued. -/
def recIssued (r : List Word) (issued : Vector Word 4) : Bool :=
  (recDeps r).all fun d =>
    let k := (d.2 + 4294967296 - issued[d.1].toNat % 4294967296) % 4294967296
    !(decide (1 ≤ k) && decide (k < 2147483648))

/-- Order 8: each address that the record names, with the alignment of its element. -/
def recAddrs (r : List Word) : List (Nat × Nat) :=
  (if recSource r then [(recAddr r, max 1 (codeBits (recFmt r) / 8))] ++
      (if recBlk r = 0 then [] else [(recSaddr r, 1)]) ++
      (if recKind r = 0 ∧ recSparse r ≠ 0 then [(bits (recWord r 6) 0 64, 8)] else [])
    else []) ++
    (if recDrains r then [(recDaddr r, if recDrain r = 3 then 1 else drainBits r / 8)] ++
        (if recDrain r = 3 then [(recDsaddr r, 1)] else [])
      else []) ++
    [(recCword r, 8)]
def addrKindOk (a : Nat × Nat) : Bool := decide (a.1 < 2 ^ 48) && a.1 % a.2 == 0 && !(decide (0x300000 ≤ a.1) && decide (a.1 < 0x400000))

/-- Whether a modulus is one of R14. -/
def oddModulus (q : Nat) : Bool := q % 2 == 1 && decide (3 ≤ q) && decide (q < 2 ^ 63)

/-- The code of the first rule from order 2 on that a record breaks; 0 for a record that passes. -/
def State.refusal (s : State) (t : Team) (r : List Word) : Nat :=
  let ctx := (s.group t.group).ctx
  if !recZeros r then 0x10
  else if !recFormats r then 0x11
  else if !recSizes r then 0x12
  else if !recIssued r t.qissued then 0x13
  else if recEmask r = 0 ∨ !((enginesOf (recEmask r)).all fun e => s.engineOf t.cluster e ctx &&
      !((s.cluster t.cluster).engine e).fenced) then 0x14
  else if recDrains r ∧ recDrain r = 7 ∧ !oddModulus (recWord r 6).toNat then 0x15
  else if !(recAddrs r).all addrKindOk then 0x16
  else 0

/-! ## The pool (R192, R193, R199) -/

/-- Whether a record is free: 256 to a cluster, and the context's quota. -/
def State.poolRoom (s : State) (t : Team) : Bool :=
  let ctx := (s.group t.group).ctx
  let l := (s.cluster t.cluster).tasks
  decide (l.length < 256) && decide ((l.filter fun k => k.ctx == ctx).length < bits (s.ctxQuota t.cluster ctx 0) 15 9)

/-- The lowest free pool record. -/
def freePoolSlot (l : List Task) : Nat := ((List.range 256).find? fun n => l.all fun k => k.slot != n).getD 0

/-- Whether a task of a queue fails because its predecessor or a dependence has failed. -/
def failedBy (qfail : Vector Word 4) (q : Fin 4) (seq : Nat) (deps : List (Fin 4 × Nat)) : Bool :=
  (qfail[q] != 0 && decide (qfail[q].toNat ≤ seq)) ||
    deps.any fun d => qfail[d.1] != 0 && decide ((d.2 + 4294967296 - qfail[d.1].toNat % 4294967296) % 4294967296 < 2147483648)

/-- Enters a record into the pool and appends it to its queue: the state, and its sequence number. The team's combining
entries drain (R248). -/
def State.enterTask (s : State) (tid : Nat) (r : List Word) : State × Word :=
  let s := (s.drainTeam tid).applyAllMulti
  let t := s.team tid
  let q : Fin 4 := Fin.ofNat 4 (recQueue r)
  let seq := t.qissued[q] + 1
  let bad := failedBy t.qfail q seq.toNat (recDeps r)
  let k : Task :=
    { id := s.nextId, tid := tid, index := t.index, group := t.group, launch := (s.group t.group).launch,
      ctx := (s.group t.group).ctx, seq := seq, words := r,
      slot := freePoolSlot (s.cluster t.cluster).tasks, st := .queued, prog := 0, ph := 0, nsat := 0,
      after := t.qfence[q], waiting := none, aged := false, accBound := t.nextSeq, fail := if bad then 6 else 0,
      sampled := false, log := [], wrote := [], kept := false }
  let s := { s with nextId := s.nextId + 1 }
  let s := s.modCluster t.cluster fun c => { c with tasks := c.tasks ++ [k] }
  (s.modTeam tid fun t => { t with
      qissued := t.qissued.set q.val seq
      qfail := if bad ∧ t.qfail[q] = 0 then t.qfail.set q.val seq else t.qfail }, seq)

/-- The word of `mtask d, a` (R192), which the absent-unit trap reports. -/
def mtaskWord (d : SDst) (a : Fin 4) : Word :=
  word (0xE0000000 + b2n d.isNone * 8388608 + (match d with | some r => r.val | none => 0) * 131072 + 8 * a.val * 2048)

/-- `mtask`: checks the record in s(8a) to s(8a + 7), and queues it or parks for a free record. -/
def execMtask (d : SDst) (a : Fin 4) (s : State) : Out :=
  let t := s.cur
  let src (i : Nat) : SReg := Fin.ofNat 32 (8 * a.val + i)
  let r := tabulate 8 fun i => t.s[src i]
  let fl := flagUnion (tabulate 8 fun i => t.sFlags (src i))
  if recNames64 r ∧ !s.part.full then trapRead fl 2 (mtaskWord d a) s
  else
    let code := s.refusal t r
    if code ≠ 0 then trapRead fl 15 (word (code + recQueue r * 256)) s
    else if s.poolRoom t then
      let p := s.enterTask t.tid r
      teamStep 4 (fun t => (t.raise fl).uniResult d p.2) p.1
    else parkTeam s (s.onCur (Team.raise · fl)) (.mtask r d) 4 .unit

end Sys2Proof.Machine
end

