-- ==== Sys2Proof/Machine/TaskRun.lean ====
section
/-! DEFINITION. Running tile tasks: starting, passes of a multiply, plantings, drains, completion and failure (R180 to
R185, R193 to R210). -/
namespace Sys2Proof.Machine
open Sys2Proof

/-! ## Operands in memory (R191, R199) -/

/-- Why a pass cannot go on: an address held for a translation fault with its access kind, a failure code, or a link. -/
inductive TaskErr where
  | held (va acc : Nat)
  | fail (code : Nat)
  /-- An operand that holds an uncorrectable error, at a place: code 0x03, with a record. -/
  | bad (tgt : Target)
  /-- A link on the way holds its traffic (R390, R392). -/
  | wait
deriving DecidableEq, Repr

/-- Where a task stands: its cluster and the group in whose name it acts. -/
structure TaskCtx where
  cl : Nat
  g : Group
deriving DecidableEq, Repr

def State.taskCtx (s : State) (cl : Nat) (k : Task) : TaskCtx :=
  ⟨cl, s.actingGroup k.group k.ctx cl 3 k.tid (recQueue k.words)⟩

/-- The pieces of a range that lie in different 64 KiB pages: address and length. -/
def pagePieces (va n : Nat) : List (Nat × Nat) :=
  if n = 0 then []
  else (List.range ((va + n - 1) / 65536 + 1 - va / 65536)).map fun i =>
    let lo := max va ((va / 65536 + i) * 65536)
    (lo, min (va + n) ((va / 65536 + i + 1) * 65536) - lo)

/-- The parts of `n` bytes that lie in different lines: how far in, and how long. -/
def lineParts (pa n : Nat) : List (Nat × Nat) :=
  if n = 0 then []
  else (List.range ((pa + n - 1) / 64 + 1 - pa / 64)).map fun i =>
    let lo := max pa ((pa / 64 + i) * 64)
    (lo - pa, min (pa + n) ((pa / 64 + i + 1) * 64) - lo)

/-- Where a task reads bytes of a replicated page: at the replica of the cluster's die, but for torn lines at the home's; a
line that is torn there too is poison (R252, R265). -/
def State.taskReplica (s : State) (c : TaskCtx) (home pa n : Nat) : Except TaskErr (List (Target × Nat)) :=
  let own := dieOf c.cl
  let die (x : Nat × Nat) : Nat := s.replicaDie own home (pa + x.1) 0
  let at_ (x : Nat × Nat) : Nat := s.replicaAt (die x) (pa + x.1)
  let parts := if s.torn own (s.replicaAt own pa) n then lineParts pa n else [(0, n)]
  if parts.any fun x => !s.frameOk (s.ctxWorld c.g.ctx) (at_ x) then .error (.fail 2)
  else if parts.any fun x => !s.linkOpen own (dieSlice (die x) (at_ x)) then .error .wait
  else
    match parts.find? fun x => s.torn (die x) (at_ x) x.2 with
    | some x => .error (.bad (.hbm (at_ x)))
    | none => .ok (parts.map fun x => (.hbm (at_ x), x.2))

/-- Where a task reads or writes `n` bytes of a page: not at a pod peer (R191), and a replicated page only to read (R252).
Its completion word takes the same failure, which R197 reports as code 7: that a word on a replicated page counts as a
non-replayable fault is the model's choice (log 98). -/
def State.taskTarget (s : State) (c : TaskCtx) (acc n : Nat) (pl : Place) : Except TaskErr (List (Target × Nat)) :=
  match pl.tgt, pl.kind with
  | .remote _ _, _ => .error (.fail 2)
  | .hbm pa, .replicated home => if acc ≠ 0 then .error (.fail 2) else s.taskReplica c home pa n
  | .hbm pa, _ => if s.linkOpen (dieOf c.cl) pl.slice then .ok [(.hbm pa, n)] else .error .wait
  | tgt, _ => .ok [(tgt, n)]

/-- Places the pieces of a range. -/
def State.taskPlaces (s : State) (c : TaskCtx) (acc : Nat) : List (Nat × Nat) → State × Except TaskErr (List (Target × Nat))
  | [] => (s, .ok [])
  | (va, n) :: l =>
    if !s.wayOpen c.cl c.g.ctx .either va then (s, .error .wait) else
    let p := s.place c.cl c.g .either va n acc
    match p.2 with
    | .error .replay => (p.1, .error (.held va acc))
    | .error .access => (p.1, .error (.fail 2))
    | .ok pl =>
      match p.1.taskTarget c acc n pl with
      | .error e => (p.1, .error e)
      | .ok tgt =>
        let q := p.1.taskPlaces c acc l
        match q.2 with
        | .ok r => (q.1, .ok (tgt ++ r))
        | .error e => (q.1, .error e)

/-- Bytes of placed pieces; poison fails the task. -/
def State.piecesRead (s : State) (l : List (Target × Nat)) : Except TaskErr (List Byte) :=
  match l.find? fun p => s.poisonedAt p.1 p.2 with
  | some p => .error (.bad p.1)
  | none => .ok (l.flatMap fun p => leBytes p.2 (s.readAt p.1 p.2))

def State.taskRead (s : State) (c : TaskCtx) (va n : Nat) : State × Except TaskErr (List Byte) :=
  let p := s.taskPlaces c 0 (pagePieces va n)
  match p.2 with
  | .ok l => (p.1, p.1.piecesRead l)
  | .error e => (p.1, .error e)

/-- Writes bytes over placed pieces, 64 at most at once. -/
def State.piecesWrite (s : State) : List (Target × Nat) → List Byte → State
  | [], _ => s
  | (tgt, n) :: l, b => (s.store tgt n (leNat (b.take n))).piecesWrite l (b.drop n)

/-- Several reads, in order. -/
def State.taskReads (s : State) (c : TaskCtx) : List (Nat × Nat) → State × Except (TaskErr × Nat) (List (List Byte))
  | [] => (s, .ok [])
  | (va, n) :: l =>
    let p := s.taskRead c va n
    match p.2 with
    | .error e => (p.1, .error (e, 0))
    | .ok b =>
      let q := p.1.taskReads c l
      match q.2 with
      | .ok r => (q.1, .ok (b :: r))
      | .error (e, i) => (q.1, .error (e, i + 1))

/-! ## Elements (R11, R23, R24) -/

/-- Element j of a packed row of elements of `b` bits. -/
def unpackAt (row : List Byte) (b j : Nat) : Nat := leNat row / 2 ^ (b * j) % 2 ^ b
/-- A row of codes, packed. -/
def packRow (b : Nat) (codes : List Nat) : List Byte :=
  leBytes (codes.length * b / 8) ((List.range codes.length).foldl (fun acc j => acc + nth 0 codes j % 2 ^ b * 2 ^ (b * j)) 0)

/-- Scales of a row of the scale plane, and the bytes from one row to the next. -/
def scaleLen (r : List Word) (cols : Nat) : Nat := ceilDiv cols (blockShape (recBlk r)).2
def scaleRow (r : List Word) (cols : Nat) : Nat := if recSpitch r = 0 then scaleLen r cols else recSpitch r

/-- Rows `i0` to `i0 + n - 1` of the operand tensor of `cols` columns: for each row its codes and their scales, of which
only those of its blocks are read. The error names the row at which reading stopped, counted from `i0`. -/
def State.readTensor (s : State) (c : TaskCtx) (r : List Word) (cols i0 n : Nat) :
    State × Except (TaskErr × Nat) (List (List (Nat × Nat))) :=
  let b := codeBits (recFmt r)
  let blk := blockShape (recBlk r)
  let first := i0 / blk.1
  let plane : State × Except (TaskErr × Nat) (List (List Byte)) :=
    if recBlk r = 0 then (s, .ok [])
    else s.taskReads c (tabulate ((i0 + n - 1) / blk.1 + 1 - first) fun q =>
      (recSaddr r + scaleRow r cols * (first + q), scaleLen r cols))
  match plane.2 with
  | .error (e, _) => (plane.1, .error (e, 0))
  | .ok sc =>
    let rows := plane.1.taskReads c (tabulate n fun i => (recAddr r + recPitch r * (i0 + i), cols * b / 8))
    match rows.2 with
    | .error e => (rows.1, .error e)
    | .ok l => (rows.1, .ok (tabulate n fun i => tabulate cols fun j =>
        (unpackAt (nth [] l i) b j,
          if recBlk r = 0 then 0x7F else (nth 0 (nth [] sc ((i0 + i) / blk.1 - first)) (j / blk.2)).toNat)))

/-- The value of a code under its scale (R24). -/
def elemVal (fmt code scale : Nat) : FVal :=
  match fmtOf fmt with
  | some f => scaleVal (decodeFmt f code) scale
  | none => .nan false

/-! ## Accumulation (R202 to R204) -/

/-- Whether the magnitude's binary logarithm, of a nonzero finite value. -/
def valLog (v : FVal) : Int := match v with | .fin _ m e => log2Floor m e | _ => 0

/-- p × 2^(57 - E) cut toward zero. -/
def alignTerm (top : Int) (v : FVal) : Int :=
  match v with
  | .fin neg m e =>
    let sh := e + 57 - top
    let z : Int := if 0 ≤ sh then ((m * 2 ^ sh.toNat : Nat) : Int) else ((m / 2 ^ (-sh).toNat : Nat) : Int)
    if neg then -z else z
  | _ => 0

/-- The sum of one chunk's products, rounded to binary32 (R203). -/
def chunkSum (ps : List FVal) : FVal :=
  if ps.any FVal.isNan then .nan false
  else
    let infs := ps.filter FVal.isInf
    if infs.any FVal.neg && infs.any fun v => !v.neg then .nan false
    else
      match infs with
      | v :: _ => v
      | [] =>
        match ps.filter fun v => !v.isZero with
        | [] => .fin false 0 0
        | v :: l =>
          let top := l.foldl (fun m u => max m (valLog u)) (valLog v)
          let z := (v :: l).foldl (fun acc u => acc + alignTerm top u) 0
          decodeFmt .f32 (encodeFmt .f32 .rne false false (.fin (z < 0) z.natAbs (top - 57))).1

/-- One accumulator element after the eight chunks of a pass: the products of each chunk's macro rows. -/
def macElem (old : Nat) (prod : Nat → FVal) : Nat :=
  (List.range 8).foldl (fun a c =>
    (finishBin .f32 .rne false
      (addVal false (decodeFmt .f32 a) (chunkSum (tabulate 32 fun r => prod (32 * c + r))))).1) old

/-- The value in slot (k, j) of a bank. -/
def Bank.val (b : Bank) (k j : Nat) : FVal :=
  let x := keyGet b.slots (128 * k + j)
  if b.fmt = 2 ∨ b.fmt = 3 then elemVal b.fmt x 0x7F else elemVal b.fmt (x % 256) (x / 256)
/-- Element (k, j) of a MOD64 planting (R184). -/
def Bank.val64 (b : Bank) (k j : Nat) : Nat :=
  (List.range 4).foldl (fun acc h => acc + keyGet b.slots (128 * (4 * k + h) + j) * 65536 ^ h) 0

def sparseN : Nat → Nat
  | 1 => 12 | 2 => 8 | _ => 6
/-- The A column that macro row r reads (R202). -/
def Bank.column (b : Bank) (r : Nat) : Option Nat :=
  match b.mode with
  | .dense => some r
  | .sparse n idx => if r < 240 then some (24 * (r / n) + nth 0 idx r) else none
  | .mod64 => none

/-- Rows `i0` and up of a sparse table keyed 128 * row + column, replaced. -/
def putRows (l : List (Nat × Nat)) (i0 n : Nat) (f : Nat → Nat → Nat) : List (Nat × Nat) :=
  (l.filter fun p => decide (p.1 < 128 * i0)) ++
    ((List.range (128 * n)).filterMap fun x =>
      let v := f (i0 + x / 128) (x % 128)
      if v = 0 then none else some (128 * i0 + x, v)) ++
    l.filter fun p => decide (128 * (i0 + n) ≤ p.1)

/-! ## Residues (R210) -/

/-- The integer significand of an element. -/
def sigInt (fmt code : Nat) : Int :=
  if fmt = 13 then code
  else
    match (fmtOf fmt).map (decodeFmt · code) with
    | some (.fin neg m _) => if neg then -(m : Int) else m
    | _ => 0
/-- The integer that a slot of a planting holds. -/
def slotInt (fmt x : Nat) : Int := if fmt = 2 ∨ fmt = 3 then sigInt fmt x else if fmt = 13 then x else sigInt fmt (x % 256)
/-- The sum of a macro row's integers. -/
def rowInts (fmt : Nat) (slots : List (Nat × Nat)) (r : Nat) : Int :=
  slots.foldl (fun z p => if p.1 / 128 = r then z + slotInt fmt p.2 else z) 0
/-- The check columns of a tile. -/
def formChecks (fmt : Nat) (slots : List (Nat × Nat)) : List (Nat × Nat) :=
  ((slots.map fun p => p.1 / 128).eraseDups).flatMap fun r =>
    let z := rowInts fmt slots r
    [(2 * r, (z % 255).toNat), (2 * r + 1, (z % 257).toNat)]

/-- The integer that macro row m takes of a row of A. -/
def Bank.aInt (b : Bank) (r : List Word) (row : List (Nat × Nat)) (m : Nat) : Int :=
  match b.mode with
  | .mod64 => (nth (0, 0) row (m / 4)).1
  | _ => match b.column m with
    | some k => if k < recK r then sigInt (recFmt r) (nth (0, 0) row k).1 else 0
    | none => 0
/-- Whether the integer partial sums of every chunk of a pass agree with the check columns. -/
def Bank.residuesAgree (b : Bank) (r : List Word) (a : List (List (Nat × Nat))) : Bool :=
  let rows := (b.slots.map fun p => p.1 / 128).eraseDups
  a.all fun row => (List.range 8).all fun c =>
    let l := rows.filter fun m => m / 32 == c
    let sum (f : Nat → Int) : Int := l.foldl (fun z m => z + b.aInt r row m * f m) 0
    let z := sum (rowInts b.fmt b.slots)
    z % 255 == sum (fun m => (keyGet b.checks (2 * m) : Int)) % 255 && z % 257 == sum (fun m => (keyGet b.checks (2 * m + 1) : Int)) % 257

/-- The rows of a pass as they stand in the row buffer: the element that each macro row takes, and in a sparse planting none
past the 240 selected ones (R183). -/
def Bank.rowBuffer (b : Bank) (r : List Word) (a : List (List (Nat × Nat))) : List (List (Nat × Nat)) :=
  a.map fun row => tabulate 256 fun m =>
    match b.mode, b.column m with
    | .mod64, _ => nth (0, 0) row m
    | _, some k => if k < recK r then nth (0, 0) row k else (0, 0)
    | _, none => (0, 0)

/-! ## A pass -/

/-- A pass over rows `i0` to `i0 + n - 1` of one engine. -/
def Engine.pass (e : Engine) (r : List Word) (a : List (List (Nat × Nat))) (i0 n : Nat) : Engine :=
  let bank := if recBank r = 0 then e.bank0 else e.bank1
  let code (i j : Nat) : Nat × Nat := nth (0, 0) (nth [] a (i - i0)) j
  if recFmt r = 13 then
    { e with acc192 := putRows e.acc192 i0 n fun i j =>
        let old := keyGet e.acc192 (128 * i + j)
        if j < recN r then
          ((List.range (recK r)).foldl (fun acc k => acc + (code i k).1 * bank.val64 k j) (if recAcc r then old else 0)) % 2 ^ 192
        else old }
  else
    { e with acc := putRows e.acc i0 n fun i j =>
        let old := keyGet e.acc (128 * i + j)
        if j < recN r then
          macElem (if recAcc r then old else 0) fun m =>
            match bank.column m with
            | some k => if k < recK r then (mulVal (elemVal (recFmt r) (code i k).1 (code i k).2) (bank.val m j)).1
              -- a dense A position past K reads as zero (R202), and a sparse row past K contributes nothing (R183)
              else if bank.mode = .dense then (mulVal (.fin false 0 0) (bank.val m j)).1 else .fin false 0 0
            | none => .fin false 0 0
        else old }

/-- Whether the mode of a planting is that of the record (R199, code 0x05). -/
def Bank.matches (b : Bank) (r : List Word) : Bool :=
  match b.mode with
  | .dense => recSparse r == 0 && recFmt r != 13
  | .sparse n _ => recSparse r != 0 && n == sparseN (recSparse r)
  | .mod64 => recFmt r == 13

/-! ## Planting (R182 to R184, R208) -/

/-- The slots of a dense or sparse tile. -/
def tileSlots (fmt : Nat) (rows : List (List (Nat × Nat))) : List (Nat × Nat) :=
  (List.range rows.length).flatMap fun k =>
    let row := nth [] rows k
    (List.range row.length).filterMap fun j =>
      let p := nth (0, 0) row j
      let v := if fmt = 2 ∨ fmt = 3 then p.1 else p.2 * 256 + p.1
      if v = 0 then none else some (128 * k + j, v)
/-- The slots of a MOD64 tile. -/
def tileSlots64 (rows : List (List (Nat × Nat))) : List (Nat × Nat) :=
  (List.range (4 * rows.length)).flatMap fun k =>
    let row := nth [] rows (k / 4)
    (List.range row.length).filterMap fun j =>
      let v := (nth (0, 0) row j).1 / 65536 ^ (k % 4) % 65536
      if v = 0 then none else some (128 * k + j, v)

/-- Whether an index plane obeys R183. -/
def indexOk (n : Nat) (l : List Nat) : Bool :=
  (List.range l.length).all fun r =>
    decide (nth 0 l r < 24) && (r % n == 0 || decide (nth 0 l (r - 1) < nth 0 l r))

/-! ## Drains (R205 to R207) -/

/-- The accumulator element of destination column j: the engine of its N columns, and the column there. -/
def drainAt (es : List Engine) (r : List Word) (i j : Nat) : Nat × Nat :=
  let e := nth .zero es (j / max (recN r) 1)
  (keyGet e.acc (128 * i + j % max (recN r) 1), keyGet e.acc192 (128 * i + j % max (recN r) 1))

/-- Whether a drain's own rounding of a finite value overflowed. -/
def roundedOver (v : FVal) (fl : FFlags) : Bool := !v.isNan && !v.isInf && fl &&& flagOF != 0

/-- Code of a plain drain and whether it counts in `nsat`; `old` is what the destination holds. -/
def drainElem (r : List Word) (acc acc192 old : Nat) : Nat × Bool :=
  let v := decodeFmt .f32 acc
  let store (f : Fmt) : Nat × Bool :=
    let c := encodeFmt f .rne false false v
    (c.1, v.isNan || roundedOver v c.2)
  let add (f : Fmt) : Nat × Bool :=
    let d := decodeFmt f old
    let x := (addVal false d v).1
    let c := encodeFmt f .rne false false x
    (c.1, x.isNan || roundedOver x c.2)
  match recDrain r with
  | 0 => (if v.isNan then Fmt.nanCode .f32 else acc, v.isNan)
  | 1 => store .bf16
  | 2 => store .f16
  | 4 => add .f32
  | 5 => add .bf16
  | 6 => add .f16
  | _ => (acc192 % max (recWord r 6).toNat 1, false)

/-- floor(log2) of the largest magnitude a format reaches, as R206 lists it. -/
def mxEmax : Nat → Int
  | 4 => 15 | 5 => 8 | 6 => 2 | 7 => 12 | 8 => 8 | _ => 6

/-- Scale, codes and count of one block of values (R206). -/
def mxBlock (fmt : Nat) (vals : List FVal) : Nat × List Nat × Nat :=
  if vals.any fun v => v.isNan || v.isInf then (0xFF, vals.map fun _ => 0, vals.length)
  else
    let sc : Nat := match vals.filter fun v => !v.isZero with
      | [] => 0x7F
      | v :: l =>
        let x := l.foldl (fun m u => max m (valLog u)) (valLog v) - mxEmax fmt + 127
        (min (max x 0) 0xFE).toNat
    let enc := vals.map fun v =>
      match fmtOf fmt with
      | some f =>
        let c := encodeFmt f .rne true false (unscaleVal v sc)
        let sat : FFlags := if fmt = 9 then flagNV else if fmt = 7 ∨ fmt = 8 then flagOF ||| flagUF else flagOF
        (c.1, c.2 &&& sat != 0)
      | none => (0, false)
    (sc, enc.map Prod.fst, (enc.filter Prod.snd).length)

/-! ## One task -/

def State.modTask (s : State) (cl id : Nat) (f : Task → Task) : State :=
  s.modCluster cl fun c => { c with tasks := updWhere (fun k => k.id == id) f c.tasks }
def State.task? (s : State) (cl id : Nat) : Option Task := (s.cluster cl).tasks.find? fun k => k.id == id

/-- A task's queue in its team. -/
def Task.queue (k : Task) : Fin 4 := Fin.ofNat 4 (recQueue k.words)

/-- The first failed task of each queue, once task `seq` of queue `q` has failed or is to fail. -/
def noteFailed (qfail : Vector Word 4) (q : Fin 4) (seq : Word) : Vector Word 4 :=
  if qfail[q] = 0 ∨ seq < qfail[q] then qfail.set q.val seq else qfail

/-- A failure: later tasks of the queue, and those that depend on a failed one, will fail with 0x06 (R199). -/
def State.spreadFailure (s : State) (cl : Nat) (k : Task) : State :=
  let mark (acc : Vector Word 4 × List Nat) (x : Task) : Vector Word 4 × List Nat :=
    if x.tid ≠ k.tid ∨ x.id ≤ k.id then acc
    else if failedBy acc.1 x.queue x.seq.toNat (recDeps x.words) then
      (noteFailed acc.1 x.queue x.seq, x.id :: acc.2)
    else acc
  let t := s.team k.tid
  let q0 := if t.tid = 0 then Vector.replicate 4 0 else t.qfail
  let q1 := noteFailed q0 k.queue k.seq
  let r := (s.cluster cl).tasks.foldl mark (q1, [])
  let doom (x : Task) : Task := { x with fail := if x.fail = 0 then 6 else x.fail }
  let s := s.modCluster cl fun c => { c with tasks := updWhere (fun x => r.2.contains x.id) doom c.tasks }
  if t.tid = 0 then s else s.modTeam k.tid fun t => { t with qfail := r.1 }

/-- A running task fails with a code. -/
def State.failTask (s : State) (cl : Nat) (k : Task) (code : Nat) : State :=
  (s.modTask cl k.id fun x => { x with fail := code, st := .finished }).spreadFailure cl k

/-- A task meets a translation fault: it stalls until the replay. -/
def State.holdTask (s : State) (cl : Nat) (k : Task) (va acc : Nat) : State :=
  (s.modTask cl k.id fun x => { x with st := .held }).addFault cl ⟨k.ctx, va, acc, 3, cl, k.group, .task cl k.id⟩

/-- The slice of a place by its physical address alone (R249). -/
def State.slicePlain (s : State) (tgt : Target) : Nat :=
  match tgt with
  | .hbm pa => stackSlice (pa / 4096 % (2 * s.part.dies)) pa
  | _ => 0

/-! ## What Marten logs of a task (R405) -/

/-- A byte in a list that ascends by address. -/
def putByte : List (Nat × Byte) → Nat → Byte → List (Nat × Byte)
  | [], a, b => [(a, b)]
  | p :: l, a, b => if a < p.1 then (a, b) :: p :: l else if a = p.1 then (a, b) :: l else p :: putByte l a b
/-- A sampled task's reads and writes. -/
def State.logTask (s : State) (cl : Nat) (k : Task) (l : List Nat) : State :=
  if k.sampled then s.modTask cl k.id fun x => { x with log := x.log ++ l } else s
def State.logWritten (s : State) (cl : Nat) (k : Task) (addrs : List Nat) (rows : List (List Byte)) : State :=
  if k.sampled then
    s.modTask cl k.id fun x => { x with wrote := (addrs.zip rows).foldl (fun w p =>
      (List.range p.2.length).foldl (fun w i => putByte w (p.1 + i) (nth 0 p.2 i)) w) x.wrote }
  else s
/-- What a task's signature is formed over: each destination byte after its address, then `nsat` and `fail`. -/
def Task.signed (k : Task) : List Byte :=
  (k.wrote.flatMap fun p => leBytes 8 p.1 ++ [p.2]) ++ leBytes 1 k.nsat ++ leBytes 1 k.fail

/-- The CRC-64 of R405: polynomial 0x42F0E1EBA9EA3693, most significant bit first, from all ones and inverted at the end. -/
def crc64Bits : Nat → Nat → Nat
  | 0, c => c
  | n + 1, c => crc64Bits n (if c / 2 ^ 63 = 1 then (c * 2 % 2 ^ 64) ^^^ 0x42F0E1EBA9EA3693 else c * 2 % 2 ^ 64)
def crc64 (l : List Byte) : Nat :=
  (l.foldl (fun c b => crc64Bits 8 (c ^^^ (b.toNat * 2 ^ 56))) (2 ^ 64 - 1)) ^^^ (2 ^ 64 - 1)

/-- Writes log bytes at the place of an audit, `off` bytes in, where the area's frames are the root core's (R404). -/
def State.putLog (s : State) (place off : Nat) (l : List Byte) : State :=
  let a := bits s.mtcfg 0 48 + 262144 * (place % 256) + off
  let mine (pa : Nat) : Bool := decide (pa < s.part.hbmBytes) && s.frameWorld pa == 0xFFFF
  if mine a && mine (a + l.length) then s.hbmWrite a l else s

/-- What an error of a pass does. -/
def State.passError (s : State) (cl : Nat) (k : Task) (e : TaskErr) : State :=
  match e with
  | .held va acc => s.holdTask cl k va acc
  | .fail code => s.failTask cl k code
  | .bad tgt => (s.containedAt cl k.ctx (s.slicePlain tgt) (some tgt)).failTask cl k 3
  | .wait => s

def State.setEngines (s : State) (cl : Nat) (k : Task) (f : Engine → Engine) : State :=
  s.modCluster cl fun c => (enginesOf (recEmask k.words)).foldl (fun c e => c.modEngine e f) c
def State.taskEngines (s : State) (cl : Nat) (k : Task) : List Engine :=
  (enginesOf (recEmask k.words)).map (s.cluster cl).engine

/-- Withdraws an engine: it is fenced, and leaves every `eng` mask (R403). -/
def State.fenceEngine (s : State) (cl e : Nat) : State :=
  s.modCluster cl fun c =>
    { c.modEngine e fun x => { x with fenced := true } with
      quota := Vector.ofFn fun i => (setBits c.quota[i].1 (44 + e) 1 0, c.quota[i].2) }

/-- Residue mismatches of the engines of a task: the record, and the fence at the second within 3,200,000 ck. A fault that lasts
mismatches again, until the engine is fenced. -/
def State.noteMismatch (s : State) (cl : Nat) (k : Task) : State :=
  (enginesOf (recEmask k.words)).foldl (fun s e =>
    let x := (s.cluster cl).engine e
    if !x.mismatch then s
    else
      let again : Bool := match x.lastMismatch with | some t => decide (s.ck ≤ t + 3200000) | none => false
      let s := s.modCluster cl fun c => c.modEngine e fun x => { x with mismatch := x.lasting, lastMismatch := some s.ck }
      let s := s.machineCheck (dieOf cl) { mcOf s k.ctx 3 cl (if again then 2 else 1) 1 with det := (Config.freeValue s.freeCtr 64).toNat }
      let s := s.drawFree
      if again then s.fenceEngine cl e else s) s

/-- Whether an element is of the first N columns of rows `i0` to `i0 + n - 1`. -/
def inRows (r : List Word) (i0 n x : Nat) : Bool := decide (i0 ≤ x / 128) && decide (x / 128 < i0 + n) && decide (x % 128 < recN r)
/-- Whether the accumulator holds an uncorrectable error there. -/
def Engine.badRows (e : Engine) (r : List Word) (i0 n : Nat) : Bool := e.accPoison.any (inRows r i0 n)
/-- A pass's rows in one half of the row buffer. -/
def Engine.fill (e : Engine) (pass : Nat) (rows : List (List (Nat × Nat))) : Engine :=
  if pass % 2 = 0 then { e with rows0 := rows } else { e with rows1 := rows }
/-- The residue check of a pass. -/
def Engine.checkPass (e : Engine) (b : Bank) (r : List Word) (a : List (List (Nat × Nat))) : Engine :=
  if b.residuesAgree r a then e else { e with mismatch := true }

/-- A pass of a `MAC` (R185): eight rows. Where several failures of R199 apply, the planting's mode comes first, then poison in
the planting or the accumulator, then the operand's reads, then the residues; and a pass with a mismatch adds nothing in any
engine of the mask: both are the model's choices (log 99). -/
def State.macPass (s : State) (cl : Nat) (k : Task) : State :=
  let r := k.words
  let c := s.taskCtx cl k
  let es := s.taskEngines cl k
  let bank (e : Engine) : Bank := if recBank r = 0 then e.bank0 else e.bank1
  let n := min 8 (recM r - k.prog)
  if es.any fun e => !(bank e).matches r then s.failTask cl k 5
  else if es.any fun e => (bank e).poison.any (fun x => decide (x % 128 < recN r)) || (recAcc r && e.badRows r k.prog n) then
    (s.contained (dieOf cl) k.ctx 3 cl 0).failTask cl k 3
  else
    let p := s.readTensor c r (recK r) k.prog n
    match p.2 with
    | .error (e, _) => p.1.passError cl k e
    | .ok a =>
      let s := p.1.setEngines cl k fun e => (e.fill (k.prog / 8) ((bank e).rowBuffer r a)).checkPass (bank e) r a
      if (s.taskEngines cl k).any Engine.mismatch then (s.noteMismatch cl k).failTask cl k 1
      else
        let s := (s.logTask cl k (a.flatten.flatMap fun x => [x.1, x.2])).setEngines cl k fun e =>
          { e.pass r a k.prog n with accPoison := e.accPoison.filter fun x => !inRows r k.prog n x }
        let done := k.prog + n
        s.modTask cl k.id fun x =>
          if recM r ≤ done then
            (if recKind r = 3 then { x with prog := 0, ph := 1 } else { x with prog := 0, st := .finished })
          else { x with prog := done }

/-- A `PLANT` (R208): the index plane first, then the tile; one that fails once writing has begun zeroes the bank. When
writing begins is the model's choice (log 69): when row 0 and the scales have been read, so that a failure on one of
those leaves the bank. -/
def State.plantPass (s : State) (cl : Nat) (k : Task) : State :=
  let r := k.words
  let c := s.taskCtx cl k
  let sp := recSparse r
  let put (b : Bank) (s : State) : State := s.setEngines cl k fun e => e.setBank (recBank r) b
  let idx : State × Except TaskErr (List Byte) := if sp = 0 then (s, .ok []) else s.taskRead c (recWord r 6).toNat 240
  match idx.2 with
  | .error e => idx.1.passError cl k e
  | .ok l =>
    let l := l.map BitVec.toNat
    if sp ≠ 0 ∧ !indexOk (sparseN sp) l then idx.1.failTask cl k 4
    else
      let p := idx.1.readTensor c r (recN r) 0 (if sp = 0 then recK r else 240)
      match p.2 with
      | .error (.held va acc, _) => p.1.holdTask cl k va acc
      | .error (.wait, _) => p.1
      | .error (e, i) => (if i = 0 then p.1 else put .zero p.1).passError cl k e
      | .ok rows =>
        let mode : PlantMode := if recFmt r = 13 then .mod64 else if sp = 0 then .dense else .sparse (sparseN sp) l
        let slots := if recFmt r = 13 then tileSlots64 rows else tileSlots (recFmt r) rows
        (put ⟨mode, recFmt r, slots, formChecks (recFmt r) slots, []⟩ (p.1.logTask cl k (rows.flatten.flatMap fun x => [x.1, x.2]))).modTask cl k.id fun x => { x with st := .finished }

/-- Whether the drain of a task takes the whole tile as one event (R207). -/
def recAdds (r : List Word) : Bool := decide (4 ≤ recDrain r) && decide (recDrain r ≤ 6)
/-- Rows that one pass of a drain writes: the tile, a row of blocks, or eight. -/
def drainRows (r : List Word) : Nat :=
  if recAdds r then 256 else if recDrain r = 3 then (blockShape (recMxblk r)).1 else 8

/-- Codes of rows `i0` to `i0 + n - 1` of a drain, the scales of a requantised band, and what counts in `nsat`. -/
def drainBand (es : List Engine) (r : List Word) (i0 n : Nat) (old : List (List Byte)) : List (List Nat) × List Nat × Nat :=
  let cols := destCols r
  if recDrain r = 3 then
    let b := (blockShape (recMxblk r)).2
    let blocks := tabulate (ceilDiv cols b) fun q =>
      let w := min b (cols - q * b)
      (w, mxBlock (recMxfmt r) (tabulate (n * w) fun x => decodeFmt .f32 (drainAt es r (i0 + x / max w 1) (q * b + x % max w 1)).1))
    let code (i j : Nat) : Nat :=
      let p := nth (1, (0, [], 0)) blocks (j / b)
      nth 0 p.2.2.1 (i * p.1 + j % b)
    (tabulate n fun i => tabulate cols (code i), blocks.map fun p => p.2.1, sumOf (fun p => p.2.2.2) blocks)
  else
    let w := drainBits r
    let out := tabulate n fun i => tabulate cols fun j =>
      let a := drainAt es r (i0 + i) j
      drainElem r a.1 a.2 (unpackAt (nth [] old i) w j)
    (out.map fun l => l.map Prod.fst, [], sumOf (fun l : List (Nat × Bool) => (l.filter Prod.snd).length) out)

/-- Places several ranges, in order. -/
def State.placeRanges (s : State) (c : TaskCtx) (acc : Nat) : List (Nat × Nat) → State × Except TaskErr (List (List (Target × Nat)))
  | [] => (s, .ok [])
  | (va, n) :: l =>
    let p := s.taskPlaces c acc (pagePieces va n)
    match p.2 with
    | .error e => (p.1, .error e)
    | .ok x =>
      let q := p.1.placeRanges c acc l
      match q.2 with
      | .ok y => (q.1, .ok (x :: y))
      | .error e => (q.1, .error e)

/-- What a drain whose logic has a fault that only Marten finds writes instead of some bytes (R397, R399). -/
def wrongBytes (n : Nat) (l : List Byte) : List Byte := leBytes l.length (Config.freeValue n (8 * l.length)).toNat

/-- A pass of a drain: every byte it writes is translated before the first is written. -/
def State.drainPass (s : State) (cl : Nat) (k : Task) : State :=
  let r := k.words
  let c := s.taskCtx cl k
  let es := s.taskEngines cl k
  let n := min (drainRows r) (recM r - k.prog)
  let rowBytes := destCols r * drainBits r / 8
  let b := (blockShape (recMxblk r)).2
  let scLen := ceilDiv (destCols r) b
  let scRow := if recDspitch r = 0 then scLen else recDspitch r
  let ranges := (tabulate n fun i => (recDaddr r + recDpitch r * (k.prog + i), rowBytes)) ++
    (if recDrain r = 3 then [(recDsaddr r + k.prog / b * scRow, scLen)] else [])
  if es.any (·.badRows r k.prog n) then (s.contained (dieOf cl) k.ctx 3 cl 0).failTask cl k 3
  else
    let p := s.placeRanges c (if recAdds r then 2 else 1) ranges
    match p.2 with
    | .error e => p.1.passError cl k e
    | .ok pls =>
      let s := p.1
      let olds : Except TaskErr (List (List Byte)) :=
        if recAdds r then
          pls.foldr (fun l acc => match s.piecesRead l, acc with
            | .ok x, .ok y => .ok (x :: y)
            | .error e, _ => .error e
            | _, .error e => .error e) (.ok [])
        else .ok []
      match olds with
      | .error e => s.passError cl k e
      | .ok old =>
        let out := drainBand es r k.prog n old
        let w := drainBits r
        let bytes := (tabulate n fun i => packRow w (nth [] out.1 i)) ++
          (if recDrain r = 3 then [out.2.1.map fun x => BitVec.ofNat 8 x] else [])
        let wrong := (enginesOf (recEmask r)).any fun e => s.faulty.contains (true, 3 * cl + e)
        let bytes := if wrong then bytes.map fun l => wrongBytes s.freeCtr l else bytes
        let s := if wrong then s.drawFree else s
        let s := (List.range bytes.length).foldl (fun s i => s.piecesWrite (nth [] pls i) (nth [] bytes i)) s
        let s := s.logWritten cl k (ranges.map Prod.fst) bytes
        let done := k.prog + n
        s.modTask cl k.id fun x =>
          let x := { x with nsat := min 255 (x.nsat + out.2.2) }
          if recM r ≤ done then { x with prog := 0, st := .finished } else { x with prog := done }

/-- One pass of a running task; it is paused while an engine it uses is not its context's (R338). -/
def State.taskPass (s : State) (cl id : Nat) : State :=
  match s.task? cl id with
  | none => s
  | some k =>
    if k.st ≠ .running ∨ !((enginesOf (recEmask k.words)).all fun e => s.engineOf cl e k.ctx) then s
    else
      match recKind k.words with
      | 0 => s.plantPass cl k
      | 1 => s.macPass cl k
      | 2 => s.drainPass cl k
      | _ => if k.ph = 0 then s.macPass cl k else s.drainPass cl k

/-! ## Starting (R193, R195) -/

/-- Completed counts of a team, living or gone. -/
def State.queueSeq (s : State) (tid : Nat) : Vector Word 4 :=
  let t := s.team tid
  if t.tid ≠ 0 then t.qseq
  else ((s.ghosts.find? fun g => g.tid == tid).map GhostQueues.qseq).getD (Vector.replicate 4 0)

/-- Whether a task is at the head of its queue, released, with its dependences satisfied. -/
def State.taskReady (s : State) (cl : Nat) (k : Task) : Bool :=
  let seqs := s.queueSeq k.tid
  let t := s.team k.tid
  k.st == .queued &&
    ((s.cluster cl).tasks.all fun x => !(x.tid == k.tid && x.queue == k.queue && decide (x.id < k.id))) &&
    ((recDeps k.words).all fun d => decide ((seqs[d.1].toNat + 4294967296 - d.2) % 4294967296 < 2147483648)) &&
    ((List.range 4).all fun q => decide ((nth 0 k.after.toList q).toNat ≤ (nth 0 seqs.toList q).toNat)) &&
    (t.tid == 0 || (t.accs.all (fun a => decide (k.accBound ≤ a.seq) || a.performed) &&
      (s.combOf t).all fun c => c.tid != k.tid))

/-- Whether a task holds an engine. -/
def Task.busy (k : Task) (e : Nat) : Bool :=
  (k.st == .running || k.st == .held || k.st == .finished || k.st == .wordHeld) && (enginesOf (recEmask k.words)).contains e

/-- Whether every engine of a task is granted to its context and free for its class, and its bank for what it does to it;
a task paused because its engine was taken holds nothing of it (R321, R338). -/
def State.enginesFree (s : State) (cl : Nat) (k : Task) : Bool :=
  let plant (x : Task) : Bool := recKind x.words == 0
  let usesBank (x : Task) : Bool := recKind x.words != 2
  (enginesOf (recEmask k.words)).all fun e => s.engineOf cl e k.ctx &&
    (s.cluster cl).tasks.all fun x => x.id == k.id || !x.busy e || !s.engineOf cl e x.ctx ||
      (plant x != plant k && !(usesBank x && usesBank k && recBank x.words == recBank k.words))

/-- Whether an older task that has aged, or waited 4,096 ck, bars a younger one. -/
def State.barred (s : State) (cl : Nat) (k : Task) : Bool :=
  (s.cluster cl).tasks.any fun x => decide (x.id < k.id) && x.st == .queued &&
    (x.aged || (match x.waiting with | some t => decide (t + 4096 ≤ s.ck) | none => false)) &&
    (enginesOf (recEmask x.words)).any fun e => (enginesOf (recEmask k.words)).contains e

/-- Tasks that could start but for their engines wait from now on: for one that another holds, or that an aged task keeps. -/
def State.noteWaiting (s : State) (cl : Nat) : State :=
  let waits (k : Task) : Bool := k.waiting.isNone && s.taskReady cl k && (!s.enginesFree cl k || s.barred cl k)
  let ids := ((s.cluster cl).tasks.filter waits).map Task.id
  s.modCluster cl fun c => { c with tasks := updWhere (fun k => ids.contains k.id) (fun k => { k with waiting := some s.ck }) c.tasks }

/-- The audit counter of a cluster advances; whether the item that begins is sampled (R404). -/
def State.sampleItem (s : State) (cl : Nat) (due : Bool) : State × Bool :=
  let n := (s.cluster cl).audit + 1
  let k := bits s.mtcfg 48 5
  let on := bitAt s.mtcfg 63
  (s.modCluster cl fun c => { c with audit := n }, on && (due || (mix64 n).toNat % 2 ^ k == 0))

/-- Starts the oldest task of a cluster that can start. One that is to fail with 0x06 does so without running. -/
def State.startTask (s : State) (cl : Nat) : State :=
  let s := ((s.cluster cl).tasks.map Task.tid).eraseDups.foldl (fun s t => if (s.team t).tid = 0 then s else s.forceAll t) s
  let can (k : Task) : Bool := s.taskReady cl k && (k.fail != 0 || (s.enginesFree cl k && !s.barred cl k))
  match (s.cluster cl).tasks.find? can with
  | none => s.noteWaiting cl
  | some k =>
    if k.fail ≠ 0 then s.modTask cl k.id fun x => { x with st := .finished }
    else
      let due := (enginesOf (recEmask k.words)).any fun e => ((s.cluster cl).engine e).owed
      let p := s.sampleItem cl due
      let rows := (p.1.taskEngines cl k).flatMap fun e => e.acc.flatMap fun x => [x.1, x.2]
      let log := k.words.map BitVec.toNat ++ if recAcc k.words then rows else []
      ((p.1.setEngines cl k fun e => { e with owed := false }).modTask cl k.id fun x =>
        { x with st := .running, sampled := p.2, log := if p.2 then log else [] }).noteWaiting cl

/-! ## Completing (R197, R198, R199) -/

def completionWord (k : Task) : Nat :=
  let bad := decide (k.fail ≠ 0)
  b2n bad * 2 ^ 63 + k.fail % 128 * 2 ^ 56 + k.nsat % 256 * 2 ^ 48 + k.seq.toNat % 2 ^ 48

/-- Reports a failure code to the team, or to the supervisor when the team has gone. -/
def State.reportTask (s : State) (cl : Nat) (k : Task) (code : Nat) : State :=
  let info := word (code + k.queue.val * 256 + k.seq.toNat % 2 ^ 48 * 65536)
  let t := s.team k.tid
  if t.tid ≠ 0 ∧ t.st ≠ .exiting then s.pendTrap k.tid 15 info
  else s.queueRec k.ctx cl [eventRec 3 15 k.index k.group 0 info 0]

/-- Conveyed queue holdings leave their estate when the queue's last task completes (R290). -/
def State.leaveQueues (s : State) : State :=
  let busy (t n : Nat) : Bool := s.clusters.any fun c => c.tasks.any fun k => k.tid == t && recQueue k.words == n
  { s with
    groups := s.groups.map fun g => { g with estate := g.estate.filter fun e =>
      !(e.kind == 3 && e.conveyed && !busy e.owner e.obj.toNat) }
    ghosts := s.ghosts.filter fun g => s.clusters.any fun c => c.tasks.any fun k => k.tid == g.tid }

/-- Teams parked in `waitq` whose sequence number has been reached. -/
def State.wakeQueue (s : State) (tid : Nat) : State :=
  let t := s.team tid
  match t.escort with
  | some e =>
    match e.what with
    | .queue q v =>
      if e.status = 0 ∧ (e.place = .unit ∨ e.eo) ∧ v.toNat ≤ t.qseq[q].toNat then s.completeWait tid none 0 false else s
    | _ => s
  | none => s

/-- A sampled task goes to its replay, once for each engine that ran it. A replay forms its signature over what the logged reads
give, which a drain with a fault may not have written. -/
def State.auditTask (s : State) (cl : Nat) (k : Task) : State :=
  (enginesOf (recEmask k.words)).foldl (fun s e =>
    let bytes := k.log.flatMap (leBytes 8)
    let wrong := s.faulty.contains (true, 3 * cl + e)
    let copy := if wrong then (Config.replayed k.log).flatMap (leBytes 1) else k.signed
    let a : Audit := ⟨true, 3 * cl + e, k.id, k.ctx, none, k.log, s.nextId, bytes.length, k.signed, copy, none, none⟩
    { s.putLog s.nextId 0 bytes with audits := s.audits ++ [a], nextId := s.nextId + 1 }) s

/-- Raises the completed count and removes the task; an item sampled by Marten goes to its replay. -/
def State.retireTask (s : State) (cl : Nat) (k : Task) (reports : List Nat) : State :=
  let s := s.modCluster cl fun c => { c with tasks := c.tasks.filter fun x => x.id != k.id }
  let s := (s.modTeam k.tid fun t => { t with qseq := t.qseq.set k.queue.val k.seq })
  let s := { s with ghosts := updWhere (fun g => g.tid == k.tid) (fun g => { g with qseq := g.qseq.set k.queue.val k.seq }) s.ghosts }
  let s := reports.foldl (fun s c => s.reportTask cl k c) s
  let s := if k.sampled then s.auditTask cl k else s
  ((s.wakeQueue k.tid).leaveQueues).noteWaiting cl

/-- A finished task completes: its word, then the count. -/
def State.completeTask (s : State) (cl id : Nat) : State :=
  match s.task? cl id with
  | none => s
  | some k =>
    if k.st ≠ .finished then s
    else
      let own := if k.fail = 0 ∨ k.fail = 6 then [] else [k.fail]
      if recCword k.words = 0 then s.retireTask cl k own
      else
        let c := s.taskCtx cl k
        let p := s.taskPlaces c 1 [(recCword k.words, 8)]
        match p.2 with
        | .error (.held va acc) =>
          (p.1.modTask cl id fun x => { x with st := .wordHeld }).addFault cl ⟨k.ctx, va, acc, 3, cl, k.group, .taskWord cl id⟩
        | .error (.fail _) | .error (.bad _) => p.1.retireTask cl k (own ++ [7])
        | .error .wait => p.1
        | .ok l => (p.1.piecesWrite l (leBytes 8 (completionWord k))).retireTask cl k own

/-- A parked `mtask` enters the pool when a record frees: the oldest first (R192). -/
def State.grantRecord (s : State) (tid : Nat) : State :=
  let t := s.team tid
  match t.escort with
  | some e =>
    match e.what with
    | .mtask r d =>
      if e.status = 0 ∧ (e.place = .unit ∨ e.eo) ∧ s.poolRoom t then
        let p := s.enterTask tid r
        p.1.completeWait tid d p.2 true
      else s
    | _ => s
  | none => s

end Sys2Proof.Machine
end

