-- ==== Sys2Proof/Machine/EscortEvents.lean ====
section
/-! DEFINITION. What happens to escort frames, to elements on their way and to parked waits (R105, R112, R149 to R152,
R167, R177, R192, R217, R223 to R228, R231, R248, R313, R330, R346, R358, R360). -/
namespace Sys2Proof.Machine
open Sys2Proof

/-! ## Budget (R223, R231) -/

/-- Teams of a core that wait for bytes, those of stages within their share first, then the oldest issue. -/
def State.budgetQueue (s : State) (c k : Nat) : List (Nat × Team) :=
  s.teams.filterMap fun t =>
    match t.budgetWait with
    | some (_, o) => if t.cluster = c ∧ t.core = k then some (b2n (s.aboveShare t) * 2 ^ 64 + o, t) else none
    | none => none

/-- Freed bytes go to the first team of its context in the queue whose charge they cover. A team whose charge has come to exceed
a lowered budget issues again, unescorted (R151). -/
def execBudgetGrant (c k : Nat) (s : State) : Out :=
  let q := s.budgetQueue c k
  let first (p : Nat × Team) : Bool := q.all fun r => (s.group r.2.group).ctx != (s.group p.2.group).ctx || decide (p.1 ≤ r.1)
  let fits (p : Nat × Team) : Bool :=
    match p.2.budgetWait with
    | some (charge, _) => s.bytesFree p.2 charge || decide (s.abroadBudget p.2 < charge)
    | none => false
  match minBy Prod.fst (q.filter fun p => first p && fits p) with
  | none => .next s
  | some p =>
    .next ((s.modTeam p.2.tid fun t => { t with granted :=
      match t.budgetWait with | some (charge, _) => if s.bytesFree p.2 charge then charge else 0 | none => 0 }).makeReady p.2.tid)

/-! ## The pen (R150, R224) -/

/-- Bytes reserved in a slice's pen, by all frames or by those that wait on a condition. -/
def State.penBytes (s : State) (slice : Nat) (waits : Bool) : Nat :=
  sumOf (fun t : Team => match t.escort with
    | some e =>
      let w : Bool := match e.what with | .word _ => true | _ => false
      if e.place = .pen ∧ e.slice = slice ∧ (!waits || w) then e.charge else 0
    | none => 0) s.teams

/-- The oldest request that waits at a slice. -/
def State.oldestRequest (s : State) (slice : Nat) : Option Team :=
  (minBy Prod.fst (s.teams.filterMap fun t =>
    match t.escort with
    | some e => if e.place = .request ∧ e.slice = slice then some (e.arrived, t) else none
    | none => none)).map Prod.snd

/-- An access of the team in question is performed: the PC moves on, m7 is empty where the instruction is resumable, its
destination is live, and the frame sets out as a reply (R44, R150, R152). -/
def State.accessDone (s : State) (tid seq : Nat) (a : Acc) : State :=
  s.tickEvent.modTeam tid fun t =>
    match t.escort with
    | none => t
    | some e =>
      let live : Team := match a.dst with
        | .lane r => t.setV r (tabulate t.lanes fun x => nth 0 t.v[r] x)
        | _ => t
      let resumes : Bool := match a.op with | .stf _ => false | _ => true
      let t := (live.clearM7 resumes).advance e.len
      { t with
        accs := t.accs.filter fun b => b.seq != seq
        escort := some { e with
          status := 1
          place := .reply
          arrived := s.events
          liveV := match a.dst with | .lane r => e.liveV ||| (1#96 <<< r.val) | _ => e.liveV } }

/-- Merges what has returned, and completes an access with nothing pending. -/
def State.mergeAccess (s : State) (tid seq : Nat) : State :=
  let s := s.deliverAcc tid seq
  match s.acc? tid seq with
  | none => s
  | some a => if a.finished then s.accessDone tid seq a else s

/-! ## Elements (R217, R228, R358, R360) -/

/-- Whether an access's elements are on the networks now: unescorted, or its frame is in a pen. -/
def State.accessOut (s : State) (tid : Nat) (a : Acc) : Bool :=
  match (s.team tid).escort with
  | some e => !a.esc || e.eo || (match e.what with | .access q => q != a.seq || e.place == .pen | .unitAccess q => q != a.seq | _ => true)
  | none => true

/-- A peer's answer to a remote element: a value, or a denial, which gives zero and the access fault at the next
boundary. -/
def State.answerRemote (s : State) (tid seq idx : Nat) (answer : Option Nat) : State :=
  let mine (r : Remote) : Bool := r.tid == tid && r.seq == seq && r.idx == idx
  if !s.remotes.any mine then s
  else
    -- the timer stops, whatever has become of the access (R362)
    let s := { s with remotes := s.remotes.filter fun r => !mine r }
    match s.acc? tid seq with
    | none => s
    | some a =>
      let e := nth .zero a.elems idx
      if e.st ≠ .sent then s
      else
        let s := s.modElem tid seq idx fun e => { e with got := (answer.getD 0) % 2 ^ (8 * e.size), st := .done }
        match answer with
        | some _ => s
        | none => s.pendAccess tid e.va fun v => a.elems.any fun x => x.va == v

/-- An element is performed at its slice and answered, or sent to its peer; one that was sent takes the peer's answer. -/
def execFetchAccess (tid seq idx : Nat) (answer : Option Nat) (s : State) : Out :=
  match s.acc? tid seq with
  | none => .next s
  | some a =>
    if !s.accessOut tid a then .next s
    else if (nth .zero a.elems idx).st = .sent then .next (s.answerRemote tid seq idx answer).settleAll
    else .next (s.performElem tid seq idx).settleAll

/-- Results of an unescorted load or atomic write their destination. -/
def execUnescortedResult (tid seq : Nat) (s : State) : Out :=
  match s.acc? tid seq with
  | none => .next s
  | some a => .next (if s.accessOut tid a && !(s.team tid).framed seq then ((s.performAcc tid seq).deliverAcc tid seq).settleAll else s)

/-- Entries of a core's combining buffer that are 1,024 ck old drain (R248). -/
def execCombineEntryTimeout (c k : Nat) (s : State) : Out :=
  let old := ((s.cluster c).core k).comb.filter fun e => decide (e.since + 1024 ≤ s.ck)
  .next (old.foldl (fun s e => s.drainEntry e.tid e.dev e.line) s).settleAll

/-! ## A word that a fault had held (R425) -/

/-- An instruction that a trap at its boundary stops: its frame returns unperformed, or it ends in place, and its team takes
the trap there (R313, R324, R346). -/
def State.refuseWait (s : State) (tid cause va : Nat) : State :=
  (s.tickEvent.modTeam tid fun t =>
    match t.escort with
    | none => t
    | some e =>
      if e.eo then { t with escort := none, st := .ready, readyAt := s.ck, readyPrev := false }
      else { t with escort := some { e with status := 2, place := .reply, arrived := s.events } }).pendTrap tid cause (word va)

/-- A word operation that has not acted yet acts, as if it had just issued, once nothing of its team keeps it back; one that has
acted looks at its word again. -/
def State.actWord (s : State) (tid : Nat) (r : WordReq) : State :=
  if r.acted then s.lookAgain tid
  else
    let s := s.clearWord tid r
    if !s.wordReady tid r then s
    else if s.noEntry tid r then s.refuseWait tid 7 r.addr
    else
      let x := s.wordRun tid r
      match x.2.1 with
      | some d => x.1.tickEvent.completeWait tid r.dst d false
      | none => x.1.modTeam tid fun t => { t with escort := t.escort.map fun e => { e with what := .word x.2.2 } }

def execPenMerge (tid : Nat) (s : State) : Out :=
  match (s.team tid).escort with
  | some e =>
    match e.what with
    | .access seq => .next (if e.place = .pen then (s.mergeAccess tid seq).settleAll else s)
    | .word r => .next (if (e.place = .pen ∨ e.place = .watched) ∧ !r.acted then (s.actWord tid r).settleAll else s)
    | _ => .next s
  | none => .next s

/-! ## Watch entries and the cluster's unit (R149, R224) -/

def execWatchWake (tid : Nat) (s : State) : Out :=
  match (s.team tid).escort with
  | some e => .next (if e.place = .watched ∧ e.status = 1 then s.moveFrame tid .reply else s)
  | none => .next s

/-- A scratchpad access, or one without elements, performed at the unit as a whole, or not yet (R149, R226). -/
def State.unitPerform (s : State) (tid seq : Nat) : State :=
  let s' := match s.acc? tid seq with
    | some a => if a.elems.isEmpty then s.accessDone tid seq a else (s.performAcc tid seq).mergeAccess tid seq
    | none => s
  if (s'.acc? tid seq).isSome then s else s'

/-- The unit performs a scratchpad access, or one without elements, and looks at what a frame waits for. -/
def execBarrierUnitFrame (tid : Nat) (s : State) : Out :=
  match (s.team tid).escort with
  | some e =>
    if e.place ≠ .unit then .next s
    else
      match e.what with
      | .unitAccess seq => .next (s.unitPerform tid seq).settleAll
      | .word r => .next (s.actWord tid r).settleAll
      | .queue _ _ => .next (s.wakeQueue tid)
      | _ => .next s
  | none => .next s

/-! ## Landing (R225) -/

/-- Frames of a core that wait in the Lodge for room. -/
def State.lodgedOn (s : State) (c k : Nat) : List (Nat × Team) :=
  s.teams.filterMap fun t =>
    match t.escort with
    | some e => if t.cluster = c ∧ t.core = k ∧ e.place = .lodged ∧ !e.recalled then some (e.arrived, t) else none
    | none => none

def State.lodge (s : State) (tid : Nat) : State :=
  (s.moveFrame tid .lodged).modTeam tid fun t => { t with escort := t.escort.map fun e => { e with lodgedAt := s.ck } }

def execFrameLand (tid : Nat) (s : State) : Out :=
  match (s.team tid).escort with
  | some e =>
    if e.place ≠ .reply then .next s
    else .next (if !e.recalled ∧ s.roomFor (s.team tid) then s.land tid else s.lodge tid)
  | none => .next s

/-- The oldest frame of a core's Lodge moves to the register store when the core has room for its team. -/
def execLodgeToRegister (c k : Nat) (s : State) : Out :=
  match minBy Prod.fst (s.lodgedOn c k) with
  | some p => .next (if s.roomFor p.2 then s.land p.2.tid else s)
  | none => .next s

/-! ## Parked waits (R112, R167, R177, R192, R313) -/

/-- Whether a parked instruction waits at the cluster's unit, or in place. -/
def Escort.atUnit (e : Escort) : Bool := e.status == 0 && (e.place == .unit || e.eo)

/-- A parked `lkacq` whose timeout has run out completes without acquiring. -/
def execLkacqTimeout (tid : Nat) (s : State) : Out :=
  match (s.team tid).escort with
  | some e =>
    match e.what with
    | .word r =>
      match r.op, s.wordAt tid r with
      | .lkacq entry (some n) _ _, some tgt =>
        if e.listens ∧ r.acted ∧ r.issued + n ≤ s.ck then
          let s := (match entry with | some k => s.freeEntry (s.team tid).group k | none => s).prepareHome tid r
          .next (s.tickEvent.completeWait tid r.dst (word (s.readAt tgt 8)) false)
        else .next s
      | _, _ => .next s
    | _ => .next s
  | none => .next s

/-- Whether a fault buffer still holds something of a team's append. -/
def State.appendHeld (s : State) (tid : Nat) : Bool :=
  s.dies.any fun d => d.faults.any (fun f => f.ref == .append tid) || d.waits.any fun f => f.ref == .append tid

/-- A parked `emit` appends its record as soon as its slot may be taken; one whose launch is ending completes with
status 3. -/
def State.retryEmit (s : State) (tid : Nat) : State :=
  let t := s.team tid
  match t.escort with
  | some e =>
    match e.what with
    | .emit k off len dst =>
      let g := s.group t.group
      if !e.atUnit ∨ s.appendHeld tid then s
      else if (s.launch g.launch).ending then s.tickEvent.completeWait tid dst 3 true
      else
        match s.tryEmit tid k off len with
        | .done s' => s'.tickEvent.completeWait tid dst 0 true
        | .full => s
        | .held va => s.addFault t.cluster ⟨g.ctx, va, 1, 2, t.cluster, g.handle, .append tid⟩
        | .refused va => s.refuseWait tid 6 va
    | _ => s
  | none => s
def execEmitSlotGrant (tid : Nat) (s : State) : Out := .next (s.retryEmit tid)
def execMtaskRecordGrant (tid : Nat) (s : State) : Out := .next (s.grantRecord tid)

/-- A parked `kick` queues its notice when its target's queue has an entry. -/
def execKickEntryGrant (tid : Nat) (s : State) : Out :=
  let t := s.team tid
  match t.escort with
  | some e =>
    match e.what with
    | .kick target bar notice =>
      if !e.atUnit then .next s
      else
        match s.postKick (s.group t.group) target bar notice with
        | some s' => .next (s'.tickEvent.completeWait tid none 0 false)
        | none => .next s
    | _ => .next s
  | none => .next s

/-! ## Recall (R111 to R113, R152, R164, R226, R330) -/

/-- Drops an access of a team, with what the fault buffer holds of it. What has been sent to a peer is answered there, and its
timer runs on (R362). -/
def State.dropAccess (s : State) (tid seq : Nat) : State :=
  (s.dropFaults fun r => match r with | .elem t q _ => t == tid && q == seq | _ => false).modTeam tid fun t =>
    { t with accs := t.accs.filter fun a => a.seq != seq }

/-- The frame returns with a status, or a wait in place ends. -/
def State.returnFrame (s : State) (tid status : Nat) : State :=
  s.tickEvent.modTeam tid fun t => { t with
    escort := t.escort.map fun e => { e with
      status := status
      place := if e.place = .request ∨ e.place = .pen ∨ e.place = .unit then .reply else if e.place = .reply then .reply else .lodged
      lodgedAt := s.ck
      arrived := s.events } }

/-! ## At the carrier (R150 steps 4 and 6) -/

/-- Whether an element of an `stf` lies, now that it is translated, on another device than the flag that counts it, or the data
that it counts (R156). -/
def State.astray (s : State) (tid seq idx : Nat) : Bool :=
  match s.acc? tid seq with
  | none => false
  | some a =>
    let e := nth .zero a.elems idx
    (match a.op with | .stf _ => true | _ => false) && a.elems.any fun f =>
      f.flag != e.flag && (if e.flag then f.aux == e.va else e.aux == f.va) &&
        (match e.tgt, f.tgt with | some x, some y => x.device != y.device | _, _ => false)

/-- A held element is translated afresh: it faults again, proceeds, or is refused. -/
def State.replayElem (s : State) (tid seq idx : Nat) (f : FaultWait) : State :=
  let t := s.team tid
  match s.acc? tid seq with
  | none => s
  | some a =>
    let e := nth .zero a.elems idx
    let first : Bool := match t.escort with | some x => x.place == .faultHold && x.what == .access seq && idx == 0 | none => false
    if e.st ≠ .held then s
    else
      let p := s.translate t.cluster (s.group t.group).ctx e.va f.acc
      match p.2 with
      | .error .replay => p.1.addFault t.cluster f
      | .ok pl =>
        let s := p.1.modElem tid seq idx fun e => { e with tgt := some pl.tgt, kind := pl.kind, slice := pl.slice, st := .todo }
        if s.astray tid seq idx then s.refuseElem tid a idx e
        else
        let s := s.noteSlices t.group [{ e with tgt := some pl.tgt, slice := pl.slice }]
        if first then
          (s.modTeam tid fun t => { t with escort := t.escort.map fun x => { x with slice := pl.slice } }).moveFrame tid .request
        else s
      | .error .access =>
        if first then ((p.1.dropAccess tid seq).returnFrame tid 2).pendTrap tid 6 (word e.va)
        else
          p.1.refuseElem tid a idx e

/-- Where the first element's fault held the frame, the elements after it that met one at issue are translated again at the
carrier. -/
def State.carrierElems (s : State) (t : Team) (a : Acc) (slice : Nat) : State :=
  (List.range a.elems.length).foldl (fun s i =>
    let e := nth .zero a.elems i
    if e.st = .queued then
      (s.modElem t.tid a.seq i fun e => { e with st := .held }).replayElem t.tid a.seq i
        ⟨(s.group t.group).ctx, e.va, if e.flag then 2 else a.op.code, 0, slice, t.group, .elem t.tid a.seq i⟩
    else s) s

/-- Admits the oldest request of a slice when its pen has room for frame and reply; a wait past the share of waits leaves
a watch entry and goes to the Lodge. -/
def execCarrierAdmit (slice : Nat) (s : State) : Out :=
  match s.oldestRequest slice with
  | none => .next s
  | some t =>
    match t.escort with
    | none => .next s
    | some e =>
      if 524288 < s.penBytes slice false + e.charge then .next s
      else
        match e.what with
        | .word r =>
          let place : EscPlace := if 262144 < s.penBytes slice true + e.charge then .watched else .pen
          .next (((s.moveFrame t.tid place).actWord t.tid r).settleAll)
        | .access seq =>
          let s := s.moveFrame t.tid .pen
          match s.acc? t.tid seq with
          | some a => .next (s.carrierElems t a slice)
          | none => .next s
        | _ => .next s

/-- The lanes of an access that still have a pending element. -/
def Acc.pendingLanes (a : Acc) : Mask :=
  a.elems.foldl (fun m e => if e.performed then m else m ||| (1#1024 <<< e.lane)) 0

/-- Whether an element of an access is on its way, or stands in a replicated page's series. -/
def Acc.underWay (a : Acc) : Bool := a.elems.any fun e => e.st == .sent || e.st == .near

/-- A recall finds an access in a pen: status 3, with the lanes that still have a pending element in m7. An atomic element that
is on its way may be performed already, so the pen waits for its answer: no element that has been performed is repeated but for
the lanes in m7 (R152, R329). An `stf`, which is not resumable, is unperformed while none of its elements has been performed, and
otherwise stays in the pen until it completes. -/
def State.recallAccess (s : State) (tid seq : Nat) : State :=
  match s.acc? tid seq with
  | none => s.returnFrame tid 2
  | some a =>
    match a.op with
    | .stf _ =>
      if a.finished then s.accessDone tid seq a
      else if a.underWay || a.elems.any Elem.performed then s
      else (s.dropAccess tid seq).returnFrame tid 2
    | op =>
      let s := s.deliverAcc tid seq
      match s.acc? tid seq with
      | some b =>
        if b.finished then s.accessDone tid seq b
        else if b.underWay && !op.isLoad then s
        else ((s.dropAccess tid seq).returnFrame tid 3).modTeam tid fun t => { t with m := t.m.set 7 b.pendingLanes }
      | none => s

/-- What a recall makes of a wait that its frame's place has not completed. -/
def State.recallWait (s : State) (tid : Nat) (e : Escort) : State :=
  let h := (s.team tid).group
  let drop (s : State) : State := s.dropFaults fun r => r == .word tid || r == .append tid
  match e.what with
  | .word r =>
    match r.op with
    | .arwaited old =>
      ((drop s).returnFrame tid 4).modTeam tid fun t => { t.setSDst r.dst old with arrivedAt := some t.pc }
    | .lkacq (some n) _ _ _ => ((drop s).freeEntry h n).returnFrame tid 2
    | .prnew n => ((drop s).freeEntry h n).returnFrame tid 2
    | .holdSlot (some n) _ _ => ((drop s).freeEntry h n).returnFrame tid 2
    | _ => (drop s).returnFrame tid 2
  | .access seq => if e.place = .pen then s.recallAccess tid seq else (s.dropAccess tid seq).returnFrame tid 2
  | .unitAccess seq => (s.dropAccess tid seq).returnFrame tid 2
  | .sys _ queued _ _ =>
    if queued then (s.returnFrame tid 1).modTeam tid fun t =>
      { t.advance e.len with escort := t.escort.map fun e => { e with len := 0 } }
    else { s with supRecs := s.supRecs.filter fun r => r.tid != some tid }.returnFrame tid 2
  | .launch _ _ _ => (drop s).returnFrame tid 2
  | _ => (drop s).returnFrame tid 2

/-- A recall reaches a frame at its place. One that is on its way home, or in the Lodge, goes to the Lodge. -/
def State.recallFrame (s : State) (tid : Nat) : State :=
  match (s.team tid).escort with
  | none => s
  | some e =>
    if e.eo then
      -- a wait in place
      if e.status = 0 then
        (s.recallWait tid e).modTeam tid fun t => { t with
          saveStatus := (t.escort.map Escort.status).getD 0
          escort := match e.what with
            | .sys _ true _ _ => t.escort.map fun x => { x with eo := false, place := .lodged, whole := true }
            | _ => none }
      else s
    else
      let s := s.modTeam tid fun t => { t with escort := t.escort.map fun e => { e with recalled := true } }
      if e.place = .reply then s.lodge tid
      else if e.place = .lodged ∨ e.place = .saved then s
      else if e.status ≠ 0 then s.lodge tid
      else s.recallWait tid e

def execRecall (tid : Nat) (s : State) : Out :=
  match (s.team tid).escort with
  | some e => .next (if e.recalled then (s.recallFrame tid).settleAll else s)
  | none => .next s

end Sys2Proof.Machine
end

