-- ==== Sys2Proof/Decode.lean ====
section
/-! DEFINITION. From instruction words to instructions and back (R53 to R71). Every field is taken out of its
word here, once; the machine never sees a raw field. The decoder refuses a word by the first check of R68 that
it fails. -/
namespace Sys2Proof

/-- Why a head is no instruction, in the order of R68 (step 1, the fetch, is the machine's). -/
inductive DecodeError where
  /-- Step 2: the word is all zeros or all ones. -/
  | blank
  /-- Step 3: the opcode is the tail marker. -/
  | tailMarker
  /-- Step 4: the opcode is unassigned. -/
  | unassigned
  /-- Step 5: the opcode names a unit this part lacks. -/
  | absentUnit
  /-- Step 6: the word after a wide head is no tail of it. -/
  | badTail
  /-- Step 7: a field value is not allowed. -/
  | badField
  /-- Fewer bytes than the instruction has. -/
  | truncated
deriving DecidableEq, Repr

abbrev Dec := Except DecodeError

/-- Refuses with `badField` unless `c` holds. -/
def need (c : Bool) : Dec Unit := if c then .ok () else .error .badField

/-! ## Fields -/

def iwOf : Nat → IW
  | 0 => .w8 | 1 => .w16 | 2 => .w32 | _ => .w64
def IW.code : IW → Nat
  | .w8 => 0 | .w16 => 1 | .w32 => 2 | .w64 => 3

def fwOf : Nat → FW
  | 0 => .f64 | 1 => .f32 | 2 => .f16 | _ => .bf16
def FW.code : FW → Nat
  | .f64 => 0 | .f32 => 1 | .f16 => 2 | .bf16 => 3

/-- The integer atomics have 32 and 64 bits; codes 0 and 1 are illegal (R158). -/
def awOf : Nat → Dec AW
  | 2 => .ok .w32 | 3 => .ok .w64 | _ => .error .badField
def AW.code : AW → Nat
  | .w32 => 2 | .w64 => 3

/-- A one-bit width: 0 for 32, 1 for 64 (R63, R161). -/
def awBit : Nat → AW
  | 0 => .w32 | _ => .w64
def AW.bit : AW → Nat
  | .w32 => 0 | .w64 => 1

def ordOf : Nat → Ord
  | 0 => .plain | 1 => .acq | 2 => .rel | _ => .ar
def Ord.code : Ord → Nat
  | .plain => 0 | .acq => 1 | .rel => 2 | .ar => 3

def fenceOrdOf : Nat → Dec FenceOrd
  | 1 => .ok .acq | 2 => .ok .rel | 3 => .ok .ar | _ => .error .badField
def FenceOrd.code : FenceOrd → Nat
  | .acq => 1 | .rel => 2 | .ar => 3

def scopeOf : Nat → Dec Scope
  | 0 => .ok .team | 1 => .ok .group | 2 => .ok .die | 3 => .ok .dev | 4 => .ok .pod
  | _ => .error .badField
def Scope.code : Scope → Nat
  | .team => 0 | .group => 1 | .die => 2 | .dev => 3 | .pod => 4

def sscopeOf : Nat → Dec SScope
  | 0 => .ok .team | 1 => .ok .group | _ => .error .badField
def SScope.code : SScope → Nat
  | .team => 0 | .group => 1

def fin? (n : Nat) (k : Nat) : Dec (Fin n) := if h : k < n then .ok ⟨k, h⟩ else .error .badField

/-- The source column of R57. -/
def lsrcOf (x : Nat) : Dec LSrc :=
  if h : x < 96 then .ok (.v ⟨x, h⟩)
  else if h : 96 ≤ x ∧ x < 100 then .ok (.f ⟨x - 96, by omega⟩)
  else if h : 104 ≤ x ∧ x < 120 then .ok (.s ⟨x - 104, by omega⟩)
  else if x = 120 then .ok .zero
  else if x = 121 then .ok .lane
  else if x = 122 then .ok .sub
  else .error .badField
def LSrc.code : LSrc → Nat
  | .v r => r.val | .f k => 96 + k.val | .s r => 104 + r.val | .zero => 120 | .lane => 121 | .sub => 122

/-- A b field that names a broadcast scalar, 0x68 to 0x77 (R130, R141). -/
def bregOf (x : Nat) : Dec BReg :=
  if h : 104 ≤ x ∧ x < 120 then .ok ⟨x - 104, by omega⟩ else .error .badField

/-- A lane destination: v0 to v95 (R57). -/
def vregOf (x : Nat) : Dec VReg := fin? 96 x

/-- A lane destination beside its `nwb` bit: with `nwb` = 1 the field holds zero (R60). -/
def vdstOf (n x : Nat) : Dec VDst :=
  if n = 0 then (vregOf x).map some else if x = 0 then .ok none else .error .badField
def VDst.nwb : VDst → Nat
  | some _ => 0 | none => 1
def VDst.code : VDst → Nat
  | some r => r.val | none => 0

/-- The source column of R58. -/
def usrcOf (x : Nat) : Dec USrc :=
  if h : x < 32 then .ok (.s ⟨x, h⟩)
  else if h : 32 ≤ x ∧ x < 36 then .ok (.f ⟨x - 32, by omega⟩)
  else if x = 36 then .ok .zero
  else .error .badField
def USrc.code : USrc → Nat
  | .s r => r.val | .f k => 32 + k.val | .zero => 36

/-- A scalar destination beside its `nwb` bit (R58, R60). -/
def sdstOf (n x : Nat) : Dec SDst :=
  if n = 0 then (fin? 32 x).map some else if x = 0 then .ok none else .error .badField
def SDst.nwb : SDst → Nat
  | some _ => 0 | none => 1
def SDst.code : SDst → Nat
  | some r => r.val | none => 0

def ldAuxOf : Nat → Dec LdAux
  | 0 => .ok .zx | 1 => .ok .sx | 2 => .ok .whole | _ => .error .badField
def LdAux.code : LdAux → Nat
  | .zx => 0 | .sx => 1 | .whole => 2

def stAuxOf : Nat → Dec StAux
  | 0 => .ok .lo | 2 => .ok .whole | _ => .error .badField
def StAux.code : StAux → Nat
  | .lo => 0 | .whole => 2

def voteOf : Nat → Dec VoteKind
  | 0 => .ok .any | 1 => .ok .all | 2 => .ok .eq | _ => .error .badField
def VoteKind.code : VoteKind → Nat
  | .any => 0 | .all => 1 | .eq => 2

def bcOf : Nat → Dec BcCond
  | 0 => .ok .eq | 1 => .ok .ne | 2 => .ok .lt | 3 => .ok .ge | 4 => .ok .ltu | 5 => .ok .geu
  | _ => .error .badField
def BcCond.code : BcCond → Nat
  | .eq => 0 | .ne => 1 | .lt => 2 | .ge => 3 | .ltu => 4 | .geu => 5

def scondOf : Nat → Dec SCond
  | 0 => .ok .eq | 1 => .ok .ne | 2 => .ok .lt | 3 => .ok .ltu | 4 => .ok .le | 5 => .ok .leu
  | _ => .error .badField
def SCond.code : SCond → Nat
  | .eq => 0 | .ne => 1 | .lt => 2 | .ltu => 3 | .le => 4 | .leu => 5

def shflPatOf : Nat → ShflPat
  | 0 => .xor | 1 => .up | 2 => .down | _ => .bcast
def ShflPat.code : ShflPat → Nat
  | .xor => 0 | .up => 1 | .down => 2 | .bcast => 3

def atomAuxOf : Nat → AtomAux
  | 0 => .add | 1 => .xchg | 2 => .min | _ => .max
def AtomAux.code : AtomAux → Nat
  | .add => 0 | .xchg => 1 | .min => 2 | .max => 3

def intAtomOf : Nat → Dec IntAtom
  | 0 => .ok .add | 1 => .ok .xchg | 2 => .ok .min | 3 => .ok .max | 4 => .ok .minu | 5 => .ok .maxu
  | 6 => .ok .and | 7 => .ok .or | 8 => .ok .xor | _ => .error .badField
def IntAtom.code : IntAtom → Nat
  | .add => 0 | .xchg => 1 | .min => 2 | .max => 3 | .minu => 4 | .maxu => 5 | .and => 6 | .or => 7
  | .xor => 8

/-- Tail bits 17:14 of `atom` with offset beside the head's w: code 9 reads w as a float format (R63, R70). -/
def atomKindOf (c w : Nat) : Dec AtomKind :=
  if c = 9 then .ok (.fadd (fwOf w)) else do return .int (← intAtomOf c) (← awOf w)
def AtomKind.code : AtomKind → Nat
  | .int op _ => op.code | .fadd _ => 9
def AtomKind.width : AtomKind → Nat
  | .int _ w => w.code | .fadd f => f.code

def redmOf (x w : Nat) : Dec RedmKind :=
  match x with
  | 0 => do return .add (← awOf w)
  | 1 => .ok (.fadd (fwOf w))
  | 2 => do return .min (← awOf w)
  | _ => do return .max (← awOf w)
def RedmKind.code : RedmKind → Nat
  | .add _ => 0 | .fadd _ => 1 | .min _ => 2 | .max _ => 3
def RedmKind.width : RedmKind → Nat
  | .add w | .min w | .max w => w.code | .fadd f => f.code

def atomuOf (c w : Nat) : Dec AtomuKind :=
  if c = 9 then .ok (.fadd (awBit w)) else do return .int (← intAtomOf c) (awBit w)
def AtomuKind.code : AtomuKind → Nat
  | .int op _ => op.code | .fadd _ => 9
def AtomuKind.width : AtomuKind → Nat
  | .int _ w | .fadd w => w.bit

/-- Bits 4:0 of the b field of the `red` family, beside w (R70, R140). -/
def redKindOf (c w : Nat) : Dec RedKind :=
  match c with
  | 0 => .ok (.int .add (iwOf w)) | 2 => .ok (.int .min (iwOf w)) | 3 => .ok (.int .max (iwOf w))
  | 4 => .ok (.int .minu (iwOf w)) | 5 => .ok (.int .maxu (iwOf w)) | 6 => .ok (.int .and (iwOf w))
  | 7 => .ok (.int .or (iwOf w)) | 8 => .ok (.int .xor (iwOf w))
  | 9 => .ok (.float .fadd (fwOf w)) | 10 => .ok (.float .fmin (fwOf w)) | 11 => .ok (.float .fmax (fwOf w))
  | _ => .error .badField
def RedKind.code : RedKind → Nat
  | .int .add _ => 0 | .int .min _ => 2 | .int .max _ => 3 | .int .minu _ => 4 | .int .maxu _ => 5
  | .int .and _ => 6 | .int .or _ => 7 | .int .xor _ => 8
  | .float .fadd _ => 9 | .float .fmin _ => 10 | .float .fmax _ => 11
def RedKind.width : RedKind → Nat
  | .int _ w => w.code | .float _ w => w.code

def waitClassOf : Nat → Dec WaitClass
  | 0 => .ok .ld | 1 => .ok .st | 2 => .ok .at | 3 => .ok .cp | _ => .error .badField
def WaitClass.code : WaitClass → Nat
  | .ld => 0 | .st => 1 | .at => 2 | .cp => 3

/-- The kind of `hold` (func5) with its extent field: kinds 1 to 4 have none and hold 0x24 there (R63, R172). -/
def holdKindOf (k x : Nat) : Dec HoldKind :=
  match k with
  | 0 => do return .spad (← usrcOf x)
  | 1 => do need (x = 36); return .queue
  | 2 => do need (x = 36); return .chan
  | 3 => do need (x = 36); return .plant
  | 4 => do need (x = 36); return .sbuf
  | 5 => do return .pslot (← usrcOf x)
  | _ => .error .badField
def HoldKind.code : HoldKind → Nat
  | .spad _ => 0 | .queue => 1 | .chan => 2 | .plant => 3 | .sbuf => 4 | .pslot _ => 5
def HoldKind.ext : HoldKind → Nat
  | .spad x | .pslot x => x.code | _ => 36

def objKindOf : Nat → Dec ObjKind
  | 0 => .ok .spad | 1 => .ok .queue | 2 => .ok .chan | 3 => .ok .plant | 4 => .ok .sbuf | 5 => .ok .pslot
  | _ => .error .badField
def ObjKind.code : ObjKind → Nat
  | .spad => 0 | .queue => 1 | .chan => 2 | .plant => 3 | .sbuf => 4 | .pslot => 5

def sarOpOf : Nat → Dec SarOp
  | 0 => .ok .sum | 1 => .ok .min | 2 => .ok .max | _ => .error .badField
def SarOp.code : SarOp → Nat
  | .sum => 0 | .min => 1 | .max => 2

/-- The numbers of R45; every other number is reserved. -/
def specialOf (x : Nat) : Dec Special :=
  match x with
  | 0x000 => .ok .lane | 0x001 => .ok .team | 0x002 => .ok .group | 0x003 => .ok .wid | 0x004 => .ok .widw
  | 0x005 => .ok .stage | 0x008 => .ok .fflags | 0x009 => .ok .frm | 0x00A => .ok .feat | 0x00B => .ok .ftrap
  | 0x010 => .ok .pidx | 0x011 => .ok .recCount | 0x012 => .ok .rpc | 0x013 => .ok .escv0
  | 0x014 => .ok .escv1 | 0x015 => .ok .escs | 0x016 => .ok .abroad | 0x017 => .ok .wher
  | 0x020 => .ok (.cwp 0) | 0x021 => .ok (.cwp 1) | 0x022 => .ok (.cwp 2) | 0x023 => .ok (.cwp 3)
  | 0x024 => .ok (.cwp 4) | 0x025 => .ok (.cwp 5) | 0x026 => .ok (.cwp 6) | 0x027 => .ok (.cwp 7)
  | 0x028 => .ok (.qseq 0) | 0x029 => .ok (.qseq 1) | 0x02A => .ok (.qseq 2) | 0x02B => .ok (.qseq 3)
  | 0x02C => .ok .sett | 0x030 => .ok .cyc | 0x031 => .ok .cong | 0x040 => .ok .tcause
  | 0x041 => .ok .tinfo
  | _ => .error .badField
def Special.code : Special → Nat
  | .lane => 0x000 | .team => 0x001 | .group => 0x002 | .wid => 0x003 | .widw => 0x004 | .stage => 0x005
  | .fflags => 0x008 | .frm => 0x009 | .feat => 0x00A | .ftrap => 0x00B | .pidx => 0x010
  | .recCount => 0x011 | .rpc => 0x012 | .escv0 => 0x013 | .escv1 => 0x014 | .escs => 0x015
  | .abroad => 0x016 | .wher => 0x017 | .cwp n => 0x020 + n.val | .qseq q => 0x028 + q.val | .sett => 0x02C
  | .cyc => 0x030 | .cong => 0x031 | .tcause => 0x040 | .tinfo => 0x041

def boolOf (n : Nat) : Bool := n != 0
def bit (b : Bool) : Nat := if b then 1 else 0

/-! ## Words

The fields of a word as numbers: `pack*` puts them into a word, `unpack*` takes them out. -/

/-- The fields of a lane-set head in the layout LA of R54; LI and LM subdivide `b` and `w`. -/
structure LaneF where
  op : Nat
  n : Nat
  d : Nat
  a : Nat
  b : Nat
  w : Nat
deriving DecidableEq, Repr

def LaneF.word (r : LaneF) : Nat :=
  r.op * 16777216 + r.n * 8388608 + r.d * 65536 + r.a * 512 + r.b * 4 + r.w
def laneF (h : Nat) : LaneF :=
  ⟨h / 16777216 % 128, h / 8388608 % 2, h / 65536 % 128, h / 512 % 128, h / 4 % 128, h % 4⟩

/-- The b and w fields of LM: ord, scope and w stand where LA has b (R54). -/
def lmB (ord scope w : Nat) : Nat := ord * 32 + scope * 4 + w
def LaneF.ord (r : LaneF) : Nat := r.b / 32
def LaneF.scope (r : LaneF) : Nat := r.b / 4 % 8
def LaneF.lmW (r : LaneF) : Nat := r.b % 4

/-- The fields of a uniform-set head in the layout UA of R55. -/
structure UniF where
  op : Nat
  n : Nat
  d : Nat
  a : Nat
  b : Nat
  f : Nat
deriving DecidableEq, Repr

def UniF.word (r : UniF) : Nat :=
  2147483648 + r.op * 16777216 + r.n * 8388608 + r.d * 131072 + r.a * 2048 + r.b * 32 + r.f
def uniF (h : Nat) : UniF :=
  ⟨h / 16777216 % 128, h / 8388608 % 2, h / 131072 % 64, h / 2048 % 64, h / 32 % 64, h % 32⟩
/-- imm11 of UI: bits 10:0 (R55). -/
def UniF.imm11 (r : UniF) : Nat := r.b * 32 + r.f

/-- The layout UB of R55. -/
def ubWord (op cc a b off : Nat) : Nat :=
  2147483648 + op * 16777216 + cc * 2097152 + a * 32768 + b * 512 + off
/-- The layout UL of R55. -/
def ulWord (op d imm : Nat) : Nat := 2147483648 + op * 16777216 + d * 262144 + imm
/-- The layout UJ of R55. -/
def ujWord (op off : Nat) : Nat := 2147483648 + op * 16777216 + off

/-- Tail words of R62: bits 30:25 all ones, then a register field and 18 bits. -/
def trWord (set reg imm : Nat) : Nat := set * 2147483648 + 2113929216 + reg * 262144 + imm
def t2Word (set ra rb imm : Nat) : Nat := trWord set ra (rb * 2048 + imm)

/-- Whether `t` is a tail of the set whose bit 31 is `set` (R62, R64). -/
def isTail (set t : Nat) : Bool := decide (t / 2147483648 % 2 = set) && decide (t / 33554432 % 64 = 63)
def tailReg (t : Nat) : Nat := t / 262144 % 128
def tailImm (t : Nat) : Nat := t % 262144
/-- A register field in the tail of a uniform head decodes by bits 5:0 and its bit 6 is reserved (R58). -/
def tailUsrc (t : Nat) : Dec USrc := usrcOf (tailReg t)

/-! ## The lane set (R70) -/

def la3 (mk : IW → VDst → LSrc → LSrc → Instr) (r : LaneF) : Dec Instr := do
  return mk (iwOf r.w) (← vdstOf r.n r.d) (← lsrcOf r.a) (← lsrcOf r.b)
def la2 (mk : IW → VDst → LSrc → Instr) (r : LaneF) : Dec Instr := do
  need (r.b = 0); return mk (iwOf r.w) (← vdstOf r.n r.d) (← lsrcOf r.a)
def fa3 (mk : FW → VDst → LSrc → LSrc → Instr) (r : LaneF) : Dec Instr := do
  return mk (fwOf r.w) (← vdstOf r.n r.d) (← lsrcOf r.a) (← lsrcOf r.b)
def fa2 (mk : FW → VDst → LSrc → Instr) (r : LaneF) : Dec Instr := do
  need (r.b = 0); return mk (fwOf r.w) (← vdstOf r.n r.d) (← lsrcOf r.a)
def lcmp (mk : IW → MDst → LSrc → LSrc → Instr) (r : LaneF) : Dec Instr := do
  need (r.n = 0); return mk (iwOf r.w) (← fin? 6 r.d) (← lsrcOf r.a) (← lsrcOf r.b)
def fcmp (mk : FW → MDst → LSrc → LSrc → Instr) (r : LaneF) : Dec Instr := do
  need (r.n = 0); return mk (fwOf r.w) (← fin? 6 r.d) (← lsrcOf r.a) (← lsrcOf r.b)
def lcar (mk : Fin 4 → VDst → LSrc → LSrc → Instr) (r : LaneF) : Dec Instr := do
  return mk (← fin? 4 r.w) (← vdstOf r.n r.d) (← lsrcOf r.a) (← lsrcOf r.b)
def lbfly (mk : Fin 4 → VDst → VReg → LSrc → Instr) (r : LaneF) : Dec Instr := do
  need (r.a ≠ r.d); return mk (← fin? 4 r.w) (← vdstOf r.n r.d) (← vregOf r.a) (← lsrcOf r.b)
def li3 (mk : IW → VDst → LSrc → BitVec 7 → Instr) (r : LaneF) : Dec Instr := do
  return mk (iwOf r.w) (← vdstOf r.n r.d) (← lsrcOf r.a) (BitVec.ofNat 7 r.b)
def licmp (mk : IW → MDst → LSrc → BitVec 7 → Instr) (r : LaneF) : Dec Instr := do
  need (r.n = 0); return mk (iwOf r.w) (← fin? 6 r.d) (← lsrcOf r.a) (BitVec.ofNat 7 r.b)
def lbro (mk : VDst → LSrc → BReg → Instr) (w : Nat) (r : LaneF) : Dec Instr := do
  need (r.w = w); return mk (← vdstOf r.n r.d) (← lsrcOf r.a) (← bregOf r.b)

def redOf (r : LaneF) : Dec Instr := do
  let op ← redKindOf (r.b % 32) r.w
  let d ← vdstOf r.n r.d
  let a ← lsrcOf r.a
  return match r.b / 32 with
    | 0 => .red op d a | 1 => .scan op d a | 2 => .scanEx op d a | _ => .segred op d a

/-- The wide heads of the lane set (R63). -/
def laneWide (op : Nat) : Bool :=
  op == 0x34 || op == 0x72 || op == 0x73 || op == 0x74 || op == 0x78 || op == 0x79

/-- The lane opcodes without a tail. -/
def decodeLane (r : LaneF) : Dec Instr :=
  match r.op with
  | 0x01 => la3 .add r | 0x02 => la3 .sub r | 0x03 => la3 .addSat r | 0x04 => la3 .addSatu r
  | 0x05 => la3 .subSat r | 0x06 => la3 .subSatu r | 0x07 => la3 .mul r | 0x08 => la3 .mulh r
  | 0x09 => la3 .mulhu r | 0x0A => la3 .mad r | 0x0B => lcar .addc r | 0x0C => lcar .subb r
  | 0x0D => la3 .min r | 0x0E => la3 .minu r | 0x0F => la3 .max r | 0x10 => la3 .maxu r
  | 0x11 => la2 .abs r | 0x12 => la3 .and r | 0x13 => la3 .or r | 0x14 => la3 .xor r
  | 0x15 => la3 .shl r | 0x16 => la3 .shr r | 0x17 => la3 .sra r | 0x18 => la3 .rot r
  | 0x19 => la2 .clz r | 0x1A => la2 .pop r | 0x1B => la3 .bfe r | 0x1C => la3 .bfi r
  | 0x1D => lcar .sel r
  | 0x1E => do need (r.b = 0); need (r.w = 0); return .mov (← vdstOf r.n r.d) (← lsrcOf r.a)
  | 0x1F => lcmp .cmpEq r | 0x20 => lcmp .cmpNe r | 0x21 => lcmp .cmpLt r | 0x22 => lcmp .cmpLtu r
  | 0x23 => lcmp .cmpLe r | 0x24 => lcmp .cmpLeu r
  | 0x25 => li3 .addImm r | 0x26 => li3 .andImm r | 0x27 => li3 .orImm r | 0x28 => li3 .xorImm r
  | 0x29 => li3 .shlImm r | 0x2A => li3 .shrImm r | 0x2B => li3 .sraImm r | 0x2C => li3 .rotImm r
  | 0x2D => do need (r.a = 0); return .li (iwOf r.w) (← vdstOf r.n r.d) (BitVec.ofNat 7 r.b)
  | 0x2E => licmp .cmpEqImm r | 0x2F => licmp .cmpLtImm r
  | 0x30 => fa3 .fadd r | 0x31 => fa3 .fsub r | 0x32 => fa3 .fmul r | 0x33 => fa3 .fma r
  | 0x35 => fa3 .fmin r | 0x36 => fa3 .fmax r | 0x37 => fa2 .fabs r | 0x38 => fa2 .fneg r
  | 0x39 => fcmp .fcmpEq r | 0x3A => fcmp .fcmpNe r | 0x3B => fcmp .fcmpLt r | 0x3C => fcmp .fcmpLe r
  | 0x3D => fcmp .fcmpUn r | 0x3E => fa2 .frnd r | 0x3F => fa2 .fclass r
  | 0x40 => fa3 .faddFtz r | 0x41 => fa3 .fsubFtz r | 0x42 => fa3 .fmulFtz r | 0x43 => fa3 .fmaFtz r
  | 0x50 => lbro .fcvt 0 r
  | 0x51 => fa2 .fcvti r | 0x52 => fa2 .fcvtiu r | 0x53 => fa2 .icvtf r | 0x54 => fa2 .icvtfu r
  | 0x55 => la3 .pack r | 0x56 => la3 .unpack r | 0x57 => la3 .swz r
  | 0x58 => fa2 .frcp r | 0x59 => fa2 .frsq r | 0x5A => fa2 .fsqrt r | 0x5B => fa2 .fex2 r
  | 0x5C => fa2 .flg2 r | 0x5D => fa2 .fsin r | 0x5E => fa2 .fcos r
  | 0x60 => la3 .shfl r
  | 0x61 => do
      need (r.w = 3)
      return .shfli (← vdstOf r.n r.d) (← lsrcOf r.a) (shflPatOf (r.b / 32)) (BitVec.ofNat 5 (r.b % 32))
  | 0x62 => do need (r.n = 0); need (r.b = 0); return .vote (← voteOf r.w) (← fin? 6 r.d) (← lsrcOf r.a)
  | 0x63 => la3 .lget r | 0x64 => la3 .lput r | 0x65 => redOf r
  | 0x66 => lbro .walki 3 r | 0x67 => lbro .walk 3 r
  | 0x68 => lcar .mmul r | 0x69 => lcar .madd r | 0x6A => lcar .msub r
  | 0x6B => lbfly .bfly r | 0x6C => lbfly .ibfly r | 0x6D => lcar .mred r
  | 0x70 => do
      return .ld (boolOf r.n) (ordOf r.ord) (← scopeOf r.scope) (iwOf r.lmW) (← ldAuxOf r.w) (← vregOf r.d)
        (← lsrcOf r.a)
  | 0x71 => do
      return .st (boolOf r.n) (ordOf r.ord) (← scopeOf r.scope) (iwOf r.lmW) (← stAuxOf r.w) (← lsrcOf r.d)
        (← lsrcOf r.a)
  | 0x75 => do
      need (r.n = 0)
      return .lds (ordOf r.ord) (← sscopeOf r.scope) (iwOf r.lmW) (← ldAuxOf r.w) (← vregOf r.d)
        (← lsrcOf r.a)
  | 0x76 => do
      need (r.n = 0)
      return .sts (ordOf r.ord) (← sscopeOf r.scope) (iwOf r.lmW) (← stAuxOf r.w) (← lsrcOf r.d)
        (← lsrcOf r.a)
  | 0x77 => do
      return .atom (boolOf r.n) (ordOf r.ord) (← scopeOf r.scope) (← awOf r.lmW) (atomAuxOf r.w)
        (← vregOf r.d) (← lsrcOf r.a)
  | 0x7A => do
      need (r.n = 0)
      return .redm (ordOf r.ord) (← scopeOf r.scope) (← redmOf r.w r.lmW) (← lsrcOf r.d) (← lsrcOf r.a)
  | _ => .error .unassigned

/-- The wide lane forms, head `r` and tail `t` (R63). -/
def decodeLaneWide (r : LaneF) (t : Nat) : Dec Instr :=
  match r.op with
  | 0x34 => do
      need (tailImm t < 8)
      return .fma3 (fwOf r.w) (← vdstOf r.n r.d) (← lsrcOf r.a) (← lsrcOf r.b) (← lsrcOf (tailReg t))
        (boolOf (tailImm t % 2)) (boolOf (tailImm t / 2 % 2)) (boolOf (tailImm t / 4 % 2))
  | 0x72 => do
      return .ldx (boolOf r.n) (ordOf r.ord) (← scopeOf r.scope) (iwOf r.lmW) (← fin? 4 r.w) (← vregOf r.d)
        (← lsrcOf r.a) (← lsrcOf (tailReg t)) (BitVec.ofNat 18 (tailImm t))
  | 0x73 => do
      return .stx (boolOf r.n) (ordOf r.ord) (← scopeOf r.scope) (iwOf r.lmW) (← fin? 4 r.w) (← lsrcOf r.d)
        (← lsrcOf r.a) (← lsrcOf (tailReg t)) (BitVec.ofNat 18 (tailImm t))
  | 0x74 => do
      need (r.w = 0); need (tailImm t ≠ 0)
      return .stf (boolOf r.n) (ordOf r.ord) (← scopeOf r.scope) (iwOf r.lmW) (← lsrcOf r.d)
        (← lsrcOf r.a) (← lsrcOf (tailReg t)) (BitVec.ofNat 18 (tailImm t))
  | 0x78 => do
      need (r.w = 0)
      return .atomOffset (boolOf r.n) (ordOf r.ord) (← scopeOf r.scope)
        (← atomKindOf (tailImm t / 16384) r.lmW) (← vregOf r.d) (← lsrcOf r.a) (← lsrcOf (tailReg t))
        (BitVec.ofNat 14 (tailImm t % 16384))
  | 0x79 => do
      need (r.w = 0); need (tailImm t % 2048 = 0)
      return .cas (boolOf r.n) (ordOf r.ord) (← scopeOf r.scope) (← awOf r.lmW) (← vregOf r.d)
        (← lsrcOf r.a) (← lsrcOf (tailReg t)) (← lsrcOf (tailImm t / 2048))
  | _ => .error .unassigned

/-! ## The uniform set (R71) -/

def ua3 (mk : SDst → USrc → USrc → Instr) (r : UniF) : Dec Instr := do
  return mk (← sdstOf r.n r.d) (← usrcOf r.a) (← usrcOf r.b)
def ua2 (mk : SDst → USrc → Instr) (r : UniF) : Dec Instr := do
  need (r.b = 0); return mk (← sdstOf r.n r.d) (← usrcOf r.a)
def ui3 (mk : SDst → USrc → BitVec 11 → Instr) (r : UniF) : Dec Instr := do
  return mk (← sdstOf r.n r.d) (← usrcOf r.a) (BitVec.ofNat 11 r.imm11)

def decodeAlu (r : UniF) : Dec Instr :=
  match r.f with
  | 0 => ua3 .sadd r | 1 => ua3 .ssub r | 2 => ua3 .smul r | 3 => ua3 .smulh r | 4 => ua3 .smulhu r
  | 5 => ua3 .sdiv r | 6 => ua3 .sdivu r | 7 => ua3 .srem r | 8 => ua3 .sremu r | 9 => ua3 .sand r
  | 10 => ua3 .sor r | 11 => ua3 .sxor r | 12 => ua3 .sshl r | 13 => ua3 .sshr r | 14 => ua3 .ssra r
  | 15 => ua3 .smin r | 16 => ua3 .sminu r | 17 => ua3 .smax r | 18 => ua3 .smaxu r
  | 19 => ua2 .sclz r | 20 => ua2 .spop r | 21 => ua3 .sbfe r | 22 => ua3 .sbfi r | 23 => ua2 .smov r
  | _ => .error .badField

def decodeMaskLogic (r : UniF) : Dec Instr := do
  need (r.n = 0)
  match r.f with
  | 0 => return .mand (← fin? 6 r.d) (← fin? 8 r.a) (← fin? 8 r.b)
  | 1 => return .mor (← fin? 6 r.d) (← fin? 8 r.a) (← fin? 8 r.b)
  | 2 => return .mandn (← fin? 6 r.d) (← fin? 8 r.a) (← fin? 8 r.b)
  | 3 => return .mxor (← fin? 6 r.d) (← fin? 8 r.a) (← fin? 8 r.b)
  | 4 => need (r.b = 0); return .mnot (← fin? 6 r.d) (← fin? 8 r.a)
  | 5 => need (r.b = 0); return .mmov (← fin? 6 r.d) (← fin? 8 r.a)
  | _ => .error .badField

/-- A UL form with a scalar destination. -/
def ul (mk : SReg → BitVec 18 → Instr) (h : Nat) : Dec Instr := do
  return mk (← fin? 32 (h / 262144 % 64)) (BitVec.ofNat 18 (h % 262144))
/-- `sli.f*`: imm18 bits 17:16 shall be zero (R67). -/
def ulF (mk : SReg → BitVec 16 → Instr) (h : Nat) : Dec Instr := do
  need (h % 262144 < 65536)
  return mk (← fin? 32 (h / 262144 % 64)) (BitVec.ofNat 16 (h % 65536))
/-- A UL form that is a code with d6 = 0. -/
def ulCode (mk : BitVec 18 → Instr) (h : Nat) : Dec Instr := do
  need (h / 262144 % 64 = 0); return mk (BitVec.ofNat 18 (h % 262144))
/-- A UJ form with off24 = 0. -/
def ujZero (i : Instr) (h : Nat) : Dec Instr := do need (h % 16777216 = 0); return i
/-- The UB forms with a mask and an offset. -/
def ubMask (mk : MReg → BitVec 9 → Instr) (h : Nat) : Dec Instr := do
  need (h / 2097152 % 8 = 0); need (h / 512 % 64 = 0)
  return mk (← fin? 8 (h / 32768 % 64)) (BitVec.ofNat 9 (h % 512))
/-- The UA forms with d, a, b, ord and scope. -/
def uaOrd (mk : Ord → Scope → SDst → USrc → USrc → Instr) (r : UniF) : Dec Instr := do
  return mk (ordOf (r.f / 8)) (← scopeOf (r.f % 8)) (← sdstOf r.n r.d) (← usrcOf r.a) (← usrcOf r.b)
/-- The UA forms d, a, b with func5 = 0. -/
def ua3z (mk : SDst → USrc → USrc → Instr) (r : UniF) : Dec Instr := do need (r.f = 0); ua3 mk r
/-- `jmp` and `ret`. -/
def uaJump (mk : USrc → Instr) (r : UniF) : Dec Instr := do
  need (r.n = 0); need (r.d = 0); need (r.b = 0); need (r.f = 0); return mk (← usrcOf r.a)
def ldw (w : IW) (r : UniF) : Dec Instr := do
  return .ldu (ordOf (r.f / 8)) (← scopeOf (r.f % 8)) w (← sdstOf r.n r.d) (← usrcOf r.a) (← usrcOf r.b)
def stw (w : IW) (r : UniF) : Dec Instr := do
  need (r.n = 0)
  return .stu (ordOf (r.f / 8)) (← scopeOf (r.f % 8)) w (← usrcOf r.d) (← usrcOf r.a) (← usrcOf r.b)

/-- The wide heads of the uniform set (R63). -/
def uniWide (op : Nat) : Bool := op == 0x49 || op == 0x53 || op == 0x55 || op == 0x58

/-- The uniform opcodes without a tail. -/
def decodeUni (h : Nat) : Dec Instr :=
  let r := uniF h
  match r.op with
  | 0x00 => decodeAlu r
  | 0x01 => ui3 .saddImm r | 0x02 => ui3 .smulImm r | 0x03 => ui3 .sandImm r | 0x04 => ui3 .sorImm r
  | 0x05 => ui3 .sxorImm r | 0x06 => ui3 .sshlImm r | 0x07 => ui3 .sshrImm r | 0x08 => ui3 .ssraImm r
  | 0x09 => ul .sliI h | 0x0A => ul .sliZ h | 0x0B => ul .slil h | 0x0C => ul .slim h | 0x0D => ul .slih h
  | 0x0E => ulF .sliF64 h | 0x0F => ulF .sliF32 h | 0x10 => ulF .sliF16 h | 0x11 => ul .sadr h
  | 0x12 => do return .scmp (← scondOf r.f) (← sdstOf r.n r.d) (← usrcOf r.a) (← usrcOf r.b)
  | 0x13 => do return .ssel (← sdstOf r.n r.d) (← usrcOf r.a) (← usrcOf r.b) (← fin? 32 r.f)
  | 0x20 => .ok (.br (BitVec.ofNat 24 (h % 16777216)))
  | 0x21 => do
      return .bc (← bcOf (h / 2097152 % 8)) (← usrcOf (h / 32768 % 64)) (← usrcOf (h / 512 % 64))
        (BitVec.ofNat 9 (h % 512))
  | 0x22 => uaJump .jmp r
  | 0x23 => ul .call h
  | 0x24 => uaJump .ret r
  | 0x25 => do
      need (h / 2097152 % 8 = 0); need (h / 512 % 64 = 0)
      return .loop (← fin? 32 (h / 32768 % 64)) (BitVec.ofNat 9 (h % 512))
  | 0x26 => ujZero .exit h | 0x27 => ujZero .yield h | 0x28 => ujZero .nop h
  | 0x29 => do return .emit (← fin? 4 r.f) (← sdstOf r.n r.d) (← usrcOf r.a) (← usrcOf r.b)
  | 0x2A => do need (r.b = 0); need (r.f = 0); return .launch (← sdstOf r.n r.d) (← usrcOf r.a)
  | 0x2B => do
      need (r.a = 0); need (r.imm11 ≠ 0)
      return .widf (← sdstOf r.n r.d) (← fin? 6 (r.imm11 - 1))
  | 0x30 => ubMask .dvg h
  | 0x31 => do
      need (h / 512 % 32768 = 0); return .flip (BitVec.ofNat 9 (h % 512))
  | 0x32 => ujZero .cvg h
  | 0x33 => ubMask .bany h | 0x34 => ubMask .bnone h
  | 0x35 => decodeMaskLogic r
  | 0x36 => do need (r.b = 0); need (r.f = 0); return .mcnt (← sdstOf r.n r.d) (← fin? 8 r.a)
  | 0x37 => do need (r.b = 0); need (r.f = 0); return .mfirst (← sdstOf r.n r.d) (← fin? 8 r.a)
  | 0x38 => do return .mlw (← sdstOf r.n r.d) (← fin? 8 r.a) (← fin? 32 r.imm11)
  | 0x39 => do
      need (r.n = 0); need (r.d = 0); need (r.a = 0)
      return .wait (← waitClassOf (r.imm11 / 256)) (BitVec.ofNat 8 (r.imm11 % 256))
  | 0x3A => do need (r.n = 0); need (r.d = 0); return .waitq (← usrcOf r.a) (← fin? 4 r.imm11)
  | 0x40 => ldw .w8 r | 0x41 => ldw .w16 r | 0x42 => ldw .w32 r | 0x43 => ldw .w64 r
  | 0x44 => stw .w8 r | 0x45 => stw .w16 r | 0x46 => stw .w32 r | 0x47 => stw .w64 r
  | 0x48 => do
      return .atomu (ordOf (r.imm11 / 512)) (← scopeOf (r.imm11 / 64 % 8))
        (← atomuOf (r.imm11 % 32) (r.imm11 / 32 % 2)) (← sdstOf r.n r.d) (← usrcOf r.a)
  | 0x4A => ua3z .tlook r | 0x4B => ua3z .tins r | 0x4C => ua3z .tinv r
  | 0x4D => do
      need (r.n = 0); need (r.d = 0); need (r.a = 0); need (r.b = 0)
      return .fence (← fenceOrdOf (r.f / 8)) (← scopeOf (r.f % 8))
  | 0x4E => do
      need (r.n = 0); need (r.d = 0); need (r.a = 0); need (r.imm11 < 16)
      return .qfence (BitVec.ofNat 4 r.imm11)
  | 0x4F => uaOrd .arrive r | 0x50 => uaOrd .await r | 0x51 => uaOrd .arwait r | 0x52 => uaOrd .mwait r
  | 0x54 => do
      need (r.n = 0); need (r.d = 0); need (r.b = 0)
      return .lkrel (ordOf (r.f / 8)) (← scopeOf (r.f % 8)) (← usrcOf r.a)
  | 0x56 => do
      need (r.n = 0); need (r.d = 0)
      return .prful (ordOf (r.f / 8)) (← scopeOf (r.f % 8)) (← usrcOf r.a) (← usrcOf r.b)
  | 0x57 => do
      need (r.b = 0)
      return .prwait (ordOf (r.f / 8)) (← scopeOf (r.f % 8)) (← sdstOf r.n r.d) (← usrcOf r.a)
  | 0x59 => do need (r.n = 0); need (r.d = 0); need (r.b = 0); return .unhold (← objKindOf r.f) (← usrcOf r.a)
  | 0x5A => do need (r.n = 0); need (r.d = 0); need (r.f = 0); return .heir (← usrcOf r.a) (← usrcOf r.b)
  | 0x60 => do
      need (r.b = 0); need (r.f = 0); need (r.a % 8 = 0)
      return .mtask (← sdstOf r.n r.d) (← fin? 4 (r.a / 8))
  | 0x61 => do return .cpy (← fin? 8 r.f) (← (need (r.n = 0) >>= fun _ => usrcOf r.d)) (← usrcOf r.a) (← usrcOf r.b)
  | 0x62 => do return .cpy2 (← fin? 8 r.f) (← (need (r.n = 0) >>= fun _ => usrcOf r.d)) (← usrcOf r.a) (← usrcOf r.b)
  | 0x63 => do need (r.n = 0); need (r.d = 0); need (r.f = 0); return .kick (← usrcOf r.a) (← usrcOf r.b)
  | 0x64 => do need (r.a = 0); need (r.b = 0); need (r.f = 0); return .kpop (← sdstOf r.n r.d)
  | 0x65 => do need (r.n = 0); need (r.d = 0); need (r.b = 0); need (r.f = 0); return .kack (← usrcOf r.a)
  | 0x66 => do need (r.n = 0); need (r.d = 0); return .sar (← sarOpOf r.f) (← usrcOf r.a) (← usrcOf r.b)
  | 0x67 => do need (r.n = 0); need (r.d = 0); need (r.f = 0); return .sag (← usrcOf r.a) (← usrcOf r.b)
  | 0x68 => do need (r.b = 0); need (r.f = 0); return .sstat (← sdstOf r.n r.d) (← usrcOf r.a)
  | 0x70 => do need (r.n = 0); need (r.f = 0); return .escset (← usrcOf r.d) (← usrcOf r.a) (← usrcOf r.b)
  | 0x71 => ujZero .rgn h
  | 0x72 => do
      need (r.a = 0)
      let n ← specialOf r.imm11
      need (decide (n ≠ .lane) && decide (n ≠ .wid))
      return .srd (← sdstOf r.n r.d) n
  | 0x73 => do
      need (h / 262144 % 64 = 0)
      let d ← vregOf (h / 2048 % 128)
      match h % 2048 with
      | 0 => return .srdLane d .lane
      | 3 => return .srdLane d .wid
      | _ => .error .badField
  | 0x74 => do need (r.n = 0); need (r.d = 0); return .swr (← specialOf r.imm11) (← usrcOf r.a)
  | 0x75 => ulCode .trap h | 0x76 => ulCode .brk h | 0x77 => ulCode .sys h
  | _ => .error .unassigned

/-- The wide uniform forms, head `h` and tail `t` (R63). -/
def decodeUniWide (h t : Nat) : Dec Instr :=
  let r := uniF h
  match r.op with
  | 0x49 => do
      need (tailImm t < 2)
      return .casu (ordOf (r.f / 8)) (← scopeOf (r.f % 8)) (awBit (tailImm t)) (← sdstOf r.n r.d)
        (← usrcOf r.a) (← usrcOf r.b) (← tailUsrc t)
  | 0x53 => do
      need (tailImm t < 8)
      let heir ← if tailImm t / 4 = 1 then (need (r.b = 0)).map (fun _ => none) else (usrcOf r.b).map some
      return .lkacq (ordOf (r.f / 8)) (← scopeOf (r.f % 8)) (← sdstOf r.n r.d) (← usrcOf r.a) heir
        (← tailUsrc t) (boolOf (tailImm t % 2)) (boolOf (tailImm t / 2 % 2))
  | 0x55 => do
      need (tailImm t = 0)
      return .prnew (ordOf (r.f / 8)) (← scopeOf (r.f % 8)) (← sdstOf r.n r.d) (← usrcOf r.a) (← usrcOf r.b)
        (← tailUsrc t)
  | 0x58 => do
      need (tailImm t < 8)
      return .hold (← holdKindOf r.f (tailReg t)) (← scopeOf (tailImm t)) (← sdstOf r.n r.d) (← usrcOf r.a)
        (← usrcOf r.b)
  | _ => .error .unassigned

/-! ## Whole instructions -/

/-- The opcode of a head: bits 30:24. -/
def opcodeOf (h : Nat) : Nat := h / 16777216 % 128

/-- Opcodes of the Sett collectives, absent where the part has no Sett ports (R69). -/
def settOp (op : Nat) : Bool := op == 0x66 || op == 0x67 || op == 0x68

/-- Whether a head is a wide one (R63). -/
def isWide (h : Nat) : Bool :=
  if h / 2147483648 % 2 = 0 then laneWide (opcodeOf h) else uniWide (opcodeOf h)

/-- The instruction of a head and the word after it, on a part with or without Sett ports (R68, steps 2 to 7).
The word after the head is looked at only by a wide head; `none` is a word that is not there. -/
def decodeWords (sett : Bool) (h : Nat) (t : Option Nat) : Dec Instr :=
  if h = 0 ∨ h = 4294967295 then .error .blank
  else if opcodeOf h = 126 ∨ opcodeOf h = 127 then .error .tailMarker
  else if h / 2147483648 % 2 = 0 then
    if laneWide (opcodeOf h) then
      match t with
      | none => .error .truncated
      | some t => if isTail 0 t then decodeLaneWide (laneF h) t else .error .badTail
    else decodeLane (laneF h)
  else if settOp (opcodeOf h) && !sett then .error .absentUnit
  else if uniWide (opcodeOf h) then
    match t with
    | none => .error .truncated
    | some t => if isTail 1 t then decodeUniWide h t else .error .badTail
  else decodeUni h

/-- The number of bytes of an instruction whose head is `h` (R53). -/
def lengthOf (h : Nat) : Nat := if isWide h then 8 else 4

/-- Four bytes, the first lowest, as a word: words are little-endian in memory (R53). -/
def wordOfBytes (b0 b1 b2 b3 : Byte) : Nat :=
  b0.toNat + b1.toNat * 256 + b2.toNat * 65536 + b3.toNat * 16777216

/-- The first instruction of a list of bytes, with the bytes after it. -/
def decodeBytes (sett : Bool) : List Byte → Dec (Instr × List Byte)
  | b0 :: b1 :: b2 :: b3 :: rest =>
    let h := wordOfBytes b0 b1 b2 b3
    if isWide h then
      match rest with
      | c0 :: c1 :: c2 :: c3 :: rest' =>
        (decodeWords sett h (some (wordOfBytes c0 c1 c2 c3))).map fun i => (i, rest')
      | _ => .error .truncated
    else (decodeWords sett h none).map fun i => (i, rest)
  | _ => .error .truncated

/-- The bytes of a word, the lowest address first. -/
def bytesOfWord (w : Nat) : List Byte :=
  [BitVec.ofNat 8 w, BitVec.ofNat 8 (w / 256), BitVec.ofNat 8 (w / 65536), BitVec.ofNat 8 (w / 16777216)]

/-- The instruction whose bits are `w` in the opcode table's numbering: bit 0 is bit 0 of the head, and a tail's
bits count on from bit 32. Bits at or above `nbits` are zero. -/
def decodeTableWord (nbits w : Nat) : Option Instr :=
  let v := w % 2 ^ nbits
  match decodeBytes true (bytesOfWord (v % 4294967296) ++ bytesOfWord (v / 4294967296 % 4294967296)) with
  | .ok (i, _) => some i
  | .error _ => none

/-! ## The encoder -/

def encLa3 (op : Nat) (w : IW) (d : VDst) (a b : LSrc) : List Nat := [LaneF.word ⟨op, d.nwb, d.code, a.code, b.code, w.code⟩]
def encLa2 (op : Nat) (w : IW) (d : VDst) (a : LSrc) : List Nat := [LaneF.word ⟨op, d.nwb, d.code, a.code, 0, w.code⟩]
def encFa3 (op : Nat) (w : FW) (d : VDst) (a b : LSrc) : List Nat := [LaneF.word ⟨op, d.nwb, d.code, a.code, b.code, w.code⟩]
def encFa2 (op : Nat) (w : FW) (d : VDst) (a : LSrc) : List Nat := [LaneF.word ⟨op, d.nwb, d.code, a.code, 0, w.code⟩]
def encLcmp (op : Nat) (w : IW) (d : MDst) (a b : LSrc) : List Nat := [LaneF.word ⟨op, 0, d.val, a.code, b.code, w.code⟩]
def encFcmp (op : Nat) (w : FW) (d : MDst) (a b : LSrc) : List Nat := [LaneF.word ⟨op, 0, d.val, a.code, b.code, w.code⟩]
def encLcar (op : Nat) (m : Fin 4) (d : VDst) (a b : LSrc) : List Nat := [LaneF.word ⟨op, d.nwb, d.code, a.code, b.code, m.val⟩]
def encLi3 (op : Nat) (w : IW) (d : VDst) (a : LSrc) (i : BitVec 7) : List Nat :=
  [LaneF.word ⟨op, d.nwb, d.code, a.code, i.toNat, w.code⟩]
def encLicmp (op : Nat) (w : IW) (d : MDst) (a : LSrc) (i : BitVec 7) : List Nat :=
  [LaneF.word ⟨op, 0, d.val, a.code, i.toNat, w.code⟩]
def encLbro (op w : Nat) (d : VDst) (a : LSrc) (b : BReg) : List Nat :=
  [LaneF.word ⟨op, d.nwb, d.code, a.code, 104 + b.val, w⟩]
def encRed (k : Nat) (op : RedKind) (d : VDst) (a : LSrc) : List Nat :=
  [LaneF.word ⟨0x65, d.nwb, d.code, a.code, k * 32 + op.code, op.width⟩]
/-- A lane memory head (LM of R54). -/
def encLm (op : Nat) (e : Bool) (d a : Nat) (o : Ord) (sc w x : Nat) : Nat :=
  LaneF.word ⟨op, bit e, d, a, lmB o.code sc w, x⟩
def encUa3 (op f : Nat) (d : SDst) (a b : USrc) : List Nat := [UniF.word ⟨op, d.nwb, d.code, a.code, b.code, f⟩]
def encUa2 (op f : Nat) (d : SDst) (a : USrc) : List Nat := [UniF.word ⟨op, d.nwb, d.code, a.code, 0, f⟩]
/-- A uniform head whose low eleven bits are `imm`. -/
def encUi (op n d a imm : Nat) : List Nat := [UniF.word ⟨op, n, d, a, imm / 32, imm % 32⟩]
def encUi3 (op : Nat) (d : SDst) (a : USrc) (i : BitVec 11) : List Nat := encUi op d.nwb d.code a.code i.toNat
def encOs (o : Ord) (sc : Scope) : Nat := o.code * 8 + sc.code
def encMl (f : Nat) (d : MDst) (a b : Nat) : List Nat := [UniF.word ⟨0x35, 0, d.val, a, b, f⟩]

/-- The words of an instruction, head first, from R54, R55, R62 and the maps of R70 and R71. The events of the
table have no encoding and no words. -/
def encode : Instr → List Nat
  | .add w d a b => encLa3 0x01 w d a b | .sub w d a b => encLa3 0x02 w d a b
  | .addSat w d a b => encLa3 0x03 w d a b | .addSatu w d a b => encLa3 0x04 w d a b
  | .subSat w d a b => encLa3 0x05 w d a b | .subSatu w d a b => encLa3 0x06 w d a b
  | .mul w d a b => encLa3 0x07 w d a b | .mulh w d a b => encLa3 0x08 w d a b
  | .mulhu w d a b => encLa3 0x09 w d a b | .mad w d a b => encLa3 0x0A w d a b
  | .addc m d a b => encLcar 0x0B m d a b | .subb m d a b => encLcar 0x0C m d a b
  | .min w d a b => encLa3 0x0D w d a b | .minu w d a b => encLa3 0x0E w d a b
  | .max w d a b => encLa3 0x0F w d a b | .maxu w d a b => encLa3 0x10 w d a b
  | .abs w d a => encLa2 0x11 w d a
  | .and w d a b => encLa3 0x12 w d a b | .or w d a b => encLa3 0x13 w d a b
  | .xor w d a b => encLa3 0x14 w d a b | .shl w d a b => encLa3 0x15 w d a b
  | .shr w d a b => encLa3 0x16 w d a b | .sra w d a b => encLa3 0x17 w d a b
  | .rot w d a b => encLa3 0x18 w d a b
  | .clz w d a => encLa2 0x19 w d a | .pop w d a => encLa2 0x1A w d a
  | .bfe w d a b => encLa3 0x1B w d a b | .bfi w d a b => encLa3 0x1C w d a b
  | .sel m d a b => encLcar 0x1D m d a b
  | .mov d a => [LaneF.word ⟨0x1E, d.nwb, d.code, a.code, 0, 0⟩]
  | .cmpEq w d a b => encLcmp 0x1F w d a b | .cmpNe w d a b => encLcmp 0x20 w d a b
  | .cmpLt w d a b => encLcmp 0x21 w d a b | .cmpLtu w d a b => encLcmp 0x22 w d a b
  | .cmpLe w d a b => encLcmp 0x23 w d a b | .cmpLeu w d a b => encLcmp 0x24 w d a b
  | .addImm w d a i => encLi3 0x25 w d a i | .andImm w d a i => encLi3 0x26 w d a i
  | .orImm w d a i => encLi3 0x27 w d a i | .xorImm w d a i => encLi3 0x28 w d a i
  | .shlImm w d a i => encLi3 0x29 w d a i | .shrImm w d a i => encLi3 0x2A w d a i
  | .sraImm w d a i => encLi3 0x2B w d a i | .rotImm w d a i => encLi3 0x2C w d a i
  | .li w d i => [LaneF.word ⟨0x2D, d.nwb, d.code, 0, i.toNat, w.code⟩]
  | .cmpEqImm w d a i => encLicmp 0x2E w d a i | .cmpLtImm w d a i => encLicmp 0x2F w d a i
  | .fadd w d a b => encFa3 0x30 w d a b | .fsub w d a b => encFa3 0x31 w d a b
  | .fmul w d a b => encFa3 0x32 w d a b | .fma w d a b => encFa3 0x33 w d a b
  | .fma3 w d a b c ftz np na =>
      encFa3 0x34 w d a b ++ [trWord 0 c.code (bit ftz + 2 * bit np + 4 * bit na)]
  | .fmin w d a b => encFa3 0x35 w d a b | .fmax w d a b => encFa3 0x36 w d a b
  | .fabs w d a => encFa2 0x37 w d a | .fneg w d a => encFa2 0x38 w d a
  | .fcmpEq w d a b => encFcmp 0x39 w d a b | .fcmpNe w d a b => encFcmp 0x3A w d a b
  | .fcmpLt w d a b => encFcmp 0x3B w d a b | .fcmpLe w d a b => encFcmp 0x3C w d a b
  | .fcmpUn w d a b => encFcmp 0x3D w d a b
  | .frnd w d a => encFa2 0x3E w d a | .fclass w d a => encFa2 0x3F w d a
  | .faddFtz w d a b => encFa3 0x40 w d a b | .fsubFtz w d a b => encFa3 0x41 w d a b
  | .fmulFtz w d a b => encFa3 0x42 w d a b | .fmaFtz w d a b => encFa3 0x43 w d a b
  | .fcvt d a b => encLbro 0x50 0 d a b
  | .fcvti w d a => encFa2 0x51 w d a | .fcvtiu w d a => encFa2 0x52 w d a
  | .icvtf w d a => encFa2 0x53 w d a | .icvtfu w d a => encFa2 0x54 w d a
  | .pack w d a b => encLa3 0x55 w d a b | .unpack w d a b => encLa3 0x56 w d a b
  | .swz w d a b => encLa3 0x57 w d a b
  | .frcp w d a => encFa2 0x58 w d a | .frsq w d a => encFa2 0x59 w d a | .fsqrt w d a => encFa2 0x5A w d a
  | .fex2 w d a => encFa2 0x5B w d a | .flg2 w d a => encFa2 0x5C w d a | .fsin w d a => encFa2 0x5D w d a
  | .fcos w d a => encFa2 0x5E w d a
  | .shfl w d a b => encLa3 0x60 w d a b
  | .shfli d a p k => [LaneF.word ⟨0x61, d.nwb, d.code, a.code, p.code * 32 + k.toNat, 3⟩]
  | .vote v d a => [LaneF.word ⟨0x62, 0, d.val, a.code, 0, v.code⟩]
  | .lget w d a b => encLa3 0x63 w d a b | .lput w d a b => encLa3 0x64 w d a b
  | .red op d a => encRed 0 op d a | .scan op d a => encRed 1 op d a
  | .scanEx op d a => encRed 2 op d a | .segred op d a => encRed 3 op d a
  | .walki d a b => encLbro 0x66 3 d a b | .walk d a b => encLbro 0x67 3 d a b
  | .mmul q d a b => encLcar 0x68 q d a b | .madd q d a b => encLcar 0x69 q d a b
  | .msub q d a b => encLcar 0x6A q d a b
  | .bfly q d a b => [LaneF.word ⟨0x6B, d.nwb, d.code, a.val, b.code, q.val⟩]
  | .ibfly q d a b => [LaneF.word ⟨0x6C, d.nwb, d.code, a.val, b.code, q.val⟩]
  | .mred q d a b => encLcar 0x6D q d a b
  | .ld e o sc w x d a => [encLm 0x70 e d.val a.code o sc.code w.code x.code]
  | .st e o sc w x d a => [encLm 0x71 e d.code a.code o sc.code w.code x.code]
  | .ldx e o sc w k d a base off =>
      [encLm 0x72 e d.val a.code o sc.code w.code k.val, trWord 0 base.code off.toNat]
  | .stx e o sc w k d a base off =>
      [encLm 0x73 e d.code a.code o sc.code w.code k.val, trWord 0 base.code off.toNat]
  | .stf e o sc w d a f inc =>
      [encLm 0x74 e d.code a.code o sc.code w.code 0, trWord 0 f.code inc.toNat]
  | .lds o sc w x d a => [encLm 0x75 false d.val a.code o sc.code w.code x.code]
  | .sts o sc w x d a => [encLm 0x76 false d.code a.code o sc.code w.code x.code]
  | .atom e o sc w op d a => [encLm 0x77 e d.val a.code o sc.code w.code op.code]
  | .atomOffset e o sc op d a c off =>
      [encLm 0x78 e d.val a.code o sc.code op.width 0, trWord 0 c.code (op.code * 16384 + off.toNat)]
  | .cas e o sc w d a x n =>
      [encLm 0x79 e d.val a.code o sc.code w.code 0, t2Word 0 x.code n.code 0]
  | .redm o sc op d a => [encLm 0x7A false d.code a.code o sc.code op.width op.code]
  | .sadd d a b => encUa3 0 0 d a b | .ssub d a b => encUa3 0 1 d a b | .smul d a b => encUa3 0 2 d a b
  | .smulh d a b => encUa3 0 3 d a b | .smulhu d a b => encUa3 0 4 d a b | .sdiv d a b => encUa3 0 5 d a b
  | .sdivu d a b => encUa3 0 6 d a b | .srem d a b => encUa3 0 7 d a b | .sremu d a b => encUa3 0 8 d a b
  | .sand d a b => encUa3 0 9 d a b | .sor d a b => encUa3 0 10 d a b | .sxor d a b => encUa3 0 11 d a b
  | .sshl d a b => encUa3 0 12 d a b | .sshr d a b => encUa3 0 13 d a b | .ssra d a b => encUa3 0 14 d a b
  | .smin d a b => encUa3 0 15 d a b | .sminu d a b => encUa3 0 16 d a b | .smax d a b => encUa3 0 17 d a b
  | .smaxu d a b => encUa3 0 18 d a b | .sclz d a => encUa2 0 19 d a | .spop d a => encUa2 0 20 d a
  | .sbfe d a b => encUa3 0 21 d a b | .sbfi d a b => encUa3 0 22 d a b | .smov d a => encUa2 0 23 d a
  | .saddImm d a i => encUi3 1 d a i | .smulImm d a i => encUi3 2 d a i | .sandImm d a i => encUi3 3 d a i
  | .sorImm d a i => encUi3 4 d a i | .sxorImm d a i => encUi3 5 d a i | .sshlImm d a i => encUi3 6 d a i
  | .sshrImm d a i => encUi3 7 d a i | .ssraImm d a i => encUi3 8 d a i
  | .sliI d i => [ulWord 0x09 d.val i.toNat] | .sliZ d i => [ulWord 0x0A d.val i.toNat]
  | .slil d i => [ulWord 0x0B d.val i.toNat] | .slim d i => [ulWord 0x0C d.val i.toNat]
  | .slih d i => [ulWord 0x0D d.val i.toNat] | .sliF64 d x => [ulWord 0x0E d.val x.toNat]
  | .sliF32 d x => [ulWord 0x0F d.val x.toNat] | .sliF16 d x => [ulWord 0x10 d.val x.toNat]
  | .sadr d i => [ulWord 0x11 d.val i.toNat]
  | .scmp c d a b => encUa3 0x12 c.code d a b
  | .ssel d a b c => encUa3 0x13 c.val d a b
  | .br off => [ujWord 0x20 off.toNat]
  | .bc c a b off => [ubWord 0x21 c.code a.code b.code off.toNat]
  | .jmp a => [UniF.word ⟨0x22, 0, 0, a.code, 0, 0⟩]
  | .call d i => [ulWord 0x23 d.val i.toNat]
  | .ret a => [UniF.word ⟨0x24, 0, 0, a.code, 0, 0⟩]
  | .loop a off => [ubWord 0x25 0 a.val 0 off.toNat]
  | .exit => [ujWord 0x26 0] | .yield => [ujWord 0x27 0] | .nop => [ujWord 0x28 0]
  | .emit k d a b => encUa3 0x29 k.val d a b
  | .launch d a => encUa2 0x2A 0 d a
  | .widf d f => encUi 0x2B d.nwb d.code 0 (f.val + 1)
  | .dvg m off => [ubWord 0x30 0 m.val 0 off.toNat]
  | .flip off => [ubWord 0x31 0 0 0 off.toNat]
  | .cvg => [ujWord 0x32 0]
  | .bany m off => [ubWord 0x33 0 m.val 0 off.toNat] | .bnone m off => [ubWord 0x34 0 m.val 0 off.toNat]
  | .mand d a b => encMl 0 d a.val b.val | .mor d a b => encMl 1 d a.val b.val
  | .mandn d a b => encMl 2 d a.val b.val | .mxor d a b => encMl 3 d a.val b.val
  | .mnot d a => encMl 4 d a.val 0 | .mmov d a => encMl 5 d a.val 0
  | .mcnt d m => [UniF.word ⟨0x36, d.nwb, d.code, m.val, 0, 0⟩]
  | .mfirst d m => [UniF.word ⟨0x37, d.nwb, d.code, m.val, 0, 0⟩]
  | .mlw d m k => encUi 0x38 d.nwb d.code m.val k.val
  | .wait c n => encUi 0x39 0 0 0 (c.code * 256 + n.toNat)
  | .waitq a q => encUi 0x3A 0 0 a.code q.val
  | .ldu o sc w d a b => encUa3 (0x40 + w.code) (encOs o sc) d a b
  | .stu o sc w d a b => [UniF.word ⟨0x44 + w.code, 0, d.code, a.code, b.code, encOs o sc⟩]
  | .atomu o sc op d a =>
      encUi 0x48 d.nwb d.code a.code (o.code * 512 + sc.code * 64 + op.width * 32 + op.code)
  | .casu o sc w d a e n => encUa3 0x49 (encOs o sc) d a e ++ [trWord 1 n.code w.bit]
  | .tlook d a b => encUa3 0x4A 0 d a b | .tins d a b => encUa3 0x4B 0 d a b | .tinv d a b => encUa3 0x4C 0 d a b
  | .fence o sc => encUi 0x4D 0 0 0 (o.code * 8 + sc.code)
  | .qfence qs => encUi 0x4E 0 0 0 qs.toNat
  | .arrive o sc d a b => encUa3 0x4F (encOs o sc) d a b | .await o sc d a b => encUa3 0x50 (encOs o sc) d a b
  | .arwait o sc d a b => encUa3 0x51 (encOs o sc) d a b | .mwait o sc d a b => encUa3 0x52 (encOs o sc) d a b
  | .lkacq o sc d a heir t orph tryOnce =>
      [UniF.word ⟨0x53, d.nwb, d.code, a.code, (heir.map USrc.code).getD 0, encOs o sc⟩,
        trWord 1 t.code (bit orph + 2 * bit tryOnce + 4 * bit heir.isNone)]
  | .lkrel o sc a => [UniF.word ⟨0x54, 0, 0, a.code, 0, encOs o sc⟩]
  | .prnew o sc d a heir v => encUa3 0x55 (encOs o sc) d a heir ++ [trWord 1 v.code 0]
  | .prful o sc a b => [UniF.word ⟨0x56, 0, 0, a.code, b.code, encOs o sc⟩]
  | .prwait o sc d a => encUa2 0x57 (encOs o sc) d a
  | .hold k sc d a heir => encUa3 0x58 k.code d a heir ++ [trWord 1 k.ext sc.code]
  | .unhold k a => [UniF.word ⟨0x59, 0, 0, a.code, 0, k.code⟩]
  | .heir a b => [UniF.word ⟨0x5A, 0, 0, a.code, b.code, 0⟩]
  | .mtask d a => [UniF.word ⟨0x60, d.nwb, d.code, 8 * a.val, 0, 0⟩]
  | .cpy ch d a b => [UniF.word ⟨0x61, 0, d.code, a.code, b.code, ch.val⟩]
  | .cpy2 ch d a b => [UniF.word ⟨0x62, 0, d.code, a.code, b.code, ch.val⟩]
  | .kick a b => [UniF.word ⟨0x63, 0, 0, a.code, b.code, 0⟩]
  | .kpop d => [UniF.word ⟨0x64, d.nwb, d.code, 0, 0, 0⟩]
  | .kack a => [UniF.word ⟨0x65, 0, 0, a.code, 0, 0⟩]
  | .sar op a b => [UniF.word ⟨0x66, 0, 0, a.code, b.code, op.code⟩]
  | .sag a b => [UniF.word ⟨0x67, 0, 0, a.code, b.code, 0⟩]
  | .sstat d a => encUa2 0x68 0 d a
  | .escset d a b => [UniF.word ⟨0x70, 0, d.code, a.code, b.code, 0⟩]
  | .rgn => [ujWord 0x71 0]
  | .srd d n => encUi 0x72 d.nwb d.code 0 n.code
  | .srdLane d n => [ulWord 0x73 0 (d.val * 2048 + (match n with | .lane => 0 | .wid => 3))]
  | .swr n a => encUi 0x74 0 0 a.code n.code
  | .trap c => [ulWord 0x75 0 c.toNat] | .brk c => [ulWord 0x76 0 c.toNat] | .sys c => [ulWord 0x77 0 c.toNat]
  | _ => []

/-- Whether the instruction has an encoding: the rows of R70 and R71, not the device's own steps. -/
def Instr.encodable (i : Instr) : Bool := (encode i).length != 0

/-- The bytes of an instruction in memory. -/
def encodeBytes (i : Instr) : List Byte := (encode i).flatMap bytesOfWord

end Sys2Proof
end

