-- ==== Sys2Proof/Machine/SysRegs.lean ====
section
/-! DEFINITION. Special registers, escort set, regions, software traps (R45 to R52, R106 to R110, R114). -/
namespace Sys2Proof.Machine
open Sys2Proof

/-! ## Special registers -/

/-- Lane registers below V, as bits of `%escv1:%escv0` (R46). -/
def escvMask (v : Nat) : BitVec 96 := BitVec.ofNat 96 (2 ^ v - 1)

/-- The congestion level that a group reads: the highest published within the last 1,024 ck by the slices that
carried its requests (R232). -/
def State.congLevel (s : State) (g : Group) : Nat :=
  (List.range s.slices.length).foldl (fun acc k =>
    if g.slices.getLsbD k then
      (nth ⟨[]⟩ s.slices k).pubs.foldl (fun a p => if s.ck ≤ p.1 + 1024 then max a p.2 else a) acc
    else acc) 0 % 8

/-- `%cyc` of the team's core (R46). -/
def State.cyc (s : State) (t : Team) : Word := word (s.coreCount (2 * t.cluster + t.core))

/-- What `srd` of a special register gives the team in focus (R45). The two lane registers have no scalar value. -/
def readSpecial (s : State) (n : Special) : Word :=
  let t := s.cur
  let g := s.curGroup
  match n with
  | .lane => 0
  | .wid => 0
  | .team => word t.index
  | .group => word t.group
  | .widw => t.widw
  | .stage => word t.stage
  | .fflags => t.fflags.setWidth 64
  | .frm => t.frm.setWidth 64
  | .feat => featWord s.part
  | .ftrap => t.ftrap.setWidth 64
  | .pidx => t.pidx
  | .recCount => t.recCount
  | .rpc => t.rpc
  | .escv0 => t.escv.setWidth 64
  | .escv1 => (t.escv >>> 64).setWidth 64
  | .escs => t.escs.setWidth 64
  | .abroad => word (s.abroad t.cluster t.core)
  | .wher => 0
  | .cwp k => g.cwp[k]
  | .qseq q => t.qseq[q]
  | .sett => t.sett
  | .cyc => s.cyc t
  | .cong => word (s.congLevel g)
  | .tcause => t.tcause.setWidth 64
  | .tinfo => t.tinfo

/-- A mode that `%frm` accepts (R25). -/
def frmOf (t : Team) (v : Word) : BitVec 3 := if bits v 0 3 ≤ 4 then v.setWidth 3 else t.frm

/-- The escort set with lane bits at or above V ignored (R46, R108). -/
def Team.setEscv (t : Team) (x : BitVec 96) : Team := { t with escv := x &&& escvMask t.nregs }

/-- What `swr` does to the team: read-only registers and reserved fields ignore the write (R46, R107). -/
def writeSpecial (n : Special) (v : Word) (t : Team) : Team :=
  match n with
  | .fflags => { t with fflags := v.setWidth 9 }
  | .frm => { t with frm := frmOf t v }
  | .ftrap => { t with ftrap := v.setWidth 5 }
  | .pidx => { t with pidx := v }
  | .escv0 => t.setEscv ((t.escv >>> 64 <<< 64) ||| v.setWidth 96)
  | .escv1 => t.setEscv (((v.setWidth 32).setWidth 96 <<< 64) ||| (t.escv.setWidth 64).setWidth 96)
  | .escs => { t with escs := v.setWidth 32 }
  | _ => t

/-- Numbers of the two registers that the device OS can lock (R45, R107). -/
def lockedChange (s : State) (n : Special) (v : Word) : Option Word :=
  let q := s.ctxQuota s.cur.cluster s.curCtx 0
  match n with
  | .frm => if bitAt q 43 ∧ frmOf s.cur v ≠ s.cur.frm then some 0x009 else none
  | .ftrap => if bitAt q 42 ∧ v.setWidth 5 ≠ s.cur.ftrap then some 0x00B else none
  | _ => none

def execSrd (d : SDst) (n : Special) (s : State) : Out :=
  teamStep 4 (fun t => t.uniResult d (readSpecial s n)) s

/-- The lane form pushes nothing (R90). -/
def execSrdLane (d : VReg) (n : LaneSpecial) (s : State) : Out :=
  teamStep 4 (fun t => t.writeLanes d t.active fun x =>
    match n with
    | .lane => word x
    | .wid => t.wid x) s

/-- The flags that reading `a` raises are ORed after the write, by R47 read for the `swr` itself. -/
def execSwr (n : Special) (a : USrc) (s : State) : Out :=
  let v := s.cur.uniSrc a
  match lockedChange s n v with
  | some num => trapRead (s.cur.uniFlags a) 3 num s
  | none => teamStep 4 (fun t => (writeSpecial n v t).raise (t.uniFlags a)) s

/-! ## Escort set and regions -/

/-- d supplies `%escs`, a `%escv0`, b `%escv1` (R77, R108). -/
def execEscset (d a b : USrc) (s : State) : Out :=
  teamStep 4 (fun t =>
    let t' := t.raise (t.uniFlags d ||| t.uniFlags a ||| t.uniFlags b)
    { t' with escs := (t.uniSrc d).setWidth 32 }.setEscv
      (((t.uniSrc b).setWidth 32).setWidth 96 <<< 64 ||| (t.uniSrc a).setWidth 96)) s

/-- The four steps of R109. -/
def execRgn (s : State) : Out :=
  teamStep 4 (fun t => { t with recCount := t.recCount + 1, rpc := t.pc, srRgn := t.srCtr }.dropLatches) s

/-! ## Software traps (R110) -/

def execTrap (code : BitVec 18) (s : State) : Out := trapAt 0x0A (code.setWidth 64) s
def execBrk (code : BitVec 18) (s : State) : Out := trapAt 0x0B (code.setWidth 64) s

/-! ## Work identifiers (R114) -/

/-- Field `f` of a work identifier. -/
def widField (widw wid : Word) (f : Nat) : Word :=
  let shift := sumOf (widWidth widw) (List.range' 1 (f - 1))
  word (bits wid shift (widWidth widw f))

def execWidf (d : SDst) (f : Fin 6) (s : State) : Out :=
  teamStep 4 (fun t => t.uniResult d (widField t.widw (t.wid 0) (f.val + 1))) s

end Sys2Proof.Machine
end

