-- ==== Sys2Proof/Machine/Issue.lean ====
section
/-! DEFINITION. Fetching an instruction (R53, R68, R75, R346), tenures and the issue selector (R215, R218 to R220), the
taking of boundary traps (R324), and congestion (R232, R233). -/
namespace Sys2Proof.Machine
open Sys2Proof

/-! ## Fetch (R68, R75) -/

/-- What a fetch at the program counter finds. -/
inductive Fetched where
  | instr (i : Instr)
  | illegal (cause : Nat) (info : Word)
  | fault (x : XFault) (va : Nat)
  /-- The code line holds an uncorrectable error (R400). -/
  | poison
  /-- The fetch waits for a link that holds its traffic (R387). -/
  | wait
deriving DecidableEq, Repr

/-- A code word under the launch's patches: a patched field is the low bits of its word. -/
def overlayWord (patches : List Patch) (va w : Nat) : Nat :=
  match patches.find? fun p => p.addr == va with
  | some p => w / 2 ^ p.width * 2 ^ p.width + p.value % 2 ^ p.width
  | none => w

/-- Whether a code word cannot be read: poisoned, or torn at the home die too (R265, R400). -/
def State.badCode (s : State) (pl : Place) (at_ : Nat) : Bool :=
  s.poisonedAt (.hbm at_) 4 || match pl.kind with | .replicated home => s.torn home at_ 4 | _ => false

/-- One code word of a team; `none` where it is poisoned. The fetch of a line that was stored to may return its old or
its new bytes (R76): the model takes what memory holds, the new ones once they are performed (log 71). A fetch from a
replicated page reads the die's replica, or the home's where a line is torn (R265). -/
def State.fetchWord (s : State) (t : Team) (va : Nat) : State × Except XFault (Option Nat) :=
  let p := s.translate t.cluster (s.group t.group).ctx va 3
  match p.2 with
  | .error x => (p.1, .error x)
  | .ok pl =>
    match pl.tgt with
    | .hbm pa =>
      let at_ := match pl.kind with
        | .replicated home => p.1.replicaAt (p.1.replicaDie (dieOf t.cluster) home pa 3) pa
        | _ => pa
      (p.1, .ok (if p.1.badCode pl at_ then none else some (overlayWord t.patches va (p.1.hbmRead at_ 4))))
    | _ => (p.1, .error .access)

/-- Decodes a head and its tail for a team: the checks of R68 from step 2 on, the register count of R36 among them. -/
def decodeFor (full : Bool) (nregs head : Nat) (tail : Option Nat) : Fetched :=
  let info := word (head + tail.getD 0 * 4294967296)
  match decodeWords full head tail with
  | .ok i => if i.fits nregs then .instr i else .illegal 1 info
  | .error .absentUnit => .illegal 2 info
  | .error _ => .illegal 1 info

/-- Whether the links carry the fetch of a team's code word: its walk, and the line that holds it. -/
def State.fetchOpen (s : State) (t : Team) (va : Nat) : Bool :=
  let p := s.translate t.cluster (s.group t.group).ctx va 3
  s.memoryOpen || (s.walkOpen t.cluster (s.group t.group).ctx va && match p.2 with
    | .ok pl => s.linkOpen (dieOf t.cluster) pl.slice
    | .error _ => true)

/-- Fetches and decodes at the program counter of the team in focus. -/
def State.fetch (s : State) : State × Fetched :=
  let t := s.cur
  let pc := t.pc.toNat
  if !s.fetchOpen t pc then (s, .wait) else
  let p := s.fetchWord t pc
  match p.2 with
  | .error x => (p.1, .fault x pc)
  | .ok none => (p.1, .poison)
  | .ok (some h) =>
    if isWide h then
      if !p.1.fetchOpen t (pc + 4) then (s, .wait) else
      let q := p.1.fetchWord t (pc + 4)
      match q.2 with
      | .error x => (q.1, .fault x (pc + 4))
      | .ok none => (q.1, .poison)
      | .ok (some w) => (q.1, decodeFor s.part.full t.nregs h (some w))
    else (p.1, decodeFor s.part.full t.nregs h none)

/-! ## The failed fetch (R68, R69, R346) -/

/-- A word that fails a check of R68 traps with no effect. -/
def execIllegalWord (tid : Nat) (s : State) : Out :=
  let s := s.focus tid
  if s.cur.tid ≠ tid ∨ s.cur.st ≠ .ready then .next s
  else
    let p := s.fetch
    match p.2 with
    | .illegal c info => trapAt c info p.1
    | _ => .next s

/-- A fetch that faults: the team waits, resident and not ready, with its tenure ended; or the access fault. -/
def execFetchFault (tid : Nat) (s : State) : Out :=
  let s := s.focus tid
  if s.cur.tid ≠ tid ∨ s.cur.st ≠ .ready then .next s
  else
    let p := s.fetch
    match p.2 with
    | .fault .access va => trapAt 6 (word va) p.1
    | .fault .replay va =>
      let t := p.1.cur
      let s := p.1.endTenure.setSt (.fetchHeld va)
      .next (s.addFault t.cluster ⟨s.curCtx, va, 3, 5, t.cluster, t.group, .fetch tid⟩)
    | .poison =>
      let place := match (p.1.translate p.1.cur.cluster p.1.curCtx p.1.cur.pc.toNat 3).2 with | .ok pl => some pl | .error _ => none
      let s := p.1.containedAt p.1.cur.cluster p.1.curCtx ((place.map Place.slice).getD 0) (place.map Place.tgt)
      .next (s.killGroup s.cur.group 0x1C).settleAll
    | _ => .next s

/-! ## Boundary traps (R199, R324) -/

/-- The pending trap of lowest cause, the oldest of them. -/
def Team.nextTrap (t : Team) : Option (Nat × Word) := minBy Prod.fst t.pending

/-- Takes the next pending trap of a team that stands at an instruction boundary. A task-failure trap takes the team's
queues out of their failed state. -/
def State.boundaryTrap (s : State) (tid : Nat) : State :=
  let s := s.focus tid
  if s.cur.tid ≠ tid ∨ s.cur.st ≠ .ready then s
  else
    match s.cur.nextTrap with
    | none => s
    | some p => takeTrap p.1 p.2 (s.onCur fun t => { t with
        pending := eraseFirst (fun q => q == p) t.pending
        qfail := if p.1 = 15 then Vector.replicate 4 0 else t.qfail })
def execBoundaryTrap (tid : Nat) (s : State) : Out := .next (s.boundaryTrap tid)

/-! ## Tenures (R215, R218 to R220) -/

def Tenure.isHeld : Tenure → Bool
  | .held _ => true
  | _ => false

/-- Teams of a core, and those of them that hold a tenure. -/
def State.coreTeams (s : State) (c k : Nat) : List Team := s.teams.filter fun t => t.cluster == c && t.core == k
def State.holders (s : State) (c k : Nat) : List Team := (s.coreTeams c k).filter fun t => t.tenure.isHeld
/-- Teams that a grant may choose. -/
def State.grantable (s : State) (c k : Nat) : List Team :=
  (s.coreTeams c k).filter fun t => t.st == .ready && !t.tenure.isHeld

/-- Oldest ready first, then round robin from the slot after the last one granted. -/
def grantKey (last : Nat) (t : Team) : Nat := t.readyAt * 32 + (t.slot + 31 - last) % 32

/-- Priority class of a team's stage (R311). -/
def State.pclsOf (s : State) (t : Team) : Nat :=
  let g := s.group t.group
  ((s.launch g.launch).stage g.stage).pcls

/-- The team that the selector chooses on a core (R220). -/
def State.selected (s : State) (c k : Nat) : Option Team :=
  let last := ((s.cluster c).core k).lastSlot
  let cand := s.grantable c k
  let waited := cand.filter Team.readyPrev
  if !waited.isEmpty then minBy (grantKey last) waited
  else
    let top := (minOf (cand.map s.pclsOf)).getD 0
    minBy (grantKey last) (cand.filter fun t => s.pclsOf t == top)

/-- Whether the next instruction of a team belongs to the uniform set; an unreadable one counts as of the lane set. -/
def State.nextUniform (s : State) (t : Team) : Bool :=
  match (s.fetchWord t t.pc.toNat).2 with
  | .ok (some w) => decide (2147483648 ≤ w)
  | _ => false

/-- Leads after a grant (R215). -/
def Core.grant (c : Core) (tid slot : Nat) (other : Option Nat) (uni : Bool) : Core :=
  let lane := if uni then other.getD tid else tid
  let un := if uni then tid else other.getD tid
  { c with laneLead := some lane, uniLead := some un, lastSlot := slot, grants := c.grants + 1 }

/-- A granted team: a suspended or saved tenure resumes with its count, and any other begins at zero. -/
def Team.granted_ (t : Team) : Team :=
  { t with tenure := .held (match t.tenure with | .suspended n => n | _ => 0), readyPrev := false }

/-- Grants a tenure on a core with a free lead. -/
def State.grantCore (s : State) (c k : Nat) : State :=
  match s.holders c k, s.selected c k with
  | _ :: _ :: _, _ => s
  | _, none => s
  | hs, some t =>
    let ready := (s.grantable c k).map Team.tid
    let uni := s.nextUniform t
    let s := s.modCore c k fun x => x.grant t.tid t.slot (hs.head?.map Team.tid) uni
    let s := ready.foldl (fun s u => s.modTeam u fun x => { x with readyPrev := true }) s
    s.modTeam t.tid Team.granted_
def execTenureGrant (c k : Nat) (s : State) : Out :=
  .next (if ((s.cluster c).core k).fenced then s else s.grantCore c k)

/-- Suspends a tenure: both leads are given up, the latches stay valid, and the count starts again at the resumption
(R219). From then on the team holds none (R225; log 85). -/
def State.suspend (s : State) (tid : Nat) : State :=
  let t := s.team tid
  (s.modCore t.cluster t.core fun c => c.release tid).modTeam tid fun t =>
    { t with tenure := .suspended 0, readyAt := s.ck, readyPrev := false, idleSince := s.ck }
def Team.spent512 (t : Team) : Bool :=
  match t.tenure with
  | .held n => decide (512 ≤ n)
  | _ => false
def execTenureSuspend (tid : Nat) (s : State) : Out :=
  .next (if (s.team tid).spent512 ∧ (s.team tid).st = .ready then s.suspend tid else s)

/-! ## Congestion (R232, R233) -/

def execCongestionPublish (slice : Nat) (s : State) : Out :=
  let x := nth ⟨[]⟩ s.slices slice
  let lv := Config.publishLevel s.freeCtr % 8
  .next { s.drawFree with
    slices := setNth s.slices slice ⟨(x.pubs.filter fun p => decide (s.ck ≤ p.1 + 1024)) ++ [(s.ck, lv)]⟩ }

/-- The end of a window of 4,096 ck for a group: its counters decide, and begin again. -/
def execThrottleWindow (h : Nat) (s : State) : Out :=
  if s.ck < (s.group h).window + 4096 then .next s
  else
  let ts := s.teams.filter fun t => t.group == h
  let mem := sumOf Team.memCk ts
  let res := sumOf Team.resCk ts
  let s := s.modGroup h fun g => { g with
    window := s.ck
    detected := if g.detected then decide (res ≤ 2 * mem) else decide (3 * res ≤ 4 * mem) && res != 0 }
  .next (ts.foldl (fun s t => s.modTeam t.tid fun t => { t with memCk := 0, resCk := 0 }) s)

/-- A new window of 256 ck: every team of the cluster may issue its allowance again. -/
def execCongestionWindow (c : Nat) (s : State) : Out :=
  if s.ck < (s.cluster c).window + 256 then .next s
  else .next ((s.teams.filter fun t => t.cluster == c).foldl (fun s t => s.modTeam t.tid fun t => { t with winCount := 0 })
    (s.modCluster c fun x => { x with window := s.ck }))

/-- Global memory instructions that a team may issue in a window; `none` where nothing limits it. -/
def State.allowance (s : State) (t : Team) : Option Nat :=
  let g := s.group t.group
  if !(g.mbound || g.detected) then none
  else match s.congLevel g with
    | 4 => some 64 | 5 => some 32 | 6 => some 16 | 7 => some 8 | _ => none

/-- Whether an instruction has a global or remote target. -/
def Team.goesGlobal (t : Team) (i : Instr) : Bool :=
  let lane (a : LSrc) : Bool := t.activeLanes.any fun x => decide (0x400000 ≤ (t.laneSrc 64 a x).toNat)
  let uni (a : USrc) : Bool := decide (0x400000 ≤ (t.uniSrc a).toNat)
  match i with
  | .ld .. | .st .. | .ldx .. | .stx .. | .stf .. => true
  | .atom _ _ _ _ _ _ a => lane a
  | .atomOffset _ _ _ _ _ a _ _ => lane a
  | .cas _ _ _ _ _ a _ _ => lane a
  | .redm _ _ _ _ a => lane a
  | .ldu .. | .stu .. => true
  | .atomu _ _ _ _ a => uni a
  | .casu _ _ _ _ a _ _ => uni a
  | .arrive _ _ _ a _ | .await _ _ _ a _ | .arwait _ _ _ a _ | .mwait _ _ _ a _ => uni a
  | .lkacq _ _ _ a _ _ _ _ | .lkrel _ _ a | .prnew _ _ _ a _ _ | .prful _ _ a _ | .prwait _ _ _ a => uni a
  | .cpy _ d a _ | .cpy2 _ d a _ => uni d || uni a
  | .hold (.pslot _) _ _ a _ => uni a
  | _ => false

/-! ## Time -/

/-- Whether a team is parked on memory, or stalled for it (R232). Which waits these are is the model's choice (log 95): of
classes `ld`, `st` and `at`, of an escort or an unescorted access, for a word or for budget, and of a ready team whose
instruction waits in place. -/
def Team.onMemory (t : Team) : Bool :=
  match t.st with
  | .ready => t.tenure.isHeld && t.stalledPc == some t.pc
  | .waitClass .cp _ => false
  | .waitClass _ _ | .waitAcc _ | .waitBudget _ _ => true
  | .abroad | .waitWord => match t.escort with
    | some e => (match e.what with | .access _ | .unitAccess _ | .word _ => true | _ => false)
    | none => false
  | _ => false

/-- A requester timer runs unless its element waits behind a seal stall (R362, R392). -/
def Remote.wait (r : Remote) (n : Nat) : Remote := if r.stalled then r else { r with timer := r.timer + n }

/-- `n` ck pass. -/
def State.elapse (s : State) (n : Nat) : State :=
  let f (t : Team) : Team := if t.slotted then
    { t with resCk := t.resCk + n, memCk := if t.onMemory then t.memCk + n else t.memCk } else t
  { s with ck := s.ck + n, cur := f s.cur, others := s.others.map f, remotes := s.remotes.map (·.wait n) }

end Sys2Proof.Machine
end

