-- ==== Sys2Proof/Machine/Sett.lean ====
section
/-! DEFINITION. Sett instructions, and the collectives of the base dies (R211 to R213, R365 to R374). -/
namespace Sys2Proof.Machine
open Sys2Proof

/-! ## The buffer table (R366, R367) -/

def State.settEntry (s : State) (b : Nat) : SettEntry := nth .zero s.sett.toList b
def State.modSett (s : State) (b : Nat) (f : SettEntry → SettEntry) : State :=
  { s with sett := Vector.ofFn fun i => if i.val = b then f s.sett[i] else s.sett[i] }

def SettEntry.fmt (e : SettEntry) : Nat := bits e.w0 56 4
def SettEntry.base (e : SettEntry) : Nat := bits e.w0 15 33 * 32768
def SettEntry.nchk (e : SettEntry) : Nat := bits e.w1 0 20
def SettEntry.pmask (e : SettEntry) : Nat := bits e.w2 48 16
def SettEntry.staddr (e : SettEntry) : Nat := bits e.w2 0 48

/-- Participants in ascending device number, and this device's rank among them. -/
def SettEntry.members (e : SettEntry) : List Nat := (List.range 16).filter fun d => e.pmask / 2 ^ d % 2 == 1
def State.settRank (s : State) (e : SettEntry) : Nat := e.members.idxOf s.podDev
/-- This device's place in the ring of chunk c, counted from the chunk's owner. -/
def State.settPlace (s : State) (e : SettEntry) (c : Nat) : Nat :=
  let p := max e.members.length 1
  (s.settRank e + p - c % p) % p
/-- The devices that stand before place p in the ring of chunk c. -/
def SettEntry.before (e : SettEntry) (c p : Nat) : Nat :=
  let n := max e.members.length 1
  (List.range p).foldl (fun m t => m ||| 2 ^ nth 0 e.members ((c + t) % n)) 0

/-! ## The combination of two elements (R368) -/

def settCombine (fmt : Nat) (op : SarOp) (a b : Nat) : Nat :=
  let float (f : Fmt) : Nat := match op with
    | .sum => (floatAdd f .rne false a b).1
    | .min => (floatMinMax f true a b).1
    | .max => (floatMinMax f false a b).1
  match fmt with
  | 1 => float .f32
  | 3 => float .bf16
  | _ => match op with
    | .sum => (a + b) % 2 ^ 32
    | .min => if signed 32 a < signed 32 b then a else b
    | .max => if signed 32 a < signed 32 b then b else a
/-- Two chunks, element by element. -/
def combineChunks (fmt : Nat) (op : SarOp) (a b : List Byte) : List Byte :=
  let n := if fmt = 3 then 2 else 4
  (List.range (4096 / n)).flatMap fun i =>
    leBytes n (settCombine fmt op (leNat ((a.drop (n * i)).take n)) (leNat ((b.drop (n * i)).take n)))

/-! ## Sett links (R365) -/

def State.settLink (s : State) (k : Nat) : Link := nth .zero s.settLinks.toList k
def State.modSettLink (s : State) (k : Nat) (f : Link → Link) : State :=
  { s with settLinks := Vector.ofFn fun i => if i.val = k then f s.settLinks[i] else s.settLinks[i] }

/-- The port of a base die that leads onward, S0 to the next device of the ring, or back. -/
def settPort (h : Nat) (onward : Bool) : Nat := 2 * h + b2n (!onward)
/-- The device that a base die's port leads to. -/
def State.settPeer (s : State) (onward : Bool) : Nat := (s.podDev + if onward then 1 else s.podSize - 1) % s.podSize

/-- Whether a Sett port takes another flit now. -/
def State.settRoom (s : State) (p : Nat) : Bool := !(s.settLink p).full && !s.settOut.any fun q => q.1 == p
/-- Puts a flit into a working Sett port's replay buffer, or lets it wait for room. -/
def State.putSett (s : State) (p : Nat) (f : Flit) : State :=
  if !(s.settLink p).up then s
  else if s.settRoom p then s.modSettLink p fun l => l.put s.ck f
  else { s with settOut := s.settOut ++ [(p, f)] }
/-- Flits that wait for room in a Sett port, tried again in order. -/
def State.retrySett (s : State) : State :=
  s.settOut.foldl (fun s q =>
    if (s.settOut.find? fun r => r.1 == q.1) != some q || (s.settLink q.1).full then s
    else { s with settOut := eraseFirst (· == q) s.settOut }.modSettLink q.1 fun l => l.put s.ck q.2) s

/-- The parts of a chunk of 4,096 bytes: a flit carries 128 of them, the model's choice within its payload of 240 (R356,
R365; log 100). -/
def chunkParts : Nat := 32
def partBytes : Nat := 128
/-- The messages that carry a chunk. -/
def chunkBodies (buf n c : Nat) (data : List Byte) (contrib : Nat) (complete : Bool) : List FlitBody :=
  tabulate chunkParts fun i => .chunk buf n c i ((data.drop (partBytes * i)).take partBytes) contrib complete
/-- The number of a part among those of its chunk, its bytes and its contributors. -/
def FlitBody.part : FlitBody → Nat
  | .chunk _ _ _ i _ _ _ => i
  | _ => 0
def FlitBody.data : FlitBody → List Byte
  | .chunk _ _ _ _ l _ _ => l
  | _ => []
def FlitBody.contrib : FlitBody → Nat
  | .chunk _ _ _ _ _ m _ => m
  | _ => 0

/-- Sends a message from a base die. -/
def State.settSend (s : State) (h : Nat) (onward : Bool) (dst : Nat) (body : FlitBody) : State :=
  s.putSett (settPort h onward) ⟨0, 0, s.podDev, dst, 0, false, 0, body⟩

/-! ## Collectives in flight -/

def State.coll? (s : State) (b : Nat) : Option Collective := s.collectives.find? fun k => k.buf == b
def State.modColl (s : State) (b : Nat) (f : Collective → Collective) : State :=
  { s with collectives := updWhere (fun k => k.buf == b) f s.collectives }
def SettDie.start : SettDie := ⟨false, [], false, false, none⟩
def Collective.die (k : Collective) (d : Nat) : SettDie := nth { SettDie.start with arrived := true } k.dies d
def Collective.modDie (k : Collective) (d : Nat) (f : SettDie → SettDie) : Collective :=
  { k with dies := setNth k.dies d (f (k.die d)) }

/-- The operation of a collective, as its parameters carry it: 0 sum, 1 min, 2 max, 3 gather. -/
def sarCode : SarOp → Nat
  | .sum => 0 | .min => 1 | .max => 2
def Collective.code (k : Collective) : Nat := if k.gather then 3 else sarCode k.op

/-! ## Stops (R366, R372) -/

/-- A base die sends a stop on each working link of its ring. -/
def State.sendStops (s : State) (b num who d : Nat) : State :=
  let stop (onward : Bool) (s : State) : State := s.settSend d onward (s.settPeer onward) (.stop b num who)
  stop false (stop true s)
/-- A base die stops at its first detection or stop, and sends stops. One that has arrived has nothing left to stop, and
sends them for those that have not (R372, R373). -/
def State.stopDie (s : State) (b d : Nat) : State :=
  match s.coll? b with
  | none => s
  | some k =>
    if (k.die d).stopAt.isSome then s
    else
      let s := if (k.die d).arrived then s else s.modColl b fun k => k.modDie d fun x => { x with stopAt := some s.ck }
      s.sendStops b k.num (s.settEntry b).pmask d
/-- A failure reaches all eight dies of the device. -/
def State.abortSett (s : State) (b : Nat) : State := (List.range 8).foldl (fun s d => s.stopDie b d) s

/-! ## Arrivals and endings (R370 to R372) -/

/-- An arrival of a base die on the barrier word of a request, translated in its context; `none` while that takes a
translation fault. A word that may not be written receives nothing. -/
def State.settArrive (s : State) (ctx barrier count : Nat) (bereaved : Bool) : Option State :=
  match s.ctxPlace ctx barrier 2 with
  | .error .replay => none
  | .error .access => some s
  | .ok pl =>
    let s := s.ctxReady pl
    let w := word (s.readAt pl.tgt 8)
    some (s.ctxStore ctx pl 8 (arriveWord w (word (b2n bereaved * 2 ^ 63 + count))).toNat)

/-- The bereaved arrival for a refused request (R212), which waits while the barrier's page takes a translation fault. -/
def State.settRefuse (s : State) (ctx barrier : Nat) : State :=
  match s.settArrive ctx barrier 8 true with
  | some s' => s'
  | none => { s with settHeld := s.settHeld ++ [(ctx, barrier)] }
/-- Arrivals that waited are tried again. -/
def State.retryArrivals (s : State) : State :=
  s.settHeld.foldl (fun s p => { s with settHeld := eraseFirst (· == p) s.settHeld }.settRefuse p.1 p.2) s

/-- The status record of a chunk (R371): untouched chunks carry this device alone. -/
def State.chunkStatus (s : State) (k : Collective) (c : Nat) : Nat × Nat :=
  match k.chunks.find? fun x => x.1 == c with
  | some x => (x.2.1, x.2.2)
  | none => (0, 2 ^ s.podDev)

/-- The chunks of a base die. -/
def dieChunks (e : SettEntry) (k : Nat) : List Nat := (List.range e.nchk).filter fun c => c % 8 == k

/-- The world that a buffer was registered for. -/
def SettEntry.world (e : SettEntry) : Nat := bits e.w3 32 16

/-- Writes the status record of a chunk, where the buffer's world may write it (R384). -/
def State.putStatus (s : State) (e : SettEntry) (k : Collective) (c : Nat) : State :=
  let x := s.chunkStatus k c
  let a := e.staddr + 8 * c
  if s.frameOk e.world a then s.store (.hbm a) 8 (x.1 * 2 ^ 62 + x.2) else s

/-- Whether a message is of the `n`-th collective on a buffer. -/
def settOf (b n : Nat) : FlitBody → Bool
  | .params x y _ _ _ _ | .chunk x y _ _ _ _ _ | .stop x y _ => x == b && y == n
  | _ => false

/-- A base die writes its status records and arrives; after the eighth arrival the collective has ended. -/
def State.endDie (s : State) (b d : Nat) (bereaved : Bool) : State :=
  match s.coll? b with
  | none => s
  | some k =>
    let e := s.settEntry b
    if (k.die d).arrived then s
    else
      match s.settArrive k.ctx k.barrier 1 bereaved with
      | none => s
      | some _ =>
        let s := (dieChunks e d).foldl (fun s c => s.putStatus e k c) s
        let s := (s.settArrive k.ctx k.barrier 1 bereaved).getD s
        let k' := k.modDie d fun x => { x with arrived := true }
        -- what comes later is not applied
        let s := { s with settIn := s.settIn.filter fun m => !(m.1 == d && settOf b k.num m.2.2.body) }
        let lost := bereaved || k'.dies.any fun x => x.stopAt.isSome
        if k'.dies.all SettDie.arrived then
          let part := (k.chunks.filter fun x => x.2.1 == 1).length
          { s.modSett b fun e => { e with state := if lost then 3 else 2, partials := min 255 part } with
            collectives := s.collectives.filter fun x => x.buf != b }
        else s.modColl b fun _ => k'

/-- A chunk that needs no step at this device: the owner's of a gather, and every chunk of a lone participant. -/
def State.selfDone (s : State) (e : SettEntry) (k : Collective) (c : Nat) : Bool :=
  decide (e.members.length ≤ 1) || (k.gather && s.settPlace e c == 0)

/-- Whether nothing of a chunk is left to do at this device: it is complete, and its owner has sent it. -/
def State.chunkOver (s : State) (e : SettEntry) (k : Collective) (c : Nat) : Bool :=
  (s.chunkStatus k c).1 == 2 && (decide (e.members.length ≤ 1) || s.settPlace e c != 0 || k.opened.contains c)

/-- A die whose chunks are all complete finishes (R370). -/
def State.finishDie (s : State) (b d : Nat) : State :=
  match s.coll? b with
  | none => s
  | some k =>
    let e := s.settEntry b
    let x := k.die d
    if x.agreed && x.stopAt.isNone && (dieChunks e d).all (s.chunkOver e k) then s.endDie b d false else s

/-! ## Instructions (R212, R213) -/

/-- The buffer number of a Sett instruction, where the context has reserved the buffer. -/
def State.settBuffer (s : State) (a : Word) : Option Nat :=
  if s.settOwned a.toNat s.curCtx then some a.toNat else none

/-- `%sett` after a request (R374). -/
def settWord (old : Word) (op buf : Nat) : Word := word ((bits old 8 32 + 1) % 2 ^ 32 * 256 + op * 64 + buf)

/-- Whether a barrier word may be named: a global address, here, that the context may write. One that takes a
translation fault is looked at again when the base dies arrive. -/
def State.barrierOk (s : State) (ctx : Nat) (b : Word) : Bool :=
  match s.ctxPlace ctx b.toNat 2 with
  | .error .access => false
  | _ => true

def FlitBody.isParams : FlitBody → Bool
  | .params .. => true
  | _ => false
def FlitBody.isStop : FlitBody → Bool
  | .stop .. => true
  | _ => false
def FlitBody.isChunk (c : Nat) (complete : Bool) : FlitBody → Bool
  | .chunk _ _ x _ _ _ y => x == c && y == complete
  | _ => false
def FlitBody.chunkOf (b : Nat) : FlitBody → Bool
  | .chunk x _ _ _ _ _ _ => x == b
  | _ => false

/-- Starts a collective on a buffer: `partial` reads 0 from then on. No chunk of it can have come yet, since the steps of the
others wait for this device's parameters: what has come is left from before the buffer was registered anew. -/
def State.startSett (s : State) (n : Nat) (gather : Bool) (op : SarOp) (barrier group ctx : Nat) : State :=
  let num := ((s.settEntry n).gen + 1) % 2 ^ 32
  { s.modSett n fun e => { e with state := 1, refused := false, partials := 0, gen := num } with
    settIn := s.settIn.filter fun m => !m.2.2.body.chunkOf n
    collectives := s.collectives ++ [⟨n, num, gather, op, barrier, List.replicate 8 .start, [], [], group, ctx⟩] }

/-- Starts this device's part of a collective, or has a request refused that finds one in flight. The order of the checks
is the model's (log 70): the buffer, whose number the access fault reports, the barrier's alignment, the barrier; and so is
what `partial` reads while a collective is in flight. -/
def settRequest (gather : Bool) (op : SarOp) (code : Nat) (a b : USrc) (s : State) : Out :=
  let t := s.cur
  let bar := t.uniSrc b
  let fl := t.uniFlags a ||| t.uniFlags b
  match s.settBuffer (t.uniSrc a) with
  | none => trapRead fl 6 (t.uniSrc a) s
  | some n =>
    if bar.toNat % 8 ≠ 0 then trapRead fl 5 bar s
    else if !s.barrierOk s.curCtx bar then trapRead fl 6 bar s
    else
      whenReleased s fun s =>
        let s := if (s.coll? n).isSome then
            (s.settRefuse s.curCtx bar.toNat).modSett n fun e => { e with refused := true }
          else s.startSett n gather op bar.toNat t.group s.curCtx
        teamStep 4 (fun t => { t.raise fl with sett := settWord t.sett code n }) s

def execSar (op : SarOp) (a b : USrc) (s : State) : Out := settRequest false op (sarCode op) a b s
def execSag (a b : USrc) (s : State) : Out := settRequest true .sum 3 a b s

def execSstat (d : SDst) (a : USrc) (s : State) : Out :=
  let t := s.cur
  match s.settBuffer (t.uniSrc a) with
  | none => trapRead (t.uniFlags a) 6 (t.uniSrc a) s
  | some n =>
    let e := s.settEntry n
    let v := word (e.state * 2 ^ 62 + b2n e.refused * 2 ^ 61 + e.partials * 2 ^ 32 + e.gen)
    teamStep 4 (fun t => (t.raise (t.uniFlags a)).uniResult d v) s

/-! ## Messages of the rings (R365, R368, R372) -/

/-- What a base die keeps of a message for its own step: parameters of a participant, a chunk, or a stop for a collective
that has not begun here. -/
def State.settKeep (s : State) (h : Nat) (f : Flit) : State := { s with settIn := s.settIn ++ [(h, s.ck, f)] }

/-- Whether a stop is for this device: the `n`-th collective is one on a buffer that it shares with some of `who`. -/
def SettEntry.shares (e : SettEntry) (who : Nat) : Bool := bitAt e.w0 63 && e.pmask &&& who != 0

/-- A message comes to a base die through one of its ports: `onward` is the way in which it travels. Parameters go round
to every device but their sender, a stop until it meets a die that it stops, and a chunk to its destination. The parameters of
a participant come before its chunks, so that those of it which have come already are of an earlier collective. -/
def State.settDeliver (s : State) (h : Nat) (onward : Bool) (f : Flit) : State :=
  let pass (s : State) : State := s.putSett (settPort h onward) f
  let last : Bool := s.settPeer onward == f.src
  match f.body with
  | .params b n _ _ pmask _ =>
    let e := s.settEntry b
    let mine : Bool := pmask / 2 ^ s.podDev % 2 == 1 || (bitAt e.w0 63 && e.members.contains f.src)
    let s := if last then s else pass s
    if mine then { s with settIn := s.settIn.filter fun m =>
      !(m.1 == h && m.2.2.src == f.src && m.2.2.body.chunkOf b && settOf b n m.2.2.body) }.settKeep h f
    else s
  | .stop b n who =>
    if f.src = s.podDev then s
    else
      let own : Bool := (s.settEntry b).shares who
      let here : Option SettDie := ((s.coll? b).filter fun k => own && k.num == n).map fun k => k.die h
      match here with
      | some x => if x.arrived then (if last then s else pass s) else s.stopDie b h
      | none =>
        let s := if last then s else pass s
        if own ∧ n = ((s.settEntry b).gen + 1) % 2 ^ 32 then s.settKeep h f else s
  | .chunk .. => if f.dst = s.podDev then s.settKeep h f else pass s
  | _ => s

/-- Whether a message waits at a die for a collective. -/
def settFor (k : Collective) (d : Nat) (p : FlitBody → Bool) (m : Nat × Nat × Flit) : Bool :=
  m.1 == d && p m.2.2.body && settOf k.buf k.num m.2.2.body

/-- What has come of a chunk from a device; and all of it, once every part has come: when the last came, its bytes and its
contributors. -/
def State.partsIn (s : State) (k : Collective) (c src : Nat) (complete : Bool) : List (Nat × Nat × Flit) :=
  s.settIn.filter fun m => settFor k (c % 8) (FlitBody.isChunk c complete) m && m.2.2.src == src
def State.chunkIn (s : State) (k : Collective) (c src : Nat) (complete : Bool) : Option (Nat × List Byte × Nat) :=
  let l := s.partsIn k c src complete
  let part (i : Nat) : Option (Nat × Nat × Flit) := l.find? fun m => m.2.2.body.part == i
  let got := (List.range chunkParts).filterMap part
  if got.length = chunkParts then
    some (got.foldl (fun t m => max t m.2.1) 0, got.flatMap fun m => m.2.2.body.data, (got.head?.map fun m => m.2.2.body.contrib).getD 0)
  else none
def State.dropChunk (s : State) (k : Collective) (c src : Nat) (complete : Bool) : State :=
  { s with settIn := s.settIn.filter fun m => !(settFor k (c % 8) (FlitBody.isChunk c complete) m && m.2.2.src == src) }

/-! ## Steps of the base dies (R368, R369, R372) -/

/-- A mismatch ends the collective at once, with its chunks untouched. -/
def State.mismatchSett (s : State) (b : Nat) : State :=
  (List.range 8).foldl (fun s i => s.endDie b i true)
    (s.modColl b fun k => { k with dies := k.dies.map fun x => { x with stopAt := some (x.stopAt.getD s.ck) } })

/-- A base die exchanges the parameters of a collective along its ring: it sends its own once, and compares those that
have come. When those of every participant agree its steps may begin. -/
def execSettParameterExchange (b d num : Nat) (s : State) : Out :=
  match s.coll? b with
  | none => .next s
  | some k =>
    let e := s.settEntry b
    let x := k.die d
    if num ≠ k.num ∨ x.arrived ∨ x.stopAt.isSome then .next s
    else if s.settIn.any (settFor k d FlitBody.isStop) then .next (s.stopDie b d)
    else
      let others := e.members.filter fun m => m != s.podDev
      let mine : FlitBody := .params b k.num e.fmt e.nchk e.pmask k.code
      let got := s.settIn.filter (settFor k d FlitBody.isParams)
      let s := if x.sent || others.isEmpty then s else s.settSend d true s.podDev mine
      let s := { s with settIn := s.settIn.filter fun m => !settFor k d FlitBody.isParams m }
      if got.any fun m => m.2.2.body != mine then .next (s.mismatchSett b)
      else
        let heard := got.foldl (fun l m => m.2.2.src :: l) x.heard
        let agreed := others.all heard.contains
        let own := ((dieChunks e d).filter (s.selfDone e k)).map fun c => (c, 2, 2 ^ s.podDev)
        .next ((s.modColl b fun k =>
          { k.modDie d fun x => { x with sent := true, heard := heard, agreed := agreed } with
            chunks := if agreed && !x.agreed then k.chunks ++ own else k.chunks }).finishDie b d)

/-- Sends a chunk on to the next participant of its ring. -/
def State.sendChunk (s : State) (e : SettEntry) (k : Collective) (c : Nat) (data : List Byte) (contrib : Nat) (complete : Bool) :
    State :=
  let p := s.settPlace e c
  let dst := nth 0 e.members ((c + p + 1) % max e.members.length 1)
  (chunkBodies k.buf k.num c data contrib complete).foldl (fun s b => s.settSend (c % 8) true dst b) s

/-- This device's chunk as memory holds it. -/
def State.chunkData (s : State) (e : SettEntry) (c : Nat) : List Byte := leBytes 4096 (s.hbmRead (e.base + 4096 * c) 4096)

/-- A step on a chunk that has come: it is combined into this device's, or, complete, replaces it, and goes on while the
die has not stopped. -/
def State.takeChunk (s : State) (e : SettEntry) (k : Collective) (c : Nat) (data : List Byte) (contrib : Nat) (complete : Bool) :
    State :=
  let p := s.settPlace e c
  let n := e.members.length
  let old := s.chunkStatus k c
  let go : Bool := (k.die (c % 8)).stopAt.isNone
  let put (v : List Byte) (st who : Nat) (on : Bool) (complete : Bool) : State :=
    let s := s.store (.hbm (e.base + 4096 * c)) 4096 (leNat v)
    let s := s.modColl k.buf fun k => { k with chunks := (k.chunks.filter fun y => y.1 != c) ++ [(c, st, who)] }
    (if on && go then s.sendChunk e k c v who complete else s).finishDie k.buf (c % 8)
  if data.length ≠ 4096 ∨ old.1 = 2 then s
  else if complete then
    if k.gather then (if p = 0 then s else put data 2 contrib (decide (p + 1 < n)) true)
    else if p + 1 < n then put data 2 e.pmask (decide (p + 2 < n)) true
    else s
  else if !k.gather ∧ p ≠ 0 ∧ old.1 = 0 ∧ contrib = e.before c p then
    let v := combineChunks e.fmt k.op data (s.chunkData e c)
    let last := decide (p + 1 = n)
    put v (if last then 2 else 1) (contrib ||| 2 ^ s.podDev) true last
  else s

/-- One step of a chunk at this device: on one that has come in time from `src`, or, with this device as `src`, the
owner's first sending, which starts its ring. The frames of the chunk shall still be the buffer's world's: otherwise its
die has failed. -/
def execSettChunkStep (b c num src : Nat) (complete : Bool) (s : State) : Out :=
  match s.coll? b with
  | none => .next s
  | some k =>
    let e := s.settEntry b
    let d := c % 8
    let x := k.die d
    let room : Bool := x.stopAt.isSome || s.settRoom (settPort d true)
    let at_ := e.base + 4096 * c
    if num ≠ k.num ∨ !x.agreed ∨ x.arrived ∨ e.nchk ≤ c ∨ !room then .next s
    else if !(s.frameOk e.world at_ && s.frameWorld at_ == e.world) then .next (s.abortSett b)
    else
      match s.chunkIn k c src complete with
      | some m =>
        let late : Bool := match x.stopAt with | some t => decide (t + 8000000 < m.1) | none => false
        let s := s.dropChunk k c src complete
        .next (if late then s else s.takeChunk e k c m.2.1 m.2.2 complete)
      | none =>
        if src = s.podDev ∧ complete = k.gather ∧ s.settPlace e c = 0 ∧ 1 < e.members.length ∧ x.stopAt.isNone ∧ !k.opened.contains c then
          .next (((s.sendChunk e k c (s.chunkData e c) (2 ^ s.podDev) k.gather).modColl b fun k =>
            { k with opened := c :: k.opened }).finishDie b d)
        else .next s

/-- A die that detects a failure stops, with the other dies of its device; one that receives a stop stops and passes it
on along its ring. -/
def execSettFailureDetect (b d : Nat) (s : State) : Out :=
  .next (if ((s.coll? b).map fun k => (k.die d).arrived) = some false then s.abortSett b else s)
def execSettStopReceive (b d : Nat) (s : State) : Out := .next (s.stopDie b d)

/-- Steps on the chunks that have come to a stopped die in time. -/
def State.lastSteps (s : State) (b d : Nat) : State :=
  match s.coll? b with
  | none => s
  | some k => (s.settIn.filter fun m => m.1 == d).foldl (fun s m =>
      match m.2.2.body with
      | .chunk x n c i _ _ y => if x = b ∧ n = k.num ∧ i = 0 then (match execSettChunkStep b c n m.2.2.src y s with | .next s => s | _ => s) else s
      | _ => s) s

/-- 5 ms after its stop a die has completed what had come, writes its records and arrives bereaved. -/
def execSettFailureWindowEnd (b d : Nat) (s : State) : Out :=
  match (s.coll? b).bind fun k => (k.die d).stopAt with
  | some t => .next (if t + 8000000 ≤ s.ck then (s.lastSteps b d).endDie b d true else s)
  | none => .next s

end Sys2Proof.Machine
end

