-- ==== Sys2Proof/Machine/Records.lean ====
section
/-! DEFINITION. Save records (R335 to R337), the death of a context and the cancelling of a launch (R320, R333), and the
save and restore of a team (R225, R330, R339, R340). -/
namespace Sys2Proof.Machine
open Sys2Proof

/-! ## The record (R336) -/

def zeroBytes (n : Nat) : List Byte := List.replicate n 0
/-- A list of bytes with zeros up to `n`. -/
def padTo (n : Nat) (l : List Byte) : List Byte := l ++ zeroBytes (n - l.length)
def wordBytes (l : List Word) : List Byte := l.flatMap fun w => leBytes 8 w.toNat

/-- A mask: summary, four zero bytes, 32 lane words. -/
def maskImage (x : Mask) : List Byte := leBytes 4 (summary x).toNat ++ zeroBytes 4 ++ leBytes 128 x.toNat
/-- A lane register or lane latch. -/
def Team.laneImage (t : Team) (v : LaneVal) : List Byte := wordBytes (tabulate t.lanes (nth 0 v))

/-- Lane registers of the team dead in every lane word, and in some lane words only (R44). -/
def Team.deadAll (t : Team) (r : Nat) : Bool :=
  decide (r < t.nregs) && (List.range t.lwords).all fun k => (nth 0 t.deadV.toList r).getLsbD k
def Team.deadSome (t : Team) (r : Nat) : Bool :=
  decide (r < t.nregs) && !t.deadAll r && (List.range t.lwords).any fun k => (nth 0 t.deadV.toList r).getLsbD k
/-- The lane words outside which the registers that are dead in some words only are dead: those of a recalled frame, where
it leaves any so, and otherwise those carried at the last return (R44, R336). -/
def Team.deadWords (t : Team) : BitVec 32 :=
  match t.escort.bind Escort.words with
  | some c => if (List.range 96).any t.deadSome then c else t.lastCarried
  | none => t.lastCarried
/-- A set of lane registers as 12 bytes. -/
def regSet (p : Nat → Bool) : List Byte := leBytes 12 ((List.range 96).foldl (fun m r => m + b2n (p r) * 2 ^ r) 0)

/-- Instructions issued in the saved tenure. -/
def Team.issuedCount (t : Team) : Nat :=
  match t.tenure with
  | .held n => n
  | .suspended n => n
  | .none => 0

/-- The bytes of a team's record before its padding: stop state, `%wher` code and escort status, record index, context and
save sequence given. -/
def Team.record (t : Team) (stop wher status carried x ctx seq : Nat) : List Byte :=
  let head := leBytes 4 0x53564C5A ++ leBytes 1 1 ++ leBytes 1 stop ++ leBytes 1 wher ++ leBytes 1 status ++
    wordBytes [t.pc, t.rpc, t.recCount, t.pidx, t.srCtr, t.srRgn, t.fflags.setWidth 64, t.frm.setWidth 64,
      t.ftrap.setWidth 64, t.escv.setWidth 64, (t.escv >>> 64).setWidth 64, t.escs.setWidth 64, t.tcause.setWidth 64,
      t.tinfo] ++
    wordBytes t.qseq.toList ++ wordBytes t.qissued.toList ++ leBytes 4 t.group ++ leBytes 1 t.index ++
    leBytes 1 t.stage ++ leBytes 1 t.lwords ++ leBytes 1 t.nregs ++ wordBytes [t.widw] ++ leBytes 4 carried ++
    leBytes 1 t.stack.length ++ leBytes 1 t.fvalid.toNat ++ leBytes 2 t.issuedCount ++ leBytes 4 t.deadS.toNat
  let head := padTo 0xD8 head ++ regSet t.deadAll
  let head := padTo 0xE8 head ++ leBytes 2 x ++ leBytes 2 ctx
  let head := padTo 0xF0 head ++ leBytes 8 seq ++ wordBytes [t.sett] ++ wordBytes t.s.toList ++ wordBytes t.fu.toList
  let head := padTo 0x240 head ++ t.m.toList.flatMap maskImage ++ t.stack.reverse.flatMap maskImage
  let head := padTo 0xF00 head ++ regSet t.deadSome ++ leBytes 4 t.deadWords.toNat
  padTo 0x1000 head ++ t.fl.toList.flatMap t.laneImage ++ (t.v.toList.take t.nregs).flatMap t.laneImage

/-- Index, address and padded length of the record of a team's slot (R335). -/
def Team.recordIndex (t : Team) : Nat := 64 * t.cluster + 32 * t.core + t.slot
def State.recordBytesOf (s : State) (ctx : Nat) : Nat := 4096 * bits (s.descWord ctx 2) 48 8
def State.recordAddr (s : State) (ctx x : Nat) : Nat := bits (s.descWord ctx 1) 0 48 + s.recordBytesOf ctx * x

/-- Number of the save key of a context's world (R337, R382). -/
def State.saveKeyOf (s : State) (ctx : Nat) : Nat :=
  if s.ctxWorld ctx = 0 then s.osKey else ((s.worlds.find? fun w => w.id == s.ctxWorld ctx).map World.saveKey).getD 0
/-- The initialisation vector: context, index and save sequence. -/
def saveIv (ctx x seq : Nat) : Nat := ctx % 65536 * 2 ^ 80 + x % 65536 * 2 ^ 64 + seq % 2 ^ 64

/-- `%wher` of a team by where its frame is (R51, R226). -/
def Team.wher (t : Team) : Nat :=
  match t.escort with
  | some e =>
    match e.place with
    | .budget => 0
    | .request => 1
    | .pen => 2
    | .unit => if e.eo then 0 else 3
    | .reply => 4
    | .faultHold | .watched | .lodged => 5
    | .saved => 6
  | none => match t.st with | .saved _ => 6 | _ => 0
/-- The whole word, with the slice of a pen. -/
def Team.wherWord (t : Team) : Word :=
  word (t.wher + (match t.escort with | some e => if e.place = .pen then e.slice * 256 else 0 | none => 0))

/-! ## The end of a launch and of a context (R320, R333) -/

/-- Cancels a launch: pending starts and unbound records are discarded and its living groups killed. -/
def State.cancelLaunch (s : State) (lh reason : Nat) : State :=
  let s := s.modLaunch lh fun l => { l with
    ending := true
    cancelled := true
    stages := l.stages.map fun g => { g with queues := g.queues.map fun q => { q with
      starts := []
      recs := q.recs.filter QRec.bound } } }
  ((s.groups.filter fun g => g.launch == lh).map Group.handle).foldl (fun s h => s.killGroup h reason) s

/-- A context dies: its descriptor says so, its launches are cancelled, its groups killed, its collectives aborted. -/
def State.contextDies (s : State) (ctx cause : Nat) : State :=
  if s.ctxState ctx = 3 then s
  else
    let s := s.setDescWord ctx 0 (setBits (s.descWord ctx 0) 0 2 3)
    let reason := if cause = 0 then 2 else 0x10 + cause
    let s := ((s.launches.filter fun l => l.ctx == ctx).map Launch.handle).foldl (fun s l => s.cancelLaunch l reason) s
    let s := (s.collectives.filter fun k => k.ctx == ctx).foldl (fun s k => s.abortSett k.buf) s
    (s.queueRec ctx 0 [eventRec 7 cause 0 0 0 0 0]).settleAll

/-! ## Saving (R330, R336, R337) -/

/-- Whether every page of a range is one that the device may access so and private to the context's world (R384). -/
def State.privateRange (s : State) (ctx va n acc : Nat) : Bool :=
  (pagePieces va n).all fun p =>
    match s.ctxPlace ctx p.1 acc with
    | .ok pl => (match pl.tgt with | .hbm pa => s.framePrivate (s.ctxWorld ctx) pa | _ => false)
    | .error _ => false

/-- Writes the record of a drained team and frees its slot, registers and charge. A frame that stands in the Lodge has
come back: the lane words that it carried are noted from then on, and in this record beside the registers that they leave
dead (R336; log 84). A fault on the way kills
the context. -/
def State.saveTeam (s : State) (tid stop : Nat) : State :=
  let t := s.team tid
  let ctx := (s.group t.group).ctx
  let x := t.recordIndex
  let n := s.recordBytesOf ctx
  let seq := keyGet (s.cluster t.cluster).saveSeq (32 * t.core + t.slot) + 1
  let status := match t.escort with | some e => e.status | none => t.saveStatus
  let carried := ((t.escort.bind Escort.words).getD 0).toNat
  let body := (padTo (n - 16) (t.record stop t.saveWher status carried x ctx seq)).take (n - 16)
  let tag := Config.gmac (s.saveKeyOf ctx) (saveIv ctx x seq) body
  if !s.privateRange ctx (s.recordAddr ctx x) n 1 then s.contextDies ctx 0x0E
  else
  match s.ctxWrite ctx (s.recordAddr ctx x) (body ++ leBytes 16 tag.toNat) with
  | .error _ => s.contextDies ctx 0x0E
  | .ok s' =>
    let s' := s'.modCluster t.cluster fun c => { c with saveSeq := keySet c.saveSeq (32 * t.core + t.slot) seq }
    (s'.clearPoison (.saved tid)).modTeam tid fun t => { t with
      st := .saved stop
      saveSeq := seq
      saveStatus := status
      lastCarried := t.noteReturn.lastCarried
      tenure := match t.tenure with | .held k => .suspended k | k => k
      granted := 0
      escort := match t.escort with
        | some e => (match e.what with
          | .sys _ true _ _ => some { e with place := .saved, charge := 0, recalled := false }
          | _ => none)
        | none => none }

/-- Drains a team as far as it can be drained now. -/
def State.drainFor (s : State) (tid : Nat) : State :=
  ((s.forceAll tid).forceResults tid).modTeam tid Team.retire

/-- A trapped team that has drained is saved, and its stop event queued. -/
def execTeamStop (tid : Nat) (s : State) : Out :=
  if (s.team tid).st ≠ .stopping then .next s
  else
    let s := s.drainFor tid
    if !s.drained tid then .next s
    else
      let t := s.team tid
      let s := s.saveTeam tid 1
      .next (if (s.team tid).st = .saved 1 then s.teamEvent t 1 t.tcause.toNat t.pc t.tinfo t.rpc else s)

/-! ## Pre-emption (R330, R331) -/

/-- A resident team stops at its boundary with its tenure saved: a `wait` whose condition does not hold will issue
again, and so will an instruction that waits for budget or for its fetch. -/
def State.preemptResident (s : State) (tid : Nat) (st : TeamSt) : State :=
  let t := s.team tid
  let s := match t.st with
    | .fetchHeld _ => s.dropFaults fun r => r == FaultRef.fetch tid
    | .waitWord => s.recallFrame tid
    | _ => s
  (s.modCore t.cluster t.core fun c => c.release tid).modTeam tid fun t => { t with
    st := st
    pc := match t.st with | .waitClass _ _ => t.pc - 4 | _ => t.pc
    tenure := match t.tenure with | .held k => .suspended k | k => k
    saveWher := 0
    granted := 0 }

/-- Pre-empts one team. A pending trap of a team at its boundary is taken. -/
def State.preemptTeam (s : State) (tid : Nat) : State :=
  let t := s.team tid
  match t.st with
  | .stopping | .exiting | .preempting | .evicting | .saved _ => s
  | .abroad => s.modTeam tid fun t => { t with
      saveWher := t.wher
      escort := t.escort.map fun e => { e with recalled := true } }
  | .ready => if t.pending.isEmpty then s.preemptResident tid .preempting else s.boundaryTrap tid
  | _ => s.preemptResident tid .preempting

/-- Pre-empts the teams of a context on a set of cores, numbered 2 × cluster + core. -/
def execPreempt (ctx : Nat) (cores : List Nat) (s : State) : Out :=
  let mine (t : Team) : Bool := (s.group t.group).ctx == ctx && cores.contains (2 * t.cluster + t.core)
  .next (((s.teams.filter mine).map Team.tid).foldl State.preemptTeam s)

/-- A pre-empted or evicted team that has drained, or whose recalled frame stands in the Lodge, is saved. -/
def execPreemptSave (tid : Nat) (s : State) : Out :=
  let t := s.team tid
  match t.st with
  | .preempting | .evicting =>
    let s := s.drainFor tid
    .next (if s.drained tid then s.saveTeam tid (if t.st = .evicting then 2 else 0) else s)
  | .abroad =>
    match t.escort with
    | some e =>
      let s := s.drainFor tid
      .next (if e.recalled ∧ e.place = .lodged ∧ s.drained tid then s.saveTeam tid 0 else s)
    | none => .next s
  | _ => .next s

/-- A frame that has waited 16,384 ck in the Lodge evicts the resident team of its core that has held no tenure for the
longest time, the lowest slot on a tie (R225). -/
def execLodgeEvict (c k : Nat) (s : State) : Out :=
  let due := (s.lodgedOn c k).any fun p => match p.2.escort with
    | some e => decide (e.lodgedAt + 16384 ≤ s.ck)
    | none => false
  let idle (t : Team) : Bool := t.resident && !t.tenure.isHeld &&
    (match t.st with | .stopping | .exiting | .preempting | .evicting => false | _ => true)
  match minBy (fun t : Team => t.idleSince * 32 + t.slot) ((s.coreTeams c k).filter idle) with
  | some t => .next (if due then s.preemptResident t.tid .evicting else s)
  | none => .next s

/-! ## Restoring (R339, R340) -/

/-- A core of the team's cluster with a free slot and quota of its context and room for its registers. -/
def State.restoreCore (s : State) (t : Team) : Option Nat :=
  let f := s.nowFree t.cluster (s.group t.group).ctx
  let ok (k : Nat) : Bool := decide (0 < if k = 0 then f.slots0 else f.slots1) &&
    decide (t.regBytes ≤ if k = 0 then f.regs0 else f.regs1) &&
    decide (s.regsInUse t.cluster k + t.regBytes ≤ 393216)
  if ok 0 then some 0 else if ok 1 then some 1 else none

/-- Reads bytes of a context, each 8 at their own place; whether one of them is poisoned. -/
def State.ctxBytes (s : State) (ctx va : Nat) : Nat → Except XFault (List Byte × Bool)
  | 0 => .ok ([], false)
  | n + 1 =>
    match s.ctxPlace ctx va 0, s.ctxBytes ctx (va + 8) n with
    | .ok pl, .ok (l, bad) => .ok (leBytes 8 (s.readAt pl.tgt 8) ++ l, bad || s.poisonedAt pl.tgt 8)
    | .error e, _ => .error e
    | _, .error e => .error e

/-- What the record of a saved team gives. -/
inductive RecordCheck where | good | poison | fault | bad
deriving DecidableEq, Repr

/-- Reads the record and checks magic, index, sequence and tag. -/
def State.checkRecord (s : State) (t : Team) : RecordCheck :=
  let ctx := (s.group t.group).ctx
  let x := t.recordIndex
  let n := s.recordBytesOf ctx
  let seq := keyGet (s.cluster t.cluster).saveSeq (32 * t.core + t.slot)
  if !s.privateRange ctx (s.recordAddr ctx x) n 0 then .fault
  else
  match s.ctxBytes ctx (s.recordAddr ctx x) (n / 8) with
  | .error _ => .fault
  | .ok (l, bad) =>
    let at_ (o k : Nat) : Nat := leNat ((l.drop o).take k)
    if bad || s.poisoned (.saved t.tid) then .poison
    else if at_ 0 4 = 0x53564C5A ∧ at_ 0xE8 2 = x ∧ at_ 0xF0 8 = seq ∧ seq = t.saveSeq ∧
        at_ (n - 16) 16 = (Config.gmac (s.saveKeyOf ctx) (saveIv ctx x seq) (l.take (n - 16))).toNat then .good
    else .bad

/-- Loads a team on core k: ready at its PC; or, where its `sys` is not answered yet, parked at the cluster's unit. -/
def State.loadTeam (s : State) (tid k : Nat) : State :=
  let t := s.team tid
  let slot := s.freeSlot t.cluster k
  let s := s.tickEvent
  s.modTeam tid fun t =>
    let t := { t with core := k, slot := slot, resume := false, st := .ready, readyAt := s.ck, readyPrev := false, idleSince := s.ck,
                      saveStatus := 0, saveWher := 0 }
    match t.escort with
    | none => t
    | some e =>
      match e.what with
      | .sys _ _ _ (some v) => { t.setS 4 v with escort := none }
      | _ => { t with st := .abroad, escort := some { e with
          place := .unit, status := 0, charge := t.frameBytes, arrived := s.events } }

/-- Restores a saved team if a core has room for it, and deals with a record that fails (R340). -/
def State.restoreTeam (s : State) (tid : Nat) : State :=
  let t := s.team tid
  let ctx := (s.group t.group).ctx
  match s.restoreCore t with
  | none => s
  | some k =>
    match s.checkRecord t with
    | .good => s.loadTeam tid k
    | .poison => ((s.containedVa t.cluster ctx (s.recordAddr ctx t.recordIndex)).killGroup t.group 0x1E).settleAll
    | .fault | .bad => s.contextDies ctx 0x0E

/-- A pre-empted team, or a stopped one that a command has released. -/
def execTeamRestore (tid : Nat) (s : State) : Out :=
  let t := s.team tid
  let may : Bool := match t.st with
    | .saved 0 => true
    | .saved 1 => t.resume
    | _ => false
  .next (if may && s.ctxActive (s.group t.group).ctx then s.restoreTeam tid else s)

/-- An evicted team returns once no frame of its core waits in the Lodge. -/
def execEvictedReturn (tid : Nat) (s : State) : Out :=
  let t := s.team tid
  .next (if t.st = .saved 2 ∧ (s.lodgedOn t.cluster t.core).isEmpty then s.restoreTeam tid else s)

end Sys2Proof.Machine
end

