-- ==== Sys2Proof/Machine/EngineImage.lean ====
section
/-! DEFINITION. Engines as the partitioning controller takes them from a context and grants them (R180, R321, R338, R340,
R403). -/
namespace Sys2Proof.Machine
open Sys2Proof

/-! ## The image (R338) -/

/-- A bank in slot order, two bytes a slot. -/
def Bank.image (b : Bank) : List Byte := (List.range 32768).flatMap fun k => leBytes 2 (keyGet b.slots k)
/-- The accumulator by row and then column: FP32 elements, or in MOD64 mode the 192-bit integers of rows 0 to 31. -/
def Engine.accImage (e : Engine) : List Byte :=
  if e.acc192.isEmpty then (List.range 32768).flatMap fun k => leBytes 4 (keyGet e.acc k)
  else padTo 131072 ((List.range 4096).flatMap fun k => leBytes 24 (keyGet e.acc192 k))
/-- The image but for its tag. -/
def Engine.image (e : Engine) (tail : List Byte) : List Byte :=
  e.bank0.image ++ e.bank1.image ++ e.accImage ++ (padTo 0xFF0 tail).take 0xFF0

def engineUnit (c e : Nat) : Nat := 3 * c + e
def State.imageAddr (s : State) (ctx c e : Nat) : Nat := bits (s.descWord ctx 6) 0 48 + 0x41000 * engineUnit c e
def State.imageTag (s : State) (ctx c e seq : Nat) (body : List Byte) : Nat :=
  (Config.gmac (s.saveKeyOf ctx) (saveIv ctx (0x8000 + engineUnit c e) seq) body).toNat

/-- An engine with no context's state in it, and its own hardware as it was. -/
def Engine.blank (e : Engine) (ctx : Option Nat) : Engine :=
  { Engine.zero with ctx := ctx, fenced := e.fenced, mismatch := e.mismatch, lastMismatch := e.lastMismatch, lasting := e.lasting, due := e.due, owed := e.owed, target := e.target }
/-- The contents of an image in an engine. -/
def Engine.load (e img : Engine) (ctx : Nat) : Engine :=
  { e with ctx := some ctx, bank0 := img.bank0, bank1 := img.bank1, acc := img.acc, acc192 := img.acc192, accPoison := img.accPoison }

/-! ## Withdrawal and grant -/

/-- Writes the image of an engine that its context loses. A fault on the way kills the context. -/
def State.saveEngine (s : State) (c e ctx : Nat) : State :=
  let x := (s.cluster c).engine e
  let s := s.modCluster c fun k => k.modEngine e fun x => x.blank none
  if !s.ctxActive ctx then s
  else
    let seq := keyGet (s.cluster c).saveSeq (64 + e) + 1
    let body := x.image (Config.engineTail s.freeCtr)
    let s := s.drawFree
    if !s.privateRange ctx (s.imageAddr ctx c e) 0x41000 1 then s.contextDies ctx 0x0E
    else
      match s.ctxWrite ctx (s.imageAddr ctx c e) (body ++ leBytes 16 (s.imageTag ctx c e seq body)) with
      | .error _ => s.contextDies ctx 0x0E
      | .ok s =>
        let s := (s.clearPoison (.image (engineUnit c e))).modCluster c fun k => { k with saveSeq := keySet k.saveSeq (64 + e) seq }
        { s with engImgs := (s.engImgs.filter fun i => !(i.ctx == ctx && i.unit == engineUnit c e)) ++
            [⟨ctx, engineUnit c e, seq, x⟩] }

/-- Groups whose tasks wait for an engine. -/
def State.engineGroups (s : State) (c e ctx : Nat) : List Nat :=
  (((s.cluster c).tasks.filter fun k => k.ctx == ctx && k.busy e).map Task.group).eraseDups

/-- An engine that a context receives: zero the first time, and else restored from its image (R180, R338, R340). -/
def State.grantEngine (s : State) (c e ctx : Nat) : State :=
  let set (f : Engine → Engine) (s : State) : State := s.modCluster c fun k => k.modEngine e f
  match s.engImgs.find? fun i => i.ctx == ctx && i.unit == engineUnit c e with
  | none => set (fun x => x.blank (some ctx)) s
  | some img =>
    let s := { s with engImgs := s.engImgs.filter fun i => i != img }
    let at_ := s.imageAddr ctx c e
    if !s.privateRange ctx at_ 0x41000 0 then (set (fun x => x.blank none) s).contextDies ctx 0x0E
    else
      match s.ctxBytes ctx at_ (0x41000 / 8) with
      | .error _ => (set (fun x => x.blank none) s).contextDies ctx 0x0E
      | .ok (l, bad) =>
        if bad || s.poisoned (.image img.unit) then
          (s.engineGroups c e ctx).foldl (fun s h => s.killGroup h 0x1E) ((set (fun x => x.blank (some ctx)) s).containedVa c ctx at_)
        else if img.seq = keyGet (s.cluster c).saveSeq (64 + e) ∧
            leNat (l.drop 0x40FF0) = s.imageTag ctx c e img.seq (l.take 0x40FF0) then set (fun x => x.load img.engine ctx) s
        else (set (fun x => x.blank none) s).contextDies ctx 0x0E

/-- The context whose enabled row grants an engine. -/
def State.engineOwner (s : State) (c e : Nat) : Option Nat :=
  ((s.cluster c).quota.toList.find? fun q => bitAt q.1 47 && bitAt q.1 (44 + e)).map fun q => bits q.1 48 16

/-- Brings an engine to the context that the quota rows name now. -/
def State.settleEngine (s : State) (c e : Nat) : State :=
  let now := s.engineOwner c e
  let was := ((s.cluster c).engine e).ctx
  if now = was then s
  else
    let s := match was with | some x => s.saveEngine c e x | none => s
    match now with | some x => s.grantEngine c e x | none => s

def State.settleEngines (s : State) (c : Nat) : State := (List.range 3).foldl (fun s e => s.settleEngine c e) s

end Sys2Proof.Machine
end

