-- ==== Sys2Proof/Machine/Agents.lean ====
section
/-! DEFINITION. The cluster's agents at work: stage scheduling, clearing, conveyance, tile tasks, copies, multicasts (R185,
R195, R230, R235, R236, R243, R264, R286, R287, R291, R314). -/
namespace Sys2Proof.Machine
open Sys2Proof

/-! ## Stage scheduling (R230, R291, R314, R404) -/

/-- What fixes a team's roundings: the launch's seed and the identifiers that its lanes derive theirs from (R28). -/
def State.teamLog (s : State) (t : Team) : List Nat :=
  [(s.launch (s.group t.group).launch).seed.toNat, t.widw.toNat, t.stage, t.workBase.toNat, t.index]

/-- The audit of a team of a sampled group: the log begins with what fixes its roundings. -/
def State.auditTeam (s : State) (g : Group) (t : Team) : State :=
  let bytes := (s.teamLog t).flatMap (leBytes 8)
  let a : Audit := ⟨false, 2 * t.cluster + t.core, g.handle, g.ctx, none, s.teamLog t, s.nextId, bytes.length, [], [], some t, some t⟩
  { s.putLog s.nextId 0 bytes with audits := s.audits ++ [a], nextId := s.nextId + 1 }

/-- A group that has just started: the audit counter advances, the group is sampled where groups are audited (R404), and it is
killed at once where its launch is ending (R291). -/
def State.noteStart (s : State) (c : Nat) (g : Group) : State :=
  let ts := s.teams.filter fun t => t.group == g.handle
  let cores := (ts.map Team.core).eraseDups
  let p := s.sampleItem c (cores.any fun k => ((s.cluster c).core k).owed)
  let s := if bitAt s.mtcfg 62 then
      let s := cores.foldl (fun s k => s.modCore c k fun x => { x with owed := false }) p.1
      if p.2 then ts.foldl (fun s t => s.auditTeam g t) s else s
    else p.1
  if (s.launch g.launch).ending then (s.killGroup g.handle 2).settleAll else s

/-- One evaluation of a cluster. -/
def State.evaluateCluster (s : State) (c : Nat) : State :=
  match s.evaluate c with
  | s' => (s'.groups.filter fun g => (s.group? g.handle).isNone).foldl (fun s g => s.noteStart c g) s'

def execStageEvaluation (c : Nat) (s : State) : Out := .next (s.evaluateCluster c)

/-- A stage's oldest unbound record on a cluster has waited its timeout: the cluster evaluates. -/
def execCoalesceTimeout (lh k c : Nat) (s : State) : Out :=
  let g := (s.launch lh).stage k
  let past : Bool := g.tmo != 0 && match (g.queue c).unbound with | r :: _ => decide (r.at_ + g.tmo ≤ s.ck) | [] => false
  .next (if past then s.evaluateCluster c else s)

/-- A freed range is cleared, and free from then on (R236). -/
def execAllocationClear (c base : Nat) (s : State) : Out :=
  match (s.cluster c).allocs.find? fun r => r.base == base && r.clearing with
  | none => .next s
  | some r =>
    let inside (k : Nat) : Bool := decide (spadKey c r.base ≤ k) && decide (k < spadKey c r.base + r.size)
    let s := { s with
      spad := s.spad.filter fun x => !inside x.1
      poison := s.poison.filter fun p => match p with | .spad k n => !(k == c && inside (spadKey c (8 * n))) | _ => true }
    .next (s.modCluster c fun x => { x with allocs := x.allocs.filter fun q => q != r })

/-! ## Conveyance (R286, R287) -/

/-- Whether the agent waits for the replay of a word or record of a group. -/
def State.conveyHeld (s : State) (h : Nat) : Bool :=
  s.dies.any fun d => d.faults.any (fun f => f.ref == .convey h) || d.waits.any fun f => f.ref == .convey h

def execConveyanceWrite (h : Nat) (s : State) : Out :=
  .next (if s.conveyHeld h then s else (s.conveyEntry h).settleAll)
def execConveyanceComplete (h : Nat) (s : State) : Out :=
  .next (if s.conveyHeld h then s else (s.finishConveyance h).settleAll)

/-! ## Tile tasks (R185, R195, R197) -/

def execTaskStart (c : Nat) (s : State) : Out := .next (s.startTask c).settleAll

/-- A task that has waited 4,096 ck for its engines bars younger ones. -/
def execTaskAging (c id : Nat) (s : State) : Out :=
  match s.task? c id with
  | some k =>
    let old : Bool := match k.waiting with | some t => decide (t + 4096 ≤ s.ck) | none => false
    .next (if old then s.modTask c id fun k => { k with aged := true } else s)
  | none => .next s

/-- A pass; an engine that it fences leaves its context with its image saved (R403). -/
def execTaskPass (c id : Nat) (s : State) : Out :=
  let s' := (s.taskPass c id).settleAll
  let lost := (List.range 3).filter fun e => ((s'.cluster c).engine e).fenced && !((s.cluster c).engine e).fenced
  .next (lost.foldl (fun s e => s.settleEngine c e) s')
def execTaskComplete (c id : Nat) (s : State) : Out := .next (s.completeTask c id).settleAll

/-! ## Copies and multicasts (R243, R264) -/

/-- The copy that engine N of a cluster serves next: of the first of each group's channel that can move, the group served
longest ago. -/
def State.nextCopy (s : State) (c : Nat) (ch : Fin 8) : Option Copy :=
  let l := (heads (s.cluster c).copies ch.val).filter fun k => !k.held && s.copyReady k
  let served := (s.cluster c).served[ch].filter fun h => l.any fun k => k.group == h
  minBy (fun k => if served.contains k.group then served.idxOf k.group + 1 else 0) l

def execCopyPiece (c : Nat) (ch : Fin 8) (s : State) : Out :=
  let s := ((heads (s.cluster c).copies ch.val).map Copy.tid).foldl State.forceAll s
  match s.nextCopy c ch with
  | some k => .next (s.copyPiece c k).settleAll
  | none => .next s

def execMulticastApply (home die : Nat) (s : State) : Out := .next (s.applyMulti home die).settleAll

end Sys2Proof.Machine
end

