-- ==== Sys2Proof/Machine/Supervise.lean ====
section
/-! DEFINITION. Control space as its agents reach it, records for supervisor queues, kills and the supervisor's commands
(R310, R326 to R328, R332, R333, R418). -/
namespace Sys2Proof.Machine
open Sys2Proof

/-! ## Reach (R418) -/

/-- How an agent stands in the list of access faults: a world, or 65,536 for the root core. -/
def agentCode : Agent → Nat
  | .root => 65536
  | .gp w => w

def controlBase : Nat := 0xFF0000000000

/-- An access that its map refuses: the agent's access-fault exception, and nothing else. -/
def State.accessFault (s : State) (who : Agent) (addr : Nat) : State :=
  { s with gpFaults := s.gpFaults ++ [(agentCode who, addr)] }

/-- A write that reaches its register, or faults. -/
def reachWrite (who : Agent) (ok : Bool) (addr : Nat) (f : State → State) (s : State) : State :=
  if ok then f s else s.accessFault who addr

/-- World 0's reach, and the root core's. -/
def isWorld0 : Agent → Bool
  | .gp 0 => true
  | _ => false
def isRoot : Agent → Bool
  | .root => true
  | _ => false

/-! ## Supervisor queues (R310, R326) -/

/-- Writes slot contents one after another from record number `r` on. -/
def State.writeSlots (s : State) (ctx base cap : Nat) : Nat → List (List Word) → Except (XFault × Nat) State
  | _, [] => .ok s
  | r, x :: rest =>
    match s.ctxWrite ctx (base + 32 * (r % max cap 1)) (wordBytes x) with
    | .error e => .error e
    | .ok s' => s'.writeSlots ctx base cap (r + 1) rest

/-- Words 0 and 1 of a launch's queue area, or the counters of a context's queue, with base and capacity. -/
structure QueueView where
  base : Nat
  cap : Nat
  written : Nat
  read : Nat
deriving DecidableEq, Repr

def State.queueView (s : State) (r : SupRec) : Option QueueView :=
  match r.launch with
  | none => some ⟨bits (s.descWord r.ctx 2) 0 48, bits (s.descWord r.ctx 3) 0 32, (s.descWord r.ctx 4).toNat, (s.descWord r.ctx 5).toNat⟩
  | some (q, n) =>
    match s.ctxRead r.ctx q 8, s.ctxRead r.ctx (q + 8) 8 with
    | .ok w, .ok x => some ⟨q + 64, n, w, x⟩
    | _, _ => none

/-- Advances the count of written records of the queue of a record. -/
def State.advanceQueue (s : State) (r : SupRec) (n : Nat) : State :=
  match r.launch with
  | none => s.setDescWord r.ctx 4 (word n)
  | some (q, _) => match s.ctxWrite r.ctx q (leBytes 8 n) with | .ok s' => s' | .error _ => s

/-- Writes one waiting record if its slots are free; the request of a `sys` is queued from then on. -/
def State.writeRecordOf (s : State) (n : Nat) (r : SupRec) : State :=
  match s.queueView r with
  | none => s
  | some v =>
    let used := (v.written + 2 ^ 64 - v.read) % 2 ^ 64
    if v.cap < used + r.slots.length then s
    else
      match s.writeSlots r.ctx v.base v.cap v.written r.slots with
      | .error _ => s
      | .ok s' =>
        let s' := s'.advanceQueue r ((v.written + r.slots.length) % 2 ^ 64)
        let s' := { s' with supRecs := s'.supRecs.take n ++ s'.supRecs.drop (n + 1) }
        match r.tid with
        | none => s'
        | some tid => s'.modTeam tid fun t => { t with escort := t.escort.map fun e => match e.what with
            | .sys c _ a v => { e with what := .sys c true a v }
            | _ => e }

/-- Record `n` of those that wait: the oldest of its cluster for its queue, and its context's descriptors exist. -/
def execSupervisorRecordWrite (n : Nat) (s : State) : Out :=
  match s.supRecs[n]? with
  | none => .next s
  | some r =>
    let same (x : SupRec) : Bool := x.ctx == r.ctx && x.cluster == r.cluster && x.launch == r.launch
    .next (if s.ctxbase = 0 ∨ (s.supRecs.take n).any same then s else s.writeRecordOf n r)

/-! ## Kills (R332, R333) -/

def execGroupKill (h reason : Nat) (s : State) : Out := .next (s.killGroup h reason).settleAll

/-- The device OS, or the device, ends a context that is active or ending. -/
def execContextDeath (ctx cause : Nat) (s : State) : Out :=
  .next (if s.ctxbase ≠ 0 ∧ (s.ctxState ctx = 1 ∨ s.ctxState ctx = 2) then s.contextDies ctx cause else s)

/-! ## Commands for stopped teams (R327, R328) -/

def tcmdAddr (ctx : Nat) : Nat := controlBase + 0x20000000 + 0x1000 * ctx

/-- World 0 and the context's world reach its command page. -/
def State.reachesPage (s : State) (who : Agent) (ctx : Nat) : Bool :=
  decide (ctx < 65536) && match who with
    | .gp w => w == 0 || (s.ctxbase != 0 && s.ctxWorld ctx == w)
    | .root => false

def cmdOp (w0 : Word) : Nat := bits w0 60 4

/-- Reserved bits, the operation and the target are as R327 asks. -/
def cmdOk (w0 w1 : Word) : Bool :=
  bits w0 36 24 == 0 &&
    match cmdOp w0 with
    | 1 | 2 | 3 | 5 => w1 == 0
    | 4 => w1.toNat % 4 == 0 && bits w1 48 16 == 0
    | 6 => true
    | _ => false

/-- The team that a command names in a context. -/
def State.cmdTeam (s : State) (ctx : Nat) (w0 : Word) : Option Team :=
  s.teams.find? fun t => t.group == bits w0 0 32 && t.index == bits w0 32 4 && (s.group t.group).ctx == ctx

/-- Stopped in its save area, and not yet released. -/
def Team.stopped (t : Team) : Bool := t.st == .saved 1 && !t.resume

/-- Bytes of the instruction at a stopped team's program counter. -/
def State.instrBytes (s : State) (t : Team) : Nat :=
  match (s.fetchWord t t.pc.toNat).2 with
  | .ok (some h) => if isWide h then 8 else 4
  | _ => 4

/-- Whether a team's `sys` request is queued and not answered. -/
def Team.awaitsAnswer (t : Team) : Bool :=
  match t.escort with
  | some e => (match e.what with | .sys _ q _ v => q && v.isNone | _ => false)
  | none => false

/-- The answer reaches s4 at once where the team is parked, else at its restore. -/
def State.answerSys (s : State) (tid : Nat) (v : Word) : State :=
  let parked : Bool := match (s.team tid).escort with | some e => e.status == 0 | none => false
  let s := s.modTeam tid fun t => { t with escort := t.escort.map fun e => match e.what with
    | .sys c q a _ => { e with what := .sys c q a (some v) }
    | _ => e }
  if parked then s.tickEvent.completeWait tid (some 4) v false else s

/-- What an accepted command does to its team. -/
def State.cmdRun (s : State) (t : Team) (w0 w1 : Word) : State :=
  match cmdOp w0 with
  | 1 => returnFromTrap t.tid t.pc false false s
  | 2 => returnFromTrap t.tid (t.pc + word (s.instrBytes t)) true false s
  | 3 => returnFromTrap t.tid t.rpc true true s
  | 4 => returnFromTrap t.tid w1 true false s
  | 5 => (s.killGroup t.group (0x10 + t.tcause.toNat)).settleAll
  | _ => s.answerSys t.tid w1

/-- A command on a context's page: its status, and its effect if it is accepted. -/
def State.command (s : State) (ctx : Nat) (w0 w1 : Word) : State :=
  let status (n : Nat) (s : State) : State := { s with tcst := keySet s.tcst ctx n }
  if s.ctxbase = 0 then status 1 s
  else if !cmdOk w0 w1 then status 2 s
  else
    match s.cmdTeam ctx w0 with
    | none => status 1 s
    | some t =>
      if (if cmdOp w0 = 6 then t.awaitsAnswer else t.stopped) then status 0 (s.cmdRun t w0 w1) else status 1 s

/-- A write of `tcmd` that asks for operation `op`. -/
def tcmdOf (op : Nat) (who : Agent) (ctx : Nat) (w0 w1 : Word) (s : State) : Out :=
  .next (if cmdOp w0 = op then reachWrite who (s.reachesPage who ctx) (tcmdAddr ctx) (fun s => s.command ctx w0 w1) s else s)

def execTcmdRetry (who : Agent) (ctx : Nat) (w0 w1 : Word) (s : State) : Out := tcmdOf 1 who ctx w0 w1 s
def execTcmdSkip (who : Agent) (ctx : Nat) (w0 w1 : Word) (s : State) : Out := tcmdOf 2 who ctx w0 w1 s
def execTcmdRegion (who : Agent) (ctx : Nat) (w0 w1 : Word) (s : State) : Out := tcmdOf 3 who ctx w0 w1 s
def execTcmdGoto (who : Agent) (ctx : Nat) (w0 w1 : Word) (s : State) : Out := tcmdOf 4 who ctx w0 w1 s
def execTcmdKill (who : Agent) (ctx : Nat) (w0 w1 : Word) (s : State) : Out := tcmdOf 5 who ctx w0 w1 s
def execTcmdAnswer (who : Agent) (ctx : Nat) (w0 w1 : Word) (s : State) : Out := tcmdOf 6 who ctx w0 w1 s

end Sys2Proof.Machine
end

