-- ==== Sys2Proof/Machine/LaunchUnit.lean ====
section
/-! DEFINITION. The launch unit: acceptance, the launch chain, completion and cancellation (R113, R316 to R320). -/
namespace Sys2Proof.Machine
open Sys2Proof

/-! ## `launch` (R113, R316) -/

/-- The launch unit examines the header of a parked `launch`. A translation fault on what it reads is replayed first; an
address that may not be read is a refusal. -/
def State.acceptLaunch (s : State) (tid : Nat) : State :=
  let t := s.team tid
  match t.escort with
  | some e =>
    match e.what with
    | .launch hdr dst _ =>
      let g := s.group t.group
      if !e.atUnit ∨ s.appendHeld tid then s
      else
        match s.accept g.ctx hdr with
        | .ok (s', d) => s'.tickEvent.completeWait tid dst d true
        | .error (.replay, va) => s.addFault t.cluster ⟨g.ctx, va, 0, 1, t.cluster, g.handle, .append tid⟩
        | .error (.access, _) => s.tickEvent.completeWait tid dst (word (8 * 4294967296)) true
    | _ => s
  | none => s
def execLaunchAccept (tid : Nat) (s : State) : Out := .next (s.acceptLaunch tid)

/-! ## The chain (R317, R318) -/

def State.chainTail (s : State) : Nat := bits s.lctail 0 48
def State.chainDone (s : State) : Nat := bits s.lcdone 0 48
def State.chainStalled (s : State) : Bool := bitAt s.lcdone 63

/-- `first` may change only while nothing is left to process. -/
def execLcstartWrite (who : Agent) (w0 : Word) (s : State) : Out :=
  .next (reachWrite who (isWorld0 who) (controlBase + 0x100)
    (fun s => if s.chainDone = s.chainTail then { s with lcstart := word (bits w0 0 48) } else s) s)

/-- A write of `lctail` lets a stalled unit look again. -/
def execLctailWrite (who : Agent) (w0 : Word) (s : State) : Out :=
  .next (reachWrite who (isWorld0 who) (controlBase + 0x108)
    (fun s => { s with lctail := word (bits w0 0 48), lcdone := word s.chainDone }) s)

def State.stallChain (s : State) : State := { s with lcdone := setBits s.lcdone 63 1 1 }

/-- A word of a chain entry, at a physical address that world 0 may read. -/
def State.chainWord (s : State) (a : Nat) : Option Word :=
  if a % 8 = 0 ∧ a + 8 ≤ s.part.hbmBytes ∧ s.frameOk 0 a then some (word (s.hbmRead a 8)) else none

/-- The result of an entry's header. -/
def State.chainResult (s : State) (ctx hdr : Nat) : State × Word :=
  if s.ctxbase = 0 then (s, word (0x0A * 4294967296))
  else
    match s.accept ctx hdr with
    | .ok r => r
    | .error _ => (s, word (8 * 4294967296))

/-- The next entry of the chain is taken and its result written. -/
def execChainEntryProcess (s : State) : Out :=
  if s.chainDone = s.chainTail ∨ s.chainStalled then .next s
  else if (s.chainWord s.chainTail).isNone then .next s.stallChain
  else
    match (if s.chainDone = 0 then some (bits s.lcstart 0 48) else (s.chainWord s.chainDone).map fun w => bits w 0 48) with
    | none | some 0 => .next s.stallChain
    | some e =>
      match s.chainWord e, s.chainWord (e + 8), s.chainWord (e + 16), s.chainWord (e + 24) with
      | some _, some h, some c, some _ =>
        let r := s.chainResult (bits c 0 16) (bits h 0 48)
        .next { (r.1.store (.hbm (e + 24)) 8 r.2.toNat) with lcdone := word e }
      | _, _, _, _ => .next s.stallChain

/-! ## The end of a launch (R319, R320) -/

def execLaunchCancel (lh : Nat) (s : State) : Out := .next (s.cancelLaunch lh 2).settleAll

/-- Nothing of the launch is left: no record or start, no group, no task of its teams. -/
def State.launchIdle (s : State) (l : Launch) : Bool :=
  (l.stages.all fun g => g.queues.all fun q => q.recs.isEmpty && q.starts.isEmpty && q.bereaved.isEmpty) &&
    (s.groups.all fun g => g.launch != l.handle) &&
    s.clusters.all fun c => c.tasks.all fun k => k.launch != l.handle

def launchWord (l : Launch) : Nat :=
  2 ^ 63 + b2n l.cancelled * 2 ^ 62 + min l.kills 0xFFFFFF * 2 ^ 32 + min l.groups 0xFFFFFFFF

/-- The launch's handle is free again. -/
def State.freeLaunch (s : State) (lh : Nat) : State := { s with launches := s.launches.filter fun l => l.handle != lh }

/-- Writes the completion word of a launch that is idle, and frees its handle. -/
def State.completeLaunch (s : State) (lh : Nat) : State :=
  match s.launch? lh with
  | none => s
  | some l =>
    if !s.launchIdle l ∨ l.cwordHeld then s
    else if l.cword = 0 then s.freeLaunch lh
    else
      match s.ctxPlace l.ctx l.cword 1 with
      | .ok pl => (s.applyAllMulti.ctxStore l.ctx pl 8 (launchWord l)).freeLaunch lh
      | .error .access =>
        (s.freeLaunch lh).queueRec l.ctx 0 [eventRec 8 0 0 0 (word l.cword) 1 0]
      | .error .replay =>
        (s.modLaunch lh fun l => { l with cwordHeld := true }).addFault 0 ⟨l.ctx, l.cword, 1, 6, 0, 0, .launchWord lh⟩
def execLaunchComplete (lh : Nat) (s : State) : Out := .next (s.completeLaunch lh)

end Sys2Proof.Machine
end

