-- ==== Sys2Proof/Machine/Tags.lean ====
section
/-! DEFINITION. The tag table of a cluster (R162, R240, R242). -/
namespace Sys2Proof.Machine
open Sys2Proof

/-! ## Partitions (R240) -/

/-- Fields of a partition register. -/
def tgEn (p : Word × Word) : Bool := bitAt p.1 63
def tgFirst (p : Word × Word) : Nat := bits p.1 47 12
def tgCount (p : Word × Word) : Nat := bits p.1 34 13
def tgPtr (p : Word × Word) : Nat := bits p.1 22 12

/-- Whether an enabled partition is assigned to a context. -/
def tgOf (ctx : Nat) (p : Word × Word) : Bool := tgEn p && decide (bits p.2 0 16 = ctx)
/-- Whether a slot lies in a partition. -/
def tgHas (p : Word × Word) (slot : Nat) : Bool := decide (tgFirst p ≤ slot) && decide (slot < tgFirst p + tgCount p)

def Cluster.partition (c : Cluster) (n : Nat) : Word × Word := nth (0, 0) c.tgmap.toList n
/-- Whether a slot is assigned to a context. -/
def Cluster.slotOf (c : Cluster) (ctx slot : Nat) : Bool := c.tgmap.toList.any fun p => tgOf ctx p && tgHas p slot

/-! ## Entries -/

def Cluster.tag (c : Cluster) (slot : Nat) : Tag := (c.tags.find? fun t => t.slot == slot).getD ⟨slot, 0, false, false, 0⟩
def Cluster.setTag (c : Cluster) (t : Tag) : Cluster := { c with tags := t :: c.tags.filter fun u => u.slot != t.slot }

/-- An old entry as it is returned. -/
def tagWord (t : Tag) : Word := word (b2n t.valid * 2 ^ 63 + b2n t.dirty * 2 ^ 62 + t.tag)

/-- The valid entry of a partition with a tag. Where two have it, the one written last is taken: the model's choice, since
no rule says which (R162; log 73). -/
def Cluster.hit (c : Cluster) (p : Word × Word) (tag : Nat) : Option Tag :=
  c.tags.find? fun t => t.valid && t.tag == tag && tgHas p t.slot
/-- The lowest invalid slot of a partition. -/
def Cluster.freeTag (c : Cluster) (p : Word × Word) : Option Nat :=
  (List.range' (tgFirst p) (tgCount p)).find? fun n => !(c.tag n).valid

/-- The replacement pointer advances by one in its range. -/
def tgAdvance (p : Word × Word) : Word × Word :=
  (setBits p.1 22 12 (if tgPtr p + 1 < tgFirst p + tgCount p then tgPtr p + 1 else tgFirst p), p.2)

/-! ## Instructions (R162) -/

/-- A poisoned entry that is read is invalidated, and its data stays unused (R400). -/
def State.cleanTags (s : State) (c : Nat) (p : Nat → Bool) : State :=
  s.poison.foldl (fun s q =>
    match q with
    | .tag k slot =>
      if k = c ∧ p slot then ((s.clearPoison q).contained (dieOf c) 0 8 c 0).modCluster c fun x => x.setTag ⟨slot, 0, false, false, 0⟩ else s
    | _ => s) s

/-- The slot of a hit, or the victim of a miss; a victim at the replacement pointer advances it. -/
def State.lookTag (s : State) (cl n tag : Nat) : State × Word :=
  let c := s.cluster cl
  let p := c.partition n
  match c.hit p tag with
  | some e => (s, word e.slot)
  | none =>
    match c.freeTag p with
    | some v => (s, word (v * 4294967296 + 0xFFFFFFFF))
    | none =>
      (s.modCluster cl fun c => { c with
          tgmap := Vector.ofFn fun i => if i.val = n then tgAdvance c.tgmap[i] else c.tgmap[i] },
        word (tgPtr p * 4294967296 + 0xFFFFFFFF))

def execTlook (d : SDst) (a b : USrc) (s : State) : Out :=
  let t := s.cur
  let n := bits (t.uniSrc b) 0 4
  let p := (s.cluster t.cluster).partition n
  let fl := t.uniFlags a ||| t.uniFlags b
  if !tgOf s.curCtx p then trapRead fl 6 (word n) s
  else
    let r := (s.cleanTags t.cluster (tgHas p)).lookTag t.cluster n (bits (t.uniSrc a) 0 48)
    teamStep 4 (fun t => (t.raise fl).setSDst d r.2) r.1

/-- Reads an entry of the context and leaves `f` of it. -/
def tagAccess (slot : Nat) (d : SDst) (fl : FFlags) (f : Tag → Tag) (s : State) : Out :=
  let t := s.cur
  if !(s.cluster t.cluster).slotOf s.curCtx slot then trapRead fl 6 (word slot) s
  else
    let s := s.cleanTags t.cluster (· == slot)
    let old := (s.cluster t.cluster).tag slot
    teamStep 4 (fun t => (t.raise fl).setSDst d (tagWord old)) (s.modCluster t.cluster fun c => c.setTag (f old))

def execTins (d : SDst) (a b : USrc) (s : State) : Out :=
  let t := s.cur
  let slot := bits (t.uniSrc b) 0 12
  tagAccess slot d (t.uniFlags a ||| t.uniFlags b)
    (fun _ => ⟨slot, bits (t.uniSrc a) 0 48, true, bitAt (t.uniSrc b) 32, t.group⟩) s
def execTinv (d : SDst) (a b : USrc) (s : State) : Out :=
  let t := s.cur
  tagAccess (bits (t.uniSrc a) 0 12) d (t.uniFlags a ||| t.uniFlags b)
    (fun e => if bitAt (t.uniSrc b) 0 then e else { e with valid := false, dirty := false }) s

end Sys2Proof.Machine
end

