-- ==== Sys2Proof/Machine/Registers.lean ====
section
/-! DEFINITION. Control-space registers with an effect of their own (R240, R242, R321, R344 to R346, R355, R366, R372,
R404, R417, R424). -/
namespace Sys2Proof.Machine
open Sys2Proof

/-- The bits of a word that a field map lets a write change. -/
def masked (w : Word) (fields : List (Nat × Nat)) : Word :=
  word (fields.foldl (fun n f => n + bits w f.1 f.2 * 2 ^ f.1) 0)

/-! ## Quota rows (R321) -/

abbrev QuotaRow := Word × Word × Word

/-- The fields of a quota row. -/
def quotaMask (w0 w1 w2 : Word) : QuotaRow :=
  (masked w0 [(48, 16), (47, 1), (44, 3), (43, 1), (42, 1), (24, 12), (15, 9)], masked w1 [(0, 38)], masked w2 [(0, 38)])

/-- The sum of a field over the enabled rows. -/
def quotaSum (rows : List QuotaRow) (f : QuotaRow → Nat) : Nat := sumOf (fun q => if bitAt q.1 47 then f q else 0) rows

/-- No field is promised beyond the cluster's capacity, and no engine twice. -/
def quotaFits (rows : List QuotaRow) : Bool :=
  decide (quotaSum rows (fun q => bits q.1 24 12) ≤ 3056) && decide (quotaSum rows (fun q => bits q.1 15 9) ≤ 256) &&
    (decide (quotaSum rows (fun q => bits q.2.1 32 6) ≤ 32) && decide (quotaSum rows (fun q => bits q.2.2 32 6) ≤ 32)) &&
    (decide (quotaSum rows (fun q => bits q.2.1 16 16) ≤ 384) && decide (quotaSum rows (fun q => bits q.2.2 16 16) ≤ 384)) &&
    (decide (quotaSum rows (fun q => bits q.2.1 0 16) ≤ 256) && decide (quotaSum rows (fun q => bits q.2.2 0 16) ≤ 256)) &&
    (List.range 3).all fun e => decide (quotaSum rows (fun q => bits q.1 (44 + e) 1) ≤ 1)

def clusterAddr (c off : Nat) : Nat := controlBase + 0x10000000 + 0x10000 * c + off

/-- Writes a row, unless that would break a guarantee; engines follow the rows. -/
def State.writeQuota (s : State) (c r : Nat) (w0 w1 w2 : Word) : State :=
  let rows := setNth (s.cluster c).quota.toList r (quotaMask w0 w1 w2)
  if quotaFits rows then
    (s.modCluster c fun k => { k with quota := Vector.ofFn fun i => nth (0, 0, 0) rows i.val }).settleEngines c
  else s
def execQuotaRowWrite (who : Agent) (c r : Nat) (w0 w1 w2 : Word) (s : State) : Out :=
  .next (reachWrite who (isWorld0 who && decide (c < s.part.clusters) && decide (r < 16)) (clusterAddr c (0x1000 + 32 * r))
    (fun s => s.writeQuota c r w0 w1 w2) s)

/-! ## Tag partitions (R240, R242) -/

def tgRefused (c : Cluster) (n : Nat) (p : Word × Word) : Bool :=
  tgEn p && (decide (8 < bits p.1 59 4) || (List.range 16).any fun i =>
    let q := c.partition i
    i != n && tgEn q && decide (tgFirst p < tgFirst q + tgCount q) && decide (tgFirst q < tgFirst p + tgCount p))

/-- Writes a partition register, unless it is refused; entries of its old and new slots are invalid from then on. -/
def State.writeTgmap (s : State) (c n : Nat) (w0 w1 : Word) : State :=
  let k := s.cluster c
  let p : Word × Word := (w0, masked w1 [(0, 16)])
  if tgRefused k n p then s
  else
    let q := k.partition n
    s.modCluster c fun k => { k with
      tgmap := Vector.ofFn fun i => if i.val = n then p else k.tgmap[i]
      tags := updWhere (fun t => tgHas p t.slot || tgHas q t.slot) (fun t => { t with valid := false, dirty := false }) k.tags }
def execTgmapWrite (who : Agent) (c p : Nat) (w0 w1 : Word) (s : State) : Out :=
  .next (reachWrite who (isWorld0 who && decide (c < s.part.clusters) && decide (p < 16)) (clusterAddr c (16 * p))
    (fun s => s.writeTgmap c p w0 w1) s)

/-! ## `ctxbase`, `podcfg`, `mtcfg` (R355, R404, R424) -/

def State.writeCtxbase (s : State) (w0 : Word) : State :=
  if s.ctxbase = 0 then { s with ctxbase := masked w0 [(6, 42)] } else s
def execCtxbaseWrite (who : Agent) (w0 : Word) (s : State) : Out :=
  .next (reachWrite who (isWorld0 who) (controlBase + 0x200) (fun s => s.writeCtxbase w0) s)

def State.writePodcfg (s : State) (w0 : Word) : State :=
  if s.part = .zlx20 ∧ bitAt w0 4 then s else { s with podcfg := masked w0 [(7, 1), (4, 1), (0, 4)] }
def execPodcfgWrite (who : Agent) (w0 : Word) (s : State) : Out :=
  .next (reachWrite who (isRoot who) controlBase (fun s => s.writePodcfg w0) s)

def State.writeMtcfg (s : State) (w0 : Word) : State :=
  let k := bits w0 48 5
  { s with mtcfg := setBits (masked w0 [(63, 1), (62, 1), (0, 48)]) 48 5 (if 4 ≤ k ∧ k ≤ 16 then k else bits s.mtcfg 48 5) }
def execMtcfgWrite (who : Agent) (w0 : Word) (s : State) : Out :=
  .next (reachWrite who (isWorld0 who) (controlBase + 0x1008) (fun s => s.writeMtcfg w0) s)

/-! ## The fault buffer (R345, R346, R351) -/

def dieAddr (d off : Nat) : Nat := controlBase + 0x1000000 + 0x100000 * d + off

/-- Entries that a reserved estate entry of a refused wait gives back. -/
def State.releaseReserved (s : State) (tid : Nat) (op : WordOp) : State :=
  let h := (s.team tid).group
  match op with
  | .lkacq (some n) _ _ _ | .prnew n | .holdSlot (some n) _ _ => s.freeEntry h n
  | _ => s

/-- A parked word instruction whose word is translated afresh, and which then acts as if it had just issued (R425). -/
def State.replayWord (s : State) (tid : Nat) (f : FaultWait) : State :=
  let t := s.team tid
  match t.escort with
  | some x =>
    match x.what with
    | .word r =>
      let refuse (s : State) : State := (s.releaseReserved tid r.op).refuseWait tid 6 r.addr
      let p := s.translate t.cluster (s.group t.group).ctx r.addr (if r.op.reads then 0 else 2)
      match p.2 with
      | .error .replay => p.1.addFault t.cluster f
      | .error .access => refuse p.1
      | .ok pl =>
        match pl.tgt with
        | .remote _ _ => refuse p.1
        | tgt =>
          let r' : WordReq := { r with tgt := some tgt, kind := pl.kind, issued := if r.acted then r.issued else s.ck }
          let s := (p.1.noteSlices t.group [{ r'.probe with slice := pl.slice }]).modTeam tid fun t =>
            { t with escort := t.escort.map fun x => { x with what := .word r', slice := pl.slice } }
          if x.eo then s.actWord tid r' else s.moveFrame tid .request
    | _ => s
  | none => s

/-- What a replay makes of the thing that an entry held. Units that act step by step meet the page again at their next
step, and take a new entry if it is still invalid. -/
def State.replayRef (s : State) (f : FaultWait) : State :=
  match f.ref with
  | .elem tid seq idx => s.replayElem tid seq idx f
  | .word tid => s.replayWord tid f
  | .fetch tid => match (s.team tid).st with | .fetchHeld _ => s.makeReady tid | _ => s
  | .task c id => s.modTask c id fun k => { k with st := if k.st = .held then .running else k.st }
  | .taskWord c id => s.modTask c id fun k => { k with st := if k.st = .wordHeld then .finished else k.st }
  | .copy c id => s.modCopy c id fun k => { k with held := false }
  | .launchWord lh => s.modLaunch lh fun l => { l with cwordHeld := false }
  | .convey _ | .append _ | .dropped => s

/-- A write of `frply` on a die: the entry's element is released once; an entry already replayed or dropped has nothing. -/
def State.replayEntry (s : State) (d n : Nat) : State :=
  match (s.die d).faults.find? fun e => e.idx % 2048 == n && e.ref != .dropped with
  | none => s
  | some e =>
    let done (x : FaultEntry) : FaultEntry := { x with ref := .dropped }
    let s := s.modDie d fun x => { x with faults :=
      (updWhere (fun y => y == e) done x.faults).filter fun y => !(y.ref == .dropped && decide (y.idx < x.fbhead)) }
    s.replayRef ⟨e.ctx, e.va, e.acc, e.req, e.unit, e.group, e.ref⟩
def execFrplyWrite (who : Agent) (d : Nat) (w0 : Word) (s : State) : Out :=
  .next (reachWrite who (isWorld0 who && decide (d < s.part.dies)) (dieAddr d 0x10)
    (fun s => (s.replayEntry d w0.toNat).settleAll) s)

/-- Elements that wait at their requesters enter the buffer as far as it has room. -/
def State.enterWaits (s : State) (d : Nat) : Nat → State
  | 0 => s
  | n + 1 =>
    let x := s.die d
    match x.waits with
    | w :: rest =>
      if x.fbtail - x.fbhead < 2048 then ((s.modDie d fun x => { x with waits := rest }).addFault (32 * d) w).enterWaits d n else s
    | [] => s

/-- The device OS has consumed the entries before number `n`, counted modulo 2,048. -/
def State.consumeFaults (s : State) (d n : Nat) : State :=
  let x := s.die d
  let head := x.fbhead + (n + 2048 - x.fbhead % 2048) % 2048
  if 2048 ≤ n ∨ x.fbtail < head then s
  else
    (s.modDie d fun x => { x with
      fbhead := head
      faults := x.faults.filter fun y => !(y.ref == .dropped && decide (y.idx < head)) }).enterWaits d x.waits.length
def execFbheadWrite (who : Agent) (d : Nat) (w0 : Word) (s : State) : Out :=
  .next (reachWrite who (isWorld0 who && decide (d < s.part.dies)) (dieAddr d 0) (fun s => s.consumeFaults d w0.toNat) s)

/-! ## Invalidation (R344) -/

def State.writeTrinv (s : State) (w0 w1 w2 : Word) : State :=
  { s with trinv := some (bits w0 0 16, bitAt w0 63, w1.toNat, w2.toNat), trinvDone := false }
def execTrinvWrite (who : Agent) (w0 w1 w2 : Word) (s : State) : Out :=
  .next (reachWrite who (isWorld0 who) (controlBase + 0x300) (fun s => s.writeTrinv w0 w1 w2) s)

/-- Whether an address of a context lies in the range of an invalidation. -/
def inTrinv (r : Nat × Bool × Nat × Nat) (ctx va size : Nat) : Bool :=
  ctx == r.1 && (r.2.1 || (decide (va < r.2.2.1 + r.2.2.2) && decide (r.2.2.1 < va + size)))

/-- A translated element of a range that is not performed yet. -/
def State.lagging (s : State) (p : Nat → Nat → Nat → Bool) (t : Team) : Bool :=
  t.accs.any (fun a => a.elems.any fun e => !e.performed && e.tgt.isSome && p (s.group t.group).ctx e.va e.size) ||
    (s.combOf t).any fun c => c.tid == t.tid

/-- The word that a team's parked instruction waits for, where it has been translated. -/
def Team.parkedWord (t : Team) : Option (Escort × WordReq) :=
  match t.escort with
  | some e =>
    match e.what, e.status with
    | .word r, 0 => match r.tgt with | some (.hbm _) => some (e, r) | _ => none
    | _, _ => none
  | none => none

/-- Takes a parked instruction's translation away: its frame goes to the Lodge, and its word is translated afresh when it
is replayed (R344, R385, R425). -/
def State.untranslate (s : State) (t : Team) (e : Escort) (r : WordReq) : State :=
  let s := s.modTeam t.tid fun t => { t with escort := t.escort.map fun x => { x with what := .word { r with tgt := none } } }
  if e.eo then s else s.moveFrame t.tid .faultHold
def wordFault (s : State) (t : Team) (r : WordReq) : FaultWait :=
  ⟨(s.group t.group).ctx, r.addr, if r.op.reads then 0 else 2, 1, t.cluster, t.group, .word t.tid⟩
/-- The parked instructions whose words `p` names are held in the fault buffer, or, with `again`, translated afresh at
once. -/
def State.dropWords (s : State) (p : Team → WordReq → Bool) (again : Bool) : State :=
  s.teams.foldl (fun s t =>
    match t.parkedWord with
    | some (e, r) =>
      if p t r then
        let f := wordFault s t r
        if again then (s.untranslate t e r).replayWord t.tid f else (s.untranslate t e r).addFault t.cluster f
      else s
    | none => s) s

/-- Every cache drops its entries of a range of contexts and addresses, with what the model notes of them; parked words of
the range are translated afresh. Whether every access translated through them is performed. -/
def State.dropCaches (s : State) (p : Nat → Nat → Nat → Bool) : State × Bool :=
  let keep (e : Tlb) : Bool := !p e.ctx e.va e.size
  let s : State := { s with
    clusters := s.clusters.map fun c => { c with tlb := c.tlb.filter keep }
    walked := s.walked.filter keep }
  let hit (t : Team) : Bool := s.lagging p t
  let s := ((s.teams.filter hit).map Team.tid).foldl State.forceAll s
  let s := s.dropWords (fun t r => p (s.group t.group).ctx r.addr 8) true
  (s, s.teams.all fun t => !s.lagging p t)

def execTrinvComplete (s : State) : Out :=
  match s.trinv with
  | none => .next s
  | some r =>
    let p := s.dropCaches (inTrinv r)
    .next (if p.2 then { p.1 with trinv := none, trinvDone := true } else p.1).settleAll

/-! ## The Sett buffer table (R366, R372) -/

/-- Whether every frame of a buffer is the world's. -/
def State.framesOf (s : State) (world base n : Nat) : Bool :=
  decide (base + n ≤ s.part.hbmBytes) && (List.range ((base + n - 1) / 65536 + 1 - base / 65536)).all fun i =>
    let pa := (base / 65536 + i) * 65536
    s.frameWorld pa == world && (s.frameState pa == 1 || s.frameState pa == 2)

/-- The fields of an entry. -/
def settMask (w0 w1 w2 w3 : Word) : Word × Word × Word × Word :=
  (masked w0 [(63, 1), (56, 4), (15, 33)], masked w1 [(0, 20)], w2, masked w3 [(48, 16), (32, 16)])

/-- Numbers of the things of `n` bytes in a table that hold a byte other than zero. -/
def State.tableEntries (s : State) (base n count : Nat) : List Nat :=
  ((s.hbm.filter fun x => decide (base ≤ x.1) && decide (x.1 < base + n * count)).map fun x => (x.1 - base) / n).eraseDups
/-- The leaves of a page table, with the low bits of their levels. -/
def State.leaves (s : State) : List (Nat × Nat) → Nat → List (Word × Nat)
  | [], _ => []
  | (sh, n) :: rest, table => (s.tableEntries table 8 n).flatMap fun i =>
      let e := word (s.hbmRead (table + 8 * i) 8)
      if !bitAt e 0 then [] else if bitAt e 1 then [(e, sh)] else s.leaves rest (bits e 8 40 * 256)
/-- Whether a context maps a range of this device otherwise than spread: die-local, or replicated, at any of the replicas
(R249, R252, R342). -/
def State.mapsUnspread (s : State) (ctx base n : Nat) : Bool :=
  s.ctxbase != 0 && (s.leaves walkLevels (s.ptRoot ctx)).any fun l =>
    let a := bits l.1 8 40 * 256
    let meets (a : Nat) : Bool := decide (a < base + n) && decide (base < a + 2 ^ l.2)
    !bitAt l.1 51 &&
      if bits l.1 60 2 = 3 then meets a || (List.range s.part.dies).any fun d => meets (s.replicaAt d a)
      else meets a && bits l.1 58 2 != 0

/-- An abort ends a collective in flight; the entry is registered unless it is refused, with its status 0. A part without
Sett ports refuses every entry (R1). -/
def State.writeSett (s : State) (b : Nat) (w0 w1 w2 w3 : Word) : State :=
  let s := if bitAt w0 62 then s.abortSett b else s
  let f := bits w0 56 4
  let n := bits w1 0 20
  let base := bits w0 15 33 * 32768
  let refused : Bool := !s.part.full || !(f == 1 || f == 3 || f == 11) || !bitAt w2 (48 + s.podDev) ||
    !s.framesOf (bits w3 32 16) base (4096 * n) || s.mapsUnspread (bits w3 48 16) base (4096 * n) || (s.coll? b).isSome
  if refused then s
  else
    let m := settMask w0 w1 w2 w3
    s.modSett b fun _ => ⟨m.1, m.2.1, m.2.2.1, m.2.2.2, 0, false, 0, 0, false⟩
def execSettTableWrite (who : Agent) (b : Nat) (w0 w1 w2 w3 : Word) (s : State) : Out :=
  .next (reachWrite who (isWorld0 who && decide (b < 64)) (controlBase + 0x2000 + 32 * b) (fun s => s.writeSett b w0 w1 w2 w3) s)
def execSettAbort (who : Agent) (b : Nat) (s : State) : Out :=
  .next (reachWrite who (isWorld0 who && decide (b < 64)) (controlBase + 0x2000 + 32 * b) (fun s => s.abortSett b) s)

/-! ## Host doorbells (R417) -/

def execHdbinWrite (w0 : Word) (s : State) : Out := .next { s with hdbin := w0 }
/-- The device OS posts its producer index, which raises MSI-X vector 0. -/
def execHdboutWrite (w0 : Word) (s : State) : Out := .next { s with hdbout := w0, msix := s.msix ||| 1 }

end Sys2Proof.Machine
end

