-- ==== Sys2Proof/Machine/Links.lean ====
section
/-! DEFINITION. Links: seals, the link layer, flits as numbers, elements and mailbox flits as a device receives them,
timeouts (R356 to R363, R387 to R392). -/
namespace Sys2Proof.Machine
open Sys2Proof

/-! ## Seal blocks (R387 to R392, R418) -/

def State.seal (s : State) (j : Nat) : Seal := nth .zero s.seals.toList j
def State.modSeal (s : State) (j : Nat) (f : Seal → Seal) : State :=
  { s with seals := Vector.ofFn fun i => if i.val = j then f s.seals[i] else s.seals[i] }

/-- Blocks of an on-package direction have both ends; those of a port have one. -/
def sealOnPackage (j : Nat) : Bool := decide (j < 24)
def sealSends (j : Nat) : Bool := decide (j < 39) || (decide (54 ≤ j) && decide (j < 70))
def sealReceives (j : Nat) : Bool := sealOnPackage j || (decide (39 ≤ j) && decide (j < 54)) || (decide (70 ≤ j) && decide (j < 86))

/-- Whether a part has the link of a block (R1, R2). -/
def linkPresent (p : Part) (j : Nat) : Bool :=
  if j < 8 then p.full || decide (j < 2)
  else if j < 24 then decide ((j - 8) / 2 < p.stacks)
  else if j < 54 then decide ((j - 24) % 15 < p.ports)
  else p.full

/-- The port of a block that sends, or that receives: Sett or pod, and its number. -/
def sendingPort (j : Nat) : Option (Bool × Nat) :=
  if 24 ≤ j ∧ j < 39 then some (false, j - 24) else if 54 ≤ j ∧ j < 70 then some (true, j - 54) else none
def receivingPort (j : Nat) : Option (Bool × Nat) :=
  if 39 ≤ j ∧ j < 54 then some (false, j - 39) else if 70 ≤ j ∧ j < 86 then some (true, j - 70) else none

/-! ## The link identifier and the initialisation vector (R388) -/

/-- Bits 47:44 `kind`, 43:40 `sdev`, 39:32 `unit`, 31 `dir`. -/
def linkIdent (kind sdev unit dir : Nat) : Nat := kind * 2 ^ 44 + sdev % 16 * 2 ^ 40 + unit % 256 * 2 ^ 32 + dir * 2 ^ 31
/-- The identifier of the sender of a block's units: this device, or, for a block that receives, the device at the other
end of the port. -/
def State.identOf (s : State) (j : Nat) : Nat :=
  if j < 8 then linkIdent 0 0 (j / 2) (j % 2)
  else if j < 24 then linkIdent 1 0 ((j - 8) / 2) (j % 2)
  else if j < 39 then linkIdent 2 s.podDev (j - 24) 0
  else if j < 54 then linkIdent 2 ((s.peerOf (j - 39)).getD 0) (j - 39) 0
  else if j < 70 then linkIdent 3 s.podDev (j - 54) 0
  else
    -- S0 of the device before arrives at S1, and S1 of the next device at S0
    let k := j - 70
    linkIdent 3 (s.settPeer (k % 2 == 0)) (if k % 2 = 0 then k + 1 else k - 1) 0
/-- Bits 95:48 the identifier, bits 47:0 the counter. -/
def sealIv (ident ctr : Nat) : Nat := ident * 2 ^ 48 + ctr % 2 ^ 48

/-- The trailer: counter, key phase, and bits that shall be zero. -/
def SealedUnit.trailer (u : SealedUnit) : Nat := u.ctr + b2n u.phase * 2 ^ 48 + u.rest * 2 ^ 49
/-- The 288 bytes of a unit. -/
def SealedUnit.number (u : SealedUnit) : Nat := u.cipher + u.tag * 2 ^ 2048 + u.trailer * 2 ^ 2176
/-- A unit from its parts: the ciphertext, the tag, and of the trailer the counter and what lies above it. -/
def sealedUnitFrom (cipher tag ctr high : Nat) : SealedUnit :=
  ⟨cipher % 2 ^ 2048, tag % 2 ^ 128, ctr % 2 ^ 48, high % 2 == 1, high / 2 % 2 ^ 79⟩
/-- A unit from its 288 bytes. -/
def sealedUnitOf (n : Nat) : SealedUnit := sealedUnitFrom n (n / 2 ^ 2048) (n / 2 ^ 2176) (n / 2 ^ 2224)
/-- 256 bytes sealed under a key, a counter and a phase. -/
def sealUnit (key ident ctr : Nat) (phase : Bool) (plain : Nat) : SealedUnit :=
  let c := Config.gcmSeal key (sealIv ident ctr) (plain % 2 ^ 2048) % 2 ^ 2048
  ⟨c, Config.gcmTag key (sealIv ident ctr) c (ctr + b2n phase * 2 ^ 48) % 2 ^ 128, ctr, phase, 0⟩
/-- Whether a unit's tag verifies under a key, and what it says. -/
def SealedUnit.verifies (u : SealedUnit) (key ident : Nat) : Bool :=
  u.rest == 0 && Config.gcmTag key (sealIv ident u.ctr) u.cipher u.trailer % 2 ^ 128 == u.tag
def SealedUnit.plain (u : SealedUnit) (key ident : Nat) : Nat := Config.gcmOpen key (sealIv ident u.ctr) u.cipher % 2 ^ 2048

/-! ## Keys (R390 to R392) -/

/-- A sender moves to its pending key: phase flipped, counter 0. -/
def Seal.roll (b : Seal) : Seal :=
  { b with kph := !b.kph, ctr := 0, pend := false, curS := b.penS, penS := none, st := 1, stallAt := none,
           spent := b.curS.toList ++ b.spent }

/-- Flits of a pod port that have not been put on the wire. -/
def State.queuedAt (s : State) (k : Nat) : List Flit :=
  (s.podLink k).replay.drop (s.podLink k).sent ++ s.podOut.filter fun f => (s.wayOf f).any fun p => p.1 == k
/-- Whether a remote element waits for a pod port. -/
def State.byPort (s : State) (k : Nat) (r : Remote) : Bool := (s.queuedAt k).any fun f => f.vn == 0 && f.tag == r.tag
/-- Elements that wait behind a port's stall, or no longer do. -/
def State.markStalled (s : State) (j : Nat) (on : Bool) : State :=
  let go (r : Remote) : Remote := if 24 ≤ j ∧ j < 39 ∧ s.byPort (j - 24) r then { r with stalled := on } else r
  { s with remotes := s.remotes.map go }

/-- Whether a sending key may be loaded: no counter value may come twice under one key, so one that has been in use is
not taken again (R389). -/
def Seal.fresh (b : Seal) (key : Nat) : Bool := b.curS != some key && !b.spent.contains key

/-- The last counter accepted under a receiving key, and the record of it for the current key (R389). -/
def Seal.lastUnder (b : Seal) (key : Nat) : Option Nat :=
  if b.curR = some key then b.rxCtr else (b.past.find? fun p => p.1 == key).map Prod.snd
def Seal.notePast (b : Seal) : List (Nat × Nat) :=
  match b.curR, b.rxCtr with
  | some k, some c => (k, c) :: b.past.filter fun p => p.1 != k
  | _, _ => b.past
/-- Another current receiving key; what was accepted under it before is not accepted again. -/
def Seal.receive (b : Seal) (key : Nat) : Seal :=
  { b with curR := some key, rxCtr := b.lastUnder key, past := b.notePast }

/-- A key is loaded, where the part has the link: 0 sending current, 1 sending pending, 2 receiving current, 3 receiving pending. A sending key that
comes during a stall ends it: a pending one rolls the link at once. An end that sends runs once it has a sending key (R390). -/
def State.loadKey (s : State) (j which key : Nat) : State :=
  let b := s.seal j
  if !linkPresent s.part j then s
  else if which = 0 ∧ sealSends j then
    if !b.fresh key then s
    else
      let set (b : Seal) : Seal := { b with curS := some key, ctr := 0, st := 1, stallAt := none, spent := b.curS.toList ++ b.spent }
      (if b.st = 2 then s.markStalled j false else s).modSeal j set
  else if which = 1 ∧ sealSends j then
    if !b.fresh key then s
    else
      let set (b : Seal) : Seal :=
        let b := { b with penS := some key, pend := true }
        if b.st = 2 then b.roll else b
      (if b.st = 2 then s.markStalled j false else s).modSeal j set
  else if which = 2 ∧ sealReceives j then
    s.modSeal j fun b => { b.receive key with st := if b.st = 0 ∧ !sealSends j then 1 else b.st }
  else if which = 3 ∧ sealReceives j then
    s.modSeal j fun b => { b with penR := some key, pend := if sealSends j then b.pend else true }
  else s

def sealAddr (j off : Nat) : Nat := controlBase + 0x4000 + 256 * j + off
def execSealKeyWrite (who : Agent) (j which key : Nat) (s : State) : Out :=
  .next (reachWrite who (isRoot who && decide (j < 86) && decide (which < 4)) (sealAddr j (0x40 + 32 * which + 24))
    (fun s => s.loadKey j which key) s)

/-! ## Flits as numbers (R356) -/

/-- CRC-32 of IEEE 802.3, byte by byte. -/
def crcBits : Nat → Nat → Nat
  | 0, c => c
  | n + 1, c => crcBits n (if c % 2 = 1 then (c / 2) ^^^ 0xEDB88320 else c / 2)
def crc32 (l : List Byte) : Nat := (l.foldl (fun c b => crcBits 8 (c ^^^ b.toNat)) 0xFFFFFFFF) ^^^ 0xFFFFFFFF

/-- Fields of a flit, a number of 256 bytes whose low 16 are the header. -/
def flitField (f lo n : Nat) : Nat := f / 2 ^ lo % 2 ^ n
def flitCrc (f : Nat) : Nat := flitField f 96 32
def flitOk (f : Nat) : Bool := crc32 (leBytes 256 (f - flitCrc f * 2 ^ 96)) == flitCrc f
/-- A flit with its CRC. -/
def withCrc (f : Nat) : Nat := f + crc32 (leBytes 256 f) * 2 ^ 96

/-- The 256 bytes of a flit, with the last number received in order on the reverse direction as its `ack`. -/
def Flit.number (f : Flit) (ack : Nat) : Nat :=
  let b := Config.bodyBits f.body
  withCrc (f.seq % 65536 * 2 ^ 80 + ack % 65536 * 2 ^ 64 + f.src % 16 * 2 ^ 60 + f.dst % 16 * 2 ^ 56 + f.vn % 4 * 2 ^ 54 +
    b2n f.rly * 2 ^ 53 + b.1 % 32 * 2 ^ 48 + b.2.1 % 256 * 2 ^ 40 + f.eseq % 65536 * 2 ^ 24 + f.tag % 2 ^ 24 +
    b.2.2 % 2 ^ 1920 * 2 ^ 128)
/-- A link-control flit, which names the last good number in its `ack`. -/
def controlNumber (src dst last : Nat) : Nat := withCrc (last % 65536 * 2 ^ 64 + src % 16 * 2 ^ 60 + dst % 16 * 2 ^ 56 + 3 * 2 ^ 54)
/-- What the bytes of a flit say; `none` where no device sends such a payload. -/
def flitOf (f : Nat) : Option Flit :=
  (Config.bodyOf (flitField f 48 5) (flitField f 40 8) (flitField f 128 1920)).map fun b =>
    ⟨flitField f 80 16, flitField f 24 16, flitField f 60 4, flitField f 56 4, flitField f 54 2, flitField f 53 1 == 1,
      flitField f 0 24, b⟩

/-! ## The link layer (R357, R363, R365) -/

def State.linkOf (s : State) (sett : Bool) (k : Nat) : Link := if sett then s.settLink k else s.podLink k
def State.modLink (s : State) (sett : Bool) (k : Nat) (f : Link → Link) : State :=
  if sett then s.modSettLink k f else s.modPodLink k f

/-- What `ack` or a link-control flit names as received leaves the replay buffer. -/
def Link.acked (l : Link) (last ck : Nat) : Link :=
  if l.replay.any fun x => x.seq == last then
    let rest := (l.replay.dropWhile fun x => x.seq != last).drop 1
    { l with replay := rest, sent := l.sent - (l.replay.length - rest.length), resends := 0, since := ck }
  else l
/-- The other end has received everything up to a number; flits that waited for room go on. -/
def State.ackLink (s : State) (sett : Bool) (k last : Nat) : State :=
  let s := s.modLink sett k fun l => l.acked last s.ck
  if sett then s.retrySett else s.retryFlits

/-- A pod link goes down (R363): what its replay buffer holds goes, before anything newer, by the other link to the peer,
or through the relay device; what has no way left is dropped. The root core is alerted. -/
def State.podDown (s : State) (k : Nat) : State :=
  let l := s.podLink k
  let s := { s with rootAlarms := s.rootAlarms + 1 }.modPodLink k fun l => { l with up := false, replay := [], sent := 0 }
  let relay (e : Nat) : Word := let w := nth 0 s.rly.toList e; if bits w 14 2 = 0 then setBits w 14 2 1 else w
  let s := match s.peerOf k with
    | some e => if (s.portsTo e).any fun p => (s.podLink p).up then s
        else { s with rly := Vector.ofFn fun i => if i.val = e then relay e else s.rly[i] }
    | none => s
  { s with podOut := l.replay ++ s.podOut }.retryFlits
/-- The collective of a flit that a Sett port has lost, and participants of it. -/
def Flit.lost (f : Flit) : Option (Nat × Nat × Nat) :=
  match f.body with
  | .params b n _ _ pmask _ => some (b, n, pmask)
  | .chunk b n _ _ _ _ _ => some (b, n, 2 ^ f.src ||| 2 ^ f.dst)
  | .stop b n who => some (b, n, who)
  | _ => none
/-- A Sett link goes down: its base die detects a failure in every collective in flight (R372). Devices beyond the link may
still wait for a collective that has ended here, or that passed by: stops go out for the last one on every buffer, and for what
the port has lost. -/
def State.settDown (s : State) (k : Nat) : State :=
  let gone := (s.settLink k).replay ++ (s.settOut.filter fun q => q.1 == k).map Prod.snd
  let s := { s.modSettLink k fun l => { l with up := false, replay := [], sent := 0 } with
    settOut := s.settOut.filter fun q => q.1 != k }
  let s := (s.collectives.map Collective.buf).foldl State.abortSett s
  let ended := (List.range 64).filterMap fun b =>
    let e := s.settEntry b
    if bitAt e.w0 63 && e.gen != 0 && (s.coll? b).isNone then some (b, e.gen, e.pmask) else none
  let passed := (gone.filterMap Flit.lost).eraseDups.filter fun x => (s.coll? x.1).all fun c => c.num != x.2.1
  (ended ++ passed).eraseDups.foldl (fun s x => (List.range 8).foldl (fun s d => s.sendStops x.1 x.2.1 x.2.2 d) s) s
def State.linkDown (s : State) (sett : Bool) (k : Nat) : State := if sett then s.settDown k else s.podDown k

/-- The sending block of a port is stalled (R392). -/
def State.linkStalled (s : State) (sett : Bool) (k : Nat) : Bool := (s.seal ((if sett then 54 else 24) + k)).st == 2

/-- The sender resends from the flit after the last good one: what it has sent since then goes again, and waits with the rest
while the port is stalled. A flit resent sixteen times running takes the link down. -/
def State.resendFrom (s : State) (sett : Bool) (k last : Nat) : State :=
  let s := s.ackLink sett k last
  let l := s.linkOf sett k
  if l.replay.isEmpty ∨ !l.up ∨ l.sent = 0 then s
  else
    let s := s.modLink sett k fun l => { l with sent := 0, resends := l.resends + 1 }
    if 16 ≤ (s.linkOf sett k).resends then s.linkDown sett k
    else if s.linkStalled sett k && !sett then s.markStalled (24 + k) true else s
def execLinkControlReceive (sett : Bool) (port last : Nat) (s : State) : Out := .next (s.resendFrom sett port last)

/-- Flits have been on the wire for 160,000 ck without an `ack`. A stall of the port is no failure of the link (R392). -/
def execLinkAckTimeout (sett : Bool) (port : Nat) (s : State) : Out :=
  let l := s.linkOf sett port
  .next (if l.up ∧ 0 < l.sent ∧ !s.linkStalled sett port ∧ l.since + 160000 ≤ s.ck then s.linkDown sett port else s)

/-- The receiver names the last good number to its sender, with one link-control flit. -/
def State.askAgain (s : State) (sett : Bool) (k : Nat) : State :=
  let c : Bool × Nat × Nat := (sett, k, (s.linkOf sett k).rxSeq)
  let s := s.modLink sett k fun l => { l with asked := true }
  if s.controlOut.contains c then s else { s with controlOut := s.controlOut ++ [c] }

/-! ## Sending a unit (R389, R392) -/

/-- The counter after a unit: a warning at the threshold, a stall at the last value. -/
def State.afterSend (s : State) (j : Nat) : State :=
  let b := s.seal j
  if b.pend then s
  else
    let s := if b.ctr = b.thr then { s with rootAlarms := s.rootAlarms + 1 }.modSeal j fun b => { b with warn := true } else s
    if b.ctr = 0xFFFFFFFFFFFF then (s.markStalled j true).modSeal j fun b => { b with st := 2, stallAt := some s.ck } else s

/-- The device at the other end of a port. -/
def State.portPeer (s : State) (sett : Bool) (k : Nat) : Nat := if sett then s.settPeer (k % 2 == 0) else (s.peerOf k).getD 0

/-- The 256 bytes that a block sends next, with the state once they are gone: on a port a link-control flit, or the next
flit of the replay buffer that has not been sent since the last resend; on the package the link's own transfer unit. -/
def State.nextUnit (s : State) (j payload : Nat) : Option (Nat × State) :=
  match sendingPort j with
  | none => some (payload, s)
  | some (sett, k) =>
    let l := s.linkOf sett k
    if !l.up || (!sett && !s.podEn) then none
    else
      match s.controlOut.find? fun c => c.1 == sett && c.2.1 == k with
      | some c => some (controlNumber s.podDev (s.portPeer sett k) c.2.2, { s with controlOut := eraseFirst (· == c) s.controlOut })
      | none => l.replay[l.sent]?.map fun f => (f.number l.rxSeq, s.modLink sett k fun l =>
          { l with sent := l.sent + 1, since := if l.sent = 0 then s.ck else l.since })

/-- Whether a block can send: it has its link, which is up, and a key, and is not stalled. -/
def State.maySeal (s : State) (j : Nat) : Bool :=
  sealSends j && linkPresent s.part j && (s.seal j).st == 1 && (s.seal j).curS.isSome && (!sealOnPackage j || s.dirUp j)

/-- Seals 256 bytes under the next counter, rolling to the pending key at the threshold, and puts the unit on the wire. -/
def State.emitUnit (s : State) (j plain : Nat) : State :=
  let s := if (s.seal j).thr ≤ (s.seal j).ctr ∧ (s.seal j).pend then s.modSeal j Seal.roll else s
  let b := s.seal j
  let u := sealUnit (b.curS.getD 0) (s.identOf j) b.ctr b.kph plain
  (({ s with wire := s.wire ++ [(j, u)] }.modSeal j fun b => { b with ctr := b.ctr + 1 }).afterSend j)

def execSealedUnitSend (j payload : Nat) (s : State) : Out :=
  if !s.maySeal j then .next s
  else
    match s.nextUnit j payload with
    | some (plain, s') => .next (s'.emitUnit j plain)
    | none => .next s

/-! ## Elements that arrive from peers (R358, R360) -/

def podWrites : PodOp → Bool
  | .load => false
  | _ => true

/-- An enabled window holds all the bytes and admits the source, the world and the access. -/
def windowAdmits (p : Word × Word) (src world pa size : Nat) (writes : Bool) : Bool :=
  bitAt p.1 63 && decide (bits p.1 16 32 * 65536 ≤ pa) && decide (pa + size ≤ bits p.2 16 32 * 65536) &&
    decide (src < 16) && bitAt p.1 src && bits p.2 48 16 == world && (!writes || bitAt p.2 0)

/-- What an operation of a peer leaves in memory and answers. -/
def podEffect (op : PodOp) (size arg aux old : Nat) : Nat × Option Nat :=
  match op with
  | .load => (old, none)
  | .store => (0, some (arg % 2 ^ (8 * size)))
  | .atom k => (old, some (atomNew k old arg))
  | .cas w => (old, if old = aux % 2 ^ awBits w then some (arg % 2 ^ awBits w) else none)
  | .flagAdd => (old, some ((old + arg) % 2 ^ (8 * size)))

/-- Whether an operation answers a value, rather than an acknowledgement. -/
def podReturns : PodOp → Bool
  | .store | .flagAdd => false
  | _ => true

/-- Whether a peer's element may be performed (R360). -/
def State.peerOk (s : State) (src world pa size : Nat) (op : PodOp) : Bool :=
  (s.pwin.toList.any fun p => windowAdmits p src world pa size (podWrites op)) &&
    (decide (pa + size ≤ s.part.hbmBytes) && s.frameOk world pa && s.frameWorld pa == world)

/-- Performs or denies a peer's element, and answers on pod forward. -/
def State.performPeer (s : State) (src tag world pa size : Nat) (op : PodOp) (arg aux : Nat) : State :=
  if !s.peerOk src world pa size op then s.sendFlit src 1 tag .denial
  else if op ≠ .store ∧ s.poisonedAt (.hbm pa) size then s.sendFlit src 1 tag .poisoned
  else
    let x := podEffect op size arg aux (s.hbmRead pa size)
    let s := match x.2 with | some v => s.store (.hbm pa) size v | none => s
    s.sendFlit src 1 tag (if podReturns op then .reply x.1 else .ack)

/-! ## Answers from peers (R358, R360, R362, R400) -/

/-- The element that an answer is for. -/
def State.remoteOf (s : State) (src tag : Nat) : Option Remote := s.remotes.find? fun r => r.dev == src && r.tag % 2 ^ 24 == tag % 2 ^ 24

/-- A poisoned answer: the element has read an uncorrectable error at the peer. -/
def State.poisonRemote (s : State) (r : Remote) : State :=
  let s := { s with remotes := s.remotes.filter fun x => x.tag != r.tag }
  match s.acc? r.tid r.seq with
  | none => s
  | some a =>
    let e := nth .zero a.elems r.idx
    if e.st ≠ .sent then s else (s.modElem r.tid r.seq r.idx fun e => { e with st := .done }).consumePoison r.tid a e

/-- A numbered flit that has come in its turn. -/
def State.deliverFlit (s : State) (f : Flit) : State :=
  match f.body with
  | .fetch world pa size op _ arg aux => s.performPeer f.src f.tag world pa size op arg aux
  | .mailbox payload => { s with mail := s.mail ++ [(f.src, payload)] }
  | body =>
    match s.remoteOf f.src f.tag with
    | none => s
    | some r =>
      match body with
      | .reply v => s.answerRemote r.tid r.seq r.idx (some v)
      | .ack => s.answerRemote r.tid r.seq r.idx (some 0)
      | .denial => s.answerRemote r.tid r.seq r.idx none
      | .poisoned => s.poisonRemote r
      | _ => s

/-! ## End-to-end order (R357) -/

def State.expected (s : State) (src : Nat) : Nat := nth 0 s.eseqRx.toList src

/-- Takes the flits of a source that are next in order from those that came early. -/
def State.takeEarly (s : State) (src : Nat) : Nat → State
  | 0 => s
  | n + 1 =>
    match s.early.find? fun f => f.src == src && f.eseq == s.expected src with
    | none => s
    | some f =>
      let s := { s with
        early := s.early.filter fun x => x != f
        eseqRx := Vector.ofFn fun i => if i.val = src then (f.eseq + 1) % 65536 else s.eseqRx[i] }
      (s.deliverFlit f).takeEarly src n

/-- A flit for this device: in its order, early, or a second time. -/
def State.acceptFlit (s : State) (f : Flit) : State :=
  let ahead := (f.eseq + 65536 - s.expected f.src) % 65536
  if 16 ≤ f.src ∨ 65536 ≤ f.eseq ∨ 32768 ≤ ahead ∨ (s.early.any fun r => r.src == f.src && r.eseq == f.eseq) then s
  else ({ s with early := s.early ++ [f] }.takeEarly f.src (s.early.length + 1)).settleAll

def execRemoteElementArrive (src world eseq tag pa size : Nat) (op : PodOp) (args : Nat × Nat) (s : State) : Out :=
  .next (s.acceptFlit ⟨0, eseq, src, s.podDev, 0, false, tag, .fetch world pa size op false args.1 args.2⟩)

/-- A mailbox flit lands in its source's queue. -/
def execMailboxFlit (src payload : Nat) (s : State) : Out := .next { s with mail := s.mail ++ [(src, payload)] }

/-! ## Receiving (R356, R357, R363, R365, R389) -/

/-- An accepted flit of a pod port: for this device, or one that is relayed, which goes on by a direct link or not at
all. -/
def State.podFlit (s : State) (f : Flit) : State :=
  if f.dst = s.podDev then s.acceptFlit f else if f.rly then s.launchFlit f else s
/-- Of a Sett port: it travels on in the direction in which it came; S1 takes what comes from the device before. -/
def State.settFlit (s : State) (k : Nat) (f : Flit) : State := s.settDeliver (k / 2) (k % 2 == 1) f

/-- A port receives a flit: one in order is accepted with its acknowledgement; at a CRC mismatch or a gap the receiver names
the last good number to its sender, and what follows the gap is discarded without more ado. -/
def State.receiveFlit (s : State) (sett : Bool) (k f : Nat) : State :=
  let control : Bool := flitField f 54 2 == 3
  let next := ((s.linkOf sett k).rxSeq + 1) % 65536
  if !(s.linkOf sett k).up then s
  else if !flitOk f then s.askAgain sett k
  else if !control ∧ flitField f 80 16 ≠ next then (if (s.linkOf sett k).asked then s else s.askAgain sett k)
  else if control then s.resendFrom sett k (flitField f 64 16)
  else
    let s := (s.modLink sett k fun l => { l with rxSeq := next, asked := false }).ackLink sett k (flitField f 64 16)
    match flitOf f with
    | none => s
    | some x => if sett then s.settFlit k x else s.podFlit x

/-- An on-package direction: a discarded unit is resent, and sixteen running take it down. -/
def State.modPkgLink (s : State) (j : Nat) (f : Link → Link) : State :=
  { s with pkgLinks := Vector.ofFn fun i => if i.val = j then f s.pkgLinks[i] else s.pkgLinks[i] }
def Link.discarded (l : Link) : Link := { l with resends := l.resends + 1, up := l.up && decide (l.resends + 1 < 16) }

/-- A receiver accepts a unit whose tag verifies under the key of its phase and whose counter is new, and discards the old
key at the first one in a new phase; any other unit is discarded and handled as a CRC mismatch. -/
def Seal.accepts (b : Seal) (u : SealedUnit) (ident : Nat) : Bool :=
  if u.phase = b.rxPh then (b.curR.any fun k => u.verifies k ident) && b.rxCtr.all fun c => decide (c < u.ctr)
  else b.penR.any fun k => u.verifies k ident && (b.lastUnder k).all fun c => decide (c < u.ctr)
def Seal.took (b : Seal) (u : SealedUnit) (sends : Bool) : Seal :=
  if u.phase = b.rxPh then { b with rxCtr := some u.ctr }
  else { b with rxCtr := some u.ctr, rxPh := u.phase, curR := b.penR, penR := none, past := b.notePast, pend := if sends then b.pend else false }
/-- The key of a unit's phase. -/
def Seal.keyFor (b : Seal) (u : SealedUnit) : Nat := (if u.phase = b.rxPh then b.curR else b.penR).getD 0

def execSealedUnitReceive (j cipher tag ctr high : Nat) (s : State) : Out :=
  if !sealReceives j || !linkPresent s.part j then .next s
  else
    let u := sealedUnitFrom cipher tag ctr high
    let b := s.seal j
    if !b.accepts u (s.identOf j) then
      let s := s.modSeal j fun b => { b with afail := true }
      .next (match receivingPort j with
        | some (sett, k) => s.askAgain sett k
        | none => s.modPkgLink j Link.discarded)
    else
      let s := s.modSeal j fun b => b.took u (sealSends j)
      .next (match receivingPort j with
        | some (sett, k) => s.receiveFlit sett k (u.plain (b.keyFor u) (s.identOf j))
        | none => s.modPkgLink j fun l => { l with resends := 0 })

/-! ## Timeouts (R362, R392) -/

/-- Contexts with an element that is queued on a pod port or held by it. -/
def State.ctxsAt (s : State) (k : Nat) : List Nat := ((s.remotes.filter fun r => r.stalled && s.byPort k r).map Remote.ctx).eraseDups

/-- A stall of 10 ms. -/
def execSealStallTimeout (j : Nat) (s : State) : Out :=
  let b := s.seal j
  let due : Bool := b.st == 2 && match b.stallAt with | some t => decide (t + 16000000 ≤ s.ck) | none => false
  if !due then .next s
  else
    let s := s.modSeal j fun b => { b with stallAt := none }
    if j < 8 then .next (s.machineCheck (j / 2) (mcOf s 0 6 (j / 2) 3 4))
    else if j < 24 then .next (s.machineCheck ((j - 8) / 4) (mcOf s 0 6 ((j - 8) / 2) 3 4))
    else if j < 39 then .next ((s.ctxsAt (j - 24)).foldl (fun s c => s.contextDies c 0x0D) s)
    else
      let ctxs := (s.collectives.map Collective.ctx).eraseDups
      .next (ctxs.foldl (fun s c => s.contextDies c 0x0D) (s.settDown (j - 54)))

/-- A remote element unanswered for 2 ms kills its context; it counts as answered with zero. -/
def execRemoteTimeout (tag : Nat) (s : State) : Out :=
  match s.remotes.find? fun r => r.tag == tag with
  | none => .next s
  | some r =>
    if r.timer < 3200000 then .next s
    else
      let s := { s with remotes := s.remotes.filter fun x => x.tag != tag }
      let s := s.modElem r.tid r.seq r.idx fun e => { e with got := 0, st := .done }
      .next (s.contextDies r.ctx 0x0D)

end Sys2Proof.Machine
end

