-- ==== Sys2Proof/Machine/Ownership.lean ====
section
/-! DEFINITION. Changes of frame ownership (R383 to R386, R418). -/
namespace Sys2Proof.Machine
open Sys2Proof

def ownAddr (page : Nat) : Nat := controlBase + 0x1000000000 + 0x1000 * page

/-- Frames of HBM. -/
def State.frameCount (s : State) : Nat := s.part.hbmBytes / 65536
/-- Writes the ownership entry of a frame. -/
def State.setFrame (s : State) (f world state : Nat) : State :=
  s.hbmWrite (s.fotbase.toNat + 4 * f) (leBytes 4 (world * 65536 + state * 16384))
def State.entryWorld (s : State) (f : Nat) : Nat := s.frameWorld (65536 * f)
def State.entryState (s : State) (f : Nat) : Nat := s.frameState (65536 * f)

/-- Status 1 in progress, 2 complete, 3 refused, of a page's `fotcmd`. -/
def State.setFotst (s : State) (page n : Nat) : State := { s with fotst := keySet s.fotst page n }

/-- A world reaches its own ownership page, and so does the root core. -/
def reachesOwn (who : Agent) (page : Nat) : Bool :=
  decide (page < 65536) && match who with
    | .gp w => w == page
    | .root => true

/-- Step 1 of a change: the frames are in transition. -/
def State.beginChange (s : State) (page : Nat) (frames : List Nat) (world state : Nat) (wipe : Bool) : State :=
  let was := frames.map s.entryState
  let s := frames.foldl (fun s f => s.setFrame f (s.entryWorld f) 3) s
  let c : OwnerChange := ⟨page, frames, was, world, state, wipe⟩
  { s with changes := s.changes ++ [c] }.setFotst page 1

/-- A command over a range: refused where a frame does not exist or is not as the command asks, or where its issuer may
not give it. -/
def State.rangeCommand (s : State) (page : Nat) (may : Bool) (w0 w1 w2 : Word) (from_ : Nat → Bool) (world state : Nat)
    (wipe : Bool) : State :=
  let frames := (List.range w2.toNat).map (w1.toNat + ·)
  if may && bits w0 16 44 == 0 && decide (w1.toNat + w2.toNat ≤ s.frameCount) && frames.all from_ then
    s.beginChange page frames world state wipe
  else s.setFotst page 3

def cmdWorld (w0 : Word) : Nat := bits w0 0 16
def isGp : Agent → Bool
  | .gp _ => true
  | .root => false

def State.assignFrames (s : State) (who : Agent) (page : Nat) (w0 w1 w2 : Word) : State :=
  s.rangeCommand page (isGp who && page == 0) w0 w1 w2 (fun f => s.entryState f == 0 && s.entryWorld f != 0xFFFF) (cmdWorld w0) 1 true
def State.shareFrames (s : State) (who : Agent) (page : Nat) (w0 w1 w2 : Word) : State :=
  s.rangeCommand page (isGp who) w0 w1 w2 (fun f => s.entryState f == 1 && s.entryWorld f == page) page 2 false
def State.unshareFrames (s : State) (who : Agent) (page : Nat) (w0 w1 w2 : Word) : State :=
  s.rangeCommand page (isGp who) w0 w1 w2 (fun f => s.entryState f == 2 && s.entryWorld f == page) page 1 false
def State.reclaimFrames (s : State) (page : Nat) (w0 w1 w2 : Word) : State :=
  s.rangeCommand page true w0 w1 w2 (fun f => (s.entryState f == 1 || s.entryState f == 2) && s.entryWorld f == page) 0 0 true

/-- Every context of a world is killed, and all its frames are reclaimed. -/
def State.destroyWorld (s : State) (who : Agent) (page : Nat) (w0 : Word) : State :=
  let w := cmdWorld w0
  if isGp who && bits w0 16 44 == 0 && (page == 0 || w == page) then
    let ctxs := if s.ctxbase = 0 then [] else (s.tableEntries s.ctxbase.toNat 64 65536).filter fun n =>
      s.ctxWorld n == w && (s.ctxState n == 1 || s.ctxState n == 2)
    let s := ctxs.foldl (fun s n => s.contextDies n 0) s
    let frames := (s.tableEntries s.fotbase.toNat 4 s.frameCount).filter fun f =>
      s.entryWorld f == w && (s.entryState f == 1 || s.entryState f == 2)
    s.beginChange page frames 0 0 true
  else s.setFotst page 3

/-- A write of `fotcmd` that asks for operation `op`. -/
def fotcmdOf (op : Nat) (who : Agent) (page : Nat) (w0 : Word) (f : State → State) (s : State) : Out :=
  .next (if bits w0 60 4 = op then reachWrite who (reachesOwn who page) (ownAddr page) f s else s)

def execAssign (who : Agent) (page : Nat) (w0 w1 w2 : Word) (s : State) : Out :=
  fotcmdOf 1 who page w0 (fun s => s.assignFrames who page w0 w1 w2) s
def execShare (who : Agent) (page : Nat) (w0 w1 w2 : Word) (s : State) : Out :=
  fotcmdOf 2 who page w0 (fun s => s.shareFrames who page w0 w1 w2) s
def execUnshare (who : Agent) (page : Nat) (w0 w1 w2 : Word) (s : State) : Out :=
  fotcmdOf 3 who page w0 (fun s => s.unshareFrames who page w0 w1 w2) s
def execReclaim (who : Agent) (page : Nat) (w0 w1 w2 : Word) (s : State) : Out :=
  fotcmdOf 4 who page w0 (fun s => s.reclaimFrames page w0 w1 w2) s
def execDestroy (who : Agent) (page : Nat) (w0 _w1 _w2 : Word) (s : State) : Out :=
  fotcmdOf 5 who page w0 (fun s => s.destroyWorld who page w0) s

/-- Any write of `fotcmd`. -/
def State.ownCommand (s : State) (who : Agent) (page : Nat) (w0 w1 w2 : Word) : State :=
  match bits w0 60 4 with
  | 1 => s.assignFrames who page w0 w1 w2
  | 2 => s.shareFrames who page w0 w1 w2
  | 3 => s.unshareFrames who page w0 w1 w2
  | 4 => s.reclaimFrames page w0 w1 w2
  | 5 => s.destroyWorld who page w0
  | _ => s.setFotst page 3

/-! ## Steps 2 to 5 -/

/-- Wipes a frame: zero bytes, and no poison (R411). -/
def State.wipeFrame (s : State) (f : Nat) : State :=
  let inside (pa : Nat) : Bool := pa / 65536 == f
  { s with
    hbm := s.hbm.filter fun x => !inside x.1
    poison := s.poison.filter fun p => match p with | .line n => !inside (64 * n) | .replica _ n => !inside (64 * n) | _ => true }

/-- Whether `n` bytes of a place lie in one of some frames; those of a replicated page lie in every replica. -/
def State.placedIn (s : State) (fs : List Nat) (tgt : Option Target) (kind : PageKind) (n : Nat) : Bool :=
  let hit (a : Nat) : Bool := fs.any fun f => decide (a < 65536 * f + 65536) && decide (65536 * f < a + n)
  match tgt, kind with
  | some (.hbm pa), .replicated _ => (List.range s.part.dies).any fun d => hit (s.replicaAt d pa)
  | some (.hbm pa), _ => hit pa
  | _, _ => false

/-- An element or a combining entry that was translated into one of the frames and is not performed. -/
def State.laggingIn (s : State) (fs : List Nat) (t : Team) : Bool :=
  t.accs.any (fun a => a.elems.any fun e => !e.performed && s.placedIn fs e.tgt e.kind e.size) ||
    (s.combOf t).any fun c => c.tid == t.tid && c.dev == 16 && fs.contains (c.line * 64 / 65536)
/-- An update of a replicated page in one of the frames that some die has not applied. -/
def State.seriesIn (s : State) (fs : List Nat) : Bool :=
  s.dies.any fun d => d.series.any fun m => s.placedIn fs (some (.hbm m.pa)) (.replicated 0) m.bytes.length

/-- Caches drop the frames; what was translated into them is performed, and the words of parked instructions are held in
the fault buffer, to be translated afresh when the device OS replays them (R385 step 3). Whether nothing is left. -/
def State.dropFrames (s : State) (fs : List Nat) : State × Bool :=
  let keep (e : Tlb) : Bool := !s.placedIn fs (some (.hbm (bits e.pte 8 40 * 256))) (leafKind e.pte) e.size
  let s : State := { s with
    clusters := s.clusters.map fun c => { c with tlb := c.tlb.filter keep }
    walked := s.walked.filter keep }
  let s := ((s.teams.filter (s.laggingIn fs)).map Team.tid).foldl State.forceAll s
  let s := if s.seriesIn fs then s.applyAllMulti else s
  let s := s.dropWords (fun _ r => s.placedIn fs r.tgt r.kind 8) false
  (s, (s.teams.all fun t => !s.laggingIn fs t) && !s.seriesIn fs)

/-- A change completes once nothing translated under the old state is left; then its frames are wiped if it asks so, and
the new state is written. -/
def execOwnershipChangeComplete (n : Nat) (s : State) : Out :=
  match s.changes[n]? with
  | none => .next s
  | some c =>
    let p := s.dropFrames c.frames
    if !p.2 then .next p.1.settleAll
    else
      let s := if c.wipe then c.frames.foldl State.wipeFrame p.1 else p.1
      let s := c.frames.foldl (fun s f => s.setFrame f c.world c.state) s
      .next ({ s with changes := s.changes.take n ++ s.changes.drop (n + 1) }.setFotst c.page 2).settleAll

end Sys2Proof.Machine
end

