-- ==== Sys2Proof/Machine/Boot.lean ====
section
/-! DEFINITION. Reset and the boot chain, measurement slots, the life cycle, and the host's registers and windows (R411 to
R417, R419, R420). -/
namespace Sys2Proof.Machine
open Sys2Proof

/-! ## Measurement slots (R414) -/

/-- A slot after an extension by a digest. -/
def extended (slot : BitVec 512) (digest : Nat) : BitVec 512 := Config.sha512 (leBytes 64 slot.toNat ++ leBytes 64 digest)
/-- Extends slot n, 1 to 16. -/
def State.extendSlot (s : State) (n digest : Nat) : State :=
  { s with slots := Vector.ofFn fun i => if i.val + 1 = n then extended s.slots[i] digest else s.slots[i] }

/-- The device OS may extend slots 5 to 16 only. -/
def execMeasurementExtend (slot digest : Nat) (s : State) : Out :=
  .next (if 5 ≤ slot ∧ slot ≤ 16 then s.extendSlot slot digest else s)

/-! ## Images (R412, R413) -/

def FlashImage.at_ (f : FlashImage) (o n : Nat) : List Byte := ((f.header.drop o).take n)
def FlashImage.num (f : FlashImage) (o n : Nat) : Nat := leNat (f.at_ o n)
def FlashImage.length (f : FlashImage) : Nat := f.num 0x0C 4
def FlashImage.bytes (f : FlashImage) : List Byte := (List.range f.length).map (cellGet f.payload)

/-- The fused hash under which images are accepted. -/
def Fuses.imageKey (f : Fuses) : Nat :=
  match f.lcs with
  | 0 => f.keyMfg
  | 1 => f.keyDev
  | _ => f.keyProd

/-- The code of the first check that an image of a kind fails; 0 for none. -/
def imageCheck (fu : Fuses) (kind : Nat) (f : FlashImage) : Nat :=
  let n := f.length
  if !f.readable then 6
  else if f.num 0 4 ≠ 0x5A4C4249 ∨ f.num 4 1 ≠ 1 ∨ f.num 5 1 ≠ kind ∨ n % 4096 ≠ 0 ∨ n < 4096 ∨ 67108864 < n then 1
  else if (Config.sha512 (f.at_ 0x60 32)).toNat ≠ fu.imageKey then 2
  else if f.num 8 4 < (if kind = 1 then fu.floorRoot else fu.floorOs) then 3
  else if !Config.ed25519 (f.at_ 0x60 32) (f.at_ 0x80 64) (f.at_ 0 0x80) then 4
  else if (Config.sha512 f.bytes).toNat ≠ f.num 0x20 64 then 5
  else 0
/-- The digest that an image extends a slot by. -/
def FlashImage.digest (f : FlashImage) : Nat := (Config.sha512 (f.at_ 0 0xC0)).toNat
/-- Where an image is entered. -/
def FlashImage.entry (f : FlashImage) : Nat := f.num 0x18 8

/-- Tries the image at a place of the flash, then its backup; the code of the backup's failure. -/
def State.bootImage (s : State) (kind place : Nat) : Except Nat FlashImage :=
  let a := nth .blank s.flash.toList place
  let b := nth .blank s.flash.toList (place + 1)
  if imageCheck s.fuses kind a = 0 then .ok a
  else if imageCheck s.fuses kind b = 0 then .ok b else .error (imageCheck s.fuses kind b)

/-! ## The chain (R412) -/

def State.stopBoot (s : State) (err : Nat) : State := { s with boot := .stopped, hbErr := err }

def partCode : Part → Nat
  | .zlx40 => 0x28 | .zlx20 => 0x14

/-- Step 1: the part, the fuse configuration and the life-cycle state. -/
def State.bootRom (s : State) : State :=
  if s.fuses.lcs = 4 then s.stopBoot 8
  else
    let f := s.fuses
    { s.extendSlot 1 (Config.sha512 (leBytes 1 (partCode s.part) ++ leBytes 64 f.keyMfg ++ leBytes 64 f.keyDev ++
        leBytes 64 f.keyProd ++ leBytes 4 f.floorRoot ++ leBytes 4 f.floorOs ++ leBytes 1 f.rma ++ leBytes 1 f.lcs)).toNat with
      boot := .romRun }
/-- Step 2: the root firmware, which is entered; the root core serves from here on (R416). -/
def State.bootRoot (s : State) : State :=
  match s.bootImage 1 0 with
  | .error e => s.stopBoot e
  | .ok f => { s.extendSlot 2 f.digest with boot := .rootRun, rootUp := true, root := { s.root with pc := some f.entry } }

/-- A seal block of an on-package link that the part has, with the key that the root core generates for it (R391, R412). -/
def State.packageKey (s : State) (b : Seal) (j : Nat) : Seal :=
  if j < 24 ∧ linkPresent s.part j then
    { b with curS := some (Config.derivedKey (s.freeCtr + j)), curR := some (Config.derivedKey (s.freeCtr + j)), st := 1 }
  else b

/-- The save key of a world: generated, or a test key in the MANUFACTURE state (R382, R419). -/
def State.newSaveKey (s : State) (w : Nat) : Nat := if s.fuses.lcs = 0 then Config.testKey w else Config.derivedKey s.freeCtr

/-- Step 3: keys of the on-package links, and of world 0, the frame ownership table, `podcfg`. -/
def State.bootKeys (s : State) : State :=
  let base := masked (Config.bootFotbase s.freeCtr) [(16, 32)]
  let s := { s with
    seals := Vector.ofFn fun i => s.packageKey s.seals[i] i.val
    fotbase := base
    freeCtr := s.freeCtr + 24 }
  let s := { s with osKey := s.newSaveKey 0 }.drawFree
  let s := s.writePodcfg (Config.bootPodcfg s.freeCtr)
  (List.range (ceilDiv (4 * s.frameCount) 65536)).foldl (fun s i => s.setFrame (base.toNat / 65536 + i) 0xFFFF 1) s

/-- Steps 3 to 5: the device OS in frames of world 0, and its start on every hart at the entry of the image. -/
def State.bootOs (s : State) : State :=
  let s := s.bootKeys
  match s.bootImage 2 2 with
  | .error e => s.stopBoot e
  | .ok f =>
    let a := f.num 0x10 8
    let s := s.extendSlot 3 f.digest
    let s := (List.range (ceilDiv (a % 65536 + f.length) 65536)).foldl (fun s i => s.setFrame (a / 65536 + i) 0 1) s
    { s.hbmWrite a f.bytes with
      boot := .osStarting
      harts := s.harts.map fun h => { h with world := 0, pc := some f.entry } }

/-- The wipe has completed and been recorded, or a step of the chain has: the root core proceeds with the next. -/
def execWipeComplete (s : State) : Out :=
  .next (match s.boot with
    | .wiping => s.bootRom
    | .romRun => s.bootRoot
    | .rootRun => s.bootOs
    | _ => s)

/-- The wipe fails, and with it the chain (R415). -/
def State.wipeFailed (s : State) : State := if s.boot = .wiping then s.stopBoot 7 else s
/-- The device OS sets stage 4. -/
def State.setRunning (s : State) : State := if s.boot = .osStarting then { s with boot := .running } else s

/-- A reset: what fuses and flash hold stays, with the turns of agents outside and the model's own counter. -/
def State.restart (s : State) (fuses : Fuses) : State :=
  { State.resetOf s.part fuses s.flash with agenda := s.agenda, freeCtr := s.freeCtr }
def execReset (s : State) : Out := .next (s.restart s.fuses)

/-! ## Host status and endpoint (R415 to R417) -/

def bootStage : BootSt → Nat
  | .wiping => 0 | .romRun => 1 | .rootRun => 2 | .osStarting => 3 | .running => 4 | .stopped => 15
/-- `hbst`. -/
def State.hbst (s : State) : Word :=
  word (s.hbErr * 2 ^ 40 + s.fuses.lcs * 2 ^ 32 + partCode s.part * 2 ^ 16 + bootStage s.boot)

/-- What a read of BAR0 returns: `hbst`, a doorbell, or zero where nothing lies. Nothing writes `hbst`. -/
def State.bar0 (s : State) (off : Nat) : Word :=
  if off = 0 then s.hbst else if off = 0x100 then s.hdbin else if off = 0x108 then s.hdbout else 0
def State.readBar0 (s : State) (off : Nat) : State := { s with hostOut := s.hostOut ++ [.read off (s.bar0 off).toNat] }

/-- Whether the host memory windows may access the frame of an address (R384). -/
def State.hostOk (s : State) (pa : Nat) : Bool :=
  decide (pa < s.part.hbmBytes) && s.frameWorld pa != 0xFFFF && (s.frameState pa == 0 || s.frameState pa == 2)

/-- An access through BAR2: a read, or a write of `data`. -/
def execHostBar2Access (off size : Nat) (data : Option Nat) (s : State) : Out :=
  let answer (r : HostReply) (s : State) : Out := .next { s with hostOut := s.hostOut ++ [r] }
  if s.boot ≠ .running then answer (.unsupported off) s
  else
    let w := nth 0 s.hwin.toList (off / 2 ^ 36)
    let pa := bits w 16 32 * 65536 + off % 2 ^ 36
    let ok := bitAt w 63 && decide (off < 2 ^ 38) && decide (0 < size) && (pagePieces pa size).all fun p => s.hostOk p.1
    match data with
    | none =>
      answer (.read off (if ok && !s.poisonedAt (.hbm pa) size then s.hbmRead pa size else 2 ^ (8 * size) - 1)) s
    | some v =>
      if ok && bitAt w 62 then
        match answer (.written off) (s.store (.hbm pa) size (v % 2 ^ (8 * size))) with
        | .next s => .next s.settleAll
        | o => o
      else answer (.written off) s

/-! ## Life cycle (R419, R420) -/

/-- Transitions that the fuses still allow. -/
def lcsAllowed (f : Fuses) (target : Nat) : Bool :=
  match f.lcs with
  | 0 => target == 1
  | 1 => target == 2
  | 2 => target == 3
  | 3 => (target == 2 && decide (f.rma < 16)) || target == 4
  | _ => false

def Fuses.transition (f : Fuses) (target : Nat) : Fuses :=
  { f with lcs := target, rma := if (f.lcs = 2 ∧ target = 3) ∨ (f.lcs = 3 ∧ target = 2) then f.rma + 1 else f.rma }

/-- Whether the root core's debug port is open (R419). -/
def Fuses.debugOpen (f : Fuses) : Bool := f.lcs == 0 || f.lcs == 1 || f.lcs == 3

def FwSt.isActive : FwSt → Bool
  | .active _ _ _ => true
  | _ => false

/-- A transition with a valid token: the fuses are blown, the device resets, and slot 4 records the new state. The digest of
the record, over the one byte of the state's code, is the model's choice (log 48). -/
def execLifeCycleTransition (target token : Nat) (s : State) : Out :=
  if s.fw.isActive ∨ !Config.tokenValid token ∨ !lcsAllowed s.fuses target then .next s
  else
    let s := s.restart (s.fuses.transition target)
    .next (s.extendSlot 4 (Config.sha512 (leBytes 1 target)).toNat)

end Sys2Proof.Machine
end

