-- ==== Sys2Proof/Machine/Attest.lean ====
section
/-! DEFINITION. The root core as an SPDM responder, topology evidence, and live firmware activation (R393 to R396). -/
namespace Sys2Proof.Machine
open Sys2Proof

/-! ## Serving (R393, R416) -/

/-- The root core answers from step 3 of the boot chain on, after a later step that has stopped the chain too. -/
def State.serves (s : State) : Bool :=
  match s.boot with
  | .rootRun | .osStarting | .running => true
  | .stopped => s.rootUp
  | _ => false

/-- Sends an answer; nothing is sent before the service starts. -/
def spdmAnswer (r : SpdmReply) (s : State) : State := if s.serves then { s with spdmOut := s.spdmOut ++ [r] } else s

/-- Whether a peer has a way in: the host's DOE, or a device of the pod. -/
def State.knows (s : State) (peer : Option Nat) : Bool := peer.all fun d => decide (d < s.podSize)
/-- An answer to a peer that has a way in. -/
def spdmTo (peer : Option Nat) (r : SpdmReply) (s : State) : Out := .next (if s.knows peer then spdmAnswer r s else s)

def execGetVersion (peer : Option Nat) (s : State) : Out := spdmTo peer .version s
def execGetCapabilities (peer : Option Nat) (s : State) : Out := spdmTo peer (.capabilities SpdmCap.all) s
/-- The negotiation: `common` tells whether the requester offers every item that the root core negotiates. -/
def execNegotiateAlgorithms (peer : Option Nat) (common : Bool) (s : State) : Out :=
  if common ∧ s.serves ∧ s.knows peer then
    spdmTo peer (.algorithms SpdmAlg.all) { s with agreed := if s.agreed.contains peer then s.agreed else peer :: s.agreed }
  else spdmTo peer (if common then .algorithms SpdmAlg.all else .errInvalid) s
def execGetDigests (peer : Option Nat) (s : State) : Out := spdmTo peer .digests s
def execGetCertificate (peer : Option Nat) (s : State) : Out := spdmTo peer .certificate s
def execChallenge (peer : Option Nat) (s : State) : Out := spdmTo peer (if s.fw.isActive then .errBusy else .challengeAuth) s
def execUnsupportedRequest (peer : Option Nat) (s : State) : Out := spdmTo peer .errUnsupported s

/-! ## Sessions -/

def State.session? (s : State) (peer : Option Nat) (id : Nat) : Option Session :=
  s.sessions.find? fun x => x.id == id && x.peer == peer
def State.modSession (s : State) (id : Nat) (f : Session → Session) : State :=
  { s with sessions := updWhere (fun x => x.id == id) f s.sessions }

def execKeyExchange (peer : Option Nat) (s : State) : Out :=
  if !s.serves || !s.knows peer then .next s
  else if 16 ≤ s.sessions.length then spdmTo peer .errSessionLimit s
  else
    let x : Session := ⟨s.nextId, peer, false, false, 0, 0⟩
    spdmTo peer (.keyExchange s.nextId) { s with sessions := s.sessions ++ [x], nextId := s.nextId + 1 }

/-- The last message of an exchange, with the hash of the requester's leaf key where it authenticated itself. -/
def execFinish (peer : Option Nat) (session : Nat) (leaf : Option Nat) (s : State) : Out :=
  match s.session? peer session with
  | none => spdmTo peer .errInvalid s
  | some x =>
    if x.established then spdmTo peer .errInvalid s
    else spdmTo peer .finish (s.modSession session fun x =>
      { x with established := true, mutualAuth := leaf.isSome, leaf := leaf.getD 0 })

/-- A message in an established session. -/
def inSession (peer : Option Nat) (session : Nat) (r : SpdmReply) (f : State → State) (s : State) : Out :=
  if (s.session? peer session).any Session.established then spdmTo peer r (f s) else spdmTo peer .errInvalid s

def execHeartbeat (peer : Option Nat) (session : Nat) (s : State) : Out := inSession peer session .heartbeat id s
def execKeyUpdate (peer : Option Nat) (session : Nat) (s : State) : Out :=
  inSession peer session .keyUpdate (fun s => s.modSession session fun x => { x with keyGen := x.keyGen + 1 }) s
def execEndSession (peer : Option Nat) (session : Nat) (s : State) : Out :=
  inSession peer session .endSession (fun s => { s with sessions := s.sessions.filter fun x => x.id != session }) s

/-- The worlds that a session is bound to: mutual authentication by the key whose hash is their owner's. -/
def State.boundWorlds (s : State) (x : Session) : List World :=
  if x.established && x.mutualAuth then s.worlds.filter fun w => w.owner == x.leaf else []

/-! ## Link sessions (R391, R393, R395) -/

def State.authOf (s : State) (port : Nat) : Option LinkAuth := s.linkAuth.find? fun a => a.port == port
/-- The sending and the receiving seal block of a port. -/
def portSends (port : Nat) : Nat := if port < 16 then 24 + port else 54 + (port - 16)
def portReceives (port : Nat) : Nat := if port < 16 then 39 + port else 70 + (port - 16)
/-- Whether a port has a device at its other end. -/
def State.portJoined (s : State) (port : Nat) : Bool :=
  if port < 16 then (s.peerOf port).isSome else decide (port < 32) && s.part.full && decide (1 < s.podSize)

/-- A request to the device at a port's other end. -/
def State.linkRequest (s : State) (port : Nat) (r : SpdmRequest) : State :=
  if s.serves && s.portJoined port then { s with spdmReqs := s.spdmReqs ++ [(port, r)] } else s

/-- Loads the key of a block that a session's secret gives: the current one where the block has none, else the pending
one. -/
def State.loadDerived (s : State) (secret j : Nat) (sends : Bool) : State :=
  let key := Config.linkKey secret (s.identOf j)
  let has : Bool := if sends then (s.seal j).curS.isSome else (s.seal j).curR.isSome
  s.loadKey j ((if sends then 0 else 2) + b2n has) key

/-- The link session of a port has ended. One that authenticates the peer gives the key of each direction; the receiving end's
is loaded first (R391). -/
def State.linkSession (s : State) (port : Nat) (result : Option (Nat × Nat)) : State :=
  if !s.portJoined port then s
  else
    let s := { s with
      authFailed := s.authFailed.filter fun p => p != port
      linkAuth := s.linkAuth.filter fun a => a.port != port }
    match result with
    | none => { s with authFailed := port :: s.authFailed }
    | some r => { s with linkAuth := ⟨port, r.1, r.2 % 2 ^ 512⟩ :: s.linkAuth }.loadDerived r.1 (portReceives port) false
/-- The sending key of a port's session, once the other end has loaded it for receiving. -/
def State.linkKey (s : State) (port : Nat) : State :=
  match s.authOf port with
  | some a => s.loadDerived a.secret (portSends port) true
  | none => s

/-! ## Measurements (R394, R395) -/

/-- One 72-byte entry of topology evidence. -/
def portEntry (kind num state peer peerPort key : Nat) : List Byte :=
  leBytes 1 (kind * 64 + num) ++ leBytes 1 state ++ leBytes 1 peer ++ leBytes 1 peerPort ++ leBytes 4 0 ++
    leBytes 64 (if state = 1 then key else 0)

/-- State of a port: 2 down, 3 where its last link session did not authenticate the peer, 1 where it did, 0 otherwise. -/
def portState (l : Link) (auth : Option LinkAuth) (failed : Bool) : Nat :=
  if !l.up then 2 else if failed then 3 else if auth.isSome then 1 else 0

/-- The pod ports in order, then the Sett ports. -/
def State.topology (s : State) : List Byte :=
  let key (p : Nat) : Nat := ((s.authOf p).map LinkAuth.peerKey).getD 0
  ((List.range s.part.ports).flatMap fun k =>
    portEntry 2 k (match s.peerOf k with | some _ => portState (s.podLink k) (s.authOf k) (s.authFailed.contains k) | none => 0)
      ((s.peerOf k).getD 0) k (key k)) ++
  (if s.part.full then (List.range 16).flatMap fun k =>
      portEntry 3 k (portState (s.settLink k) (s.authOf (16 + k)) (s.authFailed.contains (16 + k)))
        ((s.podDev + (if k % 2 = 0 then 1 else s.podSize - 1)) % s.podSize) (2 * (k / 2) + 1 - k % 2) (key (16 + k))
    else [])

/-- World configuration: world, owner hash, contexts, quota rows. -/
def State.worldBlock (s : State) (w : World) : Nat :=
  let ctxs := if s.ctxbase = 0 then [] else (s.tableEntries s.ctxbase.toNat 64 65536).filter fun n => s.ctxWorld n == w.id && s.ctxState n != 0
  let rows := s.clusters.flatMap fun c => c.quota.toList.filter fun q => bitAt q.1 47 && ctxs.contains (bits q.1 48 16)
  leNat (leBytes 2 w.id ++ leBytes 64 w.owner ++ ctxs.flatMap (leBytes 2) ++ rows.flatMap fun q => wordBytes [q.1, q.2.1, q.2.2])

/-- Measurement blocks by index, for a session bound to some worlds or to none. -/
def State.blocks (s : State) (bound : List World) (i : Nat) : List Nat :=
  if 1 ≤ i ∧ i ≤ 16 then [(nth 0 s.slots.toList (i - 1)).toNat]
  else if i = 0x20 then [leNat s.topology]
  else if i = 0x21 then [(Config.sha512 (leBytes (4 * s.frameCount) (s.hbmRead s.fotbase.toNat (4 * s.frameCount)))).toNat]
  else if i = 0x40 then bound.map s.worldBlock
  else if i = 0x41 then bound.map World.image
  else []

/-- The worlds that a peer's session is bound to. -/
def State.boundTo (s : State) (peer : Option Nat) (session : Nat) : List World :=
  ((s.session? peer session).map s.boundWorlds).getD []

def execGetMeasurements (peer session : Option Nat) (index : Nat) (s : State) : Out :=
  let bound := (session.map (s.boundTo peer)).getD []
  spdmTo peer (if s.fw.isActive then .errBusy
    else match s.blocks bound index with | [] => .errInvalid | l => .measurements (l.map fun v => (index, v))) s

/-- Whether a world's queue lies in a frame that the world owns privately. -/
def State.queueOk (s : State) (w : World) : Bool :=
  decide (w.queueAt < s.part.hbmBytes) && s.frameWorld w.queueAt == w.id && s.frameState w.queueAt == 1
def State.modWorld (s : State) (w : Nat) (f : World → World) : State := { s with worlds := updWhere (fun x => x.id == w) f s.worlds }

/-- A payload to a bound world's queue, answered by the next one that the world has queued. Of several worlds of one owner the
first whose queue can be reached is meant (log 102). -/
def execVendorDefinedRequest (peer : Option Nat) (session payload : Nat) (s : State) : Out :=
  match (s.boundTo peer session).find? s.queueOk with
  | none => spdmTo peer .errInvalid s
  | some w =>
    spdmTo peer (.vendor (w.outbox.headD 0)) (s.modWorld w.id fun x => { x with inbox := x.inbox ++ [payload], outbox := x.outbox.drop 1 })

/-- A world queues a payload for its owner, or takes the next one that has come, where its queue can be reached. -/
def State.worldSend (s : State) (w payload : Nat) : State :=
  if s.worlds.any fun x => x.id == w && s.queueOk x then s.modWorld w fun x => { x with outbox := x.outbox ++ [payload] } else s
def State.worldTake (s : State) (w : Nat) : State :=
  if s.worlds.any fun x => x.id == w && s.queueOk x then s.modWorld w fun x => { x with inbox := x.inbox.drop 1 } else s

/-- The root core creates a world: not 0 or 0xFFFF, not one that exists, and not in the RMA state (R382, R419). -/
def State.createWorld (s : State) (w : World) : State :=
  if w.id = 0 ∨ 0xFFFF ≤ w.id ∨ s.fuses.lcs = 3 ∨ s.worlds.any (fun x => x.id == w.id) then s
  else { s with worlds := s.worlds ++ [{ w with saveKey := s.newSaveKey w.id, inbox := [], outbox := [] }] }.drawFree

/-! ## Live firmware activation (R396) -/

def execFirmwareStage (image : Nat) (s : State) : Out := .next (if s.fw.isActive then s else { s with fw := .staged image })
/-- Activation opens the Busy window; every answer under way has been sent, since answers take no time here. -/
def execFirmwareActivate (s : State) : Out :=
  match s.fw with
  | .staged n => .next { s with fw := .active n s.slots s.ck }
  | _ => .next s
/-- The commit, within 200 ms: slot 2 takes the new firmware's digest. -/
def execFirmwareCommit (s : State) : Out :=
  match s.fw with
  | .active n _ t => .next (if s.ck ≤ t + 320000000 then { s.extendSlot 2 n with fw := .idle } else s)
  | _ => .next s
/-- An abandoned activation: the firmware's slot has its old value, and the Busy window ends. -/
def execFirmwareAbandon (s : State) : Out :=
  match s.fw with
  | .active _ old _ => .next { s with slots := s.slots.set 1 old[1], fw := .idle }
  | .staged _ => .next { s with fw := .idle }
  | .idle => .next s

end Sys2Proof.Machine
end

