-- ==== Sys2Proof/Machine/Control.lean ====
section
/-! DEFINITION. Control transfer, divergence and mask instructions of the uniform set (R91, R97, R99 to R103). -/
namespace Sys2Proof.Machine
open Sys2Proof

/-! ## Shared forms -/

/-- The address `n` words from the head (R97), for an offset of any width. -/
def relTarget (t : Team) {w : Nat} (off : BitVec w) : Word := t.pc + 4 * off.signExtend 64

/-- A taken transfer to `target` with the effect `f` on the team: a target that is not a multiple of 4 traps before
any effect (R97); a backward one ends a tenure whose quantum is spent (R91, R218). -/
def jumpTo (f : Team → Team) (target : Word) (s : State) : Out :=
  if target.toNat % 4 ≠ 0 then trapAt 5 target s
  else
    let s' := s.onCur fun t => { f t with pc := target }
    .next (if target.toNat ≤ s.cur.pc.toNat ∧ s.cur.quantumSpent then s'.yieldTenure else s')

/-- A transfer taken when `c` holds, with the effect `f` either way. -/
def branchIf (c : Bool) (f : Team → Team) (target : Word) (s : State) : Out :=
  if c then jumpTo f target s else teamStep 4 f s

/-- The conditions of `bc` (R97). -/
def bcHolds (c : BcCond) (a b : Word) : Bool :=
  match c with
  | .eq => a == b | .ne => a != b | .lt => a.slt b | .ge => b.sle a | .ltu => a.ult b | .geu => b.ule a

/-! ## Branches and jumps (R97) -/

def execBr (off : BitVec 24) (s : State) : Out := jumpTo id (relTarget s.cur off) s
def execBc (c : BcCond) (a b : USrc) (off : BitVec 9) (s : State) : Out :=
  branchIf (bcHolds c (s.cur.uniSrc a) (s.cur.uniSrc b)) (Team.raise · (s.cur.uniFlags a ||| s.cur.uniFlags b))
    (relTarget s.cur off) s
def execJmp (a : USrc) (s : State) : Out :=
  jumpTo (Team.raise · (s.cur.uniFlags a)) (s.cur.uniSrc a) s
def execRet (a : USrc) (s : State) : Out :=
  jumpTo (Team.raise · (s.cur.uniFlags a)) (s.cur.uniSrc a) s
def execCall (d : SReg) (imm : BitVec 18) (s : State) : Out :=
  jumpTo (Team.uniResult · (some d) (s.cur.pc + 4)) (relTarget s.cur imm) s
def execLoop (a : SReg) (off : BitVec 9) (s : State) : Out :=
  let n := s.cur.uniSrc (.s a) - 1
  branchIf (n != 0) (fun t => (t.raise (s.cur.sFlags a)).uniResult (some a) n) (relTarget s.cur off) s

/-! ## Tenure (R99) -/

/-- `yield` moves past itself and ends the tenure. -/
def execYield (s : State) : Out := .next (s.onCur (Team.advance · 4)).yieldTenure
def execNop (s : State) : Out := teamStep 4 id s

/-! ## Divergence (R93, R100) -/

/-- m0 after a write of `x`, corrected (R39). -/
def Team.setExec (t : Team) (x : Mask) : Team := t.setMask 0 x

def execDvg (m : MReg) (off : BitVec 9) (s : State) : Out :=
  if 16 ≤ s.cur.stack.length then trapAt 0x0A 0x40001 s
  else
    let f (t : Team) : Team := { t with stack := t.exec :: t.stack }.setExec (t.exec &&& t.mask m)
    branchIf ((f s.cur).exec == 0) f (relTarget s.cur off) s
def execFlip (off : BitVec 9) (s : State) : Out :=
  match s.cur.stack with
  | [] => trapAt 0x0A 0x40003 s
  | top :: _ =>
    let f (t : Team) : Team := t.setExec (top &&& ~~~ t.exec)
    branchIf ((f s.cur).exec == 0) f (relTarget s.cur off) s
def execCvg (s : State) : Out :=
  match s.cur.stack with
  | [] => trapAt 0x0A 0x40002 s
  | top :: rest => teamStep 4 (fun t => { t with stack := rest }.setExec top) s
def execBany (m : MReg) (off : BitVec 9) (s : State) : Out :=
  branchIf (summary (s.cur.mask m) != 0) id (relTarget s.cur off) s
def execBnone (m : MReg) (off : BitVec 9) (s : State) : Out :=
  branchIf (summary (s.cur.mask m) == 0) id (relTarget s.cur off) s

/-! ## Mask logic (R102) -/

/-- Writes mask d from two masks. -/
def maskLogic (d : MDst) (a b : MReg) (f : Mask → Mask → Mask) (s : State) : Out :=
  teamStep 4 (fun t => t.setMask d (f (t.mask a) (t.mask b))) s

def execMand (d : MDst) (a b : MReg) (s : State) : Out := maskLogic d a b (· &&& ·) s
def execMor (d : MDst) (a b : MReg) (s : State) : Out := maskLogic d a b (· ||| ·) s
def execMandn (d : MDst) (a b : MReg) (s : State) : Out := maskLogic d a b (fun x y => x &&& ~~~ y) s
def execMxor (d : MDst) (a b : MReg) (s : State) : Out := maskLogic d a b (· ^^^ ·) s
def execMnot (d : MDst) (a : MReg) (s : State) : Out := maskLogic d a a (fun x _ => ~~~ x) s
def execMmov (d : MDst) (a : MReg) (s : State) : Out := maskLogic d a a (fun x _ => x) s

/-! ## Mask readers (R103) -/

/-- Number of lanes set in a mask. -/
def maskCount (x : Mask) : Nat := popCount 1024 x.toNat
/-- Lowest lane set; all ones for an empty mask. -/
def maskFirst (x : Mask) : Word :=
  match lanesOf x with
  | [] => BitVec.allOnes 64
  | i :: _ => word i

def execMcnt (d : SDst) (m : MReg) (s : State) : Out :=
  teamStep 4 (fun t => t.uniResult d (word (maskCount (t.mask m)))) s
def execMfirst (d : SDst) (m : MReg) (s : State) : Out := teamStep 4 (fun t => t.uniResult d (maskFirst (t.mask m))) s
def execMlw (d : SDst) (m : MReg) (k : Fin 32) (s : State) : Out :=
  teamStep 4 (fun t => t.uniResult d (word (laneWord (t.mask m) k))) s

end Sys2Proof.Machine
end

