-- ==== Sys2Proof/Machine/ControlSpace.lean ====
section
/-! DEFINITION. The map of control space: its registers by address, who may read and write them, and what a read or a
write of eight bytes does (R6, R317, R327, R334, R345, R360, R363, R390, R409, R418). -/
namespace Sys2Proof.Machine
open Sys2Proof

/-! ## The map (R418) -/

/-- A register word of control space; `i` is the number of a word of a register of several. -/
inductive CtrlReg where
  | podcfg | lcstart | lctail | lcdone | ctxbase | fotbase | mcbase | scrub | mtcfg
  | trinv (i : Nat)
  | rly (e : Nat)
  | pwin (w i : Nat)
  | rofs (d : Nat)
  | hwin (n : Nat)
  | sett (b i : Nat)
  | lseal (j : Nat)
  | lthr (j : Nat)
  | key (j which i : Nat)
  | fbhead (d : Nat) | fbtail (d : Nat) | frply (d : Nat) | mcw (d : Nat) | mcr (d : Nat) | mcdrop (d : Nat)
  | fault (d n i : Nat)
  | tgmap (c p i : Nat)
  | quota (c r i : Nat)
  | tcmd (n i : Nat) | tcst (n : Nat) | sqr (n : Nat)
  | fotcmd (w i : Nat)
deriving DecidableEq, Repr

/-- A register in the first 64 KiB. -/
def lowReg (o : Nat) : Option CtrlReg :=
  if o = 0 then some .podcfg
  else if o = 0x100 then some .lcstart
  else if o = 0x108 then some .lctail
  else if o = 0x110 then some .lcdone
  else if o = 0x200 then some .ctxbase
  else if o = 0x208 then some .fotbase
  else if o = 0x210 then some .mcbase
  else if 0x300 ≤ o ∧ o < 0x318 then some (.trinv ((o - 0x300) / 8))
  else if 0x400 ≤ o ∧ o < 0x480 then some (.rly ((o - 0x400) / 8))
  else if 0x800 ≤ o ∧ o < 0xC00 then some (.pwin ((o - 0x800) / 16) (o / 8 % 2))
  else if o = 0x1000 then some .scrub
  else if o = 0x1008 then some .mtcfg
  else if 0x1100 ≤ o ∧ o < 0x1120 then some (.rofs ((o - 0x1100) / 8))
  else if 0x1200 ≤ o ∧ o < 0x1220 then some (.hwin ((o - 0x1200) / 8))
  else if 0x2000 ≤ o ∧ o < 0x2800 then some (.sett ((o - 0x2000) / 32) (o / 8 % 4))
  else none

/-- A word of a seal block, of a die block, of a cluster block, of a command page. -/
def sealReg (j o : Nat) : Option CtrlReg :=
  if 86 ≤ j then none
  else if o = 0 then some (.lseal j)
  else if o = 8 then some (.lthr j)
  else if 0x40 ≤ o ∧ o < 0xC0 then some (.key j ((o - 0x40) / 32) (o / 8 % 4))
  else none
def dieReg (d o : Nat) : Option CtrlReg :=
  if o = 0 then some (.fbhead d)
  else if o = 8 then some (.fbtail d)
  else if o = 0x10 then some (.frply d)
  else if o = 0x100 then some (.mcw d)
  else if o = 0x108 then some (.mcr d)
  else if o = 0x110 then some (.mcdrop d)
  else if 0x10000 ≤ o ∧ o < 0x18000 then some (.fault d ((o - 0x10000) / 16) (o / 8 % 2))
  else none
def clusterReg (c o : Nat) : Option CtrlReg :=
  if o < 0x100 then some (.tgmap c (o / 16) (o / 8 % 2))
  else if 0x1000 ≤ o ∧ o < 0x1200 ∧ o / 8 % 4 < 3 then some (.quota c ((o - 0x1000) / 32) (o / 8 % 4))
  else none
def pageReg (n o : Nat) : Option CtrlReg :=
  if o < 0x10 then some (.tcmd n (o / 8))
  else if o = 0x10 then some (.tcst n)
  else if o = 0x18 then some (.sqr n)
  else none

/-- The register at an address; `none` where the map is undefined. -/
def ctrlReg (p : Part) (a : Nat) : Option CtrlReg :=
  let o := a - controlBase
  if a < controlBase ∨ a % 8 ≠ 0 then none
  else if o < 0x4000 then lowReg o
  else if o < 0x1000000 then sealReg ((o - 0x4000) / 256) (o % 256)
  else if o < 0x10000000 then
    let d := (o - 0x1000000) / 0x100000
    if d < p.dies then dieReg d (o % 0x100000) else none
  else if o < 0x20000000 then
    let c := (o - 0x10000000) / 0x10000
    if c < p.clusters then clusterReg c (o % 0x10000) else none
  else if o < 0x30000000 then pageReg ((o - 0x20000000) / 0x1000) (o % 0x1000)
  else if 0x1000000000 ≤ o ∧ o < 0x1010000000 ∧ o % 0x1000 < 0x20 then
    some (.fotcmd ((o - 0x1000000000) / 0x1000) (o % 0x1000 / 8))
  else none

/-! ## Reach (R418) -/

/-- Who may write a register. -/
def State.mayWrite (s : State) (who : Agent) : CtrlReg → Bool
  | .podcfg | .fotbase | .rly _ | .lseal _ | .lthr _ | .key _ _ _ => isRoot who
  | .tcmd n _ | .tcst n | .sqr n => s.reachesPage who n
  | .fotcmd w _ => reachesOwn who w
  | _ => isWorld0 who
/-- Who may read it. -/
def State.mayRead (s : State) (who : Agent) : CtrlReg → Bool
  | .podcfg | .fotbase | .rly _ | .lseal _ | .lthr _ => isRoot who || isWorld0 who
  | .key _ _ _ => isRoot who
  | .tcmd n _ | .tcst n | .sqr n => s.reachesPage who n
  | .fotcmd w _ => reachesOwn who w
  | _ => isWorld0 who

/-! ## Reading -/

/-- `lseal` (R390); a receiving block's counter is the last one accepted. -/
def Seal.word (b : Seal) (sends : Bool) : Word :=
  Sys2Proof.Machine.word (b.st * 2 ^ 62 + b2n b.pend * 2 ^ 61 + b2n (if sends then b.kph else b.rxPh) * 2 ^ 60 + b2n b.warn * 2 ^ 59 +
    b2n b.afail * 2 ^ 58 + (if sends then b.ctr else b.rxCtr.getD 0))

/-- The words of a fault-buffer entry. -/
def FaultEntry.words (e : FaultEntry) : Word × Word :=
  (word (e.ctx % 65536 * 2 ^ 48 + e.va % 2 ^ 48),
    word (e.acc % 4 * 2 ^ 62 + e.req % 64 * 2 ^ 56 + e.unit % 256 * 2 ^ 48 + e.group % 2 ^ 32))

/-- The value of a register. Write-only words read zero. -/
def State.regValue (s : State) : CtrlReg → Word
  | .podcfg => s.podcfg
  | .lcstart => s.lcstart
  | .lctail => s.lctail
  | .lcdone => s.lcdone
  | .ctxbase => s.ctxbase
  | .fotbase => s.fotbase
  | .mcbase => s.mcbase
  | .scrub => s.scrub
  | .mtcfg => s.mtcfg
  | .trinv i => if i = 0 then word (b2n s.trinvDone) else 0
  | .rly e => setBits (nth 0 s.rly.toList e) 0 4 ((s.portsTo e).headD 0)
  | .pwin w i => let p := nth (0, 0) s.pwin.toList w; if i = 0 then p.1 else p.2
  | .rofs d => nth 0 s.rofs.toList d
  | .hwin n => nth 0 s.hwin.toList n
  | .sett b i => let e := s.settEntry b; nth 0 [e.w0, e.w1, e.w2, e.w3] i
  | .lseal j => (s.seal j).word (sealSends j)
  | .lthr j => word (s.seal j).thr
  | .key _ _ _ | .frply _ | .tcmd _ _ => 0
  | .fbhead d => word ((s.die d).fbhead % 2048)
  | .fbtail d => word ((s.die d).fbtail % 2048)
  | .mcw d => word (s.die d).mcw
  | .mcr d => word (s.die d).mcr
  | .mcdrop d => word (s.die d).mcdrop
  | .fault d n i =>
    match findLast? (fun e : FaultEntry => e.idx % 2048 == n) (s.die d).faults with
    | some e => if i = 0 then e.words.1 else e.words.2
    | none => 0
  | .tgmap c p i => let x := (s.cluster c).partition p; if i = 0 then x.1 else x.2
  | .quota c r i => s.quotaWord c r i
  | .tcst n => word (if s.ctxbase = 0 then 1 else keyGet s.tcst n)
  | .sqr n => if s.ctxbase = 0 then 0 else s.descWord n 5
  | .fotcmd w i => if i = 3 then word (keyGet s.fotst w) else 0

/-- A load of eight bytes: the value, or the access fault of its core. -/
def State.controlRead (s : State) (who : Agent) (addr size : Nat) : State × Option Word :=
  match ctrlReg s.part addr with
  | some r => if size = 8 ∧ s.mayRead who r then (s, some (s.regValue r)) else (s.accessFault who addr, none)
  | none => (s.accessFault who addr, none)

/-! ## Writing -/

/-- Words 1 and up of a register wait for word 0; the first three words of a key for its fourth. -/
def State.stage (s : State) (addr : Nat) (v : Word) : State :=
  { s with staged := (addr, v.toNat) :: s.staged.filter fun x => x.1 != addr }
/-- A word of a register as its write of word 0 finds it: staged, or what it held. -/
def State.stagedOr (s : State) (addr : Nat) (old : Word) : Word :=
  match s.staged.find? fun x => x.1 == addr with
  | some x => word x.2
  | none => old
/-- The staged words of a register have taken effect. -/
def State.unstage (s : State) (addr n : Nat) : State :=
  { s with staged := s.staged.filter fun x => !(decide (addr ≤ x.1) && decide (x.1 < addr + 8 * n)) }

/-- Records that waited in their units enter the ring as it has room (R409). -/
def State.enterRecords (s : State) (d : Nat) : Nat → State
  | 0 => s
  | n + 1 =>
    match (s.die d).mcWait with
    | r :: rest =>
      if (s.die d).mcw - (s.die d).mcr < 4096 then
        ((s.modDie d fun x => { x with mcWait := rest }).machineCheck d r).enterRecords d n
      else s
    | [] => s

/-- A relay entry; a destination marked unreachable is a failure for the collectives it takes part in (R363, R372). -/
def State.writeRly (s : State) (e : Nat) (v : Word) : State :=
  let s := { s with rly := Vector.ofFn fun i => if i.val = e then masked v [(14, 2), (4, 4)] else s.rly[i] }
  if bits v 14 2 = 2 then
    ((s.collectives.filter fun k => bitAt (s.settEntry k.buf).w2 (48 + e)).map Collective.buf).foldl (fun s b => s.abortSett b) s
  else s

/-- The root core clears sticky bits of a seal block by writing ones (R390). -/
def Seal.clear (b : Seal) (v : Word) : Seal :=
  { b with warn := b.warn && !bitAt v 59, afail := b.afail && !bitAt v 58 }

/-- A write of a register's word with its effect; read-only words ignore it. -/
def State.writeReg (s : State) (who : Agent) (a : Nat) (v : Word) : CtrlReg → State
  | .podcfg => s.writePodcfg v
  | .lcstart => if s.chainDone = s.chainTail then { s with lcstart := word (bits v 0 48) } else s
  | .lctail => { s with lctail := word (bits v 0 48), lcdone := word s.chainDone }
  | .ctxbase => s.writeCtxbase v
  | .fotbase => { s with fotbase := v }
  | .mcbase => { s with mcbase := v }
  | .scrub => { s with scrub := masked v [(63, 1), (32, 16), (16, 16)] }
  | .mtcfg => s.writeMtcfg v
  | .trinv 0 => (s.writeTrinv v (s.stagedOr (a + 8) 0) (s.stagedOr (a + 16) 0)).unstage a 3
  | .rly e => s.writeRly e v
  | .pwin w 0 =>
    let y := s.stagedOr (a + 8) (nth (0, 0) s.pwin.toList w).2
    let p : Word × Word := (masked v [(63, 1), (16, 32), (0, 16)], masked y [(48, 16), (16, 32), (0, 1)])
    { s with pwin := Vector.ofFn fun i => if i.val = w then p else s.pwin[i] }.unstage a 2
  | .rofs d => { s with rofs := Vector.ofFn fun i => if i.val = d then v else s.rofs[i] }
  | .hwin n => { s with hwin := Vector.ofFn fun i => if i.val = n then masked v [(63, 1), (62, 1), (16, 32)] else s.hwin[i] }
  | .sett b 0 =>
    let e := s.settEntry b
    (s.writeSett b v (s.stagedOr (a + 8) e.w1) (s.stagedOr (a + 16) e.w2) (s.stagedOr (a + 24) e.w3)).unstage a 4
  | .lseal j => s.modSeal j fun b => b.clear v
  | .lthr j => if sealSends j then s.modSeal j fun b => { b with thr := bits v 0 48 } else s
  | .key j k 3 =>
    let w (i : Nat) : Nat := (s.stagedOr (a - 24 + 8 * i) 0).toNat
    (s.loadKey j k (w 0 + w 1 * 2 ^ 64 + w 2 * 2 ^ 128 + v.toNat * 2 ^ 192)).unstage (a - 24) 4
  | .fbhead d => s.consumeFaults d v.toNat
  | .frply d => (s.replayEntry d v.toNat).settleAll
  | .mcr d => (s.modDie d fun x => { x with mcr := v.toNat }).enterRecords d (s.die d).mcWait.length
  | .tgmap c p 0 => (s.writeTgmap c p v (s.stagedOr (a + 8) ((s.cluster c).partition p).2)).unstage a 2
  | .quota c r 0 =>
    (s.writeQuota c r v (s.stagedOr (a + 8) (s.quotaWord c r 1)) (s.stagedOr (a + 16) (s.quotaWord c r 2))).unstage a 3
  | .tcmd n 0 => (s.command n v (s.stagedOr (a + 8) 0)).unstage a 2
  | .sqr n => if s.ctxbase = 0 then s else s.setDescWord n 5 v
  | .fotcmd w 0 => (s.ownCommand who w v (s.stagedOr (a + 8) 0) (s.stagedOr (a + 16) 0)).unstage a 3
  | .fotcmd _ 3 => s
  | .trinv _ | .pwin _ _ | .sett _ _ | .key _ _ _ | .tgmap _ _ _ | .quota _ _ _ | .tcmd _ _ | .fotcmd _ _ => s.stage a v
  | .lcdone | .fbtail _ | .mcw _ | .mcdrop _ | .fault _ _ _ | .tcst _ => s

/-- A store to control space: the access fault of its core for any other size, alignment, address or world. -/
def execRegisterWrite (who : Agent) (addr size : Nat) (v : Word) (s : State) : Out :=
  .next (match ctrlReg s.part addr with
    | some r => if size = 8 ∧ s.mayWrite who r then s.writeReg who addr v r else s.accessFault who addr
    | none => s.accessFault who addr)

end Sys2Proof.Machine
end

