-- ==== Sys2Proof/Machine/CrossLane.lean ====
section
/-! DEFINITION. Cross-lane instructions and ragged walks (R117, R137 to R141). -/
namespace Sys2Proof.Machine
open Sys2Proof

/-! ## Reading another lane (R137) -/

/-- `lane_read`: sub-element `j` of lane `k` at width `w`; zero past the lane count, zero and PZ for a dead lane, EL for
a dead element (R44). -/
def Team.laneRead (t : Team) (w : Nat) (a : LSrc) (k j : Nat) : Nat × FFlags :=
  if t.lanes ≤ k then (0, 0)
  else if t.dead.getLsbD k then (0, flagPZ)
  else (t.sub w a k j, t.srcFlagsAt [k] a)

/-- LL alone of a source, which the instruction names whatever lanes it reads. -/
def Team.latchFlag (t : Team) (a : LSrc) : FFlags := t.srcFlagsAt [] a

/-! ## Gather and scatter (R137, R138) -/

/-- `shfl` and `lget`: `pick` gives the source lane from the own lane and the index. -/
def laneGather (w : IW) (d : VDst) (a b : LSrc) (pick : Nat → Nat → Nat) (s : State) : Out :=
  let n := iwBits w
  teamStep 4 (fun t => t.laneResultF d (t.latchFlag a ||| t.srcFlags b) fun x =>
    subsWith n (64 / n) fun j =>
      let i := t.sub n b x j
      t.laneRead n a (pick x i) (i % 16 % (64 / n))) s

/-- The source lane of `shfl`, which stays within the lane word, and of `lget`. -/
def shflLane (x i : Nat) : Nat := 32 * (x / 32) + i / 16 % 32
def lgetLane (_x i : Nat) : Nat := i / 16

/-- The lanes that a gather reads. -/
def Team.gathered (t : Team) (w : IW) (b : LSrc) (pick : Nat → Nat → Nat) : List Nat :=
  t.activeLanes.flatMap fun x => tabulate (64 / iwBits w) fun j => pick x (t.sub (iwBits w) b x j)

def execShfl (w : IW) (d : VDst) (a b : LSrc) (s : State) : Out := laneGather w d a b shflLane s
def execLget (w : IW) (d : VDst) (a b : LSrc) (s : State) : Out := laneGather w d a b lgetLane s

/-- The source lane of `shfli` (R138). -/
def shfliLane (p : ShflPat) (k x : Nat) : Nat :=
  let base := 32 * (x / 32)
  match p with
  | .xor => base + ((x - base) ^^^ k)
  | .up => if x < base + k then x else x - k
  | .down => if base + 32 ≤ x + k then x else x + k
  | .bcast => base + k

def execShfli (d : VDst) (a : LSrc) (p : ShflPat) (k : BitVec 5) (s : State) : Out :=
  teamStep 4 (fun t => t.laneResultF d (t.latchFlag a) fun x =>
    let r := t.laneRead 64 a (shfliLane p k.toNat x) 0
    (word r.1, r.2)) s

/-- A write of `lput`: target lane, sub-element and value. -/
def Team.lputWrites (t : Team) (n : Nat) (a b : LSrc) : List (Nat × Nat × Nat) :=
  t.activeLanes.flatMap fun x =>
    (List.range (64 / n)).filterMap fun j =>
      let i := t.sub n b x j
      if i / 16 < t.lanes && !t.dead.getLsbD (i / 16) then some (i / 16, i % 16 % (64 / n), t.sub n a x j) else none

/-- The register of lane `k` after the writes, in their order. -/
def lputLane (n : Nat) (ws : List (Nat × Nat × Nat)) (k : Nat) (old : Word) : Word :=
  ws.foldl (fun v p => if p.1 = k then setBits v (p.2.1 * n) n p.2.2 else v) old

/-- Whether the writes cover every sub-element of lane `k`. -/
def lputWhole (n : Nat) (ws : List (Nat × Nat × Nat)) (k : Nat) : Bool :=
  (List.range (64 / n)).all fun j => ws.any fun p => p.1 == k && p.2.1 == j

/-- Active lanes that keep part of their old d, which goes to f0 (R42). -/
def Team.lputKeeps (t : Team) (n : Nat) (ws : List (Nat × Nat × Nat)) : List Nat :=
  t.activeLanes.filter fun x => !lputWhole n ws x

/-- Writes lanes whether or not they are active; f0 holds each active lane's d afterwards (R42), so that what such a lane
keeps of a dead d is read (R44). -/
def execLput (w : IW) (d : VDst) (a b : LSrc) (s : State) : Out :=
  let n := iwBits w
  teamStep 4 (fun t =>
    let ws := t.lputWrites n a b
    let new (k : Nat) := lputLane n ws k (t.old d k)
    let t' := t.raise (t.srcFlags a ||| t.srcFlags b ||| t.srcFlagsAt (t.lputKeeps n ws) (.v (VDst.field d)))
    let t' := match d with
      | some r => t'.writeLanes r (fun k => ws.any (·.1 == k)) new
      | none => t'
    t'.pushLane (tabulate t.lanes fun x => if t.active x then new x else 0)) s

/-! ## Votes (R139) -/

/-- The outcome over the predicates of the active lanes. -/
def voteHolds (v : VoteKind) (l : List Bool) : Bool :=
  match v with
  | .any => l.any id
  | .all => l.all id
  | .eq => l.all id || !l.any id

def execVote (v : VoteKind) (d : MDst) (a : LSrc) (s : State) : Out :=
  teamStep 4 (fun t =>
    let ok := voteHolds v (t.activeLanes.map fun x => t.laneSrc 64 a x != 0)
    (t.raise (t.srcFlags a)).setMask d (if ok then t.exec else 0)) s

/-! ## Reductions and scans (R140) -/

/-- Width in bits of a reduction's elements. -/
def redBits : RedKind → Nat
  | .int _ w => iwBits w
  | .float _ w => fwBits w

/-- One combining step. -/
def combine (k : RedKind) (mode : RMode) (x y : Nat) : Nat × FFlags :=
  match k with
  | .int op w =>
    let n := iwBits w
    (match op with
      | .add => addAt n x y | .min => minAt n x y | .max => maxAt n x y | .minu => minuAt n x y
      | .maxu => maxuAt n x y | .and => x &&& y | .or => x ||| y | .xor => x ^^^ y, 0)
  | .float op w =>
    match op with
    | .fadd => floatAdd (fwFmt w) mode false x y
    | .fmin => floatMinMax (fwFmt w) true x y
    | .fmax => floatMinMax (fwFmt w) false x y

/-- The identity of an operation. -/
def redIdentity : RedKind → Nat
  | .int op w =>
    let n := iwBits w
    match op with
    | .add | .or | .xor | .maxu => 0
    | .and | .minu => 2 ^ n - 1
    | .min => 2 ^ (n - 1) - 1
    | .max => 2 ^ (n - 1)
  | .float op w =>
    match op with
    | .fadd => signCode (fwFmt w) true
    | .fmin => (fwFmt w).infCode
    | .fmax => signCode (fwFmt w) true + (fwFmt w).infCode

/-- Left-to-right combination: for each value, the combination of all up to it, with the flags of its step. `none`
starts anew. The first value of a run has no step: it is handed on bit for bit, a NaN too, and raises nothing, which is the
model's choice (log 107). -/
def prefixes (k : RedKind) (mode : RMode) : Option Nat → List (Nat × Bool) → List (Nat × FFlags)
  | _, [] => []
  | acc, (v, start) :: l =>
    let r := match acc with
      | some c => if start then (v, 0) else combine k mode c v
      | none => (v, 0)
    r :: prefixes k mode (some r.1) l

/-- The last prefix of each value's segment; the second list gives each value's segment start. -/
def segmentEnds : List Nat → List Bool → List Nat
  | [], _ => []
  | [v], _ => [v]
  | v :: l, ss =>
    let r := segmentEnds l ss.tail
    (if ss.tail.headD true then v else r.headD v) :: r

/-- What each instruction of opcode 0x65 gives the active lanes from the values of one sub-element: `whole` for `red`
and `segred`, `shift` for `scan.ex`. -/
def reduceSub (k : RedKind) (mode : RMode) (whole shift : Bool) (vs : List (Nat × Bool)) : List Nat × FFlags :=
  let p := prefixes k mode none vs
  let fl := flagUnion (p.map Prod.snd)
  let c := p.map Prod.fst
  if whole then (segmentEnds c (vs.map Prod.snd), fl)
  else if shift then
    -- the last lane's own value enters no result
    (redIdentity k :: c.dropLast, flagUnion (p.dropLast.map Prod.snd))
  else (c, fl)

/-- A reduction or scan; `seg` gives the lanes that begin a segment after the first. -/
def laneReduce (k : RedKind) (d : VDst) (a : LSrc) (whole shift seg : Bool) (s : State) : Out :=
  let n := redBits k
  teamStep 4 (fun t =>
    let xs := t.activeLanes
    let cols := tabulate (64 / n) fun j =>
      reduceSub k (modeOf t.frm) whole shift (xs.map fun x => (t.sub n a x j, seg && t.m[5].getLsbD x))
    let fl := flagUnion (cols.map Prod.snd)
    (t.raise (t.srcFlags a ||| fl)).laneResult d fun x =>
      fromSubs n (64 / n) fun j => nth 0 (nth ([], 0) cols j).1 (xs.idxOf x)) s

def execRed (k : RedKind) (d : VDst) (a : LSrc) (s : State) : Out := laneReduce k d a true false false s
def execScan (k : RedKind) (d : VDst) (a : LSrc) (s : State) : Out := laneReduce k d a false false false s
def execScanEx (k : RedKind) (d : VDst) (a : LSrc) (s : State) : Out := laneReduce k d a false true false s
def execSegred (k : RedKind) (d : VDst) (a : LSrc) (s : State) : Out := laneReduce k d a true false true s

/-! ## Ragged walks (R141) -/

/-- Row `r`'s value in lane `r`. -/
def Team.rows (t : Team) (a : LSrc) (n : Nat) : List (Nat × FFlags) := tabulate n fun r => t.laneRead 64 a r 0

/-- R: bits 31:0 of the broadcast scalar, at most the lane count. -/
def Team.rowCount (t : Team) (b : BReg) : Nat := min (bits t.s[b.val] 0 32) t.lanes

/-- Running sums of row lengths, modulo 2^64. -/
def runningSums : Nat → List Nat → List Nat
  | _, [] => []
  | acc, v :: l => let c := (acc + v % 4294967296) % 2 ^ 64; c :: runningSums c l

/-- The rows of a walk are read, with EL and the errors found there, whether or not m0 is empty: the model's choice (log 108). -/
def execWalki (d : VDst) (a : LSrc) (b : BReg) (s : State) : Out :=
  teamStep 4 (fun t =>
    let rs := t.rows a (t.rowCount b)
    let e := runningSums 0 (rs.map Prod.fst)
    let fl := flagUnion (rs.map Prod.snd) ||| t.latchFlag a ||| t.latchFlag (.s b)
    { (t.raise fl).laneResult d fun x => word (nth (e.getLastD 0) e x) with pidx := 0 }) s

/-- The element that a lane receives: its value, whether it begins a segment, and the rows read for it. -/
structure Dealt where
  lane : Nat
  value : Word
  start : Bool
  rows : Nat
deriving DecidableEq, Repr

/-- Deals elements from `el` on to the lanes, ascending, while they lie below `total`. -/
def deal (rows : List Nat) (p total : Nat) : Nat → List Nat → List Dealt
  | _, [] => []
  | k, x :: xs =>
    let el := (p + k) % 2 ^ 64
    if el < total then
      match rows.findIdx? fun e => decide (el < e) with
      | some r =>
        let c := wrap 64 ((el : Int) - (if r = 0 then 0 else nth 0 rows (r - 1)))
        ⟨x, word (r * 4294967296 + c % 4294967296), c == 0 || k == 0, r + 1⟩ :: deal rows p total (k + 1) xs
      | none => deal rows p total k xs
    else deal rows p total k xs

/-- What `walk` deals the active lanes. -/
def Team.dealt (t : Team) (a : LSrc) (b : BReg) : List Dealt :=
  let rs := (t.rows a (t.rowCount b)).map Prod.fst
  deal rs t.pidx.toNat (rs.getLastD 0) 0 t.activeLanes

/-- The rows that a deal has searched. -/
def rowsUsed (out : List Dealt) : Nat := out.foldl (fun m e => max m e.rows) 0

/-- Active lanes that the deal leaves without an element: their old d goes to f0. -/
def Team.undealt (t : Team) (out : List Dealt) : List Nat :=
  t.activeLanes.filter fun x => !out.any fun e => e.lane == x

/-- As `execWalki`, its rows are read with m0 empty too (log 108). -/
def execWalk (d : VDst) (a : LSrc) (b : BReg) (s : State) : Out :=
  teamStep 4 (fun t =>
    let rs := t.rows a (t.rowCount b)
    let out := t.dealt a b
    -- lane_read of the last row and of the rows searched raises its flags
    let fl := flagUnion ((rs.take (rowsUsed out)).map Prod.snd) ||| (rs.getLastD (0, 0)).2 ||| t.latchFlag a |||
      t.latchFlag (.s b) ||| t.srcFlagsAt (t.undealt out) (.v (VDst.field d))
    let item (x : Nat) := out.find? fun e => e.lane == x
    let t' := t.raise fl
    let t' := match d with
      | some r => t'.writeLanes r (fun x => (item x).isSome) fun x => ((item x).map Dealt.value).getD 0
      | none => t'
    let t' := t'.pushLane (tabulate t.lanes fun x =>
      if t.active x then ((item x).map Dealt.value).getD (t.old d x) else 0)
    let t' := (t'.setMask 4 (maskOf t.lanes fun x => (item x).isSome)).setMask 5
      (maskOf t.lanes fun x => ((item x).map Dealt.start).getD false)
    { t' with pidx := t.pidx + word out.length }) s

end Sys2Proof.Machine
end

