-- ==== Sys2Proof/Machine/Reliability.lean ====
section
/-! DEFINITION. Faults, scrubbing, audits, probes, fences, machine checks and power (R397 to R410, R422). -/
namespace Sys2Proof.Machine
open Sys2Proof

/-! ## Faults and scrubbing (R397, R399 to R401) -/

/-- The stack that holds a byte: by the page that a context maps there die-local or replicated, and else by its granule
(R249). -/
def State.stackOf (s : State) (pa : Nat) : Nat :=
  let ctxs := if s.ctxbase = 0 then [] else (s.tableEntries s.ctxbase.toNat 64 65536).filter fun n => s.ctxState n != 0
  let leafs := ctxs.flatMap fun n => s.leaves walkLevels (s.ptRoot n)
  let at_ (l : Word × Nat) (a d : Nat) : Option Nat :=
    if decide (a ≤ pa) && decide (pa < a + 2 ^ l.2) then some (2 * d + pa / 4096 % 2) else none
  let die (l : Word × Nat) : Option Nat :=
    let a := bits l.1 8 40 * 256
    if bitAt l.1 51 then none
    else if bits l.1 60 2 = 3 then (List.range s.part.dies).findSome? fun d => at_ l (s.replicaAt d a) d
    else if bits l.1 58 2 = 1 then at_ l a (bits l.1 56 2)
    else none
  (leafs.findSome? die).getD (pa / 4096 % (2 * s.part.dies))

/-- The cluster of a team and of a group. -/
def State.clusterOf (s : State) (tid : Nat) : Nat := (s.team tid).cluster

/-- Die, kind, unit and physical address of the record about a site (R4, R409). -/
def State.siteRecord (s : State) (site : Site) : Nat × Nat × Nat × Nat :=
  let hbm (pa : Nat) : Nat × Nat × Nat × Nat := (s.stackOf pa / 2, 0, s.stackOf pa, pa)
  let unit (kind c : Nat) : Nat × Nat × Nat × Nat := (dieOf c, kind, c, 0)
  let at_ (ctx va : Nat) : Nat × Nat × Nat × Nat := match s.ctxPlace ctx va 0 with
    | .ok pl => hbm pl.tgt.addr
    | .error _ => (0, 0, 0, 0)
  match site with
  | .line n => hbm (64 * n)
  | .replica _ n => hbm (64 * n)
  | .spad c n => (dieOf c, 1, c, 8 * n)
  | .vreg t _ _ | .slot t => unit 2 (s.clusterOf t)
  | .frame t | .frameLane t _ _ => unit 5 (s.clusterOf t)
  | .estate h _ => unit 8 (s.group h).cluster
  | .tag c _ | .taskRec c _ | .staging c => unit 8 c
  | .faultEntry d _ => (d, 8, 0, 0)
  | .icache k _ _ => unit 9 (k / 2)
  | .tcache c _ _ => unit 9 c
  | .datapath k _ | .parity k _ => unit 4 (k / 2)
  | .planting e _ _ | .macro_ e _ => unit 3 (e / 3)
  | .logic e n => if e then unit 3 (n / 3) else unit 4 (n / 2)
  | .rootCore => (0, 8, 0, 0)
  | .saved t => let u := s.team t; at_ (s.group u.group).ctx (s.recordAddr (s.group u.group).ctx u.recordIndex)
  | .image n =>
    let ctx := ((s.engImgs.find? fun i => i.unit == n).map EngineImg.ctx).getD 0
    at_ ctx (s.imageAddr ctx (n / 3) (n % 3))

/-- A record about a site. -/
def State.siteCheck (s : State) (site : Site) (sev how : Nat) : State :=
  let r := s.siteRecord site
  (s.machineCheck r.1 { mcOf s 0 r.2.1 r.2.2.1 sev how with addr := r.2.2.2, det := (Config.freeValue s.freeCtr 64).toNat }).drawFree

/-- A fault begins that the code of its structure does not correct, or that the checks of its unit will find. A root core
that reads its own storage so is a device machine check. -/
def State.faultAt (s : State) (site : Site) : State :=
  match site with
  | .planting e b n =>
    s.modCluster (e / 3) fun c => c.modEngine (e % 3) fun x =>
      match b with
      | 0 => { x with bank0 := { x.bank0 with poison := n :: x.bank0.poison } }
      | 1 => { x with bank1 := { x.bank1 with poison := n :: x.bank1.poison } }
      | _ => { x with accPoison := n :: x.accPoison }
  | .macro_ e p => s.modCluster (e / 3) fun c => c.modEngine (e % 3) fun x => { x with mismatch := true, lasting := x.lasting || p }
  | .logic e n => if s.faulty.contains (e, n) then s else { s with faulty := (e, n) :: s.faulty }
  | .rootCore => s.siteCheck site 3 0
  | _ => s.markPoison site

/-- Whether a site is logic, a latch, or a line of a cache, which no stored code corrects. -/
def siteUncoded : Site → Bool
  | .datapath .. | .macro_ .. | .logic .. | .parity .. | .icache .. | .tcache .. => true
  | _ => false

/-- A soft error that the code corrects changes nothing. -/
def execSingleFault (site : Site) (uncorrectable : Bool) (s : State) : Out :=
  .next (if uncorrectable || siteUncoded site then s.faultAt site else s)

/-- The scrubber reads a line: corrected and written back, or marked poisoned, with a record either way. -/
def execScrubLine (site : Site) (corrected : Bool) (s : State) : Out :=
  if !bitAt s.scrub 63 ∨ siteUncoded site then .next s
  else if corrected then .next (s.siteCheck site 0 0)
  else .next ((s.faultAt site).siteCheck site 1 5)

/-! ## Fences (R402, R403) -/

/-- A fenced core: its quotas leave the rows, and its teams are pre-empted, to be restored on the other core. -/
def State.fenceCore (s : State) (c k : Nat) : State :=
  let drop (w : Word) : Word := masked w []
  let row (q : QuotaRow) : QuotaRow := if k = 0 then (q.1, drop q.2.1, q.2.2) else (q.1, q.2.1, drop q.2.2)
  let s := s.modCluster c fun x =>
    { x.modCore k fun y => { y with fenced := true } with quota := x.quota.map row }
  ((s.teams.filter fun t => t.cluster == c && t.core == k).map Team.tid).foldl State.preemptTeam s

/-- Fences an engine 3c + e or a core 2c + k. -/
def State.fenceUnit (s : State) (engine : Bool) (unit : Nat) : State :=
  if engine then (s.fenceEngine (unit / 3) (unit % 3)).settleEngine (unit / 3) (unit % 3)
  else s.fenceCore (unit / 2) (unit % 2)

/-! ## Audits (R405, R407) -/

def unitCluster (engine : Bool) (unit : Nat) : Nat := if engine then unit / 3 else unit / 2

/-- The next audit of a unit falls due 3,000,000 ck after this one. -/
def State.setDue (s : State) (engine : Bool) (unit : Nat) : State :=
  s.modCluster (unitCluster engine unit) fun c =>
    if engine then c.modEngine (unit % 3) fun e => { e with due := s.ck + 3000000, target := false }
    else c.modCore (unit % 2) fun k => { k with due := s.ck + 3000000, target := false }

def State.dropAudit (s : State) (a : Audit) : State := { s with audits := s.audits.filter fun x => x != a }

/-- Whether the item of an audit has run to its end. -/
def State.itemDone (s : State) (a : Audit) : Bool := a.engine || (s.group? a.item).isNone

/-- The disputed unit is fenced, with a record that names it and the item. -/
def State.convict (s : State) (a : Audit) (unit det : Nat) : State :=
  let c := unitCluster a.engine unit
  (s.machineCheck (dieOf c) { mcOf s a.ctx 7 c 2 2 with det := det, addr := a.item }).fenceUnit a.engine unit

/-- The signature that a replay on a unit forms over some bytes (R405). -/
def State.signature (s : State) (engine : Bool) (unit : Nat) (l : List Byte) : Nat :=
  if s.faulty.contains (engine, unit) then Config.wrongSignature engine unit l else crc64 l
/-- Units that a due time has made the replay targets of the next audit (R406). -/
def State.targets (s : State) (engine : Bool) : List Nat :=
  (List.range s.clusters.length).flatMap fun c =>
    if engine then ((List.range 3).filter fun e => ((s.cluster c).engine e).target).map (3 * c + ·)
    else ((List.range 2).filter fun k => ((s.cluster c).core k).target).map (2 * c + ·)
/-- Whether a unit may replay an item of another cluster: a replay target comes first. -/
def State.mayReplay (s : State) (engine : Bool) (from_ unit : Nat) : Bool :=
  let c (n : Nat) : Nat := unitCluster engine n
  let l := (s.targets engine).filter fun n => c n != c from_
  c unit != c from_ && decide (c unit < s.part.clusters) && (l.isEmpty || l.contains unit)

/-- The low halves of two signatures. -/
def sigPair (x y : Nat) : Nat := x % 2 ^ 32 * 2 ^ 32 + y % 2 ^ 32

/-- A replay that meets a fault of its own: the audit is abandoned and reported. -/
def State.abandonAudit (s : State) (a : Audit) (unit : Nat) : State :=
  let c := unitCluster a.engine unit
  (s.dropAudit a).machineCheck (dieOf c) (mcOf s a.ctx 7 c 0 2)

/-- A replay on a unit of another cluster: dropped if it met a fault of its own, else its signature is compared with the
original's. -/
def execAuditReplayComplete (item unit : Nat) (abandoned : Bool) (s : State) : Out :=
  match s.audits.find? fun a => a.item == item && a.replay.isNone && s.itemDone a with
  | none => .next s
  | some a =>
    if !s.mayReplay a.engine a.unit unit then .next s
    else if abandoned then .next (s.abandonAudit a unit)
    else
      let s := (s.setDue a.engine a.unit).setDue a.engine unit
      if crc64 a.orig = s.signature a.engine unit a.copy then .next (s.dropAudit a)
      else .next { s with audits := s.audits.map fun x => if x = a then { a with replay := some unit } else x }

/-- Whether a third cluster may settle a dispute. -/
def mayArbitrate (p : Part) (a : Audit) (unit : Nat) : Bool :=
  let c (n : Nat) : Nat := unitCluster a.engine n
  c unit != c a.unit && c unit != c (a.replay.getD 0) && decide (c unit < p.clusters)

/-- The third replay of an item: the side that disagrees with it is faulty, the original where all three differ. -/
def execAuditArbitration (item unit : Nat) (s : State) : Out :=
  match s.audits.find? fun a => a.item == item && a.replay.isSome with
  | none => .next s
  | some a =>
    if !mayArbitrate s.part a unit then .next s
    else
      let u := a.replay.getD 0
      let faulty := if s.signature a.engine unit a.copy = crc64 a.orig then u else a.unit
      .next ((s.dropAudit a).convict a faulty (sigPair (crc64 a.orig) (s.signature a.engine u a.copy)))
/-- A third replay that meets a fault of its own. -/
def State.abandonThird (s : State) (item unit : Nat) : State :=
  match s.audits.find? fun a => a.item == item && a.replay.isSome with
  | some a => if mayArbitrate s.part a unit then s.abandonAudit a unit else s
  | none => s

/-! ## The rotation and its probes (R406) -/

def State.unitDue (s : State) (engine : Bool) (unit : Nat) : Nat × Bool :=
  let c := s.cluster (unitCluster engine unit)
  if engine then ((c.engine (unit % 3)).due, (c.engine (unit % 3)).owed) else ((c.core (unit % 2)).due, (c.core (unit % 2)).owed)
/-- A unit owes an item or not; one that comes to owe it is the replay target of the next audit too. -/
def State.setOwed (s : State) (engine : Bool) (unit due : Nat) (owed : Bool) : State :=
  s.modCluster (unitCluster engine unit) fun c =>
    if engine then c.modEngine (unit % 3) fun e => { e with due := due, owed := owed, target := e.target || owed }
    else c.modCore (unit % 2) fun k => { k with due := due, owed := owed, target := k.target || owed }

/-- The due time of a unit passes: the next item to begin on it is sampled. -/
def execAuditDueTime (engine : Bool) (unit : Nat) (s : State) : Out :=
  let d := s.unitDue engine unit
  .next (if bitAt s.mtcfg 63 ∧ d.1 ≤ s.ck ∧ !d.2 ∧ unitCluster engine unit < s.part.clusters
    then s.setOwed engine unit (d.1 + 3000000) true else s)

/-- No auditable item began within 100,000 ck. -/
def execProbeStart (engine : Bool) (unit : Nat) (s : State) : Out :=
  let d := s.unitDue engine unit
  .next (if d.2 ∧ d.1 + 100000 ≤ s.ck + 3000000 then
      { s.setOwed engine unit d.1 false with probes := s.probes ++ [(engine, unit)] }
    else s)

/-- What a probe's record names: no context and no item. -/
def Audit.probe : Audit := ⟨true, 0, 0, 0, none, [], 0, 0, [], [], none, none⟩
/-- A probe's signature against that of the same probe on another cluster, and, where they differ, a third. -/
def execProbeComplete (engine : Bool) (unit other third : Nat) (s : State) : Out :=
  let c (n : Nat) : Nat := unitCluster engine n
  if !s.probes.contains (engine, unit) ∨ c unit = c other ∨ c third = c unit ∨ c third = c other then .next s
  else
    let s := { s with probes := s.probes.filter fun p => p != (engine, unit) }
    let s := (s.setDue engine unit).setDue engine other
    let x := s.signature engine unit (Config.probeBytes engine)
    let y := s.signature engine other (Config.probeBytes engine)
    if x = y then .next s
    else
      let faulty : Nat := if s.signature engine third (Config.probeBytes engine) = x then other else unit
      .next (s.convict { Audit.probe with engine := engine } faulty (sigPair x y))

/-! ## Machine checks and the envelope (R409, R422) -/

def execMachineCheckRecord (d addr det ctx kind unit sev how : Nat) (s : State) : Out :=
  .next (if d < s.part.dies then s.machineCheck d { mcOf s ctx kind unit (sev % 4) how with addr := addr, det := det } else s)
def execDeviceMachineCheck (d kind unit how : Nat) (s : State) : Out := .next (s.machineCheck d (mcOf s 0 kind unit 3 how))

/-- Average power against the design power: the cut holds until it falls below. -/
def execPowerWindow (above : Bool) (s : State) : Out := .next { s with powerCut := above }
/-- Overtemperature, or a supply out of its range for 1 ms. The spec names no die for the module's envelope: die 0 reports it
(log 104). -/
def execEnvelopeBreach (_hot : Bool) (s : State) : Out := .next (s.machineCheck 0 (mcOf s 0 10 0 3 7))

end Sys2Proof.Machine
end

