-- ==== Sys2Proof/Machine/Dispatch.lean ====
section
/-! DEFINITION. Which meaning an instruction or a device event has. -/
namespace Sys2Proof.Machine
open Sys2Proof

def exec (i : Instr) (s : State) : Host.Outcome State Fault Refusal :=
  match i with
  | .add w d a b => Sys2Proof.Machine.execAdd w d a b s
  | .sub w d a b => Sys2Proof.Machine.execSub w d a b s
  | .addSat w d a b => Sys2Proof.Machine.execAddSat w d a b s
  | .addSatu w d a b => Sys2Proof.Machine.execAddSatu w d a b s
  | .subSat w d a b => Sys2Proof.Machine.execSubSat w d a b s
  | .subSatu w d a b => Sys2Proof.Machine.execSubSatu w d a b s
  | .mul w d a b => Sys2Proof.Machine.execMul w d a b s
  | .mulh w d a b => Sys2Proof.Machine.execMulh w d a b s
  | .mulhu w d a b => Sys2Proof.Machine.execMulhu w d a b s
  | .mad w d a b => Sys2Proof.Machine.execMad w d a b s
  | .addc m d a b => Sys2Proof.Machine.execAddc m d a b s
  | .subb m d a b => Sys2Proof.Machine.execSubb m d a b s
  | .min w d a b => Sys2Proof.Machine.execMin w d a b s
  | .minu w d a b => Sys2Proof.Machine.execMinu w d a b s
  | .max w d a b => Sys2Proof.Machine.execMax w d a b s
  | .maxu w d a b => Sys2Proof.Machine.execMaxu w d a b s
  | .abs w d a => Sys2Proof.Machine.execAbs w d a s
  | .and w d a b => Sys2Proof.Machine.execAnd w d a b s
  | .or w d a b => Sys2Proof.Machine.execOr w d a b s
  | .xor w d a b => Sys2Proof.Machine.execXor w d a b s
  | .shl w d a b => Sys2Proof.Machine.execShl w d a b s
  | .shr w d a b => Sys2Proof.Machine.execShr w d a b s
  | .sra w d a b => Sys2Proof.Machine.execSra w d a b s
  | .rot w d a b => Sys2Proof.Machine.execRot w d a b s
  | .clz w d a => Sys2Proof.Machine.execClz w d a s
  | .pop w d a => Sys2Proof.Machine.execPop w d a s
  | .bfe w d a b => Sys2Proof.Machine.execBfe w d a b s
  | .bfi w d a b => Sys2Proof.Machine.execBfi w d a b s
  | .sel m d a b => Sys2Proof.Machine.execSel m d a b s
  | .mov d a => Sys2Proof.Machine.execMov d a s
  | .cmpEq w d a b => Sys2Proof.Machine.execCmpEq w d a b s
  | .cmpNe w d a b => Sys2Proof.Machine.execCmpNe w d a b s
  | .cmpLt w d a b => Sys2Proof.Machine.execCmpLt w d a b s
  | .cmpLtu w d a b => Sys2Proof.Machine.execCmpLtu w d a b s
  | .cmpLe w d a b => Sys2Proof.Machine.execCmpLe w d a b s
  | .cmpLeu w d a b => Sys2Proof.Machine.execCmpLeu w d a b s
  | .addImm w d a imm => Sys2Proof.Machine.execAddImm w d a imm s
  | .andImm w d a imm => Sys2Proof.Machine.execAndImm w d a imm s
  | .orImm w d a imm => Sys2Proof.Machine.execOrImm w d a imm s
  | .xorImm w d a imm => Sys2Proof.Machine.execXorImm w d a imm s
  | .shlImm w d a imm => Sys2Proof.Machine.execShlImm w d a imm s
  | .shrImm w d a imm => Sys2Proof.Machine.execShrImm w d a imm s
  | .sraImm w d a imm => Sys2Proof.Machine.execSraImm w d a imm s
  | .rotImm w d a imm => Sys2Proof.Machine.execRotImm w d a imm s
  | .li w d imm => Sys2Proof.Machine.execLi w d imm s
  | .cmpEqImm w d a imm => Sys2Proof.Machine.execCmpEqImm w d a imm s
  | .cmpLtImm w d a imm => Sys2Proof.Machine.execCmpLtImm w d a imm s
  | .fadd w d a b => Sys2Proof.Machine.execFadd w d a b s
  | .fsub w d a b => Sys2Proof.Machine.execFsub w d a b s
  | .fmul w d a b => Sys2Proof.Machine.execFmul w d a b s
  | .fma w d a b => Sys2Proof.Machine.execFma w d a b s
  | .fma3 w d a b c ftz np na => Sys2Proof.Machine.execFma3 w d a b c ftz np na s
  | .fmin w d a b => Sys2Proof.Machine.execFmin w d a b s
  | .fmax w d a b => Sys2Proof.Machine.execFmax w d a b s
  | .fabs w d a => Sys2Proof.Machine.execFabs w d a s
  | .fneg w d a => Sys2Proof.Machine.execFneg w d a s
  | .fcmpEq w d a b => Sys2Proof.Machine.execFcmpEq w d a b s
  | .fcmpNe w d a b => Sys2Proof.Machine.execFcmpNe w d a b s
  | .fcmpLt w d a b => Sys2Proof.Machine.execFcmpLt w d a b s
  | .fcmpLe w d a b => Sys2Proof.Machine.execFcmpLe w d a b s
  | .fcmpUn w d a b => Sys2Proof.Machine.execFcmpUn w d a b s
  | .frnd w d a => Sys2Proof.Machine.execFrnd w d a s
  | .fclass w d a => Sys2Proof.Machine.execFclass w d a s
  | .faddFtz w d a b => Sys2Proof.Machine.execFaddFtz w d a b s
  | .fsubFtz w d a b => Sys2Proof.Machine.execFsubFtz w d a b s
  | .fmulFtz w d a b => Sys2Proof.Machine.execFmulFtz w d a b s
  | .fmaFtz w d a b => Sys2Proof.Machine.execFmaFtz w d a b s
  | .fcvt d a b => Sys2Proof.Machine.execFcvt d a b s
  | .fcvti w d a => Sys2Proof.Machine.execFcvti w d a s
  | .fcvtiu w d a => Sys2Proof.Machine.execFcvtiu w d a s
  | .icvtf w d a => Sys2Proof.Machine.execIcvtf w d a s
  | .icvtfu w d a => Sys2Proof.Machine.execIcvtfu w d a s
  | .pack w d a b => Sys2Proof.Machine.execPack w d a b s
  | .unpack w d a b => Sys2Proof.Machine.execUnpack w d a b s
  | .swz w d a b => Sys2Proof.Machine.execSwz w d a b s
  | .frcp w d a => Sys2Proof.Machine.execFrcp w d a s
  | .frsq w d a => Sys2Proof.Machine.execFrsq w d a s
  | .fsqrt w d a => Sys2Proof.Machine.execFsqrt w d a s
  | .fex2 w d a => Sys2Proof.Machine.execFex2 w d a s
  | .flg2 w d a => Sys2Proof.Machine.execFlg2 w d a s
  | .fsin w d a => Sys2Proof.Machine.execFsin w d a s
  | .fcos w d a => Sys2Proof.Machine.execFcos w d a s
  | .shfl w d a b => Sys2Proof.Machine.execShfl w d a b s
  | .shfli d a p k => Sys2Proof.Machine.execShfli d a p k s
  | .vote v d a => Sys2Proof.Machine.execVote v d a s
  | .lget w d a b => Sys2Proof.Machine.execLget w d a b s
  | .lput w d a b => Sys2Proof.Machine.execLput w d a b s
  | .red op d a => Sys2Proof.Machine.execRed op d a s
  | .scan op d a => Sys2Proof.Machine.execScan op d a s
  | .scanEx op d a => Sys2Proof.Machine.execScanEx op d a s
  | .segred op d a => Sys2Proof.Machine.execSegred op d a s
  | .walki d a b => Sys2Proof.Machine.execWalki d a b s
  | .walk d a b => Sys2Proof.Machine.execWalk d a b s
  | .mmul q d a b => Sys2Proof.Machine.execMmul q d a b s
  | .madd q d a b => Sys2Proof.Machine.execMadd q d a b s
  | .msub q d a b => Sys2Proof.Machine.execMsub q d a b s
  | .bfly q d a b => Sys2Proof.Machine.execBfly q d a b s
  | .ibfly q d a b => Sys2Proof.Machine.execIbfly q d a b s
  | .mred q d a b => Sys2Proof.Machine.execMred q d a b s
  | .ld esc o sc w x d a => Sys2Proof.Machine.execLd esc o sc w x d a s
  | .st esc o sc w x d a => Sys2Proof.Machine.execSt esc o sc w x d a s
  | .ldx esc o sc w k d a base off => Sys2Proof.Machine.execLdx esc o sc w k d a base off s
  | .stx esc o sc w k d a base off => Sys2Proof.Machine.execStx esc o sc w k d a base off s
  | .stf esc o sc w d a flag inc => Sys2Proof.Machine.execStf esc o sc w d a flag inc s
  | .lds o sc w x d a => Sys2Proof.Machine.execLds o sc w x d a s
  | .sts o sc w x d a => Sys2Proof.Machine.execSts o sc w x d a s
  | .atom esc o sc w op d a => Sys2Proof.Machine.execAtom esc o sc w op d a s
  | .atomOffset esc o sc op d a c off => Sys2Proof.Machine.execAtomOffset esc o sc op d a c off s
  | .cas esc o sc w d a e n => Sys2Proof.Machine.execCas esc o sc w d a e n s
  | .redm o sc op d a => Sys2Proof.Machine.execRedm o sc op d a s
  | .sadd d a b => Sys2Proof.Machine.execSadd d a b s
  | .ssub d a b => Sys2Proof.Machine.execSsub d a b s
  | .smul d a b => Sys2Proof.Machine.execSmul d a b s
  | .smulh d a b => Sys2Proof.Machine.execSmulh d a b s
  | .smulhu d a b => Sys2Proof.Machine.execSmulhu d a b s
  | .sdiv d a b => Sys2Proof.Machine.execSdiv d a b s
  | .sdivu d a b => Sys2Proof.Machine.execSdivu d a b s
  | .srem d a b => Sys2Proof.Machine.execSrem d a b s
  | .sremu d a b => Sys2Proof.Machine.execSremu d a b s
  | .sand d a b => Sys2Proof.Machine.execSand d a b s
  | .sor d a b => Sys2Proof.Machine.execSor d a b s
  | .sxor d a b => Sys2Proof.Machine.execSxor d a b s
  | .sshl d a b => Sys2Proof.Machine.execSshl d a b s
  | .sshr d a b => Sys2Proof.Machine.execSshr d a b s
  | .ssra d a b => Sys2Proof.Machine.execSsra d a b s
  | .smin d a b => Sys2Proof.Machine.execSmin d a b s
  | .sminu d a b => Sys2Proof.Machine.execSminu d a b s
  | .smax d a b => Sys2Proof.Machine.execSmax d a b s
  | .smaxu d a b => Sys2Proof.Machine.execSmaxu d a b s
  | .sclz d a => Sys2Proof.Machine.execSclz d a s
  | .spop d a => Sys2Proof.Machine.execSpop d a s
  | .sbfe d a b => Sys2Proof.Machine.execSbfe d a b s
  | .sbfi d a b => Sys2Proof.Machine.execSbfi d a b s
  | .smov d a => Sys2Proof.Machine.execSmov d a s
  | .saddImm d a imm => Sys2Proof.Machine.execSaddImm d a imm s
  | .smulImm d a imm => Sys2Proof.Machine.execSmulImm d a imm s
  | .sandImm d a imm => Sys2Proof.Machine.execSandImm d a imm s
  | .sorImm d a imm => Sys2Proof.Machine.execSorImm d a imm s
  | .sxorImm d a imm => Sys2Proof.Machine.execSxorImm d a imm s
  | .sshlImm d a imm => Sys2Proof.Machine.execSshlImm d a imm s
  | .sshrImm d a imm => Sys2Proof.Machine.execSshrImm d a imm s
  | .ssraImm d a imm => Sys2Proof.Machine.execSsraImm d a imm s
  | .sliI d imm => Sys2Proof.Machine.execSliI d imm s
  | .sliZ d imm => Sys2Proof.Machine.execSliZ d imm s
  | .slil d imm => Sys2Proof.Machine.execSlil d imm s
  | .slim d imm => Sys2Proof.Machine.execSlim d imm s
  | .slih d imm => Sys2Proof.Machine.execSlih d imm s
  | .sliF64 d x => Sys2Proof.Machine.execSliF64 d x s
  | .sliF32 d x => Sys2Proof.Machine.execSliF32 d x s
  | .sliF16 d x => Sys2Proof.Machine.execSliF16 d x s
  | .sadr d imm => Sys2Proof.Machine.execSadr d imm s
  | .scmp c d a b => Sys2Proof.Machine.execScmp c d a b s
  | .ssel d a b c => Sys2Proof.Machine.execSsel d a b c s
  | .br off => Sys2Proof.Machine.execBr off s
  | .bc c a b off => Sys2Proof.Machine.execBc c a b off s
  | .jmp a => Sys2Proof.Machine.execJmp a s
  | .call d imm => Sys2Proof.Machine.execCall d imm s
  | .ret a => Sys2Proof.Machine.execRet a s
  | .loop a off => Sys2Proof.Machine.execLoop a off s
  | .exit => Sys2Proof.Machine.execExit s
  | .yield => Sys2Proof.Machine.execYield s
  | .nop => Sys2Proof.Machine.execNop s
  | .emit k d a b => Sys2Proof.Machine.execEmit k d a b s
  | .launch d a => Sys2Proof.Machine.execLaunch d a s
  | .widf d f => Sys2Proof.Machine.execWidf d f s
  | .dvg m off => Sys2Proof.Machine.execDvg m off s
  | .flip off => Sys2Proof.Machine.execFlip off s
  | .cvg => Sys2Proof.Machine.execCvg s
  | .bany m off => Sys2Proof.Machine.execBany m off s
  | .bnone m off => Sys2Proof.Machine.execBnone m off s
  | .mand d a b => Sys2Proof.Machine.execMand d a b s
  | .mor d a b => Sys2Proof.Machine.execMor d a b s
  | .mandn d a b => Sys2Proof.Machine.execMandn d a b s
  | .mxor d a b => Sys2Proof.Machine.execMxor d a b s
  | .mnot d a => Sys2Proof.Machine.execMnot d a s
  | .mmov d a => Sys2Proof.Machine.execMmov d a s
  | .mcnt d m => Sys2Proof.Machine.execMcnt d m s
  | .mfirst d m => Sys2Proof.Machine.execMfirst d m s
  | .mlw d m k => Sys2Proof.Machine.execMlw d m k s
  | .wait c n => Sys2Proof.Machine.execWait c n s
  | .waitq a q => Sys2Proof.Machine.execWaitq a q s
  | .ldu o sc w d a b => Sys2Proof.Machine.execLdu o sc w d a b s
  | .stu o sc w d a b => Sys2Proof.Machine.execStu o sc w d a b s
  | .atomu o sc op d a => Sys2Proof.Machine.execAtomu o sc op d a s
  | .casu o sc w d a e n => Sys2Proof.Machine.execCasu o sc w d a e n s
  | .tlook d a b => Sys2Proof.Machine.execTlook d a b s
  | .tins d a b => Sys2Proof.Machine.execTins d a b s
  | .tinv d a b => Sys2Proof.Machine.execTinv d a b s
  | .fence o sc => Sys2Proof.Machine.execFence o sc s
  | .qfence qs => Sys2Proof.Machine.execQfence qs s
  | .arrive o sc d a b => Sys2Proof.Machine.execArrive o sc d a b s
  | .await o sc d a b => Sys2Proof.Machine.execAwait o sc d a b s
  | .arwait o sc d a b => Sys2Proof.Machine.execArwait o sc d a b s
  | .mwait o sc d a b => Sys2Proof.Machine.execMwait o sc d a b s
  | .lkacq o sc d a heir t orph tryOnce => Sys2Proof.Machine.execLkacq o sc d a heir t orph tryOnce s
  | .lkrel o sc a => Sys2Proof.Machine.execLkrel o sc a s
  | .prnew o sc d a heir v => Sys2Proof.Machine.execPrnew o sc d a heir v s
  | .prful o sc a b => Sys2Proof.Machine.execPrful o sc a b s
  | .prwait o sc d a => Sys2Proof.Machine.execPrwait o sc d a s
  | .hold k sc d a heir => Sys2Proof.Machine.execHold k sc d a heir s
  | .unhold k a => Sys2Proof.Machine.execUnhold k a s
  | .heir a b => Sys2Proof.Machine.execHeir a b s
  | .mtask d a => Sys2Proof.Machine.execMtask d a s
  | .cpy ch d a b => Sys2Proof.Machine.execCpy ch d a b s
  | .cpy2 ch d a b => Sys2Proof.Machine.execCpy2 ch d a b s
  | .kick a b => Sys2Proof.Machine.execKick a b s
  | .kpop d => Sys2Proof.Machine.execKpop d s
  | .kack a => Sys2Proof.Machine.execKack a s
  | .sar op a b => Sys2Proof.Machine.execSar op a b s
  | .sag a b => Sys2Proof.Machine.execSag a b s
  | .sstat d a => Sys2Proof.Machine.execSstat d a s
  | .escset d a b => Sys2Proof.Machine.execEscset d a b s
  | .rgn => Sys2Proof.Machine.execRgn s
  | .srd d n => Sys2Proof.Machine.execSrd d n s
  | .srdLane d n => Sys2Proof.Machine.execSrdLane d n s
  | .swr n a => Sys2Proof.Machine.execSwr n a s
  | .trap code => Sys2Proof.Machine.execTrap code s
  | .brk code => Sys2Proof.Machine.execBrk code s
  | .sys code => Sys2Proof.Machine.execSys code s
  | .illegalWord tid => Sys2Proof.Machine.execIllegalWord tid s
  | .fetchFault tid => Sys2Proof.Machine.execFetchFault tid s
  | .boundaryTrap tid => Sys2Proof.Machine.execBoundaryTrap tid s
  | .teamStop tid => Sys2Proof.Machine.execTeamStop tid s
  | .tenureGrant c k => Sys2Proof.Machine.execTenureGrant c k s
  | .tenureSuspend tid => Sys2Proof.Machine.execTenureSuspend tid s
  | .congestionPublish slice => Sys2Proof.Machine.execCongestionPublish slice s
  | .throttleWindow h => Sys2Proof.Machine.execThrottleWindow h s
  | .congestionWindow c => Sys2Proof.Machine.execCongestionWindow c s
  | .budgetGrant c k => Sys2Proof.Machine.execBudgetGrant c k s
  | .carrierAdmit slice => Sys2Proof.Machine.execCarrierAdmit slice s
  | .fetchAccess tid seq idx answer => Sys2Proof.Machine.execFetchAccess tid seq idx answer s
  | .penMerge tid => Sys2Proof.Machine.execPenMerge tid s
  | .watchWake tid => Sys2Proof.Machine.execWatchWake tid s
  | .barrierUnitFrame tid => Sys2Proof.Machine.execBarrierUnitFrame tid s
  | .frameLand tid => Sys2Proof.Machine.execFrameLand tid s
  | .lodgeToRegister c k => Sys2Proof.Machine.execLodgeToRegister c k s
  | .lodgeEvict c k => Sys2Proof.Machine.execLodgeEvict c k s
  | .evictedReturn tid => Sys2Proof.Machine.execEvictedReturn tid s
  | .recall tid => Sys2Proof.Machine.execRecall tid s
  | .unescortedResult tid seq => Sys2Proof.Machine.execUnescortedResult tid seq s
  | .combineEntryTimeout c k => Sys2Proof.Machine.execCombineEntryTimeout c k s
  | .lkacqTimeout tid => Sys2Proof.Machine.execLkacqTimeout tid s
  | .emitSlotGrant tid => Sys2Proof.Machine.execEmitSlotGrant tid s
  | .mtaskRecordGrant tid => Sys2Proof.Machine.execMtaskRecordGrant tid s
  | .kickEntryGrant tid => Sys2Proof.Machine.execKickEntryGrant tid s
  | .taskStart c => Sys2Proof.Machine.execTaskStart c s
  | .taskAging c id => Sys2Proof.Machine.execTaskAging c id s
  | .taskPass c id => Sys2Proof.Machine.execTaskPass c id s
  | .taskComplete c id => Sys2Proof.Machine.execTaskComplete c id s
  | .copyPiece c ch => Sys2Proof.Machine.execCopyPiece c ch s
  | .multicastApply home die => Sys2Proof.Machine.execMulticastApply home die s
  | .stageEvaluation c => Sys2Proof.Machine.execStageEvaluation c s
  | .coalesceTimeout lh k c => Sys2Proof.Machine.execCoalesceTimeout lh k c s
  | .allocationClear c base => Sys2Proof.Machine.execAllocationClear c base s
  | .conveyanceWrite h => Sys2Proof.Machine.execConveyanceWrite h s
  | .conveyanceComplete h => Sys2Proof.Machine.execConveyanceComplete h s
  | .supervisorRecordWrite n => Sys2Proof.Machine.execSupervisorRecordWrite n s
  | .preempt ctx cores => Sys2Proof.Machine.execPreempt ctx cores s
  | .preemptSave tid => Sys2Proof.Machine.execPreemptSave tid s
  | .teamRestore tid => Sys2Proof.Machine.execTeamRestore tid s
  | .groupKill h reason => Sys2Proof.Machine.execGroupKill h reason s
  | .contextDeath ctx cause => Sys2Proof.Machine.execContextDeath ctx cause s
  | .tcmdRetry who ctx w0 w1 => Sys2Proof.Machine.execTcmdRetry who ctx w0 w1 s
  | .tcmdSkip who ctx w0 w1 => Sys2Proof.Machine.execTcmdSkip who ctx w0 w1 s
  | .tcmdRegion who ctx w0 w1 => Sys2Proof.Machine.execTcmdRegion who ctx w0 w1 s
  | .tcmdGoto who ctx w0 w1 => Sys2Proof.Machine.execTcmdGoto who ctx w0 w1 s
  | .tcmdKill who ctx w0 w1 => Sys2Proof.Machine.execTcmdKill who ctx w0 w1 s
  | .tcmdAnswer who ctx w0 w1 => Sys2Proof.Machine.execTcmdAnswer who ctx w0 w1 s
  | .launchAccept tid => Sys2Proof.Machine.execLaunchAccept tid s
  | .lcstartWrite who w0 => Sys2Proof.Machine.execLcstartWrite who w0 s
  | .lctailWrite who w0 => Sys2Proof.Machine.execLctailWrite who w0 s
  | .chainEntryProcess => Sys2Proof.Machine.execChainEntryProcess s
  | .launchCancel lh => Sys2Proof.Machine.execLaunchCancel lh s
  | .launchComplete lh => Sys2Proof.Machine.execLaunchComplete lh s
  | .quotaRowWrite who c r w0 w1 w2 => Sys2Proof.Machine.execQuotaRowWrite who c r w0 w1 w2 s
  | .tgmapWrite who c p w0 w1 => Sys2Proof.Machine.execTgmapWrite who c p w0 w1 s
  | .ctxbaseWrite who w0 => Sys2Proof.Machine.execCtxbaseWrite who w0 s
  | .podcfgWrite who w0 => Sys2Proof.Machine.execPodcfgWrite who w0 s
  | .trinvWrite who w0 w1 w2 => Sys2Proof.Machine.execTrinvWrite who w0 w1 w2 s
  | .trinvComplete => Sys2Proof.Machine.execTrinvComplete s
  | .frplyWrite who d w0 => Sys2Proof.Machine.execFrplyWrite who d w0 s
  | .fbheadWrite who d w0 => Sys2Proof.Machine.execFbheadWrite who d w0 s
  | .settTableWrite who b w0 w1 w2 w3 => Sys2Proof.Machine.execSettTableWrite who b w0 w1 w2 w3 s
  | .settAbort who b => Sys2Proof.Machine.execSettAbort who b s
  | .mtcfgWrite who w0 => Sys2Proof.Machine.execMtcfgWrite who w0 s
  | .sealKeyWrite who j which key => Sys2Proof.Machine.execSealKeyWrite who j which key s
  | .hdbinWrite w0 => Sys2Proof.Machine.execHdbinWrite w0 s
  | .hdboutWrite w0 => Sys2Proof.Machine.execHdboutWrite w0 s
  | .registerWrite who addr size v => Sys2Proof.Machine.execRegisterWrite who addr size v s
  | .assign who page w0 w1 w2 => Sys2Proof.Machine.execAssign who page w0 w1 w2 s
  | .share who page w0 w1 w2 => Sys2Proof.Machine.execShare who page w0 w1 w2 s
  | .unshare who page w0 w1 w2 => Sys2Proof.Machine.execUnshare who page w0 w1 w2 s
  | .reclaim who page w0 w1 w2 => Sys2Proof.Machine.execReclaim who page w0 w1 w2 s
  | .destroy who page w0 w1 w2 => Sys2Proof.Machine.execDestroy who page w0 w1 w2 s
  | .ownershipChangeComplete n => Sys2Proof.Machine.execOwnershipChangeComplete n s
  | .sealedUnitSend j payload => Sys2Proof.Machine.execSealedUnitSend j payload s
  | .sealStallTimeout j => Sys2Proof.Machine.execSealStallTimeout j s
  | .sealedUnitReceive j cipher tag ctr high => Sys2Proof.Machine.execSealedUnitReceive j cipher tag ctr high s
  | .linkControlReceive sett port last => Sys2Proof.Machine.execLinkControlReceive sett port last s
  | .linkAckTimeout sett port => Sys2Proof.Machine.execLinkAckTimeout sett port s
  | .remoteElementArrive src world eseq tag pa size op args => Sys2Proof.Machine.execRemoteElementArrive src world eseq tag pa size op args s
  | .remoteTimeout tag => Sys2Proof.Machine.execRemoteTimeout tag s
  | .mailboxFlit src payload => Sys2Proof.Machine.execMailboxFlit src payload s
  | .settParameterExchange b d num => Sys2Proof.Machine.execSettParameterExchange b d num s
  | .settChunkStep b c num src complete => Sys2Proof.Machine.execSettChunkStep b c num src complete s
  | .settFailureDetect b d => Sys2Proof.Machine.execSettFailureDetect b d s
  | .settStopReceive b d => Sys2Proof.Machine.execSettStopReceive b d s
  | .settFailureWindowEnd b d => Sys2Proof.Machine.execSettFailureWindowEnd b d s
  | .scrubLine site corrected => Sys2Proof.Machine.execScrubLine site corrected s
  | .auditReplayComplete item unit abandoned => Sys2Proof.Machine.execAuditReplayComplete item unit abandoned s
  | .auditArbitration item unit => Sys2Proof.Machine.execAuditArbitration item unit s
  | .auditDueTime engine unit => Sys2Proof.Machine.execAuditDueTime engine unit s
  | .probeStart engine unit => Sys2Proof.Machine.execProbeStart engine unit s
  | .probeComplete engine unit other third => Sys2Proof.Machine.execProbeComplete engine unit other third s
  | .machineCheckRecord d addr det ctx kind unit sev how => Sys2Proof.Machine.execMachineCheckRecord d addr det ctx kind unit sev how s
  | .deviceMachineCheck d kind unit how => Sys2Proof.Machine.execDeviceMachineCheck d kind unit how s
  | .powerWindow above => Sys2Proof.Machine.execPowerWindow above s
  | .envelopeBreach hot => Sys2Proof.Machine.execEnvelopeBreach hot s
  | .reset => Sys2Proof.Machine.execReset s
  | .wipeComplete => Sys2Proof.Machine.execWipeComplete s
  | .measurementExtend slot digest => Sys2Proof.Machine.execMeasurementExtend slot digest s
  | .getVersion peer => Sys2Proof.Machine.execGetVersion peer s
  | .getCapabilities peer => Sys2Proof.Machine.execGetCapabilities peer s
  | .negotiateAlgorithms peer common => Sys2Proof.Machine.execNegotiateAlgorithms peer common s
  | .getDigests peer => Sys2Proof.Machine.execGetDigests peer s
  | .getCertificate peer => Sys2Proof.Machine.execGetCertificate peer s
  | .challenge peer => Sys2Proof.Machine.execChallenge peer s
  | .getMeasurements peer session index => Sys2Proof.Machine.execGetMeasurements peer session index s
  | .keyExchange peer => Sys2Proof.Machine.execKeyExchange peer s
  | .finish peer session leaf => Sys2Proof.Machine.execFinish peer session leaf s
  | .heartbeat peer session => Sys2Proof.Machine.execHeartbeat peer session s
  | .keyUpdate peer session => Sys2Proof.Machine.execKeyUpdate peer session s
  | .endSession peer session => Sys2Proof.Machine.execEndSession peer session s
  | .vendorDefinedRequest peer session payload => Sys2Proof.Machine.execVendorDefinedRequest peer session payload s
  | .unsupportedRequest peer => Sys2Proof.Machine.execUnsupportedRequest peer s
  | .firmwareStage image => Sys2Proof.Machine.execFirmwareStage image s
  | .firmwareActivate => Sys2Proof.Machine.execFirmwareActivate s
  | .firmwareCommit => Sys2Proof.Machine.execFirmwareCommit s
  | .firmwareAbandon => Sys2Proof.Machine.execFirmwareAbandon s
  | .lifeCycleTransition target token => Sys2Proof.Machine.execLifeCycleTransition target token s
  | .hostBar2Access off size data => Sys2Proof.Machine.execHostBar2Access off size data s
  | .singleFault site uncorrectable => Sys2Proof.Machine.execSingleFault site uncorrectable s

end Sys2Proof.Machine
end

