-- ==== Sys2Proof/Machine/Hazards.lean ====
section
/-! DEFINITION. What an instruction writes, for the interlocks of R217, and what it reads, for the errors it may consume
(R118, R400). -/
namespace Sys2Proof.Machine
open Sys2Proof

/-- Lane registers that an instruction writes. -/
def destV : Instr → List VReg
  | .add _ d _ _ | .sub _ d _ _ | .addSat _ d _ _ | .addSatu _ d _ _ | .subSat _ d _ _ | .subSatu _ d _ _
  | .mul _ d _ _ | .mulh _ d _ _ | .mulhu _ d _ _ | .mad _ d _ _ | .addc _ d _ _ | .subb _ d _ _
  | .min _ d _ _ | .minu _ d _ _ | .max _ d _ _ | .maxu _ d _ _ | .abs _ d _ | .and _ d _ _ | .or _ d _ _
  | .xor _ d _ _ | .shl _ d _ _ | .shr _ d _ _ | .sra _ d _ _ | .rot _ d _ _ | .clz _ d _ | .pop _ d _
  | .bfe _ d _ _ | .bfi _ d _ _ | .sel _ d _ _ | .mov d _ | .addImm _ d _ _ | .andImm _ d _ _
  | .orImm _ d _ _ | .xorImm _ d _ _ | .shlImm _ d _ _ | .shrImm _ d _ _ | .sraImm _ d _ _ | .rotImm _ d _ _
  | .li _ d _ | .fadd _ d _ _ | .fsub _ d _ _ | .fmul _ d _ _ | .fma _ d _ _ | .fma3 _ d _ _ _ _ _ _
  | .fmin _ d _ _ | .fmax _ d _ _ | .fabs _ d _ | .fneg _ d _ | .frnd _ d _ | .fclass _ d _
  | .faddFtz _ d _ _ | .fsubFtz _ d _ _ | .fmulFtz _ d _ _ | .fmaFtz _ d _ _ | .fcvt d _ _ | .fcvti _ d _
  | .fcvtiu _ d _ | .icvtf _ d _ | .icvtfu _ d _ | .pack _ d _ _ | .unpack _ d _ _ | .swz _ d _ _
  | .frcp _ d _ | .frsq _ d _ | .fsqrt _ d _ | .fex2 _ d _ | .flg2 _ d _ | .fsin _ d _ | .fcos _ d _
  | .shfl _ d _ _ | .shfli d _ _ _ | .lget _ d _ _ | .lput _ d _ _ | .red _ d _ | .scan _ d _ | .scanEx _ d _
  | .segred _ d _ | .walki d _ _ | .walk d _ _ | .mmul _ d _ _ | .madd _ d _ _ | .msub _ d _ _
  | .mred _ d _ _ => VDst.vregs d
  | .bfly _ d a _ | .ibfly _ d a _ => VDst.vregs d ++ [a]
  | .ld _ _ _ _ _ d _ | .ldx _ _ _ _ _ d _ _ _ | .lds _ _ _ _ d _ | .atom _ _ _ _ _ d _
  | .atomOffset _ _ _ _ d _ _ _ | .cas _ _ _ _ d _ _ _ | .srdLane d _ => [d]
  | _ => []

/-- Whether an instruction is one of the lane pipe that forms a result: in a register, in a latch alone, or in a mask. -/
def laneComputes : Instr → Bool
  | .add .. | .sub .. | .addSat .. | .addSatu .. | .subSat .. | .subSatu .. | .mul .. | .mulh .. | .mulhu ..
  | .mad .. | .addc .. | .subb .. | .min .. | .minu .. | .max .. | .maxu .. | .abs .. | .and .. | .or .. | .xor ..
  | .shl .. | .shr .. | .sra .. | .rot .. | .clz .. | .pop .. | .bfe .. | .bfi .. | .sel .. | .mov .. | .addImm ..
  | .andImm .. | .orImm .. | .xorImm .. | .shlImm .. | .shrImm .. | .sraImm .. | .rotImm .. | .li .. | .fadd ..
  | .fsub .. | .fmul .. | .fma .. | .fma3 .. | .fmin .. | .fmax .. | .fabs .. | .fneg .. | .frnd .. | .fclass ..
  | .faddFtz .. | .fsubFtz .. | .fmulFtz .. | .fmaFtz .. | .fcvt .. | .fcvti .. | .fcvtiu .. | .icvtf ..
  | .icvtfu .. | .pack .. | .unpack .. | .swz .. | .frcp .. | .frsq .. | .fsqrt .. | .fex2 .. | .flg2 .. | .fsin ..
  | .fcos .. | .shfl .. | .shfli .. | .lget .. | .lput .. | .red .. | .scan .. | .scanEx .. | .segred ..
  | .walki .. | .walk .. | .mmul .. | .madd .. | .msub .. | .mred .. | .bfly .. | .ibfly .. | .cmpEq .. | .cmpNe ..
  | .cmpLt .. | .cmpLtu .. | .cmpLe .. | .cmpLeu .. | .cmpEqImm .. | .cmpLtImm .. | .fcmpEq .. | .fcmpNe ..
  | .fcmpLt .. | .fcmpLe .. | .fcmpUn .. | .vote .. => true
  | _ => false

/-- Scalar registers that an instruction writes. -/
def destS : Instr → List SReg
  | .sadd d _ _ | .ssub d _ _ | .smul d _ _ | .smulh d _ _ | .smulhu d _ _ | .sdiv d _ _ | .sdivu d _ _
  | .srem d _ _ | .sremu d _ _ | .sand d _ _ | .sor d _ _ | .sxor d _ _ | .sshl d _ _ | .sshr d _ _
  | .ssra d _ _ | .smin d _ _ | .sminu d _ _ | .smax d _ _ | .smaxu d _ _ | .sclz d _ | .spop d _
  | .sbfe d _ _ | .sbfi d _ _ | .smov d _ | .saddImm d _ _ | .smulImm d _ _ | .sandImm d _ _ | .sorImm d _ _
  | .sxorImm d _ _ | .sshlImm d _ _ | .sshrImm d _ _ | .ssraImm d _ _ | .scmp _ d _ _ | .ssel d _ _ _
  | .emit _ d _ _ | .launch d _ | .widf d _ | .mcnt d _ | .mfirst d _ | .mlw d _ _ | .ldu _ _ _ d _ _
  | .atomu _ _ _ d _ | .casu _ _ _ d _ _ _ | .tlook d _ _ | .tins d _ _ | .tinv d _ _ | .arrive _ _ d _ _
  | .await _ _ d _ _ | .arwait _ _ d _ _ | .mwait _ _ d _ _ | .lkacq _ _ d _ _ _ _ _ | .prnew _ _ d _ _ _
  | .prwait _ _ d _ | .hold _ _ d _ _ | .mtask d _ | .kpop d | .sstat d _ | .srd d _ => d.toList
  | .sliI d _ | .sliZ d _ | .slil d _ | .slim d _ | .slih d _ | .sliF64 d _ | .sliF32 d _ | .sliF16 d _
  | .sadr d _ | .call d _ => [d]
  | .loop a _ => [a]
  -- the answer of a supervisor call (R111)
  | .sys _ => [4]
  | _ => []

/-- Whether an instruction reads or writes m5, which `cas` writes with its results. -/
def touchesM5 : Instr → Bool
  | .cmpEq _ d _ _ | .cmpNe _ d _ _ | .cmpLt _ d _ _ | .cmpLtu _ d _ _ | .cmpLe _ d _ _ | .cmpLeu _ d _ _
  | .cmpEqImm _ d _ _ | .cmpLtImm _ d _ _ | .fcmpEq _ d _ _ | .fcmpNe _ d _ _ | .fcmpLt _ d _ _
  | .fcmpLe _ d _ _ | .fcmpUn _ d _ _ | .vote _ d _ => d.val == 5
  | .segred _ _ _ | .walk _ _ _ | .cas _ _ _ _ _ _ _ _ => true
  | .dvg m _ | .bany m _ | .bnone m _ | .mcnt _ m | .mfirst _ m | .mlw _ m _ => m.val == 5
  | .mand d a b | .mor d a b | .mandn d a b | .mxor d a b => d.val == 5 || a.val == 5 || b.val == 5
  | .mnot d a | .mmov d a => d.val == 5 || a.val == 5
  | _ => false

/-- The old destination that an instruction also reads in every lane where it acts; with `nwb` its field names v0 (R60;
log 15). -/
def oldV : Instr → List VReg
  | .mad _ d _ _ | .bfi _ d _ _ | .fma _ d _ _ | .fmaFtz _ d _ _ => [VDst.field d]
  | .bfly _ d a _ | .ibfly _ d a _ => [VDst.field d, a]
  | .atom _ _ _ _ _ d _ => [d]
  | _ => []

/-- Lane registers that an instruction reads. -/
def srcV (i : Instr) : List VReg :=
  oldV i ++ i.vregs.filter fun r => !(destV i).contains r || i.vregs.count r != 1

/-! ## Interlocks (R217) -/

/-- Whether an outstanding access of a team will write something that an instruction writes, or m5 that it touches. -/
def clashes (i : Instr) (a : Acc) : Bool :=
  !a.esc && a.op.returns && !a.finished &&
    ((match a.dst with
      | .lane r => (destV i).contains r
      | .scalar r => (destS i).contains r
      | .none => false) || (touchesM5 i && (match a.op with | .cas _ => true | _ => false)))

/-- The accesses that hold an instruction back, performed and delivered as far as they can be. -/
def State.clearWay (s : State) (i : Instr) : State :=
  let l := (s.cur.accs.filter (clashes i)).map Acc.seq
  if l.isEmpty then s
  else (l.foldl (fun s q => (s.forceAcc s.cur.tid q).deliverAcc s.cur.tid q) s).onCur Team.retire
def State.heldBack (s : State) (i : Instr) : Bool := s.cur.accs.any (clashes i)

/-! ## Errors consumed at operand read (R118, R400, R402) -/

/-- The source that an instruction reads in other lanes, with those lanes (R137, R138, R141). -/
def Team.crossReads (t : Team) : Instr → Option (LSrc × List Nat)
  | .shfl w _ a b => some (a, t.gathered w b shflLane)
  | .lget w _ a b => some (a, t.gathered w b lgetLane)
  | .shfli _ a p k => some (a, t.activeLanes.map fun x => shfliLane p k.toNat x)
  | .walki _ a b => some (a, List.range (t.rowCount b))
  | .walk _ a b => some (a, (List.range (t.rowCount b)).getLast?.toList ++ List.range (rowsUsed (t.dealt a b)))
  | _ => none

/-- Lane registers that an instruction reads in the lanes where it acts. An operand that it names and does not use (the
source that `sel` does not select, the source under an invalid descriptor) is read all the same, and an error in it kills
the lane: the model's choice (log 96). -/
def ownV : Instr → List VReg
  | .shfl _ _ _ b | .lget _ _ _ b => b.vregs
  | .shfli .. | .walki .. | .walk .. => []
  | .lput _ _ a b => a.vregs ++ b.vregs
  | i => srcV i

/-- The lanes of d that `lput` and `walk` leave as they were and push (R42). -/
def Team.keptLanes (t : Team) : Instr → Option (VDst × List Nat)
  | .lput w d a b => some (d, t.lputKeeps (iwBits w) (t.lputWrites (iwBits w) a b))
  | .walk d a b => some (d, t.undealt (t.dealt a b))
  | _ => none

/-- Whether an instruction reads lane `x` of register `r`. -/
def Team.readsLane (t : Team) (i : Instr) (r x : Nat) : Bool :=
  (((ownV i).map Fin.val).contains r && t.active x) ||
    (match t.crossReads i with | some (a, xs) => (a.vregs.map Fin.val).contains r && xs.contains x | none => false) ||
    (match t.keptLanes i with | some (d, xs) => (VDst.field d).val == r && xs.contains x | none => false)

/-- Lanes of the team in focus whose marked element the instruction reads die, each with a record (R398). -/
def State.readLanes (s : State) (i : Instr) : State :=
  let hit (p : Poison) : Option Nat := match p with
    | .vreg t r x => if t = s.cur.tid ∧ s.cur.readsLane i r x then some x else none
    | _ => none
  (s.poison.filterMap hit).foldl (fun s x =>
    (s.contained (dieOf s.cur.cluster) s.curCtx 2 s.cur.cluster 0).laneDies s.cur.tid x) s

/-- Whether an instruction writes the whole of lane `x` of register `r`. -/
def Team.writesLane (t : Team) (i : Instr) (r x : Nat) : Bool :=
  ((destV i).map Fin.val).contains r &&
    match i with
    | .lput w _ a b => lputWhole (iwBits w) (t.lputWrites (iwBits w) a b) x
    | .walk _ a b => (t.dealt a b).any fun e => e.lane == x
    | _ => t.active x

/-- Marks on what an instruction overwrites whole are gone. -/
def State.overwrite (s : State) (i : Instr) : State :=
  let gone (p : Poison) : Bool := match p with
    | .vreg t r x => t == s.cur.tid && s.cur.writesLane i r x
    | _ => false
  { s with poison := s.poison.filter fun p => !gone p }

/-- Whether an instruction looks at entries of its group's estate. -/
def readsEstate : Instr → Bool
  | .lkrel .. | .prful .. | .unhold .. | .hold .. | .heir .. => true
  | _ => false

/-- Whether a marked estate entry is read. -/
def State.readsEntry (s : State) (i : Instr) : Bool :=
  readsEstate i && s.poison.any fun p => match p with | .estate h _ => h == s.cur.group | _ => false
/-- Whether a marked scalar, mask, slot entry, or estate entry is read. -/
def State.readsMarked (s : State) (i : Instr) : Bool :=
  s.poison.any fun p => match p with
    | .slot t => t == s.cur.tid
    | .estate h _ => h == s.cur.group && readsEstate i
    | _ => false

end Sys2Proof.Machine
end

