-- ==== Sys2Proof/Machine/Turns.lean ====
section
/-! DEFINITION. One turn of one agent: a team's issue, a step of the device, time, or a step of an agent outside it; and
the default turn where nothing has been arranged (R68, R215 to R220, R233, R324, R402, R412, R415, R422). -/
namespace Sys2Proof.Machine
open Sys2Proof

/-! ## Issue -/

/-- The device OS has been started, and no device machine check has stopped issue (R409, R412). -/
def State.live (s : State) : Bool := !s.mcStop && (s.boot == .osStarting || s.boot == .running)

/-- Whether the congestion allowance stops an instruction (R233). -/
def State.overAllowance (s : State) (i : Instr) : Bool :=
  s.cur.goesGlobal i && match s.allowance s.cur with | some n => decide (n ≤ s.cur.winCount) | none => false

/-- Whether an instruction of a team waits, in place or for budget, to be issued again. -/
def State.waitsAgain (before s : State) : Bool :=
  let t := s.team before.cur.tid
  t.tid == before.cur.tid && t.pc == before.cur.pc && (t.st == .ready || t.budgetWait.isSome)
/-- What an instruction leaves that has issued: one with a global target counts against the allowance (R233), and what its
charge has not taken of the bytes granted to it is free again (R223). -/
def State.noteIssued (before : State) (i : Instr) (s : State) : State :=
  s.modTeam before.cur.tid fun t =>
    { t with winCount := if before.cur.goesGlobal i then t.winCount + 1 else t.winCount, granted := 0 }

/-- The instruction counts in its tenure (R218). -/
def Team.countIssue (t : Team) : Team := { t with tenure := match t.tenure with | .held n => .held (n + 1) | k => k }

/-- Whether an instruction has a lane result, which is checked by residue, whether or not it has a register to go to
(R402). -/
def laneResult (i : Instr) : Bool := laneComputes i || !(destV i).isEmpty

/-- The mark of a fault that an instruction of the team in focus meets in its core: in the lane datapath, if it has a lane
result, or by the parity of its operands, latches, slot entries or pipeline; with `how` of its record. -/
def State.datapathFault (s : State) (i : Instr) : Option (Poison × Bool × Nat) :=
  let k := 2 * s.cur.cluster + s.cur.core
  s.poison.findSome? fun p => match p with
    | .datapath c b => if c = k ∧ laneResult i then some (p, b, 1) else none
    | .parity c b => if c = k then some (p, b, 6) else none
    | _ => none

/-- An instruction whose residue or parity does not match: the retry passes and a corrected record is written, or the core is
fenced with the instruction unperformed. -/
def State.retry (s : State) (p : Poison) (persistent : Bool) (how : Nat) : State :=
  let c := s.cur.cluster
  let k := s.cur.core
  let r : McRec := { mcOf s s.curCtx 4 c (if persistent then 2 else 0) how with
    det := (Config.freeValue s.freeCtr 64).toNat, time := s.coreCount (2 * c + k) }
  let s := ((s.clearPoison p).machineCheck (dieOf c) r).drawFree
  if persistent then s.fenceCore c k else s

/-- What errors in the operands or the datapath do before an instruction's effects; `none` where it goes on. -/
def State.consume (s : State) (i : Instr) : State × Bool :=
  if s.poison.isEmpty then (s, true)
  else if s.readsMarked i then
    (((s.contained (dieOf s.cur.cluster) s.curCtx (if s.readsEntry i then 8 else 2) s.cur.cluster 0).killGroup s.cur.group 0x1C).settleAll, false)
  else
    let s := (s.readLanes i).overwrite i
    match s.datapathFault i with
    | some (p, b, how) => (s.retry p b how, !b)
    | none => (s, true)

/-! ## What Marten logs of a team, and what it replays (R28, R405) -/

/-- Instructions whose results depend on another agent or on time, so that the log holds what they write. -/
def isLogged (i : Instr) : Bool :=
  match i with
  | .arrive .. | .arwait .. | .await .. | .mwait .. | .lkacq .. | .lkrel .. | .prnew .. | .prful .. | .prwait .. | .tlook ..
  | .tins .. | .tinv .. | .kpop .. | .sstat .. | .emit .. | .launch .. | .sys _ | .srd .. => true
  | _ => false

/-- The registers of a team where they changed from `old` to `new`, laid over a shadow's, and the values that changed. What is
no register (the PC, the latches' validity, dead lanes, flags) follows the team. -/
def Team.follow (old new sh : Team) : Team × List Word :=
  let pick {α : Type} [DecidableEq α] (a b c : α) : α := if a = b then c else b
  let v := Vector.ofFn fun i => pick old.v[i] new.v[i] sh.v[i]
  let x := Vector.ofFn fun i => pick old.s[i] new.s[i] sh.s[i]
  let m := Vector.ofFn fun i => pick old.m[i] new.m[i] sh.m[i]
  let lanes := (List.range 96).flatMap fun i =>
    ((nth [] new.v.toList i).zip (nth [] old.v.toList i)).filterMap fun p => if p.1 = p.2 then none else some p.1
  let scalars := (new.s.toList.zip old.s.toList).filterMap fun p => if p.1 = p.2 then none else some p.1
  let masks := (new.m.toList.zip old.m.toList).flatMap fun p => if p.1 = p.2 then [] else (List.range 16).map fun k => p.1.extractLsb' (64 * k) 64
  ({ new with v := v, s := x, m := m, fl := sh.fl, fu := sh.fu, srCtr := sh.srCtr, srRgn := sh.srRgn, accs := [] }, lanes ++ scalars ++ masks)

/-- What an instruction's stores and atomics add to a team's signature: address, width and data of each element. -/
def Team.signed (before after : Team) : List Byte :=
  (after.accs.filter fun a => decide (before.nextSeq ≤ a.seq) && !a.op.isLoad).flatMap fun a =>
    a.elems.flatMap fun e => leBytes 8 e.va ++ leBytes 8 e.size ++ leBytes 8 e.arg
/-- And what `exit` adds: s0 to s31. -/
def Team.signedExit (i : Instr) (t : Team) : List Byte :=
  match i with
  | .exit => t.s.toList.flatMap fun w => leBytes 8 w.toNat
  | _ => []

/-- One instruction of an audited team, from `before` to `after`, in its audit: what came from outside since its last
instruction is logged; the shadow, which has only the log, runs the instruction, or takes what it wrote from the log. -/
def Audit.advance (a : Audit) (i : Instr) (before after : State) : Audit × List Word :=
  match a.seen, a.shadow with
  | some seen, some sh =>
    let f := seen.follow before.cur sh
    let run : Team := match exec i { before with cur := { f.1 with nextSeq := before.cur.nextSeq } } with
      | .next x => x.team before.cur.tid
      | _ => f.1
    let real := after.team before.cur.tid
    let g := if isLogged i || before.cur.nextSeq != real.nextSeq then before.cur.follow real f.1 else ({ run with accs := [] }, [])
    ({ a with
        size := a.size + 8 * (f.2 ++ g.2).length
        orig := a.orig ++ before.cur.signed real ++ before.cur.signedExit i
        copy := a.copy ++ f.1.signed run ++ f.1.signedExit i
        seen := some real
        shadow := some g.1 }, f.2 ++ g.2)
  | _, _ => (a, [])

/-- The audits of the team in focus advance with an instruction of it; a group whose log no longer fits is dropped. -/
def State.logIssue (before : State) (i : Instr) (s : State) : State :=
  let mine (a : Audit) : Bool := !a.engine && a.item == before.cur.group && a.seen.any fun t => t.tid == before.cur.tid
  match s.audits.find? mine with
  | none => s
  | some a =>
    let p := a.advance i before s
    let s := s.putLog a.place a.size (p.2.flatMap fun w => leBytes 8 w.toNat)
    let s := { s with audits := updFirst (· == a) (fun _ => p.1) s.audits }
    let size := sumOf Audit.size (s.audits.filter fun x => !x.engine && x.item == a.item)
    if 262144 < size then { s with audits := s.audits.filter fun x => x.engine || x.item != a.item } else s

/-- What a core whose logic has a fault that only Marten finds leaves in the destination of a lane instruction: free values
(R397, R399). -/
def State.wrongLanes (before : State) (i : Instr) (s : State) : State :=
  if s.faulty.contains (false, 2 * before.cur.cluster + before.cur.core) && laneComputes i then
    let wrong (t : Team) : Team := (destV i).foldl (fun t r =>
      t.setV r (tabulate t.lanes fun x => if before.cur.active x then Config.freeValue (s.freeCtr + x) 64 else nth 0 t.v[r] x)) t
    { s.modTeam before.cur.tid wrong with freeCtr := s.freeCtr + 1024 }
  else s

/-- Issues a decoded instruction of the team in focus: the allowance, the interlocks, the errors, and then its meaning. -/
def issueInstr (i : Instr) (s : State) : Out :=
  if s.overAllowance i then .next (s.suspend s.cur.tid)
  else
    let s := s.clearWay i
    if s.heldBack i then .next s
    else
      let p := s.consume i
      if !p.2 then .next p.1
      else
        match exec i (p.1.onCur Team.countIssue) with
        | .next s' =>
          if p.1.waitsAgain s' then .next s'
          else .next (p.1.logIssue i (p.1.wrongLanes i (p.1.noteIssued i s')))
        | o => o

/-- A parity error in a line of the instruction cache or the translation cache that a fetch uses: the line is fetched again,
with a record; met a second time, where it lasts, the core that meets it is fenced (R399; log 104). -/
def State.cacheFault (s : State) : Option (Poison × Poison × Bool × Bool) :=
  s.poison.findSome? fun p => match p with
    | .icache k b m => if k = 2 * s.cur.cluster + s.cur.core then some (p, .icache k b true, b, m) else none
    | .tcache c b m => if c = s.cur.cluster then some (p, .tcache c b true, b, m) else none
    | _ => none
def State.refetch (s : State) : State :=
  match s.cacheFault with
  | none => s
  | some (p, again, lasts, met) =>
    let c := s.cur.cluster
    let r : McRec := { mcOf s s.curCtx 9 c (if lasts && met then 2 else 0) 6 with det := (Config.freeValue s.freeCtr 64).toNat }
    let s := ((s.clearPoison p).machineCheck (dieOf c) r).drawFree.modCluster c fun x => { x with tlb := [] }
    let s := if lasts then s.markPoison again else s
    if lasts && met then s.fenceCore c s.cur.core else s

/-- A team that holds a tenure stands at a boundary: a pending trap, a suspension, or its next instruction. -/
def issueTeam (tid : Nat) (s : State) : Out :=
  let s := s.focus tid
  if s.cur.tid ≠ tid ∨ s.cur.st ≠ .ready ∨ !s.cur.tenure.isHeld ∨ !s.live then .next s
  else if !s.cur.pending.isEmpty then .next (s.boundaryTrap tid)
  else if s.cur.spent512 then .next (s.suspend tid)
  else
    let s := s.refetch
    if s.cur.st ≠ .ready then .next s else
    let p := s.fetch
    match p.2 with
    | .instr i => issueInstr i p.1
    | .illegal _ _ => execIllegalWord tid s
    | .wait => .next s
    | .fault _ _ | .poison => execFetchFault tid s

/-! ## The pipes (R215) -/

/-- Another tenure holder of a team's core that is ready with an instruction for the same pipe. -/
def State.rival (s : State) (tid : Nat) : Option Team :=
  let t := s.team tid
  ((s.holders t.cluster t.core).filter fun u => u.tid != tid && u.st == .ready).find? fun u => s.nextUniform u == s.nextUniform t
/-- Whether a team has an instruction to issue that no interlock and no allowance holds back (R217, R233). A team at whose
boundary something else comes first has none; one whose instruction cannot be fetched or decoded counts as having one. -/
def State.instrReady (s : State) (tid : Nat) : Bool :=
  let s := s.focus tid
  s.cur.pending.isEmpty && !s.cur.spent512 &&
    match s.fetch.2 with
    | .instr i => !s.fetch.1.overAllowance i && !(s.fetch.1.clearWay i).heldBack i
    | .wait => false
    | _ => true
/-- Whether a team was refused a pipe in the ck before this one. -/
def State.wasRefused (s : State) (c k tid : Nat) (uni : Bool) : Bool :=
  match ((s.cluster c).core k).refused with
  | some (x, p, t) => x == tid && p == uni && decide (t < s.ck) && decide (s.ck ≤ t + if s.powerCut then 2 else 1)
  | none => false
/-- The pipe's leader among a team and its rival, the team where neither leads. -/
def State.leaderOf (s : State) (tid rival : Nat) : Nat :=
  let t := s.team tid
  let k := (s.cluster t.cluster).core t.core
  if (if s.nextUniform t then k.uniLead else k.laneLead) = some rival then rival else tid
/-- Who issues when a pipe takes the next instruction of a team: of two that are ready the leader, unless the other was
refused in the previous ck; and who is refused. A team with nothing ready keeps no other from the pipe. -/
def State.arbitrate (s : State) (tid : Nat) : Nat × Option Nat :=
  match s.rival tid with
  | none => (tid, none)
  | some u =>
    if !s.instrReady u.tid || !s.instrReady tid then (tid, none)
    else
      let t := s.team tid
      let lead := s.leaderOf tid u.tid
      let other := if lead = tid then u.tid else tid
      if s.wasRefused t.cluster t.core other (s.nextUniform t) then (other, some lead) else (lead, some other)
def State.noteRefused (s : State) (tid : Nat) (loser : Option Nat) : State :=
  match loser with
  | none => s
  | some x =>
    let t := s.team tid
    let uni := s.nextUniform t
    s.modCore t.cluster t.core fun k => { k with refused := some (x, uni, s.ck) }

/-- The ck that an issue takes: one, or two under the power cut. -/
def State.issueCk (s : State) : Nat := if s.powerCut then 2 else 1
/-- Whether a team stands where it stood, with its instruction not issued. -/
def Team.stalled (before after : Team) : Bool :=
  before.st == .ready && after.st == .ready && before.pc == after.pc && before.tenure == after.tenure && before.tenure.isHeld
/-- Notes whether an instruction stands in place: the ck count as stalled for memory until it issues (R232). -/
def State.noteStall (before : State) (tid : Nat) (s : State) : State :=
  let t := s.team tid
  let at_ : Option Word := if (before.team tid).stalled t then some t.pc else none
  if t.stalledPc = at_ then s else s.modTeam tid fun t => { t with stalledPc := at_ }

/-- What goes on of itself before time passes: tasks that could start but for their engines begin to wait, and Sett
arrivals that a translation fault held are tried again (R195, R212). -/
def State.ambient (s : State) : State :=
  let s := (List.range s.clusters.length).foldl (fun s c => if (s.cluster c).tasks.isEmpty then s else s.noteWaiting c) s
  if s.settHeld.isEmpty then s else s.retryArrivals
def afterIssue (before : State) (tid : Nat) (o : Out) : Out :=
  match o with
  | .next s => .next ((State.noteStall before tid s).ambient.elapse s.issueCk)
  | o => o

/-! ## Turns -/

/-! ## General-purpose cores and the root core (R382, R384) -/

/-- The agent of an event in control space. -/
def eventAgent : Instr → Option Agent
  | .quotaRowWrite a .. | .tgmapWrite a .. | .ctxbaseWrite a .. | .podcfgWrite a .. | .mtcfgWrite a .. | .trinvWrite a ..
  | .frplyWrite a .. | .fbheadWrite a .. | .settTableWrite a .. | .settAbort a .. | .sealKeyWrite a .. | .lcstartWrite a ..
  | .lctailWrite a .. | .registerWrite a .. | .tcmdRetry a .. | .tcmdSkip a .. | .tcmdRegion a .. | .tcmdGoto a ..
  | .tcmdKill a .. | .tcmdAnswer a .. | .assign a .. | .share a .. | .unshare a .. | .reclaim a .. | .destroy a .. => some a
  | _ => none
/-- The events of links, which carry nothing until the wipe is done, nor once a machine check has stopped the device (R409,
R411). -/
def isLinkEvent : Instr → Bool
  | .sealedUnitSend .. | .sealedUnitReceive .. | .linkControlReceive .. | .linkAckTimeout .. | .remoteElementArrive ..
  | .mailboxFlit .. | .settParameterExchange .. | .settChunkStep .. | .settStopReceive .. => true
  | _ => false
/-- The events of engines, which a device machine check stops as it does the cores (R409). -/
def isEngineEvent : Instr → Bool
  | .taskStart _ | .taskPass .. | .taskComplete .. | .probeStart .. => true
  | _ => false
/-- The steps of units that read or write HBM as they act: they wait while a link on the package holds its traffic (R387,
R390). The spec does not say where on the package these units sit, so the model lets each wait for every link (log 103). -/
def unitInMemory : Instr → Bool
  | .barrierUnitFrame _ | .lkacqTimeout _ | .emitSlotGrant _ | .stageEvaluation _ | .coalesceTimeout .. | .conveyanceWrite _
  | .conveyanceComplete _ | .supervisorRecordWrite _ | .preemptSave _ | .teamRestore _ | .evictedReturn _ | .lodgeEvict ..
  | .launchAccept _ | .chainEntryProcess | .launchComplete _ | .multicastApply .. | .ownershipChangeComplete _ => true
  | _ => false
/-- Whether an event can happen: an access in control space is that of a hart that runs, in the world that it carries, or the
root core's; links and engines act unless the device is wiped or stopped; and units reach memory over open links. -/
def State.acts (s : State) (e : Instr) : Bool :=
  (match eventAgent e with
    | some (.gp w) => s.live && s.harts.any fun h => h.world == w && h.pc.isSome
    | _ => true) &&
  !(isLinkEvent e && (s.boot == .wiping || s.mcStop)) && !(isEngineEvent e && s.mcStop) &&
  !(unitInMemory e && !s.memoryOpen)

/-- Whether every frame of a range admits an access. -/
def rangeOk (ok : Nat → Bool) (pa n : Nat) : Bool := (pagePieces pa n).all fun p => ok p.1
/-- The world of a hart that runs. -/
def State.hartWorld (s : State) (h : Nat) : Option Nat :=
  match s.harts[h]? with
  | some x => if s.live && x.pc.isSome then some x.world else none
  | none => none
/-- Whether an address lies in control space. -/
def inControl (pa : Nat) : Bool := decide (controlBase ≤ pa) && decide (pa < controlBase + 0x8000000000)
/-- Whether the links carry an access of a die to bytes of HBM by physical address. -/
def State.bytesOpen (s : State) (die pa n : Nat) : Bool :=
  (List.range ((pa + n) / 4096 + 1 - pa / 4096)).all fun i => s.readOpen die ((pa / 4096 + i) * 4096)
/-- A hart's store or load where its world may reach, or its access-fault exception (R382, R384, R418). -/
def State.hartStore (s : State) (h pa : Nat) (bytes : List Byte) : Out :=
  match s.hartWorld h with
  | none => .next s
  | some w =>
    if inControl pa then execRegisterWrite (.gp w) pa bytes.length (word (leNat bytes)) s
    else if !rangeOk (s.frameOk w) pa bytes.length then .next (s.accessFault (.gp w) pa)
    else if s.bytesOpen (h / 8) pa bytes.length then .next (s.store (.hbm pa) bytes.length (leNat bytes)).settleAll
    else .next s
def State.hartLoad (s : State) (h pa n : Nat) : State :=
  match s.hartWorld h with
  | none => s
  | some w =>
    if inControl pa then
      let p := s.controlRead (.gp w) pa n
      match p.2 with
      | some v => { p.1 with gpLoads := p.1.gpLoads ++ [(h, pa, v.toNat)] }
      | none => p.1
    else if !rangeOk (s.frameOk w) pa n then s.accessFault (.gp w) pa
    else if s.bytesOpen (h / 8) pa n then { s with gpLoads := s.gpLoads ++ [(h, pa, s.hbmRead pa n)] }
    else s
/-- What a hart or the root core has become by code of its own (R2). -/
def State.hartRun (s : State) (h pc : Nat) (regs : List (Nat × Nat)) : State :=
  if (s.hartWorld h).isSome then { s with harts := updAt s.harts h fun x => { x with pc := some pc, regs := regs } } else s
/-- The root core stores in control space, and in the frames that world 0xFFFF owns, and in no others. -/
def State.rootReach (s : State) (pa n : Nat) : Bool :=
  rangeOk (fun a => decide (a < s.part.hbmBytes) && s.frameWorld a == 0xFFFF) pa n
def State.rootStore (s : State) (pa : Nat) (bytes : List Byte) : Out :=
  if inControl pa then execRegisterWrite .root pa bytes.length (word (leNat bytes)) s
  else if !s.rootReach pa bytes.length then .next (s.accessFault .root pa)
  else if s.bytesOpen 0 pa bytes.length then .next (s.store (.hbm pa) bytes.length (leNat bytes))
  else .next s
def State.rootLoad (s : State) (pa n : Nat) : State :=
  if inControl pa then
    let p := s.controlRead .root pa n
    match p.2 with
    | some v => { p.1 with rootLoads := p.1.rootLoads ++ [(pa, v.toNat)] }
    | none => p.1
  else if !s.rootReach pa n then s.accessFault .root pa
  else if s.bytesOpen 0 pa n then { s with rootLoads := s.rootLoads ++ [(pa, s.hbmRead pa n)] }
  else s
/-- The oldest mailbox flit of a source. -/
def State.takeMail (s : State) (src : Nat) : State :=
  match s.mail.find? fun m => m.1 == src with
  | some m => { s with mail := eraseFirst (· == m) s.mail, mailRead := s.mailRead ++ [m] }
  | none => s

/-! ## Errors in what the device's units handle (R399, R400; log 104) -/

/-- The team whose escort frame an event handles. -/
def State.frameOf (s : State) : Instr → Option Nat
  | .penMerge tid | .watchWake tid | .barrierUnitFrame tid | .frameLand tid | .evictedReturn tid | .recall tid => some tid
  | .lodgeToRegister c k => (minBy Prod.fst (s.lodgedOn c k)).map fun p => p.2.tid
  | _ => none
/-- The entry of a fault buffer that a write replays. -/
def State.replayOf (s : State) : Instr → Option (Nat × Nat)
  | .frplyWrite _ d w => some (d, w.toNat)
  | .registerWrite _ a _ v => match ctrlReg s.part a with | some (.frply d) => some (d, v.toNat) | _ => none
  | _ => none
/-- A frame's lanes stand in the register store again, with their errors. -/
def State.landErrors (s : State) (tid : Nat) : State :=
  { s with poison := s.poison.map fun p => match p with
      | .frameLane t r x => if t = tid then .vreg t r x else p
      | _ => p }
/-- The group of an error that no retry mends is killed, with a record. -/
def State.killFor (s : State) (p : Poison) (kind h c : Nat) : State :=
  (((s.clearPoison p).contained (dieOf c) (s.group h).ctx kind c 0).killGroup h 0x1C).settleAll
/-- A frame that is handled: an error in its header kills its group. -/
def State.frameErrors (s : State) (tid : Nat) : State :=
  if s.poisoned (.frame tid) then s.killFor (.frame tid) 5 (s.team tid).group (s.team tid).cluster else s.landErrors tid
/-- A pool record that is read: an error in it fails its task. -/
def State.recordErrors (s : State) (c id : Nat) : State :=
  match s.task? c id with
  | some k =>
    if s.poisoned (.taskRec c id) && k.st == .running then
      ((s.clearPoison (.taskRec c id)).contained (dieOf c) k.ctx 8 c 0).failTask c k 3
    else s
  | none => s
/-- An entry of a fault buffer that is replayed: an error in it kills the group that it belongs to. -/
def State.entryErrors (s : State) (d n : Nat) : State :=
  match (s.die d).faults.find? fun e => e.idx % 2048 == n && e.ref != .dropped with
  | some e => if s.poisoned (.faultEntry d e.idx) then s.killFor (.faultEntry d e.idx) 8 e.group (32 * d) else s
  | none => s
/-- What errors in the storage that an event reads do before it. -/
def State.meets (s : State) (e : Instr) : State :=
  if s.poison.isEmpty then s
  else
    let s := match s.frameOf e with | some tid => s.frameErrors tid | none => s
    let s := match e with | .taskPass c id => s.recordErrors c id | _ => s
    match s.replayOf e with | some p => s.entryErrors p.1 p.2 | none => s
/-- A record that has gone through faulty staging storage is marked. -/
def State.noteStaging (before s : State) : State :=
  if s.poison.isEmpty then s
  else
    let saved (t : Team) : Bool := match t.st with | .saved _ => true | _ => false
    (s.teams.filter fun t => saved t && !saved (before.team t.tid) && s.poisoned (.staging t.cluster)).foldl
      (fun s t => (s.clearPoison (.staging t.cluster)).markPoison (.saved t.tid)) s

/-- A step of the device, or one that an outside agent asks for. An event that is an instruction of a team is none of the
device's. -/
def runEvent (e : Instr) (s : State) : Out :=
  if e.encodable || !s.acts e then .next s
  else
    match exec e (s.meets e) with
    | .next s' => .next (s.noteStaging s')
    | o => o

/-- One turn. -/
def runTurn (t : Turn) (s : State) : Out :=
  match t with
  | .issue tid =>
    let p := s.arbitrate tid
    afterIssue s p.1 (issueTeam p.1 (s.noteRefused tid p.2))
  | .event e => runEvent e s
  | .elapse n => .next (s.ambient.elapse n)
  | .enterWorld h w => .next (if w = 0xFFFF then s else { s with harts := updAt s.harts h fun x => { x with world := w } })
  | .gpStore h pa bytes => s.hartStore h pa bytes
  | .gpLoad h pa n => .next (s.hartLoad h pa n)
  | .rootStore pa bytes => s.rootStore pa bytes
  | .rootLoad pa n => .next (s.rootLoad pa n)
  | .takeMail src => .next (s.takeMail src)
  | .sendMail dst payload => .next (if s.podEn && dst != s.podDev && decide (dst < s.podSize) then
      s.sendFlit dst 2 0 (.mailbox payload) else s)
  | .readEntry h n => .next (match s.estateEntry h n with
      | some l => { s with entriesRead := s.entriesRead ++ [l] }
      | none => s)
  | .freeRegion c base => .next (if s.live then s.freeRegion c base else s)
  | .flash n image => .next { s with flash := Vector.ofFn fun i => if i.val = n then image else s.flash[i] }
  | .linkRequest port r => .next (s.linkRequest port r)
  | .linkSession port result => .next (if s.serves then s.linkSession port result else s)
  | .linkKey port => .next (if s.serves then s.linkKey port else s)
  | .world w => .next (if s.live then s.createWorld w else s)
  | .worldSend w payload => .next (if s.live then s.worldSend w payload else s)
  | .worldTake w => .next (if s.live then s.worldTake w else s)
  | .osRunning => .next s.setRunning
  | .wipeFails => .next s.wipeFailed
  | .thirdFails item unit => .next (s.abandonThird item unit)
  | .readBar0 off => .next (s.readBar0 off)
  | .hartRun h pc regs => .next (s.hartRun h pc regs)
  | .rootRun core => .next (if s.rootUp then { s with root := core } else s)
  | .rootDebug core => .next (if s.fuses.debugOpen then { s with root := core } else s)

/-! ## The default turn -/

/-- Steps that the device may have to take for a team. -/
def State.teamSteps (_s : State) (t : Team) : List (State → Out) :=
  let n := t.tid
  let elems := t.accs.flatMap fun a => (List.range a.elems.length).filterMap fun i =>
    if (nth .zero a.elems i).st = .todo then some (execFetchAccess n a.seq i none) else none
  elems ++ (t.accs.map fun a => execUnescortedResult n a.seq) ++
    match t.st with
    | .stopping => [execTeamStop n]
    | .preempting | .evicting => [execPreemptSave n]
    | .saved _ => [execTeamRestore n, execEvictedReturn n]
    | .abroad => [execRecall n, execPreemptSave n, (fun s => execPenMerge n (s.frameErrors n)), execWatchWake n, execBarrierUnitFrame n, execLaunchAccept n,
        execEmitSlotGrant n, execMtaskRecordGrant n, execKickEntryGrant n, execLkacqTimeout n,
        (fun s => execFrameLand n (s.frameErrors n))]
    | .waitWord => [execBarrierUnitFrame n, execLaunchAccept n, execEmitSlotGrant n, execMtaskRecordGrant n, execKickEntryGrant n, execLkacqTimeout n]
    | _ => []

/-- Steps for a cluster. -/
def State.clusterSteps (s : State) (c : Nat) : List (State → Out) :=
  let x := s.cluster c
  [execBudgetGrant c 0, execBudgetGrant c 1, execLodgeToRegister c 0, execLodgeToRegister c 1, execLodgeEvict c 0,
    execLodgeEvict c 1, execCombineEntryTimeout c 0, execCombineEntryTimeout c 1, execTaskStart c, execStageEvaluation c,
    execCongestionWindow c] ++
  x.tasks.flatMap (fun k => [(fun s => execTaskPass c k.id (s.recordErrors c k.id)), execTaskComplete c k.id, execTaskAging c k.id]) ++
  (if x.copies.isEmpty then [] else (List.range 8).map fun n => execCopyPiece c (Fin.ofNat 8 n)) ++
  (x.allocs.filter Alloc.clearing).map fun a => execAllocationClear c a.base

/-- Steps of the rest of the device. -/
def State.deviceSteps (s : State) : List (State → Out) :=
  (s.teams.filterMap fun t => match t.escort with
    | some e => if e.place = .request then some (execCarrierAdmit e.slice) else none
    | none => none) ++
  (s.groups.flatMap fun g => [execConveyanceWrite g.handle, execConveyanceComplete g.handle, execThrottleWindow g.handle]) ++
  (s.collectives.flatMap fun k => (List.range 8).map fun d => execSettParameterExchange k.buf d k.num) ++
  ((List.range s.supRecs.length).map execSupervisorRecordWrite) ++
  (s.launches.map fun l => execLaunchComplete l.handle) ++ [execChainEntryProcess, execTrinvComplete] ++
  ((List.range s.changes.length).map execOwnershipChangeComplete) ++
  ((List.range s.dies.length).flatMap fun h => (List.range 4).map fun d => execMulticastApply h d)

/-- The first of some steps that changes anything. -/
def State.firstProgress (s : State) (l : List (State → Out)) : Option Out :=
  l.findSome? fun f => match f s with
    | .next s' => if s' = s then none else some (.next s')
    | _ => none

/-- A core that may grant a tenure does so. -/
def State.grantTurn (s : State) : Option Out :=
  (s.teams.find? fun t => t.st == .ready && !t.tenure.isHeld && !((s.cluster t.cluster).core t.core).fenced &&
    decide ((s.holders t.cluster t.core).length < 2)).map fun t => execTenureGrant t.cluster t.core s

/-- The teams that may issue share the clock ticks out among them. -/
def State.issueTurn (s : State) : Option Out :=
  let l := s.teams.filter fun t => t.st == .ready && t.tenure.isHeld
  l[s.ck % l.length]?.map fun t => runTurn (.issue t.tid) s

/-- A tenure granted, or the first step of the device that changes anything. -/
def State.progressTurn (s : State) : Option Out :=
  match s.grantTurn with
  | some o => some o
  | none => if !s.memoryOpen then none else s.firstProgress (s.teams.flatMap s.teamSteps ++ s.deviceSteps ++
      (List.range s.clusters.length).flatMap s.clusterSteps)

/-- What comes next when nothing has been arranged: a choice of the model, of which no statement may make use. The teams
issue, but at every sixteenth clock tick the rest of the device goes first, so that neither keeps the other waiting. -/
def autoTurn (s : State) : Out :=
  if !s.live then execWipeComplete s
  else if s.ck % 16 = 15 then
    match s.progressTurn with
    | some o => o
    | none => s.issueTurn.getD (runTurn (.elapse 1) s)
  else
    match s.issueTurn with
    | some o => o
    | none => s.progressTurn.getD (runTurn (.elapse 1) s)

/-- Takes the next turn of the agenda, or the default one; a device that has stopped, with nothing arranged, ends the
run. -/
def stepTurn (s : State) : Out :=
  match s.agenda with
  | t :: rest => runTurn t { s with agenda := rest }
  | [] =>
    if s.mcStop then .fault .machineCheck
    else if s.boot = .stopped then .fault .bootStopped
    else autoTurn s

end Sys2Proof.Machine
end

