-- ==== Sys2Proof/Machine/Placement.lean ====
section
/-! DEFINITION. A program placed from outside: the launch that software would make for one team, with its code in memory
(R309 to R316, R334, R341, R383). -/
namespace Sys2Proof.Machine
open Sys2Proof

/-! The placement uses four frames of HBM: 0 for the frame ownership table, 1 for page tables, 2 for code, 3 for context
descriptors. Context 0 belongs to world 0, and its one page of code is at virtual address 0x40_0000. -/

def placedVa : Nat := 0x400000

/-- Ownership entries of the four frames. -/
def placedFot : List Byte := [0xFFFF4000, 0x00004000, 0x00004000, 0x00004000].flatMap (leBytes 4)

/-- Tables of levels 0 to 3, and the descriptor of context 0. -/
def State.placeTables (s : State) : State :=
  (((((s.hbmWrite 0 placedFot).hbmWrite 0x10000 (leBytes 8 0x11001)).hbmWrite 0x11000 (leBytes 8 0x12001)).hbmWrite 0x12010
    (leBytes 8 0x13001)).hbmWrite 0x13000 (leBytes 8 0x8000000000020003)).hbmWrite 0x30000
    ([word 0x10001, 0, 0, 0, 0, 0, 0, 0].flatMap fun w => leBytes 8 w.toNat)

/-- A name that nothing in a list has. -/
def newName (l : List Nat) : Nat := l.foldl max 0 + 1

/-- The kernel of the placed team: one lane word, all 96 lane registers. -/
def placedKernel : Kernel := { Kernel.empty with code := placedVa, lwords := 1, nregs := 96 }

def State.placedLaunch (s : State) : Launch :=
  { Launch.empty with
    handle := newName (s.launches.map Launch.handle)
    clusters := [0]
    stages := [{ Stage.empty with kernel := placedKernel, queues := [.empty 0] }] }
def State.placedGroup (s : State) : Group :=
  { Group.empty with
    handle := newName (s.groups.map Group.handle)
    launch := newName (s.launches.map Launch.handle) }
/-- The team, in a held tenure, at the first word of the code. -/
def State.placedTeam (s : State) : Team :=
  { newTeam s.nextTid s.placedLaunch s.placedGroup placedKernel 0 0 0 0 0 s.ck with tenure := .held 0 }

/-- A device that runs, its on-package links keyed, with some bytes as the code of one team, and that team's issue as the next
turn. -/
def State.placeCode (s : State) (code : List Byte) : State :=
  let m := s.placeTables.hbmWrite 0x20000 code
  { m with
    boot := .running
    mcStop := false
    fotbase := 0
    ctxbase := 0x30000
    poison := []
    walked := []
    pkgLinks := s.pkgLinks.map fun l => { l with up := true }
    seals := Vector.ofFn fun i => if s.seals[i].st = 1 then s.seals[i] else s.packageKey s.seals[i] i.val
    clusters := setNth s.clusters 0 ({ s.cluster 0 with tlb := [] }.modCore 0 fun k =>
      { k with laneLead := some s.nextTid, uniLead := some s.nextTid, refused := none })
    launches := s.launches ++ [s.placedLaunch]
    groups := s.groups ++ [s.placedGroup]
    others := s.teams
    cur := s.placedTeam
    nextTid := s.nextTid + 1
    agenda := [.issue s.nextTid] }

end Sys2Proof.Machine
end

