-- ==== Sys2Proof/Machine/Step.lean ====
section
/-! DEFINITION. One step of the device, and an instruction placed where the next step fetches. -/
namespace Sys2Proof.Machine
open Sys2Proof

/-- One step: the next turn of the agenda, or the default turn. -/
def step (s : State) : Host.Outcome State Fault Refusal := stepTurn s

/-- The state with an instruction, given as its bits from the first word up, where the next step fetches and issues it.
It stands for the load of a program from outside the machine. -/
def State.withFetchWord (s : State) (nbits w : Nat) : State := s.placeCode (leBytes 8 (w % 2 ^ nbits))

end Sys2Proof.Machine
end

