-- ==== Sys2Proof/Safety.lean ====
section
/-! DEFINITION. What claims about the machine speak of: the canonical form of memory, what an instruction may change of
its team, what it leaves alone, and the exact values that float results round. -/
namespace Sys2Proof
open Sys2Proof.Machine

/-! ## Invariants -/

/-- Both memories hold their canonical form: addresses strictly rising, and no byte listed that is zero. -/
def MemOk (s : State) : Prop := Memory.wf s.hbm = true ∧ Memory.wf s.spad = true

/-- A team's masks as R39 keeps them: m0 to m5 hold no bit at or beyond the lane count and none of a dead lane. -/
def MasksOk (t : Team) : Prop := ∀ k : MDst, t.m[k.val] &&& t.full = t.m[k.val] ∧ t.m[k.val] &&& t.dead = 0

/-- Every team's masks are as R39 keeps them. -/
def AllMasksOk (s : State) : Prop := ∀ t, t = s.cur ∨ t ∈ s.others → MasksOk t

/-! ## What a step leaves alone -/

/-- Every byte of HBM and of scratchpad reads as before. -/
def SameBytes (s t : State) : Prop :=
  (∀ pa, t.hbmByte pa = s.hbmByte pa) ∧ ∀ c off, t.spadByte c off = s.spadByte c off

/-- Nothing changes but the team in focus: no byte of memory, no other team, no register of any unit. -/
structure OnlyTeam (s t : State) : Prop where
  rest : t = { s with cur := t.cur }
  bytes : SameBytes s t

/-- An instruction completes: its execution answers a next state that differs in the team in focus alone, as `P`
says. -/
def Runs (i : Instr) (s : State) (P : Team → Team → Prop) : Prop :=
  ∃ t, exec i s = .next t ∧ OnlyTeam s t ∧ P s.cur t.cur

/-! ## What an instruction does to its team -/

/-- Lane `x` of a lane register or latch. -/
abbrev laneAt (v : LaneVal) (x : Nat) : Word := nth 0 v x

/-- The flags an instruction raises are ORed into `%fflags`, and an enabled one leaves the arithmetic trap, cause 4,
pending with those flags as its detail (R33, R34). -/
structure Raised (fl : FFlags) (a b : Team) : Prop where
  flags : b.fflags = a.fflags ||| fl
  pending : b.pending = a.pending ++
    if fl.setWidth 5 &&& a.ftrap = 0 then [] else [(4, (fl &&& 0x1F).setWidth 64)]

/-- The lane latches move up by one, and f0 is the new one; the uniform latches stay (R42). -/
structure LanePush (a b : Team) : Prop where
  shift : ∀ x, b.fl[1] = a.fl[0] ∧ b.fl[2] = a.fl[1] ∧ b.fl[3] = a.fl[2] ∧ b.fvalid.getLsbD 0 = true ∧
    (x < 3 → b.fvalid.getLsbD (x + 1) = a.fvalid.getLsbD x) ∧ (4 ≤ x → b.fvalid.getLsbD x = a.fvalid.getLsbD x)
  uniform : b.fu = a.fu

/-- Lane registers after a lane result: each active lane of `d` holds what f0 holds there, every other lane and every
other register is as before, and a written register is live (R42, R44, R60, R116). -/
structure LaneDest (d : VDst) (a b : Team) : Prop where
  lanes : ∀ r, d = some r → ∀ x, x < a.lanes →
    laneAt b.v[r] x = if a.active x then laneAt b.fl[0] x else laneAt a.v[r] x
  live : ∀ r, d = some r → (∃ x, x < a.lanes ∧ a.active x = true) → b.deadV[r] = 0
  others : ∀ r, d ≠ some r → b.v[r] = a.v[r] ∧ b.deadV[r] = a.deadV[r]

/-- A lane instruction of `n` bytes with destination `d` that raises `fl` and whose result in active lane `x` is as `P`
says: the result enters f0 and, unless `nwb`, `d`; an inactive lane of f0 holds zero; nothing else of the team changes
(R42, R53, R60, R116). -/
structure LaneEffect (n : Nat) (d : VDst) (fl : FFlags) (P : Nat → Word → Prop) (a b : Team) : Prop where
  pc : b.pc = a.pc + word n
  raised : Raised fl a b
  push : LanePush a b
  value : ∀ x, x < a.lanes → a.active x = true → P x (laneAt b.fl[0] x)
  idle : ∀ x, x < a.lanes → a.active x = false → laneAt b.fl[0] x = 0
  dest : LaneDest d a b
  frame : b = { a with
    pc := b.pc, fflags := b.fflags, pending := b.pending, fl := b.fl, fvalid := b.fvalid, v := b.v, deadV := b.deadV }

/-- A word whose sub-element `j` at width `w` is `f j`, for every sub-element it has (R37). -/
def Subs (w : Nat) (f : Nat → Nat) (v : Word) : Prop := ∀ j, j < 64 / w → subEl w v j = f j

/-- A mask instruction that raises `fl` and whose mask holds lane `x` as `P` says: m`d` holds exactly the lanes of the
team that are not dead and satisfy `P`; no latch moves and nothing else changes (R39, R42, R126). -/
structure MaskEffect (d : MDst) (fl : FFlags) (P : Nat → Prop) (a b : Team) : Prop where
  pc : b.pc = a.pc + 4
  raised : Raised fl a b
  value : ∀ x, x < 1024 → (b.m[d.val].getLsbD x = true ↔ x < a.lanes ∧ a.dead.getLsbD x = false ∧ P x)
  others : ∀ k : MReg, k.val ≠ d.val → b.m[k.val] = a.m[k.val]
  frame : b = { a with pc := b.pc, fflags := b.fflags, pending := b.pending, m := b.m }

/-- A uniform instruction of 4 bytes that raises `fl` and whose result is `v`: it enters f4 and, unless `nwb`, `d`, which
is live from then on; nothing else of the team changes (R42, R44, R60, R90). -/
structure UniEffect (d : SDst) (fl : FFlags) (v : Word) (a b : Team) : Prop where
  pc : b.pc = a.pc + 4
  raised : Raised fl a b
  latches : b.fu[0] = v ∧ b.fu[1] = a.fu[0] ∧ b.fu[2] = a.fu[1] ∧ b.fu[3] = a.fu[2] ∧ b.fl = a.fl
  valid : ∀ x, b.fvalid.getLsbD 4 = true ∧ (x < 4 → b.fvalid.getLsbD x = a.fvalid.getLsbD x) ∧
    (x < 3 → b.fvalid.getLsbD (x + 5) = a.fvalid.getLsbD (x + 4))
  dest : ∀ r, d = some r → b.s[r] = v ∧ b.deadS.getLsbD r.val = false
  others : ∀ r : SReg, d ≠ some r → b.s[r] = a.s[r] ∧ b.deadS.getLsbD r.val = a.deadS.getLsbD r.val
  frame : b = { a with
    pc := b.pc, fflags := b.fflags, pending := b.pending, fu := b.fu, fvalid := b.fvalid, s := b.s, deadS := b.deadS }

/-- An instruction of `n` bytes that raises `fl` and does nothing else to its team. -/
structure Passes (n : Nat) (fl : FFlags) (a b : Team) : Prop where
  raised : Raised fl a b
  frame : b = { a with pc := a.pc + word n, fflags := b.fflags, pending := b.pending }

/-- The tenure of the team in focus has ended: its latches are invalid, neither lead of its core names it, and nothing
but the team and the cores' leads has changed (R43, R215, R218). -/
structure TenureOver (s t : State) : Prop where
  latches : t.cur.fvalid = 0
  tenure : t.cur.tenure = .none
  rest : t = { s with cur := t.cur, clusters := t.clusters }
  clusters : ∀ c, t.cluster c = { s.cluster c with core0 := (t.cluster c).core0, core1 := (t.cluster c).core1 }
  cores : ∀ c k, (t.cluster c).core k =
    { (s.cluster c).core k with laneLead := ((t.cluster c).core k).laneLead, uniLead := ((t.cluster c).core k).uniLead }
  leads : s.cur.cluster < s.clusters.length → ((t.cluster s.cur.cluster).core s.cur.core).laneLead ≠ some s.cur.tid ∧
    ((t.cluster s.cur.cluster).core s.cur.core).uniLead ≠ some s.cur.tid
  bytes : SameBytes s t

/-- The team in focus takes an exception: `%tcause` and `%tinfo` are written, its tenure ends and it stops with its PC at
the instruction, every other register, mask and flag as it was (R110, R324, R325). -/
structure TrapTaken (cause : BitVec 8) (info : Word) (s t : State) : Prop where
  ended : TenureOver s t
  team : t.cur = { s.cur with
    tcause := cause, tinfo := info, st := .stopping, fvalid := 0, tenure := .none, idleSince := s.ck }

/-- The team in focus takes an exception once its operands are read: the flags `fl` of the reads are raised, and nothing else
has been done (R44, R324). -/
def TrapRead (fl : FFlags) (cause : BitVec 8) (info : Word) (s t : State) : Prop :=
  ∃ u, Raised fl s.cur u ∧ u = { s.cur with fflags := u.fflags, pending := u.pending } ∧
    TrapTaken cause info { s with cur := u } t

/-- A taken transfer to `target` whose effect on the team, the program counter apart, is `E`: a target that is no multiple
of 4 traps with the target as detail and no effect; a backward one in a tenure whose quantum is spent also ends the
tenure; any other changes nothing but the team (R91, R97, R218). -/
def Jumps (i : Instr) (s : State) (target : Word) (E : Team → Team → Prop) : Prop :=
  (target.toNat % 4 ≠ 0 → ∃ t, exec i s = .next t ∧ TrapTaken 5 target s t) ∧
  (target.toNat % 4 = 0 → ¬ (target.toNat ≤ s.cur.pc.toNat ∧ s.cur.quantumSpent = true) →
    Runs i s fun u v => v.pc = target ∧ E u { v with pc := u.pc }) ∧
  (target.toNat % 4 = 0 → target.toNat ≤ s.cur.pc.toNat → s.cur.quantumSpent = true →
    ∃ t m, exec i s = .next t ∧ TenureOver s t ∧ E s.cur m ∧ t.cur = { m with
      pc := target, fvalid := 0, tenure := .none, st := .ready, idleSince := s.ck, readyAt := s.ck, readyPrev := false })

/-- A uniform instruction of `n` bytes whose result `v` comes from memory, from another agent or from a unit: it enters
`d`, and no latch moves (R42). -/
structure Returns (n : Nat) (d : SDst) (fl : FFlags) (v : Word) (a b : Team) : Prop where
  pc : b.pc = a.pc + word n
  raised : Raised fl a b
  dest : ∀ r, d = some r → b.s[r] = v ∧ b.deadS.getLsbD r.val = false
  others : ∀ r : SReg, d ≠ some r → b.s[r] = a.s[r] ∧ b.deadS.getLsbD r.val = a.deadS.getLsbD r.val
  frame : b = { a with pc := b.pc, fflags := b.fflags, pending := b.pending, s := b.s, deadS := b.deadS }

/-! ## Memory instructions -/

/-- Whether a byte of HBM, or of a cluster's scratchpad, lies in the `n` bytes at a target. -/
def inHbm (tgt : Target) (n pa : Nat) : Prop := match tgt with | .hbm p => p ≤ pa ∧ pa < p + n | _ => False
def inSpad (tgt : Target) (n c off : Nat) : Prop :=
  match tgt with | .spad d o => spadKey d o ≤ spadKey c off ∧ spadKey c off < spadKey d o + n | _ => False

/-- Every byte outside the `n` bytes at a target reads as before. -/
def OnlyBytes (tgt : Target) (n : Nat) (s t : State) : Prop :=
  (∀ pa, ¬ inHbm tgt n pa → t.hbmByte pa = s.hbmByte pa) ∧
  ∀ c off, ¬ inSpad tgt n c off → t.spadByte c off = s.spadByte c off

/-- Every byte outside those of the elements reads as before. -/
def OnlyElems (es : List Elem) (s t : State) : Prop :=
  (∀ pa, (∀ e ∈ es, ∀ tgt, e.tgt = some tgt → ¬ inHbm tgt e.size pa) → t.hbmByte pa = s.hbmByte pa) ∧
  ∀ c off, (∀ e ∈ es, ∀ tgt, e.tgt = some tgt → ¬ inSpad tgt e.size c off) → t.spadByte c off = s.spadByte c off

/-- Nothing of the team in focus is outstanding, and nothing of other agents would be woken or consumed by a write: no
access in flight, no entry of the combining buffers, no poison, no team in an escort, no update of a replicated page on
its way; and both memories are in their canonical form. -/
structure Calm (s : State) : Prop where
  accs : s.cur.accs = []
  comb : ∀ c k, ((s.cluster c).core k).comb = []
  poison : s.poison = []
  escorts : ∀ t ∈ s.teams, t.escort = none
  series : ∀ d, (s.die d).series = []
  focus : s.cur.tid ≠ 0 ∧ s.cur.escort = none ∧ s.cur.st = .ready
  mem : MemOk s

/-- An address operand names 8 bytes at a place of this device that is no replica, for the access kind `acc`, and no link
holds up its walk, whatever the estate and the free values hold. -/
def Reaches (s : State) (k : AddrKind) (addr acc : Nat) (pl : Place) : Prop :=
  (∀ c gs n, ({ s with cur := c, groups := gs, freeCtr := n }.place s.cur.cluster s.curGroup k addr 8 acc).2 = .ok pl) ∧
  (∀ c gs n, { s with cur := c, groups := gs, freeCtr := n }.wayOpen s.cur.cluster s.curGroup.ctx k addr = true) ∧
  addr % 8 = 0 ∧ pl.tgt.device = 16 ∧ ∀ home, pl.kind ≠ .replicated home

/-- The elements of a memory instruction: every one aligned, none of scratchpad beside a global one, each with a place or
held for a translation fault, no flag of `stf` on another device than its data, and no walk that waits for a link (R143, R144,
R149, R156, R387). -/
structure Admitted (s : State) (k : AddrKind) (op : AccOp) (raws : List Raw) (s' : State) (es : List Elem) : Prop where
  aligned : ∀ r ∈ raws, r.va % r.size = 0
  unmixed : k = .either → (∀ r ∈ raws, r.va < 0x400000) ∨ ∀ r ∈ raws, 0x400000 ≤ r.va
  placed : placeRaws s.cur.cluster s.curGroup k op s raws = (s', es, [])
  flags : flagsAstray es = []
  ways : ∀ r ∈ raws, s.wayOpen s.cur.cluster s.curGroup.ctx k r.va = true

/-- What a memory instruction asks for: its operation, whether it is escorted, order and scope, wait class, destination,
address kind, whether it acts through m7, its elements, its length in bytes and the flags of its operand reads. -/
structure MemShape where
  op : AccOp
  esc : Bool
  ord : Ord
  scope : Scope
  cls : WaitClass
  dst : AccDst
  kind : AddrKind
  resumes : Bool
  raws : List Raw
  len : Nat
  flags : FFlags

/-- The lanes that a resumable instruction acts on: those of m0, or of m0 AND m7 where m7 is not empty (R152). -/
def actingLanes (t : Team) : List Nat :=
  (List.range t.lanes).filter fun x => t.active x && (t.pend7 == 0 || t.pend7.getLsbD x)

/-- One element of `w` bits per lane. -/
def perLane (xs : List Nat) (w : Nat) (addr arg aux : Nat → Nat) : List Raw :=
  xs.map fun x => ⟨x, 0, addr x, w / 8, arg x, aux x, false⟩
/-- One element of `w` bits per sub-element of each lane. -/
def perElem (xs : List Nat) (w : Nat) (addr arg : Nat → Nat → Nat) : List Raw :=
  xs.flatMap fun x => (List.range (64 / w)).map fun j => ⟨x, j, addr x j, w / 8, arg x j, 0, false⟩

/-- The value that a uniform source holds, cut to `w` bits. -/
def lowBits (t : Team) (a : USrc) (w : Nat) : Nat := (t.uniSrc a).toNat % 2 ^ w

/-- The memory instructions: elements, addresses and operands as R153 to R161 give them. -/
def memShape (i : Instr) (t : Team) : Option MemShape :=
  let xs := actingLanes t
  let act := t.activeLanes
  let addr (a : LSrc) (x : Nat) : Nat := (t.laneSrc 64 a x).toNat
  let fl (ys : List Nat) (l : List LSrc) : FFlags := flagUnion (l.map (t.srcFlagsAt ys))
  let load (esc res : Bool) (o : Ord) (sc : Scope) (k : AddrKind) (ys : List Nat) (w : IW) (x : LdAux) (d : VReg) (a : LSrc) :
      MemShape :=
    let n := iwBits w
    let raws := match x with
      | .whole => perElem ys n (fun l j => (addr a l + j * (n / 8)) % 2 ^ 64) fun _ _ => 0
      | _ => perLane ys n (addr a) (fun _ => 0) fun _ => 0
    let form : LoadForm := match x with | .zx => .zx w | .sx => .sx w | .whole => .whole w
    ⟨.load form, esc, o, sc, .ld, .lane d, k, res, raws, 4, fl ys [a]⟩
  let store (esc res : Bool) (o : Ord) (sc : Scope) (k : AddrKind) (ys : List Nat) (w : IW) (x : StAux) (d a : LSrc) :
      MemShape :=
    let n := iwBits w
    let raws := match x with
      | .whole => perElem ys n (fun l j => (addr a l + j * (n / 8)) % 2 ^ 64) (t.sub n d)
      | .lo => perLane ys n (addr a) (fun l => t.sub n d l 0) fun _ => 0
    ⟨.store w, esc, o, sc, .st, .none, k, res, raws, 4, fl ys [a, d]⟩
  let near (sc : SScope) : Scope := match sc with | .team => .team | .group => .group
  let element (w k : Nat) (a base : LSrc) (off : BitVec 18) (x j : Nat) : Nat :=
    ((t.laneSrc 64 base x).toNat + t.sub w a x j * 2 ^ k + (off.signExtend 64).toNat) % 2 ^ 64
  let width (k : AtomKind) : Nat := match k with | .int _ w => awBits w | .fadd f => fwBits f
  let atomic (esc : Bool) (o : Ord) (sc : Scope) (k : AtomKind) (d : VReg) (a c : LSrc) (off : BitVec 14) (len : Nat) :
      MemShape :=
    ⟨.atom k, esc, o, sc, .at, .lane d, .either, true,
      perLane xs (width k) (fun x => (addr a x + (off.signExtend 64).toNat) % 2 ^ 64) (fun x => t.sub (width k) c x 0) fun _ => 0,
      len, fl xs [a, c]⟩
  let uniform (op : AccOp) (o : Ord) (sc : Scope) (cls : WaitClass) (d : SDst) (va n arg aux len : Nat) (l : List USrc) :
      MemShape :=
    ⟨op, false, o, sc, cls, (match d with | some r => .scalar r | none => .none), .global, false,
      [⟨1024, 0, va, n / 8, arg, aux, false⟩], len, flagUnion (l.map t.uniFlags)⟩
  let sum (a b : USrc) : Nat := (t.uniSrc a + t.uniSrc b).toNat
  match i with
  | .ld esc o sc w x d a => some (load esc true o sc .global xs w x d a)
  | .lds o sc w x d a => some (load false false o (near sc) .scratch act w x d a)
  | .st esc o sc w x d a => some (store esc true o sc .global xs w x d a)
  | .sts o sc w x d a => some (store false false o (near sc) .scratch act w x d a)
  | .ldx esc o sc w k d a base off => some ⟨.load (.gather w), esc, o, sc, .ld, .lane d, .global, true,
      perElem xs (iwBits w) (element (iwBits w) k.val a base off) fun _ _ => 0, 8, fl xs [a, base]⟩
  | .stx esc o sc w k d a base off => some ⟨.store w, esc, o, sc, .st, .none, .global, true,
      perElem xs (iwBits w) (element (iwBits w) k.val a base off) (t.sub (iwBits w) d), 8, fl xs [a, base, d]⟩
  | .stf esc o sc w d a f inc =>
    -- the data of each active lane, then one increment for each distinct flag address, times the lanes that name it
    let data := perLane act (iwBits w) (addr a) (fun x => t.sub (iwBits w) d x 0) (addr f)
    let first := act.filter fun x => act.all fun y => !(addr f y == addr f x && decide (y < x))
    let flags := first.map fun x => (⟨x, 0, addr f x, 8, inc.toNat * (act.filter fun y => addr f y == addr f x).length, 0, true⟩ : Raw)
    some ⟨.stf w, esc, o, sc, .st, .none, .global, false, data ++ flags, 8, fl act [a, d, f]⟩
  | .atom esc o sc w op d a =>
    let k : IntAtom := match op with | .add => .add | .xchg => .xchg | .min => .min | .max => .max
    some (atomic esc o sc (.int k w) d a (.v d) 0 4)
  | .atomOffset esc o sc k d a c off => some (atomic esc o sc k d a c off 8)
  | .cas esc o sc w d a e n => some ⟨.cas w, esc, o, sc, .at, .lane d, .either, true,
      perLane xs (awBits w) (addr a) (fun x => t.sub (awBits w) n x 0) (fun x => t.sub (awBits w) e x 0), 8, fl xs [a, e, n]⟩
  | .redm o sc op d a =>
    let k : AtomKind := match op with
      | .add w => .int .add w | .fadd f => .fadd f | .min w => .int .min w | .max w => .int .max w
    some ⟨.redm k, false, o, sc, .st, .none, .either, false,
      perLane act (width k) (addr a) (fun x => t.sub (width k) d x 0) fun _ => 0, 4, fl act [a, d]⟩
  | .ldu o sc w d a b => some (uniform (.load (.zx w)) o sc .ld d (sum a b) (iwBits w) 0 0 4 [a, b])
  | .stu o sc w d a b => some (uniform (.store w) o sc .st none (sum a b) (iwBits w) (lowBits t d (iwBits w)) 0 4 [a, b, d])
  | .atomu o sc op d a =>
    let k : AtomKind := match op with
      | .int op w => .int op w | .fadd .w32 => .fadd .f32 | .fadd .w64 => .fadd .f64
    let old : USrc := .s (d.getD 0)
    some (uniform (.atom k) o sc .at d (t.uniSrc a).toNat (width k) (lowBits t old (width k)) 0 4 [a, old])
  | .casu o sc w d a e n => some (uniform (.cas w) o sc .at d (t.uniSrc a).toNat (awBits w) (lowBits t n (awBits w))
      (lowBits t e (awBits w)) 8 [a, e, n])
  | _ => none

/-- The scope that an instruction acts with: scratchpad keeps it within the group (R146). -/
def MemShape.acts (m : MemShape) : Scope :=
  if m.kind ≠ .global ∧ ∃ r ∈ m.raws, r.va < 0x400000 then (if m.scope = .team then .team else .group) else m.scope

/-- What a memory instruction that issues in place leaves of its team: its PC moved, its flags, m7 empty where the
instruction is resumable, one access more, and nothing else but the mark of a release fence, which an ordered access without an element leaves as a
fence does (R104, R145, R150 to R152, R257). -/
structure AccessIssued (len : Nat) (fl : FFlags) (resumes : Bool) (a b : Team) : Prop where
  raised : Raised fl a b
  masks : ∀ k : MReg, b.mask k = if resumes ∧ k = 7 then 0 else a.mask k
  frame : b = { a with
    pc := a.pc + word len, fflags := b.fflags, pending := b.pending, m := b.m, accs := b.accs, nextSeq := a.nextSeq + 1
    relFence := b.relFence }

/-- The access that an instruction adds: its operation, order, scope, destination and elements, apart from how far the
elements have come. -/
def Holds (b : Team) (seq : Nat) (op : AccOp) (o : Ord) (sc : Scope) (dst : AccDst) (es : List Elem) : Prop :=
  ∃ acc ∈ b.accs, acc.seq = seq ∧ acc.op = op ∧ acc.ord = o ∧ acc.scope = sc ∧ acc.dst = dst ∧
    acc.elems.map (fun e => { e with st := .todo }) = es.map fun e => { e with st := .todo }

/-! ## Exact values of floats -/

/-- The rational number that a finite value stands for (R15). -/
def rat : FVal → ℚ
  | .fin n m e => (if n then -1 else 1) * m * 2 ^ e
  | _ => 0

/-- A finite value. -/
def isFin : FVal → Bool
  | .fin .. => true
  | _ => false

/-- What an operation on two values gives when one of them is a NaN: the canonical NaN of the format, with NV for a
signalling one (R16, R119). -/
def NanRule (f : Fmt) (x y : FVal) (r : Nat × FFlags) : Prop :=
  r = (f.nanCode, if x.isSig || y.isSig then flagNV else 0)

/-- A finite exact result `q` rounded once into a format: some value that stands for `q`, encoded. -/
def RoundsOnce (f : Fmt) (mode : RMode) (ftz : Bool) (q : ℚ) (r : Nat × FFlags) : Prop :=
  ∃ n m e, rat (.fin n m e) = q ∧ r = encodeFmt f mode false ftz (.fin n m e)

/-- x < y for values, a NaN being below nothing and above nothing. -/
def LessThan : FVal → FVal → Prop
  | .inf a, .inf b => a = true ∧ b = false
  | .inf a, .fin .. => a = true
  | .fin .., .inf b => b = false
  | .fin n m e, .fin k l g => rat (.fin n m e) < rat (.fin k l g)
  | _, _ => False

/-- `k` is the magnitude `q` rounded to an integer in a mode, `neg` being the sign of the value (R26). -/
def RoundedInt (mode : RMode) (neg : Bool) (q : ℚ) (k : ℕ) : Prop :=
  let down := (k : ℚ) ≤ q ∧ q < k + 1
  let up := (k : ℚ) - 1 < q ∧ q ≤ k
  match mode with
  | .rtz => down
  | .rup => if neg then down else up
  | .rdn => if neg then up else down
  | _ => |q - k| ≤ 1 / 2 ∧ (|q - k| = 1 / 2 → k % 2 = 0)

/-- An addition in a format, by R127: NaNs and infinities, the sign of a zero sum, and one rounding of the exact sum. -/
structure AddRule (f : Fmt) (mode : RMode) (ftz : Bool) (x y : FVal) (r : Nat × FFlags) : Prop where
  nan : x.isNan = true ∨ y.isNan = true → NanRule f x y r
  inf : ∀ p, (x = .inf p ∧ isFin y = true) ∨ (isFin x = true ∧ y = .inf p) ∨ (x = .inf p ∧ y = .inf p) →
    r = (signCode f p + f.infCode, 0)
  opposed : ∀ p, x = .inf p ∧ y = .inf (!p) → r = (f.nanCode, flagNV)
  sum : isFin x = true ∧ isFin y = true → rat x + rat y ≠ 0 → RoundsOnce f mode ftz (rat x + rat y) r
  zero : isFin x = true ∧ isFin y = true → rat x + rat y = 0 →
    r = (signCode f (if x.isZero && y.isZero && x.neg == y.neg then x.neg else mode == .rdn), 0)

/-- A multiplication, by R127. -/
structure MulRule (f : Fmt) (mode : RMode) (ftz : Bool) (x y : FVal) (r : Nat × FFlags) : Prop where
  nan : x.isNan = true ∨ y.isNan = true → NanRule f x y r
  invalid : (x.isZero = true ∧ y.isInf = true) ∨ (x.isInf = true ∧ y.isZero = true) → r = (f.nanCode, flagNV)
  inf : (x.isInf = true ∧ y.isNan = false ∧ y.isZero = false) ∨ (y.isInf = true ∧ x.isNan = false ∧ x.isZero = false) →
    r = (signCode f (x.neg != y.neg) + f.infCode, 0)
  product : isFin x = true ∧ isFin y = true → rat x * rat y ≠ 0 → RoundsOnce f mode ftz (rat x * rat y) r
  zero : isFin x = true ∧ isFin y = true → rat x * rat y = 0 → r = (signCode f (x.neg != y.neg), 0)

/-- A fused multiply-add x * y + z, by R127: 0 times infinity is invalid even with a NaN as addend. -/
structure FmaRule (f : Fmt) (mode : RMode) (ftz : Bool) (x y z : FVal) (r : Nat × FFlags) : Prop where
  invalid : (x.isZero = true ∧ y.isInf = true) ∨ (x.isInf = true ∧ y.isZero = true) → r = (f.nanCode, flagNV)
  nan : ¬ ((x.isZero = true ∧ y.isInf = true) ∨ (x.isInf = true ∧ y.isZero = true)) →
    x.isNan = true ∨ y.isNan = true ∨ z.isNan = true →
    r = (f.nanCode, if x.isSig || y.isSig || z.isSig then flagNV else 0)
  inf : (x.isInf = true ∧ y.isNan = false ∧ y.isZero = false) ∨ (y.isInf = true ∧ x.isNan = false ∧ x.isZero = false) →
    z.isNan = false →
    r = if z = .inf (x.neg == y.neg) then (f.nanCode, flagNV) else (signCode f (x.neg != y.neg) + f.infCode, 0)
  addend : ∀ p, isFin x = true ∧ isFin y = true ∧ z = .inf p → r = (signCode f p + f.infCode, 0)
  sum : isFin x = true ∧ isFin y = true ∧ isFin z = true → rat x * rat y + rat z ≠ 0 →
    RoundsOnce f mode ftz (rat x * rat y + rat z) r
  zero : isFin x = true ∧ isFin y = true ∧ isFin z = true → rat x * rat y + rat z = 0 →
    r = (signCode f (if (x.isZero || y.isZero) && z.isZero && (x.neg != y.neg) == z.neg then z.neg else mode == .rdn), 0)

/-- The smaller (`less`) or larger of two codes, by R128. -/
structure MinMaxRule (f : Fmt) (less : Bool) (a b : Nat) (r : Nat × FFlags) : Prop where
  flags : r.2 = if (decodeFmt f a).isSig || (decodeFmt f b).isSig then flagNV else 0
  nans : (decodeFmt f a).isNan = true → (decodeFmt f b).isNan = true → r.1 = f.nanCode
  first : (decodeFmt f a).isNan = true → (decodeFmt f b).isNan = false → r.1 = b
  second : (decodeFmt f a).isNan = false → (decodeFmt f b).isNan = true → r.1 = a
  below : LessThan (decodeFmt f a) (decodeFmt f b) → r.1 = if less then a else b
  above : LessThan (decodeFmt f b) (decodeFmt f a) → r.1 = if less then b else a
  zeros : (decodeFmt f a).isZero = true → (decodeFmt f b).isZero = true → (decodeFmt f a).neg = true →
    (decodeFmt f b).neg = false → r.1 = if less then a else b
  zeros' : (decodeFmt f a).isZero = true → (decodeFmt f b).isZero = true → (decodeFmt f a).neg = false →
    (decodeFmt f b).neg = true → r.1 = if less then b else a
  either : (decodeFmt f a).isNan = false → (decodeFmt f b).isNan = false → r.1 = a ∨ r.1 = b

/-- A value converted to an integer of `w` bits, by R32. -/
structure IntRule (sgn : Bool) (w : Nat) (mode : RMode) (v : FVal) (r : Nat × FFlags) : Prop where
  nan : v.isNan = true → r = (0, flagNV)
  inf : ∀ p, v = .inf p → r = (wrap w (if p then (if sgn then -2 ^ (w - 1) else 0)
    else if sgn then 2 ^ (w - 1) - 1 else 2 ^ w - 1), flagNV)
  finite : ∀ n m e, v = .fin n m e → ∃ k : ℕ, RoundedInt mode n |rat v| k ∧
    let z : ℤ := if n then -(k : ℤ) else k
    let lo : ℤ := if sgn then -2 ^ (w - 1) else 0
    let hi : ℤ := if sgn then 2 ^ (w - 1) - 1 else 2 ^ w - 1
    r = if z < lo then (wrap w lo, flagNV) else if hi < z then (wrap w hi, flagNV)
      else (wrap w z, if (z : ℚ) = rat v then 0 else flagNX)

/-- Flags that the active lanes' elements raise, joined to those of the operand reads (R33). -/
def JoinsFlags (t : Team) (n : Nat) (op : FFlags) (R : Nat → Nat → Nat × FFlags) (fl : FFlags) : Prop :=
  ∀ i, fl.getLsbD i = true ↔
    op.getLsbD i = true ∨ ∃ x j, x < t.lanes ∧ t.active x = true ∧ j < n ∧ (R x j).2.getLsbD i = true

/-- A lane instruction of `len` bytes whose element `j` of active lane `x` is a code of width `w` with its flags, as `Q`
says (R33, R116). -/
def FloatEffect (len w : Nat) (d : VDst) (op : FFlags) (Q : Nat → Nat → Nat × FFlags → Prop) (a b : Team) : Prop :=
  ∃ fl R, (∀ x j, x < a.lanes → a.active x = true → j < 64 / w → Q x j (R x j)) ∧
    JoinsFlags a (64 / w) op R fl ∧ LaneEffect len d fl (fun x => Subs w fun j => (R x j).1) a b

/-! ## One rounding of a real number -/

/-- `k` is the magnitude `x` rounded to an integer in a mode, `neg` being the sign of the value (R26); under stochastic rounding
the first 24 discarded bits are compared with the random bits (R27). -/
noncomputable def RoundedReal (mode : RMode) (neg : Bool) (x : ℝ) (k : ℕ) : Prop :=
  match mode with
  | .rtz => k = ⌊x⌋₊
  | .rup => k = if neg then ⌊x⌋₊ else ⌈x⌉₊
  | .rdn => k = if neg then ⌈x⌉₊ else ⌊x⌋₊
  | .rne => |x - k| ≤ 1 / 2 ∧ (|x - k| = 1 / 2 → k % 2 = 0)
  | .rsr b => k = ⌊x⌋₊ + if b < ⌊(x - ⌊x⌋₊) * 2 ^ 24⌋₊ then 1 else 0

/-- The largest finite magnitude of a binary format (R17). -/
noncomputable def largest : Fmt → ℝ
  | .f64 => (2 - 2 ^ (-52 : ℤ)) * 2 ^ (1023 : ℤ)
  | .f32 => (2 - 2 ^ (-23 : ℤ)) * 2 ^ (127 : ℤ)
  | .f16 => 65504
  | .bf16 => (2 - 2 ^ (-7 : ℤ)) * 2 ^ (127 : ℤ)
  | .e5m2 => 57344
  | .e4m3 => 448
  | .e2m1 => 6
  | _ => 0

/-- The formats with a biased exponent (R15). -/
def isBinary (f : Fmt) : Prop := f = .f64 ∨ f = .f32 ∨ f = .f16 ∨ f = .bf16 ∨ f = .e5m2 ∨ f = .e4m3 ∨ f = .e2m1

/-- A code stands for the magnitude `y` with a sign. -/
def IsCode (f : Fmt) (c : ℕ) (neg : Bool) (y : ℝ) : Prop :=
  c < 2 ^ f.bits ∧ ∃ m e, decodeFmt f c = .fin neg m e ∧ (m : ℝ) * 2 ^ (e : ℤ) = y

/-- What a rounded value above the largest finite magnitude writes (R31). -/
def OverflowCode (f : Fmt) (mode : RMode) (sat neg : Bool) (c : ℕ) : Prop :=
  let toInf : Bool := match mode with | .rtz => false | .rup => !neg | .rdn => neg | _ => true
  if f = .e2m1 ∨ sat = true ∨ toInf = false then IsCode f c neg (largest f)
  else if f = .e4m3 then c = if neg then 0xFF else 0x7F
  else c < 2 ^ f.bits ∧ decodeFmt f c = .inf neg

/-- A nonzero magnitude `q` of a sign rounded once into a binary format, with the flags OF, UF and NX: to a multiple of the
distance of neighbours at `q` with the exponent range unbounded above; above the largest magnitude by R31; and, under `.ftz`, a
subnormal result to a zero (R18, R26, R27, R31). -/
noncomputable def RoundsTo (f : Fmt) (mode : RMode) (sat ftz neg : Bool) (q : ℝ) (r : ℕ × FFlags) : Prop :=
  ∃ (l : ℤ) (k : ℕ), (2 : ℝ) ^ l ≤ q ∧ q < 2 ^ (l + 1) ∧
    let emin : ℤ := 1 - f.bias
    let u : ℝ := 2 ^ (max l emin - f.fracBits : ℤ)
    let y : ℝ := k * u
    RoundedReal mode neg (q / u) k ∧
    (largest f < y → OverflowCode f mode sat neg r.1 ∧ r.2 = flagOF ||| flagNX) ∧
    (y ≤ largest f → ftz = true ∧ 0 < y ∧ y < 2 ^ emin → IsCode f r.1 neg 0 ∧ r.2 = flagUF ||| flagNX) ∧
    (y ≤ largest f → ¬ (ftz = true ∧ 0 < y ∧ y < 2 ^ emin) → IsCode f r.1 neg y ∧
      (y = q → r.2 = 0) ∧ (y ≠ q → r.2 = flagNX ||| if q < 2 ^ emin then flagUF else 0))

/-- The value that a format encodes at nearest-even without saturation: the canonical NaN, an infinity, a zero of its sign, or the
value rounded once (R16, R18, R31). -/
structure EncodeRule (f : Fmt) (v : FVal) (r : ℕ × FFlags) : Prop where
  nan : v.isNan = true → r.1 = f.nanCode
  inf : ∀ n, v = .inf n → r.1 < 2 ^ f.bits ∧ decodeFmt f r.1 = .inf n
  zero : isFin v = true → rat v = 0 → IsCode f r.1 v.neg 0
  value : isFin v = true → rat v ≠ 0 → RoundsTo f .rne false false v.neg |(rat v : ℝ)| r

/-- Teams find their places one by one: each on the core that has a free slot and the larger free register quota, the first core on a
tie (R322). -/
def Placed (bytes : ℕ) : ℕ → ℕ → ℕ → ℕ → ℕ → Prop
  | 0, _, _, _, _ => True
  | n + 1, a, b, ra, rb =>
    if 0 < a ∧ (b = 0 ∨ rb ≤ ra) then bytes ≤ ra ∧ Placed bytes n (a - 1) b (ra - bytes) rb
    else 0 < b ∧ bytes ≤ rb ∧ Placed bytes n a (b - 1) ra (rb - bytes)

/-! ## What an engine computes -/

/-- The value of an element under its scale (R24). -/
structure ElemRule (fmt code scale : ℕ) (v : FVal) : Prop where
  nan : ∀ f, fmtOf fmt = some f → (v.isNan = true ↔ (decodeFmt f code).isNan = true ∨ scale = 255)
  inf : ∀ f n, fmtOf fmt = some f → scale ≠ 255 → decodeFmt f code = .inf n → v = .inf n
  value : ∀ f, fmtOf fmt = some f → scale ≠ 255 → isFin (decodeFmt f code) = true →
    isFin v = true ∧ rat v = rat (decodeFmt f code) * 2 ^ ((scale : ℤ) - 127)

/-- The exact product of two elements (R203). -/
structure ProductRule (x y p : FVal) : Prop where
  nan : x.isNan = true ∨ y.isNan = true ∨ (x.isZero = true ∧ y.isInf = true) ∨ (x.isInf = true ∧ y.isZero = true) → p.isNan = true
  inf : (x.isInf = true ∧ y.isNan = false ∧ y.isZero = false) ∨ (y.isInf = true ∧ x.isNan = false ∧ x.isZero = false) →
    p = .inf (x.neg != y.neg)
  value : isFin x = true → isFin y = true → isFin p = true ∧ rat p = rat x * rat y

/-- The sum of a chunk's products: each nonzero product keeps its bits down to 2^57 below the largest, and the sum of those is
rounded once to binary32 (R203). -/
structure ChunkRule (ps : List FVal) (r : FVal) : Prop where
  nan : (∃ p ∈ ps, p.isNan = true) ∨ (.inf true ∈ ps ∧ .inf false ∈ ps) → r.isNan = true
  inf : ∀ n, .inf n ∈ ps → .inf (!n) ∉ ps → (∀ p ∈ ps, p.isNan = false) → r = .inf n
  empty : (∀ p ∈ ps, isFin p = true ∧ rat p = 0) → r.isZero = true ∧ r.neg = false
  value : (∀ p ∈ ps, isFin p = true) → ∀ top : ℤ, (∃ p ∈ ps, 2 ^ top ≤ |rat p|) → (∀ p ∈ ps, |rat p| < 2 ^ (top + 1)) →
    let cut (q : ℚ) : ℤ := if 0 ≤ q then ⌊q * 2 ^ (57 - top)⌋ else ⌈q * 2 ^ (57 - top)⌉
    let z : ℤ := (ps.map fun p => cut (rat p)).sum
    ∃ c fl, r = decodeFmt .f32 c ∧ (z = 0 → c = 0) ∧
      (z ≠ 0 → RoundsTo .f32 .rne false false (decide (z < 0)) (z.natAbs * 2 ^ (top - 57)) (c, fl))

/-- An accumulator element after the eight chunks of a pass, whose macro rows give the products `p` (R202, R203). -/
def MacRule (old new : ℕ) (p : ℕ → FVal) : Prop :=
  ∃ a : ℕ → ℕ, a 0 = old ∧ a 8 = new ∧ ∀ c, c < 8 → ∃ z fl, ChunkRule ((List.range 32).map fun r => p (32 * c + r)) z ∧
    AddRule .f32 .rne false (decodeFmt .f32 (a c)) z (a (c + 1), fl)

/-- What macro row m of a planting multiplies in column j, for a row of A whose element k has the code and scale given: past the K
elements of A a dense planting multiplies a zero, and a sparse one nothing (R183, R202). -/
def RowProduct (b : Bank) (fmt : ℕ) (len : ℕ) (code scale : ℕ → ℕ) (m j : ℕ) (p : FVal) : Prop :=
  let x := keyGet b.slots (128 * m + j)
  let takes (k : ℕ) : Prop := ∃ u v, ElemRule fmt (code k) (scale k) u ∧ ProductRule u v p ∧
    if b.fmt = 2 ∨ b.fmt = 3 then ElemRule b.fmt x 127 v else ElemRule b.fmt (x % 256) (x / 256) v
  let zero (v : FVal) : Prop := isFin v = true ∧ rat v = 0
  match b.mode with
  | .dense => (m < len → takes m) ∧ (len ≤ m → ∃ u v, zero u ∧ u.neg = false ∧ ProductRule u v p ∧
      if b.fmt = 2 ∨ b.fmt = 3 then ElemRule b.fmt x 127 v else ElemRule b.fmt (x % 256) (x / 256) v)
  | .sparse n idx => let k := 24 * (m / n) + idx.getD m 0
      (m < 240 ∧ k < len → takes k) ∧ (¬ (m < 240 ∧ k < len) → zero p)
  | .mod64 => True

/-! ## What other agents do -/

/-- No team has an access outstanding, waits for one, or is leaving: what another agent does changes no team by the way. -/
structure Quiet (s : State) : Prop where
  accs : ∀ t, t = s.cur ∨ t ∈ s.others → t.accs = []
  waits : ∀ t, t = s.cur ∨ t ∈ s.others → t.st ≠ .exiting ∧ (∀ c n, t.st ≠ .waitClass c n) ∧ ∀ q, t.st ≠ .waitAcc q
  living : ∀ t, t = s.cur ∨ t ∈ s.others → (s.group t.group).killed = false

/-- Beside that nothing would be woken or consumed by a write: no entry of the combining buffers, no poison, no team parked
on a word, no update of a replicated page on its way; and both memories are in their canonical form. -/
structure Still (s : State) : Prop where
  quiet : Quiet s
  comb : ∀ c k, ((s.cluster c).core k).comb = []
  poison : s.poison = []
  parked : ∀ t, t = s.cur ∨ t ∈ s.others → ∀ e, t.escort = some e → ∀ r, e.what ≠ .word r
  series : ∀ d, (s.die d).series = []
  mem : MemOk s

/-- Every team has a name of its own, and 0 is none. -/
def Named (s : State) : Prop := (s.teams.map Team.tid).Nodup ∧ ∀ t ∈ s.others, t.tid ≠ 0

/-- Among the teams only that of a name changes, and becomes `u`; nothing else does but the arrival counter. -/
structure Becomes (tid : ℕ) (u : Team) (s t : State) : Prop where
  team : t.team tid = u
  others : ∀ k, k ≠ tid → t.team k = s.team k
  rest : t = { s with cur := t.cur, others := t.others, events := t.events }

/-- A parked instruction completes: `v` enters `dst`, which lives, the PC moves past the instruction, and its frame sets out
as a reply with status 1, or, where it waited in place, its team is ready (R44, R150, R151, R224). -/
structure Completed (e : Escort) (dst : SDst) (v : Word) (u w : Team) : Prop where
  pc : w.pc = u.pc + word e.len
  dest : ∀ r, dst = some r → w.s[r] = v ∧ w.deadS.getLsbD r.val = false
  others : ∀ r : SReg, dst ≠ some r → w.s[r] = u.s[r] ∧ w.deadS.getLsbD r.val = u.deadS.getLsbD r.val
  away : e.eo = false → w.st = u.st ∧ ∃ x, w.escort = some x ∧ x.status = 1 ∧
    x.place = if e.place = .watched then .watched else .reply
  here : e.eo = true → w.escort = none ∧ w.st = .ready
  frame : w = { u with
    pc := w.pc, s := w.s, deadS := w.deadS, st := w.st, escort := w.escort, readyAt := w.readyAt, readyPrev := w.readyPrev }

/-- A die's fault buffer gains an element at its tail, or, full, the element waits at its requester (R345). -/
def FaultAdded (cl : ℕ) (w : FaultWait) (s t : State) : Prop :=
  let d := s.die (dieOf cl)
  t.die (dieOf cl) = if d.fbtail - d.fbhead < 2048 then
      { d with faults := d.faults ++ [⟨d.fbtail, w.ctx, w.va, w.acc, w.req, w.unit, w.group, w.ref⟩], fbtail := d.fbtail + 1 }
    else { d with waits := d.waits ++ [w] }

/-- The barrier word after an arrival of `b` at `w` (R163). -/
def Arrived (w b w' : Word) : Prop :=
  let e := if bits w 24 24 = 0 then 1 else bits w 24 24
  let n := bits w 0 24 + bits b 0 24
  (bits b 0 24 = 0 ∧ b.getLsbD 63 = false → w' = w) ∧
  (¬ (bits b 0 24 = 0 ∧ b.getLsbD 63 = false) → bits w' 0 24 = n % e ∧ bits w' 24 24 = bits w 24 24 ∧
    bits w' 48 8 = (bits w 48 8 + n / e) % 256 ∧ bits w' 56 7 = bits w 56 7 ∧ w'.getLsbD 63 = (w.getLsbD 63 || b.getLsbD 63))

/-- The value that an atomic leaves where it finds `old`, at the width of its kind (R158). -/
def AtomRule (k : AtomKind) (old x new : ℕ) : Prop :=
  match k with
  | .int op w =>
    let a := BitVec.ofNat (awBits w) old
    let b := BitVec.ofNat (awBits w) x
    new = (match op with
      | .add => a + b | .xchg => b | .min => if a.toInt < b.toInt then a else b | .max => if a.toInt < b.toInt then b else a
      | .minu => if a.toNat < b.toNat then a else b | .maxu => if a.toNat < b.toNat then b else a
      | .and => a &&& b | .or => a ||| b | .xor => a ^^^ b : BitVec (awBits w)).toNat
  | .fadd w => ∃ fl, AddRule (fwFmt w) .rne false (decodeFmt (fwFmt w) old) (decodeFmt (fwFmt w) x) (new, fl)

/-- The group's estate has a new registered entry, last in its order, with a number below 64 that no other entry had. -/
def EstateGains (s t : State) (num : ℕ) (p : Holding → Prop) : Prop :=
  ∃ e : Holding, (t.group s.cur.group).estate = (s.group s.cur.group).estate ++ [e] ∧ e.num = num ∧ num < 64 ∧
    (∀ x ∈ (s.group s.cur.group).estate, x.num ≠ num) ∧ e.reserved = false ∧ e.order = (s.group s.cur.group).orderCtr ∧ p e

/-- The team in focus leaves with its frame for a place, its PC at the instruction, every byte of memory as it was (R149,
R150). -/
def Parks (i : Instr) (s : State) (what : EscWhat → Prop) (place : EscPlace) : Prop :=
  ∃ t e, exec i s = .next t ∧ t.cur.st = .abroad ∧ t.cur.escort = some e ∧ what e.what ∧ e.place = place ∧ e.eo = false ∧
    e.status = 0 ∧ t.cur.pc = s.cur.pc ∧ t.cur.fvalid = 0 ∧ t.cur.tenure = .none ∧ SameBytes s t

/-! ## Fetching -/

/-- The four bytes of code at an address of a team's context: a place in HBM that is no replica, with no error on it and
under no patch of the launch; `v` is the state once the address has been translated (R53, R68). -/
def WordAt (t : Team) (u v : State) (va w : ℕ) : Prop :=
  u.fetchOpen t va = true ∧ ∃ pl pa, u.translate t.cluster (u.group t.group).ctx va 3 = (v, .ok pl) ∧ pl.tgt = .hbm pa ∧
    (∀ home, pl.kind ≠ .replicated home) ∧ v.poison = [] ∧ (∀ p ∈ t.patches, p.addr ≠ va) ∧ v.hbmRead pa 4 = w

/-- The head that the team in focus stands at, with its tail where it is a wide one. -/
def HeadAt (u v : State) (h : ℕ) (tail : Option ℕ) : Prop :=
  let pc := u.cur.pc.toNat
  (isWide h = false ∧ tail = none ∧ WordAt u.cur u v pc h) ∨
    (isWide h = true ∧ ∃ m w, tail = some w ∧ WordAt u.cur u m pc h ∧ WordAt u.cur m v (pc + 4) w)

end Sys2Proof
end

