-- ==== Sys2Proof/Certificates/Slice0/Obligations.lean ====
section
/-! DEFINITION. The statements for the provers, each a sentence about every state and operand that meets its hypotheses. -/
open Sys2Proof Sys2Proof.Machine

/-! ## The machine -/

/-- R401, R404, R411, R412, R414, R415, R417. What a reset leaves: every byte of HBM and scratchpad zero and no mark of an
error, no team, group or launch, the boot chain at its wipe, every measurement slot zero, the windows closed, and the
scrubber and the audits at the values that their registers name. After a reset both memories are in their canonical
form and the masks of every team are as R39 keeps them. The part, the fuses and the flash of `State.reset` are the
model's choices (log 3), and the canonical form is its own way to hold memory (log 6). -/
def Obligations.ResetRegisters : Prop :=
  (∀ (p : Part) (fuses : Fuses) (flash : Vector FlashImage 4), let s := State.resetOf p fuses flash
    (∀ pa, s.hbmByte pa = 0) ∧ (∀ c off, s.spadByte c off = 0) ∧ s.poison = [] ∧ s.cur.tid = 0 ∧ s.others = [] ∧ s.groups = [] ∧
    s.launches = [] ∧ s.boot = .wiping ∧ s.hbst = word (fuses.lcs * 2 ^ 32 + (if p = .zlx40 then 0x28 else 0x14) * 2 ^ 16) ∧
    (∀ i : Fin 16, s.slots[i] = 0) ∧ (∀ i : Fin 4, s.hwin[i] = 0) ∧ (∀ i : Fin 64, s.pwin[i] = (0, 0)) ∧
    s.scrub.getLsbD 63 = true ∧ bits s.scrub 32 16 = 24 ∧ bits s.scrub 0 32 = 100 * 2 ^ 16 ∧
    s.mtcfg.getLsbD 63 = true ∧ s.mtcfg.getLsbD 62 = true ∧ bits s.mtcfg 48 5 = 10 ∧ bits s.mtcfg 0 48 = 0 ∧
    s.clusters.length = p.clusters ∧ s.dies.length = p.dies ∧ State.reset = State.resetOf .zlx40 Fuses.start (Vector.replicate 4 .blank)) ∧
  (MemOk State.reset ∧ AllMasksOk State.reset ∧ ∀ p fuses flash, MemOk (State.resetOf p fuses flash) ∧ AllMasksOk (State.resetOf p fuses flash))

/-- Every step keeps both memories in their canonical form: addresses strictly rising and no byte listed that is zero, so
that equal memories are equal data. The canonical form is the model's own way to hold memory (log 6). -/
def Obligations.StepKeepsMemOk : Prop := ∀ s t : State, MemOk s → step s = .next t → MemOk t

/-- R39. Every step keeps the masks m0 to m5 of every team free of bits at or beyond its lane count and of lanes that are
dead. The summary word of R39 is computed where it is read and not held. -/
def Obligations.StepKeepsMasks : Prop := ∀ s t : State, AllMasksOk s → step s = .next t → AllMasksOk t

/-- R53, R68, R215, R217, R218, R223, R233. A step runs the decoded instruction. Where the next turn is a team's issue,
its pipe is won by team `tid`, the device is live, the team holds a tenure with its count below 512 and no pending
trap, and the words at its program counter decode to `i` for its kernel, the step is `exec i` with the instruction
counted in the tenure and, unless it waits to be issued again, in the congestion allowance where its target is global,
with what is left of a budget grant given back; then a stall is noted, what goes on of itself goes on, and the clock
has moved by one ck, or by two under the power cut. Words that fail a check, and those of an instruction that names a
register which the kernel has not, trap with cause 1, or 2 for an absent unit, the words being the detail. Whose turn
comes and what time an issue takes are the model's choices (logs 1 and 8), and so is what stands after a trap at issue
(log 11). -/
def Obligations.StepRunsDecoded : Prop :=
  ∀ (s b u v : State) (asked tid n h : ℕ) (loser : Option ℕ) (rest : List Turn) (tail : Option ℕ),
    s.agenda = .issue asked :: rest → b = { s with agenda := rest } → b.arbitrate asked = (tid, loser) →
    u = (b.noteRefused tid loser).focus tid → u.live = true → u.cur.tid = tid → u.cur.st = .ready →
    u.cur.tenure = .held n → n < 512 → u.cur.pending = [] → u.poison = [] → HeadAt u v h tail →
    let clock (o : Out) : Out := match o with
      | .next w => .next ((State.noteStall b tid w).ambient.elapse (if w.powerCut then 2 else 1))
      | o => o
    let trapped (cause : BitVec 8) : Prop :=
      ∃ w, step s = clock (.next w) ∧ TrapTaken cause (word (h + tail.getD 0 * 2 ^ 32)) v w
    let waits (w : State) : Prop := (w.team tid).tid = tid ∧ (w.team tid).pc = v.cur.pc ∧
      ((w.team tid).st = .ready ∨ (w.team tid).budgetWait.isSome = true)
    (∀ i, decodeWords u.part.full h tail = .ok i → i.fits u.cur.nregs = true → v.overAllowance i = false → v.cur.accs = [] →
      (∀ w, exec i (v.onCur Team.countIssue) = .next w → w.audits = [] → w.faulty = [] →
        (waits w → step s = clock (.next w)) ∧
        (¬ waits w → step s = clock (.next (w.modTeam tid fun t => { t with
          winCount := if v.cur.goesGlobal i then t.winCount + 1 else t.winCount, granted := 0 })))) ∧
      ((∀ w, exec i (v.onCur Team.countIssue) ≠ .next w) → step s = exec i (v.onCur Team.countIssue))) ∧
    (∀ i, decodeWords u.part.full h tail = .ok i → i.fits u.cur.nregs = false → trapped 1) ∧
    (∀ e, decodeWords u.part.full h tail = .error e → trapped (if e = .absentUnit then 2 else 1))

/-- R54, R55, R62, R70, R71. Words that the spec writes out beside their fields decode to the instructions that they stand
for, in every family; the words of wiped and of erased memory, a tail marker, a tail without its head and a field that
shall be zero decode to none. -/
def Obligations.SpecWordsDecode : Prop :=
  let reads (w : ℕ) (i : Instr) : Prop := decodeTableWord 32 w = some i
  let reads2 (h t : ℕ) (i : Instr) : Prop := decodeTableWord 64 (h + t * 2 ^ 32) = some i
  -- op 0x02, n 0, d 7, a 0x78, b 6, w 0b10: neg.w32 v7, v6
  reads 0b00000010_0_0000111_1111000_0000110_10 (.sub .w32 (some 7) .zero (.v 6)) ∧
  -- op 0x03, d 5, a 6, b 7, w 0b01: add.sat.w16 v5, v6, v7
  reads 0b00000011_0_0000101_0000110_0000111_01 (.addSat .w16 (some 5) (.v 6) (.v 7)) ∧
  reads 0x2E0309FE (.cmpEqImm .w32 3 (.v 4) 0x7F) ∧ reads 0x300303B1 (.fadd .f32 (some 3) (.v 1) (.s 4)) ∧
  reads2 0x34040209 0x7E0C0002 (.fma3 .f32 (some 4) (.v 1) (.v 2) (.v 3) false true false) ∧
  reads 0x500911B8 (.fcvt (some 9) (.v 8) 6) ∧ reads 0x61020207 (.shfli (some 2) (.v 1) .xor 1) ∧
  reads 0x65060A25 (.red (.float .fadd .f32) (some 6) (.v 5)) ∧ reads 0x6B040A18 (.bfly 0 (some 4) 5 (.v 6)) ∧
  reads2 0x798907BC 0x7E102800 (.cas true .ar .dev .w64 9 (.v 3) (.v 4) (.v 5)) ∧
  reads 0x7A04063D (.redm .plain .dev (.fadd .bf16) (.v 4) (.v 3)) ∧
  -- set 1, op 0x00, n 0, d 5, a 6, b 7, func5 0: sadd s5, s6, s7
  reads 0b1_0000000_0_000101_000110_000111_00000 (.sadd (some 5) (.s 6) (.s 7)) ∧
  -- set 1, op 0x21, cc 0b010, a 4, b 5, off9 0x1FD: bc.lt s4, s5, three words back
  reads 0b1_0100001_010_000100_000101_111111101 (.bc .lt (.s 4) (.s 5) 0x1FD) ∧
  reads 0xA37C0014 (.call 31 0x14) ∧ reads 0xB0008002 (.dvg 1 2) ∧ reads 0xB5000020 (.mand 0 0 1) ∧
  reads 0xC8082CE0 (.atomu .rel .dev (.int .add .w64) (some 4) (.s 5)) ∧ reads 0xCD00001B (.fence .ar .dev) ∧
  reads2 0xD30A30EB 0xFE900000 (.lkacq .acq .dev (some 5) (.s 6) (some (.s 7)) .zero false false) ∧
  reads 0xE1145982 (.cpy 2 (.s 10) (.s 11) (.s 12)) ∧ reads 0xE60028C2 (.sar .max (.s 5) (.s 6)) ∧
  reads 0xF4002809 (.swr .frm (.s 5)) ∧ reads 0xF5000123 (.trap 0x123) ∧
  decodeTableWord 32 0 = none ∧ decodeTableWord 32 0xFFFFFFFF = none ∧ decodeTableWord 32 0x7E0C0002 = none ∧
  decodeTableWord 64 (0x34040209 + 0x34040209 * 2 ^ 32) = none ∧ decodeTableWord 32 0xA7000001 = none

/-- R54, R55, R62, R70, R71. No bit of an encoding is dropped: every well-formed instruction is read back from its words. -/
def Obligations.DecodeEncode : Prop :=
  ∀ (i : Instr), i.encodable = true → i.wellFormed = true →
    ∃ h, (encode i = [h] ∧ ∀ t, decodeWords true h t = .ok i) ∨ ∃ t, encode i = [h, t] ∧ decodeWords true h (some t) = .ok i

/-- R68. Every word has one meaning, and reserved fields are refused: words that decode are the encoding of what they
decode to, which is well formed. -/
def Obligations.EncodeDecode : Prop :=
  ∀ (h : ℕ) (t : Option ℕ) (i : Instr), h < 2 ^ 32 → (∀ w, t = some w → w < 2 ^ 32) → decodeWords true h t = .ok i →
    i.wellFormed = true ∧ (encode i = [h] ∨ ∃ w, t = some w ∧ encode i = [h, w])

/-- R418. Team cores never reach control space: no instruction of a team, whatever state it runs in, changes a register of
control space that software writes, whichever unit it belongs to: of the pod and the tables, the launch unit's chain,
the invalidation in progress, the windows, the doorbells, the quota rows and tag maps of a cluster, the consumers'
positions of a die's rings, the words of the Sett table, the seal blocks with their keys, and what the supervisor and
ownership pages read; nor a measurement slot, a fuse, the flash, a world, a session, or the boot chain. -/
def Obligations.ControlSpaceOutOfReach : Prop :=
  ∀ (i : Instr) (s t : State), i.encodable = true → exec i s = .next t →
    t.podcfg = s.podcfg ∧ t.ctxbase = s.ctxbase ∧ t.fotbase = s.fotbase ∧ t.mcbase = s.mcbase ∧ t.rly = s.rly ∧ t.pwin = s.pwin ∧
    t.scrub = s.scrub ∧ t.mtcfg = s.mtcfg ∧ t.rofs = s.rofs ∧ t.hwin = s.hwin ∧ t.staged = s.staged ∧ t.fotst = s.fotst ∧
    t.slots = s.slots ∧ t.fuses = s.fuses ∧ t.flash = s.flash ∧ t.fw = s.fw ∧ t.worlds = s.worlds ∧ t.sessions = s.sessions ∧
    t.boot = s.boot ∧ t.hbErr = s.hbErr ∧ t.lcstart = s.lcstart ∧ t.lctail = s.lctail ∧ t.lcdone = s.lcdone ∧ t.trinv = s.trinv ∧
    t.trinvDone = s.trinvDone ∧ t.seals = s.seals ∧ t.tcst = s.tcst ∧ t.hdbin = s.hdbin ∧ t.hdbout = s.hdbout ∧
    t.root = s.root ∧ t.rootUp = s.rootUp ∧ t.harts = s.harts ∧ t.osKey = s.osKey ∧ t.linkAuth = s.linkAuth ∧
    (∀ b : Fin 64, t.sett[b].w0 = s.sett[b].w0 ∧ t.sett[b].w1 = s.sett[b].w1 ∧ t.sett[b].w2 = s.sett[b].w2 ∧ t.sett[b].w3 = s.sett[b].w3) ∧
    (∀ c, (t.cluster c).quota = (s.cluster c).quota ∧ (t.cluster c).tgmap = (s.cluster c).tgmap) ∧
    ∀ d, (t.die d).fbhead = (s.die d).fbhead ∧ (t.die d).mcr = (s.die d).mcr

/-! ## Lane instructions -/

/-- R15, R22: what a word of a format stands for, as exact values: the formats with a biased exponent, with their
infinities and NaNs, and the E8M0 scale, of which no code stands for zero. A tapered word is decoded by its regime,
its one exponent bit and its fraction (R19). -/
def Obligations.FormatsDecode : Prop :=
  (∀ (f : Fmt) (c : ℕ), isBinary f → c < 2 ^ f.bits →
    let F := f.fracBits
    let neg : Bool := c.testBit (f.bits - 1)
    let e : ℕ := c / 2 ^ F % 2 ^ f.expBits
    let fr : ℕ := c % 2 ^ F
    let top : ℕ := 2 ^ f.expBits - 1
    let isVal (y : ℝ) : Prop := IsCode f c neg y
    f.bits = 1 + f.expBits + F ∧
    (e = 0 → isVal (2 ^ (1 - f.bias : ℤ) * (fr / 2 ^ F))) ∧
    (0 < e → e < top ∨ f = .e2m1 ∨ (f = .e4m3 ∧ fr ≠ 7) → isVal (2 ^ (e - f.bias : ℤ) * (1 + fr / 2 ^ F))) ∧
    (e = top → f ≠ .e2m1 → f ≠ .e4m3 → (fr = 0 → decodeFmt f c = .inf neg) ∧
      (fr ≠ 0 → decodeFmt f c = .nan !(fr.testBit (F - 1)))) ∧
    (f = .e4m3 → e = top → fr = 7 → decodeFmt f c = .nan false)) ∧
  (∀ (f : Fmt), isBinary f → (f.expBits, f.fracBits, f.bias) = match f with
    | .f64 => (11, 52, 1023) | .f32 => (8, 23, 127) | .f16 => (5, 10, 15) | .bf16 => (8, 7, 127)
    | .e5m2 => (5, 2, 15) | .e4m3 => (4, 3, 7) | _ => (2, 1, 1)) ∧
  (∀ c : ℕ, c < 255 → IsCode .e8m0 c false (2 ^ (c - 127 : ℤ))) ∧ (decodeFmt .e8m0 255).isNan = true ∧
  (∀ (f : Fmt) (n w m e b frac : ℕ), (f = .t8 ∧ n = 8) ∨ (f = .t6 ∧ n = 6) → 0 < w → w < 2 ^ (n - 1) →
    -- a regime of `m` bits equal to `b` from bit n - 2 down, its end, the exponent bit and the fraction of what is left
    (∀ i, i < m → (w / 2 ^ (n - 2 - i)) % 2 = b) → (m < n - 1 → (w / 2 ^ (n - 2 - m)) % 2 = 1 - b) → 1 ≤ m → m ≤ n - 1 → b < 2 →
    let left := n - 2 - m
    e = (if m < n - 1 ∧ 0 < left then w % 2 ^ left / 2 ^ (left - 1) else 0) → frac = w % 2 ^ (left - 1) →
    let v : ℝ := 2 ^ (2 * (if b = 1 then (m : ℤ) - 1 else -m) + e) * (1 + if 1 < left then (frac : ℝ) / 2 ^ (left - 1) else 0)
    IsCode f w false v ∧ IsCode f (2 ^ n - w) true v) ∧
  (∀ f : Fmt, f = .t8 ∨ f = .t6 → IsCode f 0 false 0 ∧ (decodeFmt f (2 ^ (f.bits - 1))).isNan = true)

/-- R18, R20, R26, R27, R30, R31: what an encoding in a target format is, by exact values. A finite value of a binary
format is rounded once, in the named direction or stochastically, an overflow and a tiny result going by the table; a
tapered format takes the nearest value, or a neighbour by the random bits, and never zero for a nonzero value; an E8M0
target takes the exponent; and the special values go by the table. What a tapered rounding takes as its neighbours and
which NaN sources signal are the model's readings (logs 16 and 106). -/
def Obligations.EncodingRounds : Prop :=
  ∀ (mode : RMode) (sat ftz neg : Bool) (m : ℕ) (e : ℤ) (sg : Bool),
    let q : ℝ := m * 2 ^ e
    (∀ f, isBinary f →
      (m = 0 → IsCode f (encodeFmt f mode sat ftz (.fin neg m e)).1 neg 0 ∧ (encodeFmt f mode sat ftz (.fin neg m e)).2 = 0) ∧
      (m ≠ 0 → RoundsTo f mode sat ftz neg q (encodeFmt f mode sat ftz (.fin neg m e)))) ∧
    (∀ f, f = .f64 ∨ f = .f32 ∨ f = .f16 ∨ f = .bf16 ∨ f = .e5m2 →
      encodeFmt f mode sat ftz (.nan sg) = (f.nanCode, if sg then flagNV else 0) ∧
      decodeFmt f (encodeFmt f mode sat ftz (.inf neg)).1 = .inf neg ∧ (encodeFmt f mode sat ftz (.inf neg)).2 = 0) ∧
    encodeFmt .e4m3 mode sat ftz (.nan sg) = (0x7F, if sg then flagNV else 0) ∧
    encodeFmt .e4m3 mode sat ftz (.inf neg) = (if sat then (if neg then 0xFE else 0x7E, flagOF ||| flagNX)
      else (if neg then 0xFF else 0x7F, flagNV)) ∧
    encodeFmt .e2m1 mode sat ftz (.nan sg) = (0, flagNV) ∧
    encodeFmt .e2m1 mode sat ftz (.inf neg) = (if neg then 0xF else 0x7, flagOF ||| flagNX) ∧
    (∀ f, f = .t8 ∨ f = .t6 →
      let r := encodeFmt f mode sat ftz (.fin neg m e)
      let n := f.bits
      let top := 2 ^ (n - 1) - 1
      let val (p : ℕ) : ℝ := rat (decodeFmt f p)
      let code (p : ℕ) : ℕ := if neg then 2 ^ n - p else p
      encodeFmt f mode sat ftz (.nan sg) = (2 ^ (n - 1), if sg then flagNV else 0) ∧
      encodeFmt f mode sat ftz (.inf neg) = (2 ^ (n - 1), flagNV) ∧
      (m = 0 → r = (0, 0)) ∧
      (m ≠ 0 → val top < q → r = (code top, flagOF ||| flagNX)) ∧
      (m ≠ 0 → q < val 1 → r = (code 1, flagUF ||| flagNX)) ∧
      (val 1 ≤ q → q ≤ val top → (∀ b, mode ≠ .rsr b) → ∃ p, 1 ≤ p ∧ p ≤ top ∧
        (∀ p', 1 ≤ p' → p' ≤ top → |q - val p| ≤ |q - val p'| ∧ (|q - val p| = |q - val p'| → p' ≠ p → p % 2 = 0)) ∧
        r = (code p, if val p = q then 0 else flagNX)) ∧
      (∀ b p, mode = .rsr b → 1 ≤ p → p < top → val p ≤ q → q < val (p + 1) →
        r = (code (if b < ⌊(q - val p) / (val (p + 1) - val p) * 2 ^ 24⌋₊ then p + 1 else p), if val p = q then 0 else flagNX)) ∧
      (∀ b, mode = .rsr b → q = val top → r = (code top, 0))) ∧
    (encodeFmt .e8m0 mode sat ftz (.nan sg) = (0xFF, flagNV) ∧ encodeFmt .e8m0 mode sat ftz (.inf neg) = (0xFF, flagNV) ∧
      (m = 0 → encodeFmt .e8m0 mode sat ftz (.fin neg m e) = (0, flagUF ||| flagNX)) ∧
      ∀ l : ℤ, 2 ^ l ≤ q → q < 2 ^ (l + 1) → encodeFmt .e8m0 mode sat ftz (.fin neg m e) =
        if l + 127 < 0 then (0, flagUF ||| flagNX) else if 254 < l + 127 then (0xFE, flagOF ||| flagNX)
        else ((l + 127).toNat, if 2 ^ l = q then 0 else flagNX))

/-- R121: the integer arithmetic of the lane set, per sub-element of width w, for every form of its operands. Each
instruction completes in every state, and changes nothing but the results named by `LaneEffect`. R122: logic and
shifts of the lane set; a shift amount is taken modulo w per sub-element, and an immediate is the zero-extended imm7.
R126: the integer compares write a mask of the active lanes whose sub-element 0 meets the condition, corrected by R39,
and push no latch; with `nwb` their words are illegal. That the flags of operand reads are raised beside operations
that raise none is the model's reading (log 67). The old d of `mad` with `nwb` is v0 (log 15). -/
def Obligations.LaneArithmeticLogicCompares : Prop :=
  (∀ (s : State) (w : IW) (d : VDst) (a b : LSrc) (imm : BitVec 7),
    let n := iwBits w
    let A (x j : ℕ) : ℕ := s.cur.sub n a x j
    let B (x j : ℕ) : ℕ := s.cur.sub n b x j
    let D (x j : ℕ) : ℕ := subEl n (s.cur.old d x) j
    let sA (x j : ℕ) : ℤ := signed n (A x j)
    let sB (x j : ℕ) : ℤ := signed n (B x j)
    let low (z : ℤ) : ℕ := (z % 2 ^ n).toNat
    let least : ℤ := -2 ^ (n - 1)
    let most : ℤ := 2 ^ (n - 1) - 1
    let gives (i : Instr) (fl : FFlags) (f : ℕ → ℕ → ℕ) : Prop := Runs i s (LaneEffect 4 d fl fun x => Subs n (f x))
    let fa := s.cur.srcFlags a
    let fab := s.cur.srcFlags a ||| s.cur.srcFlags b
    gives (.add w d a b) fab (fun x j => (A x j + B x j) % 2 ^ n) ∧
    gives (.sub w d a b) fab (fun x j => low (A x j - B x j)) ∧
    gives (.addSat w d a b) fab (fun x j => low (max least (min most (sA x j + sB x j)))) ∧
    gives (.addSatu w d a b) fab (fun x j => min (A x j + B x j) (2 ^ n - 1)) ∧
    gives (.subSat w d a b) fab (fun x j => low (max least (min most (sA x j - sB x j)))) ∧
    gives (.subSatu w d a b) fab (fun x j => A x j - B x j) ∧
    gives (.mul w d a b) fab (fun x j => A x j * B x j % 2 ^ n) ∧
    gives (.mulh w d a b) fab (fun x j => low (sA x j * sB x j / 2 ^ n)) ∧
    gives (.mulhu w d a b) fab (fun x j => A x j * B x j / 2 ^ n) ∧
    (∀ r, d = some r → gives (.mad w d a b) (fab ||| s.cur.oldFlags d) fun x j => (D x j + A x j * B x j % 2 ^ n) % 2 ^ n) ∧
    gives (.min w d a b) fab (fun x j => if sA x j ≤ sB x j then A x j else B x j) ∧
    gives (.minu w d a b) fab (fun x j => min (A x j) (B x j)) ∧
    gives (.max w d a b) fab (fun x j => if sA x j ≤ sB x j then B x j else A x j) ∧
    gives (.maxu w d a b) fab (fun x j => max (A x j) (B x j)) ∧
    gives (.abs w d a) fa (fun x j => low |sA x j|) ∧
    gives (.clz w d a) fa (fun x j => n - Nat.size (A x j)) ∧
    gives (.pop w d a) fa (fun x j => ((List.range n).filter fun k => (A x j).testBit k).length) ∧
    gives (.addImm w d a imm) fa (fun x j => low (A x j + imm.toInt)) ∧
    gives (.li w d imm) 0 (fun _ _ => low imm.toInt)) ∧
  (∀ (s : State) (w : IW) (d : VDst) (a b : LSrc) (imm : BitVec 7),
    let n := iwBits w
    let A (x j : ℕ) : ℕ := s.cur.sub n a x j
    let B (x j : ℕ) : ℕ := s.cur.sub n b x j
    let low (z : ℤ) : ℕ := (z % 2 ^ n).toNat
    let rotate (v k : ℕ) : ℕ := ((BitVec.ofNat n v).rotateLeft (k % n)).toNat
    let gives (i : Instr) (fl : FFlags) (f : ℕ → ℕ → ℕ) : Prop := Runs i s (LaneEffect 4 d fl fun x => Subs n (f x))
    let fa := s.cur.srcFlags a
    let fab := s.cur.srcFlags a ||| s.cur.srcFlags b
    gives (.and w d a b) fab (fun x j => A x j &&& B x j) ∧
    gives (.or w d a b) fab (fun x j => A x j ||| B x j) ∧
    gives (.xor w d a b) fab (fun x j => A x j ^^^ B x j) ∧
    gives (.shl w d a b) fab (fun x j => A x j * 2 ^ (B x j % n) % 2 ^ n) ∧
    gives (.shr w d a b) fab (fun x j => A x j / 2 ^ (B x j % n)) ∧
    gives (.sra w d a b) fab (fun x j => low (signed n (A x j) / 2 ^ (B x j % n))) ∧
    gives (.rot w d a b) fab (fun x j => rotate (A x j) (B x j)) ∧
    gives (.andImm w d a imm) fa (fun x j => A x j &&& imm.toNat) ∧
    gives (.orImm w d a imm) fa (fun x j => A x j ||| imm.toNat) ∧
    gives (.xorImm w d a imm) fa (fun x j => A x j ^^^ imm.toNat) ∧
    gives (.shlImm w d a imm) fa (fun x j => A x j * 2 ^ (imm.toNat % n) % 2 ^ n) ∧
    gives (.shrImm w d a imm) fa (fun x j => A x j / 2 ^ (imm.toNat % n)) ∧
    gives (.sraImm w d a imm) fa (fun x j => low (signed n (A x j) / 2 ^ (imm.toNat % n))) ∧
    gives (.rotImm w d a imm) fa (fun x j => rotate (A x j) imm.toNat)) ∧
  (∀ (s : State) (w : IW) (d : MDst) (a b : LSrc) (imm : BitVec 7),
    let n := iwBits w
    let A (x : ℕ) : ℕ := s.cur.sub n a x 0
    let B (x : ℕ) : ℕ := s.cur.sub n b x 0
    let I : ℤ := imm.toInt
    let fab := s.cur.srcFlags a ||| s.cur.srcFlags b
    let sets (i : Instr) (fl : FFlags) (p : ℕ → Prop) : Prop :=
      Runs i s (MaskEffect d fl fun x => s.cur.active x = true ∧ p x)
    sets (.cmpEq w d a b) fab (fun x => A x = B x) ∧
    sets (.cmpNe w d a b) fab (fun x => A x ≠ B x) ∧
    sets (.cmpLt w d a b) fab (fun x => signed n (A x) < signed n (B x)) ∧
    sets (.cmpLtu w d a b) fab (fun x => A x < B x) ∧
    sets (.cmpLe w d a b) fab (fun x => signed n (A x) ≤ signed n (B x)) ∧
    sets (.cmpLeu w d a b) fab (fun x => A x ≤ B x) ∧
    sets (.cmpEqImm w d a imm) (s.cur.srcFlags a) (fun x => signed n (A x) = I) ∧
    sets (.cmpLtImm w d a imm) (s.cur.srcFlags a) (fun x => signed n (A x) < I) ∧
    ∀ h t i, h < 2 ^ 31 → 0x1F ≤ h / 2 ^ 24 → h / 2 ^ 24 ≤ 0x2F → h / 2 ^ 24 ≤ 0x24 ∨ 0x2E ≤ h / 2 ^ 24 → h.testBit 23 = true →
      decodeWords true h t ≠ .ok i)

/-- R123, R124, R125: bit fields, bit by bit of each sub-element; carry chains through a mask, whose bits of inactive
lanes stay; selection and moves of whole registers. R133: `pack`, `unpack` and `swz` move bits and raise no flag of
their own. That the flags of operand reads are raised beside operations that raise none, and that `bfi` with `nwb`
reads v0 as its old d, are the model's readings (logs 67 and 15). -/
def Obligations.LaneFieldsCarriesMovesPacks : Prop :=
  ((∀ (s : State) (w : IW) (d : VDst) (a b : LSrc),
    let n := iwBits w
    let A (x j : ℕ) : ℕ := s.cur.sub n a x j
    let D (x j : ℕ) : ℕ := subEl n (s.cur.old d x) j
    let len (x : ℕ) : ℕ := min (bits (s.cur.laneSrc 64 b x) 0 7) n
    let pos (x : ℕ) : ℕ := bits (s.cur.laneSrc 64 b x) 8 6
    let sx (x : ℕ) : Bool := (s.cur.laneSrc 64 b x).getLsbD 15
    let fab := s.cur.srcFlags a ||| s.cur.srcFlags b
    Runs (.bfe w d a b) s (LaneEffect 4 d fab fun x v => ∀ j, j < 64 / n → ∀ k, k < n →
      (subEl n v j).testBit k = if k < len x then (A x j).testBit (pos x + k)
        else sx x && decide (0 < len x) && (A x j).testBit (pos x + len x - 1)) ∧
    Runs (.bfi w d a b) s (LaneEffect 4 d (fab ||| s.cur.oldFlags d) fun x v => ∀ j, j < 64 / n → ∀ k, k < n →
      (subEl n v j).testBit k = if pos x ≤ k ∧ k < pos x + len x then (A x j).testBit (k - pos x)
        else (D x j).testBit k) ∧
    Runs (.mad w none a b) s (LaneEffect 4 none (fab ||| s.cur.oldFlags none) fun x => Subs n fun j =>
      (subEl n (laneAt s.cur.v[(0 : VReg)] x) j + A x j * s.cur.sub n b x j % 2 ^ n) % 2 ^ n)) ∧
  (∀ (s : State) (c : CMask) (d : VDst) (a b : LSrc),
    let k : MReg := carrySrc c
    let A (x : ℕ) : ℕ := (s.cur.laneSrc 64 a x).toNat
    let B (x : ℕ) : ℕ := (s.cur.laneSrc 64 b x).toNat
    let carry (x : ℕ) : ℕ := b2n ((s.cur.mask k).getLsbD x)
    let fab := s.cur.srcFlags a ||| s.cur.srcFlags b
    let chain (out : ℕ → Bool) (val : ℕ → Word) (u v : Team) : Prop :=
      LaneEffect 4 d fab (fun x r => r = val x) u { v with m := u.m } ∧
      (∀ i : MReg, i ≠ k → v.mask i = u.mask i) ∧
      ∀ x, x < u.lanes → u.dead.getLsbD x = false →
        (v.mask k).getLsbD x = if u.active x then out x else (u.mask k).getLsbD x
    Runs (.addc c d a b) s (chain (fun x => decide (2 ^ 64 ≤ A x + B x + carry x)) fun x => word (A x + B x + carry x)) ∧
    Runs (.subb c d a b) s (chain (fun x => decide (A x < B x + carry x))
      fun x => s.cur.laneSrc 64 a x - s.cur.laneSrc 64 b x - word (carry x)) ∧
    Runs (.sel c d a b) s (LaneEffect 4 d
      (s.cur.srcFlagsAt (s.cur.activeLanes.filter ((s.cur.mask k).getLsbD ·)) a |||
        s.cur.srcFlagsAt (s.cur.activeLanes.filter (!(s.cur.mask k).getLsbD ·)) b)
      fun x r => r = if (s.cur.mask k).getLsbD x then s.cur.laneSrc 64 a x else s.cur.laneSrc 64 b x) ∧
    Runs (.mov d a) s (LaneEffect 4 d (s.cur.srcFlags a) fun x r => r = s.cur.laneSrc 64 a x))) ∧
  (∀ (s : State) (w : IW) (d : VDst) (a b : LSrc),
    let n := iwBits w
    let A (x j : ℕ) : ℕ := s.cur.sub n a x j
    let B (x j : ℕ) : ℕ := s.cur.sub n b x j
    let fab := s.cur.srcFlags a ||| s.cur.srcFlags b
    Runs (.pack w d a b) s (LaneEffect 4 d fab fun x => Subs (n / 2) fun i =>
      (if i < 64 / n then A x i else B x (i - 64 / n)) % 2 ^ (n / 2)) ∧
    Runs (.unpack w d a b) s (LaneEffect 4 d fab fun x => Subs n fun i =>
      let c := s.cur.laneSrc n b x
      let h := subEl (n / 2) (s.cur.laneSrc n a x) ((if c.getLsbD 0 then 64 / n else 0) + i)
      if c.getLsbD 1 then (signed (n / 2) h % 2 ^ n).toNat else h) ∧
    Runs (.swz w d a b) s (LaneEffect 4 d fab fun x => Subs n fun i =>
      let c := subEl 8 (s.cur.laneSrc n b x) i
      if c.testBit 7 then 0 else A x (c % (64 / n))))

/-- R127, R18: the arithmetic float instructions round the exact result once, by `%frm` with stochastic rounding read as
nearest-even, with the `.ftz` modifier reading and writing subnormals as zeros. That `fma` with `nwb` reads v0 as its
addend is the model's reading (log 15). -/
def Obligations.FloatArithmetic : Prop :=
  ∀ (s : State) (w : FW) (d : VDst) (a b c : LSrc) (ftz np na : Bool),
    let n := fwBits w
    let f := fwFmt w
    let mode := modeOf s.cur.frm
    let A (z : Bool) (x j : ℕ) : FVal := flushIn f z (decodeFmt f (s.cur.sub n a x j))
    let B (z : Bool) (x j : ℕ) : FVal := flushIn f z (decodeFmt f (s.cur.sub n b x j))
    let C (z : Bool) (x j : ℕ) : FVal := flushIn f z (decodeFmt f (s.cur.sub n c x j))
    let D (z : Bool) (x j : ℕ) : FVal := flushIn f z (decodeFmt f (subEl n (s.cur.old d x) j))
    let minus (p : Bool) (v : FVal) : FVal := if p then v.negate else v
    let fab := s.cur.srcFlags a ||| s.cur.srcFlags b
    Runs (.fadd w d a b) s (FloatEffect 4 n d fab fun x j => AddRule f mode false (A false x j) (B false x j)) ∧
    Runs (.faddFtz w d a b) s (FloatEffect 4 n d fab fun x j => AddRule f mode true (A true x j) (B true x j)) ∧
    Runs (.fsub w d a b) s (FloatEffect 4 n d fab fun x j => AddRule f mode false (A false x j) (B false x j).negate) ∧
    Runs (.fsubFtz w d a b) s (FloatEffect 4 n d fab fun x j => AddRule f mode true (A true x j) (B true x j).negate) ∧
    Runs (.fmul w d a b) s (FloatEffect 4 n d fab fun x j => MulRule f mode false (A false x j) (B false x j)) ∧
    Runs (.fmulFtz w d a b) s (FloatEffect 4 n d fab fun x j => MulRule f mode true (A true x j) (B true x j)) ∧
    Runs (.fma w d a b) s (FloatEffect 4 n d (fab ||| s.cur.oldFlags d) fun x j =>
      FmaRule f mode false (A false x j) (B false x j) (D false x j)) ∧
    Runs (.fmaFtz w d a b) s (FloatEffect 4 n d (fab ||| s.cur.oldFlags d) fun x j =>
      FmaRule f mode true (A true x j) (B true x j) (D true x j)) ∧
    Runs (.fma3 w d a b c ftz np na) s (FloatEffect 8 n d (fab ||| s.cur.srcFlags c) fun x j =>
      FmaRule f mode ftz (minus np (A ftz x j)) (B ftz x j) (minus na (C ftz x j)))

/-- R128: minimum and maximum, sign, rounding to an integral value, and class. R129: the float compares read sub-element
0, hold for ordered operands as the exact values compare, and raise NV for any NaN (`lt`, `le`) or a signalling one. -/
def Obligations.FloatMinRoundClassCompare : Prop :=
  (∀ (s : State) (w : FW) (d : VDst) (a b : LSrc),
    let n := fwBits w
    let f := fwFmt w
    let A (x j : ℕ) : ℕ := s.cur.sub n a x j
    let B (x j : ℕ) : ℕ := s.cur.sub n b x j
    let fa := s.cur.srcFlags a
    let fab := s.cur.srcFlags a ||| s.cur.srcFlags b
    let nanGives (c : ℕ) (r : ℕ × FFlags) : Prop :=
      (decodeFmt f c).isNan = true → r = (f.nanCode, if (decodeFmt f c).isSig then flagNV else 0)
    let e (c : ℕ) : ℕ := c / 2 ^ f.fracBits % 2 ^ f.expBits
    let fr (c : ℕ) : ℕ := c % 2 ^ f.fracBits
    let neg (c : ℕ) : Bool := c.testBit (n - 1)
    Runs (.fmin w d a b) s (FloatEffect 4 n d fab fun x j => MinMaxRule f true (A x j) (B x j)) ∧
    Runs (.fmax w d a b) s (FloatEffect 4 n d fab fun x j => MinMaxRule f false (A x j) (B x j)) ∧
    Runs (.fabs w d a) s (FloatEffect 4 n d fa fun x j r => nanGives (A x j) r ∧
      ((decodeFmt f (A x j)).isNan = false → r = (A x j % 2 ^ (n - 1), 0))) ∧
    Runs (.fneg w d a) s (FloatEffect 4 n d fa fun x j r => nanGives (A x j) r ∧
      ((decodeFmt f (A x j)).isNan = false → r = (A x j ^^^ 2 ^ (n - 1), 0))) ∧
    Runs (.frnd w d a) s (FloatEffect 4 n d fa fun x j r => nanGives (A x j) r ∧
      ((decodeFmt f (A x j)).isInf = true ∨ (decodeFmt f (A x j)).isZero = true → r = (A x j, 0)) ∧
      ∀ g m k, decodeFmt f (A x j) = .fin g m k → ∃ z, RoundedInt (modeOf s.cur.frm) g |rat (.fin g m k)| z ∧
        r = ((encodeFmt f .rne false false (.fin g z 0)).1, 0)) ∧
    Runs (.fclass w d a) s (FloatEffect 4 n d fa fun x j r =>
      let c := A x j
      let k := if e c = 2 ^ f.expBits - 1 then
          (if fr c = 0 then (if neg c then 0 else 7) else if (fr c).testBit (f.fracBits - 1) then 9 else 8)
        else if e c = 0 then (if fr c = 0 then (if neg c then 3 else 4) else if neg c then 2 else 5)
        else if neg c then 1 else 6
      r = (2 ^ k, 0))) ∧
  (∀ (s : State) (w : FW) (d : MDst) (a b : LSrc),
    let n := fwBits w
    let f := fwFmt w
    let X (x : ℕ) : FVal := decodeFmt f (s.cur.sub n a x 0)
    let Y (x : ℕ) : FVal := decodeFmt f (s.cur.sub n b x 0)
    let ordered (x : ℕ) : Prop := (X x).isNan = false ∧ (Y x).isNan = false
    let equal (x : ℕ) : Prop := ordered x ∧ ¬ LessThan (X x) (Y x) ∧ ¬ LessThan (Y x) (X x)
    let sets (i : Instr) (nv : ℕ → Prop) (p : ℕ → Prop) : Prop :=
      Runs i s fun u v => ∃ fl, MaskEffect d fl (fun x => s.cur.active x = true ∧ p x) u v ∧
        ∀ i, fl.getLsbD i = true ↔ (s.cur.srcFlags a ||| s.cur.srcFlags b).getLsbD i = true ∨
          (i = 4 ∧ ∃ x, x < s.cur.lanes ∧ s.cur.active x = true ∧ nv x)
    let signals (x : ℕ) : Prop := (X x).isSig = true ∨ (Y x).isSig = true
    sets (.fcmpEq w d a b) signals equal ∧
    sets (.fcmpNe w d a b) signals (fun x => ¬ equal x) ∧
    sets (.fcmpLt w d a b) (fun x => ¬ ordered x) (fun x => LessThan (X x) (Y x)) ∧
    sets (.fcmpLe w d a b) (fun x => ¬ ordered x) (fun x => LessThan (X x) (Y x) ∨ equal x) ∧
    sets (.fcmpUn w d a b) signals (fun x => ¬ ordered x))

/-- R131, R132: conversions. An invalid descriptor gives zeros and NV; a valid one decodes each slot, scales it and
encodes it in the target; integers convert by R32. That an invalid descriptor raises NV only with an active lane is
the model's reading (log 14). -/
def Obligations.Conversions : Prop :=
  (∀ (s : State) (d : VDst) (a : LSrc) (b : BReg),
    let desc := s.cur.s[b.val]
    let el := s.cur.srcFlagsAt [] (.s b)
    (cvtDesc desc = none → Runs (.fcvt d a b) s
      (LaneEffect 4 d (el ||| if s.cur.exec = 0 then 0 else flagNV) fun _ r => r = 0)) ∧
    ∀ sf tf, cvtDesc desc = some (sf, tf) →
      let mode (x j : ℕ) : RMode := s.cur.convMode (s.cur.stochastic tf) x j
      let code (x j : ℕ) : ℕ := s.cur.sub sf.slot a x j
      Runs (.fcvt d a b) s fun u v =>
        v.srCtr = u.srCtr + (if u.frm = 4 ∧ tf.stochastic = true ∧ u.exec ≠ 0 then 1 else 0) ∧
        ∃ fl R, JoinsFlags u (64 / max sf.slot tf.slot) (el ||| u.srcFlags a) R fl ∧
          (∀ x j, x < u.lanes → u.active x = true → j < 64 / max sf.slot tf.slot → R x j = cvtElem desc sf tf (mode x j) (code x j)) ∧
          LaneEffect 4 d fl (fun x r => (∀ j, j < 64 / max sf.slot tf.slot → subEl tf.slot r j = (R x j).1) ∧
            ∀ k, 64 / max sf.slot tf.slot * tf.slot ≤ k → r.getLsbD k = false) u { v with srCtr := u.srCtr }) ∧
  (∀ (desc : Word) (sf tf : Fmt) (mode : RMode) (c : ℕ), cvtDesc desc = some (sf, tf) →
    let ftz := desc.getLsbD 11
    let v := flushIn sf ftz (decodeFmt sf c)
    let scale : ℤ := (if desc.getLsbD 8 then (bits desc 16 8 : ℤ) - 127 else 0) +
      (if desc.getLsbD 9 then 127 - (bits desc 24 8 : ℤ) else 0)
    ∃ u, cvtElem desc sf tf mode c = encodeFmt tf mode (desc.getLsbD 10) ftz u ∧
      (desc.getLsbD 8 = true ∧ bits desc 16 8 = 255 → u.isNan = true) ∧
      (¬ (desc.getLsbD 8 = true ∧ bits desc 16 8 = 255) → isFin v = false → u = v) ∧
      (¬ (desc.getLsbD 8 = true ∧ bits desc 16 8 = 255) → isFin v = true →
        isFin u = true ∧ u.neg = v.neg ∧ rat u = rat v * 2 ^ scale)) ∧
  (∀ (s : State) (w : FW) (d : VDst) (a : LSrc),
    let n := fwBits w
    let f := fwFmt w
    let fa := s.cur.srcFlags a
    let A (x j : ℕ) : ℕ := s.cur.sub n a x j
    let toInt (i : Instr) (sgn : Bool) : Prop := Runs i s (FloatEffect 4 n d fa fun x j =>
      IntRule sgn n (modeOf s.cur.frm) (decodeFmt f (A x j)))
    let ofInt (i : Instr) (sr : Bool) (z : ℕ → ℕ → ℤ) : Prop := Runs i s fun u v =>
      v.srCtr = u.srCtr + (if sr = true ∧ u.frm = 4 ∧ n = 16 ∧ u.exec ≠ 0 then 1 else 0) ∧
      FloatEffect 4 n d fa (fun x j r =>
        r = encodeFmt f (u.convMode (sr && u.frm == 4 && n == 16) x j) false false (.fin (z x j < 0) (z x j).natAbs 0))
        u { v with srCtr := u.srCtr }
    toInt (.fcvti w d a) true ∧ toInt (.fcvtiu w d a) false ∧
    ofInt (.icvtf w d a) true (fun x j => signed n (A x j)) ∧ ofInt (.icvtfu w d a) false (fun x j => (A x j : ℤ)))

/-- R134: the special functions complete for every input; the special inputs of its table give the values and flags of the
table, a NaN giving the canonical NaN with NV if it signals; `frcp`, `frsq` and `fsqrt` of every other input are the
exact value rounded once, and so are `fex2` of an integer and `flg2` of a power of two. A value that the model's
bounds leave undecided is free (log 17). -/
def Obligations.SpecialFunctions : Prop :=
  (∀ (s : State) (w : FW) (d : VDst) (a : LSrc),
    let n := fwBits w
    let f := fwFmt w
    let gives (i : Instr) (g : ℕ → ℕ × FFlags) : Prop := Runs i s (FloatEffect 4 n d (s.cur.srcFlags a) fun x j r =>
      r = g (s.cur.sub n a x j))
    gives (.frcp w d a) (floatRcp f) ∧ gives (.frsq w d a) (floatRsq f) ∧
    gives (.fsqrt w d a) (floatSqrt f (modeOf s.cur.frm)) ∧ gives (.fex2 w d a) (floatEx2 f) ∧
    gives (.flg2 w d a) (floatLg2 f) ∧ gives (.fsin w d a) (floatSin f) ∧ gives (.fcos w d a) (floatCos f)) ∧
  (∀ (w : FW) (mode : RMode) (c : ℕ),
    let f := fwFmt w
    let v := decodeFmt f c
    let one := f.bias * 2 ^ f.fracBits
    let all (p : (ℕ × FFlags) → Prop) : Prop := p (floatRcp f c) ∧ p (floatRsq f c) ∧ p (floatSqrt f mode c) ∧
      p (floatEx2 f c) ∧ p (floatLg2 f c) ∧ p (floatSin f c) ∧ p (floatCos f c)
    (v.isNan = true → all fun r => r = (f.nanCode, if v.isSig then flagNV else 0)) ∧
    (v.isZero = true →
      floatRcp f c = (signCode f v.neg + f.infCode, flagDZ) ∧ floatRsq f c = (signCode f v.neg + f.infCode, flagDZ) ∧
      floatSqrt f mode c = (signCode f v.neg, 0) ∧ floatEx2 f c = (one, 0) ∧
      floatLg2 f c = (signCode f true + f.infCode, flagDZ) ∧ floatSin f c = (signCode f v.neg, 0) ∧ floatCos f c = (one, 0)) ∧
    (v = .inf false → floatRcp f c = (0, 0) ∧ floatRsq f c = (0, 0) ∧ floatSqrt f mode c = (f.infCode, 0) ∧
      floatEx2 f c = (f.infCode, 0) ∧ floatLg2 f c = (f.infCode, 0) ∧ floatSin f c = (f.nanCode, flagNV) ∧
      floatCos f c = (f.nanCode, flagNV)) ∧
    (v = .inf true → floatRcp f c = (signCode f true, 0) ∧ floatRsq f c = (f.nanCode, flagNV) ∧
      floatSqrt f mode c = (f.nanCode, flagNV) ∧ floatEx2 f c = (0, 0) ∧ floatLg2 f c = (f.nanCode, flagNV) ∧
      floatSin f c = (f.nanCode, flagNV) ∧ floatCos f c = (f.nanCode, flagNV)) ∧
    (isFin v = true → rat v < 0 → floatRsq f c = (f.nanCode, flagNV) ∧ floatSqrt f mode c = (f.nanCode, flagNV) ∧
      floatLg2 f c = (f.nanCode, flagNV)) ∧
    -- ordinary inputs: one rounding of the exact value
    (isFin v = true → rat v ≠ 0 → RoundsTo f .rne false false v.neg (1 / |(rat v : ℝ)|) (floatRcp f c)) ∧
    (isFin v = true → 0 < rat v → RoundsTo f .rne false false false (1 / √(rat v : ℝ)) (floatRsq f c) ∧
      ((∀ b, mode ≠ .rsr b) → RoundsTo f mode false false false √(rat v : ℝ) (floatSqrt f mode c))) ∧
    (∀ k : ℤ, isFin v = true → rat v = k → k ≠ 0 →
      RoundsTo f .rne false false false (2 ^ k) (floatEx2 f c)) ∧
    (∀ k : ℤ, isFin v = true → rat v = 2 ^ k → k ≠ 0 →
      RoundsTo f .rne false false (decide (k < 0)) |(k : ℝ)| (floatLg2 f c)) ∧
    (isFin v = true → rat v = 1 → floatLg2 f c = (0, 0)))

/-- R135, R136: modular arithmetic on whole registers; an invalid modulus gives zeros and NV where a lane is active. No
word decodes to a butterfly whose two registers are one. That an invalid modulus raises NV only with an active lane,
what `nwb` reads as old d, and the flags of operand reads are the model's readings (logs 14, 15 and 67); words whose d
and a are one register do not decode (R136), and b may name d. -/
def Obligations.ModularArithmetic : Prop :=
  ∀ (s : State) (q : QReg) (d : VDst) (a b : LSrc) (av : VReg),
    let m : ℕ := s.cur.s[28 + q.val].toNat
    let good : Prop := m % 2 = 1 ∧ 3 ≤ m ∧ m < 2 ^ 63
    let A (x : ℕ) : ℕ := (s.cur.laneSrc 64 a x).toNat
    let B (x : ℕ) : ℕ := (s.cur.laneSrc 64 b x).toNat
    let V (x : ℕ) : ℕ := (laneAt s.cur.v[av] x).toNat
    let D (x : ℕ) : ℕ := (s.cur.old d x).toNat
    let eq := s.cur.sFlags ⟨28 + q.val, by omega⟩
    let nv (fl : FFlags) (u v : FFlags) : Prop := (good → v = u ||| fl) ∧ (¬ good → v = u ||| fl ||| if s.cur.exec = 0 then 0 else flagNV)
    let gives (i : Instr) (f : ℕ → ℕ) : Prop := Runs i s fun u v => ∃ fl,
      nv (s.cur.srcFlags a ||| s.cur.srcFlags b ||| eq) 0 fl ∧
      LaneEffect 4 d fl (fun x r => (good → r.toNat = f x) ∧ (¬ good → r = 0)) u v
    let fly (i : Instr) (f g : ℕ → ℕ) : Prop := d ≠ some av → Runs i s fun u v => ∃ fl,
      nv (s.cur.srcFlags (.v av) ||| s.cur.srcFlags b ||| s.cur.oldFlags d ||| eq) 0 fl ∧
      LaneEffect 4 d fl (fun x r => (good → r.toNat = f x) ∧ (¬ good → r = 0)) u
        { v with v := v.v.set av u.v[av], deadV := v.deadV.set av u.deadV[av] } ∧
      ∀ x, x < u.lanes → if u.active x then (good → (laneAt v.v[av] x).toNat = g x) ∧ (¬ good → laneAt v.v[av] x = 0)
        else laneAt v.v[av] x = laneAt u.v[av] x
    gives (.mmul q d a b) (fun x => A x * B x % m) ∧
    gives (.madd q d a b) (fun x => (A x + B x) % m) ∧
    gives (.msub q d a b) (fun x => (((A x : ℤ) - B x) % m).toNat) ∧
    gives (.mred q d a b) (fun x => (B x * 2 ^ 64 + A x) % m) ∧
    fly (.bfly q d av b) (fun x => (D x + V x * B x) % m) (fun x => (((D x : ℤ) - V x * B x) % m).toNat) ∧
    fly (.ibfly q d av b) (fun x => (D x + V x) % m) (fun x => (((D x : ℤ) - V x) * B x % m).toNat) ∧
    ∀ full h t i, decodeWords full h t = .ok i → i ≠ .bfly q (some av) av b ∧ i ≠ .ibfly q (some av) av b

/-- R137, R138, R139: `shfl`, `shfli` and `lget` read another lane as it stood before, zero with PZ from a dead lane;
`lput` writes any live lane, the last write of the ascending order remaining; `vote` writes a mask of the active lanes
or none. R140: reductions and scans combine sub-element `j` over the active lanes from left to right, each step by its
operation and each float step rounded by R127 and R128, the flags of the steps that enter a result joined. That `lput`
with `nwb` reads v0 as its old d, the EL of lanes that keep their old d, the flags of operand reads, and that a first
value is handed on as it is, are the model's readings (logs 15, 76, 67 and 107). -/
def Obligations.CrossLaneAndReductions : Prop :=
  (∀ (s : State) (w : IW) (d : VDst) (md : MDst) (a b : LSrc) (p : ShflPat) (k : BitVec 5) (kind : VoteKind),
    let n := iwBits w
    let fb := s.cur.srcFlags b
    let latch := s.cur.srcFlagsAt [] a
    let read (m : ℕ) (t j : ℕ) (r : ℕ × FFlags) : Prop :=
      if s.cur.lanes ≤ t then r = (0, 0) else if s.cur.dead.getLsbD t then r = (0, flagPZ)
      else r = (s.cur.sub m a t j, s.cur.srcFlagsAt [t] a)
    let idx (x j : ℕ) : ℕ := s.cur.sub n b x j
    let base (x : ℕ) : ℕ := 32 * (x / 32)
    Runs (.shfl w d a b) s (FloatEffect 4 n d (latch ||| fb) fun x j =>
      read n (base x + idx x j / 16 % 32) (idx x j % 16 % (64 / n))) ∧
    Runs (.lget w d a b) s (FloatEffect 4 n d (latch ||| fb) fun x j => read n (idx x j / 16) (idx x j % 16 % (64 / n))) ∧
    Runs (.shfli d a p k) s (FloatEffect 4 64 d latch fun x _ =>
      let K := k.toNat
      read 64 (match p with
        | .xor => base x + ((x - base x) ^^^ K)
        | .up => if x < base x + K then x else x - K
        | .down => if base x + 32 ≤ x + K then x else x + K
        | .bcast => base x + K) 0) ∧
    Runs (.vote kind md a) s (MaskEffect md (s.cur.srcFlags a) fun x => s.cur.active x = true ∧
      let q (y : ℕ) : Prop := s.cur.laneSrc 64 a y ≠ 0
      match kind with
      | .any => ∃ y, y < s.cur.lanes ∧ s.cur.active y = true ∧ q y
      | .all => ∀ y, y < s.cur.lanes → s.cur.active y = true → q y
      | .eq => ∀ y z, y < s.cur.lanes → z < s.cur.lanes → s.cur.active y = true → s.cur.active z = true → (q y ↔ q z)) ∧
    Runs (.lput w d a b) s fun u v =>
      -- what lane t, sub-element m holds afterwards: the value of the last write to it, or its old one
      let hits (t m x j : ℕ) : Prop := x < u.lanes ∧ u.active x = true ∧ j < 64 / n ∧ idx x j / 16 = t ∧
        idx x j % 16 % (64 / n) = m ∧ u.dead.getLsbD t = false
      let last (t m x j : ℕ) : Prop := hits t m x j ∧
        ∀ y i, hits t m y i → y < x ∨ (y = x ∧ i ≤ j)
      let holds (t : ℕ) (r : Word) : Prop := ∀ m, m < 64 / n →
        (∀ x j, last t m x j → subEl n r m = s.cur.sub n a x j) ∧
        ((∀ x j, ¬ hits t m x j) → subEl n r m = subEl n (u.old d t) m)
      -- active lanes that keep part of their old d, which f0 reads
      let keeps (x : ℕ) : Prop := x < u.lanes ∧ u.active x = true ∧ ∃ m, m < 64 / n ∧ ∀ y j, ¬ hits x m y j
      v.pc = u.pc + 4 ∧ (∃ l : List ℕ, (∀ x, x ∈ l ↔ keeps x) ∧
        Raised (u.srcFlags a ||| u.srcFlags b ||| u.srcFlagsAt l (.v (d.getD 0))) u v) ∧ LanePush u v ∧
      (∀ x, x < u.lanes → if u.active x then holds x (laneAt v.fl[0] x) else laneAt v.fl[0] x = 0) ∧
      (∀ r, d = some r → ∀ t, t < u.lanes → holds t (laneAt v.v[r] t)) ∧
      (∀ r, d ≠ some r → v.v[r] = u.v[r] ∧ v.deadV[r] = u.deadV[r]) ∧
      v = { u with pc := v.pc, fflags := v.fflags, pending := v.pending, fl := v.fl, fvalid := v.fvalid, v := v.v, deadV := v.deadV }) ∧
  (∀ (s : State) (op : RedKind) (d : VDst) (a : LSrc),
    let n := redBits op
    let xs := s.cur.activeLanes
    let V (j y : ℕ) : ℕ := s.cur.sub n a y j
    -- one combining step, with its flags
    let step (x y : ℕ) (r : ℕ × FFlags) : Prop := match op with
      | .int k _ => r = ((match k with
          | .add => (x + y) % 2 ^ n
          | .min => if signed n x ≤ signed n y then x else y
          | .max => if signed n x ≤ signed n y then y else x
          | .minu => min x y | .maxu => max x y | .and => x &&& y | .or => x ||| y | .xor => x ^^^ y), 0)
      | .float .fadd w => AddRule (fwFmt w) (modeOf s.cur.frm) false (decodeFmt (fwFmt w) x) (decodeFmt (fwFmt w) y) r
      | .float .fmin w => MinMaxRule (fwFmt w) true x y r
      | .float .fmax w => MinMaxRule (fwFmt w) false x y r
    let identity : ℕ := match op with
      | .int k _ => (match k with
          | .add | .or | .xor | .maxu => 0 | .and | .minu => 2 ^ n - 1 | .min => 2 ^ (n - 1) - 1 | .max => 2 ^ (n - 1))
      | .float .fadd _ => 2 ^ (n - 1)
      | .float .fmin w => (fwFmt w).infCode
      | .float .fmax w => 2 ^ (n - 1) + (fwFmt w).infCode
    let starts (y : ℕ) : Bool := s.cur.m[5].getLsbD y
    -- an active lane and the one before it
    let next (y x : ℕ) : Prop := y ∈ xs ∧ x ∈ xs ∧ y < x ∧ ∀ z ∈ xs, z ≤ y ∨ x ≤ z
    -- `P j x` is what has been combined from the beginning, or from the segment's, up to lane x, with the flags of its step
    let running (seg : Bool) (P : ℕ → ℕ → ℕ × FFlags) : Prop := ∀ j x, j < 64 / n → x ∈ xs →
      ((∀ y ∈ xs, x ≤ y) ∨ (seg = true ∧ starts x = true) → P j x = (V j x, 0)) ∧
      ∀ y, next y x → ¬ (seg = true ∧ starts x = true) → step (P j y).1 (V j x) (P j x)
    -- lanes y and x of one segment: no active lane after the lower and up to the upper begins one
    let together (x y : ℕ) : Bool := xs.all fun z => !(decide (min x y < z) && decide (z ≤ max x y) && starts z)
    -- the lanes whose steps enter a result raise their flags
    let gives (i : Instr) (seg : Bool) (enters : ℕ → Prop) (val : (ℕ → ℕ) → ℕ → ℕ) : Prop := Runs i s fun u v => ∃ fl P,
      running seg P ∧ (∀ k, fl.getLsbD k = true ↔ (u.srcFlags a).getLsbD k = true ∨
        ∃ j x, j < 64 / n ∧ x ∈ xs ∧ enters x ∧ (P j x).2.getLsbD k = true) ∧
      LaneEffect 4 d fl (fun x => Subs n fun j => val (fun y => (P j y).1) x % 2 ^ n) u v
    gives (.red op d a) false (fun _ => True) (fun p _ => p (xs.getLastD 0)) ∧
    gives (.scan op d a) false (fun _ => True) (fun p x => p x) ∧
    gives (.scanEx op d a) false (fun x => ∃ y ∈ xs, x < y)
      (fun p x => match (xs.filter (· < x)).getLast? with | some y => p y | none => identity) ∧
    gives (.segred op d a) true (fun _ => True) (fun p x => p ((xs.filter (together x)).getLastD x)))

/-- R141: `walki` turns row lengths into running ends and clears `%pidx`; `walk` deals the elements from `%pidx` on to the
active lanes in order, marks their lanes in m4 and the segment starts in m5, and advances `%pidx` by their number.
That `walk` with `nwb` reads v0 as its old d, and what flags are raised with m0 empty, are the model's readings (logs
15 and 108). -/
def Obligations.RaggedWalks : Prop :=
  ∀ (s : State) (d : VDst) (a : LSrc) (b : BReg),
    let t := s.cur
    let R : ℕ := min (bits t.s[b.val] 0 32) t.lanes
    let row (r : ℕ) : ℕ := if t.dead.getLsbD r then 0 else (t.laneSrc 64 a r).toNat
    let ends (r : ℕ) : ℕ := ((List.range (r + 1)).map fun q => row q % 2 ^ 32).sum
    let P : ℕ := t.pidx.toNat
    let T : ℕ := if R = 0 then 0 else row (R - 1)
    -- the place of an active lane among the active lanes
    let rank (x : ℕ) : ℕ := (t.activeLanes.filter (· < x)).length
    let dealt (x : ℕ) : Prop := x < t.lanes ∧ t.active x = true ∧ P + rank x < T
    let isRow (x r : ℕ) : Prop := r < R ∧ P + rank x < row r ∧ ∀ q, q < r → row q ≤ P + rank x
    let col (x r : ℕ) : ℤ := (P + rank x : ℤ) - (if r = 0 then 0 else row (r - 1))
    let item (x : ℕ) (v : Word) : Prop := ∀ r, isRow x r → v = word (r * 2 ^ 32 + (col x r % 2 ^ 32).toNat)
    (Runs (.walki d a b) s fun u v => v.pidx = 0 ∧ ∃ fl, fl &&& 0x5F = 0 ∧
      LaneEffect 4 d fl (fun x r => r = word (if R = 0 then 0 else ends (min x (R - 1)))) u { v with pidx := u.pidx }) ∧
    Runs (.walk d a b) s fun u v =>
      v.pidx = u.pidx + word (min (T - P) u.activeLanes.length) ∧
      (∀ k : MReg, k ≠ 4 → k ≠ 5 → v.mask k = u.mask k) ∧
      (∀ x, x < 1024 → ((v.mask 4).getLsbD x = true ↔ u.dead.getLsbD x = false ∧ dealt x)) ∧
      (∀ x, x < 1024 → ((v.mask 5).getLsbD x = true ↔ u.dead.getLsbD x = false ∧ dealt x ∧
        (rank x = 0 ∨ ∃ r, isRow x r ∧ col x r % 2 ^ 64 = 0))) ∧
      (∃ fl, fl &&& 0x5F = 0 ∧ Raised fl u v) ∧ v.pc = u.pc + 4 ∧ LanePush u v ∧
      (∀ x, x < u.lanes → (u.active x = false → laneAt v.fl[0] x = 0) ∧ (dealt x → item x (laneAt v.fl[0] x)) ∧
        (u.active x = true → ¬ dealt x → laneAt v.fl[0] x = u.old d x)) ∧
      (∀ r, d = some r → ∀ x, x < u.lanes → (dealt x → item x (laneAt v.v[r] x)) ∧
        (¬ dealt x → laneAt v.v[r] x = laneAt u.v[r] x)) ∧
      (∀ r, d ≠ some r → v.v[r] = u.v[r] ∧ v.deadV[r] = u.deadV[r]) ∧
      v = { u with
        pc := v.pc, fflags := v.fflags, pending := v.pending, fl := v.fl, fvalid := v.fvalid, v := v.v, deadV := v.deadV, m := v.m, pidx := v.pidx }

/-! ## Uniform instructions -/

/-- R94, R95: the scalar ALU and its immediate forms on 64-bit words; a division by zero and the signed overflow are
defined. R66, R67, R96: constant builders, `sadr`, `scmp` and `ssel`. That a builder that reads a dead d raises EL,
and that `sbfi` with `nwb` reads s0, are the model's readings (logs 15 and 67). -/
def Obligations.ScalarInstructions : Prop :=
  (∀ (s : State) (d : SDst) (a b : USrc) (imm : BitVec 11),
    let A := s.cur.uniSrc a
    let B := s.cur.uniSrc b
    let D := s.cur.uniSrc (.s (d.getD 0))
    let fa := s.cur.uniFlags a
    let fab := s.cur.uniFlags a ||| s.cur.uniFlags b
    let sx : Word := imm.signExtend 64
    let zx : Word := imm.setWidth 64
    let gives (i : Instr) (fl : FFlags) (v : Word) : Prop := Runs i s (UniEffect d fl v)
    let len := min (bits B 0 7) 64
    let pos := bits B 8 6
    gives (.sadd d a b) fab (A + B) ∧ gives (.ssub d a b) fab (A - B) ∧ gives (.smul d a b) fab (A * B) ∧
    gives (.smulh d a b) fab (BitVec.ofInt 64 (A.toInt * B.toInt / 2 ^ 64)) ∧
    gives (.smulhu d a b) fab (BitVec.ofNat 64 (A.toNat * B.toNat / 2 ^ 64)) ∧
    gives (.sdiv d a b) fab (if B = 0 then BitVec.allOnes 64 else A.sdiv B) ∧
    gives (.sdivu d a b) fab (if B = 0 then BitVec.allOnes 64 else A / B) ∧
    gives (.srem d a b) fab (if B = 0 then A else A.srem B) ∧
    gives (.sremu d a b) fab (if B = 0 then A else A % B) ∧
    gives (.sand d a b) fab (A &&& B) ∧ gives (.sor d a b) fab (A ||| B) ∧ gives (.sxor d a b) fab (A ^^^ B) ∧
    gives (.sshl d a b) fab (A <<< (B.toNat % 64)) ∧ gives (.sshr d a b) fab (A >>> (B.toNat % 64)) ∧
    gives (.ssra d a b) fab (A.sshiftRight (B.toNat % 64)) ∧
    gives (.smin d a b) fab (if A.toInt ≤ B.toInt then A else B) ∧
    gives (.sminu d a b) fab (if A.toNat ≤ B.toNat then A else B) ∧
    gives (.smax d a b) fab (if A.toInt ≤ B.toInt then B else A) ∧
    gives (.smaxu d a b) fab (if A.toNat ≤ B.toNat then B else A) ∧
    gives (.sclz d a) fa (word (64 - Nat.size A.toNat)) ∧
    gives (.spop d a) fa (word ((List.range 64).filter fun k => A.getLsbD k).length) ∧
    gives (.smov d a) fa A ∧
    (Runs (.sbfe d a b) s fun u v => ∃ r, UniEffect d fab r u v ∧ ∀ k, k < 64 → r.getLsbD k =
      if k < len then A.getLsbD (pos + k) else B.getLsbD 15 && decide (0 < len) && A.getLsbD (pos + len - 1)) ∧
    (Runs (.sbfi d a b) s fun u v => ∃ r, UniEffect d (fab ||| u.uniFlags (.s (d.getD 0))) r u v ∧ ∀ k, k < 64 →
      r.getLsbD k = if pos ≤ k ∧ k < pos + len then A.getLsbD (k - pos) else D.getLsbD k) ∧
    gives (.saddImm d a imm) fa (A + sx) ∧ gives (.smulImm d a imm) fa (A * sx) ∧
    gives (.sandImm d a imm) fa (A &&& zx) ∧ gives (.sorImm d a imm) fa (A ||| zx) ∧ gives (.sxorImm d a imm) fa (A ^^^ zx) ∧
    gives (.sshlImm d a imm) fa (A <<< (imm.toNat % 64)) ∧ gives (.sshrImm d a imm) fa (A >>> (imm.toNat % 64)) ∧
    gives (.ssraImm d a imm) fa (A.sshiftRight (imm.toNat % 64))) ∧
  ((∀ (s : State) (d : SReg) (i : BitVec 18) (x : BitVec 16),
    let D := s.cur.uniSrc (.s d)
    let fd := s.cur.sFlags d
    let gives (j : Instr) (fl : FFlags) (v : Word) : Prop := Runs j s (UniEffect (some d) fl v)
    let places (j : Instr) (lo : ℕ) : Prop := Runs j s fun u v => ∃ r, UniEffect (some d) fd r u v ∧
      ∀ k, k < 64 → r.getLsbD k = if lo ≤ k ∧ k < lo + 18 then i.getLsbD (k - lo) else D.getLsbD k
    let floats (j : Instr) (f : Fmt) : Prop := Runs j s fun u v => ∃ r, UniEffect (some d) 0 r u v ∧
      r.toNat = (encodeFmt f .rne false false (decodeFmt .bf16 x.toNat)).1
    gives (.sliI d i) 0 (i.signExtend 64) ∧ gives (.sliZ d i) 0 (i.setWidth 64) ∧
    places (.slil d i) 10 ∧ places (.slim d i) 28 ∧ places (.slih d i) 46 ∧
    floats (.sliF64 d x) .f64 ∧ floats (.sliF32 d x) .f32 ∧ floats (.sliF16 d x) .f16 ∧
    gives (.sadr d i) 0 (s.cur.pc + 4 * i.signExtend 64)) ∧
  (∀ (s : State) (d : SDst) (a b : USrc) (c : SReg) (q : SCond),
    let A := s.cur.uniSrc a
    let B := s.cur.uniSrc b
    let fab := s.cur.uniFlags a ||| s.cur.uniFlags b
    let holds : Prop := match q with
      | .eq => A = B | .ne => A ≠ B | .lt => A.toInt < B.toInt | .ltu => A.toNat < B.toNat
      | .le => A.toInt ≤ B.toInt | .leu => A.toNat ≤ B.toNat
    (holds → Runs (.scmp q d a b) s (UniEffect d fab 1)) ∧ (¬ holds → Runs (.scmp q d a b) s (UniEffect d fab 0)) ∧
    Runs (.ssel d a b c) s (UniEffect d (fab ||| s.cur.sFlags c) (if s.cur.s[c] = 0 then B else A))))

/-- R97, R99: branches, jumps, calls and loops, taken and not taken, with their misaligned target; `yield` and `nop`.
R110, R324: the software traps take their exception, with the code as detail and the PC at the instruction. That the
end of the tenure makes the latches of a trapping team invalid is R43 read for a trap (log 11). -/
def Obligations.ControlTransfersAndTraps : Prop :=
  (∀ (s : State) (off24 : BitVec 24) (off9 : BitVec 9) (imm : BitVec 18) (c : BcCond) (a b : USrc) (d : SReg),
    let head := s.cur.pc
    let A := s.cur.uniSrc a
    let B := s.cur.uniSrc b
    let same (fl : FFlags) (u m : Team) : Prop := Raised fl u m ∧ m = { u with fflags := m.fflags, pending := m.pending }
    let writes (fl : FFlags) (r : SReg) (v : Word) (u m : Team) : Prop := UniEffect (some r) fl v u { m with pc := m.pc + 4 }
    let holds : Prop := match c with
      | .eq => A = B | .ne => A ≠ B | .lt => A.toInt < B.toInt | .ge => B.toInt ≤ A.toInt
      | .ltu => A.toNat < B.toNat | .geu => B.toNat ≤ A.toNat
    let fab := s.cur.uniFlags a ||| s.cur.uniFlags b
    let n := s.cur.uniSrc (.s d) - 1
    Jumps (.br off24) s (head + 4 * off24.signExtend 64) (same 0) ∧
    (holds → Jumps (.bc c a b off9) s (head + 4 * off9.signExtend 64) (same fab)) ∧
    (¬ holds → Runs (.bc c a b off9) s (Passes 4 fab)) ∧
    Jumps (.jmp a) s A (same (s.cur.uniFlags a)) ∧
    Jumps (.ret a) s A (same (s.cur.uniFlags a)) ∧
    Jumps (.call d imm) s (head + 4 * imm.signExtend 64) (writes 0 d (head + 4)) ∧
    (n ≠ 0 → Jumps (.loop d off9) s (head + 4 * off9.signExtend 64) (writes (s.cur.sFlags d) d n)) ∧
    (n = 0 → Runs (.loop d off9) s (UniEffect (some d) (s.cur.sFlags d) 0)) ∧
    (∃ t, exec .yield s = .next t ∧ TenureOver s t ∧ t.cur = { s.cur with
      pc := head + 4, fvalid := 0, tenure := .none, st := .ready, idleSince := s.ck, readyAt := s.ck, readyPrev := false }) ∧
    Runs .nop s (Passes 4 0)) ∧
  (∀ (s : State) (code : BitVec 18),
    (∃ t, exec (.trap code) s = .next t ∧ TrapTaken 0x0A (code.setWidth 64) s t) ∧
    (∃ t, exec (.brk code) s = .next t ∧ TrapTaken 0x0B (code.setWidth 64) s t))

/-- R100, R101, R93: divergence on the stack of sixteen masks, with its software traps, and the branches on a mask. R102:
mask logic, corrected by R39; the stack of masks stays, and with m0 as its destination the execution mask changes. -/
def Obligations.DivergenceAndMaskLogic : Prop :=
  (∀ (s : State) (m : MReg) (off : BitVec 9),
    let target := s.cur.pc + 4 * off.signExtend 64
    -- m0 becomes `p` on the live lanes, the stack `st`, and nothing else changes but the program counter
    let masks (p : ℕ → Prop) (st : List Mask) (u v : Team) : Prop :=
      v = { u with m := v.m, stack := st } ∧ (∀ k : MReg, k ≠ 0 → v.mask k = u.mask k) ∧
      ∀ x, x < 1024 → (v.exec.getLsbD x = true ↔ x < u.lanes ∧ u.dead.getLsbD x = false ∧ p x)
    let keeps (p : ℕ → Prop) : Prop := ∃ x, x < 1024 ∧ x < s.cur.lanes ∧ s.cur.dead.getLsbD x = false ∧ p x
    let diverges (i : Instr) (p : ℕ → Prop) (st : List Mask) : Prop :=
      (keeps p → Runs i s fun u v => v.pc = u.pc + 4 ∧ masks p st u { v with pc := u.pc }) ∧
      (¬ keeps p → Jumps i s target (masks p st))
    let top := s.cur.stack.headD 0
    let both (x : ℕ) : Prop := s.cur.active x = true ∧ (s.cur.mask m).getLsbD x = true
    let rest (x : ℕ) : Prop := top.getLsbD x = true ∧ s.cur.active x = false
    let any : Prop := ∃ x, x < 1024 ∧ (s.cur.mask m).getLsbD x = true
    let same (u v : Team) : Prop := v = u
    (16 ≤ s.cur.stack.length → ∃ t, exec (.dvg m off) s = .next t ∧ TrapTaken 0x0A 0x40001 s t) ∧
    (s.cur.stack.length < 16 → diverges (.dvg m off) both (s.cur.exec :: s.cur.stack)) ∧
    (s.cur.stack = [] → (∃ t, exec (.flip off) s = .next t ∧ TrapTaken 0x0A 0x40003 s t) ∧
      ∃ t, exec .cvg s = .next t ∧ TrapTaken 0x0A 0x40002 s t) ∧
    (s.cur.stack ≠ [] → diverges (.flip off) rest s.cur.stack ∧
      Runs .cvg s fun u v => v.pc = u.pc + 4 ∧
        masks (fun x => top.getLsbD x = true) s.cur.stack.tail u { v with pc := u.pc }) ∧
    (any → Jumps (.bany m off) s target same ∧ Runs (.bnone m off) s (Passes 4 0)) ∧
    (¬ any → Jumps (.bnone m off) s target same ∧ Runs (.bany m off) s (Passes 4 0))) ∧
  (∀ (s : State) (d : MDst) (a b : MReg),
    let A (x : ℕ) : Prop := (s.cur.mask a).getLsbD x = true
    let B (x : ℕ) : Prop := (s.cur.mask b).getLsbD x = true
    let sets (i : Instr) (p : ℕ → Prop) : Prop := Runs i s (MaskEffect d 0 p)
    sets (.mand d a b) (fun x => A x ∧ B x) ∧ sets (.mor d a b) (fun x => A x ∨ B x) ∧
    sets (.mandn d a b) (fun x => A x ∧ ¬ B x) ∧ sets (.mxor d a b) (fun x => ¬ (A x ↔ B x)) ∧
    sets (.mnot d a) (fun x => ¬ A x) ∧ sets (.mmov d a) A)

/-- R101, R103: the branches on a mask, which read it as it stands, and the mask readers; no word decodes to a read of
lane word 32 or above. -/
def Obligations.MaskBranchesAndReaders : Prop :=
  ∀ (s : State) (a : MReg) (r : SDst) (k : Fin 32) (off : BitVec 9),
    let target := s.cur.pc + 4 * off.signExtend 64
    let A (x : ℕ) : Prop := (s.cur.mask a).getLsbD x = true
    let any : Prop := ∃ x, x < 1024 ∧ A x
    let same (u v : Team) : Prop := v = u
    (any → Jumps (.bany a off) s target same ∧ Runs (.bnone a off) s (Passes 4 0)) ∧
    (¬ any → Jumps (.bnone a off) s target same ∧ Runs (.bany a off) s (Passes 4 0)) ∧
    Runs (.mcnt r a) s (UniEffect r 0 (word ((List.range 1024).filter fun x => (s.cur.mask a).getLsbD x).length)) ∧
    (Runs (.mfirst r a) s fun u v => ∃ q, UniEffect r 0 q u v ∧ ((∀ x, x < 1024 → ¬ A x) → q = BitVec.allOnes 64) ∧
      ∀ x, A x → (∀ y, y < x → ¬ A y) → q = word x) ∧
    (Runs (.mlw r a k) s fun u v => ∃ q, UniEffect r 0 q u v ∧
      ∀ i, i < 64 → q.getLsbD i = (decide (i < 32) && (s.cur.mask a).getLsbD (32 * k.val + i))) ∧
    (MasksOk s.cur → s.cur.lwords ≤ k.val → a.val < 6 → Runs (.mlw r a k) s (UniEffect r 0 0)) ∧
    -- opcode 0x38 of the uniform set, with its immediate in bits 10:0
    ∀ full h t i, h / 2 ^ 24 = 0x80 + 0x38 → 32 ≤ h % 2 ^ 11 → decodeWords full h t ≠ .ok i

/-- R45, R46, R106 to R109, R114: reading and writing special registers, the escort set, regions and the fields of a work
identifier. A locked register that would change traps instead. The cycle counter has a free skew (log 9), and `swr`
ORs its own operand's flags after the write (log 67). -/
def Obligations.SpecialRegisters : Prop :=
  ∀ (s : State) (d : SDst) (v96 : VReg) (n : Special) (a b e : USrc) (f : Fin 6),
    let t := s.cur
    let A := t.uniSrc a
    let below : BitVec 96 := BitVec.ofNat 96 (2 ^ t.nregs - 1)
    let lo (x : Word) : BitVec 96 := x.setWidth 96
    let hi (x : Word) : BitVec 96 := (x.setWidth 32).setWidth 96 <<< 64
    let mode : BitVec 3 := if bits A 0 3 ≤ 4 then A.setWidth 3 else t.frm
    let quota := s.ctxQuota t.cluster s.curCtx 0
    let locked (m : Special) : Option Word := match m with
      | .frm => if quota.getLsbD 43 = true ∧ mode ≠ t.frm then some 0x009 else none
      | .ftrap => if quota.getLsbD 42 = true ∧ A.setWidth 5 ≠ t.ftrap then some 0x00B else none
      | _ => none
    let written (m : Special) : Team := match m with
      | .fflags => { t with fflags := A.setWidth 9 }
      | .frm => { t with frm := mode }
      | .ftrap => { t with ftrap := A.setWidth 5 }
      | .pidx => { t with pidx := A }
      | .escv0 => { t with escv := ((t.escv >>> 64 <<< 64) ||| lo A) &&& below }
      | .escv1 => { t with escv := (hi A ||| lo (t.escv.setWidth 64)) &&& below }
      | .escs => { t with escs := A.setWidth 32 }
      | _ => t
    let reads (m : Special) : Word := match m with
      | .team => word t.index | .group => word t.group | .widw => t.widw | .stage => word t.stage
      | .fflags => t.fflags.setWidth 64 | .frm => t.frm.setWidth 64 | .ftrap => t.ftrap.setWidth 64 | .pidx => t.pidx
      | .recCount => t.recCount | .rpc => t.rpc | .escv0 => t.escv.setWidth 64 | .escv1 => (t.escv >>> 64).setWidth 64
      | .escs => t.escs.setWidth 64 | .cwp k => s.curGroup.cwp[k] | .qseq q => t.qseq[q] | .sett => t.sett
      | .tcause => t.tcause.setWidth 64 | .tinfo => t.tinfo | .abroad => word (s.abroad t.cluster t.core)
      | .feat => word (s.part.stacks * 2 ^ 16 + s.part.ports * 2 ^ 8 + s.part.dies * 2 ^ 4 + if s.part.full then 3 else 0)
      | .cyc => s.cyc t | .cong => word (s.congLevel s.curGroup) | .lane => 0 | .wid => 0 | .wher => 0
    let laneForm (m : LaneSpecial) (val : ℕ → Word) : Prop := Runs (.srdLane v96 m) s fun u v =>
      (∀ x, x < u.lanes → laneAt v.v[v96] x = if u.active x then val x else laneAt u.v[v96] x) ∧
      (∀ r : VReg, r ≠ v96 → v.v[r] = u.v[r] ∧ v.deadV[r] = u.deadV[r]) ∧
      v = { u with pc := u.pc + 4, v := v.v, deadV := v.deadV }
    Runs (.srd d n) s (UniEffect d 0 (reads n)) ∧
    laneForm .lane (fun x => word x) ∧
    laneForm .wid (fun x => word (x + t.index * 2 ^ bits t.widw 0 7 + t.workBase.toNat * 2 ^ (bits t.widw 0 7 + bits t.widw 7 7))) ∧
    (∀ num, locked n = some num → ∃ t', exec (.swr n a) s = .next t' ∧ TrapRead (t.uniFlags a) 3 num s t') ∧
    (locked n = none → Runs (.swr n a) s fun u v => ∃ fl, fl = u.uniFlags a ∧ Raised fl (written n) v ∧
      v = { written n with pc := u.pc + 4, fflags := v.fflags, pending := v.pending }) ∧
    (Runs (.escset e a b) s fun u v => Raised (u.uniFlags e ||| u.uniFlags a ||| u.uniFlags b) u v ∧ v = { u with
      pc := u.pc + 4, fflags := v.fflags, pending := v.pending, escs := (u.uniSrc e).setWidth 32,
      escv := (hi (u.uniSrc b) ||| lo A) &&& below }) ∧
    (Runs .rgn s fun u v => v = { u with
      pc := u.pc + 4, recCount := u.recCount + 1, rpc := u.pc, srRgn := u.srCtr, fvalid := 0 }) ∧
    Runs (.widf d f) s (UniEffect d 0 (word ((t.wid 0).toNat / 2 ^ ((List.range f.val).map fun k => bits t.widw (7 * k) 7).sum %
      2 ^ bits t.widw (7 * f.val) 7)))

/-! ## Memory, synchronisation and the estate -/

/-- R143, R144, R146, R152 to R161: an unescorted memory instruction whose elements are aligned and have places completes:
it moves on, empties m7 where it is resumable, and adds one access with exactly the elements of its shape, at a scope
that scratchpad keeps within the group (a store may already have passed them to the combining buffer); no byte of
memory outside its own elements changes, and only an ordered access without an element leaves the mark of a release
fence. That a load delivers later is the model's reading (log 60). -/
def Obligations.MemoryInstructionsIssue : Prop :=
  ∀ (i : Instr) (s s' : State) (m : MemShape) (es : List Elem), memShape i s.cur = some m → m.esc = false → Calm s →
    Admitted s m.kind m.op m.raws s' es →
    es.map (fun e => (e.lane, e.sub, e.va, e.size, e.arg, e.aux, e.flag)) =
      m.raws.map (fun r => (r.lane, r.sub, r.va, r.size, r.arg, r.aux, r.flag)) ∧
    ∃ t, exec i s = .next t ∧ AccessIssued m.len m.flags m.resumes s.cur t.cur ∧ t.others = s.others ∧
      OnlyElems es s t ∧ ((∀ w, m.op ≠ .store w) → SameBytes s t) ∧
      (es ≠ [] → t.cur.relFence = s.cur.relFence) ∧
      (es = [] ∨ Holds t.cur s.cur.nextSeq m.op m.ord m.acts m.dst es ∨
        (∃ w, m.op = .store w) ∧ ∃ e ∈ es, e.kind = .relCons ∨ e.kind = .unordered)

/-- R143, R144, R149: a memory instruction with a misaligned element takes the misaligned trap with the lowest such
address; one that mixes scratchpad and global addresses, or has an element that no replay can place, takes the access
fault with the lowest offending address, where no walk waits for a link; none has any other effect than the flags of
the operand reads. What stands after a trap at issue, and which of two causes is taken, are the model's readings (logs
11 and 74). -/
def Obligations.MemoryInstructionsTrap : Prop :=
  ∀ (i : Instr) (s : State) (m : MemShape), memShape i s.cur = some m →
    let mis := (m.raws.filter fun r => r.va % r.size != 0).map Raw.va
    let below : Prop := ∃ r ∈ m.raws, r.va < 0x400000
    let above : Prop := ∃ r ∈ m.raws, 0x400000 ≤ r.va
    let least (l : List ℕ) (x : Word) : Prop := ∃ n ∈ l, x = word n ∧ ∀ k ∈ l, n ≤ k
    let bad := (placeRaws s.cur.cluster s.curGroup m.kind m.op s m.raws).2.2
    (mis ≠ [] → ∃ t x, exec i s = .next t ∧ least mis x ∧ TrapRead m.flags 5 x s t) ∧
    (mis = [] → m.kind = .either ∧ below ∧ above →
      ∃ t x, exec i s = .next t ∧ least (m.raws.map Raw.va) x ∧ TrapRead m.flags 6 x s t) ∧
    (mis = [] → ¬ (m.kind = .either ∧ below ∧ above) → bad ≠ [] →
      (∀ r ∈ m.raws, s.wayOpen s.cur.cluster s.curGroup.ctx m.kind r.va = true) → ∃ t x, exec i s = .next t ∧ TrapRead m.flags 6 x s t ∧
      (flagsAstray (placeRaws s.cur.cluster s.curGroup m.kind m.op s m.raws).2.1 = [] → least bad x))

/-- R150, R151, R222, R223: an escorted `ld`, `st`, `ldx`, `stx`, `stf`, `atom` or `cas`, its elements placed, leaves with
its frame when its charge fits the budget, keeping exactly the registers of the escort set; executes in place with EO
set and every register live when the charge exceeds the whole budget; and otherwise waits for bytes, not having
issued. -/
def Obligations.EscortedInstructions : Prop :=
  ∀ (i : Instr) (s s' : State) (m : MemShape) (es : List Elem), memShape i s.cur = some m → m.esc = true → Calm s →
    Admitted s m.kind m.op m.raws s' es →
    let u := s.cur
    let reply := match m.op with | .store _ | .stf _ => 0 | _ => 8 * (actingLanes u).length
    let charge := u.frameBytes + reply
    let local_ : Prop := ∀ e ∈ es, e.kind = .spad
    (s.escortFit u charge = .fits → ∃ t e, exec i s = .next t ∧ t.cur.st = .abroad ∧ t.cur.escort = some e ∧
      e.eo = false ∧ e.len = m.len ∧ e.charge = charge ∧ e.status = 0 ∧ e.escv = u.escv ∧ e.escs = u.escs ∧
      (local_ → e.what = .unitAccess u.nextSeq ∧ e.place = .unit) ∧ (¬ local_ → e.what = .access u.nextSeq ∧
        e.slice = (es.headD .zero).slice ∧ e.place = if (es.headD .zero).st = .queued then .faultHold else .request) ∧
      t.cur.pc = u.pc ∧ t.cur.fvalid = 0 ∧ t.cur.tenure = .none ∧ t.cur.m = u.m ∧ t.cur.stack = u.stack ∧
      t.cur.fflags = u.fflags ||| m.flags ∧
      (∀ r : SReg, t.cur.s[r] = if u.escs.getLsbD r.val then u.s[r] else 0) ∧
      (∀ r : SReg, t.cur.deadS.getLsbD r.val = !u.escs.getLsbD r.val) ∧
      (∀ (r : VReg) (x : ℕ), x < u.lanes → laneAt t.cur.v[r] x =
        if u.escv.getLsbD r.val && u.carried.getLsbD (x / 32) then laneAt u.v[r] x else 0) ∧
      Holds t.cur u.nextSeq m.op m.ord m.acts m.dst es ∧ SameBytes s t) ∧
    (s.escortFit u charge = .unescorted → ∃ t, exec i s = .next t ∧ t.cur.st = .waitAcc u.nextSeq ∧
      t.cur.pc = u.pc + word m.len ∧ t.cur.fflags = u.fflags ||| m.flags ||| flagEO ∧ t.cur.fvalid = 0 ∧
      t.cur.v = u.v ∧ t.cur.s = u.s ∧ t.cur.deadS = u.deadS ∧ t.cur.deadV = u.deadV ∧
      Holds t.cur u.nextSeq m.op m.ord m.acts m.dst es ∧ SameBytes s t) ∧
    (s.escortFit u charge = .short → ∃ t, exec i s = .next t ∧ (∃ k, t.cur.st = .waitBudget charge k) ∧
      t.cur.pc = u.pc ∧ t.cur.accs = [] ∧ t.cur.v = u.v ∧ t.cur.s = u.s ∧ t.cur.m = u.m ∧ t.cur.fvalid = 0 ∧ SameBytes s t)

/-- R104, R147, R148, R257: a fence with nothing outstanding, which marks the writes after it where it is a release; a
wait whose condition holds, and `qfence`, which makes later tasks of its queues wait for the tasks issued to them
before; a wait whose condition does not hold ends the tenure, past itself. R105: `waitq` passes where the queue has
completed the number. What a scope covers where copies differ is the model's reading (log 21). -/
def Obligations.FencesAndWaits : Prop :=
  (∀ (s : State) (o : FenceOrd) (sc : Scope) (qs : BitVec 4) (c : WaitClass) (n : BitVec 8),
    (Calm s → ∃ t, exec (.fence o sc) s = .next t ∧ t.cur.relFence = (s.cur.relFence || o != .acq) ∧
      Passes 4 0 s.cur { t.cur with relFence := s.cur.relFence } ∧ OnlyTeam s t) ∧
    (Runs (.qfence qs) s fun u v => v = { u with pc := u.pc + 4, qfence := v.qfence } ∧ ∀ q p : Fin 4,
      v.qfence[q][p] = if qs.getLsbD q.val && qs.getLsbD p.val then u.qissued[p] else u.qfence[q][p]) ∧
    (s.outstanding s.cur c ≤ n.toNat → Runs (.wait c n) s (Passes 4 0)) ∧
    (n.toNat < s.outstanding s.cur c → ∃ t, exec (.wait c n) s = .next t ∧ TenureOver s t ∧ t.cur = { s.cur with
      pc := s.cur.pc + 4, fvalid := 0, tenure := .none, idleSince := s.ck, st := .waitClass c n.toNat })) ∧
  (∀ (s : State) (a : USrc) (q : Fin 4), (s.cur.uniSrc a).toNat ≤ s.cur.qseq[q].toNat →
    Runs (.waitq a q) s (Passes 4 (s.cur.uniFlags a)))

/-- R163 to R165, R170: a barrier, monitor or promise word at its place, with nothing outstanding. `arrive` adds its count
and completes the phase as R163 gives; `await`, `mwait`, `prwait` and `arwait` complete when their condition holds.
R164 to R167, R170, R150: a wait whose condition does not hold parks: the team leaves with its frame, the PC at the
instruction, for its word's place; an `arwait` has made its arrival, and a plain `lkacq` parks at a lock of another
group. What a scope covers where copies differ is the model's reading (log 21). -/
def Obligations.BarriersMonitorsAndParking : Prop :=
  (∀ (s : State) (o : Ord) (sc : Scope) (d : SDst) (a b : USrc) (pl : Place), Calm s →
    let addr := (s.cur.uniSrc a).toNat
    let B := s.cur.uniSrc b
    let w := word (s.readAt pl.tgt 8)
    let fab := s.cur.uniFlags a ||| s.cur.uniFlags b
    let arrived (w' : Word) : Prop := Arrived w B w'
    let reads (i : Instr) : Prop := ∃ t, exec i s = .next t ∧ Returns 4 d fab w s.cur t.cur ∧ SameBytes s t ∧ t.others = s.others
    let ended (x : Word) (phase : ℕ) : Prop := bits x 48 8 ≠ phase ∨ x.getLsbD 63 = true
    (Reaches s .either addr 2 pl → ∃ t w', exec (.arrive o sc d a b) s = .next t ∧ arrived w' ∧
      Returns 4 d fab w s.cur t.cur ∧ t.readAt pl.tgt 8 = w'.toNat ∧ OnlyBytes pl.tgt 8 s t) ∧
    (Reaches s .either addr 0 pl → ended w (bits B 48 8) → reads (.await o sc d a b)) ∧
    (Reaches s .either addr 0 pl → w ≠ B → reads (.mwait o sc d a b)) ∧
    (Reaches s .global addr 0 pl → s.cur.uniFlags b = 0 → w.getLsbD 63 = true → reads (.prwait o sc d a)) ∧
    (Reaches s .either addr 2 pl → s.cur.arrivedAt = none → ∀ w', arrived w' → ended w' (bits w 48 8) →
      ∃ t, exec (.arwait o sc d a b) s = .next t ∧ Returns 4 d fab w' s.cur t.cur ∧ t.readAt pl.tgt 8 = w'.toNat ∧
        OnlyBytes pl.tgt 8 s t)) ∧
  (∀ (s : State) (o : Ord) (sc : Scope) (d : SDst) (a b tr : USrc) (orph : Bool) (q : Fin 4) (pl : Place), Calm s →
    let addr := (s.cur.uniSrc a).toNat
    let B := s.cur.uniSrc b
    let w := word (s.readAt pl.tgt 8)
    s.escortFit s.cur s.cur.frameBytes = .fits →
    let parks (i : Instr) (p : EscPlace) : Prop := Parks i s (fun w => ∃ r, w = .word r ∧ r.addr = addr) p
    let place : EscPlace := match pl.tgt with | .hbm _ => .request | _ => .unit
    (Reaches s .either addr 0 pl → bits w 48 8 = bits B 48 8 → w.getLsbD 63 = false → parks (.await o sc d a b) place) ∧
    (Reaches s .either addr 0 pl → w = B → parks (.mwait o sc d a b) place) ∧
    (Reaches s .global addr 0 pl → w.getLsbD 63 = false → parks (.prwait o sc d a) place) ∧
    -- an `arwait` has arrived when it parks
    (Reaches s .either addr 2 pl → s.cur.arrivedAt = none → ∀ w', Arrived w B w' → bits w' 48 8 = bits w 48 8 →
      w'.getLsbD 63 = false → ∃ t e r, exec (.arwait o sc d a b) s = .next t ∧ t.cur.st = .abroad ∧ t.cur.escort = some e ∧
        e.what = .word r ∧ r.addr = addr ∧ r.op = .arwaited w' ∧ e.place = place ∧ e.eo = false ∧ e.status = 0 ∧
        t.cur.pc = s.cur.pc ∧ t.cur.tenure = .none ∧ t.readAt pl.tgt 8 = w'.toNat ∧ OnlyBytes pl.tgt 8 s t) ∧
    -- a lock that another group holds
    (Reaches s .global addr 2 pl → bits w 24 32 ≠ 0 → bits w 24 32 ≠ s.cur.group → (tr = .zero ∨ s.cur.uniSrc tr ≠ 0) →
      parks (.lkacq o sc d a none tr orph false) place) ∧
    (s.cur.qseq[q].toNat < B.toNat → Parks (.waitq b q) s (fun w => w = .queue q B) .unit))

/-- R166 to R170, R174: `lkacq` takes a free lock, with the next generation and an estate entry unless `.noest`; `lkrel`
frees a lock that the own group holds, with the group's most recent entry for its address; an `lkacq` that neither
acquires nor waits changes nothing; `prnew` makes a promise and `prful` fulfils it, or, where it is fulfilled, only
removes the entry. R172, R173: `hold` registers an object with its heir, or gives the number of the entry that the
group already has; `unhold` frees the most recent entry of an object; `heir` replaces an entry's heir; an object
outside its limits or a full estate traps. That entry numbers are free, which entry `unhold` names, the order of the
checks, the access of a slot, and that a queue is held by the team that issued to it are the model's (logs 19, 20, 31
and 74). -/
def Obligations.LocksPromisesAndHoldings : Prop :=
  (∀ (s : State) (o : Ord) (sc : Scope) (d : SDst) (a b h tr : USrc) (orph once : Bool) (pl : Place), Calm s →
    Reaches s .global (s.cur.uniSrc a).toNat 2 pl → (s.group? s.cur.group).isSome = true →
    s.cur.group < 2 ^ 32 → s.cur.group ≠ 0 →
    let addr := s.cur.uniSrc a
    let B := s.cur.uniSrc b
    let w := word (s.readAt pl.tgt 8)
    let holder := bits w 24 32
    let g := s.group s.cur.group
    let fl (l : List USrc) : FFlags := flagUnion (l.map s.cur.uniFlags)
    let taken (w' : Word) : Prop := bits w' 24 32 = s.cur.group ∧ bits w' 0 24 = (bits w 0 24 + 1) % 2 ^ 24 ∧ bits w' 56 6 = 0 ∧
      bits w' 62 2 = bits w 62 2
    let writes (t : State) (w' : Word) : Prop := t.readAt pl.tgt 8 = w'.toNat ∧ OnlyBytes pl.tgt 8 s t
    let mine (e : Holding) : Bool := !e.reserved && e.obj == addr
    (holder = 0 → (w.getLsbD 62 = true → orph = true) → ∃ t w', exec (.lkacq o sc d a none tr orph once) s = .next t ∧
      taken w' ∧ writes t w' ∧ Returns 8 d (fl [a, tr]) w' s.cur t.cur ∧ (t.group s.cur.group).estate = g.estate) ∧
    (holder = 0 → (w.getLsbD 62 = true → orph = true) → s.estateRoom s.cur.group = true →
      ∃ t w' num, exec (.lkacq o sc d a (some h) tr orph once) s = .next t ∧ taken w' ∧ writes t w' ∧
        Returns 8 d (fl [a, h, tr]) w' s.cur t.cur ∧
        EstateGains s t num fun e => e.kind = 0 ∧ e.obj = addr ∧ e.heir = s.cur.uniSrc h) ∧
    -- held by the own group, orphaned without `.orph`, or held by another with `.try` or a timeout of 0
    let declines : Prop := holder = s.cur.group ∨ (holder = 0 ∧ w.getLsbD 62 = true ∧ orph = false) ∨
      (holder ≠ 0 ∧ holder ≠ s.cur.group ∧ (once = true ∨ (tr ≠ .zero ∧ s.cur.uniSrc tr = 0)))
    let declined (hh : Option USrc) (l : List USrc) : Prop := ∃ t, exec (.lkacq o sc d a hh tr orph once) s = .next t ∧
      Returns 8 d (fl l) w s.cur t.cur ∧ SameBytes s t ∧ (t.group s.cur.group).estate = g.estate
    (declines → declined none [a, tr]) ∧
    (declines → s.estateRoom s.cur.group = true → declined (some h) [a, h, tr]) ∧
    (s.estateRoom s.cur.group = false → ∃ t, exec (.lkacq o sc d a (some h) tr orph once) s = .next t ∧
      TrapRead (fl [a, h, tr]) 7 addr s t) ∧
    (holder = s.cur.group → ∃ t, exec (.lkrel o sc a) s = .next t ∧ writes t (word (bits w 0 24)) ∧
      Returns 4 none (fl [a]) 0 s.cur t.cur ∧ ∀ e, findLast? mine g.estate = some e →
        (t.group s.cur.group).estate = g.estate.filter fun x => x.num != e.num) ∧
    (holder ≠ s.cur.group → ∃ t, exec (.lkrel o sc a) s = .next t ∧ SameBytes s t ∧ Returns 4 none (fl [a]) 0 s.cur t.cur ∧
      (t.group s.cur.group).estate = g.estate) ∧
    (s.estateRoom s.cur.group = true → ∃ t num, exec (.prnew o sc d a h b) s = .next t ∧ writes t 0 ∧
      Returns 8 d (fl [a, h, b]) (word num) s.cur t.cur ∧
      EstateGains s t num fun e => e.kind = 1 ∧ e.obj = addr ∧ e.heir = s.cur.uniSrc h ∧ e.aux = word (bits B 0 56)) ∧
    (w.getLsbD 63 = false → ∃ t w', exec (.prful o sc a b) s = .next t ∧ writes t w' ∧ w'.getLsbD 63 = true ∧
      bits w' 0 56 = bits B 0 56 ∧ bits w' 56 7 = bits w 56 7 ∧ Returns 4 none (fl [a, b]) 0 s.cur t.cur ∧
      ∀ e, findLast? mine g.estate = some e → (t.group s.cur.group).estate = g.estate.filter fun x => x.num != e.num) ∧
    (w.getLsbD 63 = true → ∃ t, exec (.prful o sc a b) s = .next t ∧ SameBytes s t ∧ Returns 4 none (fl [a, b]) 0 s.cur t.cur ∧
      (t.group s.cur.group).estate = match findLast? mine g.estate with
        | some e => g.estate.filter fun x => x.num != e.num
        | none => g.estate)) ∧
  (∀ (s : State) (k : HoldKind) (ok : ObjKind) (sc : Scope) (d : SDst) (a h b : USrc), (s.group? s.cur.group).isSome = true →
    let A := s.cur.uniSrc a
    let x := s.cur.uniSrc (holdExtent k)
    let g := s.group s.cur.group
    let fl := s.cur.uniFlags a ||| s.cur.uniFlags h ||| s.cur.uniFlags (holdExtent k)
    let code : ObjKind → ℕ := fun | .spad => 2 | .queue => 3 | .chan => 4 | .plant => 5 | .sbuf => 6 | .pslot => 7
    let word_ : Prop := objKind k = .pslot
    let named (j : ObjKind) (e : Holding) : Bool := !e.reserved && e.kind == code j && e.obj == A
    let names (j : ObjKind) (e : Holding) : Bool := named j e && (j != .queue || e.owner == s.cur.tid)
    let kind : HoldKind → ObjKind := fun
      | .spad _ => .spad | .queue => .queue | .chan => .chan | .plant => .plant | .sbuf => .sbuf | .pslot _ => .pslot
    (¬ word_ → s.holdable (kind k) s.cur A x = false → ∃ t, exec (.hold k sc d a h) s = .next t ∧ TrapRead fl 6 A s t) ∧
    (¬ word_ → s.holdable (kind k) s.cur A x = true → ∀ e, g.estate.find? (names (kind k)) = some e →
      Runs (.hold k sc d a h) s (Returns 8 d fl (word e.num))) ∧
    (¬ word_ → s.holdable (kind k) s.cur A x = true → g.estate.find? (names (kind k)) = none →
      (s.estateRoom s.cur.group = false → ∃ t, exec (.hold k sc d a h) s = .next t ∧ TrapRead fl 7 A s t) ∧
      (s.estateRoom s.cur.group = true → ∃ t num, exec (.hold k sc d a h) s = .next t ∧ SameBytes s t ∧
        Returns 8 d fl (word num) s.cur t.cur ∧
        EstateGains s t num fun e => e.kind = code (kind k) ∧ e.obj = A ∧ e.heir = s.cur.uniSrc h)) ∧
    (word_ → Calm s → ∀ pl, Reaches s .global A.toNat 2 pl → g.estate.find? (names .pslot) = none →
      s.estateRoom s.cur.group = true → ∃ t num, exec (.hold k sc d a h) s = .next t ∧ SameBytes s t ∧
        Returns 8 d fl (word num) s.cur t.cur ∧
        EstateGains s t num fun e => e.kind = 7 ∧ e.obj = A ∧ e.heir = s.cur.uniSrc h ∧ e.aux = x) ∧
    (∃ t, exec (.unhold ok a) s = .next t ∧ SameBytes s t ∧ Passes 4 (s.cur.uniFlags a) s.cur t.cur ∧
      (t.group s.cur.group).estate = match findLast? (named ok) g.estate with
        | some e => g.estate.filter fun y => y.num != e.num
        | none => g.estate) ∧
    (∃ t, exec (.heir a b) s = .next t ∧ SameBytes s t ∧ Passes 4 (s.cur.uniFlags a ||| s.cur.uniFlags b) s.cur t.cur ∧
      ∀ e, (if A.toNat < 64 then g.estate.find? (fun y => !y.reserved && y.num == A.toNat)
          else findLast? (fun y => !y.reserved && y.obj == A) g.estate) = some e →
        (t.group s.cur.group).estate = g.estate.map fun y => if y.num = e.num then { y with heir := s.cur.uniSrc b } else y))

/-- R162: the tag table's instructions on a partition or slot of the context, with no poison; a miss in a full partition
takes the slot at the replacement pointer and advances it; one that is not the context's traps with its number. Which
of two entries with one tag is found is the model's choice (log 73). -/
def Obligations.TagTable : Prop :=
  ∀ (s : State) (d : SDst) (a b : USrc), s.poison = [] → s.cur.cluster < s.clusters.length →
    let A := s.cur.uniSrc a
    let B := s.cur.uniSrc b
    let c := s.cluster s.cur.cluster
    let fab := s.cur.uniFlags a ||| s.cur.uniFlags b
    let n := bits B 0 4
    let p := c.partition n
    let assigned (p : Word × Word) : Prop := p.1.getLsbD 63 = true ∧ bits p.2 0 16 = s.curCtx
    let inPart (k : ℕ) : Prop := bits p.1 47 12 ≤ k ∧ k < bits p.1 47 12 + bits p.1 34 13
    let old (slot : ℕ) : Word := word ((if (c.tag slot).valid then 2 ^ 63 else 0) + (if (c.tag slot).dirty then 2 ^ 62 else 0) + (c.tag slot).tag)
    let mine (slot : ℕ) : Prop := ∃ q ∈ c.tgmap.toList, assigned q ∧ bits q.1 47 12 ≤ slot ∧ slot < bits q.1 47 12 + bits q.1 34 13
    let slotA := bits A 0 12
    let slotB := bits B 0 12
    let keeps (t : State) (slot : ℕ) : Prop := ∀ k, k ≠ slot → (t.cluster s.cur.cluster).tag k = c.tag k
    (¬ assigned p → ∃ t, exec (.tlook d a b) s = .next t ∧ TrapRead fab 6 (word n) s t) ∧
    (assigned p → ∀ e ∈ c.tags, (c.tags.find? fun t => t.valid && t.tag == bits A 0 48 && tgHas p t.slot) = some e →
      Runs (.tlook d a b) s (Returns 4 d fab (word e.slot))) ∧
    (assigned p → (∀ e ∈ c.tags, ¬ (e.valid = true ∧ e.tag = bits A 0 48 ∧ inPart e.slot)) →
      ∀ k, inPart k → (c.tag k).valid = false → (∀ j, inPart j → j < k → (c.tag j).valid = true) →
      Runs (.tlook d a b) s (Returns 4 d fab (word (k * 2 ^ 32 + 0xFFFFFFFF)))) ∧
    -- with every slot valid the victim is at the replacement pointer, which advances in the partition's range
    (∀ m : Fin 16, m.val = n → assigned p → (∀ e ∈ c.tags, ¬ (e.valid = true ∧ e.tag = bits A 0 48 ∧ inPart e.slot)) →
      (∀ k, inPart k → (c.tag k).valid = true) →
      let ptr := bits p.1 22 12
      ∃ t', exec (.tlook d a b) s = .next t' ∧ SameBytes s t' ∧
        Returns 4 d fab (word (ptr * 2 ^ 32 + 0xFFFFFFFF)) s.cur t'.cur ∧
        (let after := (t'.cluster s.cur.cluster).tgmap
         bits after[m].1 22 12 = (if ptr + 1 < bits p.1 47 12 + bits p.1 34 13 then ptr + 1 else bits p.1 47 12) ∧
         bits after[m].1 0 22 = bits p.1 0 22 ∧ bits after[m].1 34 30 = bits p.1 34 30 ∧ after[m].2 = p.2 ∧
         (∀ k : Fin 16, k ≠ m → after[k] = c.tgmap[k])) ∧ (t'.cluster s.cur.cluster).tags = c.tags) ∧
    (¬ mine slotB → ∃ t, exec (.tins d a b) s = .next t ∧ TrapRead fab 6 (word slotB) s t) ∧
    (mine slotB → ∃ t, exec (.tins d a b) s = .next t ∧ SameBytes s t ∧ Returns 4 d fab (old slotB) s.cur t.cur ∧
      keeps t slotB ∧ (t.cluster s.cur.cluster).tag slotB = ⟨slotB, bits A 0 48, true, B.getLsbD 32, s.cur.group⟩) ∧
    (¬ mine slotA → ∃ t, exec (.tinv d a b) s = .next t ∧ TrapRead fab 6 (word slotA) s t) ∧
    (mine slotA → ∃ t, exec (.tinv d a b) s = .next t ∧ SameBytes s t ∧ Returns 4 d fab (old slotA) s.cur t.cur ∧
      keeps t slotA ∧ (t.cluster s.cur.cluster).tag slotA =
        if B.getLsbD 0 then c.tag slotA else { c.tag slotA with valid := false, dirty := false })

/-! ## Tasks, copies, kicks, launches -/

/-- R186 to R194, R199: `mtask` traps for a record that names MOD64 on a part without the unit and for one that breaks a
rule of its kind; else it enters the record into the pool under the next number of its queue, or parks for a free
record. Stores of the team in the combining buffer and updates of replicated pages would be performed first. R194,
R187, R188, R190: what a record that passes has: its reserved bits zero, N and M and K within the limits of its
arithmetic, an engine of the context in its mask, and no dependence on a task not yet issued. The order of the checks
within R194's table, the code for fields that shall be 0, and which fields name MOD64 are the model's (logs 32, 68 and
88). -/
def Obligations.TaskIssueAndRecords : Prop :=
  (∀ (s : State) (d : SDst) (a : Fin 4), s.cur.cluster < s.clusters.length → (∀ k, (s.die k).series = []) →
    let t := s.cur
    let src (i : ℕ) : SReg := Fin.ofNat 32 (8 * a.val + i)
    let r : List Word := (List.range 8).map fun i => t.s[src i]
    let w (i : ℕ) : Word := t.s[src i]
    let q : Fin 4 := Fin.ofNat 4 (bits (w 0) 2 2)
    let kind := bits (w 0) 0 2
    let fl := flagUnion ((List.range 8).map fun i => t.sFlags (src i))
    let mod64 : Prop := bits (w 2) 48 4 = 13 ∨ bits (w 0) 48 4 = 13 ∨ bits (w 0) 45 3 = 7
    let traps (code : ℕ) : Prop := ∃ t', exec (.mtask d a) s = .next t' ∧ TrapRead fl 15 (word (code + q.val * 256)) s t'
    let tasks (u : State) : List Task := (u.cluster t.cluster).tasks
    (mod64 → s.part = .zlx20 → ∃ t' info, exec (.mtask d a) s = .next t' ∧ TrapRead fl 2 info s t' ∧
      encode (.mtask d a) = [info.toNat]) ∧
    (¬ (mod64 ∧ s.part = .zlx20) → bits (w 0) 54 10 ≠ 0 → traps 0x10) ∧
    (¬ (mod64 ∧ s.part = .zlx20) → s.refusal t r ≠ 0 → traps (s.refusal t r)) ∧
    (¬ (mod64 ∧ s.part = .zlx20) → s.refusal t r = 0 → s.poolRoom t = true → (∀ x ∈ s.combOf t, x.tid ≠ t.tid) → ∃ t' k, exec (.mtask d a) s = .next t' ∧
      tasks t' = tasks s ++ [k] ∧ k.tid = t.tid ∧ k.group = t.group ∧ k.words = r ∧ k.seq = t.qissued[q] + 1 ∧
      k.st = .queued ∧ k.slot < 256 ∧ (∀ x ∈ tasks s, x.slot ≠ k.slot) ∧
      UniEffect d fl (t.qissued[q] + 1) s.cur { t'.cur with qissued := t.qissued, qfail := t.qfail } ∧
      (∀ p : Fin 4, t'.cur.qissued[p] = if p = q then t.qissued[p] + 1 else t.qissued[p]) ∧
      t'.others = s.others ∧ SameBytes s t') ∧
    (¬ (mod64 ∧ s.part = .zlx20) → s.refusal t r = 0 → s.poolRoom t = false → Calm s → s.escortFit t t.frameBytes = .fits →
      Parks (.mtask d a) s (fun x => x = .mtask r d) .unit)) ∧
  (∀ (s : State) (t : Team) (r : List Word), s.refusal t r = 0 →
    let w (i : ℕ) : Word := r.getD i 0
    let kind := bits (w 0) 0 2
    let mod64 : Prop := (kind ≠ 2 ∧ bits (w 2) 48 4 = 13) ∨ (2 ≤ kind ∧ bits (w 0) 45 3 = 7)
    let most (sp : ℕ) : ℕ := match sp with | 0 => 256 | 1 => 480 | 2 => 720 | _ => 960
    let ctx := (s.group t.group).ctx
    bits (w 0) 54 10 = 0 ∧ (w 0).getLsbD 20 = false ∧ bits (w 7) 48 16 = 0 ∧
    1 ≤ bits (w 0) 37 8 ∧ bits (w 0) 37 8 ≤ 128 ∧ 1 ≤ bits (w 0) 27 10 ∧
    (mod64 → bits (w 0) 27 10 ≤ 64 ∧ (kind ≠ 0 → bits (w 0) 11 9 ≤ 32)) ∧
    (¬ mod64 → bits (w 0) 27 10 ≤ most (bits (w 0) 9 2) ∧ bits (w 0) 11 9 ≤ 256) ∧
    (kind ≠ 0 → 1 ≤ bits (w 0) 11 9) ∧ (kind = 0 → bits (w 0) 11 9 = 0) ∧
    bits (w 0) 4 3 ≠ 0 ∧
    (∀ e, e < 3 → (w 0).getLsbD (4 + e) = true → (s.ctxQuota t.cluster ctx 0).getLsbD (44 + e) = true ∧
      ((s.cluster t.cluster).engine e).fenced = false) ∧
    ((w 0).getLsbD 21 = true → ¬ (1 ≤ (bits (w 1) 0 32 + 2 ^ 32 - (t.qissued[Fin.ofNat 4 (bits (w 0) 22 2)]).toNat % 2 ^ 32) % 2 ^ 32 ∧
      (bits (w 1) 0 32 + 2 ^ 32 - (t.qissued[Fin.ofNat 4 (bits (w 0) 22 2)]).toNat % 2 ^ 32) % 2 ^ 32 < 2 ^ 31)) ∧
    (2 ≤ kind → bits (w 0) 45 3 = 7 → (w 6).toNat % 2 = 1 ∧ 3 ≤ (w 6).toNat ∧ (w 6).toNat < 2 ^ 63) ∧
    bits (w 7) 0 48 % 8 = 0)

/-- R175, R176: `cpy` and `cpy2` queue a copy on the channel of their group; one of no bytes completes at once; lengths of
2^32 bytes and more, and a destination pitch below the row, trap. Stores of the team in the combining buffer and
updates of replicated pages would be performed first. R177, R178: `kick` puts its notice, with the sender's cluster,
into the queue of a living group, or parks while that is full, and for no such group arrives once, bereaved, on the
sender's barrier; `kpop` takes the oldest notice not yet taken, or gives zero; `kack` of a notice whose copies are
done arrives once on the sender's barrier and frees the entry. -/
def Obligations.CopiesAndKicks : Prop :=
  (∀ (s : State) (ch : Fin 8) (d a b : USrc), s.cur.cluster < s.clusters.length → (∀ x ∈ s.combOf s.cur, x.tid ≠ s.cur.tid) →
    (∀ k, (s.die k).series = []) →
    let t := s.cur
    let n := t.uniSrc b
    let fl := t.uniFlags d ||| t.uniFlags a ||| t.uniFlags b
    let copies (u : State) : List Copy := (u.cluster t.cluster).copies
    let queues (i : Instr) (rlen rows spitch dpitch : ℕ) : Prop := ∃ t' k, exec i s = .next t' ∧ Passes 4 fl s.cur t'.cur ∧
      copies t' = copies s ++ [k] ∧ k.tid = t.tid ∧ k.group = t.group ∧ k.ch = ch ∧ k.dst = (t.uniSrc d).toNat ∧
      k.src = t.uniSrc a ∧ k.rlen = rlen ∧ k.rows = rows ∧ k.spitch = spitch ∧ k.dpitch = dpitch ∧ k.done = 0 ∧
      k.delivered = false ∧
      t'.others = s.others ∧ SameBytes s t'
    let few : Prop := s.outstanding t .cp < 255
    (2 ^ 32 ≤ n.toNat → ∃ t', exec (.cpy ch d a b) s = .next t' ∧ TrapRead fl 6 n s t') ∧
    (n.toNat = 0 → Runs (.cpy ch d a b) s (Passes 4 fl)) ∧
    (0 < n.toNat → n.toNat < 2 ^ 32 → few → queues (.cpy ch d a b) n.toNat 1 0 0) ∧
    (1 < bits n 16 16 → 16 * bits n 48 16 < bits n 0 16 → ∃ t', exec (.cpy2 ch d a b) s = .next t' ∧ TrapRead fl 6 n s t') ∧
    (bits n 0 16 = 0 ∨ bits n 16 16 = 0 → Runs (.cpy2 ch d a b) s (Passes 4 fl)) ∧
    (0 < bits n 0 16 → 0 < bits n 16 16 → (1 < bits n 16 16 → bits n 0 16 ≤ 16 * bits n 48 16) → few →
      queues (.cpy2 ch d a b) (bits n 0 16) (bits n 16 16) (16 * bits n 32 16) (16 * bits n 48 16))) ∧
  (∀ (s : State) (a b : USrc) (d : SDst), Calm s → (s.groups.map Group.handle).Nodup → (s.group? s.cur.group).isSome = true →
    let t := s.cur
    let g := s.group t.group
    let x := t.uniSrc a
    let bar := bits x 32 22
    let fab := t.uniFlags a ||| t.uniFlags b
    let notice (w : Word) : Prop := ∀ i, i < 64 → w.getLsbD i =
      if 32 ≤ i ∧ i < 40 then (t.cluster % 128).testBit (i - 32) else if 56 ≤ i then (0xFE : ℕ).testBit (i - 56)
      else (t.uniSrc b).getLsbD i
    let living (h : Group) : Prop := s.group? (bits x 0 32) = some h ∧ h.ctx = g.ctx ∧ h.st = .alive
    (bar % 8 ≠ 0 → ∃ t', exec (.kick a b) s = .next t' ∧ TrapRead fab 5 (word bar) s t') ∧
    (bar % 8 = 0 → s.ownsSpad g bar 8 = false → ∃ t', exec (.kick a b) s = .next t' ∧ TrapRead fab 6 (word bar) s t') ∧
    (bar % 8 = 0 → s.ownsSpad g bar 8 = true → ∀ h, living h → h.kicks.length < 16 → ∃ t' n, exec (.kick a b) s = .next t' ∧
      notice n ∧ Passes 4 fab s.cur t'.cur ∧ SameBytes s t' ∧
      (t'.group h.handle).kicks = h.kicks ++ [⟨n, g.handle, g.cluster, bar, false, none⟩] ∧
      ∀ k, k ≠ h.handle → t'.group k = s.group k) ∧
    (bar % 8 = 0 → s.ownsSpad g bar 8 = true → ∀ h, living h → 16 ≤ h.kicks.length →
      s.escortFit t t.frameBytes = .fits → Parks (.kick a b) s (fun w => ∃ n, notice n ∧ w = .kick (bits x 0 32) bar n) .unit) ∧
    (bar % 8 = 0 → s.ownsSpad g bar 8 = true → (∀ h, ¬ living h) → ∃ t' w', exec (.kick a b) s = .next t' ∧
      Passes 4 fab s.cur t'.cur ∧ Arrived (word (s.readAt (.spad g.cluster bar) 8)) (word (2 ^ 63 + 1)) w' ∧
      t'.readAt (.spad g.cluster bar) 8 = w'.toNat ∧ OnlyBytes (.spad g.cluster bar) 8 s t' ∧ t'.groups = s.groups) ∧
    ((∀ k ∈ g.kicks, k.popped = true) → Runs (.kpop d) s (Returns 4 d 0 0)) ∧
    (∀ l k r, g.kicks = l ++ k :: r → (∀ y ∈ l, y.popped = true) → k.popped = false → ∃ t', exec (.kpop d) s = .next t' ∧
      Returns 4 d 0 k.notice s.cur t'.cur ∧ SameBytes s t' ∧
      (t'.group t.group).kicks = l ++ { k with popped := true } :: r) ∧
    (∀ l k r, g.kicks = l ++ k :: r → k.popped = true → k.notice = x → (∀ y ∈ l, ¬ (y.popped = true ∧ y.notice = x)) →
      (∀ h ∈ s.groups, ∀ y ∈ h.kicks, y.acked = none) → (∀ y ∈ (s.cluster t.cluster).copies, y.tid ≠ t.tid) →
      (s.group? k.sender).isSome = true → ∃ t' w', exec (.kack a) s = .next t' ∧
        Passes 4 (t.uniFlags a) s.cur t'.cur ∧ Arrived (word (s.readAt (.spad k.cluster k.barrier) 8)) 1 w' ∧
        t'.readAt (.spad k.cluster k.barrier) 8 = w'.toNat ∧ OnlyBytes (.spad k.cluster k.barrier) 8 s t' ∧
        (t'.group t.group).kicks = l ++ r))

/-- R112, R313: `emit` answers status 2 for a length outside 1 to 256, 1 for a successor that its stage does not declare,
3 where the launch is ending, 0 where the record is appended, and parks while no slot is free; an offset that is
misaligned or outside the group's scratchpad traps. R98, R111, R113, R326: `launch` of an aligned header and `sys`
park at the cluster's unit, `sys` with its two record slots queued; `exit` takes the team out, and with the last team
of a group that holds nothing, the group. -/
def Obligations.EmitsLaunchesAndExit : Prop :=
  (∀ (s : State) (k : Fin 4) (d : SDst) (a b : USrc), Calm s →
    let t := s.cur
    let g := s.group t.group
    let off := (t.uniSrc a).toNat
    let n := (t.uniSrc b).toNat
    let fl := t.uniFlags a ||| t.uniFlags b
    let l := s.launch g.launch
    let inside : Prop := g.spadBase ≤ off ∧ off + n ≤ g.spadBase + g.spadBytes
    let bytes := (List.range n).map fun i => s.spadByte g.cluster (off + i)
    let open_ (j : ℕ) : Prop := s.successor g k = some j ∧ l.ending = false
    let free (j : ℕ) : Bool := ((l.stage j).queue g.cluster).slotFree (l.stage j) (s.reservedRoom g.launch j g.cluster)
    (off % 8 ≠ 0 → ∃ t', exec (.emit k d a b) s = .next t' ∧ TrapRead fl 5 (t.uniSrc a) s t') ∧
    (off % 8 = 0 → n = 0 ∨ 256 < n → Runs (.emit k d a b) s (UniEffect d fl 2)) ∧
    (off % 8 = 0 → 1 ≤ n → n ≤ 256 → ¬ inside → ∃ t' x, exec (.emit k d a b) s = .next t' ∧ TrapRead fl 6 (word x) s t' ∧
      off ≤ x ∧ x < off + n ∧ (x < g.spadBase ∨ g.spadBase + g.spadBytes ≤ x) ∧
      ∀ y, off ≤ y → y < x → g.spadBase ≤ y ∧ y < g.spadBase + g.spadBytes) ∧
    (off % 8 = 0 → 1 ≤ n → n ≤ 256 → inside → s.successor g k = none → Runs (.emit k d a b) s (UniEffect d fl 1)) ∧
    (off % 8 = 0 → 1 ≤ n → n ≤ 256 → inside → (s.successor g k).isSome = true → l.ending = true →
      Runs (.emit k d a b) s (UniEffect d fl 3)) ∧
    (off % 8 = 0 → 1 ≤ n → n ≤ 256 → inside → ∀ j s', open_ j → free j = true →
      s.appendRecord g.launch j g.cluster bytes none = .ok s' → ∃ t', exec (.emit k d a b) s = .next t' ∧
        UniEffect d fl 0 s.cur t'.cur ∧ t'.launches = s'.launches ∧ SameBytes s' t') ∧
    (off % 8 = 0 → 1 ≤ n → n ≤ 256 → inside → ∀ j, open_ j → free j = false →
      s.escortFit t t.frameBytes = .fits → Parks (.emit k d a b) s (fun w => w = .emit k off n d) .unit)) ∧
  (∀ (s : State) (d : SDst) (a : USrc) (code : BitVec 18), Calm s →
    let t := s.cur
    let g := s.group t.group
    let hdr := t.uniSrc a
    let slot (ev team from_ : ℕ) (x y z : Word) (l : List Word) : Prop := l.length = 4 ∧ l.drop 1 = [x, y, z] ∧
      bits (l.headD 0) 32 32 = from_ % 2 ^ 32 ∧ bits (l.headD 0) 30 2 = 3 ∧ bits (l.headD 0) 24 6 = ev ∧ bits (l.headD 0) 12 4 = team % 16
    (hdr.toNat % 64 ≠ 0 → ∃ t', exec (.launch d a) s = .next t' ∧ TrapRead (t.uniFlags a) 5 hdr s t') ∧
    (hdr.toNat % 64 = 0 → s.escortFit t t.frameBytes = .fits → Parks (.launch d a) s (fun w => w = .launch hdr.toNat d none) .unit) ∧
    (0x10000 ≤ code.toNat → s.ctxWorld g.ctx ≠ 0 → ∃ t', exec (.sys code) s = .next t' ∧ TrapTaken 3 (code.setWidth 64) s t') ∧
    (code.toNat < 0x10000 ∨ s.ctxWorld g.ctx = 0 → s.escortFit t t.frameBytes = .fits →
      Parks (.sys code) s (fun w => w = .sys code.toNat false [t.s[4], t.s[5], t.s[6], t.s[7]] none) .unit ∧
      ∃ t' x y, exec (.sys code) s = .next t' ∧ t'.supRecs = s.supRecs ++ [⟨none, g.ctx, [x, y], t.cluster, false, some t.tid⟩] ∧
        slot 2 t.index g.handle (code.setWidth 64) t.s[4] t.s[5] x ∧ slot 0x3F t.index g.handle t.s[6] t.s[7] 0 y) ∧
    ((∀ k ∈ (s.cluster t.cluster).copies, k.tid = t.tid → k.delivered = true) → ∃ t', exec .exit s = .next t' ∧ t'.cur = Team.empty ∧
      t'.others = s.others ∧ SameBytes s t' ∧
      ((∃ u ∈ s.others, u.tid ≠ 0 ∧ u.group = t.group) → g.killed = false → t'.groups = s.groups) ∧
      ((∀ u ∈ s.others, u.group ≠ t.group) → g.st = .alive → g.estate = [] → g.tests = [] → g.kicks = [] →
        t'.groups = s.groups.filter fun x => x.handle != t.group)) ∧
    ((∃ k ∈ (s.cluster t.cluster).copies, k.tid = t.tid ∧ k.delivered = false) → g.killed = false → ∃ t', exec .exit s = .next t' ∧
      t'.cur = { t with st := .exiting, fvalid := 0, tenure := .none, idleSince := s.ck } ∧ t'.others = s.others ∧ t'.groups = s.groups))

/-- R211 to R213, R366, R374: `sar` and `sag` on a buffer that the context has reserved start this device's part and count
in `%sett`; one that finds a collective in flight is refused with eight bereaved arrivals; `sstat` reads the buffer's
status. The order of the checks, what `partial` reads in flight, that a replayable fault of the barrier word is
accepted at issue, and what becomes of a reservation that is released are the model's choices (logs 36, 70 and 86). -/
def Obligations.SettInstructions : Prop :=
  ∀ (s : State) (op : SarOp) (a b : USrc) (d : SDst), Calm s →
    let t := s.cur
    let A := t.uniSrc a
    let bar := t.uniSrc b
    let owned : Prop := A.toNat < 64 ∧ (s.settEntry A.toNat).w0.getLsbD 63 = true ∧ bits (s.settEntry A.toNat).w3 48 16 = (s.group t.group).ctx ∧
      (s.settEntry A.toNat).released = false
    let fab := t.uniFlags a ||| t.uniFlags b
    let old := s.settEntry A.toNat
    let code : ℕ := match op with | .sum => 0 | .min => 1 | .max => 2
    let request (c : ℕ) (u v : Team) : Prop := Passes 4 fab u { v with sett := u.sett } ∧ bits v.sett 0 6 = A.toNat ∧
      bits v.sett 6 2 = c ∧ bits v.sett 8 32 = (bits u.sett 8 32 + 1) % 2 ^ 32 ∧ bits v.sett 40 24 = 0
    let starts (i : Instr) (gather : Bool) (o : SarOp) (c : ℕ) : Prop := ∃ t' k, exec i s = .next t' ∧ request c s.cur t'.cur ∧
      SameBytes s t' ∧ t'.collectives = s.collectives ++ [k] ∧ k.buf = A.toNat ∧ k.gather = gather ∧ k.op = o ∧ k.barrier = bar.toNat ∧
      k.num = (old.gen + 1) % 2 ^ 32 ∧ k.dies.length = 8 ∧ k.chunks = [] ∧ k.opened = [] ∧
      (∀ x ∈ k.dies, x.sent = false ∧ x.heard = [] ∧ x.agreed = false ∧ x.arrived = false ∧ x.stopAt = none) ∧
      t'.settEntry A.toNat = { old with state := 1, refused := false, partials := 0, gen := (old.gen + 1) % 2 ^ 32 }
    let refused (i : Instr) (c : ℕ) : Prop := ∀ pl, s.ctxPlace (s.group t.group).ctx bar.toNat 2 = .ok pl → pl.tgt.device = 16 →
      (∀ home, pl.kind ≠ .replicated home) → ∃ t' w', exec i s = .next t' ∧ request c s.cur t'.cur ∧ Arrived (word (s.readAt pl.tgt 8)) (word (2 ^ 63 + 8)) w' ∧
        t'.readAt pl.tgt 8 = w'.toNat ∧ OnlyBytes pl.tgt 8 s t' ∧ t'.collectives = s.collectives ∧
        t'.settEntry A.toNat = { old with refused := true }
    let traps (i : Instr) (fl : FFlags) (c : BitVec 8) (x : Word) : Prop := ∃ t', exec i s = .next t' ∧ TrapRead fl c x s t'
    let busy : Prop := ∃ k ∈ s.collectives, k.buf = A.toNat
    (¬ owned → traps (.sar op a b) fab 6 A ∧ traps (.sag a b) fab 6 A ∧ traps (.sstat d a) (t.uniFlags a) 6 A) ∧
    (owned → bar.toNat % 8 ≠ 0 → traps (.sar op a b) fab 5 bar ∧ traps (.sag a b) fab 5 bar) ∧
    (owned → bar.toNat % 8 = 0 → s.ctxPlace (s.group t.group).ctx bar.toNat 2 = .error .access →
      traps (.sar op a b) fab 6 bar ∧ traps (.sag a b) fab 6 bar) ∧
    (owned → bar.toNat % 8 = 0 → s.ctxPlace (s.group t.group).ctx bar.toNat 2 ≠ .error .access → ¬ busy →
      starts (.sar op a b) false op code ∧ starts (.sag a b) true .sum 3) ∧
    (owned → bar.toNat % 8 = 0 → busy → refused (.sar op a b) code ∧ refused (.sag a b) 3) ∧
    (owned → old.state < 4 → old.partials < 256 → old.gen < 2 ^ 32 → Runs (.sstat d a) s fun u v => ∃ r, UniEffect d (t.uniFlags a) r u v ∧
      bits r 62 2 = old.state ∧ r.getLsbD 61 = old.refused ∧ bits r 32 8 = old.partials ∧ bits r 0 32 = old.gen)

/-! ## What the device does with teams -/

/-- R68, R69, R199, R324, R346: a word that fails its checks traps; a fetch that faults takes the access fault, or waits,
resident, for its replay; a team at a boundary takes its pending trap of lowest cause, the oldest of them. The order
of pending traps is the model's reading of R324 (log 12). -/
def Obligations.FetchAndBoundaryTraps : Prop :=
  ∀ (s : State) (tid : ℕ), let s1 := s.focus tid
    s1.cur.tid = tid → s1.cur.st = .ready →
    (∀ s2 c info, s1.fetch = (s2, .illegal c info) → ∃ t, exec (.illegalWord tid) s = .next t ∧
      TrapTaken (BitVec.ofNat 8 c) info s2 t) ∧
    (∀ s2 va, s1.fetch = (s2, .fault .access va) → ∃ t, exec (.fetchFault tid) s = .next t ∧ TrapTaken 6 (word va) s2 t) ∧
    (∀ s2 va, s1.fetch = (s2, .fault .replay va) → s2.cur = s1.cur → dieOf s2.cur.cluster < s2.dies.length →
      ∃ t, exec (.fetchFault tid) s = .next t ∧
      t.cur = { s2.cur with st := .fetchHeld va, fvalid := 0, tenure := .none, idleSince := s2.ck } ∧
      FaultAdded s2.cur.cluster ⟨(s2.group s2.cur.group).ctx, va, 3, 5, s2.cur.cluster, s2.cur.group, .fetch tid⟩ s2 t) ∧
    (∀ l p r, s1.cur.pending = l ++ p :: r → (∀ q ∈ l, p.1 < q.1) → (∀ q ∈ r, p.1 ≤ q.1) →
      ∃ t, exec (.boundaryTrap tid) s = .next t ∧ TrapTaken (BitVec.ofNat 8 p.1) p.2 (s1.onCur fun u => { u with
        pending := l ++ r, qfail := if p.1 = 15 then Vector.replicate 4 0 else u.qfail }) t)

/-- R215, R218 to R220: a core with a free lead grants a tenure to the team that a grant has passed over and that has been
ready longest, or, where there is none, to the oldest of the best priority class; a tenure of 512 instructions is
suspended, its latches kept. R232, R233, R422: a slice publishes a level of 0 to 7 with its time; a group's window
ends after 4,096 ck with its counters compared, three quarters to begin throttling and one half to go on, and begun
again; a cluster's window ends after 256 ck with its teams' allowances whole; the power cut follows the average. That
windows end by events of their own, and since when a suspended team holds no tenure, are the model's readings (logs 90
and 85). -/
def Obligations.TenuresAndCongestion : Prop :=
  (∀ (s : State) (c k : ℕ) (u : Team), Named s → u ∈ s.teams →
    let core (s : State) (c k : ℕ) : Core := (s.cluster c).core k
    let may (v : Team) : Prop := v ∈ s.teams ∧ v.cluster = c ∧ v.core = k ∧ v.st = .ready ∧ ∀ n, v.tenure ≠ .held n
    let chosen : Prop := may u ∧
      ((u.readyPrev = true ∧ ∀ v, may v → v.readyPrev = true → v ≠ u → u.readyAt < v.readyAt) ∨
        ((∀ v, may v → v.readyPrev = false) ∧ ∀ v, may v → v ≠ u → s.pclsOf u < s.pclsOf v ∨
          (s.pclsOf u = s.pclsOf v ∧ u.readyAt < v.readyAt)))
    (c < s.clusters.length → k < 2 → (core s c k).fenced = false → (s.holders c k).length < 2 → chosen →
      ∃ t, exec (.tenureGrant c k) s = .next t ∧
      t.team u.tid = { u with tenure := .held (match u.tenure with | .suspended n => n | _ => 0), readyPrev := false } ∧
      ((core t c k).laneLead = some u.tid ∨ (core t c k).uniLead = some u.tid) ∧
      (core t c k).lastSlot = u.slot ∧ (core t c k).grants = (core s c k).grants + 1 ∧
      ∀ v, v ≠ u.tid → t.team v = { s.team v with readyPrev := (t.team v).readyPrev }) ∧
    (u.cluster < s.clusters.length → u.st = .ready → ∀ n, u.tenure = .held n → 512 ≤ n → ∃ t, exec (.tenureSuspend u.tid) s = .next t ∧
      t.team u.tid = { u with tenure := .suspended 0, readyAt := s.ck, readyPrev := false, idleSince := s.ck } ∧
      (∀ v, v ≠ u.tid → t.team v = s.team v) ∧ SameBytes s t ∧
      ((u.core = 0 ∨ u.core = 1) → (core t u.cluster u.core).laneLead ≠ some u.tid ∧ (core t u.cluster u.core).uniLead ≠ some u.tid))) ∧
  (∀ (s : State) (n h c : ℕ) (above : Bool), Named s →
    let ts := s.teams.filter fun t => t.group == h
    let mem := (ts.map Team.memCk).sum
    let res := (ts.map Team.resCk).sum
    (n < s.slices.length → ∃ lv, lv < 8 ∧ ∃ t old, exec (.congestionPublish n) s = .next t ∧
      t.slices.getD n ⟨[]⟩ = ⟨old ++ [(s.ck, lv)]⟩ ∧ (∀ p ∈ old, s.ck ≤ p.1 + 1024) ∧
      (∀ k, k ≠ n → t.slices.getD k ⟨[]⟩ = s.slices.getD k ⟨[]⟩) ∧
      t = { s with slices := t.slices, freeCtr := t.freeCtr }) ∧
    (∀ g, s.group? h = some g → s.ck < g.window + 4096 → exec (.throttleWindow h) s = .next s) ∧
    (∀ g, s.group? h = some g → g.window + 4096 ≤ s.ck → ∃ t g', exec (.throttleWindow h) s = .next t ∧ t.group? h = some g' ∧
      (g'.detected = true ↔ if g.detected then res ≤ 2 * mem else 3 * res ≤ 4 * mem ∧ res ≠ 0) ∧
      g' = { g with window := s.ck, detected := g'.detected } ∧
      ∀ u ∈ s.teams, t.team u.tid = if u.group = h then { u with memCk := 0, resCk := 0 } else u) ∧
    (s.ck < (s.cluster c).window + 256 → exec (.congestionWindow c) s = .next s) ∧
    ((s.cluster c).window + 256 ≤ s.ck → ∃ t, exec (.congestionWindow c) s = .next t ∧
      t = { s with cur := t.cur, others := t.others, clusters := t.clusters } ∧
      (∀ k, t.cluster k = if k = c ∧ c < s.clusters.length then { s.cluster c with window := s.ck } else s.cluster k) ∧
      ∀ u ∈ s.teams, t.team u.tid = if u.cluster = c then { u with winCount := 0 } else u) ∧
    exec (.powerWindow above) s = .next { s with powerCut := above })

/-- R150, R224, R225, R226, R231: the way of a frame: bytes freed go to the team that waits for them, and a team whose
charge has come to exceed its budget issues again without them; a slice's pen with room admits the oldest request; a
finished access at the pen, or a watched frame that has been woken, sets out as a reply; a reply, or the oldest frame
of the Lodge, lands where its core has room. -/
def Obligations.FrameMoves : Prop :=
  ∀ (s : State) (u : Team), Named s → u ∈ s.teams →
    let id := u.tid
    let only (p : Team → Prop) : Prop := p u ∧ ∀ v ∈ s.teams, v ≠ u → ¬ p v
    let placed (p : EscPlace) (v : Team) : Prop := ∃ e, v.escort = some e ∧ e.place = p
    let step (i : Instr) (v : Team) : Prop := ∃ t, exec i s = .next t ∧ Becomes id v s t
    let landed (e : Escort) : Team := { u with
      escort := none, st := .ready, readyAt := s.ck, readyPrev := false, idleSince := s.ck,
      lastCarried := if e.whole = true then u.lastCarried else e.carried }
    (∀ c k ch o, u.cluster = c → u.core = k → u.st = .waitBudget ch o →
      (∀ v ∈ s.teams, v ≠ u → v.cluster = c → v.core = k → ∀ x y, v.st ≠ .waitBudget x y) →
      (s.bytesFree u ch = true →
        step (.budgetGrant c k) { u with granted := ch, st := .ready, readyAt := s.ck, readyPrev := false }) ∧
      (s.bytesFree u ch = false → s.abroadBudget u < ch →
        step (.budgetGrant c k) { u with granted := 0, st := .ready, readyAt := s.ck, readyPrev := false }) ∧
      (s.bytesFree u ch = false → ch ≤ s.abroadBudget u → exec (.budgetGrant c k) s = .next s)) ∧
    (∀ e seq a, u.escort = some e → e.place = .request → only (fun v => ∃ e', v.escort = some e' ∧ e'.place = .request ∧ e'.slice = e.slice) →
      s.penBytes e.slice false + e.charge ≤ 524288 → e.what = .access seq → u.accs = [a] → a.seq = seq →
      (∀ x ∈ a.elems, x.st ≠ .queued) →
      step (.carrierAdmit e.slice) { u with escort := some { e with place := .pen, arrived := s.events } }) ∧
    (∀ e seq a w, u.escort = some e → e.place = .pen → e.what = .access seq → u.accs = [a] → a.seq = seq → a.op = .store w →
      a.dst = .none → (∀ x ∈ a.elems, x.st = .done) → u.st = .abroad → (∀ v ∈ s.teams, v ≠ u → v.accs = [] ∧ v.st = .ready) →
      step (.penMerge id) { u with
        pc := u.pc + word e.len, m := u.m.set 7 0, accs := [],
        escort := some { e with status := 1, place := .reply, arrived := s.events } }) ∧
    (∀ e, u.escort = some e → e.place = .watched → e.status = 1 →
      step (.watchWake id) { u with escort := some { e with place := .reply, arrived := s.events } }) ∧
    (∀ e q v, u.escort = some e → e.place = .unit → e.status = 0 → e.eo = false → e.what = .queue q v → v.toNat ≤ u.qseq[q].toNat →
      ∃ t w, exec (.barrierUnitFrame id) s = .next t ∧ Completed e none 0 u w ∧ Becomes id w s t) ∧
    (∀ e, u.escort = some e → e.place = .reply → e.recalled = false → s.roomFor u = true → step (.frameLand id) (landed e)) ∧
    (∀ e, u.escort = some e → e.place = .reply → e.recalled = false → s.roomFor u = false → step (.frameLand id)
      { u with escort := some { e with place := .lodged, arrived := s.events, lodgedAt := s.ck } }) ∧
    (∀ e, u.escort = some e → e.place = .lodged → e.recalled = false → s.roomFor u = true →
      only (fun v => v.cluster = u.cluster ∧ v.core = u.core ∧ placed .lodged v) → step (.lodgeToRegister u.cluster u.core) (landed e))

/-- R225, R226, R330, R339: a recalled frame that has not reached its carrier goes back unperformed, its access dropped; a
frame that has waited 16,384 ck in the Lodge evicts the resident team of its core that has held no tenure for the
longest time; an evicted team, a pre-empted one and a stopped one that a command has released come back, ready, from a
record that checks. What a recall in a pen leaves done, that a suspended tenure can be evicted, since when it is idle,
and when a record's tag checks are the model's readings (logs 23, 25, 35 and 85). -/
def Obligations.RecallEvictRestore : Prop :=
  ∀ (s : State) (u : Team), Named s → u ∈ s.teams →
    let id := u.tid
    let loaded (k : ℕ) : Team := { u with
      core := k, slot := s.freeSlot u.cluster k, resume := false, st := .ready, readyAt := s.ck, readyPrev := false,
      idleSince := s.ck, saveStatus := 0, saveWher := 0 }
    let idle (x : Team) : Prop := (∀ n, x.tenure ≠ .held n) ∧
      match x.st with | .abroad | .saved _ | .stopping | .exiting | .preempting | .evicting => False | _ => True
    let restores (i : Instr) : Prop := u.escort = none → ∀ k, s.restoreCore u = some k → s.checkRecord u = .good →
      ∃ t, exec i s = .next t ∧ Becomes id (loaded k) s t
    (∀ e seq a, u.escort = some e → e.recalled = true → e.eo = false → e.place = .request → e.status = 0 → e.what = .access seq →
      u.accs = [a] → a.seq = seq → u.st = .abroad → (∀ v ∈ s.teams, v ≠ u → v.accs = [] ∧ v.st = .ready) →
      ∃ t, exec (.recall id) s = .next t ∧ SameBytes s t ∧ (∀ k, k ≠ id → t.team k = s.team k) ∧
      ∃ x, t.team id = { u with accs := [], escort := some x } ∧ x.status = 2 ∧ x.place = .reply ∧ x.recalled = true) ∧
    (∀ v e, v ∈ s.teams → v ≠ u → v.cluster = u.cluster → v.core = u.core → v.escort = some e → e.place = .lodged →
      e.recalled = false → e.lodgedAt + 16384 ≤ s.ck → u.slot < 32 → u.st = .ready → idle u →
      (∀ x ∈ s.teams, x ≠ u → x.cluster = u.cluster → x.core = u.core → idle x → u.idleSince < x.idleSince) →
      ∃ t, exec (.lodgeEvict u.cluster u.core) s = .next t ∧ SameBytes s t ∧ (∀ k, k ≠ id → t.team k = s.team k) ∧
        t.team id = { u with st := .evicting, saveWher := 0, granted := 0 }) ∧
    (u.st = .saved 2 → (∀ v ∈ s.teams, v.cluster = u.cluster → v.core = u.core → ∀ e, v.escort = some e → e.place ≠ .lodged) →
      restores (.evictedReturn id)) ∧
    ((u.st = .saved 0 ∨ (u.st = .saved 1 ∧ u.resume = true)) → s.ctxActive (s.group u.group).ctx = true → restores (.teamRestore id))

/-- R144, R158, R217, R247: an element at its place reads it and leaves what its operation gives; an unescorted store to a
release-consistent or unordered page enters the combining buffer instead; the result of a load enters its register.
R248, R264: an entry of a combining buffer that is 1,024 ck old and this device's drains: its bytes become memory's,
and no other; the oldest update of a home die's series that a die has not applied is written at that die's replica. -/
def Obligations.ElementsBuffersReplicas : Prop :=
  (∀ (s : State) (u : Team) (a : Acc) (e : Elem), MemOk s → Named s → u ∈ s.teams → u.escort = none → u.st = .ready → u.accs = [a] →
    (∀ v ∈ s.teams, v ≠ u → v.accs = [] ∧ v.st = .ready ∧ v.escort = none) → (∀ c k, ((s.cluster c).core k).comb = []) →
    (∀ k, (s.die k).series = []) → s.poison = [] → a.elems = [e] →
    let id := u.tid
    let write : ℕ → Option ℕ → Prop := fun old v => match a.op with
      | .load _ => v = none
      | .store _ => v = some e.arg
      | .stf _ => v = some (if e.flag then (old + e.arg) % 2 ^ 64 else e.arg)
      | .cas _ => v = if old = e.aux then some e.arg else none
      | .atom k | .redm k => ∃ x, v = some x ∧ AtomRule k old e.arg x
    let width : ℕ := match a.op with
      | .atom (.int _ w) | .redm (.int _ w) => awBits w
      | .atom (.fadd w) | .redm (.fadd w) => fwBits w
      | .cas w => awBits w
      | _ => 8 * e.size
    (∀ tgt, e.st = .todo → e.tgt = some tgt → (∀ d p, tgt ≠ .remote d p) → (∀ h, e.kind ≠ .replicated h) → 8 * e.size = width →
      e.combines a = false → (∀ pa, tgt = .hbm pa → s.linkOpen (dieOf u.cluster) e.slice = true) →
      e.arg < 2 ^ width → (∀ w, a.op = .stf w → e.flag = true → e.size = 8) →
      ∃ t v, exec (.fetchAccess id a.seq 0 none) s = .next t ∧
        write (s.readAt tgt e.size) v ∧ (v = none → SameBytes s t) ∧
        (∀ x, v = some x → t.readAt tgt e.size = x ∧ OnlyBytes tgt e.size s t) ∧
        (∀ k, k ≠ id → t.team k = s.team k) ∧
        t.team id = { u with accs := if a.dst = .none ∨ a.op.returns = false then []
          else [{ a with elems := [{ e with got := s.readAt tgt e.size, st := .done }] }] }) ∧
    (∀ w pa, e.st = .todo → e.tgt = some (.hbm pa) → a.op = .store w → a.esc = false → (e.kind = .relCons ∨ e.kind = .unordered) →
      1 ≤ e.size → e.size ≤ 8 → pa % 64 + e.size ≤ 64 → u.cluster < s.clusters.length → u.core < 2 →
      ∃ t c, exec (.fetchAccess id a.seq 0 none) s = .next t ∧ SameBytes s t ∧ ((t.cluster u.cluster).core u.core).comb = [c] ∧
        c.tid = id ∧ c.dev = 16 ∧ c.line = pa / 64 ∧ c.since = s.ck ∧
        (∀ i, i < 64 → (c.mask.getLsbD i = true ↔ pa % 64 ≤ i ∧ i < pa % 64 + e.size)) ∧
        (∀ i, i < e.size → cellGet c.bytes (pa % 64 + i) = byteOf e.arg i) ∧
        (∀ k, k ≠ id → t.team k = s.team k) ∧ t.team id = { u with accs := [{ a with elems := [{ e with st := .buffered }] }] }) ∧
    (∀ w r, e.st = .done → a.op = .load (.zx w) → a.dst = .lane r → a.esc = false → e.lane < u.lanes → u.dead.getLsbD e.lane = false →
      ∃ t, exec (.unescortedResult id a.seq) s = .next t ∧ SameBytes s t ∧ (∀ k, k ≠ id → t.team k = s.team k) ∧
        (∀ x, x < u.lanes → laneAt (t.team id).v[r] x = if x = e.lane then word (e.got % 2 ^ iwBits w) else laneAt u.v[r] x) ∧
        (∀ p : VReg, p ≠ r → (t.team id).v[p] = u.v[p]) ∧
        t.team id = { u with accs := [], v := (t.team id).v, deadV := (t.team id).deadV })) ∧
  (∀ (s : State) (c k home die : ℕ) (x : Comb) (m : Multi), MemOk s → Quiet s → s.poison = [] →
    (∀ t, t = s.cur ∨ t ∈ s.others → t.escort = none) →
    (c < s.clusters.length → k < 2 → ((s.cluster c).core k).comb = [x] → x.dev = 16 → x.since + 1024 ≤ s.ck →
      s.linkOpen (dieOf c) ((s.team x.tid).lineSlice 16 x.line) = true → (s.team x.tid).cluster = c →
      (s.team x.tid).core = k → ∃ t, exec (.combineEntryTimeout c k) s = .next t ∧ ((t.cluster c).core k).comb = [] ∧
        (∀ i, i < 64 → t.hbmByte (64 * x.line + i) = if x.mask.getLsbD i then cellGet x.bytes i else s.hbmByte (64 * x.line + i)) ∧
        (∀ pa, pa / 64 ≠ x.line → t.hbmByte pa = s.hbmByte pa) ∧ ∀ d off, t.spadByte d off = s.spadByte d off) ∧
    (home < s.dies.length → die < s.part.dies → die < 4 → (s.die home).series = [m] → m.applied = 0 → m.torn = 0 → m.rel = false → 1 < s.part.dies →
      s.pathUp home die = true →
      let at_ := m.pa + (s.rofs.toList.getD die 0).toNat
      s.frameOk (s.ctxWorld m.ctx) at_ = true → ∃ t, exec (.multicastApply home die) s = .next t ∧
        (∀ i, i < m.bytes.length → t.hbmByte (at_ + i) = m.bytes.getD i 0) ∧
        (∀ pa, ¬ (at_ ≤ pa ∧ pa < at_ + m.bytes.length) → t.hbmByte pa = s.hbmByte pa) ∧
        (t.die home).series = [{ m with applied := 1#4 <<< die }]))

/-- R112, R167, R177, R192: a parked `lkacq` whose timeout has run out completes with the word as it stands and no lock; a
parked `emit`, `mtask` or `kick` completes when its slot, record or entry is free, and an `emit` of an ending launch
with status 3. The results of `emit` and `mtask` enter f4 too. That a parked result enters f4 although the latches are
invalid is the model's reading (log 72). -/
def Obligations.ParkedWaits : Prop :=
  ∀ (s : State) (u : Team) (e : Escort), Named s → u ∈ s.teams → Still { s with cur := .empty, others := s.teams.filter (·.tid != u.tid) } →
    u.escort = some e → u.accs = [] → (u.st = .abroad ∨ u.st = .waitWord) → e.status = 0 → (e.place = .unit ∨ e.eo = true) →
    let id := u.tid
    let g := s.group u.group
    let done (i : Instr) (d : SDst) (push : Bool) (p : Word → State → Prop) : Prop := ∃ t v, exec i s = .next t ∧ p v t ∧
      Completed e d v u { t.team id with qissued := u.qissued, qfail := u.qfail, fu := u.fu } ∧
      (t.team id).fu = (if push then #v[v, u.fu[0], u.fu[1], u.fu[2]] else u.fu) ∧ ∀ k, k ≠ id → t.team k = s.team k
    (∀ r n orph once tgt, e.what = .word r → r.op = .lkacq none (some n) orph once → r.tgt = some tgt → r.acted = true →
      (∀ home, r.kind ≠ .replicated home) → r.issued + n ≤ s.ck → done (.lkacqTimeout id) r.dst false fun v t => v = word (s.readAt tgt 8) ∧ SameBytes s t) ∧
    (∀ k off len d, e.what = .emit k off len d → s.appendHeld id = false → (s.launch g.launch).ending = true →
      done (.emitSlotGrant id) d true fun v t => v = 3 ∧ SameBytes s t) ∧
    (∀ k off len d s', e.what = .emit k off len d → s.appendHeld id = false → (s.launch g.launch).ending = false →
      s.tryEmit id k off len = .done s' → done (.emitSlotGrant id) d true fun v t => v = 0 ∧ t.launches = s'.launches ∧ SameBytes s' t) ∧
    (∀ r d, e.what = .mtask r d → s.poolRoom u = true → u.cluster < s.clusters.length → done (.mtaskRecordGrant id) d true fun v t =>
      let q : Fin 4 := Fin.ofNat 4 (bits (r.getD 0 0) 2 2)
      v = u.qissued[q] + 1 ∧ (t.team id).qissued[q] = v ∧ ∃ k, (t.cluster u.cluster).tasks = (s.cluster u.cluster).tasks ++ [k] ∧
        k.words = r ∧ k.seq = v ∧ k.tid = id ∧ k.st = .queued) ∧
    (∀ target bar n, e.what = .kick target bar n → ∀ h, s.group? target = some h → h.ctx = g.ctx → h.st = .alive →
      h.kicks.length < 16 → done (.kickEntryGrant id) none false fun v t => v = 0 ∧
        (t.group target).kicks = h.kicks ++ [⟨n, g.handle, g.cluster, bar, false, none⟩])

/-- R182, R195, R197, R199, R205: a task at the head of its queue whose engines are free starts; one that has waited 4,096
ck for them ages; a drain of one FP32 element writes its accumulator value, a NaN as the canonical one; a finished
task without a completion word leaves the pool and its number becomes the queue's completed count. What the completion
word does on a replicated page is the model's reading (log 98). -/
def Obligations.Tasks : Prop :=
  ∀ (s : State) (c : ℕ) (k : Task), Still s → c < s.clusters.length → (s.cluster c).tasks = [k] →
    let r (i : ℕ) : Word := k.words.getD i 0
    let tasks (t : State) : List Task := (t.cluster c).tasks
    (k.st = .queued → k.fail = 0 → s.taskReady c k = true → s.enginesFree c k = true → ∃ t sm lg, exec (.taskStart c) s = .next t ∧
      tasks t = [{ k with st := .running, sampled := sm, log := lg }] ∧ SameBytes s t ∧ t.cur = s.cur ∧ t.others = s.others) ∧
    (∀ t0, k.waiting = some t0 → t0 + 4096 ≤ s.ck → ∃ t, exec (.taskAging c k.id) s = .next t ∧ tasks t = [{ k with aged := true }] ∧
      t = { s with clusters := t.clusters }) ∧
    (let dst := bits (r 4) 0 48
      let acc := keyGet (s.cluster c).e0.acc 0
      k.st = .running → bits (r 0) 0 2 = 2 → bits (r 0) 4 3 = 1 → bits (r 0) 11 9 = 1 → bits (r 0) 37 8 = 1 → bits (r 0) 45 3 = 0 →
      (s.ctxQuota c k.ctx 0).getLsbD 44 = true → (s.cluster c).e0.accPoison = [] → acc < 2 ^ 32 → dst < 0x400000 → dst % 4 = 0 →
      k.prog = 0 → (true, 3 * c) ∉ s.faulty → ∀ g, s.group? k.group = some g → s.ownsSpad g dst 4 = true →
      ∃ t, exec (.taskPass c k.id) s = .next t ∧ (t.cluster c).tasks.map (fun x => (x.id, x.st)) = [(k.id, .finished)] ∧
        t.readAt (.spad c dst) 4 = (if (decodeFmt .f32 acc).isNan then 0x7FC00000 else acc) ∧ OnlyBytes (.spad c dst) 4 s t) ∧
    (k.st = .finished → k.fail = 0 → k.sampled = false → bits (r 7) 0 48 = 0 → ∀ u, u ∈ s.teams → u.tid = k.tid → Named s → u.escort = none →
      ∃ t, exec (.taskComplete c k.id) s = .next t ∧ tasks t = [] ∧ SameBytes s t ∧
        t.team u.tid = { u with qseq := u.qseq.set (bits (r 0) 2 2 % 4) k.seq (by omega) } ∧ ∀ v, v ≠ u.tid → t.team v = s.team v)

/-- R182 to R184, R199, R202 to R204, R208, R210: a pass of a planting writes the tile's slots, its index and its check
columns in every engine of the mask; a pass of a multiply adds, row by row, the products of its planting into the
accumulator, chunk by chunk, or the sum modulo 2^192; an index plane that breaks the rule fails with 4, another
planting's mode with 5, poison in it with 3 and a mismatch with 1, and a fault on an operand holds the task. Operands
are read as the task reads them (R191, R199). Which of several failures a pass reports, and that a pass with a
mismatch adds nothing, are the model's choices (logs 69 and 99). -/
def Obligations.PlantingsAndMultiplies : Prop :=
  ∀ (s : State) (c : ℕ) (k : Task) (A S : ℕ → List Byte) (L : List Byte), Still s → c < s.clusters.length → (s.cluster c).tasks = [k] →
    let r := k.words
    let x := s.taskCtx c k
    let es := enginesOf (recEmask r)
    let eng (u : State) (e : ℕ) : Engine := (u.cluster c).engine e
    let bank (e : Engine) : Bank := if recBank r = 0 then e.bank0 else e.bank1
    let spare (e : Engine) : Bank := if recBank r = 0 then e.bank1 else e.bank0
    let rising (y : Bank) : Prop := y.slots.Pairwise fun p q => p.1 < q.1
    let fmt := recFmt r
    let b := codeBits fmt
    let sh := blockShape (recBlk r)
    let sp := recSparse r
    let nOf := if sp = 1 then 12 else if sp = 2 then 8 else 6
    let N := recN r
    let code (i j : ℕ) : ℕ := leNat (A i) / 2 ^ (b * j) % 2 ^ b
    let scale (i j : ℕ) : ℕ := if recBlk r = 0 then 0x7F else ((S (i / sh.1)).getD (j / sh.2) 0).toNat
    let pitch (cols : ℕ) : ℕ := if recSpitch r = 0 then ceilDiv cols sh.2 else recSpitch r
    let reads (i0 n cols : ℕ) : Prop :=
      (∀ i, i0 ≤ i → i < i0 + n → s.taskRead x (recAddr r + recPitch r * i) (cols * b / 8) = (s, .ok (A i))) ∧
      (recBlk r ≠ 0 → ∀ q, i0 < sh.1 * (q + 1) → sh.1 * q < i0 + n →
        s.taskRead x (recSaddr r + pitch cols * q) (ceilDiv cols sh.2) = (s, .ok (S q)))
    let ends (fail : ℕ) (t : State) : Prop := exec (.taskPass c k.id) s = .next t ∧
      (t.cluster c).tasks = [{ k with st := .finished, fail := fail }]
    let n := min 8 (recM r - k.prog)
    let inPass (i : ℕ) : Prop := k.prog ≤ i ∧ i < k.prog + n
    let suits (y : Engine) : Prop := match (bank y).mode with
      | .dense => sp = 0 ∧ fmt ≠ 13
      | .sparse m _ => sp ≠ 0 ∧ m = nOf
      | .mod64 => fmt = 13
    let spoilt (y : Engine) : Prop := (∃ q ∈ (bank y).poison, q % 128 < N) ∨
      recAcc r = true ∧ ∃ q ∈ y.accPoison, inPass (q / 128) ∧ q % 128 < N
    k.st = .running → k.sampled = false → (∀ e ∈ es, s.engineOf c e k.ctx = true) → 1 ≤ N → N ≤ 128 → (∃ f, fmtOf fmt = some f) →
    (recKind r = 0 → 1 ≤ recK r → recK r ≤ (if fmt = 13 then 64 else 256) → (fmt = 13 → sp = 0) →
      let idx (m : ℕ) : ℕ := (L.getD m 0).toNat
      let R := if sp = 0 then recK r else 240
      (sp ≠ 0 → s.taskRead x (recWord r 6).toNat 240 = (s, .ok L) ∧ L.length = 240) →
      let ordered : Prop := ∀ m, m < 240 → idx m < 24 ∧ (m % nOf ≠ 0 → idx (m - 1) < idx m)
      (sp ≠ 0 → ¬ ordered → ∃ t, ends 4 t ∧ SameBytes s t ∧ ∀ e, eng t e = eng s e) ∧
      ((sp ≠ 0 → ordered) → reads 0 R N → ∃ t, ends k.fail t ∧ SameBytes s t ∧ ∀ e ∈ es,
        let y := bank (eng t e)
        (eng t e).acc = (eng s e).acc ∧ spare (eng t e) = spare (eng s e) ∧ y.fmt = fmt ∧ y.poison = [] ∧
        y.mode = (if fmt = 13 then .mod64 else if sp = 0 then .dense else .sparse nOf (L.map BitVec.toNat)) ∧
        (∀ m j, m < 256 → j < 128 → keyGet y.slots (128 * m + j) =
          if fmt = 13 then (if m / 4 < R ∧ j < N then code (m / 4) j / 65536 ^ (m % 4) % 65536 else 0)
          else if m < R ∧ j < N then (if fmt = 2 ∨ fmt = 3 then code m j else 256 * scale m j + code m j) else 0) ∧
        y.checks = formChecks fmt y.slots ∧ rising y)) ∧
    ((recKind r = 1 ∨ recKind r = 3 ∧ k.ph = 0) → k.prog < recM r →
      ((∃ e ∈ es, ¬ suits (eng s e)) → ∃ t, ends 5 t ∧ SameBytes s t ∧ ∀ e, eng t e = eng s e) ∧
      ((∀ e ∈ es, suits (eng s e)) → (∃ e ∈ es, spoilt (eng s e)) → ∃ t, ends 3 t ∧ ∀ e, eng t e = eng s e) ∧
      ((∀ e ∈ es, suits (eng s e) ∧ ¬ spoilt (eng s e)) →
        (∀ s' va, recBlk r = 0 → s.taskRead x (recAddr r + recPitch r * k.prog) (recK r * b / 8) = (s', .error (.held va 0)) →
          ∃ t, exec (.taskPass c k.id) s = .next t ∧ FaultAdded c ⟨k.ctx, va, 0, 3, c, k.group, .task c k.id⟩ s' t ∧
            ∀ e, eng t e = eng s' e) ∧
        (reads k.prog n (recK r) → (∃ e ∈ es, (eng s e).mismatch = true) → (∀ e ∈ es, (eng s e).lastMismatch = none) →
          ∃ t, ends 1 t ∧ ∀ e, (eng t e).acc = (eng s e).acc ∧ (eng t e).acc192 = (eng s e).acc192) ∧
        (reads k.prog n (recK r) → (∀ e ∈ es, (eng s e).mismatch = false ∧ rising (bank (eng s e)) ∧ (bank (eng s e)).checks =
            formChecks (bank (eng s e)).fmt (bank (eng s e)).slots) →
          ∃ t, exec (.taskPass c k.id) s = .next t ∧ SameBytes s t ∧
            (t.cluster c).tasks = [if recM r ≤ k.prog + n then (if recKind r = 3 then { k with prog := 0, ph := 1 }
              else { k with prog := 0, st := .finished }) else { k with prog := k.prog + n }] ∧
            ∀ e ∈ es, let y := eng s e
              let z := eng t e
              z.bank0 = y.bank0 ∧ z.bank1 = y.bank1 ∧
              (fmt = 13 → z.acc = y.acc ∧ ∀ i j, inPass i → j < N → keyGet z.acc192 (128 * i + j) =
                ((if recAcc r then keyGet y.acc192 (128 * i + j) else 0) + ((List.range (recK r)).map fun q => code i q *
                  ((List.range 4).map fun h => keyGet (bank y).slots (128 * (4 * q + h) + j) * 65536 ^ h).sum).sum) % 2 ^ 192) ∧
              (fmt ≠ 13 → z.acc192 = y.acc192 ∧
                (∀ i j, inPass i → j < N → ∃ p : ℕ → FVal, (∀ m, m < 256 → RowProduct (bank y) fmt (recK r) (code i) (scale i) m j (p m)) ∧
                  MacRule (if recAcc r then keyGet y.acc (128 * i + j) else 0) (keyGet z.acc (128 * i + j)) p) ∧
                (∀ i j, inPass i → N ≤ j → j < 128 → keyGet z.acc (128 * i + j) = keyGet y.acc (128 * i + j)) ∧
                ∀ q, ¬ inPass (q.1 / 128) → (q ∈ z.acc ↔ q ∈ y.acc)))))

/-- R198, R205 to R207: a pass of a drain into scratchpad. It writes the rows of a pass, or the whole tile where it adds,
each element by its mode, a requantised block with the scale of its largest magnitude; it counts the elements of R198,
writes no other byte and leaves the engines; and poison in the accumulator fails it with 3 and writes nothing. -/
def Obligations.Drains : Prop :=
  ∀ (s : State) (c : ℕ) (k : Task) (g : Group), Still s → c < s.clusters.length → (s.cluster c).tasks = [k] → s.group? k.group = some g →
    let r := k.words
    let es := enginesOf (recEmask r)
    let mode := recDrain r
    let N := recN r
    let cols := es.length * N
    let B := (blockShape (recMxblk r)).1
    let n := min (if 4 ≤ mode ∧ mode ≤ 6 then 256 else if mode = 3 then B else 8) (recM r - k.prog)
    let w := if mode = 0 ∨ mode = 4 then 32 else if mode = 7 then 64 else if mode = 3 then codeBits (recMxfmt r) else 16
    let len := cols * w / 8
    let row (i : ℕ) : ℕ := recDaddr r + recDpitch r * i
    let plane := recDsaddr r + k.prog / B * (if recDspitch r = 0 then ceilDiv cols B else recDspitch r)
    let acc (i j : ℕ) : ℕ := keyGet ((s.cluster c).engine (es.getD (j / N) 0)).acc (128 * i + j % N)
    let acc192 (i j : ℕ) : ℕ := keyGet ((s.cluster c).engine (es.getD (j / N) 0)).acc192 (128 * i + j % N)
    let val (i j : ℕ) : FVal := decodeFmt .f32 (acc i j)
    let elem (u : State) (i j : ℕ) : ℕ := u.readAt (.spad c (row i)) len / 2 ^ (w * j) % 2 ^ w
    let inPass (i : ℕ) : Prop := k.prog ≤ i ∧ i < k.prog + n
    let spoilt (e : ℕ) : Prop := ∃ q ∈ ((s.cluster c).engine e).accPoison, inPass (q / 128) ∧ q % 128 < N
    let within (off size : ℕ) : Prop := 0 < size ∧ off + size ≤ 0x400000 ∧ off % 65536 + size ≤ 65536 ∧ s.ownsSpad g off size = true
    k.st = .running → k.sampled = false → (recKind r = 2 ∨ recKind r = 3 ∧ k.ph = 1) → k.prog < recM r → 1 ≤ N → N ≤ 128 → es ≠ [] →
    (∀ e ∈ es, s.engineOf c e k.ctx = true) →
    ((∃ e ∈ es, spoilt e) → ∃ t, exec (.taskPass c k.id) s = .next t ∧ (∀ a, t.spadByte c a = s.spadByte c a) ∧
      (t.cluster c).tasks = [{ k with st := .finished, fail := 3 }]) ∧
    ((∀ e ∈ es, ¬ spoilt e ∧ (true, 3 * c + e) ∉ s.faulty) → cols * w % 8 = 0 → len ≤ recDpitch r →
      (∀ i, inPass i → within (row i) len) →
      (mode = 3 → (recMxblk r = 2 ∨ recMxblk r = 3) ∧ (es.length = 1 ∨ N % B = 0) ∧ 4 ≤ recMxfmt r ∧ recMxfmt r ≤ 9 ∧
        within plane (ceilDiv cols B) ∧ ∀ i, inPass i → plane + ceilDiv cols B ≤ row i ∨ row i + len ≤ plane) →
      (mode = 7 → recWord r 6 ≠ 0) →
      ∃ t, exec (.taskPass c k.id) s = .next t ∧
        let sum (f : Fmt) (i j : ℕ) : Prop := ∃ fl, AddRule f .rne false (decodeFmt f (elem s i j)) (val i j) (elem t i j, fl)
        let past (f : Fmt) (i j : ℕ) : Bool := (decodeFmt f (elem t i j)).isNan ||
          ((decodeFmt f (elem t i j)).isInf && isFin (val i j) && (decide (mode < 4) || isFin (decodeFmt f (elem s i j))))
        let counts (p : ℕ → ℕ → Bool) : ℕ := ((List.range n).map fun i => (List.range cols).countP (p (k.prog + i))).sum
        let nsat (z : ℕ) : Prop := (t.cluster c).tasks = [{ k with
          nsat := min 255 (k.nsat + z)
          prog := if recM r ≤ k.prog + n then 0 else k.prog + n
          st := if recM r ≤ k.prog + n then .finished else .running }]
        (∀ e, (t.cluster c).engine e = (s.cluster c).engine e) ∧
        (∀ pa, t.hbmByte pa = s.hbmByte pa) ∧
        (∀ d off, (∀ i, inPass i → ¬ inSpad (.spad c (row i)) len d off) →
          (mode = 3 → ¬ inSpad (.spad c plane) (ceilDiv cols B) d off) → t.spadByte d off = s.spadByte d off) ∧
        (mode = 0 → (∀ i j, inPass i → j < cols → elem t i j = if (val i j).isNan then 0x7FC00000 else acc i j % 2 ^ 32) ∧
          nsat (counts fun i j => (val i j).isNan)) ∧
        (∀ f, (mode = 1 ∧ f = .bf16) ∨ (mode = 2 ∧ f = .f16) →
          (∀ i j, inPass i → j < cols → ∃ fl, EncodeRule f (val i j) (elem t i j, fl)) ∧ nsat (counts (past f))) ∧
        (∀ f, (mode = 4 ∧ f = .f32) ∨ (mode = 5 ∧ f = .bf16) ∨ (mode = 6 ∧ f = .f16) →
          (∀ i j, inPass i → j < cols → sum f i j) ∧ nsat (counts (past f))) ∧
        (mode = 7 → (∀ i j, inPass i → j < cols → elem t i j = acc192 i j % (recWord r 6).toNat) ∧ nsat 0) ∧
        (∀ f, mode = 3 → fmtOf (recMxfmt r) = some f →
          let emax : ℤ := match recMxfmt r with | 4 => 15 | 5 => 8 | 6 => 2 | 7 => 12 | 8 => 8 | _ => 6
          let inBlock (q i j : ℕ) : Prop := inPass i ∧ j < cols ∧ j / B = q
          let sc (q : ℕ) : ℕ := (t.spadByte c (plane + q)).toNat
          let bad (q : ℕ) : Prop := ∃ i j, inBlock q i j ∧ isFin (val i j) = false
          let form (i j : ℕ) (v : FVal) : Prop := ∃ m e, v = .fin (val i j).neg m e ∧
            rat v = rat (val i j) * 2 ^ (127 - (sc (j / B) : ℤ))
          let sat (fl : FFlags) : Bool := fl &&& (if recMxfmt r = 9 then flagNV else if recMxfmt r = 7 ∨ recMxfmt r = 8
            then flagOF ||| flagUF else flagOF) != 0
          (∀ q, q < ceilDiv cols B →
            (bad q → sc q = 0xFF ∧ ∀ i j, inBlock q i j → elem t i j = 0) ∧
            (¬ bad q → (∀ i j, inBlock q i j → rat (val i j) = 0) → sc q = 0x7F) ∧
            (¬ bad q → ∀ l : ℤ, (∃ i j, inBlock q i j ∧ 2 ^ l ≤ |rat (val i j)|) → (∀ i j, inBlock q i j → |rat (val i j)| < 2 ^ (l + 1)) →
              (sc q : ℤ) = min (max (l - emax + 127) 0) 0xFE)) ∧
          ∃ full : ℕ → ℕ → Bool, nsat (counts full) ∧ ∀ i j, inPass i → j < cols →
            (bad (j / B) → full i j = true) ∧
            (¬ bad (j / B) → ∃ v, form i j v ∧ elem t i j = (encodeFmt f .rne true false v).1 ∧ full i j = sat (encodeFmt f .rne true false v).2)))

/-- R175, R236, R243, R244: a piece of a copy within the scratchpad moves its bytes, adds to the channel's write pointer
and, when it is the last, takes the copy out; a freed range is cleared and free. -/
def Obligations.CopiesAndClearing : Prop :=
  ∀ (s : State) (c : ℕ), Still s → c < s.clusters.length →
    (∀ (k : Copy) (g : Group), (s.cluster c).copies = [k] → k.held = false → k.done = 0 → k.rows = 1 → 0 < k.rlen → k.rlen ≤ 256 →
      (s.groups.map Group.handle).Nodup → s.group? k.group = some g → g.ctx = k.ctx → g.cluster = c →
      (∀ h ∈ s.groups, h.kicks = [] ∧ ∀ e ∈ h.estate, e.kind ≠ 4) →
      let src := k.src.toNat
      src + k.rlen ≤ 0x400000 → k.dst + k.rlen ≤ 0x400000 → s.ownsSpad g src k.rlen = true → s.ownsSpad g k.dst k.rlen = true →
      (src + k.rlen ≤ k.dst ∨ k.dst + k.rlen ≤ src) → ∃ t, exec (.copyPiece c k.ch) s = .next t ∧ (t.cluster c).copies = [] ∧
        (∀ i, i < k.rlen → t.spadByte c (k.dst + i) = s.spadByte c (src + i)) ∧ OnlyBytes (.spad c k.dst) k.rlen s t ∧
        (t.group g.handle).cwp[k.ch] = g.cwp[k.ch] + word k.rlen) ∧
    (∀ l (a : Alloc) r, (s.cluster c).allocs = l ++ a :: r → a.clearing = true → (∀ x ∈ l, ¬ (x.base = a.base ∧ x.clearing = true)) →
      a ∉ l ++ r → a.base + a.size ≤ 0x400000 → ∃ t, exec (.allocationClear c a.base) s = .next t ∧ (t.cluster c).allocs = l ++ r ∧
        (∀ off, a.base ≤ off → off < a.base + a.size → t.spadByte c off = 0) ∧ OnlyBytes (.spad c a.base) a.size s t ∧
        t = { s with clusters := t.clusters, spad := t.spad, poison := t.poison })

/-- R230, R231, R235, R314, R315, R322: where an evaluation starts a group, it is one, with a handle of its own and its
teams at the kernel's entry; it starts one exactly where some stage's coalescing condition holds, that stage stands
below its share of slots and registers, and its demand fits the free quota and the scratchpad; of such stages it takes
that of the highest pressure, and of the lowest number on a tie, and places its allocation lowest. The oldest unbound
record of a stage having waited its timeout, the cluster evaluates. Handles are free values made unique (log 20), and
shares are rounded down (log 95). -/
def Obligations.StageScheduling : Prop :=
  ∀ (s : State) (c lh k : ℕ),
    let g := (s.launch lh).stage k
    let oldest := ((g.queue c).recs.filter fun r => !r.bound).head?
    ((∀ l ∈ s.launches, ∀ x ∈ l.stages, ∀ q ∈ x.queues, q.bereaved = []) → s.mtcfg.getLsbD 62 = false →
      (s.evaluate c).groups ≠ s.groups → (s.launches.map Launch.handle).Nodup → s.groups.length < 1000000 → (∀ x ∈ s.groups, x.tests = []) → ∃ t n, exec (.stageEvaluation c) s = .next t ∧ SameBytes s t ∧
        t.groups = s.groups ++ [n] ∧ (∀ x ∈ s.groups, x.handle ≠ n.handle) ∧ n.cluster = c ∧ n.ctx = (s.launch n.launch).ctx ∧ n.st = .alive ∧
        t.cur = s.cur ∧ ∃ new, t.others = s.others ++ new ∧ new.length = ((s.launch n.launch).stage n.stage).kernel.teams ∧
          ∀ u ∈ new, let kn := ((s.launch n.launch).stage n.stage).kernel
            u.group = n.handle ∧ u.cluster = c ∧ u.pc = word (kn.code + kn.entry) ∧ u.lwords = kn.lwords ∧ u.nregs = kn.nregs ∧ u.st = .ready ∧
            u.fvalid = 0 ∧ u.stack = [] ∧ u.tenure = .none ∧ u.s[2] = word n.spadBase) ∧
    (let st (p : ℕ × ℕ) : Stage := (s.launch p.1).stage p.2
      let unbound (x : Stage) : List QRec := (x.queue c).recs.filter fun r => !r.bound
      let occ (x : Stage) : ℕ := 256 * ((unbound x).length + (x.queue c).starts.length) / x.cap
      let pressure (p : ℕ × ℕ) : ℤ :=
        ((occ (st p) : ℤ) - (((st p).next.filterMap id).map fun j => occ (st (p.1, j))).foldr max 0) * (st p).wgt
      let holds (x : Stage) : Prop := (x.queue c).starts ≠ [] ∨ x.kc ≤ (unbound x).length ∨
        (x.tmo ≠ 0 ∧ ∃ r, (unbound x).head? = some r ∧ r.at_ + x.tmo ≤ s.ck)
      let size (p : ℕ × ℕ) : ℕ := (((st p).kernel.spadBytes + 1023) / 1024) * 1024
      let free (p : ℕ × ℕ) (b : ℕ) : Prop := b % 1024 = 0 ∧ b + size p ≤ 0x2FC000 ∧
        ∀ a ∈ (s.cluster c).allocs, b + size p ≤ a.base ∨ a.base + a.size ≤ b
      let regs (p : ℕ × ℕ) : ℕ := 256 * (st p).kernel.lwords * (st p).kernel.nregs
      let room (p : ℕ × ℕ) : Prop := let ctx := (s.launch p.1).ctx
        let f := s.nowFree c ctx
        Placed (regs p) (st p).kernel.teams f.slots0 f.slots1 f.regs0 f.regs1 ∧ (∃ b, free p b) ∧ s.overQuota c ctx = false ∧
        s.spadUsed c ctx + size p ≤ 1024 * bits (s.ctxQuota c ctx 0) 24 12
      let below (p : ℕ × ℕ) : Prop := let ctx := (s.launch p.1).ctx
        let weight (q : ℕ × ℕ) : ℕ := max (pressure q).toNat 1
        let share (amount : ℕ) (least : ℕ) : ℕ :=
          let part := amount * weight p / ((s.liveStages c ctx).map weight).sum
          if holds (st p) then max part least else part
        let cores (w : ℕ) (lo n : ℕ) : ℕ := bits (s.ctxQuota c ctx w) lo n
        p ∈ s.liveStages c ctx → (s.stageUse c p.1 p.2).1 < share (cores 1 32 6 + cores 2 32 6) (st p).kernel.teams ∧
          (s.stageUse c p.1 p.2).2 < share (1024 * cores 1 16 16 + 1024 * cores 2 16 16) ((st p).kernel.teams * regs p)
      let may (p : ℕ × ℕ) : Prop := (∃ l ∈ s.launches, l.handle = p.1 ∧ p.2 < l.stages.length ∧ c ∈ l.clusters ∧ l.ending = false) ∧
        holds (st p) ∧ below p ∧ room p
      (∀ l ∈ s.launches, l.stages.length ≤ 65536 ∧ ∀ x ∈ l.stages, 1 ≤ x.cap ∧ ∀ q ∈ x.queues, q.bereaved = []) →
      s.mtcfg.getLsbD 62 = false → (s.launches.map Launch.handle).Nodup → s.groups.length < 1000000 → (∀ x ∈ s.groups, x.tests = []) →
      ((∃ p, may p) → ∃ t n, exec (.stageEvaluation c) s = .next t ∧ t.groups = s.groups ++ [n] ∧
        let p := (n.launch, n.stage)
        may p ∧ (∀ q, may q → pressure q < pressure p ∨ (pressure q = pressure p ∧ p.2 ≤ q.2)) ∧
        free p n.spadBase ∧ ∀ b, free p b → n.spadBase ≤ b) ∧
      ((∀ p, ¬ may p) → ∃ t, exec (.stageEvaluation c) s = .next t ∧ t.groups = s.groups)) ∧
    (∀ r, g.tmo ≠ 0 → oldest = some r → r.at_ + g.tmo ≤ s.ck → exec (.coalesceTimeout lh k c) s = exec (.stageEvaluation c) s) ∧
    ((g.tmo = 0 ∨ ∀ r, oldest = some r → s.ck < r.at_ + g.tmo) → exec (.coalesceTimeout lh k c) s = .next s)

/-- R171, R286 to R289, R310, R326: conveyance of a lock that the dead group still holds: without an heir the lock is free
and orphaned, with a living group as heir it is that group's, with an estate entry; the last entry gone, the group
ends; a waiting record enters its context's queue. R171, R286, R288 to R292: conveyance of a lock to a stage whose
test passed, to the supervisor queue and to an heir that is gone; of a promise, which is fulfilled where it has no
heir and keeps its waiters where it has one, and is passed over where it is fulfilled; and of held objects, which stay
with a living heir and are released without one. -/
def Obligations.ConveyanceAndRecords : Prop :=
  (∀ (s : State), Still s → (s.groups.map Group.handle).Nodup →
    (∀ (g : Group) (reason : ℕ) (e : Holding) (pl : Place), g ∈ s.groups → g.st = .conveying reason false → g.estate = [e] → e.kind = 0 →
      g.handle < 2 ^ 32 → s.conveyHeld g.handle = false → s.ctxPlace g.ctx e.obj.toNat 2 = .ok pl →
      (∀ home, pl.kind ≠ .replicated home) → let w := word (s.readAt pl.tgt 8)
      bits w 24 32 = g.handle → let gives (t : State) (w' : Word) : Prop := exec (.conveyanceWrite g.handle) s = .next t ∧
        (t.group g.handle).estate = [] ∧ t.readAt pl.tgt 8 = w'.toNat ∧ OnlyBytes pl.tgt 8 s t ∧ bits w' 0 24 = bits w 0 24 ∧ bits w' 56 6 = 0
      (bits e.heir 62 2 = 3 → ∃ t w', gives t w' ∧ bits w' 24 32 = 0 ∧ bits w' 62 2 = 1 ∧ t.supRecs = s.supRecs) ∧
      (∀ h, bits e.heir 62 2 = 0 → s.group? (bits e.heir 0 32) = some h → h.ctx = g.ctx → h.handle ≠ g.handle →
        h.st = .alive → s.ctxState g.ctx < 2 → s.estateRoom h.handle = true → ∃ t w' x, gives t w' ∧ bits w' 24 32 = h.handle ∧ bits w' 62 2 = 2 ∧
          (t.group h.handle).estate = h.estate ++ [x] ∧ x.kind = 0 ∧ x.obj = e.obj ∧ x.conveyed = true)) ∧
    (∀ (g : Group) (reason : ℕ) (dead : Bool), g ∈ s.groups → g.st = .conveying reason dead → g.estate = [] → g.tests = [] → g.kicks = [] →
      s.conveyHeld g.handle = false → ∃ t, exec (.conveyanceComplete g.handle) s = .next t ∧
        t.groups = s.groups.filter (fun x => x.handle != g.handle) ∧ SameBytes s t) ∧
    (∀ (r : SupRec) (x : List Word), s.supRecs = [r] → r.launch = none → r.slots = [x] → r.tid = none → x.length = 4 → s.ctxbase ≠ 0 →
      let cap := bits (s.descWord r.ctx 3) 0 32
      let written := (s.descWord r.ctx 4).toNat
      let read := (s.descWord r.ctx 5).toNat
      (written + 2 ^ 64 - read) % 2 ^ 64 < cap →
      let slot := bits (s.descWord r.ctx 2) 0 48 + 32 * (written % cap)
      let count := s.ctxbase.toNat + 64 * r.ctx + 32
      let clear (a k : ℕ) : Prop := a + k ≤ s.fotbase.toNat ∨ s.fotbase.toNat + 4 * (s.part.hbmBytes / 65536 + 1) ≤ a
      s.frameOk 0 count = true → clear count 8 → ∀ pa, clear pa 32 → slot % 8 = 0 →
      let put (i : ℕ) : State := (List.range i).foldl (fun u j => u.store (.hbm (pa + 8 * j)) 8 (x.getD j 0).toNat) s
      let lies (u : State) (i : ℕ) : Prop := ∃ pl, u.ctxPlace r.ctx (slot + 8 * i) 1 = .ok pl ∧ pl.tgt = .hbm (pa + 8 * i) ∧
        ∀ home, pl.kind ≠ .replicated home
      (∀ i, i < 4 → lies s i ∧ lies (put i) i) → (pa + 32 ≤ count ∨ count + 8 ≤ pa) → ∃ t, exec (.supervisorRecordWrite 0) s = .next t ∧ t.supRecs = [] ∧
        (t.descWord r.ctx 4).toNat = (written + 1) % 2 ^ 64 ∧ (∀ i, i < 4 → t.hbmRead (pa + 8 * i) 8 = (x.getD i 0).toNat) ∧
        ∀ a, ¬ (pa ≤ a ∧ a < pa + 32) → ¬ (count ≤ a ∧ a < count + 8) → t.hbmByte a = s.hbmByte a)) ∧
  (∀ (s : State) (g : Group) (reason : ℕ) (e : Holding), Still s → (s.groups.map Group.handle).Nodup → g ∈ s.groups →
    g.st = .conveying reason false → g.estate = [e] → g.handle < 2 ^ 32 → s.conveyHeld g.handle = false → s.ctxState g.ctx < 2 → reason < 32 →
    let kind := bits e.heir 62 2
    let done (t : State) : Prop := exec (.conveyanceWrite g.handle) s = .next t ∧ (t.group g.handle).estate = []
    let heir (h : Group) : Prop := kind = 0 ∧ h.handle ≠ 0 ∧ s.group? (bits e.heir 0 32) = some h ∧ h.ctx = g.ctx ∧ h.cluster = g.cluster ∧
      h.handle ≠ g.handle ∧ h.st = .alive ∧ s.estateRoom h.handle = true
    let gains (h : Group) (t : State) : Prop := ∃ x, (t.group h.handle).estate = h.estate ++ [x] ∧ x.kind = e.kind ∧ x.obj = e.obj ∧
      x.aux = e.aux ∧ x.scope = e.scope ∧ x.owner = e.owner ∧ bits x.heir 62 2 = 2 ∧ x.order = h.orderCtr
    let record (type why : ℕ) (q : Option (ℕ × ℕ)) (t : State) : Prop := ∃ r w0, t.supRecs = s.supRecs ++ [r] ∧ r.launch = q ∧ r.ctx = g.ctx ∧
      r.slots = [[w0, e.heir, e.obj, e.aux]] ∧ bits w0 32 32 = g.handle ∧ bits w0 30 2 = type ∧ bits w0 28 2 = why ∧ bits w0 23 5 = reason ∧
      bits w0 16 4 = e.kind % 16
    (∀ pl, s.ctxPlace g.ctx e.obj.toNat 2 = .ok pl → (∀ home, pl.kind ≠ .replicated home) →
      let w := word (s.readAt pl.tgt 8)
      let writes (t : State) (w' : Word) : Prop := done t ∧ t.readAt pl.tgt 8 = w'.toNat ∧ OnlyBytes pl.tgt 8 s t
      (e.kind = 0 → bits w 24 32 = g.handle →
        let gives (t : State) (holder : ℕ) (top : ℕ) : Prop := ∃ w', writes t w' ∧ bits w' 0 24 = bits w 0 24 ∧ bits w' 24 32 = holder ∧
          bits w' 56 6 = 0 ∧ bits w' 62 2 = top
        (∀ x : StageTest, kind = 1 → g.tests = [x] → x.stage = bits e.heir 0 4 →
          (x.passed = true → x.handle < 2 ^ 32 → ∃ t, gives t x.handle 2 ∧ t.supRecs = s.supRecs ∧
            (t.group g.handle).tests = [{ x with holdings := x.holdings ++ [e] }]) ∧
          (x.passed = false → x.why < 4 → ∃ t, gives t 0 1 ∧ record 2 x.why none t)) ∧
        (kind = 2 → (s.launch g.launch).supn ≠ 0 → ∃ t, gives t 0xFFFFFFFF 2 ∧
          record 1 0 (some ((s.launch g.launch).supq, (s.launch g.launch).supn)) t) ∧
        (kind = 2 → (s.launch g.launch).supn = 0 → ∃ t, gives t 0 1 ∧ record 2 0 none t) ∧
        (kind = 0 → s.group? (bits e.heir 0 32) = none → ∃ t, gives t 0 1 ∧ record 2 0 none t)) ∧
      (e.kind = 1 →
        let carries (w' : Word) : Prop := bits w' 56 5 = reason ∧ bits w' 0 56 = bits e.aux 0 56
        (w.getLsbD 63 = true → ∃ t, done t ∧ SameBytes s t ∧ t.supRecs = s.supRecs) ∧
        (w.getLsbD 63 = false → kind = 3 → ∃ t w', writes t w' ∧ carries w' ∧ w'.getLsbD 63 = true ∧ w'.getLsbD 61 = true ∧
          t.supRecs = s.supRecs) ∧
        (w.getLsbD 63 = false → ∀ h, heir h → ∃ t w', writes t w' ∧ carries w' ∧ w'.getLsbD 63 = false ∧ w'.getLsbD 62 = true ∧ gains h t) ∧
        (w.getLsbD 63 = false → kind = 2 → (s.launch g.launch).supn ≠ 0 → ∃ t w', writes t w' ∧ carries w' ∧ w'.getLsbD 63 = false ∧
          w'.getLsbD 62 = true ∧ record 1 0 (some ((s.launch g.launch).supq, (s.launch g.launch).supn)) t))) ∧
    (2 ≤ e.kind → e.kind ≤ 7 → g.cluster < s.clusters.length →
      let n := e.obj.toNat
      let cl (u : State) : Cluster := u.cluster g.cluster
      let task (k : Task) : Bool := k.tid == e.owner && bits (k.words.getD 0 0) 2 2 == n
      let copy (k : Copy) : Bool := k.group == e.owner && k.ch.val == n
      let bank (u : State) : Bank := if n % 2 = 0 then ((cl u).engine (n / 2)).bank0 else ((cl u).engine (n / 2)).bank1
      (kind = 3 → ∃ t, done t ∧ SameBytes s t ∧ t.supRecs = s.supRecs ∧
        (e.kind = 2 → (cl t).allocs = (cl s).allocs) ∧
        (e.kind = 3 → (cl t).tasks = (cl s).tasks.filter fun k => !task k) ∧
        (e.kind = 4 → (cl t).copies = (cl s).copies.filter fun k => !copy k) ∧
        (e.kind = 5 → bank t = .zero) ∧
        (∀ i : Fin 64, e.kind = 6 → i.val = n → t.sett[i].released = true) ∧
        (e.kind = 7 → t.osObjects = s.osObjects ++ [(g.ctx, 7, n)])) ∧
      (∀ h, heir h → ∃ t, done t ∧ SameBytes s t ∧ gains h t ∧ t.supRecs = s.supRecs ∧ t.osObjects = s.osObjects ∧ t.sett = s.sett ∧
        (e.kind = 2 → (cl t).allocs = ⟨n, e.aux.toNat, h.handle, g.ctx, false⟩ :: (cl s).allocs) ∧
        (e.kind = 3 → (cl t).tasks = (cl s).tasks.map fun k => if task k then { k with kept := true } else k) ∧
        (e.kind = 4 → (cl t).copies = (cl s).copies.map fun k => if copy k then { k with kept := true } else k) ∧
        (e.kind = 5 → bank t = bank s))))

/-- R320, R326, R330 to R333, R336: pre-emption stops the ready teams of a context on the cores named; a drained team is
saved, a stopped one with its event queued; a kill takes a group's teams out, and a group that holds nothing ends; a
context that dies is marked dead and reported. What is pre-empted at a wait or a pending trap, and when a killed
group's slots are free, are the model's readings (logs 25 and 82). -/
def Obligations.StopsSavesKills : Prop :=
  ∀ (s : State), Still s → Named s →
    let saved (u : Team) (stop : ℕ) (t : State) : Prop := (t.team u.tid).st = .saved stop ∧ (t.team u.tid).pc = u.pc ∧
      (t.team u.tid).v = u.v ∧ (t.team u.tid).s = u.s ∧ (t.team u.tid).m = u.m ∧ ∀ k, k ≠ u.tid → t.team k = s.team k
    let room (u : Team) : Prop := let ctx := (s.group u.group).ctx
      u.escort = none ∧ s.recordBytesOf ctx ≠ 0 ∧ s.privateRange ctx (s.recordAddr ctx u.recordIndex) (s.recordBytesOf ctx) 1 = true ∧
      ∀ i, i < s.recordBytesOf ctx → ∃ pl, s.ctxPlace ctx (s.recordAddr ctx u.recordIndex + i) 1 = .ok pl
    (∀ ctx cores, let mine (u : Team) : Prop := (s.group u.group).ctx = ctx ∧ 2 * u.cluster + u.core ∈ cores
      (∀ u ∈ s.teams, mine u → u.st = .ready ∧ u.pending = []) → ∃ t, exec (.preempt ctx cores) s = .next t ∧ SameBytes s t ∧
        ∀ u ∈ s.teams, (mine u → t.team u.tid = { u with
            st := .preempting, saveWher := 0, granted := 0, tenure := match u.tenure with | .held n => .suspended n | x => x }) ∧ (¬ mine u → t.team u.tid = u)) ∧
    (∀ u ∈ s.teams, u.st = .preempting → room u → ∃ t, exec (.preemptSave u.tid) s = .next t ∧ saved u 0 t) ∧
    (∀ u ∈ s.teams, u.st = .stopping → room u → ∃ t r, exec (.teamStop u.tid) s = .next t ∧ saved u 1 t ∧
      t.supRecs = s.supRecs ++ [r] ∧ r.ctx = (s.group u.group).ctx ∧ ∃ w0, r.slots = [[w0, u.pc, u.tinfo, u.rpc]] ∧
        bits w0 24 6 = 1 ∧ bits w0 16 8 = u.tcause.toNat) ∧
    (∀ g reason, g ∈ s.groups → (s.groups.map Group.handle).Nodup → g.st = .alive → ∃ t, exec (.groupKill g.handle reason) s = .next t ∧
      (∀ u ∈ t.teams, u.group ≠ g.handle) ∧ ((∃ u ∈ s.teams, u.group = g.handle) → g.estate = [] → g.tests = [] → g.kicks = [] →
        t.groups = s.groups.filter fun x => x.handle != g.handle)) ∧
    (∀ ctx cause, let desc := s.ctxbase.toNat + 64 * ctx
      s.ctxbase ≠ 0 → (desc + 8 ≤ s.fotbase.toNat ∨ s.fotbase.toNat + 4 * (s.part.hbmBytes / 65536 + 1) ≤ desc) →
      (s.ctxState ctx = 1 ∨ s.ctxState ctx = 2) → (∀ l ∈ s.launches, l.ctx ≠ ctx) →
      (∀ k ∈ s.collectives, k.ctx ≠ ctx) → ∃ t r, exec (.contextDeath ctx cause) s = .next t ∧ t.ctxState ctx = 3 ∧
        t.supRecs = s.supRecs ++ [r] ∧ r.ctx = ctx ∧ ∃ w0, r.slots = [[w0, 0, 0, 0]] ∧ bits w0 24 6 = 7 ∧ bits w0 16 8 = cause % 256)

/-- R111, R327, R328: a command of a supervisor on a stopped team releases it at its PC, past the instruction, at its
region's start or at the address given, kills its group, or answers its service request, and reads back status 0; a
command for no such team does nothing but status 1, and an agent whose map does not hold the page takes its access
fault. The status of malformed commands, and the root core's name in the record of an access fault, are the model's
choices (logs 40 and 44). -/
def Obligations.SupervisorCommands : Prop :=
  ∀ (s : State) (who : Agent) (ctx : ℕ) (w0 w1 : Word) (u : Team), Still s → Named s → ctx < 65536 → s.ctxbase ≠ 0 →
    let op := bits w0 60 4
    let names (v : Team) : Prop := v.group = bits w0 0 32 ∧ v.index = bits w0 32 4 ∧ (s.group v.group).ctx = ctx
    let reaches : Prop := ∃ w, who = .gp w ∧ (w = 0 ∨ w = s.ctxWorld ctx)
    let cmd : ℕ → Instr := fun
      | 1 => .tcmdRetry who ctx w0 w1 | 2 => .tcmdSkip who ctx w0 w1 | 3 => .tcmdRegion who ctx w0 w1
      | 4 => .tcmdGoto who ctx w0 w1 | 5 => .tcmdKill who ctx w0 w1 | _ => .tcmdAnswer who ctx w0 w1
    let page := 0xFF0000000000 + 0x20000000 + 0x1000 * ctx
    let ok (t : State) : Prop := t.tcst = keySet s.tcst ctx 0
    let back (pc : Word) (m7 sr : Bool) (v : Team) : Prop := v = { u with
      pc := pc, fvalid := 0, tenure := .none, resume := true, m := if m7 then u.m.set 7 0 else u.m,
      arrivedAt := if pc = u.pc then u.arrivedAt else none, srCtr := if sr then u.srRgn else u.srCtr }
    1 ≤ op → op ≤ 6 →
    (¬ reaches → exec (cmd op) s = .next { s with gpFaults := s.gpFaults ++ [(match who with | .root => 65536 | .gp n => n, page)] }) ∧
    (reaches → bits w0 36 24 = 0 → (op ≤ 3 ∨ op = 5 → w1 = 0) → (op = 4 → w1.toNat % 4 = 0 ∧ bits w1 48 16 = 0) →
      ((∀ v ∈ s.teams, ¬ names v) → exec (cmd op) s = .next { s with tcst := keySet s.tcst ctx 1 }) ∧
      (u ∈ s.teams → names u → (∀ v ∈ s.teams, v ≠ u → ¬ names v) → u.st = .saved 1 → u.resume = false →
        (op ≤ 4 → ∃ t, exec (cmd op) s = .next t ∧ ok t ∧ (∀ k, k ≠ u.tid → t.team k = s.team k) ∧ SameBytes s t ∧
          back (if op = 1 then u.pc else if op = 2 then u.pc + word (s.instrBytes u) else if op = 3 then u.rpc else w1)
            (op != 1) (op == 3) (t.team u.tid)) ∧
        (op = 5 → (s.group u.group).st = .alive → ∃ t, exec (cmd op) s = .next t ∧ ok t ∧
          ∀ v ∈ t.teams, v.group ≠ u.group)) ∧
      (u ∈ s.teams → names u → (∀ v ∈ s.teams, v ≠ u → ¬ names v) → op = 6 → ∀ e code args, u.escort = some e →
        e.what = .sys code true args none → e.status = 0 → ∃ t, exec (cmd op) s = .next t ∧ ok t ∧
          (∀ k, k ≠ u.tid → t.team k = s.team k) ∧ Completed e (some 4) w1 u (t.team u.tid)))

/-- R316 to R320: the launch unit accepts a header that breaks no rule, and the parked team gets the new launch's handle;
the chain's next entry gets its header's result and becomes the last one processed; its pointers are written by world
0; a cancelled launch is ending and keeps bound records only; an idle launch writes its completion word and is gone.
That chain entries are read as world 0's with the answer for `ctxbase` 0, the root core's name in the record of an
access fault, and that a launch's result enters f4 although the latches are invalid are the model's choices (logs 41,
44 and 72). -/
def Obligations.Launches : Prop :=
  ∀ (s : State) (who : Agent) (w0 : Word) (l : Launch), Still s → (s.launches.map Launch.handle).Nodup → l ∈ s.launches →
    let gone (t : State) : Prop := t.launches = s.launches.filter fun x => x.handle != l.handle
    let fault (addr : ℕ) : State := { s with gpFaults := s.gpFaults ++ [(match who with | .root => 65536 | .gp n => n, addr)] }
    (∀ u ∈ s.teams, Named s → ∀ e hdr d h ds, u.escort = some e → e.what = .launch hdr d none → e.status = 0 → (e.place = .unit ∨ e.eo = true) →
      s.appendHeld u.tid = false → s.readLaunch (s.group u.group).ctx hdr = .ok (h, ds) → s.verdict (s.group u.group).ctx hdr h ds = 0 →
      ∃ t n, exec (.launchAccept u.tid) s = .next t ∧ Completed e d (word n.handle) u { t.team u.tid with fu := u.fu } ∧
        (t.team u.tid).fu = #v[word n.handle, u.fu[0], u.fu[1], u.fu[2]] ∧ t.launches = s.launches ++ [n] ∧
        n.ctx = (s.group u.group).ctx ∧ n.stages.length = ds.length ∧ n.clusters = h.clusters ∧ n.ending = false ∧
        (∀ x ∈ s.launches, x.handle ≠ n.handle) ∧ n.handle ≠ 0 ∧ n.handle < 2 ^ 32) ∧
    (who = .gp 0 → bits s.lcdone 0 48 = bits s.lctail 0 48 → exec (.lcstartWrite who w0) s = .next { s with lcstart := word (bits w0 0 48) }) ∧
    (who = .gp 0 → bits s.lcdone 0 48 ≠ bits s.lctail 0 48 → exec (.lcstartWrite who w0) s = .next s) ∧
    (who = .gp 0 → exec (.lctailWrite who w0) s = .next { s with lctail := word (bits w0 0 48), lcdone := word (bits s.lcdone 0 48) }) ∧
    (who ≠ .gp 0 → exec (.lcstartWrite who w0) s = .next (fault 0xFF0000000100) ∧ exec (.lctailWrite who w0) s = .next (fault 0xFF0000000108)) ∧
    (∀ e, e = bits s.lcstart 0 48 → bits s.lcdone 0 48 = 0 → s.lcdone.getLsbD 63 = false → e ≠ 0 → bits s.lctail 0 48 ≠ 0 → s.ctxbase ≠ 0 →
      (∀ a, a = bits s.lctail 0 48 ∨ a = e ∨ a = e + 8 ∨ a = e + 16 ∨ a = e + 24 → (s.chainWord a).isSome = true) →
      ∀ s' d, s.accept (bits (word (s.hbmRead (e + 16) 8)) 0 16) (bits (word (s.hbmRead (e + 8) 8)) 0 48) = .ok (s', d) →
      ∃ t, exec .chainEntryProcess s = .next t ∧ t.lcdone = word e ∧ t.readAt (.hbm (e + 24)) 8 = d.toNat ∧
        OnlyBytes (.hbm (e + 24)) 8 s' t ∧ t.launches = s'.launches) ∧
    ((∀ g ∈ s.groups, g.launch ≠ l.handle) → ∃ t x, exec (.launchCancel l.handle) s = .next t ∧ t.launch? l.handle = some x ∧
      x.ending = true ∧ x.cancelled = true ∧ x.stages.length = l.stages.length ∧
      (∀ g ∈ x.stages, ∀ q ∈ g.queues, q.starts = [] ∧ ∀ r ∈ q.recs, r.bound = true) ∧ ∀ k, k ≠ l.handle → t.launch? k = s.launch? k) ∧
    (s.launchIdle l = true → l.cwordHeld = false →
      (l.cword = 0 → ∃ t, exec (.launchComplete l.handle) s = .next t ∧ gone t ∧ SameBytes s t) ∧
      (l.cword ≠ 0 → ∀ pl, s.ctxPlace l.ctx l.cword 1 = .ok pl → (∀ home, pl.kind ≠ .replicated home) → l.kills < 2 ^ 24 → l.groups < 2 ^ 32 → ∃ t w, exec (.launchComplete l.handle) s = .next t ∧
        gone t ∧ t.readAt pl.tgt 8 = w.toNat ∧ OnlyBytes pl.tgt 8 s t ∧ w.getLsbD 63 = true ∧ w.getLsbD 62 = l.cancelled ∧
        bits w 32 24 = l.kills ∧ bits w 0 32 = l.groups))

/-! ## Control space, worlds and links -/

/-- R344, R355, R404, R417, R418, R424: what a write of `podcfg`, `ctxbase`, `mtcfg`, `trinv` and the host's doorbells
leaves, by the agent that may write it; any other agent takes its access fault and changes nothing; an invalidation
completes. R345, R346, R351, R366, R372, R388, R390, R418: the writes that act on tables: a Sett buffer is registered,
its collective aborted; a fault-buffer entry is replayed or consumed; a seal block takes a key; a store to control
space reaches the register of its address, or its core takes an access fault. How the fault buffer counts, what
registration leaves, the root core's access faults, staged words, `scrub` as it is written, and the refusal of a
sending key that was in use are the model's choices (logs 37, 38, 44, 57, 58 and 87). -/
def Obligations.ControlRegistersAndTables : Prop :=
  (∀ (s : State) (who : Agent) (w w1 w2 : Word),
    let fault (i : Instr) (addr : ℕ) : Prop :=
      exec i s = .next { s with gpFaults := s.gpFaults ++ [(match who with | .root => 65536 | .gp n => n, addr)] }
    let goes (i : Instr) (t : State) : Prop := exec i s = .next t
    (who = .root → ¬ (s.part = .zlx20 ∧ w.getLsbD 4 = true) → goes (.podcfgWrite who w) { s with podcfg := w &&& 0x9F }) ∧
    (who = .root → s.part = .zlx20 → w.getLsbD 4 = true → goes (.podcfgWrite who w) s) ∧
    (who ≠ .root → fault (.podcfgWrite who w) 0xFF0000000000) ∧
    (who = .gp 0 → s.ctxbase = 0 → goes (.ctxbaseWrite who w) { s with ctxbase := w &&& 0xFFFFFFFFFFC0 }) ∧
    (who = .gp 0 → s.ctxbase ≠ 0 → goes (.ctxbaseWrite who w) s) ∧
    (who = .gp 0 → ∃ v, goes (.mtcfgWrite who w) { s with mtcfg := v } ∧ v &&& 0xC000FFFFFFFFFFFF = w &&& 0xC000FFFFFFFFFFFF ∧
      bits v 53 9 = 0 ∧ bits v 48 5 = if 4 ≤ bits w 48 5 ∧ bits w 48 5 ≤ 16 then bits w 48 5 else bits s.mtcfg 48 5) ∧
    (who = .gp 0 → goes (.trinvWrite who w w1 w2)
      { s with trinv := some (bits w 0 16, w.getLsbD 63, w1.toNat, w2.toNat), trinvDone := false }) ∧
    (who ≠ .gp 0 → fault (.ctxbaseWrite who w) 0xFF0000000200 ∧ fault (.mtcfgWrite who w) 0xFF0000001008 ∧
      fault (.trinvWrite who w w1 w2) 0xFF0000000300) ∧
    (Still s → ∀ x, s.trinv = some x → 
      let dropped (e : Tlb) : Prop := e.ctx = x.1 ∧ (x.2.1 = true ∨ (e.va < x.2.2.1 + x.2.2.2 ∧ x.2.2.1 < e.va + e.size))
      ∃ t, exec .trinvComplete s = .next t ∧ t = { s with trinv := none, trinvDone := true, clusters := t.clusters, walked := t.walked } ∧
        (∀ e ∈ t.walked, e ∈ s.walked ∧ ¬ dropped e) ∧ ∀ c, ∀ e ∈ (t.cluster c).tlb, e ∈ (s.cluster c).tlb ∧ ¬ dropped e) ∧
    goes (.hdbinWrite w) { s with hdbin := w } ∧ goes (.hdboutWrite w) { s with hdbout := w, msix := s.msix ||| 1 }) ∧
  (∀ (s : State) (who : Agent) (w w1 w2 w3 : Word), Still s →
    let world0 : Agent := .gp 0
    let goes (i : Instr) (t : State) : Prop := exec i s = .next t
    (∀ b : Fin 64, w.getLsbD 62 = false →
      let refused : Prop := s.part = .zlx20 ∨ ¬ (bits w 56 4 = 1 ∨ bits w 56 4 = 3 ∨ bits w 56 4 = 11) ∨
        w2.getLsbD (48 + s.podDev) = false ∨ s.framesOf (bits w3 32 16) (bits w 15 33 * 32768) (4096 * bits w1 0 20) = false ∨
        s.mapsUnspread (bits w3 48 16) (bits w 15 33 * 32768) (4096 * bits w1 0 20) = true ∨ ∃ k ∈ s.collectives, k.buf = b.val
      (refused → goes (.settTableWrite world0 b.val w w1 w2 w3) s) ∧
      (¬ refused → goes (.settTableWrite world0 b.val w w1 w2 w3) { s with sett := s.sett.set b.val ⟨w &&& 0x8F00FFFFFFFF8000, w1 &&& 0xFFFFF, w2, w3 &&& 0xFFFFFFFF00000000, 0, false, 0, 0, false⟩ })) ∧
    (∀ b : Fin 64, (∀ k ∈ s.collectives, k.dies.length = 8) → (s.collectives.map Collective.buf).Nodup →
      let stopped (x : SettDie) : SettDie := if x.arrived = true then x else { x with stopAt := some (x.stopAt.getD s.ck) }
      ∃ t, exec (.settAbort world0 b.val) s = .next t ∧
        t = { s with collectives := t.collectives, settLinks := t.settLinks, settOut := t.settOut } ∧
        t.collectives = s.collectives.map fun k => if k.buf = b.val then { k with dies := k.dies.map stopped } else k) ∧
    (∀ d e lh, d < s.part.dies → d < s.dies.length → (s.die d).faults = [e] → e.idx % 2048 = w.toNat → e.ref = .launchWord lh →
      ∃ t, exec (.frplyWrite world0 d w) s = .next t ∧ (∀ x ∈ (t.die d).faults, x = { e with ref := .dropped }) ∧
        t.launches = s.launches.map (fun l => if l.handle = lh then { l with cwordHeld := false } else l)) ∧
    (∀ d, d < s.part.dies → d < s.dies.length → (s.die d).waits = [] → w.toNat < 2048 →
      let head := (s.die d).fbhead + (w.toNat + 2048 - (s.die d).fbhead % 2048) % 2048
      (head ≤ (s.die d).fbtail → ∃ t, exec (.fbheadWrite world0 d w) s = .next t ∧ (t.die d).fbhead = head ∧
        (t.die d).fbtail = (s.die d).fbtail ∧ (∀ x ∈ (t.die d).faults, x ∈ (s.die d).faults) ∧
        (∀ x ∈ (s.die d).faults, x.ref ≠ .dropped ∨ head ≤ x.idx → x ∈ (t.die d).faults) ∧ t = { s with dies := t.dies }) ∧
      ((s.die d).fbtail < head → goes (.fbheadWrite world0 d w) s)) ∧
    (∀ (j : Fin 86) (key : ℕ),
      let sends : Prop := j.val < 39 ∨ (54 ≤ j.val ∧ j.val < 70)
      let receives : Prop := j.val < 24 ∨ (39 ≤ j.val ∧ j.val < 54) ∨ 70 ≤ j.val
      let b := s.seals[j]
      let fresh : Prop := b.curS ≠ some key ∧ key ∉ b.spent
      let rolled : Seal := { b with kph := !b.kph, ctr := 0, pend := false, curS := some key, penS := none, st := 1, stallAt := none, spent := b.curS.toList ++ b.spent }
      let sets (which : ℕ) (x : Seal) : Prop := ∃ t, exec (.sealKeyWrite .root j.val which key) s = .next t ∧
        t = { s with seals := s.seals.set j.val x, remotes := t.remotes } ∧ (b.st ≠ 2 → t.remotes = s.remotes)
      (linkPresent s.part j.val = false → ∀ which, which < 4 → sets which b) ∧
      (linkPresent s.part j.val = true →
        (sends → fresh → sets 0 { b with curS := some key, ctr := 0, st := 1, stallAt := none, spent := b.curS.toList ++ b.spent }) ∧
        (sends → fresh → b.st ≠ 2 → sets 1 { b with penS := some key, pend := true }) ∧
        (sends → fresh → b.st = 2 → sets 1 rolled) ∧ (sends → ¬ fresh → sets 0 b ∧ sets 1 b) ∧
        (receives → ∃ ctr past, sets 2 { b with curR := some key, rxCtr := ctr, past := past, st := if b.st = 0 ∧ ¬ sends then 1 else b.st } ∧
          (b.curR = some key → ctr = b.rxCtr) ∧ (b.curR ≠ some key → (∀ p ∈ b.past, p.1 ≠ key) → ctr = none) ∧
          (∀ k v, b.curR = some k → b.rxCtr = some v → (k, v) ∈ past)) ∧
        (receives → sets 3 { b with penR := some key, pend := if j.val < 24 then b.pend else true }) ∧
        (¬ sends → sets 0 b ∧ sets 1 b) ∧ (¬ receives → sets 2 b ∧ sets 3 b))) ∧
    (∀ addr size, (ctrlReg s.part addr = none ∨ size ≠ 8) →
      goes (.registerWrite who addr size w) { s with gpFaults := s.gpFaults ++ [(match who with | .root => 65536 | .gp n => n, addr)] }) ∧
    (∀ n : Fin 4, goes (.registerWrite world0 (0xFF0000001200 + 8 * n.val) 8 w) { s with hwin := s.hwin.set n.val (w &&& 0xC000FFFFFFFF0000) }) ∧
    goes (.registerWrite world0 0xFF0000001000 8 w) { s with scrub := w &&& 0x8000FFFFFFFF0000 } ∧
    goes (.registerWrite .root 0xFF0000000208 8 w) { s with fotbase := w } ∧
    goes (.registerWrite world0 0xFF0000000110 8 w) s)

/-- R240, R242, R321, R338, R340: world 0 writes a quota row, its reserved bits reading zero, unless a field's sum over
the enabled rows would pass the cluster's capacity or an engine would be promised twice; an engine that a context
loses is saved as an image and bare, and one that a context receives is bare the first time and then as its image,
checked, gives; a partition register, unless its weight or an overlap refuses it, the tags of its old and new slots
then invalid. A refused write changes nothing. -/
def Obligations.QuotaRowsAndPartitions : Prop :=
  ∀ (s : State) (c : ℕ) (n : Fin 16) (w0 w1 w2 : Word), c < s.part.clusters → c < s.clusters.length →
    let k := s.cluster c
    let row (i : Fin 16) : Word × Word × Word :=
      if i = n then (w0 &&& 0xFFFFFC0FFFFF8000, w1 &&& 0x3FFFFFFFFF, w2 &&& 0x3FFFFFFFFF) else k.quota[i]
    let sum (f : Word × Word × Word → ℕ) : ℕ := ((List.finRange 16).map fun i => if (row i).1.getLsbD 47 then f (row i) else 0).sum
    let fits : Prop := sum (fun q => bits q.1 24 12) ≤ 3056 ∧ sum (fun q => bits q.1 15 9) ≤ 256 ∧
      sum (fun q => bits q.2.1 32 6) ≤ 32 ∧ sum (fun q => bits q.2.2 32 6) ≤ 32 ∧ sum (fun q => bits q.2.1 16 16) ≤ 384 ∧
      sum (fun q => bits q.2.2 16 16) ≤ 384 ∧ sum (fun q => bits q.2.1 0 16) ≤ 256 ∧ sum (fun q => bits q.2.2 0 16) ≤ 256 ∧
      ∀ e, e < 3 → sum (fun q => bits q.1 (44 + e) 1) ≤ 1
    let owner (e : ℕ) : Option ℕ := ((List.finRange 16).find? fun i => (row i).1.getLsbD 47 && (row i).1.getLsbD (44 + e)).map
      fun i => bits (row i).1 48 16
    let first (p : Word × Word) : ℕ := bits p.1 47 12
    let count (p : Word × Word) : ℕ := bits p.1 34 13
    let new : Word × Word := (w0, w1 &&& 0xFFFF)
    let refused : Prop := w0.getLsbD 63 = true ∧ (8 < bits w0 59 4 ∨ ∃ i : Fin 16, i ≠ n ∧ k.tgmap[i].1.getLsbD 63 = true ∧
      first new < first k.tgmap[i] + count k.tgmap[i] ∧ first k.tgmap[i] < first new + count new)
    let within (p : Word × Word) (slot : ℕ) : Prop := first p ≤ slot ∧ slot < first p + count p
    (¬ fits → exec (.quotaRowWrite (.gp 0) c n.val w0 w1 w2) s = .next s) ∧
    (fits → (∀ e, e < 3 → owner e = (k.engine e).ctx) → exec (.quotaRowWrite (.gp 0) c n.val w0 w1 w2) s =
      .next (s.modCluster c fun x => { x with quota := Vector.ofFn row })) ∧
    (Still s → fits → ∀ e, e < 3 → (∀ x, x < 3 → x ≠ e → owner x = (k.engine x).ctx) →
      let unit := 3 * c + e
      let at_ (a : ℕ) : ℕ := bits (s.descWord a 6) 0 48 + 0x41000 * unit
      let seq := keyGet k.saveSeq (64 + e)
      let runs (t : State) : Prop := exec (.quotaRowWrite (.gp 0) c n.val w0 w1 w2) s = .next t ∧ (t.cluster c).quota = Vector.ofFn row ∧
        ∀ x, x < 3 → x ≠ e → (t.cluster c).engine x = k.engine x
      let bare (x : Engine) : Prop := x.bank0 = .zero ∧ x.bank1 = .zero ∧ x.acc = [] ∧ x.acc192 = []
      (∀ a, (k.engine e).ctx = some a → owner e = none → s.ctxActive a = true → s.privateRange a (at_ a) 0x41000 1 = true →
        (∀ i, i < 0x41000 → ∃ pl, s.ctxPlace a (at_ a + i) 1 = .ok pl) → ∃ t, runs t ∧ ((t.cluster c).engine e).ctx = none ∧
          bare ((t.cluster c).engine e) ∧ t.supRecs = s.supRecs ∧
          t.engImgs = (s.engImgs.filter fun i => !(i.ctx == a && i.unit == unit)) ++ [⟨a, unit, seq + 1, k.engine e⟩]) ∧
      (∀ b, (k.engine e).ctx = none → owner e = some b →
        ((∀ x ∈ s.engImgs, ¬ (x.ctx = b ∧ x.unit = unit)) → ∃ t, runs t ∧ ((t.cluster c).engine e).ctx = some b ∧ bare ((t.cluster c).engine e)) ∧
        (∀ (x : EngineImg) l, s.engImgs = [x] → x.ctx = b → x.unit = unit → s.privateRange b (at_ b) 0x41000 0 = true →
          s.ctxBytes b (at_ b) 0x8200 = .ok (l, false) →
          let good : Prop := x.seq = seq ∧
            leNat (l.drop 0x40FF0) = (Config.gmac (s.saveKeyOf b) (saveIv b (0x8000 + unit) x.seq) (l.take 0x40FF0)).toNat
          (good → ∃ t, runs t ∧ t.engImgs = [] ∧ let y := (t.cluster c).engine e
            y.ctx = some b ∧ y.bank0 = x.engine.bank0 ∧ y.bank1 = x.engine.bank1 ∧ y.acc = x.engine.acc ∧ y.acc192 = x.engine.acc192) ∧
          (¬ good → ∃ t, runs t ∧ ((t.cluster c).engine e).ctx = none)))) ∧
    (refused → exec (.tgmapWrite (.gp 0) c n.val w0 w1) s = .next s) ∧
    (¬ refused → ∃ t, exec (.tgmapWrite (.gp 0) c n.val w0 w1) s = .next t ∧ t = { s with clusters := t.clusters } ∧
      (∀ d, d ≠ c → t.cluster d = s.cluster d) ∧ (t.cluster c).tgmap = k.tgmap.set n.val new ∧
      (t.cluster c).tags.length = k.tags.length ∧ ∀ (i : ℕ) (x : Tag), k.tags[i]? = some x → ∃ y, (t.cluster c).tags[i]? = some y ∧
        (within new x.slot ∨ within k.tgmap[n] x.slot → y = { x with valid := false, dirty := false }) ∧
        (¬ (within new x.slot ∨ within k.tgmap[n] x.slot) → y = x)) ∧
    ∀ w, w ≠ 0 → exec (.quotaRowWrite (.gp w) c n.val w0 w1 w2) s = .next { s with
      gpFaults := s.gpFaults ++ [(w, 0xFF0000000000 + 0x10000000 + 0x10000 * c + 0x1000 + 32 * n.val)] }

/-- R383 to R386: a change of ownership over one frame: world 0 assigns a free one, its world shares, unshares or reclaims
it, a world is destroyed, its contexts dying first; each puts the frame in transition and is in progress, or is
refused. No cache keeps what it held for the frame, and while an access translated into it is unperformed the change
does not go on; then it completes: the frame is wiped where it asks so, the new entry stands, and the command reads
complete. How a second command and DESTROY are judged are the model's readings (log 45). -/
def Obligations.FrameOwnership : Prop :=
  ∀ (s : State) (f : ℕ) (page : ℕ) (w0 w1 w2 : Word), MemOk s → page < 65536 → w1.toNat = f → w2 = 1 → f < s.frameCount → bits w0 16 44 = 0 →
    let op := bits w0 60 4
    let was := s.entryState f
    let world := s.entryWorld f
    let begins (i : Instr) (w st : ℕ) (wipe : Bool) : Prop := ∃ t, exec i s = .next t ∧ t.changes = s.changes ++ [⟨page, [f], [was], w, st, wipe⟩] ∧
      t.fotst = keySet s.fotst page 1 ∧ t.entryState f = 3 ∧ t.entryWorld f = world ∧
      ∀ pa, ¬ (s.fotbase.toNat + 4 * f ≤ pa ∧ pa < s.fotbase.toNat + 4 * f + 4) → t.hbmByte pa = s.hbmByte pa
    let refused (i : Instr) : Prop := exec i s = .next { s with fotst := keySet s.fotst page 3 }
    (op = 1 → let i := Instr.assign (.gp page) page w0 w1 w2
      (page = 0 ∧ was = 0 ∧ world ≠ 0xFFFF → begins i (bits w0 0 16) 1 true) ∧ (¬ (page = 0 ∧ was = 0 ∧ world ≠ 0xFFFF) → refused i)) ∧
    (op = 2 → let i := Instr.share (.gp page) page w0 w1 w2
      (was = 1 ∧ world = page → begins i page 2 false) ∧ (¬ (was = 1 ∧ world = page) → refused i)) ∧
    (op = 3 → let i := Instr.unshare (.gp page) page w0 w1 w2
      (was = 2 ∧ world = page → begins i page 1 false) ∧ (¬ (was = 2 ∧ world = page) → refused i)) ∧
    (op = 4 → let i := Instr.reclaim (.gp page) page w0 w1 w2
      ((was = 1 ∨ was = 2) ∧ world = page → begins i 0 0 true) ∧ (¬ ((was = 1 ∨ was = 2) ∧ world = page) → refused i)) ∧
    (op = 5 → s.ctxbase = 0 → let i := Instr.destroy (.gp page) page w0 w1 w2
      (page = 0 ∨ bits w0 0 16 = page → ∃ t fs, exec i s = .next t ∧ t.changes = s.changes ++ [⟨page, fs, fs.map s.entryState, 0, 0, true⟩] ∧
        t.fotst = keySet s.fotst page 1 ∧ ∀ x, x ∈ fs ↔ x < s.frameCount ∧ s.entryWorld x = bits w0 0 16 ∧ (s.entryState x = 1 ∨ s.entryState x = 2)) ∧
      (page ≠ 0 → bits w0 0 16 ≠ page → refused i)) ∧
    (op = 5 → Still s → s.ctxbase ≠ 0 → (page = 0 ∨ bits w0 0 16 = page) → ∀ m, m < 65536 →
      let desc := s.ctxbase.toNat + 64 * m
      let mine (x : ℕ) : Prop := s.entryWorld x = bits w0 0 16 ∧ (s.entryState x = 1 ∨ s.entryState x = 2)
      (∀ n, n < 65536 → (s.ctxWorld n = bits w0 0 16 ∧ (s.ctxState n = 1 ∨ s.ctxState n = 2) ↔ n = m)) →
      (desc + 8 ≤ s.fotbase.toNat ∨ s.fotbase.toNat + 4 * (s.frameCount + 1) ≤ desc) → desc % 8 = 0 → ¬ mine (desc / 65536) →
      (∀ l ∈ s.launches, l.ctx ≠ m) → (∀ k ∈ s.collectives, k.ctx ≠ m) →
      ∃ t fs r, exec (.destroy (.gp page) page w0 w1 w2) s = .next t ∧ t.ctxState m = 3 ∧
        t.changes = s.changes ++ [⟨page, fs, fs.map s.entryState, 0, 0, true⟩] ∧ (∀ x, x ∈ fs ↔ x < s.frameCount ∧ mine x) ∧
        t.fotst = keySet s.fotst page 1 ∧ t.supRecs = s.supRecs ++ [r] ∧ r.ctx = m ∧
        ∃ v, r.slots = [[v, 0, 0, 0]] ∧ bits v 24 6 = 7 ∧ bits v 16 8 = 0) ∧
    (∀ x : OwnerChange, s.changes = [x] → x.frames = [f] →
      let hit (a n : ℕ) : Prop := a < 65536 * f + 65536 ∧ 65536 * f < a + n
      let touches (pa n : ℕ) (k : PageKind) : Prop :=
        ((∀ home, k ≠ .replicated home) → hit pa n) ∧ (∀ home, k = .replicated home → ∃ d, d < s.part.dies ∧ hit (s.replicaAt d pa) n)
      let stale (e : Tlb) : Prop := touches (256 * bits e.pte 8 40) e.size (leafKind e.pte)
      (Still s → ∃ t, exec (.ownershipChangeComplete 0) s = .next t ∧ (∀ e ∈ t.walked, e ∈ s.walked ∧ ¬ stale e) ∧
        ∀ c, ∀ e ∈ (t.cluster c).tlb, e ∈ (s.cluster c).tlb ∧ ¬ stale e) ∧
      let u := (s.dropFrames [f]).1
      ((∃ y ∈ u.teams, ∃ a ∈ y.accs, ∃ e ∈ a.elems, e.performed = false ∧ ∃ pa, e.tgt = some (.hbm pa) ∧ touches pa e.size e.kind) →
        exec (.ownershipChangeComplete 0) s = .next u.settleAll)) ∧
    (Still s → ∀ x : OwnerChange, s.changes = [x] → x.frames = [f] → x.world < 65536 → x.state < 4 →
      let entry := s.fotbase.toNat + 4 * f
      (∀ i, i < 4 → (entry + i) / 65536 ≠ f) → ∃ t, exec (.ownershipChangeComplete 0) s = .next t ∧ t.changes = [] ∧
        t.fotst = keySet s.fotst x.page 2 ∧ t.entryState f = x.state ∧ t.entryWorld f = x.world ∧
        (∀ pa, ¬ (entry ≤ pa ∧ pa < entry + 4) → t.hbmByte pa = if x.wipe = true ∧ pa / 65536 = f then 0 else s.hbmByte pa) ∧
        ∀ c off, t.spadByte c off = s.spadByte c off)

/-- R357, R363, R365, R388 to R392. A block that has its link, a key and a link that is up seals the 256 bytes that are
next on its link, under the next value of its counter: the transfer unit of an on-package link, a waiting link-control
flit of a port, or the next flit of its replay buffer. At its threshold it rolls to the pending key, or warns the root
core and runs on; at its last value without a pending key it stalls. A unit that verifies under the key of its phase
with a new counter is accepted, the first of a new phase discards the old key, and any other is discarded with `afail`
and handled as a CRC mismatch: the last good number is named to its sender, once for what follows it. A flit in order
is accepted with its acknowledgement, and is for this device, or is dropped unless it is relayed; on a Sett port it
goes to the base die. An acknowledgement empties the replay buffer and starts a resend of what is left; what is resent
sixteen times running, or not acknowledged for 160,000 ck on a port that is not stalled, takes the link down; a Sett
link that goes down stops the collectives. A stall of 16,000,000 ck is a device machine check on the package, kills
the contexts whose elements wait at a pod port, and takes a Sett port down with the contexts of its collectives. The
ciphers and the layout of payloads are opaque, and a unit arrives by an event of its own (logs 35 and 46). -/
def Obligations.SealedLinks : Prop :=
  ∀ (s : State), Still s → s.podOut = [] → s.settOut = [] →
    let link (sett : Bool) (k : ℕ) : Link := if sett then nth .zero s.settLinks.toList k else nth .zero s.podLinks.toList k
    let relink (u : State) (sett : Bool) (k : ℕ) (l : Link) : State :=
      if sett then { u with settLinks := u.settLinks.set! k l } else { u with podLinks := u.podLinks.set! k l }
    let port (sett : Bool) (k : ℕ) : Prop := k < if sett then 16 else 15
    let living (c : ℕ) : Prop := let desc := s.ctxbase.toNat + 64 * c
      (s.ctxState c = 1 ∨ s.ctxState c = 2) ∧ (∀ l ∈ s.launches, l.ctx ≠ c) ∧
      (desc + 8 ≤ s.fotbase.toNat ∨ s.fotbase.toNat + 4 * (s.part.hbmBytes / 65536 + 1) ≤ desc)
    (∀ (j : Fin 86) (payload : ℕ), let b := s.seals[j]
      let rolls : Bool := b.pend && decide (b.thr ≤ b.ctr)
      let warns : Bool := !b.pend && b.ctr + 1 == b.thr
      let stalls : Bool := !b.pend && b.ctr + 1 == 0xFFFFFFFFFFFF
      -- `plain` is sent, after which `u` stands but for the block itself
      let sends (plain : ℕ) (u : State) : Prop := ∃ t, exec (.sealedUnitSend j.val payload) s = .next t ∧
        (rolls = false → t = { u with
          wire := s.wire ++ [(j.val, sealUnit (b.curS.getD 0) (s.identOf j.val) b.ctr b.kph plain)]
          seals := s.seals.set j.val { b with
            ctr := b.ctr + 1, warn := b.warn || warns, st := if stalls then 2 else 1, stallAt := if stalls then some s.ck else b.stallAt }
          rootAlarms := s.rootAlarms + (if warns then 1 else 0)
          remotes := if stalls then s.remotes.map fun r => if 24 ≤ j.val ∧ j.val < 39 ∧ u.byPort (j.val - 24) r then { r with stalled := true } else r
            else s.remotes }) ∧
        (∀ key, rolls = true → b.penS = some key → b.thr ≠ 1 → t = { u with
          wire := s.wire ++ [(j.val, sealUnit key (s.identOf j.val) 0 (!b.kph) plain)]
          seals := s.seals.set j.val { b with
            kph := !b.kph, ctr := 1, pend := false, curS := some key, penS := none, st := 1, stallAt := none, spent := b.curS.toList ++ b.spent } })
      (linkPresent s.part j.val = true → b.st = 1 → b.curS.isSome = true →
        (j.val < 24 → s.dirUp j.val = true → sends payload s) ∧
        (∀ sett k, port sett k → j.val = (if sett then 54 else 24) + k → (link sett k).up = true → (sett = false → s.podEn = true) →
          (∀ f, (∀ c ∈ s.controlOut, ¬ (c.1 = sett ∧ c.2.1 = k)) → (link sett k).replay[(link sett k).sent]? = some f →
            sends (f.number (link sett k).rxSeq) (relink s sett k { link sett k with
              sent := (link sett k).sent + 1, since := if (link sett k).sent = 0 then s.ck else (link sett k).since })) ∧
          (∀ n rest, s.controlOut = (sett, k, n) :: rest →
            sends (controlNumber s.podDev (s.portPeer sett k) n) { s with controlOut := rest }))) ∧
      (b.st ≠ 1 ∨ b.curS = none → exec (.sealedUnitSend j.val payload) s = .next s)) ∧
    (∀ (j : Fin 86) (cipher tag ctr high key : ℕ), let b := s.seals[j]
      let i := Instr.sealedUnitReceive j.val cipher tag ctr high
      let u := sealedUnitFrom cipher tag ctr high
      let same : Prop := u.phase = b.rxPh ∧ b.curR = some key ∧ u.verifies key (s.identOf j.val) = true ∧ ∀ c, b.rxCtr = some c → c < u.ctr
      let first : Prop := u.phase ≠ b.rxPh ∧ b.penR = some key ∧ u.verifies key (s.identOf j.val) = true ∧ ∀ c, b.lastUnder key = some c → c < u.ctr
      let sameBad : Prop := u.phase = b.rxPh ∧ ((∀ k, b.curR = some k → u.verifies k (s.identOf j.val) = false) ∨ ∃ c, b.rxCtr = some c ∧ u.ctr ≤ c)
      let newBad : Prop := u.phase ≠ b.rxPh ∧
        ∀ k, b.penR = some k → u.verifies k (s.identOf j.val) = false ∨ ∃ c, b.lastUnder k = some c ∧ u.ctr ≤ c
      let put (x : Seal) : State := { s with seals := s.seals.set j.val x }
      let taken (x : Seal) : Prop := (same ∧ x = { b with rxCtr := some u.ctr }) ∨ (first ∧ x = { b with
        rxCtr := some u.ctr, rxPh := u.phase, curR := some key, penR := none, past := b.notePast, pend := decide (j.val < 24) && b.pend })
      let lost : State := put { b with afail := true }
      linkPresent s.part j.val = true →
      (∀ h : j.val < 24, let l := s.pkgLinks[j.val]
        (∀ x, taken x → exec i s = .next { put x with pkgLinks := s.pkgLinks.set j.val { l with resends := 0 } }) ∧
        (sameBad ∨ newBad → exec i s = .next { lost with
          pkgLinks := s.pkgLinks.set j.val { l with resends := l.resends + 1, up := l.up && decide (l.resends + 1 < 16) } })) ∧
      (∀ sett k, port sett k → j.val = (if sett then 70 else 39) + k → let l := link sett k
        let c := (sett, k, l.rxSeq)
        (sameBad ∨ newBad → exec i s = .next { relink lost sett k { l with asked := true } with
          controlOut := if c ∈ s.controlOut then s.controlOut else s.controlOut ++ [c] }) ∧
        (∀ x, taken x → exec i s = .next ((put x).receiveFlit sett k (u.plain key (s.identOf j.val)))))) ∧
    (∀ (sett : Bool) (k : ℕ) (f : ℕ), port sett k → let l := link sett k
      let next := (l.rxSeq + 1) % 65536
      let u : State := relink s sett k { l with rxSeq := next, asked := false }
      let c := (sett, k, l.rxSeq)
      let asks : State := { relink s sett k { l with asked := true } with
        controlOut := if c ∈ s.controlOut then s.controlOut else s.controlOut ++ [c] }
      let gap : Prop := flitOk f = true ∧ flitField f 54 2 ≠ 3 ∧ flitField f 80 16 ≠ next
      (l.up = false → s.receiveFlit sett k f = s) ∧
      (l.up = true → l.replay = [] →
        (flitOk f = false ∨ (gap ∧ l.asked = false) → s.receiveFlit sett k f = asks) ∧
        (gap → l.asked = true → s.receiveFlit sett k f = s) ∧
        (flitOk f = true → flitField f 54 2 ≠ 3 → flitField f 80 16 = next →
          s.receiveFlit sett k f = match flitOf f with
            | none => u
            | some x => if sett then u.settDeliver (k / 2) (k % 2 == 1) x else u.podFlit x))) ∧
    (∀ (x : Flit) payload, x.body = .mailbox payload → x.dst = s.podDev → x.src < 16 → x.eseq = s.expected x.src → x.eseq < 65536 →
      s.early = [] → s.podFlit x = { s with
        mail := s.mail ++ [(x.src, payload)], eseqRx := s.eseqRx.set! x.src ((x.eseq + 1) % 65536) }) ∧
    (∀ (x : Flit), x.dst ≠ s.podDev → x.rly = false → s.podFlit x = s) ∧
    (∀ (sett : Bool) (p : ℕ), port sett p → let k := link sett p
      let ack (n : ℕ) (t : State) : Prop := exec (.linkControlReceive sett p n) s = .next t
      let stalled : Prop := (s.seal ((if sett then 54 else 24) + p)).st = 2
      let due : Prop := k.up = true ∧ 0 < k.sent ∧ ¬ stalled ∧ k.since + 160000 ≤ s.ck
      let down (t : State) : Prop := SameBytes s t ∧ (t.linkOf sett p).up = false ∧ (t.linkOf sett p).replay = [] ∧
        (sett = false → t.rootAlarms = s.rootAlarms + 1) ∧
        (sett = true → (s.collectives.map Collective.buf).Nodup → (∀ c ∈ s.collectives, c.dies.length = 8) →
          ∀ c ∈ t.collectives, ∀ x ∈ c.dies, x.arrived = true ∨ x.stopAt ≠ none)
      (∀ l x r, k.replay = l ++ x :: r → (∀ y ∈ l, y.seq ≠ x.seq) → let n := k.sent - (l.length + 1)
        (r = [] ∨ k.up = false ∨ n = 0 → ack x.seq (relink s sett p { k with replay := r, sent := n, resends := 0, since := s.ck })) ∧
        (r ≠ [] → k.up = true → 0 < n → ¬ stalled →
          ack x.seq (relink s sett p { k with replay := r, sent := 0, resends := 1, since := s.ck }))) ∧
      (∀ n, (∀ y ∈ k.replay, y.seq ≠ n) → k.up = true → 0 < k.sent → k.replay ≠ [] →
        (k.resends < 15 → ¬ stalled → ack n (relink s sett p { k with sent := 0, resends := k.resends + 1 })) ∧
        (15 ≤ k.resends → ∃ t, ack n t ∧ down t)) ∧
      (due → ∃ t, exec (.linkAckTimeout sett p) s = .next t ∧ down t) ∧
      (¬ due → exec (.linkAckTimeout sett p) s = .next s)) ∧
    (∀ (j : ℕ) t0, (s.seal j).st = 2 → (s.seal j).stallAt = some t0 →
      (s.ck < t0 + 16000000 → exec (.sealStallTimeout j) s = .next s) ∧
      (t0 + 16000000 ≤ s.ck → j < 86 → ∃ t, exec (.sealStallTimeout j) s = .next t ∧ (t.seal j).st = 2 ∧ (t.seal j).stallAt = none ∧
        (j < 24 → t.mcStop = true) ∧
        (24 ≤ j → j < 39 → (∀ r ∈ s.remotes, r.stalled = false) → t = { s with seals := t.seals }) ∧
        (∀ r, 24 ≤ j → j < 39 → s.remotes = [r] → r.stalled = true → s.byPort (j - 24) r = true → living r.ctx →
          (∀ k ∈ s.collectives, k.ctx ≠ r.ctx) → t.ctxState r.ctx = 3) ∧
        (54 ≤ j → j < 70 → (t.settLink (j - 54)).up = false ∧
          ∀ k, s.collectives = [k] → living k.ctx → t.ctxState k.ctx = 3)))

/-- R357, R358, R360, R362. A peer's element that is next in its source's order is performed within an enabled window that
admits the source, the world, the range and the access, in frames of that world, and answered on pod forward with the
value found, or with an acknowledgement where it returns none; any other is denied and not performed. A remote element
unanswered for 3,200,000 ck kills its context; one that has waited less is left alone. A mailbox flit is queued by its
source. That an element arrives by an event of its own is the model's choice (log 46). -/
def Obligations.PeersAndMail : Prop :=
  ∀ (s : State), Still s →
    (∀ src world eseq tag pa size op (arg aux : ℕ), src < 16 → eseq = s.expected src → eseq < 65536 → s.early = [] →
      let i := Instr.remoteElementArrive src world eseq tag pa size op (arg, aux)
      let writes : Prop := op ≠ .load
      let window (p : Word × Word) : Prop := p.1.getLsbD 63 = true ∧ bits p.1 16 32 * 65536 ≤ pa ∧ pa + size ≤ bits p.2 16 32 * 65536 ∧
        p.1.getLsbD src = true ∧ bits p.2 48 16 = world ∧ (writes → p.2.getLsbD 0 = true)
      let ok : Prop := (∃ p ∈ s.pwin.toList, window p) ∧ pa + size ≤ s.part.hbmBytes ∧ s.frameOk world pa = true ∧ s.frameWorld pa = world
      let old := s.hbmRead pa size
      let u : State := { s with eseqRx := s.eseqRx.set! src ((eseq + 1) % 65536) }
      let answer : FlitBody := if op = .store ∨ op = .flagAdd then .ack else .reply old
      (¬ ok → exec i s = .next (u.sendFlit src 1 tag .denial)) ∧
      (ok → ∃ w v, exec i s = .next (w.sendFlit src 1 tag answer) ∧ w = { u with hbm := w.hbm } ∧
        (match op with
          | .load => v = none
          | .store => v = some (arg % 2 ^ (8 * size))
          | .flagAdd => v = some ((old + arg) % 2 ^ (8 * size))
          | .cas w => v = if old = aux % 2 ^ awBits w then some (arg % 2 ^ awBits w) else none
          | .atom k => ∃ x, v = some x ∧ x = atomNew k old arg) ∧
        (v = none → SameBytes s w) ∧ ∀ x, v = some x → OnlyBytes (.hbm pa) size s w ∧ (x < 2 ^ (8 * size) → w.hbmRead pa size = x))) ∧
    (∀ r : Remote, r ∈ s.remotes → (s.remotes.map Remote.tag).Nodup →
      (r.timer < 3200000 → exec (.remoteTimeout r.tag) s = .next s) ∧
      (3200000 ≤ r.timer → let desc := s.ctxbase.toNat + 64 * r.ctx
        (desc + 8 ≤ s.fotbase.toNat ∨ s.fotbase.toNat + 4 * (s.part.hbmBytes / 65536 + 1) ≤ desc) →
        (s.ctxState r.ctx = 1 ∨ s.ctxState r.ctx = 2) → (∀ l ∈ s.launches, l.ctx ≠ r.ctx) → (∀ k ∈ s.collectives, k.ctx ≠ r.ctx) → ∃ t, exec (.remoteTimeout r.tag) s = .next t ∧
        t.remotes = s.remotes.filter (fun x => x.tag != r.tag) ∧ t.ctxState r.ctx = 3)) ∧
    (∀ src payload, exec (.mailboxFlit src payload) s = .next { s with mail := s.mail ++ [(src, payload)] })

/-- R368 to R373. A base die sends its parameters once along its ring, compares those that come, and may step when every
other participant's agree; a mismatch stops all dies. A step takes a partial chunk, once all of it has come, with the
contributors before this device, combines it with its own, element by element, and sends it on; one takes a complete
chunk as it is, of a gather or of the broadcast of a sum, and sends it on while a participant lacks it; the owner of a
chunk opens its ring. A failure detected stops all dies of the device, and a stop received stops its die; each sends a
stop both ways along its ring, once, with the participants, which one that has arrived passes on and one of another
collective leaves alone; 8,000,000 ck later the die writes the status records of its chunks and arrives bereaved, and
the last arrival ends the collective. What a barrier fault does to an ending, what one message of a link carries, and
what a stop names are the model's choices (logs 36, 78, 100 and 101). -/
def Obligations.CollectiveSteps : Prop :=
  ∀ (s : State) (k : Collective) (d : ℕ), Still s → s.settOut = [] → s.collectives = [k] → k.buf < 64 → d < 8 → k.dies.length = 8 →
    let e := s.settEntry k.buf
    let x := k.die d
    let n := e.members.length
    let dies (y : SettDie) : Collective := { k with dies := setNth k.dies d y }
    let mine : FlitBody := .params k.buf k.num e.fmt e.nchk e.pmask (if k.gather then 3 else match k.op with | .sum => 0 | .min => 1 | .max => 2)
    let parts (c : ℕ) (data : List Byte) (contrib : ℕ) (complete : Bool) : List FlitBody :=
      (List.range 32).map fun i => .chunk k.buf k.num c i ((data.drop (128 * i)).take 128) contrib complete
    -- what a working port of a die with room gains
    let gains (t : State) (h : ℕ) (onward : Bool) (dst : ℕ) (bodies : List FlitBody) : Prop := let p := settPort h onward
      (s.settLink p).up = true → (s.settLink p).replay.length + bodies.length ≤ 1024 → ∃ fs, (t.settLink p).replay = (s.settLink p).replay ++ fs ∧
        fs.map Flit.body = bodies ∧ ∀ f ∈ fs, f.src = s.podDev ∧ f.dst = dst
    let stops (t : State) (h : ℕ) : Prop := ∀ onward, gains t h onward (s.settPeer onward) [.stop k.buf k.num e.pmask]
    let only (t : State) : Prop := t = { s with
      collectives := t.collectives, settLinks := t.settLinks, settOut := t.settOut, settIn := t.settIn }
    let keeps (c : ℕ) (t : State) : Prop := ∀ pa, ¬ (e.base + 4096 * c ≤ pa ∧ pa < e.base + 4096 * c + 4096) → t.hbmByte pa = s.hbmByte pa
    let left : Prop := ∃ c, c < e.nchk ∧ c % 8 = d ∧ (s.chunkStatus k c).1 ≠ 2
    (x.arrived = false → ∃ t, exec (.settFailureDetect k.buf d) s = .next t ∧ only t ∧ t.collectives = [{ k with
      dies := k.dies.map fun y => if y.arrived = true then y else { y with stopAt := some (y.stopAt.getD s.ck) } }] ∧
      ∀ h, h < 8 → (k.die h).stopAt = none → stops t h) ∧
    (x.stopAt = none → ∃ t, exec (.settStopReceive k.buf d) s = .next t ∧ only t ∧ stops t d ∧
      t.collectives = if x.arrived = true then [k] else [dies { x with stopAt := some s.ck }]) ∧
    (x.stopAt ≠ none → exec (.settStopReceive k.buf d) s = .next s) ∧
    (∀ (f : Flit) onward who, f.body = .stop k.buf k.num who → f.src ≠ s.podDev →
      let t := s.settDeliver d onward f
      let shared : Prop := e.w0.getLsbD 63 = true ∧ e.pmask &&& who ≠ 0
      (shared → x.arrived = false → exec (.settStopReceive k.buf d) s = .next t) ∧
      (shared → x.arrived = true → only t ∧ t.collectives = [k] ∧ (s.settPeer onward ≠ f.src →
        (s.settLink (settPort d onward)).up = true → (s.settLink (settPort d onward)).replay.length < 1024 →
        (t.settLink (settPort d onward)).replay =
          (s.settLink (settPort d onward)).replay ++ [{ f with seq := (s.settLink (settPort d onward)).nextSeq }])) ∧
      (¬ shared → t.collectives = [k])) ∧
    (x.sent = false → x.agreed = false → x.stopAt = none → x.arrived = false → s.settIn = [] → 2 ≤ n → e.pmask / 2 ^ s.podDev % 2 = 1 →
      (∀ m, m ∈ e.members → m ≠ s.podDev → m ∉ x.heard) → ∃ t, exec (.settParameterExchange k.buf d k.num) s = .next t ∧ only t ∧
        t.collectives = [dies { x with sent := true }] ∧ gains t d true s.podDev [mine]) ∧
    (x.sent = true → x.agreed = false → x.stopAt = none → x.arrived = false → k.gather = false → 2 ≤ n → left →
      s.settIn ≠ [] → (∀ m ∈ s.settIn, m.1 = d ∧ m.2.2.body = mine) →
      (∀ p ∈ e.members, p ≠ s.podDev → p ∈ x.heard ∨ ∃ m ∈ s.settIn, m.2.2.src = p) → ∃ t h, exec (.settParameterExchange k.buf d k.num) s = .next t ∧
        only t ∧ t.settIn = [] ∧ t.collectives = [dies { x with agreed := true, heard := h }]) ∧
    (∀ f fm nc pm op, x.sent = true → x.stopAt = none → x.arrived = false → s.settIn = [(d, s.ck, f)] → f.body = .params k.buf k.num fm nc pm op →
      f.body ≠ mine → ∃ t, exec (.settParameterExchange k.buf d k.num) s = .next t ∧
        ∀ k' ∈ t.collectives, ∀ y ∈ k'.dies, y.stopAt ≠ none) ∧
    (∀ c t0 src (q : ℕ → ℕ) data contrib complete, c % 8 = d → c < e.nchk → x.agreed = true → x.arrived = false → x.stopAt = none →
      s.settRoom (settPort d true) = true → s.frameOk e.world (e.base + 4096 * c) = true → s.frameWorld (e.base + 4096 * c) = e.world →
      data.length = 4096 → s.settIn = (parts c data contrib complete).map (fun b => (d, t0, ⟨q b.part, 0, src, s.podDev, 0, false, 0, b⟩)) →
      (s.chunkStatus k c).1 ≠ 2 → (∃ c', c' ≠ c ∧ c' < e.nchk ∧ c' % 8 = d ∧ (s.chunkStatus k c').1 = 0) →
      let place := s.settPlace e c
      let next := nth 0 e.members ((c + place + 1) % n)
      let steps (t : State) (st who : ℕ) : Prop := exec (.settChunkStep k.buf c k.num src complete) s = .next t ∧ keeps c t ∧ t.settIn = [] ∧
        ∃ k', t.collectives = [k'] ∧ s.chunkStatus k' c = (st, who) ∧ k'.dies = k.dies
      let copied (t : State) : Prop := ∀ i, i < 4096 → t.hbmByte (e.base + 4096 * c + i) = data.getD i 0
      (complete = false → k.gather = false → place ≠ 0 → (s.chunkStatus k c).1 = 0 → contrib = e.before c place → e.fmt = 11 → k.op = .sum →
        ∃ t, steps t (if place + 1 = n then 2 else 1) (contrib ||| 2 ^ s.podDev) ∧
        (∀ i, i < 1024 → t.hbmRead (e.base + 4096 * c + 4 * i) 4 =
          (leNat ((data.drop (4 * i)).take 4) + s.hbmRead (e.base + 4096 * c + 4 * i) 4) % 2 ^ 32) ∧
        gains t d true next (parts c (t.chunkData e c) (contrib ||| 2 ^ s.podDev) (decide (place + 1 = n)))) ∧
      (complete = true → k.gather = true → place ≠ 0 → ∃ t, steps t 2 contrib ∧ copied t ∧
        (place + 1 < n → gains t d true next (parts c data contrib true))) ∧
      (complete = true → k.gather = false → place + 1 < n → ∃ t, steps t 2 e.pmask ∧ copied t ∧
        (place + 2 < n → gains t d true next (parts c data e.pmask true)))) ∧
    (∀ c, c % 8 = d → c < e.nchk → x.agreed = true → x.arrived = false → x.stopAt = none → s.settRoom (settPort d true) = true →
      s.frameOk e.world (e.base + 4096 * c) = true → s.frameWorld (e.base + 4096 * c) = e.world → s.settIn = [] →
      s.settPlace e c = 0 → 2 ≤ n → c ∉ k.opened → (∃ c', c' ≠ c ∧ c' < e.nchk ∧ c' % 8 = d ∧ (s.chunkStatus k c').1 = 0) →
      ∃ t, exec (.settChunkStep k.buf c k.num s.podDev k.gather) s = .next t ∧ only t ∧ t.collectives = [{ k with opened := c :: k.opened }] ∧
        gains t d true (nth 0 e.members ((c + 1) % n)) (parts c (s.chunkData e c) (2 ^ s.podDev) k.gather)) ∧
    (∀ c num src complete, num ≠ k.num → exec (.settParameterExchange k.buf d num) s = .next s ∧
      exec (.settChunkStep k.buf c num src complete) s = .next s) ∧
    (∀ t0 pl b, x.stopAt = some t0 → x.arrived = false → (s.ck < t0 + 8000000 → exec (.settFailureWindowEnd k.buf d) s = .next s) ∧
      (t0 + 8000000 ≤ s.ck → s.settIn = [] → pl.tgt = .hbm b → (∀ home, pl.kind ≠ .replicated home) →
        (b + 8 ≤ e.staddr ∨ e.staddr + 8 * e.nchk ≤ b) →
        -- neither the barrier's translation nor the ownership of the status area rests on the status area
        (∀ m, (∀ pa, ¬ (e.staddr ≤ pa ∧ pa < e.staddr + 8 * e.nchk) → cellGet m pa = s.hbmByte pa) → let u := { s with hbm := m }
          u.ctxPlace k.ctx k.barrier 2 = .ok pl ∧ ∀ c, c < e.nchk → u.frameOk e.world (e.staddr + 8 * c) = true) →
        ∃ t w', exec (.settFailureWindowEnd k.buf d) s = .next t ∧ Arrived (word (s.readAt pl.tgt 8)) (word (2 ^ 63 + 1)) w' ∧
          t.readAt pl.tgt 8 = w'.toNat ∧
          (∀ c, c < e.nchk → c % 8 = d → t.hbmRead (e.staddr + 8 * c) 8 = ((s.chunkStatus k c).1 * 2 ^ 62 + (s.chunkStatus k c).2) % 2 ^ 64) ∧
          (∀ pa, ¬ (b ≤ pa ∧ pa < b + 8) → (∀ c, c < e.nchk → c % 8 = d → ¬ (e.staddr + 8 * c ≤ pa ∧ pa < e.staddr + 8 * c + 8)) →
            t.hbmByte pa = s.hbmByte pa) ∧
          ((∃ j, j < 8 ∧ j ≠ d ∧ (k.die j).arrived = false) → t.collectives = [dies { x with arrived := true }]) ∧
          ((∀ j, j < 8 → j ≠ d → (k.die j).arrived = true) → t.collectives = [] ∧ (t.settEntry k.buf).state = 3 ∧
            (t.settEntry k.buf).partials = min 255 (k.chunks.filter fun y => y.2.1 == 1).length)))

/-! ## Reliability, boot and attestation -/

/-- R249, R397 to R401, R409, R422. A soft error that the code of its line corrects changes nothing; one that it does not
marks the line poisoned, and one in logic, a latch or an engine is met at the next use. While scrubbing is enabled,
the scrubber corrects or marks the line that it reads, with a record in the ring of the line's own die that names its
unit: the stack of an HBM line, by its page's placement, and otherwise the cluster. A record enters its die's ring, is
merged into an identical one of severity 0 that is not consumed, or finds the ring full; severity 3, a device machine
check and a breach of the envelope stop the device. The local counts of units have free skews (log 91); the die of the
envelope and the units of records are the model's choices (log 104). -/
def Obligations.ErrorsAndRecords : Prop :=
  ∀ (s : State), MemOk s → s.dies.length = s.part.dies →
    let slot (d n : ℕ) : ℕ := s.mcbase.toNat + 131072 * d + 32 * (n % 4096)
    let admits (d n : ℕ) : Prop := s.frameOk 0 (slot d n) = true ∧ s.frameOk 0 (slot d n + 31) = true
    let put (t : State) (d n : ℕ) (r : McRec) : Prop :=
      (∀ i, i < 4 → t.hbmRead (slot d n + 8 * i) 8 = ((r.words d).getD i 0).toNat) ∧
      ∀ pa, ¬ (slot d n ≤ pa ∧ pa < slot d n + 32) → t.hbmByte pa = s.hbmByte pa
    let full (d : ℕ) : Prop := 4096 ≤ (s.die d).mcw - (s.die d).mcr
    let consumed (d : ℕ) : Prop := ∀ p ∈ (s.die d).mcRecent, p.1 < (s.die d).mcr
    let free (d : ℕ) : Prop := d < s.part.dies ∧ ¬ full d ∧ admits d (s.die d).mcw
    let ring (t : State) (d : ℕ) (r : McRec) : Prop := (t.die d).mcw = (s.die d).mcw + 1 ∧ (t.die d).mcr = (s.die d).mcr ∧
      put t d (s.die d).mcw r ∧ ∀ e, e ≠ d → t.die e = s.die e
    let time (kind unit : ℕ) : ℕ := s.ck + Config.unitSkew kind unit
    let stops (t : State) : Prop := t.mcStop = true ∧ t.rootAlarms = s.rootAlarms + 1 ∧ t.msix.getLsbD 0 = true ∧
      (∀ l ∈ t.podLinks.toList, l.up = false) ∧ (∀ l ∈ t.settLinks.toList, l.up = false) ∧ (∀ l ∈ t.pkgLinks.toList, l.up = false) ∧
      t.cur = s.cur ∧ t.others = s.others
    -- die, kind, unit and address of what lies at a site
    let names : Site → Option (ℕ × ℕ × ℕ × ℕ) := fun
      | .line n | .replica _ n => let h := s.stackOf (64 * n)
        some (h / 2, 0, h, 64 * n)
      | .spad c n => some (c / 32, 1, c, 8 * n)
      | .vreg t _ _ | .slot t => some ((s.team t).cluster / 32, 2, (s.team t).cluster, 0)
      | .planting e _ _ => some (e / 3 / 32, 3, e / 3, 0)
      | .frame t | .frameLane t _ _ => some ((s.team t).cluster / 32, 5, (s.team t).cluster, 0)
      | .taskRec c _ | .staging c | .tag c _ => some (c / 32, 8, c, 0)
      | .faultEntry d _ => some (d, 8, 0, 0)
      | .estate h _ => some ((s.group h).cluster / 32, 8, (s.group h).cluster, 0)
      | _ => none
    let coded : Site → Prop := fun
      | .icache .. | .tcache .. | .parity .. | .datapath .. | .macro_ .. | .logic .. => False
      | _ => True
    let marked (site : Site) (t : State) : Prop := match site with
      | .planting e b n => let x := (t.cluster (e / 3)).engine (e % 3)
        e / 3 < s.clusters.length → if b = 0 then n ∈ x.bank0.poison else if b = 1 then n ∈ x.bank1.poison else n ∈ x.accPoison
      | .rootCore => t.mcStop = true
      | .macro_ e p => let x := (t.cluster (e / 3)).engine (e % 3)
        e / 3 < s.clusters.length → x.mismatch = true ∧ (p = true → x.lasting = true)
      | .logic e n => (e, n) ∈ t.faulty
      | x => t.poison.contains x = true
    (∀ site, coded site → exec (.singleFault site false) s = .next s) ∧
    (∀ site, ∃ t, exec (.singleFault site true) s = .next t ∧ marked site t) ∧
    (∀ site, ¬ coded site → ∃ t, exec (.singleFault site false) s = .next t ∧ marked site t) ∧
    (∀ site fixed, (s.scrub.getLsbD 63 = false ∨ ¬ coded site) → exec (.scrubLine site fixed) s = .next s) ∧
    (∀ site fixed, ∃ t, exec (.scrubLine site fixed) s = .next t) ∧
    (∀ site d kind unit addr, s.scrub.getLsbD 63 = true → names site = some (d, kind, unit, addr) → free d →
      (consumed d → ∃ t x, exec (.scrubLine site true) s = .next t ∧ ring t d ⟨addr, x, time kind unit, 0, kind, unit, 0, 0, 0⟩ ∧
        t.poison = s.poison ∧ t.mcStop = s.mcStop) ∧
      ∃ t x, exec (.scrubLine site false) s = .next t ∧ ring t d ⟨addr, x, time kind unit, 0, kind, unit, 1, 5, 0⟩ ∧ marked site t ∧
        t.mcStop = s.mcStop) ∧
    (∀ pa, s.ctxbase = 0 → s.stackOf pa = pa / 4096 % if s.part.dies = 4 then 8 else 4) ∧
    (∀ pa n (l : Word × ℕ), s.ctxbase ≠ 0 → n < 65536 → (∀ m, m < 65536 → (s.ctxState m ≠ 0 ↔ m = n)) → s.leaves walkLevels (s.ptRoot n) = [l] →
      l.1.getLsbD 51 = false → bits l.1 60 2 ≠ 3 →
      let mine : Prop := bits l.1 58 2 = 1 ∧ 256 * bits l.1 8 40 ≤ pa ∧ pa < 256 * bits l.1 8 40 + 2 ^ l.2
      (mine → s.stackOf pa = 2 * bits l.1 56 2 + pa / 4096 % 2) ∧
      (¬ mine → s.stackOf pa = pa / 4096 % if s.part.dies = 4 then 8 else 4)) ∧
    (∀ d addr det ctx kind unit sev how, let r (n : ℕ) : McRec := ⟨addr, det, time kind unit, ctx, kind, unit, n, how, 0⟩
      let i := Instr.machineCheckRecord d addr det ctx kind unit sev how
      (s.part.dies ≤ d → exec i s = .next s) ∧
      (free d → sev < 3 → (sev = 0 → consumed d) → ∃ t, exec i s = .next t ∧ ring t d (r sev) ∧ t.mcStop = s.mcStop) ∧
      (free d → sev = 3 → ∃ t, exec i s = .next t ∧ ring t d (r 3) ∧ stops t) ∧
      (d < s.part.dies → full d → consumed d → sev < 3 → ∃ t, exec i s = .next t ∧ SameBytes s t ∧ t = { s with dies := t.dies } ∧
        (t.die d).mcw = (s.die d).mcw ∧ (t.die d).mcdrop = (s.die d).mcdrop + (if sev = 0 then 1 else 0) ∧
        (t.die d).mcWait = (s.die d).mcWait ++ if sev = 0 then [] else [r sev]) ∧
      (∀ n o, d < s.part.dies → sev = 0 → (s.die d).mcRecent = [(n, o)] → (s.die d).mcr ≤ n → o.addr = addr → o.kind = kind → o.unit = unit →
        o.how = how → time kind unit < o.time + 16000000 → admits d n → ∃ t, exec i s = .next t ∧ (t.die d).mcw = (s.die d).mcw ∧
        put t d n { o with rep := min (o.rep + 1) 0xFFFFF })) ∧
    (∀ d kind unit how, (∃ t, exec (.deviceMachineCheck d kind unit how) s = .next t ∧ stops t) ∧
      (free d → ∃ t, exec (.deviceMachineCheck d kind unit how) s = .next t ∧ ring t d ⟨0, 0, time kind unit, 0, kind, unit, 3, how, 0⟩)) ∧
    (∀ hot, (∃ t, exec (.envelopeBreach hot) s = .next t ∧ stops t) ∧
      (free 0 → ∃ t, exec (.envelopeBreach hot) s = .next t ∧ ring t 0 ⟨0, 0, time 10 0, 0, 10, 0, 3, 7, 0⟩))

/-- R404 to R407: a replay on another cluster, by the unit that a due time names where there is one, settles its item
where its signature agrees; one that differs waits for a third, and one that meets a fault of its own is abandoned;
the third convicts the replay's unit where it agrees with the original, and otherwise the original's, which is fenced;
a unit whose due time passes owes an item and is the next to replay one, and one that began none within its window
starts a probe, which is settled the same way. What a probe runs, and what a faulty unit's signature is, are free (log
35), and which item a due time samples is the model's reading (log 47). -/
def Obligations.Audits : Prop :=
  ∀ (s : State) (a : Audit) (unit other third : ℕ), s.audits = [a] → a.engine = true →
    let cl (n : ℕ) : ℕ := n / 3
    let sig (n : ℕ) : ℕ := s.signature true n a.copy
    let orig : ℕ := crc64 a.orig
    let probe (n : ℕ) : ℕ := s.signature true n (Config.probeBytes true)
    let target (t : State) (n : ℕ) : Prop := ((t.cluster (cl n)).engine (n % 3)).target = true
    let fenced (t : State) (n : ℕ) : Prop := ((t.cluster (cl n)).engine (n % 3)).fenced = true
    let unengaged (n : ℕ) : Prop := ((s.cluster (cl n)).engine (n % 3)).ctx = none ∧ cl n < s.clusters.length
    let due (t : State) (n : ℕ) : ℕ := ((t.cluster (cl n)).engine (n % 3)).due
    let owed (t : State) (n : ℕ) : Bool := ((t.cluster (cl n)).engine (n % 3)).owed
    (a.replay = none → cl unit ≠ cl a.unit → cl unit < s.part.clusters → cl unit < s.clusters.length → cl a.unit < s.clusters.length →
      ((∀ n, cl n < s.clusters.length → target s n → cl n = cl a.unit ∨ n = unit) →
        (∃ t, exec (.auditReplayComplete a.item unit false) s = .next t ∧ SameBytes s t ∧
          due t unit = s.ck + 3000000 ∧ due t a.unit = s.ck + 3000000 ∧ ¬ target t unit ∧
          t.audits = if orig = sig unit then [] else [{ a with replay := some unit }]) ∧
        ∃ t, exec (.auditReplayComplete a.item unit true) s = .next t ∧ t.audits = []) ∧
      (∀ n fails, cl n < s.clusters.length → target s n → cl n ≠ cl a.unit → ¬ target s unit →
        exec (.auditReplayComplete a.item unit fails) s = .next s)) ∧
    (a.replay = some other → cl unit ≠ cl a.unit → cl unit ≠ cl other → cl unit < s.part.clusters → unengaged a.unit → unengaged other →
      ∃ t, exec (.auditArbitration a.item unit) s = .next t ∧ t.audits = [] ∧
      (sig unit = orig → fenced t other) ∧ (sig unit ≠ orig → fenced t a.unit)) ∧
    (s.mtcfg.getLsbD 63 = true → due s unit ≤ s.ck → owed s unit = false → cl unit < s.part.clusters → cl unit < s.clusters.length →
      ∃ t, exec (.auditDueTime true unit) s = .next t ∧ owed t unit = true ∧ target t unit ∧
        due t unit = due s unit + 3000000 ∧ t = { s with clusters := t.clusters }) ∧
    (owed s unit = true → due s unit + 100000 ≤ s.ck + 3000000 → cl unit < s.clusters.length →
      ∃ t, exec (.probeStart true unit) s = .next t ∧ owed t unit = false ∧ t.probes = s.probes ++ [(true, unit)] ∧
        t = { s with clusters := t.clusters, probes := t.probes }) ∧
    (s.probes = [(true, unit)] → cl unit ≠ cl other → cl third ≠ cl unit → cl third ≠ cl other → unengaged unit → unengaged other →
      ∃ t, exec (.probeComplete true unit other third) s = .next t ∧ t.probes = [] ∧ due t unit = s.ck + 3000000 ∧ due t other = s.ck + 3000000 ∧
      (probe unit ≠ probe other → (probe third = probe unit → fenced t other) ∧ (probe third ≠ probe unit → fenced t unit)) ∧
      (probe unit = probe other → SameBytes s t))

/-- R411 to R414, R419, R420, R416, R396. Boot, slots and the life cycle. A reset leaves the device as `State.resetOf`
gives it, with its fuses, its flash and what is arranged of other agents. Then each step follows the one before,
unless the wipe fails (code 7): the ROM extends slot 1, or stops with code 8 in DECOMMISSIONED; each image is read,
then its backup, and one that passes extends its slot by the digest of its first 192 bytes, or the chain stops with
the code of the backup's first failing check; the root firmware is entered and generates the on-package keys; an
accepted device OS stands at its load address, and every hart starts in world 0 at its entry. Only slots 5 to 16 are
the device OS's to extend. A life-cycle transition needs its token, one of the transitions that remain, and no
firmware activation; it blows the fuses and resets. One event is one step of the chain, and what slots 1 and 4 are
extended by is the model's choice (log 48); RMA returns to PRODUCTION below 16 (log 52). -/
def Obligations.BootChain : Prop :=
  ∀ (s : State), MemOk s →
    let grow (old : BitVec 512) (d : ℕ) : BitVec 512 := Config.sha512 (leBytes 64 old.toNat ++ leBytes 64 d)
    let slot (t : State) (n : ℕ) : BitVec 512 := nth 0 t.slots.toList (n - 1)
    let grows (t : State) (n d : ℕ) : Prop := slot t n = grow (slot s n) d ∧ ∀ k, 1 ≤ k → k ≤ 16 → k ≠ n → slot t k = slot s k
    let num (f : FlashImage) (o n : ℕ) : ℕ := leNat ((f.header.drop o).take n)
    let fused := if s.fuses.lcs = 0 then s.fuses.keyMfg else if s.fuses.lcs = 1 then s.fuses.keyDev else s.fuses.keyProd
    let body (f : FlashImage) : List Byte := (List.range (num f 12 4)).map fun i => cellGet f.payload i
    let fails (kind : ℕ) (f : FlashImage) : ℕ :=
      if f.readable = false then 6
      else if ¬ (num f 0 4 = 0x5A4C4249 ∧ num f 4 1 = 1 ∧ num f 5 1 = kind ∧ num f 12 4 % 4096 = 0 ∧ 4096 ≤ num f 12 4 ∧
        num f 12 4 ≤ 67108864) then 1
      else if (Config.sha512 ((f.header.drop 96).take 32)).toNat ≠ fused then 2
      else if num f 8 4 < (if kind = 1 then s.fuses.floorRoot else s.fuses.floorOs) then 3
      else if Config.ed25519 ((f.header.drop 96).take 32) ((f.header.drop 128).take 64) (f.header.take 128) = false then 4
      else if (Config.sha512 (body f)).toNat ≠ num f 32 64 then 5 else 0
    let tries (kind place : ℕ) (ok : FlashImage → State → Prop) (stop : ℕ → State → Prop) (t : State) : Prop :=
      let f := nth .blank s.flash.toList place
      let b := nth .blank s.flash.toList (place + 1)
      (fails kind f = 0 → ok f t) ∧ (fails kind f ≠ 0 → fails kind b = 0 → ok b t) ∧
        (fails kind f ≠ 0 → fails kind b ≠ 0 → stop (fails kind b) t)
    let goes (i : Instr) (p : State → Prop) : Prop := ∃ t, exec i s = .next t ∧ p t
    let restarted (fu : Fuses) : State := { State.resetOf s.part fu s.flash with agenda := s.agenda, freeCtr := s.freeCtr }
    goes .reset (· = restarted s.fuses) ∧
    (s.boot = .wiping → goes .wipeComplete fun t =>
      if s.fuses.lcs = 4 then t = { s with boot := .stopped, hbErr := 8 }
      else (∃ d, grows t 1 d) ∧ t = { s with boot := .romRun, slots := t.slots }) ∧
    (s.boot = .wiping → runTurn .wipeFails s = .next { s with boot := .stopped, hbErr := 7 }) ∧
    (s.boot ≠ .wiping → runTurn .wipeFails s = .next s) ∧
    (s.boot = .romRun → goes .wipeComplete (tries 1 0
      (fun f t => grows t 2 (Config.sha512 (f.header.take 192)).toNat ∧ t = { s with
        boot := .rootRun, slots := t.slots, rootUp := true, root := { s.root with pc := some (num f 24 8) } })
      fun e t => t = { s with boot := .stopped, hbErr := e })) ∧
    (s.boot = .rootRun → goes .wipeComplete fun t =>
      (∀ j : Fin 86, j.val < 24 → linkPresent s.part j.val = true → t.seals[j].curS.isSome = true ∧ t.seals[j].curR = t.seals[j].curS ∧
        t.seals[j].st = 1) ∧
      tries 2 2 (fun f t => t.boot = .osStarting ∧ grows t 3 (Config.sha512 (f.header.take 192)).toNat ∧
          t.harts = s.harts.map (fun h => { h with world := 0, pc := some (num f 24 8) }) ∧
          ∀ i, i < num f 12 4 → t.hbmByte (num f 16 8 + i) = cellGet f.payload i)
        (fun e t => t.boot = .stopped ∧ t.hbErr = e ∧ t.slots = s.slots) t) ∧
    (∀ n d, goes (.measurementExtend n d) fun t =>
      if 5 ≤ n ∧ n ≤ 16 then grows t n d ∧ t = { s with slots := t.slots } else t = s) ∧
    (∀ target token,
      let allowed : Prop := (s.fuses.lcs = 0 ∧ target = 1) ∨ (s.fuses.lcs = 1 ∧ target = 2) ∨ (s.fuses.lcs = 2 ∧ target = 3) ∨
        (s.fuses.lcs = 3 ∧ target = 2 ∧ s.fuses.rma < 16) ∨ (s.fuses.lcs = 3 ∧ target = 4)
      let trips := if s.fuses.lcs = 2 ∨ (s.fuses.lcs = 3 ∧ target = 2) then s.fuses.rma + 1 else s.fuses.rma
      goes (.lifeCycleTransition target token) fun t =>
        (((∃ n old since, s.fw = .active n old since) ∨ Config.tokenValid token = false ∨ ¬ allowed) → t = s) ∧
        ((∀ n old since, s.fw ≠ .active n old since) → Config.tokenValid token = true → allowed → ∃ v,
          slot t 4 = grow 0 (Config.sha512 [BitVec.ofNat 8 target]).toNat ∧ (∀ k, 1 ≤ k → k ≤ 16 → k ≠ 4 → slot t k = 0) ∧
          t = { restarted { s.fuses with lcs := target, rma := trips } with slots := v }))

/-- R391, R393 to R396, R414 to R416. The root core's service and the host windows. From step 3 of the boot chain on, also
where a later step has stopped it, it answers each request of a peer that it knows: with its capabilities and
algorithms; at most 16 sessions; a session that is established by FINISH and ends by END_SESSION; Busy to CHALLENGE
and GET_MEASUREMENTS while a firmware activation is under way; a slot always, a world's own blocks and its queue in a
session bound to it only; an unsupported request as such. A session with a port's peer gives the keys of its link,
each end's for its own direction. BAR0 reads `hbst` and the doorbells. Firmware is staged, activated, and committed
within 320,000,000 ck or abandoned, which restores the slots. BAR2 is served at stage 4, through an enabled window, in
frames that admit the host. The errors for a session that is not open, what a commit extends, and which of an owner's
worlds a payload is for are taken from outside the spec or chosen (logs 49, 50 and 102). -/
def Obligations.RootCoreService : Prop :=
  ∀ (s : State) (peer : Option ℕ),
    let goes (i : Instr) (t : State) : Prop := exec i s = .next t
    let ready : Prop := (s.boot = .rootRun ∨ s.boot = .osStarting ∨ s.boot = .running ∨ (s.boot = .stopped ∧ s.rootUp = true)) ∧ ∀ d, peer = some d → d < s.podSize
    let replies (i : Instr) (r : SpdmReply) : Prop := goes i { s with spdmOut := s.spdmOut ++ [r] }
    let session (id : ℕ) (x : Session) : Prop := s.session? peer id = some x
    let busy : Prop := ∃ n old since, s.fw = .active n old since
    let bound (x : Session) : List World := s.worlds.filter fun w => x.established && x.mutualAuth && w.owner == x.leaf
    let queueOk (w : World) : Prop := w.queueAt < s.part.hbmBytes ∧ s.frameWorld w.queueAt = w.id ∧ s.frameState w.queueAt = 1
    let offer : List SpdmAlg := [.asymEd25519, .hashSha512, .measurementSha512, .dheSecp384r1, .aeadAes256Gcm, .scheduleSpdm]
    (ready → replies (.getVersion peer) .version ∧ replies (.getCapabilities peer)
        (.capabilities [.cert, .chal, .measSigned, .keyEx, .mutAuth, .encrypt, .mac, .hbeat, .keyUpd]) ∧
      goes (.negotiateAlgorithms peer true) { s with
        spdmOut := s.spdmOut ++ [.algorithms offer], agreed := if peer ∈ s.agreed then s.agreed else peer :: s.agreed } ∧ replies (.negotiateAlgorithms peer false) .errInvalid ∧
      replies (.getDigests peer) .digests ∧ replies (.getCertificate peer) .certificate ∧ replies (.unsupportedRequest peer) .errUnsupported ∧
      (busy → replies (.challenge peer) .errBusy ∧ ∀ ses n, replies (.getMeasurements peer ses n) .errBusy) ∧
      (¬ busy → replies (.challenge peer) .challengeAuth ∧
        (∀ ses n, 1 ≤ n → n ≤ 16 → replies (.getMeasurements peer ses n) (.measurements [(n, (nth 0 s.slots.toList (n - 1)).toNat)])) ∧
        (∀ n, n = 0x40 ∨ n = 0x41 → replies (.getMeasurements peer none n) .errInvalid) ∧
        (∀ id x, session id x → bound x ≠ [] →
          replies (.getMeasurements peer (some id) 0x41) (.measurements ((bound x).map fun w => (0x41, w.image)))) ∧
        (∀ id x n, session id x → bound x = [] → n = 0x40 ∨ n = 0x41 → replies (.getMeasurements peer (some id) n) .errInvalid)) ∧
      (16 ≤ s.sessions.length → replies (.keyExchange peer) .errSessionLimit) ∧
      (s.sessions.length < 16 → goes (.keyExchange peer) { s with
        sessions := s.sessions ++ [⟨s.nextId, peer, false, false, 0, 0⟩]
        nextId := s.nextId + 1, spdmOut := s.spdmOut ++ [.keyExchange s.nextId] }) ∧
      (∀ id leaf, s.session? peer id = none → replies (.finish peer id leaf) .errInvalid ∧ replies (.heartbeat peer id) .errInvalid ∧
        replies (.keyUpdate peer id) .errInvalid ∧ replies (.endSession peer id) .errInvalid ∧
        replies (.vendorDefinedRequest peer id 0) .errInvalid) ∧
      (∀ x leaf, session x.id x → s.sessions = [x] →
        (x.established = false → goes (.finish peer x.id leaf) { s with
          spdmOut := s.spdmOut ++ [.finish], sessions := [{ x with established := true, mutualAuth := leaf.isSome, leaf := leaf.getD 0 }] }) ∧
        (x.established = true → replies (.heartbeat peer x.id) .heartbeat ∧
          goes (.keyUpdate peer x.id) { s with spdmOut := s.spdmOut ++ [.keyUpdate], sessions := [{ x with keyGen := x.keyGen + 1 }] } ∧
          goes (.endSession peer x.id) { s with spdmOut := s.spdmOut ++ [.endSession], sessions := [] } ∧
          (∀ v, (∀ w ∈ bound x, ¬ queueOk w) → replies (.vendorDefinedRequest peer x.id v) .errInvalid) ∧
          ∀ w v, s.worlds = [w] → bound x = [w] → queueOk w → goes (.vendorDefinedRequest peer x.id v) { s with
            spdmOut := s.spdmOut ++ [.vendor (w.outbox.headD 0)]
            worlds := [{ w with inbox := w.inbox ++ [v], outbox := w.outbox.drop 1 }] }))) ∧
    (∀ w v, s.live = true → s.worlds = [w] →
      (queueOk w → runTurn (.worldSend w.id v) s = .next { s with worlds := [{ w with outbox := w.outbox ++ [v] }] } ∧
        runTurn (.worldTake w.id) s = .next { s with worlds := [{ w with inbox := w.inbox.drop 1 }] }) ∧
      (¬ queueOk w → runTurn (.worldSend w.id v) s = .next s)) ∧
    (∀ port secret key, s.serves = true → s.portJoined port = true → port < 32 →
      let tx := if port < 16 then 24 + port else 38 + port
      let rx := if port < 16 then 39 + port else 54 + port
      linkPresent s.part rx = true → (port < 16 → port < 15) →
      (∃ t, runTurn (.linkSession port (some (secret, key))) s = .next t ∧ port ∉ t.authFailed ∧ (⟨port, secret, key % 2 ^ 512⟩ : LinkAuth) ∈ t.linkAuth ∧
        (s.linkAuth = [] → t.linkAuth = [⟨port, secret, key % 2 ^ 512⟩]) ∧ t.seal tx = s.seal tx ∧
        ((s.seal rx).curR = none → (t.seal rx).curR = some (Config.linkKey secret (s.identOf rx))) ∧
        ((s.seal rx).curR ≠ none → (t.seal rx).penR = some (Config.linkKey secret (s.identOf rx)))) ∧
      (∃ t, runTurn (.linkSession port none) s = .next t ∧ port ∈ t.authFailed ∧ (∀ a ∈ t.linkAuth, a.port ≠ port) ∧ t.seals = s.seals) ∧
      (∀ k, k = Config.linkKey secret (s.identOf tx) → s.linkAuth = [⟨port, secret, key⟩] → linkPresent s.part tx = true →
        (s.seal tx).curS ≠ some k → k ∉ (s.seal tx).spent → ∃ t, runTurn (.linkKey port) s = .next t ∧
        ((s.seal tx).curS = none → (t.seal tx).curS = some k ∧ (t.seal tx).ctr = 0 ∧ (t.seal tx).st = 1) ∧
        ((s.seal tx).curS ≠ none → (s.seal tx).st ≠ 2 → (t.seal tx).penS = some k ∧ (t.seal tx).pend = true))) ∧
    (∀ off, runTurn (.readBar0 off) s = .next { s with hostOut := s.hostOut ++ [.read off
      (if off = 0 then (word (s.hbErr * 2 ^ 40 + s.fuses.lcs * 2 ^ 32 + (match s.part with | .zlx40 => 0x28 | .zlx20 => 0x14) * 2 ^ 16 +
          match s.boot with | .wiping => 0 | .romRun => 1 | .rootRun => 2 | .osStarting => 3 | .running => 4 | .stopped => 15)).toNat
        else if off = 0x100 then s.hdbin.toNat else if off = 0x108 then s.hdbout.toNat else 0)] }) ∧
    (s.boot = .wiping → ∀ i ∈ [.getVersion peer, .keyExchange peer, .challenge peer, .unsupportedRequest peer], exec i s = .next s) ∧
    (¬ busy → ∀ n, goes (.firmwareStage n) { s with fw := .staged n }) ∧
    (∀ n, s.fw = .staged n → goes .firmwareActivate { s with fw := .active n s.slots s.ck } ∧
      goes .firmwareAbandon { s with fw := .idle }) ∧
    (∀ n old since, s.fw = .active n old since → goes .firmwareAbandon { s with fw := .idle, slots := s.slots.set 1 old[1] } ∧
      (s.ck ≤ since + 320000000 → goes .firmwareCommit { s with
        fw := .idle, slots := s.slots.set 1 (Config.sha512 (leBytes 64 s.slots[1].toNat ++ leBytes 64 n)) })) ∧
    (∀ off size,
      let w := nth 0 s.hwin.toList (off / 2 ^ 36)
      let pa := (bits w 16 32 * 65536 + off % 2 ^ 36 : ℕ)
      let open_ (p : ℕ) : Prop := p < s.part.hbmBytes ∧ s.frameWorld p ≠ 0xFFFF ∧ (s.frameState p = 0 ∨ s.frameState p = 2)
      let admitted : Prop := w.getLsbD 63 = true ∧ ∀ i, i < size → open_ (pa + i)
      let answers (r : HostReply) (data : Option ℕ) : Prop :=
        goes (.hostBar2Access off size data) { s with hostOut := s.hostOut ++ [r] }
      (s.boot ≠ .running → ∀ data, answers (.unsupported off) data) ∧
      (s.boot = .running → off < 2 ^ 38 → 0 < size →
        (¬ admitted → answers (.read off (2 ^ (8 * size) - 1)) none ∧ ∀ v, answers (.written off) (some v)) ∧
        (w.getLsbD 62 = false → ∀ v, answers (.written off) (some v)) ∧
        (admitted → s.poison = [] → answers (.read off (s.hbmRead pa size)) none) ∧
        (admitted → w.getLsbD 62 = true → Still s → ∀ v, ∃ t, exec (.hostBar2Access off size (some v)) s = .next t ∧
          t.hostOut = s.hostOut ++ [.written off] ∧ OnlyBytes (.hbm pa) size s t ∧
          t.hbmRead pa size = v % 2 ^ (8 * size))))
end

