-- ==== Sys2Proof/Laws/Bits.lean ====
section
/-! SUPPORT. Lemmas about lists indexed from zero, bit fields, sub-elements and little-endian bytes. -/
namespace Sys2Proof.Machine
open Sys2Proof

/-! ## Lists -/

@[simp] theorem nth_nil {α : Type} (d : α) (i : Nat) : nth d [] i = d := by cases i <;> rfl

theorem nth_eq_getD {α : Type} (d : α) (l : List α) (i : Nat) : nth d l i = l.getD i d := by
  induction l generalizing i with
  | nil => simp
  | cons a l ih => cases i with
    | zero => simp [nth]
    | succ i => simp [nth, ih]

@[simp] theorem nth_tabulate {α : Type} (d : α) (n : Nat) (f : Nat → α) (i : Nat) :
    nth d (tabulate n f) i = if i < n then f i else d := by
  rw [nth_eq_getD, tabulate, List.getD_eq_getElem?_getD, List.getElem?_map]
  by_cases h : i < n <;> simp [h]

@[simp] theorem tabulate_length {α : Type} (n : Nat) (f : Nat → α) : (tabulate n f).length = n := by
  simp [tabulate]

theorem tabulate_congr {α : Type} {n : Nat} {f g : Nat → α} (h : ∀ i, i < n → f i = g i) :
    tabulate n f = tabulate n g := by
  unfold tabulate
  exact List.map_congr_left fun i hi => h i (List.mem_range.1 hi)

/-! ## Words and fields -/

theorem word_toNat (n : Nat) : (word n).toNat = n % 2 ^ 64 := by simp [word]

theorem word_toNat_self (x : Word) : word x.toNat = x := by simp [word]

theorem bits_lt (x : Word) (lo len : Nat) : bits x lo len < 2 ^ len := Nat.mod_lt _ (Nat.two_pow_pos _)

theorem subEl_lt (w : Nat) (x : Word) (j : Nat) : subEl w x j < 2 ^ w := bits_lt x _ _

theorem subEl_64_0 (x : Word) : subEl 64 x 0 = x.toNat := by
  have := x.isLt
  simp [subEl, bits, Nat.mod_eq_of_lt this]

/-- The sum that `fromSubs` forms is below 2^(k * w), and its element `j` is `f j` cut to `w` bits. -/
theorem foldl_field (w : Nat) (f : Nat → Nat) (k : Nat) :
    (List.range k).foldl (fun acc j => acc + field (f j) (j * w) w) 0 < 2 ^ (k * w) ∧
    ∀ j, j < k → (List.range k).foldl (fun acc j => acc + field (f j) (j * w) w) 0 / 2 ^ (j * w) % 2 ^ w = f j % 2 ^ w := by
  induction k with
  | zero => simp
  | succ k ih =>
    obtain ⟨hlt, hel⟩ := ih
    rw [List.range_succ, List.foldl_append]
    simp only [List.foldl_cons, List.foldl_nil]
    set S := (List.range k).foldl (fun acc j => acc + field (f j) (j * w) w) 0 with hS
    have hf : field (f k) (k * w) w = f k % 2 ^ w * 2 ^ (k * w) := rfl
    rw [hf]
    have hm : f k % 2 ^ w < 2 ^ w := Nat.mod_lt _ (Nat.two_pow_pos w)
    have hp : 2 ^ ((k + 1) * w) = 2 ^ (k * w) * 2 ^ w := by rw [← pow_add]; ring_nf
    refine ⟨?_, ?_⟩
    · rw [hp]
      calc S + f k % 2 ^ w * 2 ^ (k * w) < 2 ^ (k * w) + f k % 2 ^ w * 2 ^ (k * w) := by omega
        _ = (f k % 2 ^ w + 1) * 2 ^ (k * w) := by ring
        _ ≤ 2 ^ w * 2 ^ (k * w) := Nat.mul_le_mul_right _ hm
        _ = _ := by ring
    · intro j hj
      rcases Nat.lt_succ_iff_lt_or_eq.1 hj with h | rfl
      · obtain ⟨i, rfl⟩ : ∃ i, k = j + 1 + i := ⟨k - j - 1, by omega⟩
        have e : 2 ^ ((j + 1 + i) * w) = 2 ^ (j * w) * (2 ^ w * 2 ^ (i * w)) := by
          rw [← pow_add, ← pow_add]; congr 1; ring
        rw [e, show f (j + 1 + i) % 2 ^ w * (2 ^ (j * w) * (2 ^ w * 2 ^ (i * w))) =
          2 ^ (j * w) * (2 ^ w * (f (j + 1 + i) % 2 ^ w * 2 ^ (i * w))) by ring,
          Nat.add_mul_div_left _ _ (Nat.two_pow_pos _), Nat.add_mul_mod_self_left]
        exact hel j h
      · rw [Nat.add_mul_div_right _ _ (Nat.two_pow_pos _), Nat.div_eq_of_lt hlt]
        simp

/-- Sub-element `j` of a register that `fromSubs` builds. -/
theorem subEl_fromSubs {w n j : Nat} (f : Nat → Nat) (hn : n * w ≤ 64) (hj : j < n) :
    subEl w (fromSubs w n f) j = f j % 2 ^ w := by
  obtain ⟨hlt, hel⟩ := foldl_field w f n
  have h64 : 2 ^ (n * w) ≤ 2 ^ 64 := Nat.pow_le_pow_right (by norm_num) hn
  unfold subEl bits fromSubs
  rw [word_toNat, Nat.mod_eq_of_lt (lt_of_lt_of_le hlt h64)]
  exact hel j hj

/-- Bits above the elements of `fromSubs` are zero. -/
theorem fromSubs_toNat_lt {w n : Nat} (f : Nat → Nat) (hn : n * w ≤ 64) : (fromSubs w n f).toNat < 2 ^ (n * w) := by
  obtain ⟨hlt, -⟩ := foldl_field w f n
  have h64 : 2 ^ (n * w) ≤ 2 ^ 64 := Nat.pow_le_pow_right (by norm_num) hn
  unfold fromSubs
  rw [word_toNat, Nat.mod_eq_of_lt (lt_of_lt_of_le hlt h64)]
  exact hlt

theorem fromSubs_congr {w n : Nat} {f g : Nat → Nat} (h : ∀ j, j < n → f j = g j) : fromSubs w n f = fromSubs w n g := by
  unfold fromSubs
  congr 1
  apply List.foldl_ext
  intro acc j hj
  rw [h j (List.mem_range.1 hj)]

theorem iwBits_mul (w : IW) : 64 / iwBits w * iwBits w = 64 := by cases w <;> rfl
theorem fwBits_mul (w : FW) : 64 / fwBits w * fwBits w = 64 := by cases w <;> rfl
theorem iwBits_pos (w : IW) : 0 < iwBits w := by cases w <;> decide
theorem fwBits_pos (w : FW) : 0 < fwBits w := by cases w <;> decide

/-! ## Signed values -/

theorem wrap_eq (w : Nat) (z : Int) : wrap w z = (z % 2 ^ w).toNat := by simp [wrap]

theorem wrap_lt (w : Nat) (z : Int) : wrap w z < 2 ^ w := by
  have h : (0 : Int) < ((2 ^ w : Nat) : Int) := by positivity
  have h1 := Int.emod_nonneg z (ne_of_gt h)
  have h2 := Int.emod_lt_of_pos z h
  unfold wrap; omega

theorem wrap_natCast (w n : Nat) : wrap w (n : Int) = n % 2 ^ w := by
  rw [wrap, ← Int.natCast_emod, Int.toNat_natCast]

theorem signed_bounds {w : Nat} (hw : 0 < w) (n : Nat) : -2 ^ (w - 1) ≤ signed w n ∧ signed w n < 2 ^ (w - 1) := by
  obtain ⟨k, rfl⟩ : ∃ k, w = k + 1 := ⟨w - 1, by omega⟩
  have hm : n % 2 ^ (k + 1) < 2 ^ (k + 1) := Nat.mod_lt _ (Nat.two_pow_pos _)
  have hk : (2 : Int) ^ (k + 1) = 2 * 2 ^ k := by ring
  have hkn : 2 ^ (k + 1) = 2 * 2 ^ k := by ring
  have hp : (0 : Int) < 2 ^ k := by positivity
  unfold signed
  simp only [Nat.add_sub_cancel]
  split <;> push_cast <;> constructor <;> (try zify at *) <;> omega

theorem signed_emod (w n : Nat) : signed w n % 2 ^ w = (n % 2 ^ w : Nat) := by
  have hm : n % 2 ^ w < 2 ^ w := Nat.mod_lt _ (Nat.two_pow_pos _)
  unfold signed
  split
  · rw [Int.emod_eq_of_lt] <;> [omega; exact_mod_cast hm]
  · push_cast
    rw [Int.sub_emod_right, Int.emod_emod_of_dvd _ (dvd_refl _)]

/-- For a number below 2^w, wrapping its signed value gives it back. -/
theorem wrap_signed {w n : Nat} (hn : n < 2 ^ w) : wrap w (signed w n) = n := by
  rw [wrap_eq, signed_emod, Nat.mod_eq_of_lt hn, Int.toNat_natCast]

/-! ## Bytes -/

@[simp] theorem leBytes_length (n v : Nat) : (leBytes n v).length = n := by simp [leBytes]

theorem leNat_lt (l : List Byte) : leNat l < 256 ^ l.length := by
  induction l with
  | nil => simp [leNat]
  | cons b l ih =>
    have := b.isLt
    simp only [leNat, List.length_cons, pow_succ]
    omega

theorem leNat_leBytes (n v : Nat) : leNat (leBytes n v) = v % 256 ^ n := by
  induction n generalizing v with
  | zero => simp [leBytes, tabulate, leNat, Nat.mod_one]
  | succ n ih =>
    have h : leBytes (n + 1) v = byteOf v 0 :: leBytes n (v / 256) := by
      unfold leBytes tabulate
      rw [List.range_succ_eq_map]
      simp only [List.map_cons, List.map_map, List.cons.injEq, true_and]
      apply List.map_congr_left
      intro i _
      simp only [Function.comp, byteOf, pow_succ, Nat.div_div_eq_div_mul]
      rw [Nat.mul_comm]
    rw [h, leNat, ih, pow_succ, Nat.mul_comm (256 ^ n) 256, Nat.mod_mul]
    simp [byteOf]

/-! ## Counts of bits -/

theorem clz_eq (w a : Nat) (h : a < 2 ^ w) : clz w a = w - Nat.size a := by
  have hb : ∀ k n, n < 2 ^ k → bitLength k n = Nat.size n := by
    intro k
    induction k with
    | zero => intro n hn; have : n = 0 := by simpa using hn
              subst this; simp [bitLength]
    | succ k ih =>
      intro n hn
      by_cases h0 : n = 0
      · subst h0; simp [bitLength]
      · have h2 : n / 2 < 2 ^ k := by rw [pow_succ] at hn; omega
        rw [bitLength, if_neg h0, ih _ h2]
        have : n = Nat.bit (n.bodd) (n / 2) := by
          have := Nat.bit_bodd_div2 n
          rw [Nat.div2_val] at this; exact this.symm
        conv_rhs => rw [this, Nat.size_bit (by rw [← this]; exact h0)]
        omega
  rw [clz, Nat.mod_eq_of_lt h, hb w a h]

theorem popCount_eq (w a : Nat) : popCount w a = ((List.range w).filter fun k => a.testBit k).length := by
  induction w generalizing a with
  | zero => rfl
  | succ w ih =>
    rw [popCount, ih, List.range_succ_eq_map, List.filter_cons, List.filter_map, ]
    have : (fun k => (a / 2).testBit k) = (fun k => a.testBit k) ∘ Nat.succ := by
      funext k; simp [Nat.testBit_succ]
    rw [this]
    by_cases h : a.testBit 0 = true
    · have h' := h; rw [Nat.testBit_zero] at h'; simp at h'
      rw [if_pos h]; simp [h']; omega
    · have h' := h; rw [Nat.testBit_zero] at h'; simp at h'
      rw [if_neg h]; simp [h']

theorem popCount_lt (w a : Nat) (hw : w = 8 ∨ w = 16 ∨ w = 32 ∨ w = 64) : popCount w a % 2 ^ w = popCount w a := by
  apply Nat.mod_eq_of_lt
  have : popCount w a ≤ w := by rw [popCount_eq]; exact (List.length_filter_le _ _).trans (by simp)
  rcases hw with rfl | rfl | rfl | rfl <;> norm_num at * <;> omega

theorem iw_cases (w : IW) : iwBits w = 8 ∨ iwBits w = 16 ∨ iwBits w = 32 ∨ iwBits w = 64 := by cases w <;> simp [iwBits]

theorem wrap_mod (n : Nat) (z : Int) : wrap n z % 2 ^ n = (z % 2 ^ n).toNat := by
  rw [Nat.mod_eq_of_lt (wrap_lt n z), wrap_eq]

end Sys2Proof.Machine
end

