-- ==== Sys2Proof/Laws/Memory.lean ====
section
/-! SUPPORT. Memory: a byte read after a byte written, the canonical form that every memory operation keeps, and what a store
at a place does to each byte. -/
namespace Sys2Proof.Machine
open Sys2Proof

/-! ## Cells -/

theorem cellsFrom_mono {lo hi : Nat} {m : Memory} (h : cellsFrom hi m = true) (hl : lo ≤ hi) : cellsFrom lo m = true := by
  cases m with
  | nil => rfl
  | cons c m =>
    simp only [cellsFrom, Bool.and_eq_true, decide_eq_true_eq] at h ⊢
    exact ⟨⟨hl.trans h.1.1, h.1.2⟩, h.2⟩

theorem cellGet_below {lo a : Nat} {m : Memory} (h : cellsFrom lo m = true) (ha : a < lo) : cellGet m a = 0 := by
  cases m with
  | nil => rfl
  | cons c m =>
    obtain ⟨k, b⟩ := c
    simp only [cellsFrom, Bool.and_eq_true, decide_eq_true_eq] at h
    rw [cellGet, if_neg (by omega), if_pos (by omega)]

theorem cellsFrom_cons {lo k : Nat} {b : Byte} {m : Memory} :
    cellsFrom lo ((k, b) :: m) = true ↔ (lo ≤ k ∧ b ≠ 0) ∧ cellsFrom (k + 1) m = true := by
  rw [cellsFrom, Bool.and_eq_true, Bool.and_eq_true, decide_eq_true_eq, decide_eq_true_eq]

theorem cellSet_from {lo a : Nat} {m : Memory} (v : Byte) (h : cellsFrom lo m = true) (ha : lo ≤ a) :
    cellsFrom lo (cellSet m a v) = true := by
  induction m generalizing lo with
  | nil =>
    rw [cellSet]
    split
    · rfl
    · exact cellsFrom_cons.2 ⟨⟨ha, ‹_›⟩, rfl⟩
  | cons c m ih =>
    obtain ⟨k, b⟩ := c
    obtain ⟨⟨hk, hb⟩, hm⟩ := cellsFrom_cons.1 h
    rw [cellSet]
    split
    · subst_vars
      split
      · exact cellsFrom_mono hm (by omega)
      · exact cellsFrom_cons.2 ⟨⟨ha, ‹_›⟩, hm⟩
    · split
      · split
        · exact h
        · exact cellsFrom_cons.2 ⟨⟨ha, ‹_›⟩, cellsFrom_cons.2 ⟨⟨by omega, hb⟩, hm⟩⟩
      · exact cellsFrom_cons.2 ⟨⟨hk, hb⟩, ih hm (by omega)⟩

/-- Reading a byte after a byte is written. -/
theorem cellGet_cellSet {lo : Nat} {m : Memory} (h : cellsFrom lo m = true) (a : Nat) (v : Byte) (x : Nat) :
    cellGet (cellSet m a v) x = if x = a then v else cellGet m x := by
  induction m generalizing lo with
  | nil =>
    rw [cellSet]
    by_cases hv : v = 0
    · simp [hv, cellGet]
    · rw [if_neg hv]
      by_cases hx : x = a
      · subst hx; simp [cellGet]
      · have hx' : ¬ a = x := fun e => hx e.symm
        simp [cellGet, hx, hx']
  | cons c m ih =>
    obtain ⟨k, b⟩ := c
    simp only [cellsFrom, Bool.and_eq_true, decide_eq_true_eq] at h
    obtain ⟨⟨hk, hb⟩, hm⟩ := h
    rw [cellSet]
    by_cases h1 : a = k
    · subst h1
      rw [if_pos rfl]
      by_cases hv : v = 0
      · rw [if_pos hv]
        by_cases hx : x = a
        · subst hx; rw [if_pos rfl, cellGet_below hm (by omega), hv]
        · rw [if_neg hx, cellGet, if_neg (fun e => hx e.symm)]
          by_cases hl : x < a
          · rw [if_pos hl, cellGet_below hm (by omega)]
          · rw [if_neg hl]
      · rw [if_neg hv, cellGet, cellGet]
        by_cases hx : x = a
        · subst hx; simp
        · have : ¬ a = x := fun e => hx e.symm
          simp [hx, this]
    · rw [if_neg h1]
      by_cases h2 : a < k
      · rw [if_pos h2]
        by_cases hv : v = 0
        · rw [if_pos hv]
          by_cases hx : x = a
          · subst hx; rw [if_pos rfl, cellGet, if_neg (by omega), if_pos h2, hv]
          · rw [if_neg hx]
        · rw [if_neg hv]
          by_cases hx : x = a
          · subst hx; simp [cellGet]
          · rw [if_neg hx]
            conv_lhs => rw [cellGet]
            rw [if_neg (fun e => hx e.symm)]
            by_cases hl : x < a
            · rw [if_pos hl, cellGet, if_neg (by omega), if_pos (by omega)]
            · rw [if_neg hl]
      · rw [if_neg h2, cellGet, cellGet, ih hm]
        by_cases hx : x = a
        · subst hx; rw [if_neg (by omega), if_neg (by omega)]; simp
        · simp [hx]

theorem filter_from {lo : Nat} {m : Memory} (p : Host.Cell → Bool) (h : cellsFrom lo m = true) :
    cellsFrom lo (m.filter p) = true := by
  induction m generalizing lo with
  | nil => rfl
  | cons c m ih =>
    obtain ⟨k, b⟩ := c
    simp only [cellsFrom, Bool.and_eq_true, decide_eq_true_eq] at h
    rw [List.filter_cons]
    split
    · simp only [cellsFrom, Bool.and_eq_true, decide_eq_true_eq]
      exact ⟨h.1, ih h.2⟩
    · exact cellsFrom_mono (ih h.2) (by omega)

/-- Equal bytes are equal data: two memories in canonical form that read alike are the same list. -/
theorem cells_ext {lo : Nat} {m n : Memory} (hm : cellsFrom lo m = true) (hn : cellsFrom lo n = true)
    (h : ∀ a, cellGet m a = cellGet n a) : m = n := by
  induction m generalizing lo n with
  | nil =>
    cases n with
    | nil => rfl
    | cons c n =>
      obtain ⟨k, b⟩ := c
      simp only [cellsFrom, Bool.and_eq_true, decide_eq_true_eq] at hn
      have := h k
      simp [cellGet] at this
      exact absurd this.symm hn.1.2
  | cons c m ih =>
    obtain ⟨k, b⟩ := c
    simp only [cellsFrom, Bool.and_eq_true, decide_eq_true_eq] at hm
    cases n with
    | nil =>
      have := h k
      simp [cellGet] at this
      exact absurd this hm.1.2
    | cons c' n =>
      obtain ⟨k', b'⟩ := c'
      simp only [cellsFrom, Bool.and_eq_true, decide_eq_true_eq] at hn
      have hkk : k = k' := by
        rcases Nat.lt_trichotomy k k' with hl | rfl | hl
        · have := h k
          rw [cellGet, if_pos rfl, cellGet, if_neg (by omega), if_pos hl] at this
          exact absurd this hm.1.2
        · rfl
        · have := h k'
          rw [cellGet, if_neg (by omega), if_pos hl, cellGet, if_pos rfl] at this
          exact absurd this.symm hn.1.2
      subst hkk
      have hb : b = b' := by simpa [cellGet] using h k
      subst hb
      refine congrArg _ (ih hm.2 hn.2 fun a => ?_)
      by_cases hak : k < a
      · have := h a
        rwa [cellGet, if_neg (by omega), if_neg (by omega), cellGet, if_neg (by omega), if_neg (by omega)] at this
      · rw [cellGet_below hm.2 (by omega), cellGet_below hn.2 (by omega)]

/-! ## Ranges of bytes -/

theorem memWrite_wf {m : Memory} (a : Nat) (l : List Byte) (h : Memory.wf m = true) : Memory.wf (memWrite m a l) = true := by
  induction l generalizing m a with
  | nil => exact h
  | cons b l ih => exact ih _ (cellSet_from b h (Nat.zero_le a))

/-- Reading a byte after a range is written. -/
theorem cellGet_memWrite {m : Memory} (h : Memory.wf m = true) (a : Nat) (l : List Byte) (x : Nat) :
    cellGet (memWrite m a l) x = if a ≤ x ∧ x < a + l.length then l.getD (x - a) 0 else cellGet m x := by
  induction l generalizing m a with
  | nil => rw [memWrite, if_neg (by simp)]
  | cons b l ih =>
    rw [memWrite, ih (cellSet_from b h (Nat.zero_le a)), cellGet_cellSet h]
    simp only [List.length_cons]
    by_cases hx : x = a
    · subst hx
      rw [if_neg (by omega), if_pos rfl, if_pos (by omega)]
      simp
    · rw [if_neg hx]
      by_cases hr : a + 1 ≤ x ∧ x < a + 1 + l.length
      · rw [if_pos hr, if_pos (by omega)]
        obtain ⟨k, hk⟩ : ∃ k, x - a = k + 1 := ⟨x - a - 1, by omega⟩
        have : x - (a + 1) = k := by omega
        rw [hk, this, List.getD_cons_succ]
      · rw [if_neg hr, if_neg (by omega)]

theorem memRead_congr {m k : Memory} {a n : Nat} (h : ∀ i, i < n → cellGet m (a + i) = cellGet k (a + i)) :
    memRead m a n = memRead k a n := by
  unfold memRead
  rw [tabulate_congr h]

theorem leBytes_getD (n v i : Nat) (hi : i < n) : (leBytes n v).getD i 0 = byteOf v i := by
  rw [leBytes, ← nth_eq_getD, nth_tabulate, if_pos hi]

/-- A read after a write to the same place gives the value written. -/
theorem memRead_memWrite_self {m : Memory} (h : Memory.wf m = true) (a n v : Nat) :
    memRead (memWrite m a (leBytes n v)) a n = v % 256 ^ n := by
  rw [← leNat_leBytes n v, memRead, leBytes]
  refine congrArg leNat (tabulate_congr fun i hi => ?_)
  rw [cellGet_memWrite h, if_pos (by simp [tabulate]; omega), Nat.add_sub_cancel_left]
  exact leBytes_getD n v i hi

/-- A write leaves a read of a range apart from it alone. -/
theorem memRead_memWrite_apart {m : Memory} (h : Memory.wf m = true) {a b n : Nat} {l : List Byte}
    (hd : b + n ≤ a ∨ a + l.length ≤ b) : memRead (memWrite m a l) b n = memRead m b n := by
  refine memRead_congr fun i hi => ?_
  rw [cellGet_memWrite h, if_neg (by omega)]

/-! ## The operations over the state keep the canonical form -/

theorem memOk_onCur {s : State} (f : Team → Team) : MemOk (s.onCur f) ↔ MemOk s := Iff.rfl

theorem memOk_hbmWrite {s : State} (pa : Nat) (l : List Byte) (h : MemOk s) : MemOk (s.hbmWrite pa l) :=
  ⟨memWrite_wf _ _ h.1, h.2⟩

theorem memOk_spadWrite {s : State} (c off : Nat) (l : List Byte) (h : MemOk s) : MemOk (s.spadWrite c off l) :=
  ⟨h.1, memWrite_wf _ _ h.2⟩

theorem memOk_writeAt {s : State} (t : Target) (n v : Nat) (h : MemOk s) : MemOk (s.writeAt t n v) := by
  cases t
  · exact memOk_hbmWrite _ _ h
  · exact memOk_spadWrite _ _ _ h
  · exact h

theorem memOk_healAt {s : State} (t : Target) (n : Nat) (h : MemOk s) : MemOk (s.healAt t n) := by
  unfold State.healAt
  split <;> exact h

theorem memOk_storeAt {s : State} (t : Target) (n v : Nat) (h : MemOk s) : MemOk (s.storeAt t n v) :=
  memOk_healAt _ _ (memOk_writeAt _ _ _ h)

theorem memOk_setDescWord {s : State} (n i : Nat) (v : Word) (h : MemOk s) : MemOk (s.setDescWord n i v) := by
  unfold State.setDescWord
  split
  · exact memOk_hbmWrite _ _ h
  · exact h

theorem memOk_putMc {s : State} (d n : Nat) (r : McRec) (h : MemOk s) : MemOk (s.putMc d n r) := by
  unfold State.putMc
  dsimp only
  split
  · exact memOk_hbmWrite _ _ h
  · exact h

theorem memOk_wipeFrame {s : State} (f : Nat) (h : MemOk s) : MemOk (s.wipeFrame f) := ⟨filter_from _ h.1, h.2⟩

/-- The bytes of a combining entry, written one at a time. -/
theorem combBytes_wf (c : Comb) (l : List Nat) {s : State} (h : MemOk s) :
    MemOk (l.foldl (fun s i =>
      if c.mask.getLsbD i then { s with hbm := cellSet s.hbm (64 * c.line + i) (cellGet c.bytes i) } else s) s) := by
  induction l generalizing s with
  | nil => exact h
  | cons i l ih =>
    refine ih ?_
    by_cases hi : c.mask.getLsbD i = true
    · simp only [hi, if_true]
      exact ⟨cellSet_from _ h.1 (Nat.zero_le _), h.2⟩
    · simp only [hi]
      exact h

/-- The cells that the clearing of a freed allocation leaves are in the canonical form. -/
theorem spadFilter_wf {s : State} (p : Host.Cell → Bool) (h : MemOk s) : Memory.wf (s.spad.filter p) = true := filter_from _ h.2

/-- The memory of a reset is in the canonical form: it lists nothing. -/
theorem memOk_resetOf (p : Part) (fuses : Fuses) (flash : Vector FlashImage 4) : MemOk (State.resetOf p fuses flash) := ⟨rfl, rfl⟩

/-- Every shared operation that changes teams, groups, launches, clusters or dies leaves both memories. -/
theorem mem_modTeam (s : State) (tid : Nat) (f : Team → Team) :
    (s.modTeam tid f).hbm = s.hbm ∧ (s.modTeam tid f).spad = s.spad := by unfold State.modTeam; split <;> exact ⟨rfl, rfl⟩
theorem mem_dropTeam (s : State) (tid : Nat) : (s.dropTeam tid).hbm = s.hbm ∧ (s.dropTeam tid).spad = s.spad := by
  unfold State.dropTeam; split <;> exact ⟨rfl, rfl⟩
theorem mem_focus (s : State) (tid : Nat) : (s.focus tid).hbm = s.hbm ∧ (s.focus tid).spad = s.spad := by
  unfold State.focus; split
  · exact ⟨rfl, rfl⟩
  · split <;> exact ⟨rfl, rfl⟩
theorem mem_markPoison (s : State) (p : Poison) : (s.markPoison p).hbm = s.hbm ∧ (s.markPoison p).spad = s.spad := by
  unfold State.markPoison; split <;> exact ⟨rfl, rfl⟩

theorem memOk_of_eq {s t : State} (h : MemOk s) (e : t.hbm = s.hbm ∧ t.spad = s.spad) : MemOk t := by
  obtain ⟨e1, e2⟩ := e
  exact ⟨e1 ▸ h.1, e2 ▸ h.2⟩

/-! ## Stores and reads at a place -/

@[simp] theorem healAt_hbm (s : State) (t : Target) (n : Nat) : (s.healAt t n).hbm = s.hbm := by
  unfold State.healAt; split <;> rfl
@[simp] theorem healAt_spad (s : State) (t : Target) (n : Nat) : (s.healAt t n).spad = s.spad := by
  unfold State.healAt; split <;> rfl

/-- Every byte of HBM after a store at a place. -/
theorem hbmByte_storeAt {s : State} (h : MemOk s) (t : Target) (n v pa : Nat) :
    (s.storeAt t n v).hbmByte pa = match t with
      | .hbm p => if p ≤ pa ∧ pa < p + n then byteOf v (pa - p) else s.hbmByte pa
      | _ => s.hbmByte pa := by
  unfold State.storeAt State.hbmByte
  rw [healAt_hbm]
  cases t with
  | hbm p =>
    show cellGet (memWrite s.hbm p (leBytes n v)) pa = _
    rw [cellGet_memWrite h.1]
    simp only [leBytes_length]
    split
    · exact leBytes_getD _ _ _ (by omega)
    · rfl
  | spad c off => rfl
  | remote d p => rfl

/-- Every byte of scratchpad after a store at a place. -/
theorem spadByte_storeAt {s : State} (h : MemOk s) (t : Target) (n v c off : Nat) :
    (s.storeAt t n v).spadByte c off = match t with
      | .spad d p => if spadKey d p ≤ spadKey c off ∧ spadKey c off < spadKey d p + n then byteOf v (spadKey c off - spadKey d p)
        else s.spadByte c off
      | _ => s.spadByte c off := by
  unfold State.storeAt State.spadByte
  rw [healAt_spad]
  cases t with
  | hbm p => rfl
  | spad d p =>
    show cellGet (memWrite s.spad (spadKey d p) (leBytes n v)) _ = _
    rw [cellGet_memWrite h.2]
    simp only [leBytes_length]
    split
    · exact leBytes_getD _ _ _ (by omega)
    · rfl
  | remote d p => rfl

/-- A read after a store at the same place gives the value stored. -/
theorem readAt_storeAt {s : State} (h : MemOk s) (t : Target) (n v : Nat) (hl : ∀ d p, t ≠ .remote d p) :
    (s.storeAt t n v).readAt t n = v % 256 ^ n := by
  cases t with
  | hbm p => simp [State.storeAt, State.readAt, State.hbmRead, State.writeAt, State.hbmWrite, memRead_memWrite_self h.1]
  | spad c off => simp [State.storeAt, State.readAt, State.spadRead, State.writeAt, State.spadWrite, memRead_memWrite_self h.2]
  | remote d p => exact absurd rfl (hl d p)

/-- Where the links carry everything on the package, no walk waits. -/
theorem wayOpen_of_memoryOpen {s : State} (h : s.memoryOpen = true) (cl ctx : Nat) (k : AddrKind) (va : Nat) :
    s.wayOpen cl ctx k va = true := by simp [State.wayOpen, State.walkOpen, h]

end Sys2Proof.Machine
end

