-- ==== Sys2Proof/Laws/Checks.lean ====
section
/-! SUPPORT. Closed checks that decide the invariants of `Safety` on a state that is written out: a device on which nothing is
outstanding, teams with names of their own, an address that reaches its place. -/
namespace Sys2Proof
open Sys2Proof.Machine

theorem nth_of_all {α : Type} {p : α → Prop} {d : α} {l : List α} (hl : ∀ x ∈ l, p x) (hd : p d) (i : Nat) : p (nth d l i) := by
  induction l generalizing i with
  | nil => rw [nth_nil]; exact hd
  | cons a l ih =>
    cases i with
    | zero => exact hl a (List.mem_cons_self ..)
    | succ i => exact ih (fun x hx => hl x (List.mem_cons_of_mem _ hx)) i

/-- No entry of any combining buffer, no update of a replicated page on its way. -/
def coresIdle (s : State) : Bool :=
  (s.clusters.all fun c => c.core0.comb.isEmpty && c.core1.comb.isEmpty) && s.dies.all fun d => d.series.isEmpty

theorem comb_of_idle {s : State} (h : coresIdle s = true) (c k : Nat) : ((s.cluster c).core k).comb = [] := by
  simp only [coresIdle, Bool.and_eq_true, List.all_eq_true, List.isEmpty_iff] at h
  refine nth_of_all (p := fun c : Cluster => (c.core k).comb = []) (fun x hx => ?_) ?_ c
  · unfold Cluster.core; split
    · exact (h.1 x hx).1
    · exact (h.1 x hx).2
  · unfold Cluster.core; split <;> rfl

theorem series_of_idle {s : State} (h : coresIdle s = true) (d : Nat) : (s.die d).series = [] := by
  simp only [coresIdle, Bool.and_eq_true, List.all_eq_true, List.isEmpty_iff] at h
  exact nth_of_all (p := fun d : Die => d.series = []) (fun x hx => h.2 x hx) rfl d

def memOk (s : State) : Bool := Memory.wf s.hbm && Memory.wf s.spad

theorem memOk_of {s : State} (h : memOk s = true) : MemOk s := by
  simpa [memOk, MemOk] using h

def calm (s : State) : Bool :=
  memOk s && s.cur.accs.isEmpty && coresIdle s && s.poison.isEmpty && (s.teams.all fun t => t.escort.isNone) && s.cur.tid != 0 &&
    s.cur.st == .ready

theorem calm_of {s : State} (h : calm s = true) (he : s.cur.escort = none) : Calm s := by
  simp only [calm, Bool.and_eq_true, List.isEmpty_iff, List.all_eq_true, Option.isNone_iff_eq_none, bne_iff_ne, ne_eq,
    beq_iff_eq] at h
  obtain ⟨⟨⟨⟨⟨⟨h0, h1⟩, h2⟩, h3⟩, h4⟩, h5⟩, h6⟩ := h
  exact ⟨h1, comb_of_idle h2, h3, h4, series_of_idle h2, ⟨h5, he, h6⟩, memOk_of h0⟩

def teamQuiet (t : Team) : Bool :=
  t.accs.isEmpty && match t.st with | .exiting | .waitClass _ _ | .waitAcc _ => false | _ => true

theorem quiet_of {s : State} (h : ((s.cur :: s.others).all fun t => teamQuiet t && !(s.group t.group).killed) = true) : Quiet s := by
  simp only [List.all_eq_true, teamQuiet, Bool.and_eq_true, List.isEmpty_iff, Bool.not_eq_true'] at h
  have h' : ∀ t, t = s.cur ∨ t ∈ s.others → t ∈ s.cur :: s.others := fun t ht => List.mem_cons.2 ht
  refine ⟨fun t ht => (h t (h' t ht)).1.1, fun t ht => ?_, fun t ht => (h t (h' t ht)).2⟩
  have := (h t (h' t ht)).1.2
  refine ⟨fun e => ?_, fun c n e => ?_, fun q e => ?_⟩ <;> rw [e] at this <;> exact Bool.noConfusion this

def still (s : State) : Bool :=
  memOk s && ((s.cur :: s.others).all fun t => teamQuiet t && !(s.group t.group).killed) && coresIdle s && s.poison.isEmpty &&
    (s.cur :: s.others).all fun t => match t.escort with | some e => (match e.what with | .word _ => false | _ => true) | none => true

theorem still_of {s : State} (h : still s = true) : Still s := by
  simp only [still, Bool.and_eq_true, List.isEmpty_iff] at h
  obtain ⟨⟨⟨⟨h0, h1⟩, h2⟩, h3⟩, h4⟩ := h
  refine ⟨quiet_of h1, comb_of_idle h2, h3, fun t ht e he r hw => ?_, series_of_idle h2, memOk_of h0⟩
  have := List.all_eq_true.1 h4 t (List.mem_cons.2 ht)
  rw [he] at this
  simp only [hw] at this
  exact absurd this (by decide)

def named (s : State) : Bool := decide (s.teams.map Team.tid).Nodup && s.others.all fun t => t.tid != 0

theorem named_of {s : State} (h : named s = true) : Named s := by
  simp only [named, Bool.and_eq_true, decide_eq_true_eq, List.all_eq_true, bne_iff_ne, ne_eq] at h
  exact h

theorem cur_mem {s : State} (h : s.cur.tid ≠ 0) : s.cur ∈ s.teams := by
  rw [State.teams, if_neg h]
  exact List.mem_cons_self ..

/-! ## Translation -/

theorem walkPoison_clean {s : State} (h : s.poison = []) (cl ctx va : Nat) : s.walkPoison cl ctx va = s := by
  simp [State.walkPoison, h]

/-- The model's record of walks is all that a walk leaves of itself. -/
theorem noteWalk_frame (s : State) (ctx va : Nat) (f : Except XFault (Word × Nat)) :
    s.noteWalk ctx va f = { s with walked := (s.noteWalk ctx va f).walked } := by
  unfold State.noteWalk
  dsimp only
  split <;> rfl

theorem useWalk_walked (s : State) (l : List Tlb) (w cl ctx va acc : Nat) (f : Except XFault (Word × Nat)) :
    (State.useWalk { s with walked := l } w cl ctx va acc f).2 = (s.useWalk w cl ctx va acc f).2 := by
  cases f <;> rfl

/-- With nothing cached, no walk on record and no error about, a translation is what the walk gives. -/
theorem translate_uncached {s : State} {cl : Nat} (ht : (s.cluster cl).tlb = []) (hw : s.walked = []) (hp : s.poison = [])
    (ctx va acc : Nat) :
    s.translate cl ctx va acc = if 2 ^ 48 ≤ va ∨ va < 0x400000 then (s, .error .access)
      else (s.noteWalk ctx va (s.walkCtx ctx va)).useWalk (s.ctxWorld ctx) cl ctx va acc (s.walkCtx ctx va) := by
  by_cases h : 2 ^ 48 ≤ va ∨ va < 0x400000
  · rw [State.translate, if_pos h, if_pos h]
  · have hp' : (s.noteWalk ctx va (s.walkCtx ctx va)).poison = [] := by rw [noteWalk_frame]; exact hp
    rw [State.translate, if_neg h, if_neg h, ht]
    simp only [List.find?_nil, walkPoison_clean hp', State.staleEntries, hw, List.filter_nil]

/-- The place that such a translation gives. -/
theorem translate_uncached_place {s : State} {cl : Nat} (ht : (s.cluster cl).tlb = []) (hw : s.walked = []) (hp : s.poison = [])
    (ctx va acc : Nat) :
    (s.translate cl ctx va acc).2 = if 2 ^ 48 ≤ va ∨ va < 0x400000 then .error .access
      else (s.useWalk (s.ctxWorld ctx) cl ctx va acc (s.walkCtx ctx va)).2 := by
  rw [translate_uncached ht hw hp]
  split
  · rfl
  · rw [noteWalk_frame]; exact useWalk_walked ..

section
variable (s : State) (c : Team) (gs : List Group) (n : Nat)

/-- A state with another team in focus, another estate and another count of free values. -/
abbrev refocused : State := { s with cur := c, groups := gs, freeCtr := n }

theorem hbmRead_refocused (a k : Nat) : (refocused s c gs n).hbmRead a k = s.hbmRead a k := rfl
theorem framePrivate_refocused (w a : Nat) : (refocused s c gs n).framePrivate w a = s.framePrivate w a := rfl
theorem useLeaf_refocused (cl w va acc : Nat) (e : Word) (k : Nat) :
    (refocused s c gs n).useLeaf cl w va acc e k = s.useLeaf cl w va acc e k := rfl
theorem ctxWorld_refocused (x : Nat) : (refocused s c gs n).ctxWorld x = s.ctxWorld x := rfl
theorem ptRoot_refocused (x : Nat) : (refocused s c gs n).ptRoot x = s.ptRoot x := rfl
theorem ownsSpad_refocused (g : Group) (off k : Nat) : (refocused s c gs n).ownsSpad g off k = s.ownsSpad g off k := rfl

theorem walk_refocused (l : List (Nat × Nat)) (w va t : Nat) : (refocused s c gs n).walk w va l t = s.walk w va l t := by
  induction l generalizing t with
  | nil => rfl
  | cons a l ih =>
    obtain ⟨sh, m⟩ := a
    rw [State.walk, State.walk]
    simp only [ih, hbmRead_refocused, framePrivate_refocused]
    rfl

theorem walkCtx_refocused (ctx va : Nat) : (refocused s c gs n).walkCtx ctx va = s.walkCtx ctx va := by
  unfold State.walkCtx
  rw [walk_refocused, ctxWorld_refocused, ptRoot_refocused]
end

/-- An address reaches its place whatever the estate and the free values hold, where no translation of it is cached. -/
theorem reaches_of {s : State} {k : AddrKind} {addr acc : Nat} {pl : Place}
    (ht : (s.cluster s.cur.cluster).tlb = []) (hw : s.walked = []) (hp : s.poison = [])
    (hm : s.memoryOpen = true) (h : (s.place s.cur.cluster s.curGroup k addr 8 acc).2 = .ok pl) (ha : addr % 8 = 0) (hd : pl.tgt.device = 16)
    (hk : ∀ home, pl.kind ≠ .replicated home) : Reaches s k addr acc pl := by
  refine ⟨fun c gs n => ?_, fun c gs n => wayOpen_of_memoryOpen (s := refocused s c gs n) hm .., ha, hd, hk⟩
  rw [← h]
  show ((refocused s c gs n).place s.cur.cluster s.curGroup k addr 8 acc).2 = _
  have ht' : ((refocused s c gs n).cluster s.cur.cluster).tlb = [] := ht
  unfold State.place
  by_cases hk : k = .scratch ∨ (k = .either ∧ addr < 0x400000)
  · rw [if_pos hk, if_pos hk, ownsSpad_refocused]
  · have hw' : (refocused s c gs n).walked = [] := hw
    have hp' : (refocused s c gs n).poison = [] := hp
    rw [if_neg hk, if_neg hk, translate_uncached_place ht' hw' hp', translate_uncached_place ht hw hp, walkCtx_refocused,
      ctxWorld_refocused]
    by_cases h2 : 2 ^ 48 ≤ addr ∨ addr < 0x400000
    · rw [if_pos h2, if_pos h2]
    · rw [if_neg h2, if_neg h2]
      cases s.walkCtx s.curGroup.ctx addr with
      | error x => rfl
      | ok p => exact useLeaf_refocused s c gs n _ _ _ _ _ _

/-! ## Whole pages -/

theorem div_of_page {va vb sh : Nat} (h : va / 65536 = vb / 65536) (hs : 16 ≤ sh) : va / 2 ^ sh = vb / 2 ^ sh := by
  obtain ⟨k, rfl⟩ := Nat.exists_eq_add_of_le hs
  rw [Nat.pow_add, ← Nat.div_div_eq_div_mul, ← Nat.div_div_eq_div_mul]
  exact congrArg (· / 2 ^ k) h

/-- A walk goes by the page of its address. -/
theorem walk_page {va vb : Nat} (h : va / 65536 = vb / 65536) (s : State) (w : Nat) (l : List (Nat × Nat)) (hl : ∀ p ∈ l, 16 ≤ p.1)
    (t : Nat) : s.walk w va l t = s.walk w vb l t := by
  induction l generalizing t with
  | nil => rfl
  | cons a l ih =>
    obtain ⟨sh, m⟩ := a
    rw [State.walk, State.walk, div_of_page h (hl _ (List.mem_cons_self ..))]
    simp only [ih fun p hp => hl p (List.mem_cons_of_mem _ hp)]

theorem underEntry_ok {b : Bool} {x : Except XFault (Word × Nat)} {r : Word × Nat} (h : underEntry b x = .ok r) : x = .ok r := by
  unfold underEntry at h
  split at h
  · cases h
  · cases b
    · exact h
    · cases h

theorem walk_shift {s : State} {w va : Nat} {l : List (Nat × Nat)} {t : Nat} {r : Word × Nat} (h : s.walk w va l t = .ok r) :
    ∃ m, (r.2, m) ∈ l := by
  induction l generalizing t with
  | nil => exact absurd h (by rw [State.walk]; exact nofun)
  | cons a l ih =>
    obtain ⟨k, m⟩ := a
    rw [State.walk] at h
    generalize word (s.hbmRead (t + 8 * (va / 2 ^ k % m)) 8) = e at h
    generalize s.framePrivate w (t + 8 * (va / 2 ^ k % m)) = b at h
    have wrong {x : XFault} {p : Prop} (h : (Except.error x : Except XFault (Word × Nat)) = .ok r) : p := nomatch h
    split at h
    · exact wrong h
    · dsimp only at h
      split at h
      · exact wrong h
      · split at h
        · split at h
          · exact wrong h
          · exact ⟨m, by rw [← Except.ok.inj h]; exact List.mem_cons_self ..⟩
        · split at h
          · exact wrong h
          · obtain ⟨m', hm⟩ := ih (underEntry_ok h)
            exact ⟨m', List.mem_cons_of_mem _ hm⟩

theorem mod_of_page {v i k : Nat} (hi : i < 65536) : (65536 * v + i) % 2 ^ (16 + k) = (65536 * v) % 2 ^ (16 + k) + i := by
  have h : 2 ^ (16 + k) = 65536 * 2 ^ k := by rw [Nat.pow_add]
  rw [h, Nat.mul_mod_mul_left, Nat.mod_mul, Nat.mul_add_div (by decide), Nat.div_eq_of_lt hi, Nat.add_zero,
    Nat.mul_add_mod, Nat.mod_eq_of_lt hi, Nat.add_comm]

theorem frameOk_page (s : State) (w p i : Nat) (hi : i < 65536) : s.frameOk w (65536 * p + i) = s.frameOk w (65536 * p) := by
  have hd : (65536 * p + i) / 65536 = 65536 * p / 65536 := by omega
  have hb : (decide (65536 * p + i < s.part.hbmBytes)) = decide (65536 * p < s.part.hbmBytes) := by
    have : ∃ n, s.part.hbmBytes = 65536 * n := by
      cases s.part
      · exact ⟨_, (by decide : Part.hbmBytes .zlx40 = 65536 * (Part.hbmBytes .zlx40 / 65536))⟩
      · exact ⟨_, (by decide : Part.hbmBytes .zlx20 = 65536 * (Part.hbmBytes .zlx20 / 65536))⟩
    obtain ⟨n, hn⟩ := this
    rw [hn]
    exact decide_eq_decide.2 (by omega)
  unfold State.frameOk State.frameState State.frameWorld State.fotEntry
  rw [hd, hb]

/-- The leaf of a page of this device that is not replicated: permitted, and its frame in reach. -/
theorem useLeaf_plain {s : State} {cl w va acc : Nat} {e : Word} {size pa sl : Nat} :
    s.useLeaf cl w va acc e size = .ok ⟨.hbm pa, .relCons, sl⟩ ↔
      ¬ (((acc = 1 ∨ acc = 2) ∧ (!bitAt e 62) = true) ∨ (acc = 3 ∧ (!bitAt e 63) = true)) ∧ bitAt e 51 = false ∧
        leafKind e = .relCons ∧ bits e 8 40 * 256 + va % size = pa ∧ s.frameOk w pa = true ∧ s.sliceOf e pa = sl := by
  unfold State.useLeaf
  generalize bits e 8 40 * 256 + va % size = q
  by_cases hp : ((acc = 1 ∨ acc = 2) ∧ (!bitAt e 62) = true) ∨ (acc = 3 ∧ (!bitAt e 63) = true)
  · rw [if_pos hp]
    exact ⟨nofun, fun h => absurd hp h.1⟩
  · simp only [hp, if_false, not_false_eq_true, true_and]
    cases bitAt e 51 with
    | true => simp only [if_true]; split <;> simp
    | false =>
      simp only [Bool.false_eq_true, if_false, true_and]
      cases leafKind e with
      | relCons =>
        by_cases hf : s.frameOk w q = true
        · simp only [hf, if_true, Except.ok.injEq, Place.mk.injEq, Target.hbm.injEq, true_and]
          constructor
          · rintro ⟨rfl, rfl⟩; exact ⟨rfl, hf, rfl⟩
          · rintro ⟨rfl, -, rfl⟩; exact ⟨rfl, rfl⟩
        · simp only [hf, if_false, reduceCtorEq, true_and, false_iff]
          rintro ⟨rfl, h, -⟩; exact hf h
      | _ => dsimp only; split <;> simp

/-- What a unit reads through a page of this device that is not replicated. -/
theorem ctxPlace_plain {s : State} {ctx va acc pa sl : Nat} :
    s.ctxPlace ctx va acc = .ok ⟨.hbm pa, .relCons, sl⟩ ↔ ¬ (2 ^ 48 ≤ va ∨ va < 0x400000) ∧
      ∃ e sh, s.walkCtx ctx va = .ok (e, sh) ∧ s.useLeaf 0 (s.ctxWorld ctx) va acc e (2 ^ sh) = .ok ⟨.hbm pa, .relCons, sl⟩ := by
  unfold State.ctxPlace
  by_cases hr : 2 ^ 48 ≤ va ∨ va < 0x400000
  · rw [if_pos hr]
    exact ⟨nofun, fun h => absurd hr h.1⟩
  · rw [if_neg hr]
    cases hc : s.walkCtx ctx va with
    | error x => exact ⟨nofun, fun ⟨_, _, _, h, _⟩ => nomatch h⟩
    | ok q =>
      obtain ⟨e, sh⟩ := q
      constructor
      · intro h
        refine ⟨hr, e, sh, rfl, ?_⟩
        dsimp only at h
        split at h
        · rename_i pl hl
          have hpl : pl = ⟨.hbm pa, .relCons, sl⟩ := by
            obtain ⟨tgt, kind, slice⟩ := pl
            cases tgt <;> cases kind <;> simp_all
          exact useLeaf_plain.2 (useLeaf_plain.1 (hl.trans (congrArg _ hpl)))
        · cases h
      · rintro ⟨-, e', sh', he, hl⟩
        obtain ⟨rfl, rfl⟩ := Prod.mk.inj (Except.ok.inj he)
        dsimp only
        have hl' := fun cl => (useLeaf_plain (cl := cl)).2 (useLeaf_plain.1 hl)
        split
        · rename_i pl h
          rw [← Except.ok.inj ((hl' _).symm.trans h)]
        · rename_i h
          exact absurd ((hl' _).symm.trans h) nofun

/-- A page whose first byte has a place of this device has all its bytes there, in order. -/
theorem ctxPlace_page {s : State} {ctx v p acc : Nat} {sl : Nat}
    (h : s.ctxPlace ctx (65536 * v) acc = .ok ⟨.hbm (65536 * p), .relCons, sl⟩) {i : Nat} (hi : i < 65536) :
    ∃ sl', s.ctxPlace ctx (65536 * v + i) acc = .ok ⟨.hbm (65536 * p + i), .relCons, sl'⟩ := by
  obtain ⟨hr, e, sh, hw, hl⟩ := ctxPlace_plain.1 h
  obtain ⟨h1, h2, h3, h4, h5, -⟩ := useLeaf_plain.1 hl
  obtain ⟨m, hm⟩ := walk_shift (s := s) hw
  have hsh : 16 ≤ sh := (by decide : ∀ q ∈ walkLevels, 16 ≤ q.1) _ hm
  obtain ⟨k, rfl⟩ := Nat.exists_eq_add_of_le hsh
  refine ⟨_, ctxPlace_plain.2 ⟨by omega, e, 16 + k, ?_, useLeaf_plain.2 ⟨h1, h2, h3, ?_, ?_, rfl⟩⟩⟩
  · rw [← hw]
    exact walk_page (by omega) s _ _ (by decide) _
  · rw [mod_of_page hi, ← Nat.add_assoc, h4]
  · rw [frameOk_page s _ _ _ hi, h5]

theorem cellGet_append_high {m k : Memory} {a : Nat} (h : ∀ c ∈ m, c.1 < a) : cellGet (m ++ k) a = cellGet k a := by
  induction m with
  | nil => rfl
  | cons c m ih =>
    obtain ⟨b, v⟩ := c
    have hb : b < a := h _ (List.mem_cons_self ..)
    rw [List.cons_append, cellGet, if_neg (by omega), if_neg (by omega)]
    exact ih fun c hc => h c (List.mem_cons_of_mem _ hc)

theorem cellGet_append_low {m k : Memory} {a : Nat} (h : ∀ c ∈ k, a < c.1) : cellGet (m ++ k) a = cellGet m a := by
  induction m with
  | nil =>
    cases k with
    | nil => rfl
    | cons c k =>
      obtain ⟨b, v⟩ := c
      have hb : a < b := h _ (List.mem_cons_self ..)
      show cellGet ((b, v) :: k) a = 0
      rw [cellGet, if_neg (by omega), if_pos hb]
  | cons c m ih =>
    obtain ⟨b, v⟩ := c
    rw [List.cons_append, cellGet, cellGet, ih]

theorem leBytes_leNat (l : List Byte) : leBytes l.length (leNat l) = l := by
  induction l with
  | nil => rfl
  | cons b l ih =>
    have hb := b.isLt
    unfold leBytes tabulate at ih ⊢
    rw [List.length_cons, List.range_succ_eq_map, List.map_cons, List.map_map]
    congr 1
    · apply BitVec.eq_of_toNat_eq
      simp [byteOf, leNat]
      omega
    · conv_rhs => rw [← ih]
      refine List.map_congr_left fun i _ => ?_
      simp only [Function.comp, byteOf, leNat, Nat.succ_eq_add_one, Nat.pow_succ']
      congr 1
      rw [← Nat.div_div_eq_div_mul]
      congr 1
      omega

/-- The bytes of a context's page, read in words. -/
theorem ctxBytes_page {s : State} {ctx v p sl : Nat} (hp : s.poison = [])
    (h : s.ctxPlace ctx (65536 * v) 0 = .ok ⟨.hbm (65536 * p), .relCons, sl⟩) (n : Nat) :
    ∀ o, o + 8 * n ≤ 65536 → s.ctxBytes ctx (65536 * v + o) n = .ok ((List.range (8 * n)).map fun i => s.hbmByte (65536 * p + o + i), false) := by
  induction n with
  | zero => intro o _; rfl
  | succ n ih =>
    intro o ho
    obtain ⟨sl', he⟩ := ctxPlace_page h (i := o) (by omega)
    rw [State.ctxBytes, he, Nat.add_assoc (65536 * v), ih (o + 8) (by omega)]
    have hq : s.poisonedAt (.hbm (65536 * p + o)) 8 = false := by simp [State.poisonedAt, hp]
    dsimp only
    rw [hq]
    refine congrArg Except.ok (Prod.ext ?_ rfl)
    have hl : leBytes 8 (s.readAt (.hbm (65536 * p + o)) 8) = (List.range 8).map fun i => s.hbmByte (65536 * p + o + i) :=
      (leBytes_leNat ((List.range 8).map fun i => s.hbmByte (65536 * p + o + i)))
    dsimp only
    rw [hl, show 8 * (n + 1) = 8 + 8 * n by omega, List.range_add, List.map_append, List.map_map]
    congr 1
    refine List.map_congr_left fun i _ => ?_
    simp only [Function.comp]
    congr 1
    omega

theorem slice_range (f : ℕ → Byte) {n o k : ℕ} (h : o + k ≤ n) : (((List.range n).map f).drop o).take k = (List.range k).map fun i => f (o + i) := by
  apply List.ext_getElem?
  intro i
  by_cases hi : i < k
  · simp [List.getElem?_drop, hi, show o + i < n by omega]
  · simp [hi]

/-- A record of 4,096 bytes at the start of a page: the checks that restoring a team makes of it (R337, R339). -/
theorem checkRecord_good {s : State} {t : Team} {ctx v p sl seq : ℕ} {key : ℕ} (hp : s.poison = []) (hc : (s.group t.group).ctx = ctx)
    (hn : s.recordBytesOf ctx = 4096) (ha : s.recordAddr ctx t.recordIndex = 65536 * v)
    (hpl : s.ctxPlace ctx (65536 * v) 0 = .ok ⟨.hbm (65536 * p), .relCons, sl⟩) (hpr : s.privateRange ctx (65536 * v) 4096 0 = true)
    (hm : leNat ((List.range 4).map fun i => s.hbmByte (65536 * p + i)) = 0x53564C5A)
    (hx : leNat ((List.range 2).map fun i => s.hbmByte (65536 * p + (0xE8 + i))) = t.recordIndex)
    (hq : leNat ((List.range 8).map fun i => s.hbmByte (65536 * p + (0xF0 + i))) = seq)
    (hs : keyGet (s.cluster t.cluster).saveSeq (32 * t.core + t.slot) = seq) (ht : t.saveSeq = seq) (hk : s.saveKeyOf ctx = key)
    (hg : leNat ((List.range 16).map fun i => s.hbmByte (65536 * p + (4080 + i))) =
      (Config.gmac key (saveIv ctx t.recordIndex seq) ((List.range 4080).map fun i => s.hbmByte (65536 * p + i))).toNat) :
    s.checkRecord t = .good := by
  have hb := ctxBytes_page hp hpl 512 0 (by decide)
  have q : s.poisoned (.saved t.tid) = false := by simp [State.poisoned, hp]
  have cut (o k : ℕ) (h : o + k ≤ 4096) := slice_range (fun i => s.hbmByte (65536 * p + 0 + i)) h
  rw [Nat.add_zero] at hb
  simp only [State.checkRecord, hc, hn, ha, hpr, hs, hk, Bool.not_true, Bool.false_eq_true, if_false, show 4096 / 8 = 512 from rfl, hb, q, Bool.or_self]
  refine if_pos ⟨?_, ?_, ?_, ht.symm, ?_⟩
  · rw [← hm]
    exact congrArg leNat ((cut 0 4 (by decide)).trans (List.map_congr_left fun i _ => by rw [Nat.add_zero, Nat.zero_add]))
  · rw [← hx]
    exact congrArg leNat (cut 0xE8 2 (by decide))
  · refine Eq.trans (congrArg leNat (cut 0xF0 8 (by decide))) ?_
    exact hq
  · refine (congrArg leNat (cut 4080 16 (by decide))).trans (hg.trans ?_)
    refine congrArg (fun l => (Config.gmac key (saveIv ctx t.recordIndex seq) l).toNat) ?_
    exact ((cut 0 4080 (by decide)).trans (List.map_congr_left fun i _ => by rw [Nat.add_zero, Nat.zero_add])).symm

end Sys2Proof
end

