-- ==== Sys2Proof/Laws/Effects.lean ====
section
/-! SUPPORT. What the shared forms of the lane and uniform instructions do to their team: one lemma for each form, in the
words of `LaneEffect`, `MaskEffect` and `UniEffect`. -/
namespace Sys2Proof
open Sys2Proof.Machine

/-! ## Effects in general -/

theorem onlyTeam_onCur (s : State) (f : Team → Team) : OnlyTeam s (s.onCur f) :=
  ⟨rfl, fun _ => rfl, fun _ _ => rfl⟩

/-- An instruction whose meaning is `teamStep` completes. -/
theorem runs_teamStep {i : Instr} {s : State} {n : Nat} {f : Team → Team} {P : Team → Team → Prop}
    (h : exec i s = teamStep n f s) (hp : P s.cur ((f s.cur).advance n)) : Runs i s P :=
  ⟨_, h, onlyTeam_onCur s _, hp⟩

theorem Runs.imp {i : Instr} {s : State} {P Q : Team → Team → Prop} (h : Runs i s P) (hq : ∀ u v, P u v → Q u v) :
    Runs i s Q := by
  obtain ⟨t, e, o, p⟩ := h
  exact ⟨t, e, o, hq _ _ p⟩

theorem LaneEffect.imp {n : Nat} {d : VDst} {fl : FFlags} {P Q : Nat → Word → Prop} {a b : Team}
    (h : LaneEffect n d fl P a b) (hq : ∀ x v, x < a.lanes → a.active x = true → P x v → Q x v) : LaneEffect n d fl Q a b :=
  { h with value := fun x hx ha => hq x _ hx ha (h.value x hx ha) }

theorem flagTraps_iff (ft : BitVec 5) (fl : FFlags) : flagTraps ft fl = true ↔ ¬ (fl.setWidth 5 &&& ft = 0) := by
  simp [flagTraps]

theorem raised_of_raise (t b : Team) (fl : FFlags) (hf : b.fflags = (t.raise fl).fflags)
    (hp : b.pending = (t.raise fl).pending) : Raised fl t b := by
  refine ⟨hf, ?_⟩
  rw [hp]
  simp only [Team.raise]
  by_cases h : fl.setWidth 5 &&& t.ftrap = 0
  · have : flagTraps t.ftrap fl = false := by simpa [flagTraps] using h
    rw [if_pos h, this]; simp
  · rw [if_neg h, (flagTraps_iff _ _).2 h]; rfl

@[simp] theorem raise_zero (t : Team) : t.raise 0 = t := by
  simp [Team.raise, flagTraps]

/-! ## Lane results -/

theorem writeLanes_frame (t : Team) (r : VReg) (act : Nat → Bool) (val : Nat → Word) :
    t.writeLanes r act val = { t with v := (t.writeLanes r act val).v, deadV := (t.writeLanes r act val).deadV } := by
  unfold Team.writeLanes Team.setV; split <;> rfl

theorem writeLanes_self (t : Team) (r : VReg) (act : Nat → Bool) (val : Nat → Word) (x : Nat) (hx : x < t.lanes) :
    laneAt (t.writeLanes r act val).v[r] x = if act x then val x else laneAt t.v[r] x := by
  unfold Team.writeLanes
  split
  · simp [Team.setV, laneAt, hx]
  · rename_i h
    have : act x = false := by
      by_contra hc
      exact h (List.any_eq_true.2 ⟨x, List.mem_range.2 hx, by simpa using hc⟩)
    simp [this]

theorem writeLanes_other (t : Team) (r q : VReg) (act : Nat → Bool) (val : Nat → Word) (h : r ≠ q) :
    (t.writeLanes r act val).v[q] = t.v[q] ∧ (t.writeLanes r act val).deadV[q] = t.deadV[q] := by
  have h' : r.val ≠ q.val := fun e => h (Fin.ext e)
  unfold Team.writeLanes
  split
  · simp [Team.setV, h']
  · simp

theorem writeLanes_live (t : Team) (r : VReg) (act : Nat → Bool) (val : Nat → Word)
    (h : ∃ x, x < t.lanes ∧ act x = true) : (t.writeLanes r act val).deadV[r] = 0 := by
  obtain ⟨x, hx, ha⟩ := h
  unfold Team.writeLanes
  rw [if_pos (List.any_eq_true.2 ⟨x, List.mem_range.2 hx, ha⟩)]
  simp [Team.setV]

theorem lanePush_of_pushLane (t b : Team) (v : LaneVal) (hf : b.fl = (t.pushLane v).fl)
    (hv : b.fvalid = (t.pushLane v).fvalid) (hu : b.fu = t.fu) : LanePush t b := by
  refine ⟨fun x => ?_, hu⟩
  rw [hf, hv]
  refine ⟨rfl, rfl, rfl, ?_, ?_, ?_⟩
  · simp [Team.pushLane]
  · intro hx
    simp only [Team.pushLane]
    have : x = 0 ∨ x = 1 ∨ x = 2 := by omega
    rcases this with rfl | rfl | rfl <;> simp
  · intro hx
    simp only [Team.pushLane]
    by_cases h8 : x < 8
    · have : x = 4 ∨ x = 5 ∨ x = 6 ∨ x = 7 := by omega
      rcases this with rfl | rfl | rfl | rfl <;> simp
    · rw [BitVec.getLsbD_of_ge _ _ (by omega), BitVec.getLsbD_of_ge _ _ (by omega)]

/-- The common end of every instruction with a lane result. -/
theorem laneResult_effect (t : Team) (n : Nat) (d : VDst) (fl : FFlags) (val : Nat → Word) :
    LaneEffect n d fl (fun x v => v = val x) t (((t.raise fl).laneResult d val).advance n) := by
  have hr : ∀ x, (t.raise fl).active x = t.active x := fun _ => rfl
  set r := tabulate t.lanes fun x => if t.active x then val x else 0 with hrdef
  have hlat : ∀ x, x < t.lanes → nth 0 r x = if t.active x then val x else 0 := by
    intro x hx; simp [hrdef, hx]
  have hfl0 : ((((t.raise fl).laneResult d val).advance n)).fl[0] = r := by
    cases d <;> rfl
  constructor
  · cases d with
    | none => rfl
    | some q => simp only [Team.laneResult, Team.advance]; unfold Team.writeLanes Team.setV; split <;> rfl
  · apply raised_of_raise
    · cases d with
      | none => rfl
      | some q => simp only [Team.laneResult, Team.advance]; unfold Team.writeLanes Team.setV; split <;> rfl
    · cases d with
      | none => rfl
      | some q => simp only [Team.laneResult, Team.advance]; unfold Team.writeLanes Team.setV; split <;> rfl
  · cases d with
    | none => exact lanePush_of_pushLane t _ r rfl rfl rfl
    | some q =>
      apply lanePush_of_pushLane t _ r <;>
      · simp only [Team.laneResult, Team.advance]; unfold Team.writeLanes Team.setV; split <;> rfl
  · intro x hx ha
    rw [hfl0]; exact (hlat x hx).trans (if_pos ha)
  · intro x hx ha
    rw [hfl0]; exact (hlat x hx).trans (if_neg (by simp [ha]))
  · constructor
    · rintro q rfl x hx
      rw [hfl0]
      show laneAt ((t.raise fl).writeLanes q (t.raise fl).active (nth 0 r)).v[q] x = _
      exact writeLanes_self (t.raise fl) q _ _ x hx
    · rintro q rfl h
      exact writeLanes_live (t.raise fl) q _ _ h
    · intro q hq
      cases d with
      | none => exact ⟨rfl, rfl⟩
      | some p => exact writeLanes_other (t.raise fl) p q _ _ fun e => hq (by rw [e])
  · cases d with
    | none => rfl
    | some q => simp only [Team.laneResult, Team.advance]; unfold Team.writeLanes Team.setV; split <;> rfl

/-- Sub-elements of a result built per sub-element. -/
theorem subs_perSub (w : Nat) (f : Nat → Nat) (h : 64 / w * w ≤ 64) : Subs w (fun j => f j % 2 ^ w) (perSub w f) :=
  fun _ hj => subEl_fromSubs f h hj

/-- A lane instruction of two sources, per sub-element. -/
theorem lane2_runs {i : Instr} {s : State} {w : IW} {d : VDst} {a b : LSrc} {f : Nat → Nat → Nat → Nat}
    (h : exec i s = lane2 w d a b f s) (g : Nat → Nat → Nat)
    (hg : ∀ x j, f (iwBits w) (s.cur.sub (iwBits w) a x j) (s.cur.sub (iwBits w) b x j) % 2 ^ iwBits w = g x j) :
    Runs i s (LaneEffect 4 d (s.cur.srcFlags a ||| s.cur.srcFlags b) fun x => Subs (iwBits w) (g x)) := by
  refine runs_teamStep h ((laneResult_effect s.cur 4 d _ _).imp ?_)
  rintro x v hx ha rfl j hj
  exact (subs_perSub _ _ (iwBits_mul w).le j hj).trans (hg x j)

theorem lane1_runs {i : Instr} {s : State} {w : IW} {d : VDst} {a : LSrc} {f : Nat → Nat → Nat}
    (h : exec i s = lane1 w d a f s) (g : Nat → Nat → Nat)
    (hg : ∀ x j, f (iwBits w) (s.cur.sub (iwBits w) a x j) % 2 ^ iwBits w = g x j) :
    Runs i s (LaneEffect 4 d (s.cur.srcFlags a) fun x => Subs (iwBits w) (g x)) := by
  refine runs_teamStep h ((laneResult_effect s.cur 4 d _ _).imp ?_)
  rintro x v hx ha rfl j hj
  exact (subs_perSub _ _ (iwBits_mul w).le j hj).trans (hg x j)

theorem lane2d_runs {i : Instr} {s : State} {w : IW} {d : VDst} {a b : LSrc} {f : Nat → Nat → Nat → Nat → Nat}
    (h : exec i s = lane2d w d a b f s) (g : Nat → Nat → Nat)
    (hg : ∀ x j, f (iwBits w) (subEl (iwBits w) (s.cur.old d x) j) (s.cur.sub (iwBits w) a x j) (s.cur.sub (iwBits w) b x j) %
      2 ^ iwBits w = g x j) :
    Runs i s (LaneEffect 4 d (s.cur.srcFlags a ||| s.cur.srcFlags b ||| s.cur.oldFlags d) fun x => Subs (iwBits w) (g x)) := by
  refine runs_teamStep h ((laneResult_effect s.cur 4 d _ _).imp ?_)
  rintro x v hx ha rfl j hj
  exact (subs_perSub _ _ (iwBits_mul w).le j hj).trans (hg x j)

theorem laneWhole_runs {i : Instr} {s : State} {d : VDst} {a b : LSrc} {f : Nat → Word → Word → Word}
    (h : exec i s = laneWhole d a b f s) :
    Runs i s (LaneEffect 4 d (s.cur.srcFlags a ||| s.cur.srcFlags b)
      fun x v => v = f x (s.cur.laneSrc 64 a x) (s.cur.laneSrc 64 b x)) :=
  runs_teamStep h (laneResult_effect s.cur 4 d _ _)

/-! ## Masks -/

theorem foldl_bits (p : Nat → Bool) (n : Nat) :
    (List.range n).foldl (fun acc x => acc + b2n (p x) * 2 ^ x) 0 < 2 ^ n ∧
    ∀ x, ((List.range n).foldl (fun acc x => acc + b2n (p x) * 2 ^ x) 0).testBit x = (decide (x < n) && p x) := by
  induction n with
  | zero => simp
  | succ n ih =>
    obtain ⟨hlt, hb⟩ := ih
    rw [List.range_succ, List.foldl_append]
    simp only [List.foldl_cons, List.foldl_nil]
    set S := (List.range n).foldl (fun acc x => acc + b2n (p x) * 2 ^ x) 0
    have e : S + b2n (p n) * 2 ^ n = 2 ^ n * b2n (p n) + S := by ring
    have hb1 : b2n (p n) < 2 := by unfold b2n; split <;> omega
    refine ⟨?_, fun x => ?_⟩
    · rw [pow_succ]; nlinarith [Nat.two_pow_pos n]
    · rw [e, Nat.testBit_two_pow_mul_add _ hlt]
      by_cases hx : x < n
      · simp [hx, hb, Nat.lt_succ_of_lt hx]
      · by_cases hx' : x = n
        · subst hx'; cases h : p x <;> simp [b2n]
        · have h1 : ¬ x < n + 1 := by omega
          simp only [hx, if_false, h1, decide_false, Bool.false_and]
          obtain ⟨k, hk⟩ : ∃ k, x - n = k + 1 := ⟨x - n - 1, by omega⟩
          rw [hk, Nat.testBit_succ]
          have : b2n (p n) / 2 = 0 := by omega
          rw [this]; simp

theorem maskOf_getLsbD (n : Nat) (p : Nat → Bool) (x : Nat) (hx : x < 1024) :
    (maskOf n p).getLsbD x = (decide (x < n) && p x) := by
  rw [maskOf, BitVec.getLsbD_ofNat, (foldl_bits p n).2 x]
  simp [hx]

theorem full_getLsbD (t : Team) (x : Nat) (hx : x < 1024) : t.full.getLsbD x = decide (x < t.lanes) := by
  rw [Team.full, BitVec.getLsbD_ofNat, Nat.testBit_two_pow_sub_one]
  simp [hx]

theorem correct_getLsbD (t : Team) (m : Mask) (x : Nat) (hx : x < 1024) :
    (t.correct m).getLsbD x = (m.getLsbD x && decide (x < t.lanes) && !t.dead.getLsbD x) := by
  rw [Team.correct, BitVec.getLsbD_and, BitVec.getLsbD_and, full_getLsbD t x hx, BitVec.getLsbD_not]
  simp [hx]

theorem setMask_effect (t : Team) (d : MDst) (fl : FFlags) (m : Mask) :
    MaskEffect d fl (fun x => m.getLsbD x = true) t (((t.raise fl).setMask d m).advance 4) := by
  refine ⟨rfl, raised_of_raise _ _ _ rfl rfl, ?_, ?_, rfl⟩
  · intro x hx
    have h : (((t.raise fl).setMask d m).advance 4).m[d.val] = t.correct m := by
      show (t.m.set d.val (t.correct m) (by omega))[d.val] = _
      simp
    rw [h, correct_getLsbD t m x hx]
    simp only [Bool.and_eq_true, decide_eq_true_eq, Bool.not_eq_true']
    tauto
  · intro k hk
    show (t.m.set d.val (t.correct m) (by omega))[k.val] = _
    rw [Vector.getElem_set_ne _ _ (fun e => hk e.symm)]

theorem MaskEffect.iff {d : MDst} {fl : FFlags} {P Q : Nat → Prop} {a b : Team} (h : MaskEffect d fl P a b)
    (hq : ∀ x, x < a.lanes → x < 1024 → (P x ↔ Q x)) : MaskEffect d fl Q a b := by
  refine { h with value := fun x hx => (h.value x hx).trans ?_ }
  constructor <;> rintro ⟨h1, h2, h3⟩
  · exact ⟨h1, h2, (hq x h1 hx).1 h3⟩
  · exact ⟨h1, h2, (hq x h1 hx).2 h3⟩

/-- A compare of two sources. -/
theorem laneCmp_runs {i : Instr} {s : State} {w : IW} {d : MDst} {a b : LSrc} {p : Nat → Nat → Nat → Bool}
    (h : exec i s = laneCmp w d a b p s) (q : Nat → Prop)
    (hq : ∀ x, p (iwBits w) (s.cur.sub (iwBits w) a x 0) (s.cur.sub (iwBits w) b x 0) = true ↔ q x) :
    Runs i s (MaskEffect d (s.cur.srcFlags a ||| s.cur.srcFlags b) fun x => s.cur.active x = true ∧ q x) := by
  refine runs_teamStep h ((setMask_effect s.cur d _ _).iff fun x hx hx' => ?_)
  rw [maskOf_getLsbD _ _ _ hx']
  simp [hx, hq]

theorem laneCmpImm_runs {i : Instr} {s : State} {w : IW} {d : MDst} {a : LSrc} {imm : BitVec 7} {p : Nat → Nat → Nat → Bool}
    (h : exec i s = laneCmpImm w d a imm p s) (q : Nat → Prop)
    (hq : ∀ x, p (iwBits w) (s.cur.sub (iwBits w) a x 0) (wrap (iwBits w) imm.toInt) = true ↔ q x) :
    Runs i s (MaskEffect d (s.cur.srcFlags a) fun x => s.cur.active x = true ∧ q x) := by
  refine runs_teamStep h ((setMask_effect s.cur d _ _).iff fun x hx hx' => ?_)
  rw [maskOf_getLsbD _ _ _ hx']
  simp [hx, hq]

/-! ## Uniform results -/

/-- The common end of every uniform instruction that pushes its result. -/
theorem uniResult_effect (t : Team) (d : SDst) (fl : FFlags) (v : Word) :
    UniEffect d fl v t (((t.raise fl).uniResult d v).advance 4) := by
  have hlat : ∀ u : Team, (u.pushUni v).fvalid.getLsbD 4 = true := by
    intro u; simp [Team.pushUni]
  have hlo : ∀ (u : Team) x, x < 4 → (u.pushUni v).fvalid.getLsbD x = u.fvalid.getLsbD x := by
    intro u x hx
    have : x = 0 ∨ x = 1 ∨ x = 2 ∨ x = 3 := by omega
    simp only [Team.pushUni]
    rcases this with rfl | rfl | rfl | rfl <;> simp
  have hhi : ∀ (u : Team) x, x < 3 → (u.pushUni v).fvalid.getLsbD (x + 5) = u.fvalid.getLsbD (x + 4) := by
    intro u x hx
    have : x = 0 ∨ x = 1 ∨ x = 2 := by omega
    simp only [Team.pushUni]
    rcases this with rfl | rfl | rfl <;> simp
  constructor
  · cases d <;> rfl
  · apply raised_of_raise <;> cases d <;> rfl
  · cases d <;> exact ⟨rfl, rfl, rfl, rfl, rfl⟩
  · intro x
    cases d <;> exact ⟨hlat _, hlo _ x, hhi _ x⟩
  · rintro r rfl
    refine ⟨?_, ?_⟩
    · show (t.s.set r.val v)[r] = v
      simp
    · show (t.deadS &&& ~~~ (1#32 <<< r.val)).getLsbD r.val = false
      simp [r.isLt]
  · intro r hr
    cases d with
    | none => exact ⟨rfl, rfl⟩
    | some q =>
      have hq : q.val ≠ r.val := fun e => hr (by rw [Fin.ext e])
      refine ⟨?_, ?_⟩
      · show (t.s.set q.val v)[r.val] = t.s[r.val]
        rw [Vector.getElem_set_ne _ _ hq]
      · show (t.deadS &&& ~~~ (1#32 <<< q.val)).getLsbD r.val = t.deadS.getLsbD r.val
        have : ¬ (q.val ≤ r.val ∧ r.val - q.val = 0) := by omega
        simp [r.isLt]
        intro _
        omega
  · cases d <;> rfl

theorem uni2_runs {i : Instr} {s : State} {d : SDst} {a b : USrc} {f : Word → Word → Word} (h : exec i s = uni2 d a b f s) :
    Runs i s (UniEffect d (s.cur.uniFlags a ||| s.cur.uniFlags b) (f (s.cur.uniSrc a) (s.cur.uniSrc b))) :=
  runs_teamStep h (uniResult_effect s.cur d _ _)

theorem uni1_runs {i : Instr} {s : State} {d : SDst} {a : USrc} {f : Word → Word} (h : exec i s = uni1 d a f s) :
    Runs i s (UniEffect d (s.cur.uniFlags a) (f (s.cur.uniSrc a))) :=
  runs_teamStep h (uniResult_effect s.cur d _ _)

end Sys2Proof
end

