-- ==== Sys2Proof/Laws/Exec.lean ====
section
/-! SUPPORT. For each constructor, the meaning that `exec` calls: the equations by which a proof goes from `exec` to it. -/
namespace Sys2Proof.Machine
open Sys2Proof

theorem exec_add (w : IW) (d : VDst) (a b : LSrc) (s : State) :
    exec (.add w d a b) s = execAdd w d a b s := rfl
theorem exec_sub (w : IW) (d : VDst) (a b : LSrc) (s : State) :
    exec (.sub w d a b) s = execSub w d a b s := rfl
theorem exec_addSat (w : IW) (d : VDst) (a b : LSrc) (s : State) :
    exec (.addSat w d a b) s = execAddSat w d a b s := rfl
theorem exec_addSatu (w : IW) (d : VDst) (a b : LSrc) (s : State) :
    exec (.addSatu w d a b) s = execAddSatu w d a b s := rfl
theorem exec_subSat (w : IW) (d : VDst) (a b : LSrc) (s : State) :
    exec (.subSat w d a b) s = execSubSat w d a b s := rfl
theorem exec_subSatu (w : IW) (d : VDst) (a b : LSrc) (s : State) :
    exec (.subSatu w d a b) s = execSubSatu w d a b s := rfl
theorem exec_mul (w : IW) (d : VDst) (a b : LSrc) (s : State) :
    exec (.mul w d a b) s = execMul w d a b s := rfl
theorem exec_mulh (w : IW) (d : VDst) (a b : LSrc) (s : State) :
    exec (.mulh w d a b) s = execMulh w d a b s := rfl
theorem exec_mulhu (w : IW) (d : VDst) (a b : LSrc) (s : State) :
    exec (.mulhu w d a b) s = execMulhu w d a b s := rfl
theorem exec_mad (w : IW) (d : VDst) (a b : LSrc) (s : State) :
    exec (.mad w d a b) s = execMad w d a b s := rfl
theorem exec_addc (m : CMask) (d : VDst) (a b : LSrc) (s : State) :
    exec (.addc m d a b) s = execAddc m d a b s := rfl
theorem exec_subb (m : CMask) (d : VDst) (a b : LSrc) (s : State) :
    exec (.subb m d a b) s = execSubb m d a b s := rfl
theorem exec_min (w : IW) (d : VDst) (a b : LSrc) (s : State) :
    exec (.min w d a b) s = execMin w d a b s := rfl
theorem exec_minu (w : IW) (d : VDst) (a b : LSrc) (s : State) :
    exec (.minu w d a b) s = execMinu w d a b s := rfl
theorem exec_max (w : IW) (d : VDst) (a b : LSrc) (s : State) :
    exec (.max w d a b) s = execMax w d a b s := rfl
theorem exec_maxu (w : IW) (d : VDst) (a b : LSrc) (s : State) :
    exec (.maxu w d a b) s = execMaxu w d a b s := rfl
theorem exec_abs (w : IW) (d : VDst) (a : LSrc) (s : State) :
    exec (.abs w d a) s = execAbs w d a s := rfl
theorem exec_and (w : IW) (d : VDst) (a b : LSrc) (s : State) :
    exec (.and w d a b) s = execAnd w d a b s := rfl
theorem exec_or (w : IW) (d : VDst) (a b : LSrc) (s : State) :
    exec (.or w d a b) s = execOr w d a b s := rfl
theorem exec_xor (w : IW) (d : VDst) (a b : LSrc) (s : State) :
    exec (.xor w d a b) s = execXor w d a b s := rfl
theorem exec_shl (w : IW) (d : VDst) (a b : LSrc) (s : State) :
    exec (.shl w d a b) s = execShl w d a b s := rfl
theorem exec_shr (w : IW) (d : VDst) (a b : LSrc) (s : State) :
    exec (.shr w d a b) s = execShr w d a b s := rfl
theorem exec_sra (w : IW) (d : VDst) (a b : LSrc) (s : State) :
    exec (.sra w d a b) s = execSra w d a b s := rfl
theorem exec_rot (w : IW) (d : VDst) (a b : LSrc) (s : State) :
    exec (.rot w d a b) s = execRot w d a b s := rfl
theorem exec_clz (w : IW) (d : VDst) (a : LSrc) (s : State) :
    exec (.clz w d a) s = execClz w d a s := rfl
theorem exec_pop (w : IW) (d : VDst) (a : LSrc) (s : State) :
    exec (.pop w d a) s = execPop w d a s := rfl
theorem exec_bfe (w : IW) (d : VDst) (a b : LSrc) (s : State) :
    exec (.bfe w d a b) s = execBfe w d a b s := rfl
theorem exec_bfi (w : IW) (d : VDst) (a b : LSrc) (s : State) :
    exec (.bfi w d a b) s = execBfi w d a b s := rfl
theorem exec_sel (m : CMask) (d : VDst) (a b : LSrc) (s : State) :
    exec (.sel m d a b) s = execSel m d a b s := rfl
theorem exec_mov (d : VDst) (a : LSrc) (s : State) :
    exec (.mov d a) s = execMov d a s := rfl
theorem exec_cmpEq (w : IW) (d : MDst) (a b : LSrc) (s : State) :
    exec (.cmpEq w d a b) s = execCmpEq w d a b s := rfl
theorem exec_cmpNe (w : IW) (d : MDst) (a b : LSrc) (s : State) :
    exec (.cmpNe w d a b) s = execCmpNe w d a b s := rfl
theorem exec_cmpLt (w : IW) (d : MDst) (a b : LSrc) (s : State) :
    exec (.cmpLt w d a b) s = execCmpLt w d a b s := rfl
theorem exec_cmpLtu (w : IW) (d : MDst) (a b : LSrc) (s : State) :
    exec (.cmpLtu w d a b) s = execCmpLtu w d a b s := rfl
theorem exec_cmpLe (w : IW) (d : MDst) (a b : LSrc) (s : State) :
    exec (.cmpLe w d a b) s = execCmpLe w d a b s := rfl
theorem exec_cmpLeu (w : IW) (d : MDst) (a b : LSrc) (s : State) :
    exec (.cmpLeu w d a b) s = execCmpLeu w d a b s := rfl
theorem exec_addImm (w : IW) (d : VDst) (a : LSrc) (imm : BitVec 7) (s : State) :
    exec (.addImm w d a imm) s = execAddImm w d a imm s := rfl
theorem exec_andImm (w : IW) (d : VDst) (a : LSrc) (imm : BitVec 7) (s : State) :
    exec (.andImm w d a imm) s = execAndImm w d a imm s := rfl
theorem exec_orImm (w : IW) (d : VDst) (a : LSrc) (imm : BitVec 7) (s : State) :
    exec (.orImm w d a imm) s = execOrImm w d a imm s := rfl
theorem exec_xorImm (w : IW) (d : VDst) (a : LSrc) (imm : BitVec 7) (s : State) :
    exec (.xorImm w d a imm) s = execXorImm w d a imm s := rfl
theorem exec_shlImm (w : IW) (d : VDst) (a : LSrc) (imm : BitVec 7) (s : State) :
    exec (.shlImm w d a imm) s = execShlImm w d a imm s := rfl
theorem exec_shrImm (w : IW) (d : VDst) (a : LSrc) (imm : BitVec 7) (s : State) :
    exec (.shrImm w d a imm) s = execShrImm w d a imm s := rfl
theorem exec_sraImm (w : IW) (d : VDst) (a : LSrc) (imm : BitVec 7) (s : State) :
    exec (.sraImm w d a imm) s = execSraImm w d a imm s := rfl
theorem exec_rotImm (w : IW) (d : VDst) (a : LSrc) (imm : BitVec 7) (s : State) :
    exec (.rotImm w d a imm) s = execRotImm w d a imm s := rfl
theorem exec_li (w : IW) (d : VDst) (imm : BitVec 7) (s : State) :
    exec (.li w d imm) s = execLi w d imm s := rfl
theorem exec_cmpEqImm (w : IW) (d : MDst) (a : LSrc) (imm : BitVec 7) (s : State) :
    exec (.cmpEqImm w d a imm) s = execCmpEqImm w d a imm s := rfl
theorem exec_cmpLtImm (w : IW) (d : MDst) (a : LSrc) (imm : BitVec 7) (s : State) :
    exec (.cmpLtImm w d a imm) s = execCmpLtImm w d a imm s := rfl
theorem exec_fadd (w : FW) (d : VDst) (a b : LSrc) (s : State) :
    exec (.fadd w d a b) s = execFadd w d a b s := rfl
theorem exec_fsub (w : FW) (d : VDst) (a b : LSrc) (s : State) :
    exec (.fsub w d a b) s = execFsub w d a b s := rfl
theorem exec_fmul (w : FW) (d : VDst) (a b : LSrc) (s : State) :
    exec (.fmul w d a b) s = execFmul w d a b s := rfl
theorem exec_fma (w : FW) (d : VDst) (a b : LSrc) (s : State) :
    exec (.fma w d a b) s = execFma w d a b s := rfl
theorem exec_fma3 (w : FW) (d : VDst) (a b c : LSrc) (ftz np na : Bool) (s : State) :
    exec (.fma3 w d a b c ftz np na) s = execFma3 w d a b c ftz np na s := rfl
theorem exec_fmin (w : FW) (d : VDst) (a b : LSrc) (s : State) :
    exec (.fmin w d a b) s = execFmin w d a b s := rfl
theorem exec_fmax (w : FW) (d : VDst) (a b : LSrc) (s : State) :
    exec (.fmax w d a b) s = execFmax w d a b s := rfl
theorem exec_fabs (w : FW) (d : VDst) (a : LSrc) (s : State) :
    exec (.fabs w d a) s = execFabs w d a s := rfl
theorem exec_fneg (w : FW) (d : VDst) (a : LSrc) (s : State) :
    exec (.fneg w d a) s = execFneg w d a s := rfl
theorem exec_fcmpEq (w : FW) (d : MDst) (a b : LSrc) (s : State) :
    exec (.fcmpEq w d a b) s = execFcmpEq w d a b s := rfl
theorem exec_fcmpNe (w : FW) (d : MDst) (a b : LSrc) (s : State) :
    exec (.fcmpNe w d a b) s = execFcmpNe w d a b s := rfl
theorem exec_fcmpLt (w : FW) (d : MDst) (a b : LSrc) (s : State) :
    exec (.fcmpLt w d a b) s = execFcmpLt w d a b s := rfl
theorem exec_fcmpLe (w : FW) (d : MDst) (a b : LSrc) (s : State) :
    exec (.fcmpLe w d a b) s = execFcmpLe w d a b s := rfl
theorem exec_fcmpUn (w : FW) (d : MDst) (a b : LSrc) (s : State) :
    exec (.fcmpUn w d a b) s = execFcmpUn w d a b s := rfl
theorem exec_frnd (w : FW) (d : VDst) (a : LSrc) (s : State) :
    exec (.frnd w d a) s = execFrnd w d a s := rfl
theorem exec_fclass (w : FW) (d : VDst) (a : LSrc) (s : State) :
    exec (.fclass w d a) s = execFclass w d a s := rfl
theorem exec_faddFtz (w : FW) (d : VDst) (a b : LSrc) (s : State) :
    exec (.faddFtz w d a b) s = execFaddFtz w d a b s := rfl
theorem exec_fsubFtz (w : FW) (d : VDst) (a b : LSrc) (s : State) :
    exec (.fsubFtz w d a b) s = execFsubFtz w d a b s := rfl
theorem exec_fmulFtz (w : FW) (d : VDst) (a b : LSrc) (s : State) :
    exec (.fmulFtz w d a b) s = execFmulFtz w d a b s := rfl
theorem exec_fmaFtz (w : FW) (d : VDst) (a b : LSrc) (s : State) :
    exec (.fmaFtz w d a b) s = execFmaFtz w d a b s := rfl
theorem exec_fcvt (d : VDst) (a : LSrc) (b : BReg) (s : State) :
    exec (.fcvt d a b) s = execFcvt d a b s := rfl
theorem exec_fcvti (w : FW) (d : VDst) (a : LSrc) (s : State) :
    exec (.fcvti w d a) s = execFcvti w d a s := rfl
theorem exec_fcvtiu (w : FW) (d : VDst) (a : LSrc) (s : State) :
    exec (.fcvtiu w d a) s = execFcvtiu w d a s := rfl
theorem exec_icvtf (w : FW) (d : VDst) (a : LSrc) (s : State) :
    exec (.icvtf w d a) s = execIcvtf w d a s := rfl
theorem exec_icvtfu (w : FW) (d : VDst) (a : LSrc) (s : State) :
    exec (.icvtfu w d a) s = execIcvtfu w d a s := rfl
theorem exec_pack (w : IW) (d : VDst) (a b : LSrc) (s : State) :
    exec (.pack w d a b) s = execPack w d a b s := rfl
theorem exec_unpack (w : IW) (d : VDst) (a b : LSrc) (s : State) :
    exec (.unpack w d a b) s = execUnpack w d a b s := rfl
theorem exec_swz (w : IW) (d : VDst) (a b : LSrc) (s : State) :
    exec (.swz w d a b) s = execSwz w d a b s := rfl
theorem exec_frcp (w : FW) (d : VDst) (a : LSrc) (s : State) :
    exec (.frcp w d a) s = execFrcp w d a s := rfl
theorem exec_frsq (w : FW) (d : VDst) (a : LSrc) (s : State) :
    exec (.frsq w d a) s = execFrsq w d a s := rfl
theorem exec_fsqrt (w : FW) (d : VDst) (a : LSrc) (s : State) :
    exec (.fsqrt w d a) s = execFsqrt w d a s := rfl
theorem exec_fex2 (w : FW) (d : VDst) (a : LSrc) (s : State) :
    exec (.fex2 w d a) s = execFex2 w d a s := rfl
theorem exec_flg2 (w : FW) (d : VDst) (a : LSrc) (s : State) :
    exec (.flg2 w d a) s = execFlg2 w d a s := rfl
theorem exec_fsin (w : FW) (d : VDst) (a : LSrc) (s : State) :
    exec (.fsin w d a) s = execFsin w d a s := rfl
theorem exec_fcos (w : FW) (d : VDst) (a : LSrc) (s : State) :
    exec (.fcos w d a) s = execFcos w d a s := rfl
theorem exec_shfl (w : IW) (d : VDst) (a b : LSrc) (s : State) :
    exec (.shfl w d a b) s = execShfl w d a b s := rfl
theorem exec_shfli (d : VDst) (a : LSrc) (p : ShflPat) (k : BitVec 5) (s : State) :
    exec (.shfli d a p k) s = execShfli d a p k s := rfl
theorem exec_vote (v : VoteKind) (d : MDst) (a : LSrc) (s : State) :
    exec (.vote v d a) s = execVote v d a s := rfl
theorem exec_lget (w : IW) (d : VDst) (a b : LSrc) (s : State) :
    exec (.lget w d a b) s = execLget w d a b s := rfl
theorem exec_lput (w : IW) (d : VDst) (a b : LSrc) (s : State) :
    exec (.lput w d a b) s = execLput w d a b s := rfl
theorem exec_red (op : RedKind) (d : VDst) (a : LSrc) (s : State) :
    exec (.red op d a) s = execRed op d a s := rfl
theorem exec_scan (op : RedKind) (d : VDst) (a : LSrc) (s : State) :
    exec (.scan op d a) s = execScan op d a s := rfl
theorem exec_scanEx (op : RedKind) (d : VDst) (a : LSrc) (s : State) :
    exec (.scanEx op d a) s = execScanEx op d a s := rfl
theorem exec_segred (op : RedKind) (d : VDst) (a : LSrc) (s : State) :
    exec (.segred op d a) s = execSegred op d a s := rfl
theorem exec_walki (d : VDst) (a : LSrc) (b : BReg) (s : State) :
    exec (.walki d a b) s = execWalki d a b s := rfl
theorem exec_walk (d : VDst) (a : LSrc) (b : BReg) (s : State) :
    exec (.walk d a b) s = execWalk d a b s := rfl
theorem exec_mmul (q : QReg) (d : VDst) (a b : LSrc) (s : State) :
    exec (.mmul q d a b) s = execMmul q d a b s := rfl
theorem exec_madd (q : QReg) (d : VDst) (a b : LSrc) (s : State) :
    exec (.madd q d a b) s = execMadd q d a b s := rfl
theorem exec_msub (q : QReg) (d : VDst) (a b : LSrc) (s : State) :
    exec (.msub q d a b) s = execMsub q d a b s := rfl
theorem exec_bfly (q : QReg) (d : VDst) (a : VReg) (b : LSrc) (s : State) :
    exec (.bfly q d a b) s = execBfly q d a b s := rfl
theorem exec_ibfly (q : QReg) (d : VDst) (a : VReg) (b : LSrc) (s : State) :
    exec (.ibfly q d a b) s = execIbfly q d a b s := rfl
theorem exec_mred (q : QReg) (d : VDst) (a b : LSrc) (s : State) :
    exec (.mred q d a b) s = execMred q d a b s := rfl
theorem exec_ld (esc : Bool) (o : Ord) (sc : Scope) (w : IW) (x : LdAux) (d : VReg) (a : LSrc) (s : State) :
    exec (.ld esc o sc w x d a) s = execLd esc o sc w x d a s := rfl
theorem exec_st (esc : Bool) (o : Ord) (sc : Scope) (w : IW) (x : StAux) (d a : LSrc) (s : State) :
    exec (.st esc o sc w x d a) s = execSt esc o sc w x d a s := rfl
theorem exec_ldx (esc : Bool) (o : Ord) (sc : Scope) (w : IW) (k : Fin 4) (d : VReg) (a base : LSrc) (off : BitVec 18) (s : State) :
    exec (.ldx esc o sc w k d a base off) s = execLdx esc o sc w k d a base off s := rfl
theorem exec_stx (esc : Bool) (o : Ord) (sc : Scope) (w : IW) (k : Fin 4) (d a base : LSrc) (off : BitVec 18) (s : State) :
    exec (.stx esc o sc w k d a base off) s = execStx esc o sc w k d a base off s := rfl
theorem exec_stf (esc : Bool) (o : Ord) (sc : Scope) (w : IW) (d a flag : LSrc) (inc : BitVec 18) (s : State) :
    exec (.stf esc o sc w d a flag inc) s = execStf esc o sc w d a flag inc s := rfl
theorem exec_lds (o : Ord) (sc : SScope) (w : IW) (x : LdAux) (d : VReg) (a : LSrc) (s : State) :
    exec (.lds o sc w x d a) s = execLds o sc w x d a s := rfl
theorem exec_sts (o : Ord) (sc : SScope) (w : IW) (x : StAux) (d a : LSrc) (s : State) :
    exec (.sts o sc w x d a) s = execSts o sc w x d a s := rfl
theorem exec_atom (esc : Bool) (o : Ord) (sc : Scope) (w : AW) (op : AtomAux) (d : VReg) (a : LSrc) (s : State) :
    exec (.atom esc o sc w op d a) s = execAtom esc o sc w op d a s := rfl
theorem exec_atomOffset (esc : Bool) (o : Ord) (sc : Scope) (op : AtomKind) (d : VReg) (a c : LSrc) (off : BitVec 14) (s : State) :
    exec (.atomOffset esc o sc op d a c off) s = execAtomOffset esc o sc op d a c off s := rfl
theorem exec_cas (esc : Bool) (o : Ord) (sc : Scope) (w : AW) (d : VReg) (a e n : LSrc) (s : State) :
    exec (.cas esc o sc w d a e n) s = execCas esc o sc w d a e n s := rfl
theorem exec_redm (o : Ord) (sc : Scope) (op : RedmKind) (d a : LSrc) (s : State) :
    exec (.redm o sc op d a) s = execRedm o sc op d a s := rfl
theorem exec_sadd (d : SDst) (a b : USrc) (s : State) :
    exec (.sadd d a b) s = execSadd d a b s := rfl
theorem exec_ssub (d : SDst) (a b : USrc) (s : State) :
    exec (.ssub d a b) s = execSsub d a b s := rfl
theorem exec_smul (d : SDst) (a b : USrc) (s : State) :
    exec (.smul d a b) s = execSmul d a b s := rfl
theorem exec_smulh (d : SDst) (a b : USrc) (s : State) :
    exec (.smulh d a b) s = execSmulh d a b s := rfl
theorem exec_smulhu (d : SDst) (a b : USrc) (s : State) :
    exec (.smulhu d a b) s = execSmulhu d a b s := rfl
theorem exec_sdiv (d : SDst) (a b : USrc) (s : State) :
    exec (.sdiv d a b) s = execSdiv d a b s := rfl
theorem exec_sdivu (d : SDst) (a b : USrc) (s : State) :
    exec (.sdivu d a b) s = execSdivu d a b s := rfl
theorem exec_srem (d : SDst) (a b : USrc) (s : State) :
    exec (.srem d a b) s = execSrem d a b s := rfl
theorem exec_sremu (d : SDst) (a b : USrc) (s : State) :
    exec (.sremu d a b) s = execSremu d a b s := rfl
theorem exec_sand (d : SDst) (a b : USrc) (s : State) :
    exec (.sand d a b) s = execSand d a b s := rfl
theorem exec_sor (d : SDst) (a b : USrc) (s : State) :
    exec (.sor d a b) s = execSor d a b s := rfl
theorem exec_sxor (d : SDst) (a b : USrc) (s : State) :
    exec (.sxor d a b) s = execSxor d a b s := rfl
theorem exec_sshl (d : SDst) (a b : USrc) (s : State) :
    exec (.sshl d a b) s = execSshl d a b s := rfl
theorem exec_sshr (d : SDst) (a b : USrc) (s : State) :
    exec (.sshr d a b) s = execSshr d a b s := rfl
theorem exec_ssra (d : SDst) (a b : USrc) (s : State) :
    exec (.ssra d a b) s = execSsra d a b s := rfl
theorem exec_smin (d : SDst) (a b : USrc) (s : State) :
    exec (.smin d a b) s = execSmin d a b s := rfl
theorem exec_sminu (d : SDst) (a b : USrc) (s : State) :
    exec (.sminu d a b) s = execSminu d a b s := rfl
theorem exec_smax (d : SDst) (a b : USrc) (s : State) :
    exec (.smax d a b) s = execSmax d a b s := rfl
theorem exec_smaxu (d : SDst) (a b : USrc) (s : State) :
    exec (.smaxu d a b) s = execSmaxu d a b s := rfl
theorem exec_sclz (d : SDst) (a : USrc) (s : State) :
    exec (.sclz d a) s = execSclz d a s := rfl
theorem exec_spop (d : SDst) (a : USrc) (s : State) :
    exec (.spop d a) s = execSpop d a s := rfl
theorem exec_sbfe (d : SDst) (a b : USrc) (s : State) :
    exec (.sbfe d a b) s = execSbfe d a b s := rfl
theorem exec_sbfi (d : SDst) (a b : USrc) (s : State) :
    exec (.sbfi d a b) s = execSbfi d a b s := rfl
theorem exec_smov (d : SDst) (a : USrc) (s : State) :
    exec (.smov d a) s = execSmov d a s := rfl
theorem exec_saddImm (d : SDst) (a : USrc) (imm : BitVec 11) (s : State) :
    exec (.saddImm d a imm) s = execSaddImm d a imm s := rfl
theorem exec_smulImm (d : SDst) (a : USrc) (imm : BitVec 11) (s : State) :
    exec (.smulImm d a imm) s = execSmulImm d a imm s := rfl
theorem exec_sandImm (d : SDst) (a : USrc) (imm : BitVec 11) (s : State) :
    exec (.sandImm d a imm) s = execSandImm d a imm s := rfl
theorem exec_sorImm (d : SDst) (a : USrc) (imm : BitVec 11) (s : State) :
    exec (.sorImm d a imm) s = execSorImm d a imm s := rfl
theorem exec_sxorImm (d : SDst) (a : USrc) (imm : BitVec 11) (s : State) :
    exec (.sxorImm d a imm) s = execSxorImm d a imm s := rfl
theorem exec_sshlImm (d : SDst) (a : USrc) (imm : BitVec 11) (s : State) :
    exec (.sshlImm d a imm) s = execSshlImm d a imm s := rfl
theorem exec_sshrImm (d : SDst) (a : USrc) (imm : BitVec 11) (s : State) :
    exec (.sshrImm d a imm) s = execSshrImm d a imm s := rfl
theorem exec_ssraImm (d : SDst) (a : USrc) (imm : BitVec 11) (s : State) :
    exec (.ssraImm d a imm) s = execSsraImm d a imm s := rfl
theorem exec_sliI (d : SReg) (imm : BitVec 18) (s : State) :
    exec (.sliI d imm) s = execSliI d imm s := rfl
theorem exec_sliZ (d : SReg) (imm : BitVec 18) (s : State) :
    exec (.sliZ d imm) s = execSliZ d imm s := rfl
theorem exec_slil (d : SReg) (imm : BitVec 18) (s : State) :
    exec (.slil d imm) s = execSlil d imm s := rfl
theorem exec_slim (d : SReg) (imm : BitVec 18) (s : State) :
    exec (.slim d imm) s = execSlim d imm s := rfl
theorem exec_slih (d : SReg) (imm : BitVec 18) (s : State) :
    exec (.slih d imm) s = execSlih d imm s := rfl
theorem exec_sliF64 (d : SReg) (x : BitVec 16) (s : State) :
    exec (.sliF64 d x) s = execSliF64 d x s := rfl
theorem exec_sliF32 (d : SReg) (x : BitVec 16) (s : State) :
    exec (.sliF32 d x) s = execSliF32 d x s := rfl
theorem exec_sliF16 (d : SReg) (x : BitVec 16) (s : State) :
    exec (.sliF16 d x) s = execSliF16 d x s := rfl
theorem exec_sadr (d : SReg) (imm : BitVec 18) (s : State) :
    exec (.sadr d imm) s = execSadr d imm s := rfl
theorem exec_scmp (c : SCond) (d : SDst) (a b : USrc) (s : State) :
    exec (.scmp c d a b) s = execScmp c d a b s := rfl
theorem exec_ssel (d : SDst) (a b : USrc) (c : SReg) (s : State) :
    exec (.ssel d a b c) s = execSsel d a b c s := rfl
theorem exec_br (off : BitVec 24) (s : State) :
    exec (.br off) s = execBr off s := rfl
theorem exec_bc (c : BcCond) (a b : USrc) (off : BitVec 9) (s : State) :
    exec (.bc c a b off) s = execBc c a b off s := rfl
theorem exec_jmp (a : USrc) (s : State) :
    exec (.jmp a) s = execJmp a s := rfl
theorem exec_call (d : SReg) (imm : BitVec 18) (s : State) :
    exec (.call d imm) s = execCall d imm s := rfl
theorem exec_ret (a : USrc) (s : State) :
    exec (.ret a) s = execRet a s := rfl
theorem exec_loop (a : SReg) (off : BitVec 9) (s : State) :
    exec (.loop a off) s = execLoop a off s := rfl
theorem exec_exit (s : State) :
    exec (.exit) s = execExit s := rfl
theorem exec_yield (s : State) :
    exec (.yield) s = execYield s := rfl
theorem exec_nop (s : State) :
    exec (.nop) s = execNop s := rfl
theorem exec_emit (k : Fin 4) (d : SDst) (a b : USrc) (s : State) :
    exec (.emit k d a b) s = execEmit k d a b s := rfl
theorem exec_launch (d : SDst) (a : USrc) (s : State) :
    exec (.launch d a) s = execLaunch d a s := rfl
theorem exec_widf (d : SDst) (f : Fin 6) (s : State) :
    exec (.widf d f) s = execWidf d f s := rfl
theorem exec_dvg (m : MReg) (off : BitVec 9) (s : State) :
    exec (.dvg m off) s = execDvg m off s := rfl
theorem exec_flip (off : BitVec 9) (s : State) :
    exec (.flip off) s = execFlip off s := rfl
theorem exec_cvg (s : State) :
    exec (.cvg) s = execCvg s := rfl
theorem exec_bany (m : MReg) (off : BitVec 9) (s : State) :
    exec (.bany m off) s = execBany m off s := rfl
theorem exec_bnone (m : MReg) (off : BitVec 9) (s : State) :
    exec (.bnone m off) s = execBnone m off s := rfl
theorem exec_mand (d : MDst) (a b : MReg) (s : State) :
    exec (.mand d a b) s = execMand d a b s := rfl
theorem exec_mor (d : MDst) (a b : MReg) (s : State) :
    exec (.mor d a b) s = execMor d a b s := rfl
theorem exec_mandn (d : MDst) (a b : MReg) (s : State) :
    exec (.mandn d a b) s = execMandn d a b s := rfl
theorem exec_mxor (d : MDst) (a b : MReg) (s : State) :
    exec (.mxor d a b) s = execMxor d a b s := rfl
theorem exec_mnot (d : MDst) (a : MReg) (s : State) :
    exec (.mnot d a) s = execMnot d a s := rfl
theorem exec_mmov (d : MDst) (a : MReg) (s : State) :
    exec (.mmov d a) s = execMmov d a s := rfl
theorem exec_mcnt (d : SDst) (m : MReg) (s : State) :
    exec (.mcnt d m) s = execMcnt d m s := rfl
theorem exec_mfirst (d : SDst) (m : MReg) (s : State) :
    exec (.mfirst d m) s = execMfirst d m s := rfl
theorem exec_mlw (d : SDst) (m : MReg) (k : Fin 32) (s : State) :
    exec (.mlw d m k) s = execMlw d m k s := rfl
theorem exec_wait (c : WaitClass) (n : BitVec 8) (s : State) :
    exec (.wait c n) s = execWait c n s := rfl
theorem exec_waitq (a : USrc) (q : Fin 4) (s : State) :
    exec (.waitq a q) s = execWaitq a q s := rfl
theorem exec_ldu (o : Ord) (sc : Scope) (w : IW) (d : SDst) (a b : USrc) (s : State) :
    exec (.ldu o sc w d a b) s = execLdu o sc w d a b s := rfl
theorem exec_stu (o : Ord) (sc : Scope) (w : IW) (d a b : USrc) (s : State) :
    exec (.stu o sc w d a b) s = execStu o sc w d a b s := rfl
theorem exec_atomu (o : Ord) (sc : Scope) (op : AtomuKind) (d : SDst) (a : USrc) (s : State) :
    exec (.atomu o sc op d a) s = execAtomu o sc op d a s := rfl
theorem exec_casu (o : Ord) (sc : Scope) (w : AW) (d : SDst) (a e n : USrc) (s : State) :
    exec (.casu o sc w d a e n) s = execCasu o sc w d a e n s := rfl
theorem exec_tlook (d : SDst) (a b : USrc) (s : State) :
    exec (.tlook d a b) s = execTlook d a b s := rfl
theorem exec_tins (d : SDst) (a b : USrc) (s : State) :
    exec (.tins d a b) s = execTins d a b s := rfl
theorem exec_tinv (d : SDst) (a b : USrc) (s : State) :
    exec (.tinv d a b) s = execTinv d a b s := rfl
theorem exec_fence (o : FenceOrd) (sc : Scope) (s : State) :
    exec (.fence o sc) s = execFence o sc s := rfl
theorem exec_qfence (qs : BitVec 4) (s : State) :
    exec (.qfence qs) s = execQfence qs s := rfl
theorem exec_arrive (o : Ord) (sc : Scope) (d : SDst) (a b : USrc) (s : State) :
    exec (.arrive o sc d a b) s = execArrive o sc d a b s := rfl
theorem exec_await (o : Ord) (sc : Scope) (d : SDst) (a b : USrc) (s : State) :
    exec (.await o sc d a b) s = execAwait o sc d a b s := rfl
theorem exec_arwait (o : Ord) (sc : Scope) (d : SDst) (a b : USrc) (s : State) :
    exec (.arwait o sc d a b) s = execArwait o sc d a b s := rfl
theorem exec_mwait (o : Ord) (sc : Scope) (d : SDst) (a b : USrc) (s : State) :
    exec (.mwait o sc d a b) s = execMwait o sc d a b s := rfl
theorem exec_lkacq (o : Ord) (sc : Scope) (d : SDst) (a : USrc) (heir : Option USrc) (t : USrc) (orph tryOnce : Bool) (s : State) :
    exec (.lkacq o sc d a heir t orph tryOnce) s = execLkacq o sc d a heir t orph tryOnce s := rfl
theorem exec_lkrel (o : Ord) (sc : Scope) (a : USrc) (s : State) :
    exec (.lkrel o sc a) s = execLkrel o sc a s := rfl
theorem exec_prnew (o : Ord) (sc : Scope) (d : SDst) (a heir v : USrc) (s : State) :
    exec (.prnew o sc d a heir v) s = execPrnew o sc d a heir v s := rfl
theorem exec_prful (o : Ord) (sc : Scope) (a b : USrc) (s : State) :
    exec (.prful o sc a b) s = execPrful o sc a b s := rfl
theorem exec_prwait (o : Ord) (sc : Scope) (d : SDst) (a : USrc) (s : State) :
    exec (.prwait o sc d a) s = execPrwait o sc d a s := rfl
theorem exec_hold (k : HoldKind) (sc : Scope) (d : SDst) (a heir : USrc) (s : State) :
    exec (.hold k sc d a heir) s = execHold k sc d a heir s := rfl
theorem exec_unhold (k : ObjKind) (a : USrc) (s : State) :
    exec (.unhold k a) s = execUnhold k a s := rfl
theorem exec_heir (a b : USrc) (s : State) :
    exec (.heir a b) s = execHeir a b s := rfl
theorem exec_mtask (d : SDst) (a : Fin 4) (s : State) :
    exec (.mtask d a) s = execMtask d a s := rfl
theorem exec_cpy (ch : Fin 8) (d a b : USrc) (s : State) :
    exec (.cpy ch d a b) s = execCpy ch d a b s := rfl
theorem exec_cpy2 (ch : Fin 8) (d a b : USrc) (s : State) :
    exec (.cpy2 ch d a b) s = execCpy2 ch d a b s := rfl
theorem exec_kick (a b : USrc) (s : State) :
    exec (.kick a b) s = execKick a b s := rfl
theorem exec_kpop (d : SDst) (s : State) :
    exec (.kpop d) s = execKpop d s := rfl
theorem exec_kack (a : USrc) (s : State) :
    exec (.kack a) s = execKack a s := rfl
theorem exec_sar (op : SarOp) (a b : USrc) (s : State) :
    exec (.sar op a b) s = execSar op a b s := rfl
theorem exec_sag (a b : USrc) (s : State) :
    exec (.sag a b) s = execSag a b s := rfl
theorem exec_sstat (d : SDst) (a : USrc) (s : State) :
    exec (.sstat d a) s = execSstat d a s := rfl
theorem exec_escset (d a b : USrc) (s : State) :
    exec (.escset d a b) s = execEscset d a b s := rfl
theorem exec_rgn (s : State) :
    exec (.rgn) s = execRgn s := rfl
theorem exec_srd (d : SDst) (n : Special) (s : State) :
    exec (.srd d n) s = execSrd d n s := rfl
theorem exec_srdLane (d : VReg) (n : LaneSpecial) (s : State) :
    exec (.srdLane d n) s = execSrdLane d n s := rfl
theorem exec_swr (n : Special) (a : USrc) (s : State) :
    exec (.swr n a) s = execSwr n a s := rfl
theorem exec_trap (code : BitVec 18) (s : State) :
    exec (.trap code) s = execTrap code s := rfl
theorem exec_brk (code : BitVec 18) (s : State) :
    exec (.brk code) s = execBrk code s := rfl
theorem exec_sys (code : BitVec 18) (s : State) :
    exec (.sys code) s = execSys code s := rfl
theorem exec_illegalWord (tid : Nat) (s : State) :
    exec (.illegalWord tid) s = execIllegalWord tid s := rfl
theorem exec_fetchFault (tid : Nat) (s : State) :
    exec (.fetchFault tid) s = execFetchFault tid s := rfl
theorem exec_boundaryTrap (tid : Nat) (s : State) :
    exec (.boundaryTrap tid) s = execBoundaryTrap tid s := rfl
theorem exec_teamStop (tid : Nat) (s : State) :
    exec (.teamStop tid) s = execTeamStop tid s := rfl
theorem exec_tenureGrant (c k : Nat) (s : State) :
    exec (.tenureGrant c k) s = execTenureGrant c k s := rfl
theorem exec_tenureSuspend (tid : Nat) (s : State) :
    exec (.tenureSuspend tid) s = execTenureSuspend tid s := rfl
theorem exec_congestionPublish (slice : Nat) (s : State) :
    exec (.congestionPublish slice) s = execCongestionPublish slice s := rfl
theorem exec_throttleWindow (h : Nat) (s : State) :
    exec (.throttleWindow h) s = execThrottleWindow h s := rfl
theorem exec_congestionWindow (c : Nat) (s : State) :
    exec (.congestionWindow c) s = execCongestionWindow c s := rfl
theorem exec_budgetGrant (c k : Nat) (s : State) :
    exec (.budgetGrant c k) s = execBudgetGrant c k s := rfl
theorem exec_carrierAdmit (slice : Nat) (s : State) :
    exec (.carrierAdmit slice) s = execCarrierAdmit slice s := rfl
theorem exec_fetchAccess (tid seq idx : Nat) (answer : Option Nat) (s : State) :
    exec (.fetchAccess tid seq idx answer) s = execFetchAccess tid seq idx answer s := rfl
theorem exec_penMerge (tid : Nat) (s : State) :
    exec (.penMerge tid) s = execPenMerge tid s := rfl
theorem exec_watchWake (tid : Nat) (s : State) :
    exec (.watchWake tid) s = execWatchWake tid s := rfl
theorem exec_barrierUnitFrame (tid : Nat) (s : State) :
    exec (.barrierUnitFrame tid) s = execBarrierUnitFrame tid s := rfl
theorem exec_frameLand (tid : Nat) (s : State) :
    exec (.frameLand tid) s = execFrameLand tid s := rfl
theorem exec_lodgeToRegister (c k : Nat) (s : State) :
    exec (.lodgeToRegister c k) s = execLodgeToRegister c k s := rfl
theorem exec_lodgeEvict (c k : Nat) (s : State) :
    exec (.lodgeEvict c k) s = execLodgeEvict c k s := rfl
theorem exec_evictedReturn (tid : Nat) (s : State) :
    exec (.evictedReturn tid) s = execEvictedReturn tid s := rfl
theorem exec_recall (tid : Nat) (s : State) :
    exec (.recall tid) s = execRecall tid s := rfl
theorem exec_unescortedResult (tid seq : Nat) (s : State) :
    exec (.unescortedResult tid seq) s = execUnescortedResult tid seq s := rfl
theorem exec_combineEntryTimeout (c k : Nat) (s : State) :
    exec (.combineEntryTimeout c k) s = execCombineEntryTimeout c k s := rfl
theorem exec_lkacqTimeout (tid : Nat) (s : State) :
    exec (.lkacqTimeout tid) s = execLkacqTimeout tid s := rfl
theorem exec_emitSlotGrant (tid : Nat) (s : State) :
    exec (.emitSlotGrant tid) s = execEmitSlotGrant tid s := rfl
theorem exec_mtaskRecordGrant (tid : Nat) (s : State) :
    exec (.mtaskRecordGrant tid) s = execMtaskRecordGrant tid s := rfl
theorem exec_kickEntryGrant (tid : Nat) (s : State) :
    exec (.kickEntryGrant tid) s = execKickEntryGrant tid s := rfl
theorem exec_taskStart (c : Nat) (s : State) :
    exec (.taskStart c) s = execTaskStart c s := rfl
theorem exec_taskAging (c id : Nat) (s : State) :
    exec (.taskAging c id) s = execTaskAging c id s := rfl
theorem exec_taskPass (c id : Nat) (s : State) :
    exec (.taskPass c id) s = execTaskPass c id s := rfl
theorem exec_taskComplete (c id : Nat) (s : State) :
    exec (.taskComplete c id) s = execTaskComplete c id s := rfl
theorem exec_copyPiece (c : Nat) (ch : Fin 8) (s : State) :
    exec (.copyPiece c ch) s = execCopyPiece c ch s := rfl
theorem exec_multicastApply (home die : Nat) (s : State) :
    exec (.multicastApply home die) s = execMulticastApply home die s := rfl
theorem exec_stageEvaluation (c : Nat) (s : State) :
    exec (.stageEvaluation c) s = execStageEvaluation c s := rfl
theorem exec_coalesceTimeout (lh k c : Nat) (s : State) :
    exec (.coalesceTimeout lh k c) s = execCoalesceTimeout lh k c s := rfl
theorem exec_allocationClear (c base : Nat) (s : State) :
    exec (.allocationClear c base) s = execAllocationClear c base s := rfl
theorem exec_conveyanceWrite (h : Nat) (s : State) :
    exec (.conveyanceWrite h) s = execConveyanceWrite h s := rfl
theorem exec_conveyanceComplete (h : Nat) (s : State) :
    exec (.conveyanceComplete h) s = execConveyanceComplete h s := rfl
theorem exec_supervisorRecordWrite (n : Nat) (s : State) :
    exec (.supervisorRecordWrite n) s = execSupervisorRecordWrite n s := rfl
theorem exec_preempt (ctx : Nat) (cores : List Nat) (s : State) :
    exec (.preempt ctx cores) s = execPreempt ctx cores s := rfl
theorem exec_preemptSave (tid : Nat) (s : State) :
    exec (.preemptSave tid) s = execPreemptSave tid s := rfl
theorem exec_teamRestore (tid : Nat) (s : State) :
    exec (.teamRestore tid) s = execTeamRestore tid s := rfl
theorem exec_groupKill (h reason : Nat) (s : State) :
    exec (.groupKill h reason) s = execGroupKill h reason s := rfl
theorem exec_contextDeath (ctx cause : Nat) (s : State) :
    exec (.contextDeath ctx cause) s = execContextDeath ctx cause s := rfl
theorem exec_tcmdRetry (who : Agent) (ctx : Nat) (w0 w1 : Word) (s : State) :
    exec (.tcmdRetry who ctx w0 w1) s = execTcmdRetry who ctx w0 w1 s := rfl
theorem exec_tcmdSkip (who : Agent) (ctx : Nat) (w0 w1 : Word) (s : State) :
    exec (.tcmdSkip who ctx w0 w1) s = execTcmdSkip who ctx w0 w1 s := rfl
theorem exec_tcmdRegion (who : Agent) (ctx : Nat) (w0 w1 : Word) (s : State) :
    exec (.tcmdRegion who ctx w0 w1) s = execTcmdRegion who ctx w0 w1 s := rfl
theorem exec_tcmdGoto (who : Agent) (ctx : Nat) (w0 w1 : Word) (s : State) :
    exec (.tcmdGoto who ctx w0 w1) s = execTcmdGoto who ctx w0 w1 s := rfl
theorem exec_tcmdKill (who : Agent) (ctx : Nat) (w0 w1 : Word) (s : State) :
    exec (.tcmdKill who ctx w0 w1) s = execTcmdKill who ctx w0 w1 s := rfl
theorem exec_tcmdAnswer (who : Agent) (ctx : Nat) (w0 w1 : Word) (s : State) :
    exec (.tcmdAnswer who ctx w0 w1) s = execTcmdAnswer who ctx w0 w1 s := rfl
theorem exec_launchAccept (tid : Nat) (s : State) :
    exec (.launchAccept tid) s = execLaunchAccept tid s := rfl
theorem exec_lcstartWrite (who : Agent) (w0 : Word) (s : State) :
    exec (.lcstartWrite who w0) s = execLcstartWrite who w0 s := rfl
theorem exec_lctailWrite (who : Agent) (w0 : Word) (s : State) :
    exec (.lctailWrite who w0) s = execLctailWrite who w0 s := rfl
theorem exec_chainEntryProcess (s : State) :
    exec (.chainEntryProcess) s = execChainEntryProcess s := rfl
theorem exec_launchCancel (lh : Nat) (s : State) :
    exec (.launchCancel lh) s = execLaunchCancel lh s := rfl
theorem exec_launchComplete (lh : Nat) (s : State) :
    exec (.launchComplete lh) s = execLaunchComplete lh s := rfl
theorem exec_quotaRowWrite (who : Agent) (c r : Nat) (w0 w1 w2 : Word) (s : State) :
    exec (.quotaRowWrite who c r w0 w1 w2) s = execQuotaRowWrite who c r w0 w1 w2 s := rfl
theorem exec_tgmapWrite (who : Agent) (c p : Nat) (w0 w1 : Word) (s : State) :
    exec (.tgmapWrite who c p w0 w1) s = execTgmapWrite who c p w0 w1 s := rfl
theorem exec_ctxbaseWrite (who : Agent) (w0 : Word) (s : State) :
    exec (.ctxbaseWrite who w0) s = execCtxbaseWrite who w0 s := rfl
theorem exec_podcfgWrite (who : Agent) (w0 : Word) (s : State) :
    exec (.podcfgWrite who w0) s = execPodcfgWrite who w0 s := rfl
theorem exec_trinvWrite (who : Agent) (w0 w1 w2 : Word) (s : State) :
    exec (.trinvWrite who w0 w1 w2) s = execTrinvWrite who w0 w1 w2 s := rfl
theorem exec_trinvComplete (s : State) :
    exec (.trinvComplete) s = execTrinvComplete s := rfl
theorem exec_frplyWrite (who : Agent) (d : Nat) (w0 : Word) (s : State) :
    exec (.frplyWrite who d w0) s = execFrplyWrite who d w0 s := rfl
theorem exec_fbheadWrite (who : Agent) (d : Nat) (w0 : Word) (s : State) :
    exec (.fbheadWrite who d w0) s = execFbheadWrite who d w0 s := rfl
theorem exec_settTableWrite (who : Agent) (b : Nat) (w0 w1 w2 w3 : Word) (s : State) :
    exec (.settTableWrite who b w0 w1 w2 w3) s = execSettTableWrite who b w0 w1 w2 w3 s := rfl
theorem exec_settAbort (who : Agent) (b : Nat) (s : State) :
    exec (.settAbort who b) s = execSettAbort who b s := rfl
theorem exec_mtcfgWrite (who : Agent) (w0 : Word) (s : State) :
    exec (.mtcfgWrite who w0) s = execMtcfgWrite who w0 s := rfl
theorem exec_sealKeyWrite (who : Agent) (j which key : Nat) (s : State) :
    exec (.sealKeyWrite who j which key) s = execSealKeyWrite who j which key s := rfl
theorem exec_hdbinWrite (w0 : Word) (s : State) :
    exec (.hdbinWrite w0) s = execHdbinWrite w0 s := rfl
theorem exec_hdboutWrite (w0 : Word) (s : State) :
    exec (.hdboutWrite w0) s = execHdboutWrite w0 s := rfl
theorem exec_registerWrite (who : Agent) (addr size : Nat) (v : Word) (s : State) :
    exec (.registerWrite who addr size v) s = execRegisterWrite who addr size v s := rfl
theorem exec_assign (who : Agent) (page : Nat) (w0 w1 w2 : Word) (s : State) :
    exec (.assign who page w0 w1 w2) s = execAssign who page w0 w1 w2 s := rfl
theorem exec_share (who : Agent) (page : Nat) (w0 w1 w2 : Word) (s : State) :
    exec (.share who page w0 w1 w2) s = execShare who page w0 w1 w2 s := rfl
theorem exec_unshare (who : Agent) (page : Nat) (w0 w1 w2 : Word) (s : State) :
    exec (.unshare who page w0 w1 w2) s = execUnshare who page w0 w1 w2 s := rfl
theorem exec_reclaim (who : Agent) (page : Nat) (w0 w1 w2 : Word) (s : State) :
    exec (.reclaim who page w0 w1 w2) s = execReclaim who page w0 w1 w2 s := rfl
theorem exec_destroy (who : Agent) (page : Nat) (w0 w1 w2 : Word) (s : State) :
    exec (.destroy who page w0 w1 w2) s = execDestroy who page w0 w1 w2 s := rfl
theorem exec_ownershipChangeComplete (n : Nat) (s : State) :
    exec (.ownershipChangeComplete n) s = execOwnershipChangeComplete n s := rfl
theorem exec_sealedUnitSend (j payload : Nat) (s : State) :
    exec (.sealedUnitSend j payload) s = execSealedUnitSend j payload s := rfl
theorem exec_sealStallTimeout (j : Nat) (s : State) :
    exec (.sealStallTimeout j) s = execSealStallTimeout j s := rfl
theorem exec_sealedUnitReceive (j cipher tag ctr high : Nat) (s : State) :
    exec (.sealedUnitReceive j cipher tag ctr high) s = execSealedUnitReceive j cipher tag ctr high s := rfl
theorem exec_linkControlReceive (sett : Bool) (port last : Nat) (s : State) :
    exec (.linkControlReceive sett port last) s = execLinkControlReceive sett port last s := rfl
theorem exec_linkAckTimeout (sett : Bool) (port : Nat) (s : State) :
    exec (.linkAckTimeout sett port) s = execLinkAckTimeout sett port s := rfl
theorem exec_remoteElementArrive (src world eseq tag pa size : Nat) (op : PodOp) (args : Nat × Nat) (s : State) :
    exec (.remoteElementArrive src world eseq tag pa size op args) s = execRemoteElementArrive src world eseq tag pa size op args s := rfl
theorem exec_remoteTimeout (tag : Nat) (s : State) :
    exec (.remoteTimeout tag) s = execRemoteTimeout tag s := rfl
theorem exec_mailboxFlit (src payload : Nat) (s : State) :
    exec (.mailboxFlit src payload) s = execMailboxFlit src payload s := rfl
theorem exec_settParameterExchange (b d num : Nat) (s : State) :
    exec (.settParameterExchange b d num) s = execSettParameterExchange b d num s := rfl
theorem exec_settChunkStep (b c num src : Nat) (complete : Bool) (s : State) :
    exec (.settChunkStep b c num src complete) s = execSettChunkStep b c num src complete s := rfl
theorem exec_settFailureDetect (b d : Nat) (s : State) :
    exec (.settFailureDetect b d) s = execSettFailureDetect b d s := rfl
theorem exec_settStopReceive (b d : Nat) (s : State) :
    exec (.settStopReceive b d) s = execSettStopReceive b d s := rfl
theorem exec_settFailureWindowEnd (b d : Nat) (s : State) :
    exec (.settFailureWindowEnd b d) s = execSettFailureWindowEnd b d s := rfl
theorem exec_scrubLine (site : Site) (corrected : Bool) (s : State) :
    exec (.scrubLine site corrected) s = execScrubLine site corrected s := rfl
theorem exec_auditReplayComplete (item unit : Nat) (abandoned : Bool) (s : State) :
    exec (.auditReplayComplete item unit abandoned) s = execAuditReplayComplete item unit abandoned s := rfl
theorem exec_auditArbitration (item unit : Nat) (s : State) :
    exec (.auditArbitration item unit) s = execAuditArbitration item unit s := rfl
theorem exec_auditDueTime (engine : Bool) (unit : Nat) (s : State) :
    exec (.auditDueTime engine unit) s = execAuditDueTime engine unit s := rfl
theorem exec_probeStart (engine : Bool) (unit : Nat) (s : State) :
    exec (.probeStart engine unit) s = execProbeStart engine unit s := rfl
theorem exec_probeComplete (engine : Bool) (unit other third : Nat) (s : State) :
    exec (.probeComplete engine unit other third) s = execProbeComplete engine unit other third s := rfl
theorem exec_machineCheckRecord (d addr det ctx kind unit sev how : Nat) (s : State) :
    exec (.machineCheckRecord d addr det ctx kind unit sev how) s = execMachineCheckRecord d addr det ctx kind unit sev how s := rfl
theorem exec_deviceMachineCheck (d kind unit how : Nat) (s : State) :
    exec (.deviceMachineCheck d kind unit how) s = execDeviceMachineCheck d kind unit how s := rfl
theorem exec_powerWindow (above : Bool) (s : State) :
    exec (.powerWindow above) s = execPowerWindow above s := rfl
theorem exec_envelopeBreach (hot : Bool) (s : State) :
    exec (.envelopeBreach hot) s = execEnvelopeBreach hot s := rfl
theorem exec_reset (s : State) :
    exec (.reset) s = execReset s := rfl
theorem exec_wipeComplete (s : State) :
    exec (.wipeComplete) s = execWipeComplete s := rfl
theorem exec_measurementExtend (slot digest : Nat) (s : State) :
    exec (.measurementExtend slot digest) s = execMeasurementExtend slot digest s := rfl
theorem exec_getVersion (peer : Option Nat) (s : State) :
    exec (.getVersion peer) s = execGetVersion peer s := rfl
theorem exec_getCapabilities (peer : Option Nat) (s : State) :
    exec (.getCapabilities peer) s = execGetCapabilities peer s := rfl
theorem exec_negotiateAlgorithms (peer : Option Nat) (common : Bool) (s : State) :
    exec (.negotiateAlgorithms peer common) s = execNegotiateAlgorithms peer common s := rfl
theorem exec_getDigests (peer : Option Nat) (s : State) :
    exec (.getDigests peer) s = execGetDigests peer s := rfl
theorem exec_getCertificate (peer : Option Nat) (s : State) :
    exec (.getCertificate peer) s = execGetCertificate peer s := rfl
theorem exec_challenge (peer : Option Nat) (s : State) :
    exec (.challenge peer) s = execChallenge peer s := rfl
theorem exec_getMeasurements (peer session : Option Nat) (index : Nat) (s : State) :
    exec (.getMeasurements peer session index) s = execGetMeasurements peer session index s := rfl
theorem exec_keyExchange (peer : Option Nat) (s : State) :
    exec (.keyExchange peer) s = execKeyExchange peer s := rfl
theorem exec_finish (peer : Option Nat) (session : Nat) (leaf : Option Nat) (s : State) :
    exec (.finish peer session leaf) s = execFinish peer session leaf s := rfl
theorem exec_heartbeat (peer : Option Nat) (session : Nat) (s : State) :
    exec (.heartbeat peer session) s = execHeartbeat peer session s := rfl
theorem exec_keyUpdate (peer : Option Nat) (session : Nat) (s : State) :
    exec (.keyUpdate peer session) s = execKeyUpdate peer session s := rfl
theorem exec_endSession (peer : Option Nat) (session : Nat) (s : State) :
    exec (.endSession peer session) s = execEndSession peer session s := rfl
theorem exec_vendorDefinedRequest (peer : Option Nat) (session payload : Nat) (s : State) :
    exec (.vendorDefinedRequest peer session payload) s = execVendorDefinedRequest peer session payload s := rfl
theorem exec_unsupportedRequest (peer : Option Nat) (s : State) :
    exec (.unsupportedRequest peer) s = execUnsupportedRequest peer s := rfl
theorem exec_firmwareStage (image : Nat) (s : State) :
    exec (.firmwareStage image) s = execFirmwareStage image s := rfl
theorem exec_firmwareActivate (s : State) :
    exec (.firmwareActivate) s = execFirmwareActivate s := rfl
theorem exec_firmwareCommit (s : State) :
    exec (.firmwareCommit) s = execFirmwareCommit s := rfl
theorem exec_firmwareAbandon (s : State) :
    exec (.firmwareAbandon) s = execFirmwareAbandon s := rfl
theorem exec_lifeCycleTransition (target token : Nat) (s : State) :
    exec (.lifeCycleTransition target token) s = execLifeCycleTransition target token s := rfl
theorem exec_hostBar2Access (off size : Nat) (data : Option Nat) (s : State) :
    exec (.hostBar2Access off size data) s = execHostBar2Access off size data s := rfl
theorem exec_singleFault (site : Site) (uncorrectable : Bool) (s : State) :
    exec (.singleFault site uncorrectable) s = execSingleFault site uncorrectable s := rfl

end Sys2Proof.Machine
end

