-- ==== Sys2Proof/Laws/PerInstr.lean ====
section
/-! SUPPORT. The family Words, one lemma for each constructor: an instruction of the encoding maps is one word with no wide head, or
a wide head and the tail of its set, every word below 2^32; a step of the device that is no instruction has no words. -/
namespace Sys2Proof.Laws
open Sys2Proof

/-! ## Fields -/

@[simp] theorem iw_code_lt (w : IW) : w.code < 4 := by cases w <;> decide
@[simp] theorem fw_code_lt (w : FW) : w.code < 4 := by cases w <;> decide
@[simp] theorem aw_code_lt (w : AW) : w.code < 4 := by cases w <;> decide
@[simp] theorem aw_bit_le (w : AW) : w.bit ≤ 1 := by cases w <;> decide
@[simp] theorem ord_code_lt (o : Ord) : o.code < 4 := by cases o <;> decide
@[simp] theorem fenceOrd_code_lt (o : FenceOrd) : o.code < 4 := by cases o <;> decide
@[simp] theorem scope_code_lt (s : Scope) : s.code < 8 := by cases s <;> decide
@[simp] theorem sscope_code_lt (s : SScope) : s.code < 8 := by cases s <;> decide
@[simp] theorem lsrc_code_lt (a : LSrc) : a.code < 128 := by cases a <;> simp only [LSrc.code] <;> omega
@[simp] theorem usrc_code_lt (a : USrc) : a.code < 64 := by cases a <;> simp only [USrc.code] <;> omega
@[simp] theorem vdst_nwb_le (d : VDst) : d.nwb ≤ 1 := by cases d <;> simp [VDst.nwb]
@[simp] theorem vdst_code_lt (d : VDst) : d.code < 128 := by cases d <;> simp only [VDst.code] <;> omega
@[simp] theorem sdst_nwb_le (d : SDst) : d.nwb ≤ 1 := by cases d <;> simp [SDst.nwb]
@[simp] theorem sdst_code_lt (d : SDst) : d.code < 64 := by cases d <;> simp only [SDst.code] <;> omega
@[simp] theorem ldAux_code_lt (x : LdAux) : x.code < 4 := by cases x <;> decide
@[simp] theorem stAux_code_lt (x : StAux) : x.code < 4 := by cases x <;> decide
@[simp] theorem atomAux_code_lt (x : AtomAux) : x.code < 4 := by cases x <;> decide
@[simp] theorem vote_code_lt (x : VoteKind) : x.code < 4 := by cases x <;> decide
@[simp] theorem shfl_code_lt (x : ShflPat) : x.code < 4 := by cases x <;> decide
@[simp] theorem bc_code_lt (x : BcCond) : x.code < 8 := by cases x <;> decide
@[simp] theorem scond_code_lt (x : SCond) : x.code < 32 := by cases x <;> decide
@[simp] theorem sar_code_lt (x : SarOp) : x.code < 32 := by cases x <;> decide
@[simp] theorem obj_code_lt (x : ObjKind) : x.code < 32 := by cases x <;> decide
@[simp] theorem holdKind_code_lt (x : HoldKind) : x.code < 32 := by cases x <;> simp [HoldKind.code]
@[simp] theorem holdKind_ext_lt (x : HoldKind) : x.ext < 64 := by cases x <;> simp [HoldKind.ext]
@[simp] theorem waitClass_code_lt (x : WaitClass) : x.code < 4 := by cases x <;> decide
@[simp] theorem intAtom_code_lt (x : IntAtom) : x.code < 16 := by cases x <;> decide
@[simp] theorem atomKind_code_lt (x : AtomKind) : x.code < 16 := by cases x <;> simp [AtomKind.code]
@[simp] theorem atomKind_width_lt (x : AtomKind) : x.width < 4 := by cases x <;> simp [AtomKind.width]
@[simp] theorem redm_code_lt (x : RedmKind) : x.code < 4 := by cases x <;> simp [RedmKind.code]
@[simp] theorem redm_width_lt (x : RedmKind) : x.width < 4 := by cases x <;> simp [RedmKind.width]
@[simp] theorem atomu_code_lt (x : AtomuKind) : x.code < 16 := by cases x <;> simp [AtomuKind.code]
@[simp] theorem atomu_width_le (x : AtomuKind) : x.width ≤ 1 := by cases x <;> simp [AtomuKind.width]
@[simp] theorem red_code_lt (x : RedKind) : x.code < 32 := by
  cases x with
  | int o w => cases o <;> simp [RedKind.code]
  | float o w => cases o <;> simp [RedKind.code]
@[simp] theorem red_width_lt (x : RedKind) : x.width < 4 := by cases x <;> simp [RedKind.width]
@[simp] theorem bit_le (b : Bool) : bit b ≤ 1 := by cases b <;> decide
@[simp] theorem special_code_lt (n : Special) : n.code < 2048 := by cases n <;> simp only [Special.code] <;> omega
theorem lmB_lt (o : Ord) (sc w : Nat) (hs : sc < 8) (hw : w < 4) : lmB o.code sc w < 128 := by
  have := ord_code_lt o; unfold lmB; omega
theorem encOs_lt (o : Ord) (sc : Scope) : encOs o sc < 32 := by
  have := ord_code_lt o; have := scope_code_lt sc; unfold encOs; omega
theorem heir_lt (h : Option USrc) : (h.map USrc.code).getD 0 < 64 := by cases h <;> simp

/-! ## Words -/

/-- What the words of an instruction are. -/
def WordsOk : List Nat → Prop
  | [] => True
  | [h] => h < 4294967296 ∧ isWide h = false
  | [h, t] => h < 4294967296 ∧ t < 4294967296 ∧ isWide h = true ∧ isTail (h / 2147483648) t = true
  | _ => False

theorem lane_head {op n d a b w : Nat} (hn : n ≤ 1) (hd : d < 128) (ha : a < 128) (hb : b < 128) (hw : w < 4) (ho : op < 128) :
    let h := LaneF.word ⟨op, n, d, a, b, w⟩
    h < 4294967296 ∧ h / 2147483648 = 0 ∧ isWide h = laneWide op := by
  intro h
  have e : h = op * 16777216 + n * 8388608 + d * 65536 + a * 512 + b * 4 + w := rfl
  have ht : h / 2147483648 = 0 := by omega
  refine ⟨by omega, ht, ?_⟩
  have : opcodeOf h = op := by unfold opcodeOf; omega
  simp [isWide, ht, this]

theorem uni_head {h op r : Nat} (e : h = 2147483648 + op * 16777216 + r) (hr : r < 16777216) (ho : op < 128) :
    h < 4294967296 ∧ h / 2147483648 = 1 ∧ isWide h = uniWide op := by
  have ht : h / 2147483648 = 1 := by omega
  refine ⟨by omega, ht, ?_⟩
  have : opcodeOf h = op := by unfold opcodeOf; omega
  simp [isWide, ht, this]

theorem tail_ok {set r imm : Nat} (hs : set < 2) (hr : r < 128) (hi : imm < 262144) :
    trWord set r imm < 4294967296 ∧ isTail set (trWord set r imm) = true := by
  unfold trWord isTail
  refine ⟨by omega, ?_⟩
  simp only [Bool.and_eq_true, decide_eq_true_eq]
  omega

theorem lane1 {op n d a b w : Nat} (hn : n ≤ 1) (hd : d < 128) (ha : a < 128) (hb : b < 128) (hw : w < 4) (ho : op < 128)
    (hx : laneWide op = false) : WordsOk [LaneF.word ⟨op, n, d, a, b, w⟩] := by
  obtain ⟨h1, -, h3⟩ := lane_head hn hd ha hb hw ho
  exact ⟨h1, h3.trans hx⟩

theorem lane2 {op n d a b w r i : Nat} (hn : n ≤ 1) (hd : d < 128) (ha : a < 128) (hb : b < 128) (hw : w < 4) (hr : r < 128)
    (hi : i < 262144) (ho : op < 128) (hx : laneWide op = true) : WordsOk [LaneF.word ⟨op, n, d, a, b, w⟩, trWord 0 r i] := by
  obtain ⟨h1, h2, h3⟩ := lane_head hn hd ha hb hw ho
  obtain ⟨t1, t2⟩ := tail_ok (set := 0) (by decide) hr hi
  refine ⟨h1, t1, h3.trans hx, ?_⟩
  rw [h2]
  exact t2

theorem uni1 {op n d a b f : Nat} (hn : n ≤ 1) (hd : d < 64) (ha : a < 64) (hb : b < 64) (hf : f < 32) (ho : op < 128)
    (hx : uniWide op = false) : WordsOk [UniF.word ⟨op, n, d, a, b, f⟩] := by
  obtain ⟨h1, -, h3⟩ := uni_head (h := UniF.word ⟨op, n, d, a, b, f⟩) (op := op)
    (r := n * 8388608 + d * 131072 + a * 2048 + b * 32 + f) (by simp only [UniF.word]; omega) (by omega) ho
  exact ⟨h1, h3.trans hx⟩

theorem uni2 {op n d a b f r i : Nat} (hn : n ≤ 1) (hd : d < 64) (ha : a < 64) (hb : b < 64) (hf : f < 32) (hr : r < 128)
    (hi : i < 262144) (ho : op < 128) (hx : uniWide op = true) : WordsOk [UniF.word ⟨op, n, d, a, b, f⟩, trWord 1 r i] := by
  obtain ⟨h1, h2, h3⟩ := uni_head (h := UniF.word ⟨op, n, d, a, b, f⟩) (op := op)
    (r := n * 8388608 + d * 131072 + a * 2048 + b * 32 + f) (by simp only [UniF.word]; omega) (by omega) ho
  obtain ⟨t1, t2⟩ := tail_ok (set := 1) (by decide) hr hi
  refine ⟨h1, t1, h3.trans hx, ?_⟩
  rw [h2]
  exact t2

/-- A uniform head with eleven low bits. -/
theorem ui1 {op n d a imm : Nat} (hn : n ≤ 1) (hd : d < 64) (ha : a < 64) (hi : imm < 2048) (ho : op < 128)
    (hx : uniWide op = false) : WordsOk (encUi op n d a imm) := uni1 hn hd ha (by omega) (by omega) ho hx

theorem ub1 {op c a b o : Nat} (hc : c < 8) (ha : a < 64) (hb : b < 64) (ho' : o < 512) (ho : op < 128)
    (hx : uniWide op = false) : WordsOk [ubWord op c a b o] := by
  obtain ⟨h1, -, h3⟩ := uni_head (h := ubWord op c a b o) (op := op) (r := c * 2097152 + a * 32768 + b * 512 + o)
    (by unfold ubWord; omega) (by omega) ho
  exact ⟨h1, h3.trans hx⟩

theorem ul1 {op d i : Nat} (hd : d < 32) (hi : i < 262144) (ho : op < 128) (hx : uniWide op = false) :
    WordsOk [ulWord op d i] := by
  obtain ⟨h1, -, h3⟩ := uni_head (h := ulWord op d i) (op := op) (r := d * 262144 + i) (by unfold ulWord; omega) (by omega) ho
  exact ⟨h1, h3.trans hx⟩

theorem uj1 {op o : Nat} (ho' : o < 16777216) (ho : op < 128) (hx : uniWide op = false) : WordsOk [ujWord op o] := by
  obtain ⟨h1, -, h3⟩ := uni_head (h := ujWord op o) (op := op) (r := o) (by unfold ujWord; omega) ho' ho
  exact ⟨h1, h3.trans hx⟩

/-! ## The constructors -/

/-- The words of an instruction have the form that its opcode asks for. -/
def Words.Statement (i : Instr) : Prop := WordsOk (encode i)

theorem Words.add (w : IW) (d : VDst) (a b : LSrc) : Words.Statement (.add w d a b) := by
  refine lane1 ?_ ?_ ?_ ?_ ?_ (by decide) rfl <;> first | omega | simp
theorem Words.sub (w : IW) (d : VDst) (a b : LSrc) : Words.Statement (.sub w d a b) := by
  refine lane1 ?_ ?_ ?_ ?_ ?_ (by decide) rfl <;> first | omega | simp
theorem Words.addSat (w : IW) (d : VDst) (a b : LSrc) : Words.Statement (.addSat w d a b) := by
  refine lane1 ?_ ?_ ?_ ?_ ?_ (by decide) rfl <;> first | omega | simp
theorem Words.addSatu (w : IW) (d : VDst) (a b : LSrc) : Words.Statement (.addSatu w d a b) := by
  refine lane1 ?_ ?_ ?_ ?_ ?_ (by decide) rfl <;> first | omega | simp
theorem Words.subSat (w : IW) (d : VDst) (a b : LSrc) : Words.Statement (.subSat w d a b) := by
  refine lane1 ?_ ?_ ?_ ?_ ?_ (by decide) rfl <;> first | omega | simp
theorem Words.subSatu (w : IW) (d : VDst) (a b : LSrc) : Words.Statement (.subSatu w d a b) := by
  refine lane1 ?_ ?_ ?_ ?_ ?_ (by decide) rfl <;> first | omega | simp
theorem Words.mul (w : IW) (d : VDst) (a b : LSrc) : Words.Statement (.mul w d a b) := by
  refine lane1 ?_ ?_ ?_ ?_ ?_ (by decide) rfl <;> first | omega | simp
theorem Words.mulh (w : IW) (d : VDst) (a b : LSrc) : Words.Statement (.mulh w d a b) := by
  refine lane1 ?_ ?_ ?_ ?_ ?_ (by decide) rfl <;> first | omega | simp
theorem Words.mulhu (w : IW) (d : VDst) (a b : LSrc) : Words.Statement (.mulhu w d a b) := by
  refine lane1 ?_ ?_ ?_ ?_ ?_ (by decide) rfl <;> first | omega | simp
theorem Words.mad (w : IW) (d : VDst) (a b : LSrc) : Words.Statement (.mad w d a b) := by
  refine lane1 ?_ ?_ ?_ ?_ ?_ (by decide) rfl <;> first | omega | simp
theorem Words.addc (m : CMask) (d : VDst) (a b : LSrc) : Words.Statement (.addc m d a b) := by
  refine lane1 ?_ ?_ ?_ ?_ ?_ (by decide) rfl <;> first | omega | simp
theorem Words.subb (m : CMask) (d : VDst) (a b : LSrc) : Words.Statement (.subb m d a b) := by
  refine lane1 ?_ ?_ ?_ ?_ ?_ (by decide) rfl <;> first | omega | simp
theorem Words.min (w : IW) (d : VDst) (a b : LSrc) : Words.Statement (.min w d a b) := by
  refine lane1 ?_ ?_ ?_ ?_ ?_ (by decide) rfl <;> first | omega | simp
theorem Words.minu (w : IW) (d : VDst) (a b : LSrc) : Words.Statement (.minu w d a b) := by
  refine lane1 ?_ ?_ ?_ ?_ ?_ (by decide) rfl <;> first | omega | simp
theorem Words.max (w : IW) (d : VDst) (a b : LSrc) : Words.Statement (.max w d a b) := by
  refine lane1 ?_ ?_ ?_ ?_ ?_ (by decide) rfl <;> first | omega | simp
theorem Words.maxu (w : IW) (d : VDst) (a b : LSrc) : Words.Statement (.maxu w d a b) := by
  refine lane1 ?_ ?_ ?_ ?_ ?_ (by decide) rfl <;> first | omega | simp
theorem Words.abs (w : IW) (d : VDst) (a : LSrc) : Words.Statement (.abs w d a) := by
  refine lane1 ?_ ?_ ?_ ?_ ?_ (by decide) rfl <;> first | omega | simp
theorem Words.and (w : IW) (d : VDst) (a b : LSrc) : Words.Statement (.and w d a b) := by
  refine lane1 ?_ ?_ ?_ ?_ ?_ (by decide) rfl <;> first | omega | simp
theorem Words.or (w : IW) (d : VDst) (a b : LSrc) : Words.Statement (.or w d a b) := by
  refine lane1 ?_ ?_ ?_ ?_ ?_ (by decide) rfl <;> first | omega | simp
theorem Words.xor (w : IW) (d : VDst) (a b : LSrc) : Words.Statement (.xor w d a b) := by
  refine lane1 ?_ ?_ ?_ ?_ ?_ (by decide) rfl <;> first | omega | simp
theorem Words.shl (w : IW) (d : VDst) (a b : LSrc) : Words.Statement (.shl w d a b) := by
  refine lane1 ?_ ?_ ?_ ?_ ?_ (by decide) rfl <;> first | omega | simp
theorem Words.shr (w : IW) (d : VDst) (a b : LSrc) : Words.Statement (.shr w d a b) := by
  refine lane1 ?_ ?_ ?_ ?_ ?_ (by decide) rfl <;> first | omega | simp
theorem Words.sra (w : IW) (d : VDst) (a b : LSrc) : Words.Statement (.sra w d a b) := by
  refine lane1 ?_ ?_ ?_ ?_ ?_ (by decide) rfl <;> first | omega | simp
theorem Words.rot (w : IW) (d : VDst) (a b : LSrc) : Words.Statement (.rot w d a b) := by
  refine lane1 ?_ ?_ ?_ ?_ ?_ (by decide) rfl <;> first | omega | simp
theorem Words.clz (w : IW) (d : VDst) (a : LSrc) : Words.Statement (.clz w d a) := by
  refine lane1 ?_ ?_ ?_ ?_ ?_ (by decide) rfl <;> first | omega | simp
theorem Words.pop (w : IW) (d : VDst) (a : LSrc) : Words.Statement (.pop w d a) := by
  refine lane1 ?_ ?_ ?_ ?_ ?_ (by decide) rfl <;> first | omega | simp
theorem Words.bfe (w : IW) (d : VDst) (a b : LSrc) : Words.Statement (.bfe w d a b) := by
  refine lane1 ?_ ?_ ?_ ?_ ?_ (by decide) rfl <;> first | omega | simp
theorem Words.bfi (w : IW) (d : VDst) (a b : LSrc) : Words.Statement (.bfi w d a b) := by
  refine lane1 ?_ ?_ ?_ ?_ ?_ (by decide) rfl <;> first | omega | simp
theorem Words.sel (m : CMask) (d : VDst) (a b : LSrc) : Words.Statement (.sel m d a b) := by
  refine lane1 ?_ ?_ ?_ ?_ ?_ (by decide) rfl <;> first | omega | simp
theorem Words.mov (d : VDst) (a : LSrc) : Words.Statement (.mov d a) := by
  refine lane1 ?_ ?_ ?_ ?_ ?_ (by decide) rfl <;> first | omega | simp
theorem Words.cmpEq (w : IW) (d : MDst) (a b : LSrc) : Words.Statement (.cmpEq w d a b) := by
  refine lane1 ?_ ?_ ?_ ?_ ?_ (by decide) rfl <;> first | omega | simp
theorem Words.cmpNe (w : IW) (d : MDst) (a b : LSrc) : Words.Statement (.cmpNe w d a b) := by
  refine lane1 ?_ ?_ ?_ ?_ ?_ (by decide) rfl <;> first | omega | simp
theorem Words.cmpLt (w : IW) (d : MDst) (a b : LSrc) : Words.Statement (.cmpLt w d a b) := by
  refine lane1 ?_ ?_ ?_ ?_ ?_ (by decide) rfl <;> first | omega | simp
theorem Words.cmpLtu (w : IW) (d : MDst) (a b : LSrc) : Words.Statement (.cmpLtu w d a b) := by
  refine lane1 ?_ ?_ ?_ ?_ ?_ (by decide) rfl <;> first | omega | simp
theorem Words.cmpLe (w : IW) (d : MDst) (a b : LSrc) : Words.Statement (.cmpLe w d a b) := by
  refine lane1 ?_ ?_ ?_ ?_ ?_ (by decide) rfl <;> first | omega | simp
theorem Words.cmpLeu (w : IW) (d : MDst) (a b : LSrc) : Words.Statement (.cmpLeu w d a b) := by
  refine lane1 ?_ ?_ ?_ ?_ ?_ (by decide) rfl <;> first | omega | simp
theorem Words.addImm (w : IW) (d : VDst) (a : LSrc) (imm : BitVec 7) : Words.Statement (.addImm w d a imm) := by
  have := imm.isLt
  refine lane1 ?_ ?_ ?_ ?_ ?_ (by decide) rfl <;> first | omega | simp
theorem Words.andImm (w : IW) (d : VDst) (a : LSrc) (imm : BitVec 7) : Words.Statement (.andImm w d a imm) := by
  have := imm.isLt
  refine lane1 ?_ ?_ ?_ ?_ ?_ (by decide) rfl <;> first | omega | simp
theorem Words.orImm (w : IW) (d : VDst) (a : LSrc) (imm : BitVec 7) : Words.Statement (.orImm w d a imm) := by
  have := imm.isLt
  refine lane1 ?_ ?_ ?_ ?_ ?_ (by decide) rfl <;> first | omega | simp
theorem Words.xorImm (w : IW) (d : VDst) (a : LSrc) (imm : BitVec 7) : Words.Statement (.xorImm w d a imm) := by
  have := imm.isLt
  refine lane1 ?_ ?_ ?_ ?_ ?_ (by decide) rfl <;> first | omega | simp
theorem Words.shlImm (w : IW) (d : VDst) (a : LSrc) (imm : BitVec 7) : Words.Statement (.shlImm w d a imm) := by
  have := imm.isLt
  refine lane1 ?_ ?_ ?_ ?_ ?_ (by decide) rfl <;> first | omega | simp
theorem Words.shrImm (w : IW) (d : VDst) (a : LSrc) (imm : BitVec 7) : Words.Statement (.shrImm w d a imm) := by
  have := imm.isLt
  refine lane1 ?_ ?_ ?_ ?_ ?_ (by decide) rfl <;> first | omega | simp
theorem Words.sraImm (w : IW) (d : VDst) (a : LSrc) (imm : BitVec 7) : Words.Statement (.sraImm w d a imm) := by
  have := imm.isLt
  refine lane1 ?_ ?_ ?_ ?_ ?_ (by decide) rfl <;> first | omega | simp
theorem Words.rotImm (w : IW) (d : VDst) (a : LSrc) (imm : BitVec 7) : Words.Statement (.rotImm w d a imm) := by
  have := imm.isLt
  refine lane1 ?_ ?_ ?_ ?_ ?_ (by decide) rfl <;> first | omega | simp
theorem Words.li (w : IW) (d : VDst) (imm : BitVec 7) : Words.Statement (.li w d imm) := by
  have := imm.isLt
  refine lane1 ?_ ?_ ?_ ?_ ?_ (by decide) rfl <;> first | omega | simp
theorem Words.cmpEqImm (w : IW) (d : MDst) (a : LSrc) (imm : BitVec 7) : Words.Statement (.cmpEqImm w d a imm) := by
  have := imm.isLt
  refine lane1 ?_ ?_ ?_ ?_ ?_ (by decide) rfl <;> first | omega | simp
theorem Words.cmpLtImm (w : IW) (d : MDst) (a : LSrc) (imm : BitVec 7) : Words.Statement (.cmpLtImm w d a imm) := by
  have := imm.isLt
  refine lane1 ?_ ?_ ?_ ?_ ?_ (by decide) rfl <;> first | omega | simp
theorem Words.fadd (w : FW) (d : VDst) (a b : LSrc) : Words.Statement (.fadd w d a b) := by
  refine lane1 ?_ ?_ ?_ ?_ ?_ (by decide) rfl <;> first | omega | simp
theorem Words.fsub (w : FW) (d : VDst) (a b : LSrc) : Words.Statement (.fsub w d a b) := by
  refine lane1 ?_ ?_ ?_ ?_ ?_ (by decide) rfl <;> first | omega | simp
theorem Words.fmul (w : FW) (d : VDst) (a b : LSrc) : Words.Statement (.fmul w d a b) := by
  refine lane1 ?_ ?_ ?_ ?_ ?_ (by decide) rfl <;> first | omega | simp
theorem Words.fma (w : FW) (d : VDst) (a b : LSrc) : Words.Statement (.fma w d a b) := by
  refine lane1 ?_ ?_ ?_ ?_ ?_ (by decide) rfl <;> first | omega | simp
theorem Words.fma3 (w : FW) (d : VDst) (a b c : LSrc) (ftz np na : Bool) : Words.Statement (.fma3 w d a b c ftz np na) := by
  have := lsrc_code_lt a
  have := lsrc_code_lt b
  have := lsrc_code_lt c
  have := bit_le ftz
  have := bit_le np
  have := bit_le na
  refine lane2 ?_ ?_ ?_ ?_ ?_ ?_ ?_ (by decide) rfl <;> first | omega | simp
theorem Words.fmin (w : FW) (d : VDst) (a b : LSrc) : Words.Statement (.fmin w d a b) := by
  refine lane1 ?_ ?_ ?_ ?_ ?_ (by decide) rfl <;> first | omega | simp
theorem Words.fmax (w : FW) (d : VDst) (a b : LSrc) : Words.Statement (.fmax w d a b) := by
  refine lane1 ?_ ?_ ?_ ?_ ?_ (by decide) rfl <;> first | omega | simp
theorem Words.fabs (w : FW) (d : VDst) (a : LSrc) : Words.Statement (.fabs w d a) := by
  refine lane1 ?_ ?_ ?_ ?_ ?_ (by decide) rfl <;> first | omega | simp
theorem Words.fneg (w : FW) (d : VDst) (a : LSrc) : Words.Statement (.fneg w d a) := by
  refine lane1 ?_ ?_ ?_ ?_ ?_ (by decide) rfl <;> first | omega | simp
theorem Words.fcmpEq (w : FW) (d : MDst) (a b : LSrc) : Words.Statement (.fcmpEq w d a b) := by
  refine lane1 ?_ ?_ ?_ ?_ ?_ (by decide) rfl <;> first | omega | simp
theorem Words.fcmpNe (w : FW) (d : MDst) (a b : LSrc) : Words.Statement (.fcmpNe w d a b) := by
  refine lane1 ?_ ?_ ?_ ?_ ?_ (by decide) rfl <;> first | omega | simp
theorem Words.fcmpLt (w : FW) (d : MDst) (a b : LSrc) : Words.Statement (.fcmpLt w d a b) := by
  refine lane1 ?_ ?_ ?_ ?_ ?_ (by decide) rfl <;> first | omega | simp
theorem Words.fcmpLe (w : FW) (d : MDst) (a b : LSrc) : Words.Statement (.fcmpLe w d a b) := by
  refine lane1 ?_ ?_ ?_ ?_ ?_ (by decide) rfl <;> first | omega | simp
theorem Words.fcmpUn (w : FW) (d : MDst) (a b : LSrc) : Words.Statement (.fcmpUn w d a b) := by
  refine lane1 ?_ ?_ ?_ ?_ ?_ (by decide) rfl <;> first | omega | simp
theorem Words.frnd (w : FW) (d : VDst) (a : LSrc) : Words.Statement (.frnd w d a) := by
  refine lane1 ?_ ?_ ?_ ?_ ?_ (by decide) rfl <;> first | omega | simp
theorem Words.fclass (w : FW) (d : VDst) (a : LSrc) : Words.Statement (.fclass w d a) := by
  refine lane1 ?_ ?_ ?_ ?_ ?_ (by decide) rfl <;> first | omega | simp
theorem Words.faddFtz (w : FW) (d : VDst) (a b : LSrc) : Words.Statement (.faddFtz w d a b) := by
  refine lane1 ?_ ?_ ?_ ?_ ?_ (by decide) rfl <;> first | omega | simp
theorem Words.fsubFtz (w : FW) (d : VDst) (a b : LSrc) : Words.Statement (.fsubFtz w d a b) := by
  refine lane1 ?_ ?_ ?_ ?_ ?_ (by decide) rfl <;> first | omega | simp
theorem Words.fmulFtz (w : FW) (d : VDst) (a b : LSrc) : Words.Statement (.fmulFtz w d a b) := by
  refine lane1 ?_ ?_ ?_ ?_ ?_ (by decide) rfl <;> first | omega | simp
theorem Words.fmaFtz (w : FW) (d : VDst) (a b : LSrc) : Words.Statement (.fmaFtz w d a b) := by
  refine lane1 ?_ ?_ ?_ ?_ ?_ (by decide) rfl <;> first | omega | simp
theorem Words.fcvt (d : VDst) (a : LSrc) (b : BReg) : Words.Statement (.fcvt d a b) := by
  refine lane1 ?_ ?_ ?_ ?_ ?_ (by decide) rfl <;> first | omega | simp
theorem Words.fcvti (w : FW) (d : VDst) (a : LSrc) : Words.Statement (.fcvti w d a) := by
  refine lane1 ?_ ?_ ?_ ?_ ?_ (by decide) rfl <;> first | omega | simp
theorem Words.fcvtiu (w : FW) (d : VDst) (a : LSrc) : Words.Statement (.fcvtiu w d a) := by
  refine lane1 ?_ ?_ ?_ ?_ ?_ (by decide) rfl <;> first | omega | simp
theorem Words.icvtf (w : FW) (d : VDst) (a : LSrc) : Words.Statement (.icvtf w d a) := by
  refine lane1 ?_ ?_ ?_ ?_ ?_ (by decide) rfl <;> first | omega | simp
theorem Words.icvtfu (w : FW) (d : VDst) (a : LSrc) : Words.Statement (.icvtfu w d a) := by
  refine lane1 ?_ ?_ ?_ ?_ ?_ (by decide) rfl <;> first | omega | simp
theorem Words.pack (w : IW) (d : VDst) (a b : LSrc) : Words.Statement (.pack w d a b) := by
  refine lane1 ?_ ?_ ?_ ?_ ?_ (by decide) rfl <;> first | omega | simp
theorem Words.unpack (w : IW) (d : VDst) (a b : LSrc) : Words.Statement (.unpack w d a b) := by
  refine lane1 ?_ ?_ ?_ ?_ ?_ (by decide) rfl <;> first | omega | simp
theorem Words.swz (w : IW) (d : VDst) (a b : LSrc) : Words.Statement (.swz w d a b) := by
  refine lane1 ?_ ?_ ?_ ?_ ?_ (by decide) rfl <;> first | omega | simp
theorem Words.frcp (w : FW) (d : VDst) (a : LSrc) : Words.Statement (.frcp w d a) := by
  refine lane1 ?_ ?_ ?_ ?_ ?_ (by decide) rfl <;> first | omega | simp
theorem Words.frsq (w : FW) (d : VDst) (a : LSrc) : Words.Statement (.frsq w d a) := by
  refine lane1 ?_ ?_ ?_ ?_ ?_ (by decide) rfl <;> first | omega | simp
theorem Words.fsqrt (w : FW) (d : VDst) (a : LSrc) : Words.Statement (.fsqrt w d a) := by
  refine lane1 ?_ ?_ ?_ ?_ ?_ (by decide) rfl <;> first | omega | simp
theorem Words.fex2 (w : FW) (d : VDst) (a : LSrc) : Words.Statement (.fex2 w d a) := by
  refine lane1 ?_ ?_ ?_ ?_ ?_ (by decide) rfl <;> first | omega | simp
theorem Words.flg2 (w : FW) (d : VDst) (a : LSrc) : Words.Statement (.flg2 w d a) := by
  refine lane1 ?_ ?_ ?_ ?_ ?_ (by decide) rfl <;> first | omega | simp
theorem Words.fsin (w : FW) (d : VDst) (a : LSrc) : Words.Statement (.fsin w d a) := by
  refine lane1 ?_ ?_ ?_ ?_ ?_ (by decide) rfl <;> first | omega | simp
theorem Words.fcos (w : FW) (d : VDst) (a : LSrc) : Words.Statement (.fcos w d a) := by
  refine lane1 ?_ ?_ ?_ ?_ ?_ (by decide) rfl <;> first | omega | simp
theorem Words.shfl (w : IW) (d : VDst) (a b : LSrc) : Words.Statement (.shfl w d a b) := by
  refine lane1 ?_ ?_ ?_ ?_ ?_ (by decide) rfl <;> first | omega | simp
theorem Words.shfli (d : VDst) (a : LSrc) (p : ShflPat) (k : BitVec 5) : Words.Statement (.shfli d a p k) := by
  have := k.isLt
  have := lsrc_code_lt a
  have := shfl_code_lt p
  refine lane1 ?_ ?_ ?_ ?_ ?_ (by decide) rfl <;> first | omega | simp
theorem Words.vote (v : VoteKind) (d : MDst) (a : LSrc) : Words.Statement (.vote v d a) := by
  refine lane1 ?_ ?_ ?_ ?_ ?_ (by decide) rfl <;> first | omega | simp
theorem Words.lget (w : IW) (d : VDst) (a b : LSrc) : Words.Statement (.lget w d a b) := by
  refine lane1 ?_ ?_ ?_ ?_ ?_ (by decide) rfl <;> first | omega | simp
theorem Words.lput (w : IW) (d : VDst) (a b : LSrc) : Words.Statement (.lput w d a b) := by
  refine lane1 ?_ ?_ ?_ ?_ ?_ (by decide) rfl <;> first | omega | simp
theorem Words.red (op : RedKind) (d : VDst) (a : LSrc) : Words.Statement (.red op d a) := by
  have := red_code_lt op
  have := lsrc_code_lt a
  refine lane1 ?_ ?_ ?_ ?_ ?_ (by decide) rfl <;> first | omega | simp
theorem Words.scan (op : RedKind) (d : VDst) (a : LSrc) : Words.Statement (.scan op d a) := by
  have := red_code_lt op
  have := lsrc_code_lt a
  refine lane1 ?_ ?_ ?_ ?_ ?_ (by decide) rfl <;> first | omega | simp
theorem Words.scanEx (op : RedKind) (d : VDst) (a : LSrc) : Words.Statement (.scanEx op d a) := by
  have := red_code_lt op
  have := lsrc_code_lt a
  refine lane1 ?_ ?_ ?_ ?_ ?_ (by decide) rfl <;> first | omega | simp
theorem Words.segred (op : RedKind) (d : VDst) (a : LSrc) : Words.Statement (.segred op d a) := by
  have := red_code_lt op
  have := lsrc_code_lt a
  refine lane1 ?_ ?_ ?_ ?_ ?_ (by decide) rfl <;> first | omega | simp
theorem Words.walki (d : VDst) (a : LSrc) (b : BReg) : Words.Statement (.walki d a b) := by
  refine lane1 ?_ ?_ ?_ ?_ ?_ (by decide) rfl <;> first | omega | simp
theorem Words.walk (d : VDst) (a : LSrc) (b : BReg) : Words.Statement (.walk d a b) := by
  refine lane1 ?_ ?_ ?_ ?_ ?_ (by decide) rfl <;> first | omega | simp
theorem Words.mmul (q : QReg) (d : VDst) (a b : LSrc) : Words.Statement (.mmul q d a b) := by
  refine lane1 ?_ ?_ ?_ ?_ ?_ (by decide) rfl <;> first | omega | simp
theorem Words.madd (q : QReg) (d : VDst) (a b : LSrc) : Words.Statement (.madd q d a b) := by
  refine lane1 ?_ ?_ ?_ ?_ ?_ (by decide) rfl <;> first | omega | simp
theorem Words.msub (q : QReg) (d : VDst) (a b : LSrc) : Words.Statement (.msub q d a b) := by
  refine lane1 ?_ ?_ ?_ ?_ ?_ (by decide) rfl <;> first | omega | simp
theorem Words.bfly (q : QReg) (d : VDst) (a : VReg) (b : LSrc) : Words.Statement (.bfly q d a b) := by
  refine lane1 ?_ ?_ ?_ ?_ ?_ (by decide) rfl <;> first | omega | simp
theorem Words.ibfly (q : QReg) (d : VDst) (a : VReg) (b : LSrc) : Words.Statement (.ibfly q d a b) := by
  refine lane1 ?_ ?_ ?_ ?_ ?_ (by decide) rfl <;> first | omega | simp
theorem Words.mred (q : QReg) (d : VDst) (a b : LSrc) : Words.Statement (.mred q d a b) := by
  have := lsrc_code_lt a
  have := lsrc_code_lt b
  refine lane1 ?_ ?_ ?_ ?_ ?_ (by decide) rfl <;> first | omega | simp
theorem Words.ld (esc : Bool) (o : Ord) (sc : Scope) (w : IW) (x : LdAux) (d : VReg) (a : LSrc) : Words.Statement (.ld esc o sc w x d a) := by
  refine lane1 ?_ ?_ ?_ ?_ ?_ (by decide) rfl <;> first | omega | simp [lmB_lt]
theorem Words.st (esc : Bool) (o : Ord) (sc : Scope) (w : IW) (x : StAux) (d a : LSrc) : Words.Statement (.st esc o sc w x d a) := by
  refine lane1 ?_ ?_ ?_ ?_ ?_ (by decide) rfl <;> first | omega | simp [lmB_lt]
theorem Words.ldx (esc : Bool) (o : Ord) (sc : Scope) (w : IW) (k : Fin 4) (d : VReg) (a base : LSrc) (off : BitVec 18) : Words.Statement (.ldx esc o sc w k d a base off) := by
  have := off.isLt
  have := bit_le esc
  have := ord_code_lt o
  have := scope_code_lt sc
  have := iw_code_lt w
  have := lsrc_code_lt a
  have := lsrc_code_lt base
  refine lane2 ?_ ?_ ?_ ?_ ?_ ?_ ?_ (by decide) rfl <;> first | omega | simp [lmB_lt]
theorem Words.stx (esc : Bool) (o : Ord) (sc : Scope) (w : IW) (k : Fin 4) (d a base : LSrc) (off : BitVec 18) : Words.Statement (.stx esc o sc w k d a base off) := by
  have := off.isLt
  have := bit_le esc
  have := ord_code_lt o
  have := scope_code_lt sc
  have := iw_code_lt w
  have := lsrc_code_lt d
  have := lsrc_code_lt a
  have := lsrc_code_lt base
  refine lane2 ?_ ?_ ?_ ?_ ?_ ?_ ?_ (by decide) rfl <;> first | omega | simp [lmB_lt]
theorem Words.stf (esc : Bool) (o : Ord) (sc : Scope) (w : IW) (d a flag : LSrc) (inc : BitVec 18) : Words.Statement (.stf esc o sc w d a flag inc) := by
  have := inc.isLt
  have := bit_le esc
  have := ord_code_lt o
  have := scope_code_lt sc
  have := iw_code_lt w
  have := lsrc_code_lt d
  have := lsrc_code_lt a
  have := lsrc_code_lt flag
  refine lane2 ?_ ?_ ?_ ?_ ?_ ?_ ?_ (by decide) rfl <;> first | omega | simp [lmB_lt]
theorem Words.lds (o : Ord) (sc : SScope) (w : IW) (x : LdAux) (d : VReg) (a : LSrc) : Words.Statement (.lds o sc w x d a) := by
  refine lane1 ?_ ?_ ?_ ?_ ?_ (by decide) rfl <;> first | omega | simp [lmB_lt]
theorem Words.sts (o : Ord) (sc : SScope) (w : IW) (x : StAux) (d a : LSrc) : Words.Statement (.sts o sc w x d a) := by
  refine lane1 ?_ ?_ ?_ ?_ ?_ (by decide) rfl <;> first | omega | simp [lmB_lt]
theorem Words.atom (esc : Bool) (o : Ord) (sc : Scope) (w : AW) (op : AtomAux) (d : VReg) (a : LSrc) : Words.Statement (.atom esc o sc w op d a) := by
  refine lane1 ?_ ?_ ?_ ?_ ?_ (by decide) rfl <;> first | omega | simp [lmB_lt]
theorem Words.atomOffset (esc : Bool) (o : Ord) (sc : Scope) (op : AtomKind) (d : VReg) (a c : LSrc) (off : BitVec 14) : Words.Statement (.atomOffset esc o sc op d a c off) := by
  have := off.isLt
  have := bit_le esc
  have := ord_code_lt o
  have := scope_code_lt sc
  have := atomKind_code_lt op
  have := lsrc_code_lt a
  have := lsrc_code_lt c
  refine lane2 ?_ ?_ ?_ ?_ ?_ ?_ ?_ (by decide) rfl <;> first | omega | simp [lmB_lt]
theorem Words.cas (esc : Bool) (o : Ord) (sc : Scope) (w : AW) (d : VReg) (a e n : LSrc) : Words.Statement (.cas esc o sc w d a e n) := by
  have := bit_le esc
  have := ord_code_lt o
  have := scope_code_lt sc
  have := aw_bit_le w
  have := lsrc_code_lt a
  have := lsrc_code_lt e
  have := lsrc_code_lt n
  refine lane2 ?_ ?_ ?_ ?_ ?_ ?_ ?_ (by decide) rfl <;> first | omega | simp [lmB_lt]
theorem Words.redm (o : Ord) (sc : Scope) (op : RedmKind) (d a : LSrc) : Words.Statement (.redm o sc op d a) := by
  have := ord_code_lt o
  have := scope_code_lt sc
  have := lsrc_code_lt d
  have := lsrc_code_lt a
  refine lane1 ?_ ?_ ?_ ?_ ?_ (by decide) rfl <;> first | omega | simp [lmB_lt]
theorem Words.sadd (d : SDst) (a b : USrc) : Words.Statement (.sadd d a b) := by
  refine uni1 ?_ ?_ ?_ ?_ ?_ (by decide) rfl <;> first | omega | simp
theorem Words.ssub (d : SDst) (a b : USrc) : Words.Statement (.ssub d a b) := by
  refine uni1 ?_ ?_ ?_ ?_ ?_ (by decide) rfl <;> first | omega | simp
theorem Words.smul (d : SDst) (a b : USrc) : Words.Statement (.smul d a b) := by
  refine uni1 ?_ ?_ ?_ ?_ ?_ (by decide) rfl <;> first | omega | simp
theorem Words.smulh (d : SDst) (a b : USrc) : Words.Statement (.smulh d a b) := by
  refine uni1 ?_ ?_ ?_ ?_ ?_ (by decide) rfl <;> first | omega | simp
theorem Words.smulhu (d : SDst) (a b : USrc) : Words.Statement (.smulhu d a b) := by
  refine uni1 ?_ ?_ ?_ ?_ ?_ (by decide) rfl <;> first | omega | simp
theorem Words.sdiv (d : SDst) (a b : USrc) : Words.Statement (.sdiv d a b) := by
  refine uni1 ?_ ?_ ?_ ?_ ?_ (by decide) rfl <;> first | omega | simp
theorem Words.sdivu (d : SDst) (a b : USrc) : Words.Statement (.sdivu d a b) := by
  refine uni1 ?_ ?_ ?_ ?_ ?_ (by decide) rfl <;> first | omega | simp
theorem Words.srem (d : SDst) (a b : USrc) : Words.Statement (.srem d a b) := by
  refine uni1 ?_ ?_ ?_ ?_ ?_ (by decide) rfl <;> first | omega | simp
theorem Words.sremu (d : SDst) (a b : USrc) : Words.Statement (.sremu d a b) := by
  refine uni1 ?_ ?_ ?_ ?_ ?_ (by decide) rfl <;> first | omega | simp
theorem Words.sand (d : SDst) (a b : USrc) : Words.Statement (.sand d a b) := by
  refine uni1 ?_ ?_ ?_ ?_ ?_ (by decide) rfl <;> first | omega | simp
theorem Words.sor (d : SDst) (a b : USrc) : Words.Statement (.sor d a b) := by
  refine uni1 ?_ ?_ ?_ ?_ ?_ (by decide) rfl <;> first | omega | simp
theorem Words.sxor (d : SDst) (a b : USrc) : Words.Statement (.sxor d a b) := by
  refine uni1 ?_ ?_ ?_ ?_ ?_ (by decide) rfl <;> first | omega | simp
theorem Words.sshl (d : SDst) (a b : USrc) : Words.Statement (.sshl d a b) := by
  refine uni1 ?_ ?_ ?_ ?_ ?_ (by decide) rfl <;> first | omega | simp
theorem Words.sshr (d : SDst) (a b : USrc) : Words.Statement (.sshr d a b) := by
  refine uni1 ?_ ?_ ?_ ?_ ?_ (by decide) rfl <;> first | omega | simp
theorem Words.ssra (d : SDst) (a b : USrc) : Words.Statement (.ssra d a b) := by
  refine uni1 ?_ ?_ ?_ ?_ ?_ (by decide) rfl <;> first | omega | simp
theorem Words.smin (d : SDst) (a b : USrc) : Words.Statement (.smin d a b) := by
  refine uni1 ?_ ?_ ?_ ?_ ?_ (by decide) rfl <;> first | omega | simp
theorem Words.sminu (d : SDst) (a b : USrc) : Words.Statement (.sminu d a b) := by
  refine uni1 ?_ ?_ ?_ ?_ ?_ (by decide) rfl <;> first | omega | simp
theorem Words.smax (d : SDst) (a b : USrc) : Words.Statement (.smax d a b) := by
  refine uni1 ?_ ?_ ?_ ?_ ?_ (by decide) rfl <;> first | omega | simp
theorem Words.smaxu (d : SDst) (a b : USrc) : Words.Statement (.smaxu d a b) := by
  refine uni1 ?_ ?_ ?_ ?_ ?_ (by decide) rfl <;> first | omega | simp
theorem Words.sclz (d : SDst) (a : USrc) : Words.Statement (.sclz d a) := by
  refine uni1 ?_ ?_ ?_ ?_ ?_ (by decide) rfl <;> first | omega | simp
theorem Words.spop (d : SDst) (a : USrc) : Words.Statement (.spop d a) := by
  refine uni1 ?_ ?_ ?_ ?_ ?_ (by decide) rfl <;> first | omega | simp
theorem Words.sbfe (d : SDst) (a b : USrc) : Words.Statement (.sbfe d a b) := by
  refine uni1 ?_ ?_ ?_ ?_ ?_ (by decide) rfl <;> first | omega | simp
theorem Words.sbfi (d : SDst) (a b : USrc) : Words.Statement (.sbfi d a b) := by
  refine uni1 ?_ ?_ ?_ ?_ ?_ (by decide) rfl <;> first | omega | simp
theorem Words.smov (d : SDst) (a : USrc) : Words.Statement (.smov d a) := by
  refine uni1 ?_ ?_ ?_ ?_ ?_ (by decide) rfl <;> first | omega | simp
theorem Words.saddImm (d : SDst) (a : USrc) (imm : BitVec 11) : Words.Statement (.saddImm d a imm) := by
  have := imm.isLt
  refine ui1 ?_ ?_ ?_ ?_ (by decide) rfl <;> first | omega | simp
theorem Words.smulImm (d : SDst) (a : USrc) (imm : BitVec 11) : Words.Statement (.smulImm d a imm) := by
  have := imm.isLt
  refine ui1 ?_ ?_ ?_ ?_ (by decide) rfl <;> first | omega | simp
theorem Words.sandImm (d : SDst) (a : USrc) (imm : BitVec 11) : Words.Statement (.sandImm d a imm) := by
  have := imm.isLt
  refine ui1 ?_ ?_ ?_ ?_ (by decide) rfl <;> first | omega | simp
theorem Words.sorImm (d : SDst) (a : USrc) (imm : BitVec 11) : Words.Statement (.sorImm d a imm) := by
  have := imm.isLt
  refine ui1 ?_ ?_ ?_ ?_ (by decide) rfl <;> first | omega | simp
theorem Words.sxorImm (d : SDst) (a : USrc) (imm : BitVec 11) : Words.Statement (.sxorImm d a imm) := by
  have := imm.isLt
  refine ui1 ?_ ?_ ?_ ?_ (by decide) rfl <;> first | omega | simp
theorem Words.sshlImm (d : SDst) (a : USrc) (imm : BitVec 11) : Words.Statement (.sshlImm d a imm) := by
  have := imm.isLt
  refine ui1 ?_ ?_ ?_ ?_ (by decide) rfl <;> first | omega | simp
theorem Words.sshrImm (d : SDst) (a : USrc) (imm : BitVec 11) : Words.Statement (.sshrImm d a imm) := by
  have := imm.isLt
  refine ui1 ?_ ?_ ?_ ?_ (by decide) rfl <;> first | omega | simp
theorem Words.ssraImm (d : SDst) (a : USrc) (imm : BitVec 11) : Words.Statement (.ssraImm d a imm) := by
  have := imm.isLt
  refine ui1 ?_ ?_ ?_ ?_ (by decide) rfl <;> first | omega | simp
theorem Words.sliI (d : SReg) (imm : BitVec 18) : Words.Statement (.sliI d imm) := by
  have := imm.isLt
  refine ul1 ?_ ?_ (by decide) rfl <;> first | omega | simp
theorem Words.sliZ (d : SReg) (imm : BitVec 18) : Words.Statement (.sliZ d imm) := by
  have := imm.isLt
  refine ul1 ?_ ?_ (by decide) rfl <;> first | omega | simp
theorem Words.slil (d : SReg) (imm : BitVec 18) : Words.Statement (.slil d imm) := by
  have := imm.isLt
  refine ul1 ?_ ?_ (by decide) rfl <;> first | omega | simp
theorem Words.slim (d : SReg) (imm : BitVec 18) : Words.Statement (.slim d imm) := by
  have := imm.isLt
  refine ul1 ?_ ?_ (by decide) rfl <;> first | omega | simp
theorem Words.slih (d : SReg) (imm : BitVec 18) : Words.Statement (.slih d imm) := by
  have := imm.isLt
  refine ul1 ?_ ?_ (by decide) rfl <;> first | omega | simp
theorem Words.sliF64 (d : SReg) (x : BitVec 16) : Words.Statement (.sliF64 d x) := by
  have := x.isLt
  refine ul1 ?_ ?_ (by decide) rfl <;> first | omega | simp
theorem Words.sliF32 (d : SReg) (x : BitVec 16) : Words.Statement (.sliF32 d x) := by
  have := x.isLt
  refine ul1 ?_ ?_ (by decide) rfl <;> first | omega | simp
theorem Words.sliF16 (d : SReg) (x : BitVec 16) : Words.Statement (.sliF16 d x) := by
  have := x.isLt
  refine ul1 ?_ ?_ (by decide) rfl <;> first | omega | simp
theorem Words.sadr (d : SReg) (imm : BitVec 18) : Words.Statement (.sadr d imm) := by
  have := imm.isLt
  refine ul1 ?_ ?_ (by decide) rfl <;> first | omega | simp
theorem Words.scmp (c : SCond) (d : SDst) (a b : USrc) : Words.Statement (.scmp c d a b) := by
  refine uni1 ?_ ?_ ?_ ?_ ?_ (by decide) rfl <;> first | omega | simp
theorem Words.ssel (d : SDst) (a b : USrc) (c : SReg) : Words.Statement (.ssel d a b c) := by
  refine uni1 ?_ ?_ ?_ ?_ ?_ (by decide) rfl <;> first | omega | simp
theorem Words.br (off : BitVec 24) : Words.Statement (.br off) := by
  have := off.isLt
  refine uj1 ?_ (by decide) rfl <;> first | omega | simp
theorem Words.bc (c : BcCond) (a b : USrc) (off : BitVec 9) : Words.Statement (.bc c a b off) := by
  have := off.isLt
  refine ub1 ?_ ?_ ?_ ?_ (by decide) rfl <;> first | omega | simp
theorem Words.jmp (a : USrc) : Words.Statement (.jmp a) := by
  refine uni1 ?_ ?_ ?_ ?_ ?_ (by decide) rfl <;> first | omega | simp
theorem Words.call (d : SReg) (imm : BitVec 18) : Words.Statement (.call d imm) := by
  have := imm.isLt
  refine ul1 ?_ ?_ (by decide) rfl <;> first | omega | simp
theorem Words.ret (a : USrc) : Words.Statement (.ret a) := by
  refine uni1 ?_ ?_ ?_ ?_ ?_ (by decide) rfl <;> first | omega | simp
theorem Words.loop (a : SReg) (off : BitVec 9) : Words.Statement (.loop a off) := by
  have := off.isLt
  refine ub1 ?_ ?_ ?_ ?_ (by decide) rfl <;> first | omega | simp
theorem Words.exit : Words.Statement (.exit) := by
  refine uj1 ?_ (by decide) rfl <;> first | omega | simp
theorem Words.yield : Words.Statement (.yield) := by
  refine uj1 ?_ (by decide) rfl <;> first | omega | simp
theorem Words.nop : Words.Statement (.nop) := by
  refine uj1 ?_ (by decide) rfl <;> first | omega | simp
theorem Words.emit (k : Fin 4) (d : SDst) (a b : USrc) : Words.Statement (.emit k d a b) := by
  refine uni1 ?_ ?_ ?_ ?_ ?_ (by decide) rfl <;> first | omega | simp
theorem Words.launch (d : SDst) (a : USrc) : Words.Statement (.launch d a) := by
  refine uni1 ?_ ?_ ?_ ?_ ?_ (by decide) rfl <;> first | omega | simp
theorem Words.widf (d : SDst) (f : Fin 6) : Words.Statement (.widf d f) := by
  refine ui1 ?_ ?_ ?_ ?_ (by decide) rfl <;> first | omega | simp
theorem Words.dvg (m : MReg) (off : BitVec 9) : Words.Statement (.dvg m off) := by
  have := off.isLt
  refine ub1 ?_ ?_ ?_ ?_ (by decide) rfl <;> first | omega | simp
theorem Words.flip (off : BitVec 9) : Words.Statement (.flip off) := by
  have := off.isLt
  refine ub1 ?_ ?_ ?_ ?_ (by decide) rfl <;> first | omega | simp
theorem Words.cvg : Words.Statement (.cvg) := by
  refine uj1 ?_ (by decide) rfl <;> first | omega | simp
theorem Words.bany (m : MReg) (off : BitVec 9) : Words.Statement (.bany m off) := by
  have := off.isLt
  refine ub1 ?_ ?_ ?_ ?_ (by decide) rfl <;> first | omega | simp
theorem Words.bnone (m : MReg) (off : BitVec 9) : Words.Statement (.bnone m off) := by
  have := off.isLt
  refine ub1 ?_ ?_ ?_ ?_ (by decide) rfl <;> first | omega | simp
theorem Words.mand (d : MDst) (a b : MReg) : Words.Statement (.mand d a b) := by
  refine uni1 ?_ ?_ ?_ ?_ ?_ (by decide) rfl <;> first | omega | simp
theorem Words.mor (d : MDst) (a b : MReg) : Words.Statement (.mor d a b) := by
  refine uni1 ?_ ?_ ?_ ?_ ?_ (by decide) rfl <;> first | omega | simp
theorem Words.mandn (d : MDst) (a b : MReg) : Words.Statement (.mandn d a b) := by
  refine uni1 ?_ ?_ ?_ ?_ ?_ (by decide) rfl <;> first | omega | simp
theorem Words.mxor (d : MDst) (a b : MReg) : Words.Statement (.mxor d a b) := by
  refine uni1 ?_ ?_ ?_ ?_ ?_ (by decide) rfl <;> first | omega | simp
theorem Words.mnot (d : MDst) (a : MReg) : Words.Statement (.mnot d a) := by
  refine uni1 ?_ ?_ ?_ ?_ ?_ (by decide) rfl <;> first | omega | simp
theorem Words.mmov (d : MDst) (a : MReg) : Words.Statement (.mmov d a) := by
  refine uni1 ?_ ?_ ?_ ?_ ?_ (by decide) rfl <;> first | omega | simp
theorem Words.mcnt (d : SDst) (m : MReg) : Words.Statement (.mcnt d m) := by
  refine uni1 ?_ ?_ ?_ ?_ ?_ (by decide) rfl <;> first | omega | simp
theorem Words.mfirst (d : SDst) (m : MReg) : Words.Statement (.mfirst d m) := by
  refine uni1 ?_ ?_ ?_ ?_ ?_ (by decide) rfl <;> first | omega | simp
theorem Words.mlw (d : SDst) (m : MReg) (k : Fin 32) : Words.Statement (.mlw d m k) := by
  refine ui1 ?_ ?_ ?_ ?_ (by decide) rfl <;> first | omega | simp
theorem Words.wait (c : WaitClass) (n : BitVec 8) : Words.Statement (.wait c n) := by
  have := n.isLt
  have := waitClass_code_lt c
  refine ui1 ?_ ?_ ?_ ?_ (by decide) rfl <;> first | omega | simp
theorem Words.waitq (a : USrc) (q : Fin 4) : Words.Statement (.waitq a q) := by
  refine ui1 ?_ ?_ ?_ ?_ (by decide) rfl <;> first | omega | simp
theorem Words.ldu (o : Ord) (sc : Scope) (w : IW) (d : SDst) (a b : USrc) : Words.Statement (.ldu o sc w d a b) := by
  have := encOs_lt o sc
  cases w <;> refine uni1 ?_ ?_ ?_ ?_ ?_ (by decide) rfl <;> first | omega | simp
theorem Words.stu (o : Ord) (sc : Scope) (w : IW) (d a b : USrc) : Words.Statement (.stu o sc w d a b) := by
  have := encOs_lt o sc
  cases w <;> refine uni1 ?_ ?_ ?_ ?_ ?_ (by decide) rfl <;> first | omega | simp
theorem Words.atomu (o : Ord) (sc : Scope) (op : AtomuKind) (d : SDst) (a : USrc) : Words.Statement (.atomu o sc op d a) := by
  have := ord_code_lt o
  have := scope_code_lt sc
  have := atomu_code_lt op
  have := atomu_width_le op
  refine ui1 ?_ ?_ ?_ ?_ (by decide) rfl <;> first | omega | simp
theorem Words.casu (o : Ord) (sc : Scope) (w : AW) (d : SDst) (a e n : USrc) : Words.Statement (.casu o sc w d a e n) := by
  have := ord_code_lt o
  have := scope_code_lt sc
  have := aw_bit_le w
  have := usrc_code_lt a
  have := usrc_code_lt e
  have := usrc_code_lt n
  refine uni2 ?_ ?_ ?_ ?_ ?_ ?_ ?_ (by decide) rfl <;> first | omega | simp [encOs_lt]
theorem Words.tlook (d : SDst) (a b : USrc) : Words.Statement (.tlook d a b) := by
  refine uni1 ?_ ?_ ?_ ?_ ?_ (by decide) rfl <;> first | omega | simp
theorem Words.tins (d : SDst) (a b : USrc) : Words.Statement (.tins d a b) := by
  refine uni1 ?_ ?_ ?_ ?_ ?_ (by decide) rfl <;> first | omega | simp
theorem Words.tinv (d : SDst) (a b : USrc) : Words.Statement (.tinv d a b) := by
  refine uni1 ?_ ?_ ?_ ?_ ?_ (by decide) rfl <;> first | omega | simp
theorem Words.fence (o : FenceOrd) (sc : Scope) : Words.Statement (.fence o sc) := by
  have := fenceOrd_code_lt o
  have := scope_code_lt sc
  refine ui1 ?_ ?_ ?_ ?_ (by decide) rfl <;> first | omega | simp
theorem Words.qfence (qs : BitVec 4) : Words.Statement (.qfence qs) := by
  have := qs.isLt
  refine ui1 ?_ ?_ ?_ ?_ (by decide) rfl <;> first | omega | simp
theorem Words.arrive (o : Ord) (sc : Scope) (d : SDst) (a b : USrc) : Words.Statement (.arrive o sc d a b) := by
  have := ord_code_lt o
  have := scope_code_lt sc
  refine uni1 ?_ ?_ ?_ ?_ ?_ (by decide) rfl <;> first | omega | simp [encOs_lt]
theorem Words.await (o : Ord) (sc : Scope) (d : SDst) (a b : USrc) : Words.Statement (.await o sc d a b) := by
  have := ord_code_lt o
  have := scope_code_lt sc
  refine uni1 ?_ ?_ ?_ ?_ ?_ (by decide) rfl <;> first | omega | simp [encOs_lt]
theorem Words.arwait (o : Ord) (sc : Scope) (d : SDst) (a b : USrc) : Words.Statement (.arwait o sc d a b) := by
  have := ord_code_lt o
  have := scope_code_lt sc
  refine uni1 ?_ ?_ ?_ ?_ ?_ (by decide) rfl <;> first | omega | simp [encOs_lt]
theorem Words.mwait (o : Ord) (sc : Scope) (d : SDst) (a b : USrc) : Words.Statement (.mwait o sc d a b) := by
  have := ord_code_lt o
  have := scope_code_lt sc
  refine uni1 ?_ ?_ ?_ ?_ ?_ (by decide) rfl <;> first | omega | simp [encOs_lt]
theorem Words.lkacq (o : Ord) (sc : Scope) (d : SDst) (a : USrc) (heir : Option USrc) (t : USrc) (orph tryOnce : Bool) : Words.Statement (.lkacq o sc d a heir t orph tryOnce) := by
  have := ord_code_lt o
  have := scope_code_lt sc
  have := bit_le orph
  have := bit_le tryOnce
  have := usrc_code_lt a
  have := usrc_code_lt t
  have := bit_le heir.isNone
  refine uni2 ?_ ?_ ?_ ?_ ?_ ?_ ?_ (by decide) rfl <;> first | omega | simp [encOs_lt, heir_lt]
theorem Words.lkrel (o : Ord) (sc : Scope) (a : USrc) : Words.Statement (.lkrel o sc a) := by
  have := ord_code_lt o
  have := scope_code_lt sc
  refine uni1 ?_ ?_ ?_ ?_ ?_ (by decide) rfl <;> first | omega | simp [encOs_lt]
theorem Words.prnew (o : Ord) (sc : Scope) (d : SDst) (a heir v : USrc) : Words.Statement (.prnew o sc d a heir v) := by
  have := ord_code_lt o
  have := scope_code_lt sc
  have := usrc_code_lt a
  have := usrc_code_lt heir
  have := usrc_code_lt v
  refine uni2 ?_ ?_ ?_ ?_ ?_ ?_ ?_ (by decide) rfl <;> first | omega | simp [encOs_lt]
theorem Words.prful (o : Ord) (sc : Scope) (a b : USrc) : Words.Statement (.prful o sc a b) := by
  have := ord_code_lt o
  have := scope_code_lt sc
  refine uni1 ?_ ?_ ?_ ?_ ?_ (by decide) rfl <;> first | omega | simp [encOs_lt]
theorem Words.prwait (o : Ord) (sc : Scope) (d : SDst) (a : USrc) : Words.Statement (.prwait o sc d a) := by
  have := ord_code_lt o
  have := scope_code_lt sc
  refine uni1 ?_ ?_ ?_ ?_ ?_ (by decide) rfl <;> first | omega | simp [encOs_lt]
theorem Words.hold (k : HoldKind) (sc : Scope) (d : SDst) (a heir : USrc) : Words.Statement (.hold k sc d a heir) := by
  have := scope_code_lt sc
  have := holdKind_ext_lt k
  have := usrc_code_lt a
  have := usrc_code_lt heir
  refine uni2 ?_ ?_ ?_ ?_ ?_ ?_ ?_ (by decide) rfl <;> first | omega | simp
theorem Words.unhold (k : ObjKind) (a : USrc) : Words.Statement (.unhold k a) := by
  refine uni1 ?_ ?_ ?_ ?_ ?_ (by decide) rfl <;> first | omega | simp
theorem Words.heir (a b : USrc) : Words.Statement (.heir a b) := by
  refine uni1 ?_ ?_ ?_ ?_ ?_ (by decide) rfl <;> first | omega | simp
theorem Words.mtask (d : SDst) (a : Fin 4) : Words.Statement (.mtask d a) := by
  refine uni1 ?_ ?_ ?_ ?_ ?_ (by decide) rfl <;> first | omega | simp
theorem Words.cpy (ch : Fin 8) (d a b : USrc) : Words.Statement (.cpy ch d a b) := by
  refine uni1 ?_ ?_ ?_ ?_ ?_ (by decide) rfl <;> first | omega | simp
theorem Words.cpy2 (ch : Fin 8) (d a b : USrc) : Words.Statement (.cpy2 ch d a b) := by
  refine uni1 ?_ ?_ ?_ ?_ ?_ (by decide) rfl <;> first | omega | simp
theorem Words.kick (a b : USrc) : Words.Statement (.kick a b) := by
  refine uni1 ?_ ?_ ?_ ?_ ?_ (by decide) rfl <;> first | omega | simp
theorem Words.kpop (d : SDst) : Words.Statement (.kpop d) := by
  refine uni1 ?_ ?_ ?_ ?_ ?_ (by decide) rfl <;> first | omega | simp
theorem Words.kack (a : USrc) : Words.Statement (.kack a) := by
  refine uni1 ?_ ?_ ?_ ?_ ?_ (by decide) rfl <;> first | omega | simp
theorem Words.sar (op : SarOp) (a b : USrc) : Words.Statement (.sar op a b) := by
  refine uni1 ?_ ?_ ?_ ?_ ?_ (by decide) rfl <;> first | omega | simp
theorem Words.sag (a b : USrc) : Words.Statement (.sag a b) := by
  refine uni1 ?_ ?_ ?_ ?_ ?_ (by decide) rfl <;> first | omega | simp
theorem Words.sstat (d : SDst) (a : USrc) : Words.Statement (.sstat d a) := by
  refine uni1 ?_ ?_ ?_ ?_ ?_ (by decide) rfl <;> first | omega | simp
theorem Words.escset (d a b : USrc) : Words.Statement (.escset d a b) := by
  refine uni1 ?_ ?_ ?_ ?_ ?_ (by decide) rfl <;> first | omega | simp
theorem Words.rgn : Words.Statement (.rgn) := by
  refine uj1 ?_ (by decide) rfl <;> first | omega | simp
theorem Words.srd (d : SDst) (n : Special) : Words.Statement (.srd d n) := by
  refine ui1 ?_ ?_ ?_ ?_ (by decide) rfl <;> first | omega | simp
theorem Words.srdLane (d : VReg) (n : LaneSpecial) : Words.Statement (.srdLane d n) := by
  cases n <;> exact ul1 (by decide) (by dsimp only; omega) (by decide) rfl
theorem Words.swr (n : Special) (a : USrc) : Words.Statement (.swr n a) := by
  refine ui1 ?_ ?_ ?_ ?_ (by decide) rfl <;> first | omega | simp
theorem Words.trap (code : BitVec 18) : Words.Statement (.trap code) := by
  have := code.isLt
  refine ul1 ?_ ?_ (by decide) rfl <;> first | omega | simp
theorem Words.brk (code : BitVec 18) : Words.Statement (.brk code) := by
  have := code.isLt
  refine ul1 ?_ ?_ (by decide) rfl <;> first | omega | simp
theorem Words.sys (code : BitVec 18) : Words.Statement (.sys code) := by
  have := code.isLt
  refine ul1 ?_ ?_ (by decide) rfl <;> first | omega | simp
theorem Words.illegalWord (tid : Nat) : Words.Statement (.illegalWord tid) := trivial
theorem Words.fetchFault (tid : Nat) : Words.Statement (.fetchFault tid) := trivial
theorem Words.boundaryTrap (tid : Nat) : Words.Statement (.boundaryTrap tid) := trivial
theorem Words.teamStop (tid : Nat) : Words.Statement (.teamStop tid) := trivial
theorem Words.tenureGrant (c k : Nat) : Words.Statement (.tenureGrant c k) := trivial
theorem Words.tenureSuspend (tid : Nat) : Words.Statement (.tenureSuspend tid) := trivial
theorem Words.congestionPublish (slice : Nat) : Words.Statement (.congestionPublish slice) := trivial
theorem Words.throttleWindow (h : Nat) : Words.Statement (.throttleWindow h) := trivial
theorem Words.congestionWindow (c : Nat) : Words.Statement (.congestionWindow c) := trivial
theorem Words.budgetGrant (c k : Nat) : Words.Statement (.budgetGrant c k) := trivial
theorem Words.carrierAdmit (slice : Nat) : Words.Statement (.carrierAdmit slice) := trivial
theorem Words.fetchAccess (tid seq idx : Nat) (answer : Option Nat) : Words.Statement (.fetchAccess tid seq idx answer) := trivial
theorem Words.penMerge (tid : Nat) : Words.Statement (.penMerge tid) := trivial
theorem Words.watchWake (tid : Nat) : Words.Statement (.watchWake tid) := trivial
theorem Words.barrierUnitFrame (tid : Nat) : Words.Statement (.barrierUnitFrame tid) := trivial
theorem Words.frameLand (tid : Nat) : Words.Statement (.frameLand tid) := trivial
theorem Words.lodgeToRegister (c k : Nat) : Words.Statement (.lodgeToRegister c k) := trivial
theorem Words.lodgeEvict (c k : Nat) : Words.Statement (.lodgeEvict c k) := trivial
theorem Words.evictedReturn (tid : Nat) : Words.Statement (.evictedReturn tid) := trivial
theorem Words.recall (tid : Nat) : Words.Statement (.recall tid) := trivial
theorem Words.unescortedResult (tid seq : Nat) : Words.Statement (.unescortedResult tid seq) := trivial
theorem Words.combineEntryTimeout (c k : Nat) : Words.Statement (.combineEntryTimeout c k) := trivial
theorem Words.lkacqTimeout (tid : Nat) : Words.Statement (.lkacqTimeout tid) := trivial
theorem Words.emitSlotGrant (tid : Nat) : Words.Statement (.emitSlotGrant tid) := trivial
theorem Words.mtaskRecordGrant (tid : Nat) : Words.Statement (.mtaskRecordGrant tid) := trivial
theorem Words.kickEntryGrant (tid : Nat) : Words.Statement (.kickEntryGrant tid) := trivial
theorem Words.taskStart (c : Nat) : Words.Statement (.taskStart c) := trivial
theorem Words.taskAging (c id : Nat) : Words.Statement (.taskAging c id) := trivial
theorem Words.taskPass (c id : Nat) : Words.Statement (.taskPass c id) := trivial
theorem Words.taskComplete (c id : Nat) : Words.Statement (.taskComplete c id) := trivial
theorem Words.copyPiece (c : Nat) (ch : Fin 8) : Words.Statement (.copyPiece c ch) := trivial
theorem Words.multicastApply (home die : Nat) : Words.Statement (.multicastApply home die) := trivial
theorem Words.stageEvaluation (c : Nat) : Words.Statement (.stageEvaluation c) := trivial
theorem Words.coalesceTimeout (lh k c : Nat) : Words.Statement (.coalesceTimeout lh k c) := trivial
theorem Words.allocationClear (c base : Nat) : Words.Statement (.allocationClear c base) := trivial
theorem Words.conveyanceWrite (h : Nat) : Words.Statement (.conveyanceWrite h) := trivial
theorem Words.conveyanceComplete (h : Nat) : Words.Statement (.conveyanceComplete h) := trivial
theorem Words.supervisorRecordWrite (n : Nat) : Words.Statement (.supervisorRecordWrite n) := trivial
theorem Words.preempt (ctx : Nat) (cores : List Nat) : Words.Statement (.preempt ctx cores) := trivial
theorem Words.preemptSave (tid : Nat) : Words.Statement (.preemptSave tid) := trivial
theorem Words.teamRestore (tid : Nat) : Words.Statement (.teamRestore tid) := trivial
theorem Words.groupKill (h reason : Nat) : Words.Statement (.groupKill h reason) := trivial
theorem Words.contextDeath (ctx cause : Nat) : Words.Statement (.contextDeath ctx cause) := trivial
theorem Words.tcmdRetry (who : Agent) (ctx : Nat) (w0 w1 : Word) : Words.Statement (.tcmdRetry who ctx w0 w1) := trivial
theorem Words.tcmdSkip (who : Agent) (ctx : Nat) (w0 w1 : Word) : Words.Statement (.tcmdSkip who ctx w0 w1) := trivial
theorem Words.tcmdRegion (who : Agent) (ctx : Nat) (w0 w1 : Word) : Words.Statement (.tcmdRegion who ctx w0 w1) := trivial
theorem Words.tcmdGoto (who : Agent) (ctx : Nat) (w0 w1 : Word) : Words.Statement (.tcmdGoto who ctx w0 w1) := trivial
theorem Words.tcmdKill (who : Agent) (ctx : Nat) (w0 w1 : Word) : Words.Statement (.tcmdKill who ctx w0 w1) := trivial
theorem Words.tcmdAnswer (who : Agent) (ctx : Nat) (w0 w1 : Word) : Words.Statement (.tcmdAnswer who ctx w0 w1) := trivial
theorem Words.launchAccept (tid : Nat) : Words.Statement (.launchAccept tid) := trivial
theorem Words.lcstartWrite (who : Agent) (w0 : Word) : Words.Statement (.lcstartWrite who w0) := trivial
theorem Words.lctailWrite (who : Agent) (w0 : Word) : Words.Statement (.lctailWrite who w0) := trivial
theorem Words.chainEntryProcess : Words.Statement (.chainEntryProcess) := trivial
theorem Words.launchCancel (lh : Nat) : Words.Statement (.launchCancel lh) := trivial
theorem Words.launchComplete (lh : Nat) : Words.Statement (.launchComplete lh) := trivial
theorem Words.quotaRowWrite (who : Agent) (c r : Nat) (w0 w1 w2 : Word) : Words.Statement (.quotaRowWrite who c r w0 w1 w2) := trivial
theorem Words.tgmapWrite (who : Agent) (c p : Nat) (w0 w1 : Word) : Words.Statement (.tgmapWrite who c p w0 w1) := trivial
theorem Words.ctxbaseWrite (who : Agent) (w0 : Word) : Words.Statement (.ctxbaseWrite who w0) := trivial
theorem Words.podcfgWrite (who : Agent) (w0 : Word) : Words.Statement (.podcfgWrite who w0) := trivial
theorem Words.trinvWrite (who : Agent) (w0 w1 w2 : Word) : Words.Statement (.trinvWrite who w0 w1 w2) := trivial
theorem Words.trinvComplete : Words.Statement (.trinvComplete) := trivial
theorem Words.frplyWrite (who : Agent) (d : Nat) (w0 : Word) : Words.Statement (.frplyWrite who d w0) := trivial
theorem Words.fbheadWrite (who : Agent) (d : Nat) (w0 : Word) : Words.Statement (.fbheadWrite who d w0) := trivial
theorem Words.settTableWrite (who : Agent) (b : Nat) (w0 w1 w2 w3 : Word) : Words.Statement (.settTableWrite who b w0 w1 w2 w3) := trivial
theorem Words.settAbort (who : Agent) (b : Nat) : Words.Statement (.settAbort who b) := trivial
theorem Words.mtcfgWrite (who : Agent) (w0 : Word) : Words.Statement (.mtcfgWrite who w0) := trivial
theorem Words.sealKeyWrite (who : Agent) (j which key : Nat) : Words.Statement (.sealKeyWrite who j which key) := trivial
theorem Words.hdbinWrite (w0 : Word) : Words.Statement (.hdbinWrite w0) := trivial
theorem Words.hdboutWrite (w0 : Word) : Words.Statement (.hdboutWrite w0) := trivial
theorem Words.registerWrite (who : Agent) (addr size : Nat) (v : Word) : Words.Statement (.registerWrite who addr size v) := trivial
theorem Words.assign (who : Agent) (page : Nat) (w0 w1 w2 : Word) : Words.Statement (.assign who page w0 w1 w2) := trivial
theorem Words.share (who : Agent) (page : Nat) (w0 w1 w2 : Word) : Words.Statement (.share who page w0 w1 w2) := trivial
theorem Words.unshare (who : Agent) (page : Nat) (w0 w1 w2 : Word) : Words.Statement (.unshare who page w0 w1 w2) := trivial
theorem Words.reclaim (who : Agent) (page : Nat) (w0 w1 w2 : Word) : Words.Statement (.reclaim who page w0 w1 w2) := trivial
theorem Words.destroy (who : Agent) (page : Nat) (w0 w1 w2 : Word) : Words.Statement (.destroy who page w0 w1 w2) := trivial
theorem Words.ownershipChangeComplete (n : Nat) : Words.Statement (.ownershipChangeComplete n) := trivial
theorem Words.sealedUnitSend (j payload : Nat) : Words.Statement (.sealedUnitSend j payload) := trivial
theorem Words.sealStallTimeout (j : Nat) : Words.Statement (.sealStallTimeout j) := trivial
theorem Words.sealedUnitReceive (j cipher tag ctr high : Nat) : Words.Statement (.sealedUnitReceive j cipher tag ctr high) := trivial
theorem Words.linkControlReceive (sett : Bool) (port last : Nat) : Words.Statement (.linkControlReceive sett port last) := trivial
theorem Words.linkAckTimeout (sett : Bool) (port : Nat) : Words.Statement (.linkAckTimeout sett port) := trivial
theorem Words.remoteElementArrive (src world eseq tag pa size : Nat) (op : PodOp) (args : Nat × Nat) : Words.Statement (.remoteElementArrive src world eseq tag pa size op args) := trivial
theorem Words.remoteTimeout (tag : Nat) : Words.Statement (.remoteTimeout tag) := trivial
theorem Words.mailboxFlit (src payload : Nat) : Words.Statement (.mailboxFlit src payload) := trivial
theorem Words.settParameterExchange (b d num : Nat) : Words.Statement (.settParameterExchange b d num) := trivial
theorem Words.settChunkStep (b c num src : Nat) (complete : Bool) : Words.Statement (.settChunkStep b c num src complete) := trivial
theorem Words.settFailureDetect (b d : Nat) : Words.Statement (.settFailureDetect b d) := trivial
theorem Words.settStopReceive (b d : Nat) : Words.Statement (.settStopReceive b d) := trivial
theorem Words.settFailureWindowEnd (b d : Nat) : Words.Statement (.settFailureWindowEnd b d) := trivial
theorem Words.scrubLine (site : Site) (corrected : Bool) : Words.Statement (.scrubLine site corrected) := trivial
theorem Words.auditReplayComplete (item unit : Nat) (abandoned : Bool) : Words.Statement (.auditReplayComplete item unit abandoned) := trivial
theorem Words.auditArbitration (item unit : Nat) : Words.Statement (.auditArbitration item unit) := trivial
theorem Words.auditDueTime (engine : Bool) (unit : Nat) : Words.Statement (.auditDueTime engine unit) := trivial
theorem Words.probeStart (engine : Bool) (unit : Nat) : Words.Statement (.probeStart engine unit) := trivial
theorem Words.probeComplete (engine : Bool) (unit other third : Nat) : Words.Statement (.probeComplete engine unit other third) := trivial
theorem Words.machineCheckRecord (d addr det ctx kind unit sev how : Nat) : Words.Statement (.machineCheckRecord d addr det ctx kind unit sev how) := trivial
theorem Words.deviceMachineCheck (d kind unit how : Nat) : Words.Statement (.deviceMachineCheck d kind unit how) := trivial
theorem Words.powerWindow (above : Bool) : Words.Statement (.powerWindow above) := trivial
theorem Words.envelopeBreach (hot : Bool) : Words.Statement (.envelopeBreach hot) := trivial
theorem Words.reset : Words.Statement (.reset) := trivial
theorem Words.wipeComplete : Words.Statement (.wipeComplete) := trivial
theorem Words.measurementExtend (slot digest : Nat) : Words.Statement (.measurementExtend slot digest) := trivial
theorem Words.getVersion (peer : Option Nat) : Words.Statement (.getVersion peer) := trivial
theorem Words.getCapabilities (peer : Option Nat) : Words.Statement (.getCapabilities peer) := trivial
theorem Words.negotiateAlgorithms (peer : Option Nat) (common : Bool) : Words.Statement (.negotiateAlgorithms peer common) := trivial
theorem Words.getDigests (peer : Option Nat) : Words.Statement (.getDigests peer) := trivial
theorem Words.getCertificate (peer : Option Nat) : Words.Statement (.getCertificate peer) := trivial
theorem Words.challenge (peer : Option Nat) : Words.Statement (.challenge peer) := trivial
theorem Words.getMeasurements (peer session : Option Nat) (index : Nat) : Words.Statement (.getMeasurements peer session index) := trivial
theorem Words.keyExchange (peer : Option Nat) : Words.Statement (.keyExchange peer) := trivial
theorem Words.finish (peer : Option Nat) (session : Nat) (leaf : Option Nat) : Words.Statement (.finish peer session leaf) := trivial
theorem Words.heartbeat (peer : Option Nat) (session : Nat) : Words.Statement (.heartbeat peer session) := trivial
theorem Words.keyUpdate (peer : Option Nat) (session : Nat) : Words.Statement (.keyUpdate peer session) := trivial
theorem Words.endSession (peer : Option Nat) (session : Nat) : Words.Statement (.endSession peer session) := trivial
theorem Words.vendorDefinedRequest (peer : Option Nat) (session payload : Nat) : Words.Statement (.vendorDefinedRequest peer session payload) := trivial
theorem Words.unsupportedRequest (peer : Option Nat) : Words.Statement (.unsupportedRequest peer) := trivial
theorem Words.firmwareStage (image : Nat) : Words.Statement (.firmwareStage image) := trivial
theorem Words.firmwareActivate : Words.Statement (.firmwareActivate) := trivial
theorem Words.firmwareCommit : Words.Statement (.firmwareCommit) := trivial
theorem Words.firmwareAbandon : Words.Statement (.firmwareAbandon) := trivial
theorem Words.lifeCycleTransition (target token : Nat) : Words.Statement (.lifeCycleTransition target token) := trivial
theorem Words.hostBar2Access (off size : Nat) (data : Option Nat) : Words.Statement (.hostBar2Access off size data) := trivial
theorem Words.singleFault (site : Site) (uncorrectable : Bool) : Words.Statement (.singleFault site uncorrectable) := trivial

end Sys2Proof.Laws
end

