-- ==== Sys2Proof/Laws/Seals.lean ====
section
/-! SUPPORT. Sealed units and flits: the bytes of a unit say the unit, a unit verifies under the key that sealed it, and a flit passes
the check that its sender gave it. -/
namespace Sys2Proof.Machine
open Sys2Proof

/-- The fields of a unit lie within their widths (R388). -/
structure SealedUnit.Fits (u : SealedUnit) : Prop where
  cipher : u.cipher < 2 ^ 2048
  tag : u.tag < 2 ^ 128
  ctr : u.ctr < 2 ^ 48
  rest : u.rest < 2 ^ 79

theorem b2n_mod_beq (b : Bool) (n : Nat) : ((b2n b + 2 * n) % 2 == 1) = b := by
  cases b <;> simp [b2n, Nat.add_mod]

/-- A unit read back from its 288 bytes. -/
theorem sealedUnitOf_number {u : SealedUnit} (h : u.Fits) : sealedUnitOf u.number = u := by
  obtain ⟨c, t, k, p, r⟩ := u
  obtain ⟨hc, ht, hk, hr⟩ := h
  dsimp only at hc ht hk hr
  have e1 : SealedUnit.number ⟨c, t, k, p, r⟩ = c + 2 ^ 2048 * (t + 2 ^ 128 * (k + 2 ^ 48 * (b2n p + 2 * r))) := by
    have p1 : (2 : Nat) ^ 2176 = 2 ^ 2048 * 2 ^ 128 := by rw [← pow_add]
    have p2 : (2 : Nat) ^ 49 = 2 ^ 48 * 2 := by rw [← pow_succ]
    simp only [SealedUnit.number, SealedUnit.trailer, p1, p2]
    generalize (2 : Nat) ^ 2048 = x
    generalize (2 : Nat) ^ 128 = y
    generalize (2 : Nat) ^ 48 = z
    ring
  have d1 : (c + 2 ^ 2048 * (t + 2 ^ 128 * (k + 2 ^ 48 * (b2n p + 2 * r)))) / 2 ^ 2048 = t + 2 ^ 128 * (k + 2 ^ 48 * (b2n p + 2 * r)) := by
    rw [Nat.add_mul_div_left _ _ (Nat.two_pow_pos _), Nat.div_eq_of_lt hc, Nat.zero_add]
  have d2 : (t + 2 ^ 128 * (k + 2 ^ 48 * (b2n p + 2 * r))) / 2 ^ 128 = k + 2 ^ 48 * (b2n p + 2 * r) := by
    rw [Nat.add_mul_div_left _ _ (Nat.two_pow_pos _), Nat.div_eq_of_lt ht, Nat.zero_add]
  have d3 : (k + 2 ^ 48 * (b2n p + 2 * r)) / 2 ^ 48 = b2n p + 2 * r := by
    rw [Nat.add_mul_div_left _ _ (Nat.two_pow_pos _), Nat.div_eq_of_lt hk, Nat.zero_add]
  have d4 : (b2n p + 2 * r) / 2 = r := by cases p <;> (simp [b2n]; try omega)
  have q1 (n : Nat) : n / 2 ^ 2176 = n / 2 ^ 2048 / 2 ^ 128 := by rw [Nat.div_div_eq_div_mul, ← pow_add]
  have q2 (n : Nat) : n / 2 ^ 2224 = n / 2 ^ 2176 / 2 ^ 48 := by rw [Nat.div_div_eq_div_mul, ← pow_add]
  rw [e1]
  unfold sealedUnitOf sealedUnitFrom
  rw [q2, q1, d1, d2, d3, d4, Nat.add_mul_mod_self_left, Nat.add_mul_mod_self_left, Nat.add_mul_mod_self_left,
    Nat.mod_eq_of_lt hc, Nat.mod_eq_of_lt ht, Nat.mod_eq_of_lt hk, Nat.mod_eq_of_lt hr, b2n_mod_beq]

/-- A unit put together from its parts. -/
theorem sealedUnitFrom_parts {u : SealedUnit} (h : u.Fits) : sealedUnitFrom u.cipher u.tag u.ctr (b2n u.phase + 2 * u.rest) = u := by
  obtain ⟨c, t, k, p, r⟩ := u
  obtain ⟨hc, ht, hk, hr⟩ := h
  dsimp only at hc ht hk hr
  have d4 : (b2n p + 2 * r) / 2 = r := by cases p <;> (simp [b2n]; try omega)
  simp only [sealedUnitFrom, d4, Nat.mod_eq_of_lt hc, Nat.mod_eq_of_lt ht, Nat.mod_eq_of_lt hk, Nat.mod_eq_of_lt hr, b2n_mod_beq]

/-- A sealed unit fits its 288 bytes. -/
theorem sealUnit_fits {key ident ctr plain : Nat} {phase : Bool} (h : ctr < 2 ^ 48) : (sealUnit key ident ctr phase plain).Fits :=
  ⟨Nat.mod_lt _ (Nat.two_pow_pos _), Nat.mod_lt _ (Nat.two_pow_pos _), h, by simp [sealUnit]⟩

/-- It verifies under its key for its link. -/
theorem sealUnit_verifies (key ident ctr plain : Nat) (phase : Bool) : (sealUnit key ident ctr phase plain).verifies key ident = true := by
  simp [SealedUnit.verifies, sealUnit, SealedUnit.trailer]

/-! ## Flits -/

theorem crcBits_lt {c : Nat} (h : c < 2 ^ 32) (n : Nat) : crcBits n c < 2 ^ 32 := by
  induction n generalizing c with
  | zero => exact h
  | succ n ih =>
    rw [crcBits]
    refine ih ?_
    split
    · exact Nat.xor_lt_two_pow (Nat.lt_of_le_of_lt (Nat.div_le_self ..) h) (by decide)
    · exact Nat.lt_of_le_of_lt (Nat.div_le_self ..) h

theorem crc32_lt (l : List Byte) : crc32 l < 2 ^ 32 := by
  have go (l : List Byte) (c : Nat) (h : c < 2 ^ 32) : l.foldl (fun c b => crcBits 8 (c ^^^ b.toNat)) c < 2 ^ 32 := by
    induction l generalizing c with
    | nil => exact h
    | cons b l ih => exact ih _ (crcBits_lt (Nat.xor_lt_two_pow h (Nat.lt_trans b.isLt (by decide))) 8)
  exact Nat.xor_lt_two_pow (go l _ (by decide)) (by decide)

/-- The check of a flit lies above its header fields. -/
theorem flitField_withCrc (f : Nat) {lo n : Nat} (h : lo + n ≤ 96) : flitField (withCrc f) lo n = flitField f lo n := by
  obtain ⟨k, hk⟩ := Nat.exists_eq_add_of_le h
  unfold flitField withCrc
  generalize crc32 _ = c
  have e : f + c * 2 ^ 96 = f + 2 ^ lo * (2 ^ n * (2 ^ k * c)) := by
    rw [hk, Nat.pow_add, Nat.pow_add, Nat.mul_comm c, Nat.mul_assoc, Nat.mul_assoc]
  rw [e, Nat.add_mul_div_left _ _ (Nat.two_pow_pos _), Nat.add_mul_mod_self_left]

/-- A flit passes the check that its sender gave it (R356). -/
theorem flitOk_withCrc {f : Nat} (h : flitCrc f = 0) : flitOk (withCrc f) = true := by
  have hc := crc32_lt (leBytes 256 f)
  have e : flitCrc (withCrc f) = crc32 (leBytes 256 f) := by
    unfold flitCrc flitField withCrc at *
    generalize crc32 (leBytes 256 f) = c at *
    rw [Nat.add_mul_div_right _ _ (Nat.two_pow_pos _), Nat.add_mod, h, Nat.zero_add, Nat.mod_mod, Nat.mod_eq_of_lt hc]
  unfold flitOk
  rw [e, withCrc, Nat.add_sub_cancel, beq_self_eq_true]

/-- Not every flit passes: of two that differ in their check alone, one fails. -/
theorem flitOk_fails : ∃ f, flitOk f = false := by
  by_cases h : flitOk 0 = true
  · refine ⟨2 ^ 96, Bool.eq_false_iff.2 fun h1 => ?_⟩
    have e0 : crc32 (leBytes 256 0) = 0 := by simpa [flitOk, flitCrc, flitField] using h
    have e1 : crc32 (leBytes 256 0) = 1 := by simpa [flitOk, flitCrc, flitField] using h1
    omega
  · exact ⟨0, Bool.eq_false_iff.2 h⟩

end Sys2Proof.Machine
end

