-- ==== Sys2Proof/Laws/State.lean ====
section
/-! SUPPORT. One lemma for each field that an update of the state or of a team leaves, and one for each that it sets: what a proof
cites where it would unfold a record update. -/
namespace Sys2Proof.Machine
open Sys2Proof

/-! ## Updates of the state -/

section
variable (s : State) (f : Team → Team) (n k : Nat)

/-! `onCur` -/

@[simp] theorem onCur_part : (s.onCur f).part = s.part := rfl
@[simp] theorem onCur_cur : (s.onCur f).cur = f s.cur := rfl
@[simp] theorem onCur_others : (s.onCur f).others = s.others := rfl
@[simp] theorem onCur_groups : (s.onCur f).groups = s.groups := rfl
@[simp] theorem onCur_launches : (s.onCur f).launches = s.launches := rfl
@[simp] theorem onCur_clusters : (s.onCur f).clusters = s.clusters := rfl
@[simp] theorem onCur_slices : (s.onCur f).slices = s.slices := rfl
@[simp] theorem onCur_dies : (s.onCur f).dies = s.dies := rfl
@[simp] theorem onCur_hbm : (s.onCur f).hbm = s.hbm := rfl
@[simp] theorem onCur_spad : (s.onCur f).spad = s.spad := rfl
@[simp] theorem onCur_poison : (s.onCur f).poison = s.poison := rfl
@[simp] theorem onCur_mended : (s.onCur f).mended = s.mended := rfl
@[simp] theorem onCur_ghosts : (s.onCur f).ghosts = s.ghosts := rfl
@[simp] theorem onCur_engImgs : (s.onCur f).engImgs = s.engImgs := rfl
@[simp] theorem onCur_supRecs : (s.onCur f).supRecs = s.supRecs := rfl
@[simp] theorem onCur_remotes : (s.onCur f).remotes = s.remotes := rfl
@[simp] theorem onCur_changes : (s.onCur f).changes = s.changes := rfl
@[simp] theorem onCur_podcfg : (s.onCur f).podcfg = s.podcfg := rfl
@[simp] theorem onCur_lcstart : (s.onCur f).lcstart = s.lcstart := rfl
@[simp] theorem onCur_lctail : (s.onCur f).lctail = s.lctail := rfl
@[simp] theorem onCur_lcdone : (s.onCur f).lcdone = s.lcdone := rfl
@[simp] theorem onCur_ctxbase : (s.onCur f).ctxbase = s.ctxbase := rfl
@[simp] theorem onCur_fotbase : (s.onCur f).fotbase = s.fotbase := rfl
@[simp] theorem onCur_mcbase : (s.onCur f).mcbase = s.mcbase := rfl
@[simp] theorem onCur_trinv : (s.onCur f).trinv = s.trinv := rfl
@[simp] theorem onCur_trinvDone : (s.onCur f).trinvDone = s.trinvDone := rfl
@[simp] theorem onCur_walked : (s.onCur f).walked = s.walked := rfl
@[simp] theorem onCur_rly : (s.onCur f).rly = s.rly := rfl
@[simp] theorem onCur_pwin : (s.onCur f).pwin = s.pwin := rfl
@[simp] theorem onCur_scrub : (s.onCur f).scrub = s.scrub := rfl
@[simp] theorem onCur_mtcfg : (s.onCur f).mtcfg = s.mtcfg := rfl
@[simp] theorem onCur_rofs : (s.onCur f).rofs = s.rofs := rfl
@[simp] theorem onCur_hwin : (s.onCur f).hwin = s.hwin := rfl
@[simp] theorem onCur_sett : (s.onCur f).sett = s.sett := rfl
@[simp] theorem onCur_seals : (s.onCur f).seals = s.seals := rfl
@[simp] theorem onCur_staged : (s.onCur f).staged = s.staged := rfl
@[simp] theorem onCur_tcst : (s.onCur f).tcst = s.tcst := rfl
@[simp] theorem onCur_fotst : (s.onCur f).fotst = s.fotst := rfl
@[simp] theorem onCur_pkgLinks : (s.onCur f).pkgLinks = s.pkgLinks := rfl
@[simp] theorem onCur_podLinks : (s.onCur f).podLinks = s.podLinks := rfl
@[simp] theorem onCur_settLinks : (s.onCur f).settLinks = s.settLinks := rfl
@[simp] theorem onCur_eseqTx : (s.onCur f).eseqTx = s.eseqTx := rfl
@[simp] theorem onCur_eseqRx : (s.onCur f).eseqRx = s.eseqRx := rfl
@[simp] theorem onCur_early : (s.onCur f).early = s.early := rfl
@[simp] theorem onCur_podOut : (s.onCur f).podOut = s.podOut := rfl
@[simp] theorem onCur_controlOut : (s.onCur f).controlOut = s.controlOut := rfl
@[simp] theorem onCur_mail : (s.onCur f).mail = s.mail := rfl
@[simp] theorem onCur_mailRead : (s.onCur f).mailRead = s.mailRead := rfl
@[simp] theorem onCur_wire : (s.onCur f).wire = s.wire := rfl
@[simp] theorem onCur_authFailed : (s.onCur f).authFailed = s.authFailed := rfl
@[simp] theorem onCur_linkAuth : (s.onCur f).linkAuth = s.linkAuth := rfl
@[simp] theorem onCur_spdmReqs : (s.onCur f).spdmReqs = s.spdmReqs := rfl
@[simp] theorem onCur_collectives : (s.onCur f).collectives = s.collectives := rfl
@[simp] theorem onCur_settIn : (s.onCur f).settIn = s.settIn := rfl
@[simp] theorem onCur_settOut : (s.onCur f).settOut = s.settOut := rfl
@[simp] theorem onCur_settHeld : (s.onCur f).settHeld = s.settHeld := rfl
@[simp] theorem onCur_osObjects : (s.onCur f).osObjects = s.osObjects := rfl
@[simp] theorem onCur_entriesRead : (s.onCur f).entriesRead = s.entriesRead := rfl
@[simp] theorem onCur_boot : (s.onCur f).boot = s.boot := rfl
@[simp] theorem onCur_hbErr : (s.onCur f).hbErr = s.hbErr := rfl
@[simp] theorem onCur_slots : (s.onCur f).slots = s.slots := rfl
@[simp] theorem onCur_fuses : (s.onCur f).fuses = s.fuses := rfl
@[simp] theorem onCur_flash : (s.onCur f).flash = s.flash := rfl
@[simp] theorem onCur_fw : (s.onCur f).fw = s.fw := rfl
@[simp] theorem onCur_worlds : (s.onCur f).worlds = s.worlds := rfl
@[simp] theorem onCur_osKey : (s.onCur f).osKey = s.osKey := rfl
@[simp] theorem onCur_harts : (s.onCur f).harts = s.harts := rfl
@[simp] theorem onCur_root : (s.onCur f).root = s.root := rfl
@[simp] theorem onCur_rootUp : (s.onCur f).rootUp = s.rootUp := rfl
@[simp] theorem onCur_gpLoads : (s.onCur f).gpLoads = s.gpLoads := rfl
@[simp] theorem onCur_rootLoads : (s.onCur f).rootLoads = s.rootLoads := rfl
@[simp] theorem onCur_agreed : (s.onCur f).agreed = s.agreed := rfl
@[simp] theorem onCur_sessions : (s.onCur f).sessions = s.sessions := rfl
@[simp] theorem onCur_spdmOut : (s.onCur f).spdmOut = s.spdmOut := rfl
@[simp] theorem onCur_hdbin : (s.onCur f).hdbin = s.hdbin := rfl
@[simp] theorem onCur_hdbout : (s.onCur f).hdbout = s.hdbout := rfl
@[simp] theorem onCur_hostOut : (s.onCur f).hostOut = s.hostOut := rfl
@[simp] theorem onCur_msix : (s.onCur f).msix = s.msix := rfl
@[simp] theorem onCur_fbIrq : (s.onCur f).fbIrq = s.fbIrq := rfl
@[simp] theorem onCur_gpFaults : (s.onCur f).gpFaults = s.gpFaults := rfl
@[simp] theorem onCur_rootAlarms : (s.onCur f).rootAlarms = s.rootAlarms := rfl
@[simp] theorem onCur_audits : (s.onCur f).audits = s.audits := rfl
@[simp] theorem onCur_faulty : (s.onCur f).faulty = s.faulty := rfl
@[simp] theorem onCur_probes : (s.onCur f).probes = s.probes := rfl
@[simp] theorem onCur_mcStop : (s.onCur f).mcStop = s.mcStop := rfl
@[simp] theorem onCur_powerCut : (s.onCur f).powerCut = s.powerCut := rfl
@[simp] theorem onCur_ck : (s.onCur f).ck = s.ck := rfl
@[simp] theorem onCur_nextTid : (s.onCur f).nextTid = s.nextTid := rfl
@[simp] theorem onCur_nextId : (s.onCur f).nextId = s.nextId := rfl
@[simp] theorem onCur_events : (s.onCur f).events = s.events := rfl
@[simp] theorem onCur_freeCtr : (s.onCur f).freeCtr = s.freeCtr := rfl
@[simp] theorem onCur_agenda : (s.onCur f).agenda = s.agenda := rfl

/-! `modTeam` -/

@[simp] theorem modTeam_part : (s.modTeam n f).part = s.part := by unfold State.modTeam; split <;> rfl
@[simp] theorem modTeam_cur : (s.modTeam n f).cur = if s.cur.tid = n then f s.cur else s.cur := by unfold State.modTeam; split <;> rfl
@[simp] theorem modTeam_others : (s.modTeam n f).others = if s.cur.tid = n then s.others else updWhere (fun t => t.tid == n) f s.others := by unfold State.modTeam; split <;> rfl
@[simp] theorem modTeam_groups : (s.modTeam n f).groups = s.groups := by unfold State.modTeam; split <;> rfl
@[simp] theorem modTeam_launches : (s.modTeam n f).launches = s.launches := by unfold State.modTeam; split <;> rfl
@[simp] theorem modTeam_clusters : (s.modTeam n f).clusters = s.clusters := by unfold State.modTeam; split <;> rfl
@[simp] theorem modTeam_slices : (s.modTeam n f).slices = s.slices := by unfold State.modTeam; split <;> rfl
@[simp] theorem modTeam_dies : (s.modTeam n f).dies = s.dies := by unfold State.modTeam; split <;> rfl
@[simp] theorem modTeam_hbm : (s.modTeam n f).hbm = s.hbm := by unfold State.modTeam; split <;> rfl
@[simp] theorem modTeam_spad : (s.modTeam n f).spad = s.spad := by unfold State.modTeam; split <;> rfl
@[simp] theorem modTeam_poison : (s.modTeam n f).poison = s.poison := by unfold State.modTeam; split <;> rfl
@[simp] theorem modTeam_mended : (s.modTeam n f).mended = s.mended := by unfold State.modTeam; split <;> rfl
@[simp] theorem modTeam_ghosts : (s.modTeam n f).ghosts = s.ghosts := by unfold State.modTeam; split <;> rfl
@[simp] theorem modTeam_engImgs : (s.modTeam n f).engImgs = s.engImgs := by unfold State.modTeam; split <;> rfl
@[simp] theorem modTeam_supRecs : (s.modTeam n f).supRecs = s.supRecs := by unfold State.modTeam; split <;> rfl
@[simp] theorem modTeam_remotes : (s.modTeam n f).remotes = s.remotes := by unfold State.modTeam; split <;> rfl
@[simp] theorem modTeam_changes : (s.modTeam n f).changes = s.changes := by unfold State.modTeam; split <;> rfl
@[simp] theorem modTeam_podcfg : (s.modTeam n f).podcfg = s.podcfg := by unfold State.modTeam; split <;> rfl
@[simp] theorem modTeam_lcstart : (s.modTeam n f).lcstart = s.lcstart := by unfold State.modTeam; split <;> rfl
@[simp] theorem modTeam_lctail : (s.modTeam n f).lctail = s.lctail := by unfold State.modTeam; split <;> rfl
@[simp] theorem modTeam_lcdone : (s.modTeam n f).lcdone = s.lcdone := by unfold State.modTeam; split <;> rfl
@[simp] theorem modTeam_ctxbase : (s.modTeam n f).ctxbase = s.ctxbase := by unfold State.modTeam; split <;> rfl
@[simp] theorem modTeam_fotbase : (s.modTeam n f).fotbase = s.fotbase := by unfold State.modTeam; split <;> rfl
@[simp] theorem modTeam_mcbase : (s.modTeam n f).mcbase = s.mcbase := by unfold State.modTeam; split <;> rfl
@[simp] theorem modTeam_trinv : (s.modTeam n f).trinv = s.trinv := by unfold State.modTeam; split <;> rfl
@[simp] theorem modTeam_trinvDone : (s.modTeam n f).trinvDone = s.trinvDone := by unfold State.modTeam; split <;> rfl
@[simp] theorem modTeam_walked : (s.modTeam n f).walked = s.walked := by unfold State.modTeam; split <;> rfl
@[simp] theorem modTeam_rly : (s.modTeam n f).rly = s.rly := by unfold State.modTeam; split <;> rfl
@[simp] theorem modTeam_pwin : (s.modTeam n f).pwin = s.pwin := by unfold State.modTeam; split <;> rfl
@[simp] theorem modTeam_scrub : (s.modTeam n f).scrub = s.scrub := by unfold State.modTeam; split <;> rfl
@[simp] theorem modTeam_mtcfg : (s.modTeam n f).mtcfg = s.mtcfg := by unfold State.modTeam; split <;> rfl
@[simp] theorem modTeam_rofs : (s.modTeam n f).rofs = s.rofs := by unfold State.modTeam; split <;> rfl
@[simp] theorem modTeam_hwin : (s.modTeam n f).hwin = s.hwin := by unfold State.modTeam; split <;> rfl
@[simp] theorem modTeam_sett : (s.modTeam n f).sett = s.sett := by unfold State.modTeam; split <;> rfl
@[simp] theorem modTeam_seals : (s.modTeam n f).seals = s.seals := by unfold State.modTeam; split <;> rfl
@[simp] theorem modTeam_staged : (s.modTeam n f).staged = s.staged := by unfold State.modTeam; split <;> rfl
@[simp] theorem modTeam_tcst : (s.modTeam n f).tcst = s.tcst := by unfold State.modTeam; split <;> rfl
@[simp] theorem modTeam_fotst : (s.modTeam n f).fotst = s.fotst := by unfold State.modTeam; split <;> rfl
@[simp] theorem modTeam_pkgLinks : (s.modTeam n f).pkgLinks = s.pkgLinks := by unfold State.modTeam; split <;> rfl
@[simp] theorem modTeam_podLinks : (s.modTeam n f).podLinks = s.podLinks := by unfold State.modTeam; split <;> rfl
@[simp] theorem modTeam_settLinks : (s.modTeam n f).settLinks = s.settLinks := by unfold State.modTeam; split <;> rfl
@[simp] theorem modTeam_eseqTx : (s.modTeam n f).eseqTx = s.eseqTx := by unfold State.modTeam; split <;> rfl
@[simp] theorem modTeam_eseqRx : (s.modTeam n f).eseqRx = s.eseqRx := by unfold State.modTeam; split <;> rfl
@[simp] theorem modTeam_early : (s.modTeam n f).early = s.early := by unfold State.modTeam; split <;> rfl
@[simp] theorem modTeam_podOut : (s.modTeam n f).podOut = s.podOut := by unfold State.modTeam; split <;> rfl
@[simp] theorem modTeam_controlOut : (s.modTeam n f).controlOut = s.controlOut := by unfold State.modTeam; split <;> rfl
@[simp] theorem modTeam_mail : (s.modTeam n f).mail = s.mail := by unfold State.modTeam; split <;> rfl
@[simp] theorem modTeam_mailRead : (s.modTeam n f).mailRead = s.mailRead := by unfold State.modTeam; split <;> rfl
@[simp] theorem modTeam_wire : (s.modTeam n f).wire = s.wire := by unfold State.modTeam; split <;> rfl
@[simp] theorem modTeam_authFailed : (s.modTeam n f).authFailed = s.authFailed := by unfold State.modTeam; split <;> rfl
@[simp] theorem modTeam_linkAuth : (s.modTeam n f).linkAuth = s.linkAuth := by unfold State.modTeam; split <;> rfl
@[simp] theorem modTeam_spdmReqs : (s.modTeam n f).spdmReqs = s.spdmReqs := by unfold State.modTeam; split <;> rfl
@[simp] theorem modTeam_collectives : (s.modTeam n f).collectives = s.collectives := by unfold State.modTeam; split <;> rfl
@[simp] theorem modTeam_settIn : (s.modTeam n f).settIn = s.settIn := by unfold State.modTeam; split <;> rfl
@[simp] theorem modTeam_settOut : (s.modTeam n f).settOut = s.settOut := by unfold State.modTeam; split <;> rfl
@[simp] theorem modTeam_settHeld : (s.modTeam n f).settHeld = s.settHeld := by unfold State.modTeam; split <;> rfl
@[simp] theorem modTeam_osObjects : (s.modTeam n f).osObjects = s.osObjects := by unfold State.modTeam; split <;> rfl
@[simp] theorem modTeam_entriesRead : (s.modTeam n f).entriesRead = s.entriesRead := by unfold State.modTeam; split <;> rfl
@[simp] theorem modTeam_boot : (s.modTeam n f).boot = s.boot := by unfold State.modTeam; split <;> rfl
@[simp] theorem modTeam_hbErr : (s.modTeam n f).hbErr = s.hbErr := by unfold State.modTeam; split <;> rfl
@[simp] theorem modTeam_slots : (s.modTeam n f).slots = s.slots := by unfold State.modTeam; split <;> rfl
@[simp] theorem modTeam_fuses : (s.modTeam n f).fuses = s.fuses := by unfold State.modTeam; split <;> rfl
@[simp] theorem modTeam_flash : (s.modTeam n f).flash = s.flash := by unfold State.modTeam; split <;> rfl
@[simp] theorem modTeam_fw : (s.modTeam n f).fw = s.fw := by unfold State.modTeam; split <;> rfl
@[simp] theorem modTeam_worlds : (s.modTeam n f).worlds = s.worlds := by unfold State.modTeam; split <;> rfl
@[simp] theorem modTeam_osKey : (s.modTeam n f).osKey = s.osKey := by unfold State.modTeam; split <;> rfl
@[simp] theorem modTeam_harts : (s.modTeam n f).harts = s.harts := by unfold State.modTeam; split <;> rfl
@[simp] theorem modTeam_root : (s.modTeam n f).root = s.root := by unfold State.modTeam; split <;> rfl
@[simp] theorem modTeam_rootUp : (s.modTeam n f).rootUp = s.rootUp := by unfold State.modTeam; split <;> rfl
@[simp] theorem modTeam_gpLoads : (s.modTeam n f).gpLoads = s.gpLoads := by unfold State.modTeam; split <;> rfl
@[simp] theorem modTeam_rootLoads : (s.modTeam n f).rootLoads = s.rootLoads := by unfold State.modTeam; split <;> rfl
@[simp] theorem modTeam_agreed : (s.modTeam n f).agreed = s.agreed := by unfold State.modTeam; split <;> rfl
@[simp] theorem modTeam_sessions : (s.modTeam n f).sessions = s.sessions := by unfold State.modTeam; split <;> rfl
@[simp] theorem modTeam_spdmOut : (s.modTeam n f).spdmOut = s.spdmOut := by unfold State.modTeam; split <;> rfl
@[simp] theorem modTeam_hdbin : (s.modTeam n f).hdbin = s.hdbin := by unfold State.modTeam; split <;> rfl
@[simp] theorem modTeam_hdbout : (s.modTeam n f).hdbout = s.hdbout := by unfold State.modTeam; split <;> rfl
@[simp] theorem modTeam_hostOut : (s.modTeam n f).hostOut = s.hostOut := by unfold State.modTeam; split <;> rfl
@[simp] theorem modTeam_msix : (s.modTeam n f).msix = s.msix := by unfold State.modTeam; split <;> rfl
@[simp] theorem modTeam_fbIrq : (s.modTeam n f).fbIrq = s.fbIrq := by unfold State.modTeam; split <;> rfl
@[simp] theorem modTeam_gpFaults : (s.modTeam n f).gpFaults = s.gpFaults := by unfold State.modTeam; split <;> rfl
@[simp] theorem modTeam_rootAlarms : (s.modTeam n f).rootAlarms = s.rootAlarms := by unfold State.modTeam; split <;> rfl
@[simp] theorem modTeam_audits : (s.modTeam n f).audits = s.audits := by unfold State.modTeam; split <;> rfl
@[simp] theorem modTeam_faulty : (s.modTeam n f).faulty = s.faulty := by unfold State.modTeam; split <;> rfl
@[simp] theorem modTeam_probes : (s.modTeam n f).probes = s.probes := by unfold State.modTeam; split <;> rfl
@[simp] theorem modTeam_mcStop : (s.modTeam n f).mcStop = s.mcStop := by unfold State.modTeam; split <;> rfl
@[simp] theorem modTeam_powerCut : (s.modTeam n f).powerCut = s.powerCut := by unfold State.modTeam; split <;> rfl
@[simp] theorem modTeam_ck : (s.modTeam n f).ck = s.ck := by unfold State.modTeam; split <;> rfl
@[simp] theorem modTeam_nextTid : (s.modTeam n f).nextTid = s.nextTid := by unfold State.modTeam; split <;> rfl
@[simp] theorem modTeam_nextId : (s.modTeam n f).nextId = s.nextId := by unfold State.modTeam; split <;> rfl
@[simp] theorem modTeam_events : (s.modTeam n f).events = s.events := by unfold State.modTeam; split <;> rfl
@[simp] theorem modTeam_freeCtr : (s.modTeam n f).freeCtr = s.freeCtr := by unfold State.modTeam; split <;> rfl
@[simp] theorem modTeam_agenda : (s.modTeam n f).agenda = s.agenda := by unfold State.modTeam; split <;> rfl

/-! `drawFree` -/

@[simp] theorem drawFree_part : (s.drawFree).part = s.part := rfl
@[simp] theorem drawFree_cur : (s.drawFree).cur = s.cur := rfl
@[simp] theorem drawFree_others : (s.drawFree).others = s.others := rfl
@[simp] theorem drawFree_groups : (s.drawFree).groups = s.groups := rfl
@[simp] theorem drawFree_launches : (s.drawFree).launches = s.launches := rfl
@[simp] theorem drawFree_clusters : (s.drawFree).clusters = s.clusters := rfl
@[simp] theorem drawFree_slices : (s.drawFree).slices = s.slices := rfl
@[simp] theorem drawFree_dies : (s.drawFree).dies = s.dies := rfl
@[simp] theorem drawFree_hbm : (s.drawFree).hbm = s.hbm := rfl
@[simp] theorem drawFree_spad : (s.drawFree).spad = s.spad := rfl
@[simp] theorem drawFree_poison : (s.drawFree).poison = s.poison := rfl
@[simp] theorem drawFree_mended : (s.drawFree).mended = s.mended := rfl
@[simp] theorem drawFree_ghosts : (s.drawFree).ghosts = s.ghosts := rfl
@[simp] theorem drawFree_engImgs : (s.drawFree).engImgs = s.engImgs := rfl
@[simp] theorem drawFree_supRecs : (s.drawFree).supRecs = s.supRecs := rfl
@[simp] theorem drawFree_remotes : (s.drawFree).remotes = s.remotes := rfl
@[simp] theorem drawFree_changes : (s.drawFree).changes = s.changes := rfl
@[simp] theorem drawFree_podcfg : (s.drawFree).podcfg = s.podcfg := rfl
@[simp] theorem drawFree_lcstart : (s.drawFree).lcstart = s.lcstart := rfl
@[simp] theorem drawFree_lctail : (s.drawFree).lctail = s.lctail := rfl
@[simp] theorem drawFree_lcdone : (s.drawFree).lcdone = s.lcdone := rfl
@[simp] theorem drawFree_ctxbase : (s.drawFree).ctxbase = s.ctxbase := rfl
@[simp] theorem drawFree_fotbase : (s.drawFree).fotbase = s.fotbase := rfl
@[simp] theorem drawFree_mcbase : (s.drawFree).mcbase = s.mcbase := rfl
@[simp] theorem drawFree_trinv : (s.drawFree).trinv = s.trinv := rfl
@[simp] theorem drawFree_trinvDone : (s.drawFree).trinvDone = s.trinvDone := rfl
@[simp] theorem drawFree_walked : (s.drawFree).walked = s.walked := rfl
@[simp] theorem drawFree_rly : (s.drawFree).rly = s.rly := rfl
@[simp] theorem drawFree_pwin : (s.drawFree).pwin = s.pwin := rfl
@[simp] theorem drawFree_scrub : (s.drawFree).scrub = s.scrub := rfl
@[simp] theorem drawFree_mtcfg : (s.drawFree).mtcfg = s.mtcfg := rfl
@[simp] theorem drawFree_rofs : (s.drawFree).rofs = s.rofs := rfl
@[simp] theorem drawFree_hwin : (s.drawFree).hwin = s.hwin := rfl
@[simp] theorem drawFree_sett : (s.drawFree).sett = s.sett := rfl
@[simp] theorem drawFree_seals : (s.drawFree).seals = s.seals := rfl
@[simp] theorem drawFree_staged : (s.drawFree).staged = s.staged := rfl
@[simp] theorem drawFree_tcst : (s.drawFree).tcst = s.tcst := rfl
@[simp] theorem drawFree_fotst : (s.drawFree).fotst = s.fotst := rfl
@[simp] theorem drawFree_pkgLinks : (s.drawFree).pkgLinks = s.pkgLinks := rfl
@[simp] theorem drawFree_podLinks : (s.drawFree).podLinks = s.podLinks := rfl
@[simp] theorem drawFree_settLinks : (s.drawFree).settLinks = s.settLinks := rfl
@[simp] theorem drawFree_eseqTx : (s.drawFree).eseqTx = s.eseqTx := rfl
@[simp] theorem drawFree_eseqRx : (s.drawFree).eseqRx = s.eseqRx := rfl
@[simp] theorem drawFree_early : (s.drawFree).early = s.early := rfl
@[simp] theorem drawFree_podOut : (s.drawFree).podOut = s.podOut := rfl
@[simp] theorem drawFree_controlOut : (s.drawFree).controlOut = s.controlOut := rfl
@[simp] theorem drawFree_mail : (s.drawFree).mail = s.mail := rfl
@[simp] theorem drawFree_mailRead : (s.drawFree).mailRead = s.mailRead := rfl
@[simp] theorem drawFree_wire : (s.drawFree).wire = s.wire := rfl
@[simp] theorem drawFree_authFailed : (s.drawFree).authFailed = s.authFailed := rfl
@[simp] theorem drawFree_linkAuth : (s.drawFree).linkAuth = s.linkAuth := rfl
@[simp] theorem drawFree_spdmReqs : (s.drawFree).spdmReqs = s.spdmReqs := rfl
@[simp] theorem drawFree_collectives : (s.drawFree).collectives = s.collectives := rfl
@[simp] theorem drawFree_settIn : (s.drawFree).settIn = s.settIn := rfl
@[simp] theorem drawFree_settOut : (s.drawFree).settOut = s.settOut := rfl
@[simp] theorem drawFree_settHeld : (s.drawFree).settHeld = s.settHeld := rfl
@[simp] theorem drawFree_osObjects : (s.drawFree).osObjects = s.osObjects := rfl
@[simp] theorem drawFree_entriesRead : (s.drawFree).entriesRead = s.entriesRead := rfl
@[simp] theorem drawFree_boot : (s.drawFree).boot = s.boot := rfl
@[simp] theorem drawFree_hbErr : (s.drawFree).hbErr = s.hbErr := rfl
@[simp] theorem drawFree_slots : (s.drawFree).slots = s.slots := rfl
@[simp] theorem drawFree_fuses : (s.drawFree).fuses = s.fuses := rfl
@[simp] theorem drawFree_flash : (s.drawFree).flash = s.flash := rfl
@[simp] theorem drawFree_fw : (s.drawFree).fw = s.fw := rfl
@[simp] theorem drawFree_worlds : (s.drawFree).worlds = s.worlds := rfl
@[simp] theorem drawFree_osKey : (s.drawFree).osKey = s.osKey := rfl
@[simp] theorem drawFree_harts : (s.drawFree).harts = s.harts := rfl
@[simp] theorem drawFree_root : (s.drawFree).root = s.root := rfl
@[simp] theorem drawFree_rootUp : (s.drawFree).rootUp = s.rootUp := rfl
@[simp] theorem drawFree_gpLoads : (s.drawFree).gpLoads = s.gpLoads := rfl
@[simp] theorem drawFree_rootLoads : (s.drawFree).rootLoads = s.rootLoads := rfl
@[simp] theorem drawFree_agreed : (s.drawFree).agreed = s.agreed := rfl
@[simp] theorem drawFree_sessions : (s.drawFree).sessions = s.sessions := rfl
@[simp] theorem drawFree_spdmOut : (s.drawFree).spdmOut = s.spdmOut := rfl
@[simp] theorem drawFree_hdbin : (s.drawFree).hdbin = s.hdbin := rfl
@[simp] theorem drawFree_hdbout : (s.drawFree).hdbout = s.hdbout := rfl
@[simp] theorem drawFree_hostOut : (s.drawFree).hostOut = s.hostOut := rfl
@[simp] theorem drawFree_msix : (s.drawFree).msix = s.msix := rfl
@[simp] theorem drawFree_fbIrq : (s.drawFree).fbIrq = s.fbIrq := rfl
@[simp] theorem drawFree_gpFaults : (s.drawFree).gpFaults = s.gpFaults := rfl
@[simp] theorem drawFree_rootAlarms : (s.drawFree).rootAlarms = s.rootAlarms := rfl
@[simp] theorem drawFree_audits : (s.drawFree).audits = s.audits := rfl
@[simp] theorem drawFree_faulty : (s.drawFree).faulty = s.faulty := rfl
@[simp] theorem drawFree_probes : (s.drawFree).probes = s.probes := rfl
@[simp] theorem drawFree_mcStop : (s.drawFree).mcStop = s.mcStop := rfl
@[simp] theorem drawFree_powerCut : (s.drawFree).powerCut = s.powerCut := rfl
@[simp] theorem drawFree_ck : (s.drawFree).ck = s.ck := rfl
@[simp] theorem drawFree_nextTid : (s.drawFree).nextTid = s.nextTid := rfl
@[simp] theorem drawFree_nextId : (s.drawFree).nextId = s.nextId := rfl
@[simp] theorem drawFree_events : (s.drawFree).events = s.events := rfl
@[simp] theorem drawFree_freeCtr : (s.drawFree).freeCtr = s.freeCtr + 1 := rfl
@[simp] theorem drawFree_agenda : (s.drawFree).agenda = s.agenda := rfl

variable (fg : Group → Group) (fl : Launch → Launch) (fc : Cluster → Cluster) (fd : Die → Die)

/-! `modGroup` -/

@[simp] theorem modGroup_part : (s.modGroup n fg).part = s.part := rfl
@[simp] theorem modGroup_cur : (s.modGroup n fg).cur = s.cur := rfl
@[simp] theorem modGroup_others : (s.modGroup n fg).others = s.others := rfl
@[simp] theorem modGroup_groups : (s.modGroup n fg).groups = updWhere (fun g => g.handle == n) fg s.groups := rfl
@[simp] theorem modGroup_launches : (s.modGroup n fg).launches = s.launches := rfl
@[simp] theorem modGroup_clusters : (s.modGroup n fg).clusters = s.clusters := rfl
@[simp] theorem modGroup_slices : (s.modGroup n fg).slices = s.slices := rfl
@[simp] theorem modGroup_dies : (s.modGroup n fg).dies = s.dies := rfl
@[simp] theorem modGroup_hbm : (s.modGroup n fg).hbm = s.hbm := rfl
@[simp] theorem modGroup_spad : (s.modGroup n fg).spad = s.spad := rfl
@[simp] theorem modGroup_poison : (s.modGroup n fg).poison = s.poison := rfl
@[simp] theorem modGroup_mended : (s.modGroup n fg).mended = s.mended := rfl
@[simp] theorem modGroup_ghosts : (s.modGroup n fg).ghosts = s.ghosts := rfl
@[simp] theorem modGroup_engImgs : (s.modGroup n fg).engImgs = s.engImgs := rfl
@[simp] theorem modGroup_supRecs : (s.modGroup n fg).supRecs = s.supRecs := rfl
@[simp] theorem modGroup_remotes : (s.modGroup n fg).remotes = s.remotes := rfl
@[simp] theorem modGroup_changes : (s.modGroup n fg).changes = s.changes := rfl
@[simp] theorem modGroup_podcfg : (s.modGroup n fg).podcfg = s.podcfg := rfl
@[simp] theorem modGroup_lcstart : (s.modGroup n fg).lcstart = s.lcstart := rfl
@[simp] theorem modGroup_lctail : (s.modGroup n fg).lctail = s.lctail := rfl
@[simp] theorem modGroup_lcdone : (s.modGroup n fg).lcdone = s.lcdone := rfl
@[simp] theorem modGroup_ctxbase : (s.modGroup n fg).ctxbase = s.ctxbase := rfl
@[simp] theorem modGroup_fotbase : (s.modGroup n fg).fotbase = s.fotbase := rfl
@[simp] theorem modGroup_mcbase : (s.modGroup n fg).mcbase = s.mcbase := rfl
@[simp] theorem modGroup_trinv : (s.modGroup n fg).trinv = s.trinv := rfl
@[simp] theorem modGroup_trinvDone : (s.modGroup n fg).trinvDone = s.trinvDone := rfl
@[simp] theorem modGroup_walked : (s.modGroup n fg).walked = s.walked := rfl
@[simp] theorem modGroup_rly : (s.modGroup n fg).rly = s.rly := rfl
@[simp] theorem modGroup_pwin : (s.modGroup n fg).pwin = s.pwin := rfl
@[simp] theorem modGroup_scrub : (s.modGroup n fg).scrub = s.scrub := rfl
@[simp] theorem modGroup_mtcfg : (s.modGroup n fg).mtcfg = s.mtcfg := rfl
@[simp] theorem modGroup_rofs : (s.modGroup n fg).rofs = s.rofs := rfl
@[simp] theorem modGroup_hwin : (s.modGroup n fg).hwin = s.hwin := rfl
@[simp] theorem modGroup_sett : (s.modGroup n fg).sett = s.sett := rfl
@[simp] theorem modGroup_seals : (s.modGroup n fg).seals = s.seals := rfl
@[simp] theorem modGroup_staged : (s.modGroup n fg).staged = s.staged := rfl
@[simp] theorem modGroup_tcst : (s.modGroup n fg).tcst = s.tcst := rfl
@[simp] theorem modGroup_fotst : (s.modGroup n fg).fotst = s.fotst := rfl
@[simp] theorem modGroup_pkgLinks : (s.modGroup n fg).pkgLinks = s.pkgLinks := rfl
@[simp] theorem modGroup_podLinks : (s.modGroup n fg).podLinks = s.podLinks := rfl
@[simp] theorem modGroup_settLinks : (s.modGroup n fg).settLinks = s.settLinks := rfl
@[simp] theorem modGroup_eseqTx : (s.modGroup n fg).eseqTx = s.eseqTx := rfl
@[simp] theorem modGroup_eseqRx : (s.modGroup n fg).eseqRx = s.eseqRx := rfl
@[simp] theorem modGroup_early : (s.modGroup n fg).early = s.early := rfl
@[simp] theorem modGroup_podOut : (s.modGroup n fg).podOut = s.podOut := rfl
@[simp] theorem modGroup_controlOut : (s.modGroup n fg).controlOut = s.controlOut := rfl
@[simp] theorem modGroup_mail : (s.modGroup n fg).mail = s.mail := rfl
@[simp] theorem modGroup_mailRead : (s.modGroup n fg).mailRead = s.mailRead := rfl
@[simp] theorem modGroup_wire : (s.modGroup n fg).wire = s.wire := rfl
@[simp] theorem modGroup_authFailed : (s.modGroup n fg).authFailed = s.authFailed := rfl
@[simp] theorem modGroup_linkAuth : (s.modGroup n fg).linkAuth = s.linkAuth := rfl
@[simp] theorem modGroup_spdmReqs : (s.modGroup n fg).spdmReqs = s.spdmReqs := rfl
@[simp] theorem modGroup_collectives : (s.modGroup n fg).collectives = s.collectives := rfl
@[simp] theorem modGroup_settIn : (s.modGroup n fg).settIn = s.settIn := rfl
@[simp] theorem modGroup_settOut : (s.modGroup n fg).settOut = s.settOut := rfl
@[simp] theorem modGroup_settHeld : (s.modGroup n fg).settHeld = s.settHeld := rfl
@[simp] theorem modGroup_osObjects : (s.modGroup n fg).osObjects = s.osObjects := rfl
@[simp] theorem modGroup_entriesRead : (s.modGroup n fg).entriesRead = s.entriesRead := rfl
@[simp] theorem modGroup_boot : (s.modGroup n fg).boot = s.boot := rfl
@[simp] theorem modGroup_hbErr : (s.modGroup n fg).hbErr = s.hbErr := rfl
@[simp] theorem modGroup_slots : (s.modGroup n fg).slots = s.slots := rfl
@[simp] theorem modGroup_fuses : (s.modGroup n fg).fuses = s.fuses := rfl
@[simp] theorem modGroup_flash : (s.modGroup n fg).flash = s.flash := rfl
@[simp] theorem modGroup_fw : (s.modGroup n fg).fw = s.fw := rfl
@[simp] theorem modGroup_worlds : (s.modGroup n fg).worlds = s.worlds := rfl
@[simp] theorem modGroup_osKey : (s.modGroup n fg).osKey = s.osKey := rfl
@[simp] theorem modGroup_harts : (s.modGroup n fg).harts = s.harts := rfl
@[simp] theorem modGroup_root : (s.modGroup n fg).root = s.root := rfl
@[simp] theorem modGroup_rootUp : (s.modGroup n fg).rootUp = s.rootUp := rfl
@[simp] theorem modGroup_gpLoads : (s.modGroup n fg).gpLoads = s.gpLoads := rfl
@[simp] theorem modGroup_rootLoads : (s.modGroup n fg).rootLoads = s.rootLoads := rfl
@[simp] theorem modGroup_agreed : (s.modGroup n fg).agreed = s.agreed := rfl
@[simp] theorem modGroup_sessions : (s.modGroup n fg).sessions = s.sessions := rfl
@[simp] theorem modGroup_spdmOut : (s.modGroup n fg).spdmOut = s.spdmOut := rfl
@[simp] theorem modGroup_hdbin : (s.modGroup n fg).hdbin = s.hdbin := rfl
@[simp] theorem modGroup_hdbout : (s.modGroup n fg).hdbout = s.hdbout := rfl
@[simp] theorem modGroup_hostOut : (s.modGroup n fg).hostOut = s.hostOut := rfl
@[simp] theorem modGroup_msix : (s.modGroup n fg).msix = s.msix := rfl
@[simp] theorem modGroup_fbIrq : (s.modGroup n fg).fbIrq = s.fbIrq := rfl
@[simp] theorem modGroup_gpFaults : (s.modGroup n fg).gpFaults = s.gpFaults := rfl
@[simp] theorem modGroup_rootAlarms : (s.modGroup n fg).rootAlarms = s.rootAlarms := rfl
@[simp] theorem modGroup_audits : (s.modGroup n fg).audits = s.audits := rfl
@[simp] theorem modGroup_faulty : (s.modGroup n fg).faulty = s.faulty := rfl
@[simp] theorem modGroup_probes : (s.modGroup n fg).probes = s.probes := rfl
@[simp] theorem modGroup_mcStop : (s.modGroup n fg).mcStop = s.mcStop := rfl
@[simp] theorem modGroup_powerCut : (s.modGroup n fg).powerCut = s.powerCut := rfl
@[simp] theorem modGroup_ck : (s.modGroup n fg).ck = s.ck := rfl
@[simp] theorem modGroup_nextTid : (s.modGroup n fg).nextTid = s.nextTid := rfl
@[simp] theorem modGroup_nextId : (s.modGroup n fg).nextId = s.nextId := rfl
@[simp] theorem modGroup_events : (s.modGroup n fg).events = s.events := rfl
@[simp] theorem modGroup_freeCtr : (s.modGroup n fg).freeCtr = s.freeCtr := rfl
@[simp] theorem modGroup_agenda : (s.modGroup n fg).agenda = s.agenda := rfl

/-! `modLaunch` -/

@[simp] theorem modLaunch_part : (s.modLaunch n fl).part = s.part := rfl
@[simp] theorem modLaunch_cur : (s.modLaunch n fl).cur = s.cur := rfl
@[simp] theorem modLaunch_others : (s.modLaunch n fl).others = s.others := rfl
@[simp] theorem modLaunch_groups : (s.modLaunch n fl).groups = s.groups := rfl
@[simp] theorem modLaunch_launches : (s.modLaunch n fl).launches = updWhere (fun l => l.handle == n) fl s.launches := rfl
@[simp] theorem modLaunch_clusters : (s.modLaunch n fl).clusters = s.clusters := rfl
@[simp] theorem modLaunch_slices : (s.modLaunch n fl).slices = s.slices := rfl
@[simp] theorem modLaunch_dies : (s.modLaunch n fl).dies = s.dies := rfl
@[simp] theorem modLaunch_hbm : (s.modLaunch n fl).hbm = s.hbm := rfl
@[simp] theorem modLaunch_spad : (s.modLaunch n fl).spad = s.spad := rfl
@[simp] theorem modLaunch_poison : (s.modLaunch n fl).poison = s.poison := rfl
@[simp] theorem modLaunch_mended : (s.modLaunch n fl).mended = s.mended := rfl
@[simp] theorem modLaunch_ghosts : (s.modLaunch n fl).ghosts = s.ghosts := rfl
@[simp] theorem modLaunch_engImgs : (s.modLaunch n fl).engImgs = s.engImgs := rfl
@[simp] theorem modLaunch_supRecs : (s.modLaunch n fl).supRecs = s.supRecs := rfl
@[simp] theorem modLaunch_remotes : (s.modLaunch n fl).remotes = s.remotes := rfl
@[simp] theorem modLaunch_changes : (s.modLaunch n fl).changes = s.changes := rfl
@[simp] theorem modLaunch_podcfg : (s.modLaunch n fl).podcfg = s.podcfg := rfl
@[simp] theorem modLaunch_lcstart : (s.modLaunch n fl).lcstart = s.lcstart := rfl
@[simp] theorem modLaunch_lctail : (s.modLaunch n fl).lctail = s.lctail := rfl
@[simp] theorem modLaunch_lcdone : (s.modLaunch n fl).lcdone = s.lcdone := rfl
@[simp] theorem modLaunch_ctxbase : (s.modLaunch n fl).ctxbase = s.ctxbase := rfl
@[simp] theorem modLaunch_fotbase : (s.modLaunch n fl).fotbase = s.fotbase := rfl
@[simp] theorem modLaunch_mcbase : (s.modLaunch n fl).mcbase = s.mcbase := rfl
@[simp] theorem modLaunch_trinv : (s.modLaunch n fl).trinv = s.trinv := rfl
@[simp] theorem modLaunch_trinvDone : (s.modLaunch n fl).trinvDone = s.trinvDone := rfl
@[simp] theorem modLaunch_walked : (s.modLaunch n fl).walked = s.walked := rfl
@[simp] theorem modLaunch_rly : (s.modLaunch n fl).rly = s.rly := rfl
@[simp] theorem modLaunch_pwin : (s.modLaunch n fl).pwin = s.pwin := rfl
@[simp] theorem modLaunch_scrub : (s.modLaunch n fl).scrub = s.scrub := rfl
@[simp] theorem modLaunch_mtcfg : (s.modLaunch n fl).mtcfg = s.mtcfg := rfl
@[simp] theorem modLaunch_rofs : (s.modLaunch n fl).rofs = s.rofs := rfl
@[simp] theorem modLaunch_hwin : (s.modLaunch n fl).hwin = s.hwin := rfl
@[simp] theorem modLaunch_sett : (s.modLaunch n fl).sett = s.sett := rfl
@[simp] theorem modLaunch_seals : (s.modLaunch n fl).seals = s.seals := rfl
@[simp] theorem modLaunch_staged : (s.modLaunch n fl).staged = s.staged := rfl
@[simp] theorem modLaunch_tcst : (s.modLaunch n fl).tcst = s.tcst := rfl
@[simp] theorem modLaunch_fotst : (s.modLaunch n fl).fotst = s.fotst := rfl
@[simp] theorem modLaunch_pkgLinks : (s.modLaunch n fl).pkgLinks = s.pkgLinks := rfl
@[simp] theorem modLaunch_podLinks : (s.modLaunch n fl).podLinks = s.podLinks := rfl
@[simp] theorem modLaunch_settLinks : (s.modLaunch n fl).settLinks = s.settLinks := rfl
@[simp] theorem modLaunch_eseqTx : (s.modLaunch n fl).eseqTx = s.eseqTx := rfl
@[simp] theorem modLaunch_eseqRx : (s.modLaunch n fl).eseqRx = s.eseqRx := rfl
@[simp] theorem modLaunch_early : (s.modLaunch n fl).early = s.early := rfl
@[simp] theorem modLaunch_podOut : (s.modLaunch n fl).podOut = s.podOut := rfl
@[simp] theorem modLaunch_controlOut : (s.modLaunch n fl).controlOut = s.controlOut := rfl
@[simp] theorem modLaunch_mail : (s.modLaunch n fl).mail = s.mail := rfl
@[simp] theorem modLaunch_mailRead : (s.modLaunch n fl).mailRead = s.mailRead := rfl
@[simp] theorem modLaunch_wire : (s.modLaunch n fl).wire = s.wire := rfl
@[simp] theorem modLaunch_authFailed : (s.modLaunch n fl).authFailed = s.authFailed := rfl
@[simp] theorem modLaunch_linkAuth : (s.modLaunch n fl).linkAuth = s.linkAuth := rfl
@[simp] theorem modLaunch_spdmReqs : (s.modLaunch n fl).spdmReqs = s.spdmReqs := rfl
@[simp] theorem modLaunch_collectives : (s.modLaunch n fl).collectives = s.collectives := rfl
@[simp] theorem modLaunch_settIn : (s.modLaunch n fl).settIn = s.settIn := rfl
@[simp] theorem modLaunch_settOut : (s.modLaunch n fl).settOut = s.settOut := rfl
@[simp] theorem modLaunch_settHeld : (s.modLaunch n fl).settHeld = s.settHeld := rfl
@[simp] theorem modLaunch_osObjects : (s.modLaunch n fl).osObjects = s.osObjects := rfl
@[simp] theorem modLaunch_entriesRead : (s.modLaunch n fl).entriesRead = s.entriesRead := rfl
@[simp] theorem modLaunch_boot : (s.modLaunch n fl).boot = s.boot := rfl
@[simp] theorem modLaunch_hbErr : (s.modLaunch n fl).hbErr = s.hbErr := rfl
@[simp] theorem modLaunch_slots : (s.modLaunch n fl).slots = s.slots := rfl
@[simp] theorem modLaunch_fuses : (s.modLaunch n fl).fuses = s.fuses := rfl
@[simp] theorem modLaunch_flash : (s.modLaunch n fl).flash = s.flash := rfl
@[simp] theorem modLaunch_fw : (s.modLaunch n fl).fw = s.fw := rfl
@[simp] theorem modLaunch_worlds : (s.modLaunch n fl).worlds = s.worlds := rfl
@[simp] theorem modLaunch_osKey : (s.modLaunch n fl).osKey = s.osKey := rfl
@[simp] theorem modLaunch_harts : (s.modLaunch n fl).harts = s.harts := rfl
@[simp] theorem modLaunch_root : (s.modLaunch n fl).root = s.root := rfl
@[simp] theorem modLaunch_rootUp : (s.modLaunch n fl).rootUp = s.rootUp := rfl
@[simp] theorem modLaunch_gpLoads : (s.modLaunch n fl).gpLoads = s.gpLoads := rfl
@[simp] theorem modLaunch_rootLoads : (s.modLaunch n fl).rootLoads = s.rootLoads := rfl
@[simp] theorem modLaunch_agreed : (s.modLaunch n fl).agreed = s.agreed := rfl
@[simp] theorem modLaunch_sessions : (s.modLaunch n fl).sessions = s.sessions := rfl
@[simp] theorem modLaunch_spdmOut : (s.modLaunch n fl).spdmOut = s.spdmOut := rfl
@[simp] theorem modLaunch_hdbin : (s.modLaunch n fl).hdbin = s.hdbin := rfl
@[simp] theorem modLaunch_hdbout : (s.modLaunch n fl).hdbout = s.hdbout := rfl
@[simp] theorem modLaunch_hostOut : (s.modLaunch n fl).hostOut = s.hostOut := rfl
@[simp] theorem modLaunch_msix : (s.modLaunch n fl).msix = s.msix := rfl
@[simp] theorem modLaunch_fbIrq : (s.modLaunch n fl).fbIrq = s.fbIrq := rfl
@[simp] theorem modLaunch_gpFaults : (s.modLaunch n fl).gpFaults = s.gpFaults := rfl
@[simp] theorem modLaunch_rootAlarms : (s.modLaunch n fl).rootAlarms = s.rootAlarms := rfl
@[simp] theorem modLaunch_audits : (s.modLaunch n fl).audits = s.audits := rfl
@[simp] theorem modLaunch_faulty : (s.modLaunch n fl).faulty = s.faulty := rfl
@[simp] theorem modLaunch_probes : (s.modLaunch n fl).probes = s.probes := rfl
@[simp] theorem modLaunch_mcStop : (s.modLaunch n fl).mcStop = s.mcStop := rfl
@[simp] theorem modLaunch_powerCut : (s.modLaunch n fl).powerCut = s.powerCut := rfl
@[simp] theorem modLaunch_ck : (s.modLaunch n fl).ck = s.ck := rfl
@[simp] theorem modLaunch_nextTid : (s.modLaunch n fl).nextTid = s.nextTid := rfl
@[simp] theorem modLaunch_nextId : (s.modLaunch n fl).nextId = s.nextId := rfl
@[simp] theorem modLaunch_events : (s.modLaunch n fl).events = s.events := rfl
@[simp] theorem modLaunch_freeCtr : (s.modLaunch n fl).freeCtr = s.freeCtr := rfl
@[simp] theorem modLaunch_agenda : (s.modLaunch n fl).agenda = s.agenda := rfl

/-! `modCluster` -/

@[simp] theorem modCluster_part : (s.modCluster n fc).part = s.part := rfl
@[simp] theorem modCluster_cur : (s.modCluster n fc).cur = s.cur := rfl
@[simp] theorem modCluster_others : (s.modCluster n fc).others = s.others := rfl
@[simp] theorem modCluster_groups : (s.modCluster n fc).groups = s.groups := rfl
@[simp] theorem modCluster_launches : (s.modCluster n fc).launches = s.launches := rfl
@[simp] theorem modCluster_clusters : (s.modCluster n fc).clusters = setNth s.clusters n (fc (s.cluster n)) := rfl
@[simp] theorem modCluster_slices : (s.modCluster n fc).slices = s.slices := rfl
@[simp] theorem modCluster_dies : (s.modCluster n fc).dies = s.dies := rfl
@[simp] theorem modCluster_hbm : (s.modCluster n fc).hbm = s.hbm := rfl
@[simp] theorem modCluster_spad : (s.modCluster n fc).spad = s.spad := rfl
@[simp] theorem modCluster_poison : (s.modCluster n fc).poison = s.poison := rfl
@[simp] theorem modCluster_mended : (s.modCluster n fc).mended = s.mended := rfl
@[simp] theorem modCluster_ghosts : (s.modCluster n fc).ghosts = s.ghosts := rfl
@[simp] theorem modCluster_engImgs : (s.modCluster n fc).engImgs = s.engImgs := rfl
@[simp] theorem modCluster_supRecs : (s.modCluster n fc).supRecs = s.supRecs := rfl
@[simp] theorem modCluster_remotes : (s.modCluster n fc).remotes = s.remotes := rfl
@[simp] theorem modCluster_changes : (s.modCluster n fc).changes = s.changes := rfl
@[simp] theorem modCluster_podcfg : (s.modCluster n fc).podcfg = s.podcfg := rfl
@[simp] theorem modCluster_lcstart : (s.modCluster n fc).lcstart = s.lcstart := rfl
@[simp] theorem modCluster_lctail : (s.modCluster n fc).lctail = s.lctail := rfl
@[simp] theorem modCluster_lcdone : (s.modCluster n fc).lcdone = s.lcdone := rfl
@[simp] theorem modCluster_ctxbase : (s.modCluster n fc).ctxbase = s.ctxbase := rfl
@[simp] theorem modCluster_fotbase : (s.modCluster n fc).fotbase = s.fotbase := rfl
@[simp] theorem modCluster_mcbase : (s.modCluster n fc).mcbase = s.mcbase := rfl
@[simp] theorem modCluster_trinv : (s.modCluster n fc).trinv = s.trinv := rfl
@[simp] theorem modCluster_trinvDone : (s.modCluster n fc).trinvDone = s.trinvDone := rfl
@[simp] theorem modCluster_walked : (s.modCluster n fc).walked = s.walked := rfl
@[simp] theorem modCluster_rly : (s.modCluster n fc).rly = s.rly := rfl
@[simp] theorem modCluster_pwin : (s.modCluster n fc).pwin = s.pwin := rfl
@[simp] theorem modCluster_scrub : (s.modCluster n fc).scrub = s.scrub := rfl
@[simp] theorem modCluster_mtcfg : (s.modCluster n fc).mtcfg = s.mtcfg := rfl
@[simp] theorem modCluster_rofs : (s.modCluster n fc).rofs = s.rofs := rfl
@[simp] theorem modCluster_hwin : (s.modCluster n fc).hwin = s.hwin := rfl
@[simp] theorem modCluster_sett : (s.modCluster n fc).sett = s.sett := rfl
@[simp] theorem modCluster_seals : (s.modCluster n fc).seals = s.seals := rfl
@[simp] theorem modCluster_staged : (s.modCluster n fc).staged = s.staged := rfl
@[simp] theorem modCluster_tcst : (s.modCluster n fc).tcst = s.tcst := rfl
@[simp] theorem modCluster_fotst : (s.modCluster n fc).fotst = s.fotst := rfl
@[simp] theorem modCluster_pkgLinks : (s.modCluster n fc).pkgLinks = s.pkgLinks := rfl
@[simp] theorem modCluster_podLinks : (s.modCluster n fc).podLinks = s.podLinks := rfl
@[simp] theorem modCluster_settLinks : (s.modCluster n fc).settLinks = s.settLinks := rfl
@[simp] theorem modCluster_eseqTx : (s.modCluster n fc).eseqTx = s.eseqTx := rfl
@[simp] theorem modCluster_eseqRx : (s.modCluster n fc).eseqRx = s.eseqRx := rfl
@[simp] theorem modCluster_early : (s.modCluster n fc).early = s.early := rfl
@[simp] theorem modCluster_podOut : (s.modCluster n fc).podOut = s.podOut := rfl
@[simp] theorem modCluster_controlOut : (s.modCluster n fc).controlOut = s.controlOut := rfl
@[simp] theorem modCluster_mail : (s.modCluster n fc).mail = s.mail := rfl
@[simp] theorem modCluster_mailRead : (s.modCluster n fc).mailRead = s.mailRead := rfl
@[simp] theorem modCluster_wire : (s.modCluster n fc).wire = s.wire := rfl
@[simp] theorem modCluster_authFailed : (s.modCluster n fc).authFailed = s.authFailed := rfl
@[simp] theorem modCluster_linkAuth : (s.modCluster n fc).linkAuth = s.linkAuth := rfl
@[simp] theorem modCluster_spdmReqs : (s.modCluster n fc).spdmReqs = s.spdmReqs := rfl
@[simp] theorem modCluster_collectives : (s.modCluster n fc).collectives = s.collectives := rfl
@[simp] theorem modCluster_settIn : (s.modCluster n fc).settIn = s.settIn := rfl
@[simp] theorem modCluster_settOut : (s.modCluster n fc).settOut = s.settOut := rfl
@[simp] theorem modCluster_settHeld : (s.modCluster n fc).settHeld = s.settHeld := rfl
@[simp] theorem modCluster_osObjects : (s.modCluster n fc).osObjects = s.osObjects := rfl
@[simp] theorem modCluster_entriesRead : (s.modCluster n fc).entriesRead = s.entriesRead := rfl
@[simp] theorem modCluster_boot : (s.modCluster n fc).boot = s.boot := rfl
@[simp] theorem modCluster_hbErr : (s.modCluster n fc).hbErr = s.hbErr := rfl
@[simp] theorem modCluster_slots : (s.modCluster n fc).slots = s.slots := rfl
@[simp] theorem modCluster_fuses : (s.modCluster n fc).fuses = s.fuses := rfl
@[simp] theorem modCluster_flash : (s.modCluster n fc).flash = s.flash := rfl
@[simp] theorem modCluster_fw : (s.modCluster n fc).fw = s.fw := rfl
@[simp] theorem modCluster_worlds : (s.modCluster n fc).worlds = s.worlds := rfl
@[simp] theorem modCluster_osKey : (s.modCluster n fc).osKey = s.osKey := rfl
@[simp] theorem modCluster_harts : (s.modCluster n fc).harts = s.harts := rfl
@[simp] theorem modCluster_root : (s.modCluster n fc).root = s.root := rfl
@[simp] theorem modCluster_rootUp : (s.modCluster n fc).rootUp = s.rootUp := rfl
@[simp] theorem modCluster_gpLoads : (s.modCluster n fc).gpLoads = s.gpLoads := rfl
@[simp] theorem modCluster_rootLoads : (s.modCluster n fc).rootLoads = s.rootLoads := rfl
@[simp] theorem modCluster_agreed : (s.modCluster n fc).agreed = s.agreed := rfl
@[simp] theorem modCluster_sessions : (s.modCluster n fc).sessions = s.sessions := rfl
@[simp] theorem modCluster_spdmOut : (s.modCluster n fc).spdmOut = s.spdmOut := rfl
@[simp] theorem modCluster_hdbin : (s.modCluster n fc).hdbin = s.hdbin := rfl
@[simp] theorem modCluster_hdbout : (s.modCluster n fc).hdbout = s.hdbout := rfl
@[simp] theorem modCluster_hostOut : (s.modCluster n fc).hostOut = s.hostOut := rfl
@[simp] theorem modCluster_msix : (s.modCluster n fc).msix = s.msix := rfl
@[simp] theorem modCluster_fbIrq : (s.modCluster n fc).fbIrq = s.fbIrq := rfl
@[simp] theorem modCluster_gpFaults : (s.modCluster n fc).gpFaults = s.gpFaults := rfl
@[simp] theorem modCluster_rootAlarms : (s.modCluster n fc).rootAlarms = s.rootAlarms := rfl
@[simp] theorem modCluster_audits : (s.modCluster n fc).audits = s.audits := rfl
@[simp] theorem modCluster_faulty : (s.modCluster n fc).faulty = s.faulty := rfl
@[simp] theorem modCluster_probes : (s.modCluster n fc).probes = s.probes := rfl
@[simp] theorem modCluster_mcStop : (s.modCluster n fc).mcStop = s.mcStop := rfl
@[simp] theorem modCluster_powerCut : (s.modCluster n fc).powerCut = s.powerCut := rfl
@[simp] theorem modCluster_ck : (s.modCluster n fc).ck = s.ck := rfl
@[simp] theorem modCluster_nextTid : (s.modCluster n fc).nextTid = s.nextTid := rfl
@[simp] theorem modCluster_nextId : (s.modCluster n fc).nextId = s.nextId := rfl
@[simp] theorem modCluster_events : (s.modCluster n fc).events = s.events := rfl
@[simp] theorem modCluster_freeCtr : (s.modCluster n fc).freeCtr = s.freeCtr := rfl
@[simp] theorem modCluster_agenda : (s.modCluster n fc).agenda = s.agenda := rfl

/-! `modDie` -/

@[simp] theorem modDie_part : (s.modDie n fd).part = s.part := rfl
@[simp] theorem modDie_cur : (s.modDie n fd).cur = s.cur := rfl
@[simp] theorem modDie_others : (s.modDie n fd).others = s.others := rfl
@[simp] theorem modDie_groups : (s.modDie n fd).groups = s.groups := rfl
@[simp] theorem modDie_launches : (s.modDie n fd).launches = s.launches := rfl
@[simp] theorem modDie_clusters : (s.modDie n fd).clusters = s.clusters := rfl
@[simp] theorem modDie_slices : (s.modDie n fd).slices = s.slices := rfl
@[simp] theorem modDie_dies : (s.modDie n fd).dies = setNth s.dies n (fd (s.die n)) := rfl
@[simp] theorem modDie_hbm : (s.modDie n fd).hbm = s.hbm := rfl
@[simp] theorem modDie_spad : (s.modDie n fd).spad = s.spad := rfl
@[simp] theorem modDie_poison : (s.modDie n fd).poison = s.poison := rfl
@[simp] theorem modDie_mended : (s.modDie n fd).mended = s.mended := rfl
@[simp] theorem modDie_ghosts : (s.modDie n fd).ghosts = s.ghosts := rfl
@[simp] theorem modDie_engImgs : (s.modDie n fd).engImgs = s.engImgs := rfl
@[simp] theorem modDie_supRecs : (s.modDie n fd).supRecs = s.supRecs := rfl
@[simp] theorem modDie_remotes : (s.modDie n fd).remotes = s.remotes := rfl
@[simp] theorem modDie_changes : (s.modDie n fd).changes = s.changes := rfl
@[simp] theorem modDie_podcfg : (s.modDie n fd).podcfg = s.podcfg := rfl
@[simp] theorem modDie_lcstart : (s.modDie n fd).lcstart = s.lcstart := rfl
@[simp] theorem modDie_lctail : (s.modDie n fd).lctail = s.lctail := rfl
@[simp] theorem modDie_lcdone : (s.modDie n fd).lcdone = s.lcdone := rfl
@[simp] theorem modDie_ctxbase : (s.modDie n fd).ctxbase = s.ctxbase := rfl
@[simp] theorem modDie_fotbase : (s.modDie n fd).fotbase = s.fotbase := rfl
@[simp] theorem modDie_mcbase : (s.modDie n fd).mcbase = s.mcbase := rfl
@[simp] theorem modDie_trinv : (s.modDie n fd).trinv = s.trinv := rfl
@[simp] theorem modDie_trinvDone : (s.modDie n fd).trinvDone = s.trinvDone := rfl
@[simp] theorem modDie_walked : (s.modDie n fd).walked = s.walked := rfl
@[simp] theorem modDie_rly : (s.modDie n fd).rly = s.rly := rfl
@[simp] theorem modDie_pwin : (s.modDie n fd).pwin = s.pwin := rfl
@[simp] theorem modDie_scrub : (s.modDie n fd).scrub = s.scrub := rfl
@[simp] theorem modDie_mtcfg : (s.modDie n fd).mtcfg = s.mtcfg := rfl
@[simp] theorem modDie_rofs : (s.modDie n fd).rofs = s.rofs := rfl
@[simp] theorem modDie_hwin : (s.modDie n fd).hwin = s.hwin := rfl
@[simp] theorem modDie_sett : (s.modDie n fd).sett = s.sett := rfl
@[simp] theorem modDie_seals : (s.modDie n fd).seals = s.seals := rfl
@[simp] theorem modDie_staged : (s.modDie n fd).staged = s.staged := rfl
@[simp] theorem modDie_tcst : (s.modDie n fd).tcst = s.tcst := rfl
@[simp] theorem modDie_fotst : (s.modDie n fd).fotst = s.fotst := rfl
@[simp] theorem modDie_pkgLinks : (s.modDie n fd).pkgLinks = s.pkgLinks := rfl
@[simp] theorem modDie_podLinks : (s.modDie n fd).podLinks = s.podLinks := rfl
@[simp] theorem modDie_settLinks : (s.modDie n fd).settLinks = s.settLinks := rfl
@[simp] theorem modDie_eseqTx : (s.modDie n fd).eseqTx = s.eseqTx := rfl
@[simp] theorem modDie_eseqRx : (s.modDie n fd).eseqRx = s.eseqRx := rfl
@[simp] theorem modDie_early : (s.modDie n fd).early = s.early := rfl
@[simp] theorem modDie_podOut : (s.modDie n fd).podOut = s.podOut := rfl
@[simp] theorem modDie_controlOut : (s.modDie n fd).controlOut = s.controlOut := rfl
@[simp] theorem modDie_mail : (s.modDie n fd).mail = s.mail := rfl
@[simp] theorem modDie_mailRead : (s.modDie n fd).mailRead = s.mailRead := rfl
@[simp] theorem modDie_wire : (s.modDie n fd).wire = s.wire := rfl
@[simp] theorem modDie_authFailed : (s.modDie n fd).authFailed = s.authFailed := rfl
@[simp] theorem modDie_linkAuth : (s.modDie n fd).linkAuth = s.linkAuth := rfl
@[simp] theorem modDie_spdmReqs : (s.modDie n fd).spdmReqs = s.spdmReqs := rfl
@[simp] theorem modDie_collectives : (s.modDie n fd).collectives = s.collectives := rfl
@[simp] theorem modDie_settIn : (s.modDie n fd).settIn = s.settIn := rfl
@[simp] theorem modDie_settOut : (s.modDie n fd).settOut = s.settOut := rfl
@[simp] theorem modDie_settHeld : (s.modDie n fd).settHeld = s.settHeld := rfl
@[simp] theorem modDie_osObjects : (s.modDie n fd).osObjects = s.osObjects := rfl
@[simp] theorem modDie_entriesRead : (s.modDie n fd).entriesRead = s.entriesRead := rfl
@[simp] theorem modDie_boot : (s.modDie n fd).boot = s.boot := rfl
@[simp] theorem modDie_hbErr : (s.modDie n fd).hbErr = s.hbErr := rfl
@[simp] theorem modDie_slots : (s.modDie n fd).slots = s.slots := rfl
@[simp] theorem modDie_fuses : (s.modDie n fd).fuses = s.fuses := rfl
@[simp] theorem modDie_flash : (s.modDie n fd).flash = s.flash := rfl
@[simp] theorem modDie_fw : (s.modDie n fd).fw = s.fw := rfl
@[simp] theorem modDie_worlds : (s.modDie n fd).worlds = s.worlds := rfl
@[simp] theorem modDie_osKey : (s.modDie n fd).osKey = s.osKey := rfl
@[simp] theorem modDie_harts : (s.modDie n fd).harts = s.harts := rfl
@[simp] theorem modDie_root : (s.modDie n fd).root = s.root := rfl
@[simp] theorem modDie_rootUp : (s.modDie n fd).rootUp = s.rootUp := rfl
@[simp] theorem modDie_gpLoads : (s.modDie n fd).gpLoads = s.gpLoads := rfl
@[simp] theorem modDie_rootLoads : (s.modDie n fd).rootLoads = s.rootLoads := rfl
@[simp] theorem modDie_agreed : (s.modDie n fd).agreed = s.agreed := rfl
@[simp] theorem modDie_sessions : (s.modDie n fd).sessions = s.sessions := rfl
@[simp] theorem modDie_spdmOut : (s.modDie n fd).spdmOut = s.spdmOut := rfl
@[simp] theorem modDie_hdbin : (s.modDie n fd).hdbin = s.hdbin := rfl
@[simp] theorem modDie_hdbout : (s.modDie n fd).hdbout = s.hdbout := rfl
@[simp] theorem modDie_hostOut : (s.modDie n fd).hostOut = s.hostOut := rfl
@[simp] theorem modDie_msix : (s.modDie n fd).msix = s.msix := rfl
@[simp] theorem modDie_fbIrq : (s.modDie n fd).fbIrq = s.fbIrq := rfl
@[simp] theorem modDie_gpFaults : (s.modDie n fd).gpFaults = s.gpFaults := rfl
@[simp] theorem modDie_rootAlarms : (s.modDie n fd).rootAlarms = s.rootAlarms := rfl
@[simp] theorem modDie_audits : (s.modDie n fd).audits = s.audits := rfl
@[simp] theorem modDie_faulty : (s.modDie n fd).faulty = s.faulty := rfl
@[simp] theorem modDie_probes : (s.modDie n fd).probes = s.probes := rfl
@[simp] theorem modDie_mcStop : (s.modDie n fd).mcStop = s.mcStop := rfl
@[simp] theorem modDie_powerCut : (s.modDie n fd).powerCut = s.powerCut := rfl
@[simp] theorem modDie_ck : (s.modDie n fd).ck = s.ck := rfl
@[simp] theorem modDie_nextTid : (s.modDie n fd).nextTid = s.nextTid := rfl
@[simp] theorem modDie_nextId : (s.modDie n fd).nextId = s.nextId := rfl
@[simp] theorem modDie_events : (s.modDie n fd).events = s.events := rfl
@[simp] theorem modDie_freeCtr : (s.modDie n fd).freeCtr = s.freeCtr := rfl
@[simp] theorem modDie_agenda : (s.modDie n fd).agenda = s.agenda := rfl

variable (l : List Byte) (ws : List (List Word))

/-! `hbmWrite` -/

@[simp] theorem hbmWrite_part : (s.hbmWrite n l).part = s.part := rfl
@[simp] theorem hbmWrite_cur : (s.hbmWrite n l).cur = s.cur := rfl
@[simp] theorem hbmWrite_others : (s.hbmWrite n l).others = s.others := rfl
@[simp] theorem hbmWrite_groups : (s.hbmWrite n l).groups = s.groups := rfl
@[simp] theorem hbmWrite_launches : (s.hbmWrite n l).launches = s.launches := rfl
@[simp] theorem hbmWrite_clusters : (s.hbmWrite n l).clusters = s.clusters := rfl
@[simp] theorem hbmWrite_slices : (s.hbmWrite n l).slices = s.slices := rfl
@[simp] theorem hbmWrite_dies : (s.hbmWrite n l).dies = s.dies := rfl
@[simp] theorem hbmWrite_hbm : (s.hbmWrite n l).hbm = memWrite s.hbm n l := rfl
@[simp] theorem hbmWrite_spad : (s.hbmWrite n l).spad = s.spad := rfl
@[simp] theorem hbmWrite_poison : (s.hbmWrite n l).poison = s.poison := rfl
@[simp] theorem hbmWrite_mended : (s.hbmWrite n l).mended = s.mended := rfl
@[simp] theorem hbmWrite_ghosts : (s.hbmWrite n l).ghosts = s.ghosts := rfl
@[simp] theorem hbmWrite_engImgs : (s.hbmWrite n l).engImgs = s.engImgs := rfl
@[simp] theorem hbmWrite_supRecs : (s.hbmWrite n l).supRecs = s.supRecs := rfl
@[simp] theorem hbmWrite_remotes : (s.hbmWrite n l).remotes = s.remotes := rfl
@[simp] theorem hbmWrite_changes : (s.hbmWrite n l).changes = s.changes := rfl
@[simp] theorem hbmWrite_podcfg : (s.hbmWrite n l).podcfg = s.podcfg := rfl
@[simp] theorem hbmWrite_lcstart : (s.hbmWrite n l).lcstart = s.lcstart := rfl
@[simp] theorem hbmWrite_lctail : (s.hbmWrite n l).lctail = s.lctail := rfl
@[simp] theorem hbmWrite_lcdone : (s.hbmWrite n l).lcdone = s.lcdone := rfl
@[simp] theorem hbmWrite_ctxbase : (s.hbmWrite n l).ctxbase = s.ctxbase := rfl
@[simp] theorem hbmWrite_fotbase : (s.hbmWrite n l).fotbase = s.fotbase := rfl
@[simp] theorem hbmWrite_mcbase : (s.hbmWrite n l).mcbase = s.mcbase := rfl
@[simp] theorem hbmWrite_trinv : (s.hbmWrite n l).trinv = s.trinv := rfl
@[simp] theorem hbmWrite_trinvDone : (s.hbmWrite n l).trinvDone = s.trinvDone := rfl
@[simp] theorem hbmWrite_walked : (s.hbmWrite n l).walked = s.walked := rfl
@[simp] theorem hbmWrite_rly : (s.hbmWrite n l).rly = s.rly := rfl
@[simp] theorem hbmWrite_pwin : (s.hbmWrite n l).pwin = s.pwin := rfl
@[simp] theorem hbmWrite_scrub : (s.hbmWrite n l).scrub = s.scrub := rfl
@[simp] theorem hbmWrite_mtcfg : (s.hbmWrite n l).mtcfg = s.mtcfg := rfl
@[simp] theorem hbmWrite_rofs : (s.hbmWrite n l).rofs = s.rofs := rfl
@[simp] theorem hbmWrite_hwin : (s.hbmWrite n l).hwin = s.hwin := rfl
@[simp] theorem hbmWrite_sett : (s.hbmWrite n l).sett = s.sett := rfl
@[simp] theorem hbmWrite_seals : (s.hbmWrite n l).seals = s.seals := rfl
@[simp] theorem hbmWrite_staged : (s.hbmWrite n l).staged = s.staged := rfl
@[simp] theorem hbmWrite_tcst : (s.hbmWrite n l).tcst = s.tcst := rfl
@[simp] theorem hbmWrite_fotst : (s.hbmWrite n l).fotst = s.fotst := rfl
@[simp] theorem hbmWrite_pkgLinks : (s.hbmWrite n l).pkgLinks = s.pkgLinks := rfl
@[simp] theorem hbmWrite_podLinks : (s.hbmWrite n l).podLinks = s.podLinks := rfl
@[simp] theorem hbmWrite_settLinks : (s.hbmWrite n l).settLinks = s.settLinks := rfl
@[simp] theorem hbmWrite_eseqTx : (s.hbmWrite n l).eseqTx = s.eseqTx := rfl
@[simp] theorem hbmWrite_eseqRx : (s.hbmWrite n l).eseqRx = s.eseqRx := rfl
@[simp] theorem hbmWrite_early : (s.hbmWrite n l).early = s.early := rfl
@[simp] theorem hbmWrite_podOut : (s.hbmWrite n l).podOut = s.podOut := rfl
@[simp] theorem hbmWrite_controlOut : (s.hbmWrite n l).controlOut = s.controlOut := rfl
@[simp] theorem hbmWrite_mail : (s.hbmWrite n l).mail = s.mail := rfl
@[simp] theorem hbmWrite_mailRead : (s.hbmWrite n l).mailRead = s.mailRead := rfl
@[simp] theorem hbmWrite_wire : (s.hbmWrite n l).wire = s.wire := rfl
@[simp] theorem hbmWrite_authFailed : (s.hbmWrite n l).authFailed = s.authFailed := rfl
@[simp] theorem hbmWrite_linkAuth : (s.hbmWrite n l).linkAuth = s.linkAuth := rfl
@[simp] theorem hbmWrite_spdmReqs : (s.hbmWrite n l).spdmReqs = s.spdmReqs := rfl
@[simp] theorem hbmWrite_collectives : (s.hbmWrite n l).collectives = s.collectives := rfl
@[simp] theorem hbmWrite_settIn : (s.hbmWrite n l).settIn = s.settIn := rfl
@[simp] theorem hbmWrite_settOut : (s.hbmWrite n l).settOut = s.settOut := rfl
@[simp] theorem hbmWrite_settHeld : (s.hbmWrite n l).settHeld = s.settHeld := rfl
@[simp] theorem hbmWrite_osObjects : (s.hbmWrite n l).osObjects = s.osObjects := rfl
@[simp] theorem hbmWrite_entriesRead : (s.hbmWrite n l).entriesRead = s.entriesRead := rfl
@[simp] theorem hbmWrite_boot : (s.hbmWrite n l).boot = s.boot := rfl
@[simp] theorem hbmWrite_hbErr : (s.hbmWrite n l).hbErr = s.hbErr := rfl
@[simp] theorem hbmWrite_slots : (s.hbmWrite n l).slots = s.slots := rfl
@[simp] theorem hbmWrite_fuses : (s.hbmWrite n l).fuses = s.fuses := rfl
@[simp] theorem hbmWrite_flash : (s.hbmWrite n l).flash = s.flash := rfl
@[simp] theorem hbmWrite_fw : (s.hbmWrite n l).fw = s.fw := rfl
@[simp] theorem hbmWrite_worlds : (s.hbmWrite n l).worlds = s.worlds := rfl
@[simp] theorem hbmWrite_osKey : (s.hbmWrite n l).osKey = s.osKey := rfl
@[simp] theorem hbmWrite_harts : (s.hbmWrite n l).harts = s.harts := rfl
@[simp] theorem hbmWrite_root : (s.hbmWrite n l).root = s.root := rfl
@[simp] theorem hbmWrite_rootUp : (s.hbmWrite n l).rootUp = s.rootUp := rfl
@[simp] theorem hbmWrite_gpLoads : (s.hbmWrite n l).gpLoads = s.gpLoads := rfl
@[simp] theorem hbmWrite_rootLoads : (s.hbmWrite n l).rootLoads = s.rootLoads := rfl
@[simp] theorem hbmWrite_agreed : (s.hbmWrite n l).agreed = s.agreed := rfl
@[simp] theorem hbmWrite_sessions : (s.hbmWrite n l).sessions = s.sessions := rfl
@[simp] theorem hbmWrite_spdmOut : (s.hbmWrite n l).spdmOut = s.spdmOut := rfl
@[simp] theorem hbmWrite_hdbin : (s.hbmWrite n l).hdbin = s.hdbin := rfl
@[simp] theorem hbmWrite_hdbout : (s.hbmWrite n l).hdbout = s.hdbout := rfl
@[simp] theorem hbmWrite_hostOut : (s.hbmWrite n l).hostOut = s.hostOut := rfl
@[simp] theorem hbmWrite_msix : (s.hbmWrite n l).msix = s.msix := rfl
@[simp] theorem hbmWrite_fbIrq : (s.hbmWrite n l).fbIrq = s.fbIrq := rfl
@[simp] theorem hbmWrite_gpFaults : (s.hbmWrite n l).gpFaults = s.gpFaults := rfl
@[simp] theorem hbmWrite_rootAlarms : (s.hbmWrite n l).rootAlarms = s.rootAlarms := rfl
@[simp] theorem hbmWrite_audits : (s.hbmWrite n l).audits = s.audits := rfl
@[simp] theorem hbmWrite_faulty : (s.hbmWrite n l).faulty = s.faulty := rfl
@[simp] theorem hbmWrite_probes : (s.hbmWrite n l).probes = s.probes := rfl
@[simp] theorem hbmWrite_mcStop : (s.hbmWrite n l).mcStop = s.mcStop := rfl
@[simp] theorem hbmWrite_powerCut : (s.hbmWrite n l).powerCut = s.powerCut := rfl
@[simp] theorem hbmWrite_ck : (s.hbmWrite n l).ck = s.ck := rfl
@[simp] theorem hbmWrite_nextTid : (s.hbmWrite n l).nextTid = s.nextTid := rfl
@[simp] theorem hbmWrite_nextId : (s.hbmWrite n l).nextId = s.nextId := rfl
@[simp] theorem hbmWrite_events : (s.hbmWrite n l).events = s.events := rfl
@[simp] theorem hbmWrite_freeCtr : (s.hbmWrite n l).freeCtr = s.freeCtr := rfl
@[simp] theorem hbmWrite_agenda : (s.hbmWrite n l).agenda = s.agenda := rfl

/-! `spadWrite` -/

@[simp] theorem spadWrite_part : (s.spadWrite n k l).part = s.part := rfl
@[simp] theorem spadWrite_cur : (s.spadWrite n k l).cur = s.cur := rfl
@[simp] theorem spadWrite_others : (s.spadWrite n k l).others = s.others := rfl
@[simp] theorem spadWrite_groups : (s.spadWrite n k l).groups = s.groups := rfl
@[simp] theorem spadWrite_launches : (s.spadWrite n k l).launches = s.launches := rfl
@[simp] theorem spadWrite_clusters : (s.spadWrite n k l).clusters = s.clusters := rfl
@[simp] theorem spadWrite_slices : (s.spadWrite n k l).slices = s.slices := rfl
@[simp] theorem spadWrite_dies : (s.spadWrite n k l).dies = s.dies := rfl
@[simp] theorem spadWrite_hbm : (s.spadWrite n k l).hbm = s.hbm := rfl
@[simp] theorem spadWrite_spad : (s.spadWrite n k l).spad = memWrite s.spad (spadKey n k) l := rfl
@[simp] theorem spadWrite_poison : (s.spadWrite n k l).poison = s.poison := rfl
@[simp] theorem spadWrite_mended : (s.spadWrite n k l).mended = s.mended := rfl
@[simp] theorem spadWrite_ghosts : (s.spadWrite n k l).ghosts = s.ghosts := rfl
@[simp] theorem spadWrite_engImgs : (s.spadWrite n k l).engImgs = s.engImgs := rfl
@[simp] theorem spadWrite_supRecs : (s.spadWrite n k l).supRecs = s.supRecs := rfl
@[simp] theorem spadWrite_remotes : (s.spadWrite n k l).remotes = s.remotes := rfl
@[simp] theorem spadWrite_changes : (s.spadWrite n k l).changes = s.changes := rfl
@[simp] theorem spadWrite_podcfg : (s.spadWrite n k l).podcfg = s.podcfg := rfl
@[simp] theorem spadWrite_lcstart : (s.spadWrite n k l).lcstart = s.lcstart := rfl
@[simp] theorem spadWrite_lctail : (s.spadWrite n k l).lctail = s.lctail := rfl
@[simp] theorem spadWrite_lcdone : (s.spadWrite n k l).lcdone = s.lcdone := rfl
@[simp] theorem spadWrite_ctxbase : (s.spadWrite n k l).ctxbase = s.ctxbase := rfl
@[simp] theorem spadWrite_fotbase : (s.spadWrite n k l).fotbase = s.fotbase := rfl
@[simp] theorem spadWrite_mcbase : (s.spadWrite n k l).mcbase = s.mcbase := rfl
@[simp] theorem spadWrite_trinv : (s.spadWrite n k l).trinv = s.trinv := rfl
@[simp] theorem spadWrite_trinvDone : (s.spadWrite n k l).trinvDone = s.trinvDone := rfl
@[simp] theorem spadWrite_walked : (s.spadWrite n k l).walked = s.walked := rfl
@[simp] theorem spadWrite_rly : (s.spadWrite n k l).rly = s.rly := rfl
@[simp] theorem spadWrite_pwin : (s.spadWrite n k l).pwin = s.pwin := rfl
@[simp] theorem spadWrite_scrub : (s.spadWrite n k l).scrub = s.scrub := rfl
@[simp] theorem spadWrite_mtcfg : (s.spadWrite n k l).mtcfg = s.mtcfg := rfl
@[simp] theorem spadWrite_rofs : (s.spadWrite n k l).rofs = s.rofs := rfl
@[simp] theorem spadWrite_hwin : (s.spadWrite n k l).hwin = s.hwin := rfl
@[simp] theorem spadWrite_sett : (s.spadWrite n k l).sett = s.sett := rfl
@[simp] theorem spadWrite_seals : (s.spadWrite n k l).seals = s.seals := rfl
@[simp] theorem spadWrite_staged : (s.spadWrite n k l).staged = s.staged := rfl
@[simp] theorem spadWrite_tcst : (s.spadWrite n k l).tcst = s.tcst := rfl
@[simp] theorem spadWrite_fotst : (s.spadWrite n k l).fotst = s.fotst := rfl
@[simp] theorem spadWrite_pkgLinks : (s.spadWrite n k l).pkgLinks = s.pkgLinks := rfl
@[simp] theorem spadWrite_podLinks : (s.spadWrite n k l).podLinks = s.podLinks := rfl
@[simp] theorem spadWrite_settLinks : (s.spadWrite n k l).settLinks = s.settLinks := rfl
@[simp] theorem spadWrite_eseqTx : (s.spadWrite n k l).eseqTx = s.eseqTx := rfl
@[simp] theorem spadWrite_eseqRx : (s.spadWrite n k l).eseqRx = s.eseqRx := rfl
@[simp] theorem spadWrite_early : (s.spadWrite n k l).early = s.early := rfl
@[simp] theorem spadWrite_podOut : (s.spadWrite n k l).podOut = s.podOut := rfl
@[simp] theorem spadWrite_controlOut : (s.spadWrite n k l).controlOut = s.controlOut := rfl
@[simp] theorem spadWrite_mail : (s.spadWrite n k l).mail = s.mail := rfl
@[simp] theorem spadWrite_mailRead : (s.spadWrite n k l).mailRead = s.mailRead := rfl
@[simp] theorem spadWrite_wire : (s.spadWrite n k l).wire = s.wire := rfl
@[simp] theorem spadWrite_authFailed : (s.spadWrite n k l).authFailed = s.authFailed := rfl
@[simp] theorem spadWrite_linkAuth : (s.spadWrite n k l).linkAuth = s.linkAuth := rfl
@[simp] theorem spadWrite_spdmReqs : (s.spadWrite n k l).spdmReqs = s.spdmReqs := rfl
@[simp] theorem spadWrite_collectives : (s.spadWrite n k l).collectives = s.collectives := rfl
@[simp] theorem spadWrite_settIn : (s.spadWrite n k l).settIn = s.settIn := rfl
@[simp] theorem spadWrite_settOut : (s.spadWrite n k l).settOut = s.settOut := rfl
@[simp] theorem spadWrite_settHeld : (s.spadWrite n k l).settHeld = s.settHeld := rfl
@[simp] theorem spadWrite_osObjects : (s.spadWrite n k l).osObjects = s.osObjects := rfl
@[simp] theorem spadWrite_entriesRead : (s.spadWrite n k l).entriesRead = s.entriesRead := rfl
@[simp] theorem spadWrite_boot : (s.spadWrite n k l).boot = s.boot := rfl
@[simp] theorem spadWrite_hbErr : (s.spadWrite n k l).hbErr = s.hbErr := rfl
@[simp] theorem spadWrite_slots : (s.spadWrite n k l).slots = s.slots := rfl
@[simp] theorem spadWrite_fuses : (s.spadWrite n k l).fuses = s.fuses := rfl
@[simp] theorem spadWrite_flash : (s.spadWrite n k l).flash = s.flash := rfl
@[simp] theorem spadWrite_fw : (s.spadWrite n k l).fw = s.fw := rfl
@[simp] theorem spadWrite_worlds : (s.spadWrite n k l).worlds = s.worlds := rfl
@[simp] theorem spadWrite_osKey : (s.spadWrite n k l).osKey = s.osKey := rfl
@[simp] theorem spadWrite_harts : (s.spadWrite n k l).harts = s.harts := rfl
@[simp] theorem spadWrite_root : (s.spadWrite n k l).root = s.root := rfl
@[simp] theorem spadWrite_rootUp : (s.spadWrite n k l).rootUp = s.rootUp := rfl
@[simp] theorem spadWrite_gpLoads : (s.spadWrite n k l).gpLoads = s.gpLoads := rfl
@[simp] theorem spadWrite_rootLoads : (s.spadWrite n k l).rootLoads = s.rootLoads := rfl
@[simp] theorem spadWrite_agreed : (s.spadWrite n k l).agreed = s.agreed := rfl
@[simp] theorem spadWrite_sessions : (s.spadWrite n k l).sessions = s.sessions := rfl
@[simp] theorem spadWrite_spdmOut : (s.spadWrite n k l).spdmOut = s.spdmOut := rfl
@[simp] theorem spadWrite_hdbin : (s.spadWrite n k l).hdbin = s.hdbin := rfl
@[simp] theorem spadWrite_hdbout : (s.spadWrite n k l).hdbout = s.hdbout := rfl
@[simp] theorem spadWrite_hostOut : (s.spadWrite n k l).hostOut = s.hostOut := rfl
@[simp] theorem spadWrite_msix : (s.spadWrite n k l).msix = s.msix := rfl
@[simp] theorem spadWrite_fbIrq : (s.spadWrite n k l).fbIrq = s.fbIrq := rfl
@[simp] theorem spadWrite_gpFaults : (s.spadWrite n k l).gpFaults = s.gpFaults := rfl
@[simp] theorem spadWrite_rootAlarms : (s.spadWrite n k l).rootAlarms = s.rootAlarms := rfl
@[simp] theorem spadWrite_audits : (s.spadWrite n k l).audits = s.audits := rfl
@[simp] theorem spadWrite_faulty : (s.spadWrite n k l).faulty = s.faulty := rfl
@[simp] theorem spadWrite_probes : (s.spadWrite n k l).probes = s.probes := rfl
@[simp] theorem spadWrite_mcStop : (s.spadWrite n k l).mcStop = s.mcStop := rfl
@[simp] theorem spadWrite_powerCut : (s.spadWrite n k l).powerCut = s.powerCut := rfl
@[simp] theorem spadWrite_ck : (s.spadWrite n k l).ck = s.ck := rfl
@[simp] theorem spadWrite_nextTid : (s.spadWrite n k l).nextTid = s.nextTid := rfl
@[simp] theorem spadWrite_nextId : (s.spadWrite n k l).nextId = s.nextId := rfl
@[simp] theorem spadWrite_events : (s.spadWrite n k l).events = s.events := rfl
@[simp] theorem spadWrite_freeCtr : (s.spadWrite n k l).freeCtr = s.freeCtr := rfl
@[simp] theorem spadWrite_agenda : (s.spadWrite n k l).agenda = s.agenda := rfl

/-! `queueRec` -/

@[simp] theorem queueRec_part : (s.queueRec n k ws).part = s.part := rfl
@[simp] theorem queueRec_cur : (s.queueRec n k ws).cur = s.cur := rfl
@[simp] theorem queueRec_others : (s.queueRec n k ws).others = s.others := rfl
@[simp] theorem queueRec_groups : (s.queueRec n k ws).groups = s.groups := rfl
@[simp] theorem queueRec_launches : (s.queueRec n k ws).launches = s.launches := rfl
@[simp] theorem queueRec_clusters : (s.queueRec n k ws).clusters = s.clusters := rfl
@[simp] theorem queueRec_slices : (s.queueRec n k ws).slices = s.slices := rfl
@[simp] theorem queueRec_dies : (s.queueRec n k ws).dies = s.dies := rfl
@[simp] theorem queueRec_hbm : (s.queueRec n k ws).hbm = s.hbm := rfl
@[simp] theorem queueRec_spad : (s.queueRec n k ws).spad = s.spad := rfl
@[simp] theorem queueRec_poison : (s.queueRec n k ws).poison = s.poison := rfl
@[simp] theorem queueRec_mended : (s.queueRec n k ws).mended = s.mended := rfl
@[simp] theorem queueRec_ghosts : (s.queueRec n k ws).ghosts = s.ghosts := rfl
@[simp] theorem queueRec_engImgs : (s.queueRec n k ws).engImgs = s.engImgs := rfl
@[simp] theorem queueRec_supRecs : (s.queueRec n k ws).supRecs = s.supRecs ++ [⟨none, n, ws, k, false, none⟩] := rfl
@[simp] theorem queueRec_remotes : (s.queueRec n k ws).remotes = s.remotes := rfl
@[simp] theorem queueRec_changes : (s.queueRec n k ws).changes = s.changes := rfl
@[simp] theorem queueRec_podcfg : (s.queueRec n k ws).podcfg = s.podcfg := rfl
@[simp] theorem queueRec_lcstart : (s.queueRec n k ws).lcstart = s.lcstart := rfl
@[simp] theorem queueRec_lctail : (s.queueRec n k ws).lctail = s.lctail := rfl
@[simp] theorem queueRec_lcdone : (s.queueRec n k ws).lcdone = s.lcdone := rfl
@[simp] theorem queueRec_ctxbase : (s.queueRec n k ws).ctxbase = s.ctxbase := rfl
@[simp] theorem queueRec_fotbase : (s.queueRec n k ws).fotbase = s.fotbase := rfl
@[simp] theorem queueRec_mcbase : (s.queueRec n k ws).mcbase = s.mcbase := rfl
@[simp] theorem queueRec_trinv : (s.queueRec n k ws).trinv = s.trinv := rfl
@[simp] theorem queueRec_trinvDone : (s.queueRec n k ws).trinvDone = s.trinvDone := rfl
@[simp] theorem queueRec_walked : (s.queueRec n k ws).walked = s.walked := rfl
@[simp] theorem queueRec_rly : (s.queueRec n k ws).rly = s.rly := rfl
@[simp] theorem queueRec_pwin : (s.queueRec n k ws).pwin = s.pwin := rfl
@[simp] theorem queueRec_scrub : (s.queueRec n k ws).scrub = s.scrub := rfl
@[simp] theorem queueRec_mtcfg : (s.queueRec n k ws).mtcfg = s.mtcfg := rfl
@[simp] theorem queueRec_rofs : (s.queueRec n k ws).rofs = s.rofs := rfl
@[simp] theorem queueRec_hwin : (s.queueRec n k ws).hwin = s.hwin := rfl
@[simp] theorem queueRec_sett : (s.queueRec n k ws).sett = s.sett := rfl
@[simp] theorem queueRec_seals : (s.queueRec n k ws).seals = s.seals := rfl
@[simp] theorem queueRec_staged : (s.queueRec n k ws).staged = s.staged := rfl
@[simp] theorem queueRec_tcst : (s.queueRec n k ws).tcst = s.tcst := rfl
@[simp] theorem queueRec_fotst : (s.queueRec n k ws).fotst = s.fotst := rfl
@[simp] theorem queueRec_pkgLinks : (s.queueRec n k ws).pkgLinks = s.pkgLinks := rfl
@[simp] theorem queueRec_podLinks : (s.queueRec n k ws).podLinks = s.podLinks := rfl
@[simp] theorem queueRec_settLinks : (s.queueRec n k ws).settLinks = s.settLinks := rfl
@[simp] theorem queueRec_eseqTx : (s.queueRec n k ws).eseqTx = s.eseqTx := rfl
@[simp] theorem queueRec_eseqRx : (s.queueRec n k ws).eseqRx = s.eseqRx := rfl
@[simp] theorem queueRec_early : (s.queueRec n k ws).early = s.early := rfl
@[simp] theorem queueRec_podOut : (s.queueRec n k ws).podOut = s.podOut := rfl
@[simp] theorem queueRec_controlOut : (s.queueRec n k ws).controlOut = s.controlOut := rfl
@[simp] theorem queueRec_mail : (s.queueRec n k ws).mail = s.mail := rfl
@[simp] theorem queueRec_mailRead : (s.queueRec n k ws).mailRead = s.mailRead := rfl
@[simp] theorem queueRec_wire : (s.queueRec n k ws).wire = s.wire := rfl
@[simp] theorem queueRec_authFailed : (s.queueRec n k ws).authFailed = s.authFailed := rfl
@[simp] theorem queueRec_linkAuth : (s.queueRec n k ws).linkAuth = s.linkAuth := rfl
@[simp] theorem queueRec_spdmReqs : (s.queueRec n k ws).spdmReqs = s.spdmReqs := rfl
@[simp] theorem queueRec_collectives : (s.queueRec n k ws).collectives = s.collectives := rfl
@[simp] theorem queueRec_settIn : (s.queueRec n k ws).settIn = s.settIn := rfl
@[simp] theorem queueRec_settOut : (s.queueRec n k ws).settOut = s.settOut := rfl
@[simp] theorem queueRec_settHeld : (s.queueRec n k ws).settHeld = s.settHeld := rfl
@[simp] theorem queueRec_osObjects : (s.queueRec n k ws).osObjects = s.osObjects := rfl
@[simp] theorem queueRec_entriesRead : (s.queueRec n k ws).entriesRead = s.entriesRead := rfl
@[simp] theorem queueRec_boot : (s.queueRec n k ws).boot = s.boot := rfl
@[simp] theorem queueRec_hbErr : (s.queueRec n k ws).hbErr = s.hbErr := rfl
@[simp] theorem queueRec_slots : (s.queueRec n k ws).slots = s.slots := rfl
@[simp] theorem queueRec_fuses : (s.queueRec n k ws).fuses = s.fuses := rfl
@[simp] theorem queueRec_flash : (s.queueRec n k ws).flash = s.flash := rfl
@[simp] theorem queueRec_fw : (s.queueRec n k ws).fw = s.fw := rfl
@[simp] theorem queueRec_worlds : (s.queueRec n k ws).worlds = s.worlds := rfl
@[simp] theorem queueRec_osKey : (s.queueRec n k ws).osKey = s.osKey := rfl
@[simp] theorem queueRec_harts : (s.queueRec n k ws).harts = s.harts := rfl
@[simp] theorem queueRec_root : (s.queueRec n k ws).root = s.root := rfl
@[simp] theorem queueRec_rootUp : (s.queueRec n k ws).rootUp = s.rootUp := rfl
@[simp] theorem queueRec_gpLoads : (s.queueRec n k ws).gpLoads = s.gpLoads := rfl
@[simp] theorem queueRec_rootLoads : (s.queueRec n k ws).rootLoads = s.rootLoads := rfl
@[simp] theorem queueRec_agreed : (s.queueRec n k ws).agreed = s.agreed := rfl
@[simp] theorem queueRec_sessions : (s.queueRec n k ws).sessions = s.sessions := rfl
@[simp] theorem queueRec_spdmOut : (s.queueRec n k ws).spdmOut = s.spdmOut := rfl
@[simp] theorem queueRec_hdbin : (s.queueRec n k ws).hdbin = s.hdbin := rfl
@[simp] theorem queueRec_hdbout : (s.queueRec n k ws).hdbout = s.hdbout := rfl
@[simp] theorem queueRec_hostOut : (s.queueRec n k ws).hostOut = s.hostOut := rfl
@[simp] theorem queueRec_msix : (s.queueRec n k ws).msix = s.msix := rfl
@[simp] theorem queueRec_fbIrq : (s.queueRec n k ws).fbIrq = s.fbIrq := rfl
@[simp] theorem queueRec_gpFaults : (s.queueRec n k ws).gpFaults = s.gpFaults := rfl
@[simp] theorem queueRec_rootAlarms : (s.queueRec n k ws).rootAlarms = s.rootAlarms := rfl
@[simp] theorem queueRec_audits : (s.queueRec n k ws).audits = s.audits := rfl
@[simp] theorem queueRec_faulty : (s.queueRec n k ws).faulty = s.faulty := rfl
@[simp] theorem queueRec_probes : (s.queueRec n k ws).probes = s.probes := rfl
@[simp] theorem queueRec_mcStop : (s.queueRec n k ws).mcStop = s.mcStop := rfl
@[simp] theorem queueRec_powerCut : (s.queueRec n k ws).powerCut = s.powerCut := rfl
@[simp] theorem queueRec_ck : (s.queueRec n k ws).ck = s.ck := rfl
@[simp] theorem queueRec_nextTid : (s.queueRec n k ws).nextTid = s.nextTid := rfl
@[simp] theorem queueRec_nextId : (s.queueRec n k ws).nextId = s.nextId := rfl
@[simp] theorem queueRec_events : (s.queueRec n k ws).events = s.events := rfl
@[simp] theorem queueRec_freeCtr : (s.queueRec n k ws).freeCtr = s.freeCtr := rfl
@[simp] theorem queueRec_agenda : (s.queueRec n k ws).agenda = s.agenda := rfl

end

/-! ## Updates of a team -/

section
variable (t : Team) (n : Nat) (fl : FFlags) (r : SReg) (q : VReg) (d : MDst) (w : Word) (x : LaneVal) (k : Mask)

/-! `advance` -/

@[simp] theorem advance_tid : (t.advance n).tid = t.tid := rfl
@[simp] theorem advance_group : (t.advance n).group = t.group := rfl
@[simp] theorem advance_index : (t.advance n).index = t.index := rfl
@[simp] theorem advance_cluster : (t.advance n).cluster = t.cluster := rfl
@[simp] theorem advance_core : (t.advance n).core = t.core := rfl
@[simp] theorem advance_slot : (t.advance n).slot = t.slot := rfl
@[simp] theorem advance_lwords : (t.advance n).lwords = t.lwords := rfl
@[simp] theorem advance_nregs : (t.advance n).nregs = t.nregs := rfl
@[simp] theorem advance_pc : (t.advance n).pc = t.pc + word n := rfl
@[simp] theorem advance_v : (t.advance n).v = t.v := rfl
@[simp] theorem advance_s : (t.advance n).s = t.s := rfl
@[simp] theorem advance_m : (t.advance n).m = t.m := rfl
@[simp] theorem advance_stack : (t.advance n).stack = t.stack := rfl
@[simp] theorem advance_fl : (t.advance n).fl = t.fl := rfl
@[simp] theorem advance_fu : (t.advance n).fu = t.fu := rfl
@[simp] theorem advance_fvalid : (t.advance n).fvalid = t.fvalid := rfl
@[simp] theorem advance_pidx : (t.advance n).pidx = t.pidx := rfl
@[simp] theorem advance_fflags : (t.advance n).fflags = t.fflags := rfl
@[simp] theorem advance_frm : (t.advance n).frm = t.frm := rfl
@[simp] theorem advance_ftrap : (t.advance n).ftrap = t.ftrap := rfl
@[simp] theorem advance_recCount : (t.advance n).recCount = t.recCount := rfl
@[simp] theorem advance_rpc : (t.advance n).rpc = t.rpc := rfl
@[simp] theorem advance_srCtr : (t.advance n).srCtr = t.srCtr := rfl
@[simp] theorem advance_srRgn : (t.advance n).srRgn = t.srRgn := rfl
@[simp] theorem advance_escv : (t.advance n).escv = t.escv := rfl
@[simp] theorem advance_escs : (t.advance n).escs = t.escs := rfl
@[simp] theorem advance_qseq : (t.advance n).qseq = t.qseq := rfl
@[simp] theorem advance_qissued : (t.advance n).qissued = t.qissued := rfl
@[simp] theorem advance_qfail : (t.advance n).qfail = t.qfail := rfl
@[simp] theorem advance_qfence : (t.advance n).qfence = t.qfence := rfl
@[simp] theorem advance_sett : (t.advance n).sett = t.sett := rfl
@[simp] theorem advance_tcause : (t.advance n).tcause = t.tcause := rfl
@[simp] theorem advance_tinfo : (t.advance n).tinfo = t.tinfo := rfl
@[simp] theorem advance_widw : (t.advance n).widw = t.widw := rfl
@[simp] theorem advance_stage : (t.advance n).stage = t.stage := rfl
@[simp] theorem advance_workBase : (t.advance n).workBase = t.workBase := rfl
@[simp] theorem advance_seed : (t.advance n).seed = t.seed := rfl
@[simp] theorem advance_deadS : (t.advance n).deadS = t.deadS := rfl
@[simp] theorem advance_deadV : (t.advance n).deadV = t.deadV := rfl
@[simp] theorem advance_lastCarried : (t.advance n).lastCarried = t.lastCarried := rfl
@[simp] theorem advance_st : (t.advance n).st = t.st := rfl
@[simp] theorem advance_tenure : (t.advance n).tenure = t.tenure := rfl
@[simp] theorem advance_accs : (t.advance n).accs = t.accs := rfl
@[simp] theorem advance_nextSeq : (t.advance n).nextSeq = t.nextSeq := rfl
@[simp] theorem advance_relFence : (t.advance n).relFence = t.relFence := rfl
@[simp] theorem advance_escort : (t.advance n).escort = t.escort := rfl
@[simp] theorem advance_granted : (t.advance n).granted = t.granted := rfl
@[simp] theorem advance_arrivedAt : (t.advance n).arrivedAt = t.arrivedAt := rfl
@[simp] theorem advance_pending : (t.advance n).pending = t.pending := rfl
@[simp] theorem advance_readyAt : (t.advance n).readyAt = t.readyAt := rfl
@[simp] theorem advance_readyPrev : (t.advance n).readyPrev = t.readyPrev := rfl
@[simp] theorem advance_idleSince : (t.advance n).idleSince = t.idleSince := rfl
@[simp] theorem advance_winCount : (t.advance n).winCount = t.winCount := rfl
@[simp] theorem advance_memCk : (t.advance n).memCk = t.memCk := rfl
@[simp] theorem advance_resCk : (t.advance n).resCk = t.resCk := rfl
@[simp] theorem advance_stalledPc : (t.advance n).stalledPc = t.stalledPc := rfl
@[simp] theorem advance_patches : (t.advance n).patches = t.patches := rfl
@[simp] theorem advance_resume : (t.advance n).resume = t.resume := rfl
@[simp] theorem advance_saveSeq : (t.advance n).saveSeq = t.saveSeq := rfl
@[simp] theorem advance_saveStatus : (t.advance n).saveStatus = t.saveStatus := rfl
@[simp] theorem advance_saveWher : (t.advance n).saveWher = t.saveWher := rfl

/-! `raise` -/

@[simp] theorem raise_tid : (t.raise fl).tid = t.tid := rfl
@[simp] theorem raise_group : (t.raise fl).group = t.group := rfl
@[simp] theorem raise_index : (t.raise fl).index = t.index := rfl
@[simp] theorem raise_cluster : (t.raise fl).cluster = t.cluster := rfl
@[simp] theorem raise_core : (t.raise fl).core = t.core := rfl
@[simp] theorem raise_slot : (t.raise fl).slot = t.slot := rfl
@[simp] theorem raise_lwords : (t.raise fl).lwords = t.lwords := rfl
@[simp] theorem raise_nregs : (t.raise fl).nregs = t.nregs := rfl
@[simp] theorem raise_pc : (t.raise fl).pc = t.pc := rfl
@[simp] theorem raise_v : (t.raise fl).v = t.v := rfl
@[simp] theorem raise_s : (t.raise fl).s = t.s := rfl
@[simp] theorem raise_m : (t.raise fl).m = t.m := rfl
@[simp] theorem raise_stack : (t.raise fl).stack = t.stack := rfl
@[simp] theorem raise_fl : (t.raise fl).fl = t.fl := rfl
@[simp] theorem raise_fu : (t.raise fl).fu = t.fu := rfl
@[simp] theorem raise_fvalid : (t.raise fl).fvalid = t.fvalid := rfl
@[simp] theorem raise_pidx : (t.raise fl).pidx = t.pidx := rfl
@[simp] theorem raise_fflags : (t.raise fl).fflags = t.fflags ||| fl := rfl
@[simp] theorem raise_frm : (t.raise fl).frm = t.frm := rfl
@[simp] theorem raise_ftrap : (t.raise fl).ftrap = t.ftrap := rfl
@[simp] theorem raise_recCount : (t.raise fl).recCount = t.recCount := rfl
@[simp] theorem raise_rpc : (t.raise fl).rpc = t.rpc := rfl
@[simp] theorem raise_srCtr : (t.raise fl).srCtr = t.srCtr := rfl
@[simp] theorem raise_srRgn : (t.raise fl).srRgn = t.srRgn := rfl
@[simp] theorem raise_escv : (t.raise fl).escv = t.escv := rfl
@[simp] theorem raise_escs : (t.raise fl).escs = t.escs := rfl
@[simp] theorem raise_qseq : (t.raise fl).qseq = t.qseq := rfl
@[simp] theorem raise_qissued : (t.raise fl).qissued = t.qissued := rfl
@[simp] theorem raise_qfail : (t.raise fl).qfail = t.qfail := rfl
@[simp] theorem raise_qfence : (t.raise fl).qfence = t.qfence := rfl
@[simp] theorem raise_sett : (t.raise fl).sett = t.sett := rfl
@[simp] theorem raise_tcause : (t.raise fl).tcause = t.tcause := rfl
@[simp] theorem raise_tinfo : (t.raise fl).tinfo = t.tinfo := rfl
@[simp] theorem raise_widw : (t.raise fl).widw = t.widw := rfl
@[simp] theorem raise_stage : (t.raise fl).stage = t.stage := rfl
@[simp] theorem raise_workBase : (t.raise fl).workBase = t.workBase := rfl
@[simp] theorem raise_seed : (t.raise fl).seed = t.seed := rfl
@[simp] theorem raise_deadS : (t.raise fl).deadS = t.deadS := rfl
@[simp] theorem raise_deadV : (t.raise fl).deadV = t.deadV := rfl
@[simp] theorem raise_lastCarried : (t.raise fl).lastCarried = t.lastCarried := rfl
@[simp] theorem raise_st : (t.raise fl).st = t.st := rfl
@[simp] theorem raise_tenure : (t.raise fl).tenure = t.tenure := rfl
@[simp] theorem raise_accs : (t.raise fl).accs = t.accs := rfl
@[simp] theorem raise_nextSeq : (t.raise fl).nextSeq = t.nextSeq := rfl
@[simp] theorem raise_relFence : (t.raise fl).relFence = t.relFence := rfl
@[simp] theorem raise_escort : (t.raise fl).escort = t.escort := rfl
@[simp] theorem raise_granted : (t.raise fl).granted = t.granted := rfl
@[simp] theorem raise_arrivedAt : (t.raise fl).arrivedAt = t.arrivedAt := rfl
@[simp] theorem raise_pending : (t.raise fl).pending = if flagTraps t.ftrap fl then t.pending ++ [(4, (fl &&& 0x1F).setWidth 64)] else t.pending := rfl
@[simp] theorem raise_readyAt : (t.raise fl).readyAt = t.readyAt := rfl
@[simp] theorem raise_readyPrev : (t.raise fl).readyPrev = t.readyPrev := rfl
@[simp] theorem raise_idleSince : (t.raise fl).idleSince = t.idleSince := rfl
@[simp] theorem raise_winCount : (t.raise fl).winCount = t.winCount := rfl
@[simp] theorem raise_memCk : (t.raise fl).memCk = t.memCk := rfl
@[simp] theorem raise_resCk : (t.raise fl).resCk = t.resCk := rfl
@[simp] theorem raise_stalledPc : (t.raise fl).stalledPc = t.stalledPc := rfl
@[simp] theorem raise_patches : (t.raise fl).patches = t.patches := rfl
@[simp] theorem raise_resume : (t.raise fl).resume = t.resume := rfl
@[simp] theorem raise_saveSeq : (t.raise fl).saveSeq = t.saveSeq := rfl
@[simp] theorem raise_saveStatus : (t.raise fl).saveStatus = t.saveStatus := rfl
@[simp] theorem raise_saveWher : (t.raise fl).saveWher = t.saveWher := rfl

/-! `setS` -/

@[simp] theorem setS_tid : (t.setS r w).tid = t.tid := rfl
@[simp] theorem setS_group : (t.setS r w).group = t.group := rfl
@[simp] theorem setS_index : (t.setS r w).index = t.index := rfl
@[simp] theorem setS_cluster : (t.setS r w).cluster = t.cluster := rfl
@[simp] theorem setS_core : (t.setS r w).core = t.core := rfl
@[simp] theorem setS_slot : (t.setS r w).slot = t.slot := rfl
@[simp] theorem setS_lwords : (t.setS r w).lwords = t.lwords := rfl
@[simp] theorem setS_nregs : (t.setS r w).nregs = t.nregs := rfl
@[simp] theorem setS_pc : (t.setS r w).pc = t.pc := rfl
@[simp] theorem setS_v : (t.setS r w).v = t.v := rfl
@[simp] theorem setS_s : (t.setS r w).s = t.s.set r.val w := rfl
@[simp] theorem setS_m : (t.setS r w).m = t.m := rfl
@[simp] theorem setS_stack : (t.setS r w).stack = t.stack := rfl
@[simp] theorem setS_fl : (t.setS r w).fl = t.fl := rfl
@[simp] theorem setS_fu : (t.setS r w).fu = t.fu := rfl
@[simp] theorem setS_fvalid : (t.setS r w).fvalid = t.fvalid := rfl
@[simp] theorem setS_pidx : (t.setS r w).pidx = t.pidx := rfl
@[simp] theorem setS_fflags : (t.setS r w).fflags = t.fflags := rfl
@[simp] theorem setS_frm : (t.setS r w).frm = t.frm := rfl
@[simp] theorem setS_ftrap : (t.setS r w).ftrap = t.ftrap := rfl
@[simp] theorem setS_recCount : (t.setS r w).recCount = t.recCount := rfl
@[simp] theorem setS_rpc : (t.setS r w).rpc = t.rpc := rfl
@[simp] theorem setS_srCtr : (t.setS r w).srCtr = t.srCtr := rfl
@[simp] theorem setS_srRgn : (t.setS r w).srRgn = t.srRgn := rfl
@[simp] theorem setS_escv : (t.setS r w).escv = t.escv := rfl
@[simp] theorem setS_escs : (t.setS r w).escs = t.escs := rfl
@[simp] theorem setS_qseq : (t.setS r w).qseq = t.qseq := rfl
@[simp] theorem setS_qissued : (t.setS r w).qissued = t.qissued := rfl
@[simp] theorem setS_qfail : (t.setS r w).qfail = t.qfail := rfl
@[simp] theorem setS_qfence : (t.setS r w).qfence = t.qfence := rfl
@[simp] theorem setS_sett : (t.setS r w).sett = t.sett := rfl
@[simp] theorem setS_tcause : (t.setS r w).tcause = t.tcause := rfl
@[simp] theorem setS_tinfo : (t.setS r w).tinfo = t.tinfo := rfl
@[simp] theorem setS_widw : (t.setS r w).widw = t.widw := rfl
@[simp] theorem setS_stage : (t.setS r w).stage = t.stage := rfl
@[simp] theorem setS_workBase : (t.setS r w).workBase = t.workBase := rfl
@[simp] theorem setS_seed : (t.setS r w).seed = t.seed := rfl
@[simp] theorem setS_deadS : (t.setS r w).deadS = t.deadS &&& ~~~ (1#32 <<< r.val) := rfl
@[simp] theorem setS_deadV : (t.setS r w).deadV = t.deadV := rfl
@[simp] theorem setS_lastCarried : (t.setS r w).lastCarried = t.lastCarried := rfl
@[simp] theorem setS_st : (t.setS r w).st = t.st := rfl
@[simp] theorem setS_tenure : (t.setS r w).tenure = t.tenure := rfl
@[simp] theorem setS_accs : (t.setS r w).accs = t.accs := rfl
@[simp] theorem setS_nextSeq : (t.setS r w).nextSeq = t.nextSeq := rfl
@[simp] theorem setS_relFence : (t.setS r w).relFence = t.relFence := rfl
@[simp] theorem setS_escort : (t.setS r w).escort = t.escort := rfl
@[simp] theorem setS_granted : (t.setS r w).granted = t.granted := rfl
@[simp] theorem setS_arrivedAt : (t.setS r w).arrivedAt = t.arrivedAt := rfl
@[simp] theorem setS_pending : (t.setS r w).pending = t.pending := rfl
@[simp] theorem setS_readyAt : (t.setS r w).readyAt = t.readyAt := rfl
@[simp] theorem setS_readyPrev : (t.setS r w).readyPrev = t.readyPrev := rfl
@[simp] theorem setS_idleSince : (t.setS r w).idleSince = t.idleSince := rfl
@[simp] theorem setS_winCount : (t.setS r w).winCount = t.winCount := rfl
@[simp] theorem setS_memCk : (t.setS r w).memCk = t.memCk := rfl
@[simp] theorem setS_resCk : (t.setS r w).resCk = t.resCk := rfl
@[simp] theorem setS_stalledPc : (t.setS r w).stalledPc = t.stalledPc := rfl
@[simp] theorem setS_patches : (t.setS r w).patches = t.patches := rfl
@[simp] theorem setS_resume : (t.setS r w).resume = t.resume := rfl
@[simp] theorem setS_saveSeq : (t.setS r w).saveSeq = t.saveSeq := rfl
@[simp] theorem setS_saveStatus : (t.setS r w).saveStatus = t.saveStatus := rfl
@[simp] theorem setS_saveWher : (t.setS r w).saveWher = t.saveWher := rfl

/-! `setV` -/

@[simp] theorem setV_tid : (t.setV q x).tid = t.tid := rfl
@[simp] theorem setV_group : (t.setV q x).group = t.group := rfl
@[simp] theorem setV_index : (t.setV q x).index = t.index := rfl
@[simp] theorem setV_cluster : (t.setV q x).cluster = t.cluster := rfl
@[simp] theorem setV_core : (t.setV q x).core = t.core := rfl
@[simp] theorem setV_slot : (t.setV q x).slot = t.slot := rfl
@[simp] theorem setV_lwords : (t.setV q x).lwords = t.lwords := rfl
@[simp] theorem setV_nregs : (t.setV q x).nregs = t.nregs := rfl
@[simp] theorem setV_pc : (t.setV q x).pc = t.pc := rfl
@[simp] theorem setV_v : (t.setV q x).v = t.v.set q.val x := rfl
@[simp] theorem setV_s : (t.setV q x).s = t.s := rfl
@[simp] theorem setV_m : (t.setV q x).m = t.m := rfl
@[simp] theorem setV_stack : (t.setV q x).stack = t.stack := rfl
@[simp] theorem setV_fl : (t.setV q x).fl = t.fl := rfl
@[simp] theorem setV_fu : (t.setV q x).fu = t.fu := rfl
@[simp] theorem setV_fvalid : (t.setV q x).fvalid = t.fvalid := rfl
@[simp] theorem setV_pidx : (t.setV q x).pidx = t.pidx := rfl
@[simp] theorem setV_fflags : (t.setV q x).fflags = t.fflags := rfl
@[simp] theorem setV_frm : (t.setV q x).frm = t.frm := rfl
@[simp] theorem setV_ftrap : (t.setV q x).ftrap = t.ftrap := rfl
@[simp] theorem setV_recCount : (t.setV q x).recCount = t.recCount := rfl
@[simp] theorem setV_rpc : (t.setV q x).rpc = t.rpc := rfl
@[simp] theorem setV_srCtr : (t.setV q x).srCtr = t.srCtr := rfl
@[simp] theorem setV_srRgn : (t.setV q x).srRgn = t.srRgn := rfl
@[simp] theorem setV_escv : (t.setV q x).escv = t.escv := rfl
@[simp] theorem setV_escs : (t.setV q x).escs = t.escs := rfl
@[simp] theorem setV_qseq : (t.setV q x).qseq = t.qseq := rfl
@[simp] theorem setV_qissued : (t.setV q x).qissued = t.qissued := rfl
@[simp] theorem setV_qfail : (t.setV q x).qfail = t.qfail := rfl
@[simp] theorem setV_qfence : (t.setV q x).qfence = t.qfence := rfl
@[simp] theorem setV_sett : (t.setV q x).sett = t.sett := rfl
@[simp] theorem setV_tcause : (t.setV q x).tcause = t.tcause := rfl
@[simp] theorem setV_tinfo : (t.setV q x).tinfo = t.tinfo := rfl
@[simp] theorem setV_widw : (t.setV q x).widw = t.widw := rfl
@[simp] theorem setV_stage : (t.setV q x).stage = t.stage := rfl
@[simp] theorem setV_workBase : (t.setV q x).workBase = t.workBase := rfl
@[simp] theorem setV_seed : (t.setV q x).seed = t.seed := rfl
@[simp] theorem setV_deadS : (t.setV q x).deadS = t.deadS := rfl
@[simp] theorem setV_deadV : (t.setV q x).deadV = t.deadV.set q.val 0 := rfl
@[simp] theorem setV_lastCarried : (t.setV q x).lastCarried = t.lastCarried := rfl
@[simp] theorem setV_st : (t.setV q x).st = t.st := rfl
@[simp] theorem setV_tenure : (t.setV q x).tenure = t.tenure := rfl
@[simp] theorem setV_accs : (t.setV q x).accs = t.accs := rfl
@[simp] theorem setV_nextSeq : (t.setV q x).nextSeq = t.nextSeq := rfl
@[simp] theorem setV_relFence : (t.setV q x).relFence = t.relFence := rfl
@[simp] theorem setV_escort : (t.setV q x).escort = t.escort := rfl
@[simp] theorem setV_granted : (t.setV q x).granted = t.granted := rfl
@[simp] theorem setV_arrivedAt : (t.setV q x).arrivedAt = t.arrivedAt := rfl
@[simp] theorem setV_pending : (t.setV q x).pending = t.pending := rfl
@[simp] theorem setV_readyAt : (t.setV q x).readyAt = t.readyAt := rfl
@[simp] theorem setV_readyPrev : (t.setV q x).readyPrev = t.readyPrev := rfl
@[simp] theorem setV_idleSince : (t.setV q x).idleSince = t.idleSince := rfl
@[simp] theorem setV_winCount : (t.setV q x).winCount = t.winCount := rfl
@[simp] theorem setV_memCk : (t.setV q x).memCk = t.memCk := rfl
@[simp] theorem setV_resCk : (t.setV q x).resCk = t.resCk := rfl
@[simp] theorem setV_stalledPc : (t.setV q x).stalledPc = t.stalledPc := rfl
@[simp] theorem setV_patches : (t.setV q x).patches = t.patches := rfl
@[simp] theorem setV_resume : (t.setV q x).resume = t.resume := rfl
@[simp] theorem setV_saveSeq : (t.setV q x).saveSeq = t.saveSeq := rfl
@[simp] theorem setV_saveStatus : (t.setV q x).saveStatus = t.saveStatus := rfl
@[simp] theorem setV_saveWher : (t.setV q x).saveWher = t.saveWher := rfl

/-! `setMask` -/

@[simp] theorem setMask_tid : (t.setMask d k).tid = t.tid := rfl
@[simp] theorem setMask_group : (t.setMask d k).group = t.group := rfl
@[simp] theorem setMask_index : (t.setMask d k).index = t.index := rfl
@[simp] theorem setMask_cluster : (t.setMask d k).cluster = t.cluster := rfl
@[simp] theorem setMask_core : (t.setMask d k).core = t.core := rfl
@[simp] theorem setMask_slot : (t.setMask d k).slot = t.slot := rfl
@[simp] theorem setMask_lwords : (t.setMask d k).lwords = t.lwords := rfl
@[simp] theorem setMask_nregs : (t.setMask d k).nregs = t.nregs := rfl
@[simp] theorem setMask_pc : (t.setMask d k).pc = t.pc := rfl
@[simp] theorem setMask_v : (t.setMask d k).v = t.v := rfl
@[simp] theorem setMask_s : (t.setMask d k).s = t.s := rfl
@[simp] theorem setMask_m : (t.setMask d k).m = t.m.set d.val (t.correct k) (by omega) := rfl
@[simp] theorem setMask_stack : (t.setMask d k).stack = t.stack := rfl
@[simp] theorem setMask_fl : (t.setMask d k).fl = t.fl := rfl
@[simp] theorem setMask_fu : (t.setMask d k).fu = t.fu := rfl
@[simp] theorem setMask_fvalid : (t.setMask d k).fvalid = t.fvalid := rfl
@[simp] theorem setMask_pidx : (t.setMask d k).pidx = t.pidx := rfl
@[simp] theorem setMask_fflags : (t.setMask d k).fflags = t.fflags := rfl
@[simp] theorem setMask_frm : (t.setMask d k).frm = t.frm := rfl
@[simp] theorem setMask_ftrap : (t.setMask d k).ftrap = t.ftrap := rfl
@[simp] theorem setMask_recCount : (t.setMask d k).recCount = t.recCount := rfl
@[simp] theorem setMask_rpc : (t.setMask d k).rpc = t.rpc := rfl
@[simp] theorem setMask_srCtr : (t.setMask d k).srCtr = t.srCtr := rfl
@[simp] theorem setMask_srRgn : (t.setMask d k).srRgn = t.srRgn := rfl
@[simp] theorem setMask_escv : (t.setMask d k).escv = t.escv := rfl
@[simp] theorem setMask_escs : (t.setMask d k).escs = t.escs := rfl
@[simp] theorem setMask_qseq : (t.setMask d k).qseq = t.qseq := rfl
@[simp] theorem setMask_qissued : (t.setMask d k).qissued = t.qissued := rfl
@[simp] theorem setMask_qfail : (t.setMask d k).qfail = t.qfail := rfl
@[simp] theorem setMask_qfence : (t.setMask d k).qfence = t.qfence := rfl
@[simp] theorem setMask_sett : (t.setMask d k).sett = t.sett := rfl
@[simp] theorem setMask_tcause : (t.setMask d k).tcause = t.tcause := rfl
@[simp] theorem setMask_tinfo : (t.setMask d k).tinfo = t.tinfo := rfl
@[simp] theorem setMask_widw : (t.setMask d k).widw = t.widw := rfl
@[simp] theorem setMask_stage : (t.setMask d k).stage = t.stage := rfl
@[simp] theorem setMask_workBase : (t.setMask d k).workBase = t.workBase := rfl
@[simp] theorem setMask_seed : (t.setMask d k).seed = t.seed := rfl
@[simp] theorem setMask_deadS : (t.setMask d k).deadS = t.deadS := rfl
@[simp] theorem setMask_deadV : (t.setMask d k).deadV = t.deadV := rfl
@[simp] theorem setMask_lastCarried : (t.setMask d k).lastCarried = t.lastCarried := rfl
@[simp] theorem setMask_st : (t.setMask d k).st = t.st := rfl
@[simp] theorem setMask_tenure : (t.setMask d k).tenure = t.tenure := rfl
@[simp] theorem setMask_accs : (t.setMask d k).accs = t.accs := rfl
@[simp] theorem setMask_nextSeq : (t.setMask d k).nextSeq = t.nextSeq := rfl
@[simp] theorem setMask_relFence : (t.setMask d k).relFence = t.relFence := rfl
@[simp] theorem setMask_escort : (t.setMask d k).escort = t.escort := rfl
@[simp] theorem setMask_granted : (t.setMask d k).granted = t.granted := rfl
@[simp] theorem setMask_arrivedAt : (t.setMask d k).arrivedAt = t.arrivedAt := rfl
@[simp] theorem setMask_pending : (t.setMask d k).pending = t.pending := rfl
@[simp] theorem setMask_readyAt : (t.setMask d k).readyAt = t.readyAt := rfl
@[simp] theorem setMask_readyPrev : (t.setMask d k).readyPrev = t.readyPrev := rfl
@[simp] theorem setMask_idleSince : (t.setMask d k).idleSince = t.idleSince := rfl
@[simp] theorem setMask_winCount : (t.setMask d k).winCount = t.winCount := rfl
@[simp] theorem setMask_memCk : (t.setMask d k).memCk = t.memCk := rfl
@[simp] theorem setMask_resCk : (t.setMask d k).resCk = t.resCk := rfl
@[simp] theorem setMask_stalledPc : (t.setMask d k).stalledPc = t.stalledPc := rfl
@[simp] theorem setMask_patches : (t.setMask d k).patches = t.patches := rfl
@[simp] theorem setMask_resume : (t.setMask d k).resume = t.resume := rfl
@[simp] theorem setMask_saveSeq : (t.setMask d k).saveSeq = t.saveSeq := rfl
@[simp] theorem setMask_saveStatus : (t.setMask d k).saveStatus = t.saveStatus := rfl
@[simp] theorem setMask_saveWher : (t.setMask d k).saveWher = t.saveWher := rfl

/-! `pushLane` -/

@[simp] theorem pushLane_tid : (t.pushLane x).tid = t.tid := rfl
@[simp] theorem pushLane_group : (t.pushLane x).group = t.group := rfl
@[simp] theorem pushLane_index : (t.pushLane x).index = t.index := rfl
@[simp] theorem pushLane_cluster : (t.pushLane x).cluster = t.cluster := rfl
@[simp] theorem pushLane_core : (t.pushLane x).core = t.core := rfl
@[simp] theorem pushLane_slot : (t.pushLane x).slot = t.slot := rfl
@[simp] theorem pushLane_lwords : (t.pushLane x).lwords = t.lwords := rfl
@[simp] theorem pushLane_nregs : (t.pushLane x).nregs = t.nregs := rfl
@[simp] theorem pushLane_pc : (t.pushLane x).pc = t.pc := rfl
@[simp] theorem pushLane_v : (t.pushLane x).v = t.v := rfl
@[simp] theorem pushLane_s : (t.pushLane x).s = t.s := rfl
@[simp] theorem pushLane_m : (t.pushLane x).m = t.m := rfl
@[simp] theorem pushLane_stack : (t.pushLane x).stack = t.stack := rfl
@[simp] theorem pushLane_fl : (t.pushLane x).fl = #v[x, t.fl[0], t.fl[1], t.fl[2]] := rfl
@[simp] theorem pushLane_fu : (t.pushLane x).fu = t.fu := rfl
@[simp] theorem pushLane_pidx : (t.pushLane x).pidx = t.pidx := rfl
@[simp] theorem pushLane_fflags : (t.pushLane x).fflags = t.fflags := rfl
@[simp] theorem pushLane_frm : (t.pushLane x).frm = t.frm := rfl
@[simp] theorem pushLane_ftrap : (t.pushLane x).ftrap = t.ftrap := rfl
@[simp] theorem pushLane_recCount : (t.pushLane x).recCount = t.recCount := rfl
@[simp] theorem pushLane_rpc : (t.pushLane x).rpc = t.rpc := rfl
@[simp] theorem pushLane_srCtr : (t.pushLane x).srCtr = t.srCtr := rfl
@[simp] theorem pushLane_srRgn : (t.pushLane x).srRgn = t.srRgn := rfl
@[simp] theorem pushLane_escv : (t.pushLane x).escv = t.escv := rfl
@[simp] theorem pushLane_escs : (t.pushLane x).escs = t.escs := rfl
@[simp] theorem pushLane_qseq : (t.pushLane x).qseq = t.qseq := rfl
@[simp] theorem pushLane_qissued : (t.pushLane x).qissued = t.qissued := rfl
@[simp] theorem pushLane_qfail : (t.pushLane x).qfail = t.qfail := rfl
@[simp] theorem pushLane_qfence : (t.pushLane x).qfence = t.qfence := rfl
@[simp] theorem pushLane_sett : (t.pushLane x).sett = t.sett := rfl
@[simp] theorem pushLane_tcause : (t.pushLane x).tcause = t.tcause := rfl
@[simp] theorem pushLane_tinfo : (t.pushLane x).tinfo = t.tinfo := rfl
@[simp] theorem pushLane_widw : (t.pushLane x).widw = t.widw := rfl
@[simp] theorem pushLane_stage : (t.pushLane x).stage = t.stage := rfl
@[simp] theorem pushLane_workBase : (t.pushLane x).workBase = t.workBase := rfl
@[simp] theorem pushLane_seed : (t.pushLane x).seed = t.seed := rfl
@[simp] theorem pushLane_deadS : (t.pushLane x).deadS = t.deadS := rfl
@[simp] theorem pushLane_deadV : (t.pushLane x).deadV = t.deadV := rfl
@[simp] theorem pushLane_lastCarried : (t.pushLane x).lastCarried = t.lastCarried := rfl
@[simp] theorem pushLane_st : (t.pushLane x).st = t.st := rfl
@[simp] theorem pushLane_tenure : (t.pushLane x).tenure = t.tenure := rfl
@[simp] theorem pushLane_accs : (t.pushLane x).accs = t.accs := rfl
@[simp] theorem pushLane_nextSeq : (t.pushLane x).nextSeq = t.nextSeq := rfl
@[simp] theorem pushLane_relFence : (t.pushLane x).relFence = t.relFence := rfl
@[simp] theorem pushLane_escort : (t.pushLane x).escort = t.escort := rfl
@[simp] theorem pushLane_granted : (t.pushLane x).granted = t.granted := rfl
@[simp] theorem pushLane_arrivedAt : (t.pushLane x).arrivedAt = t.arrivedAt := rfl
@[simp] theorem pushLane_pending : (t.pushLane x).pending = t.pending := rfl
@[simp] theorem pushLane_readyAt : (t.pushLane x).readyAt = t.readyAt := rfl
@[simp] theorem pushLane_readyPrev : (t.pushLane x).readyPrev = t.readyPrev := rfl
@[simp] theorem pushLane_idleSince : (t.pushLane x).idleSince = t.idleSince := rfl
@[simp] theorem pushLane_winCount : (t.pushLane x).winCount = t.winCount := rfl
@[simp] theorem pushLane_memCk : (t.pushLane x).memCk = t.memCk := rfl
@[simp] theorem pushLane_resCk : (t.pushLane x).resCk = t.resCk := rfl
@[simp] theorem pushLane_stalledPc : (t.pushLane x).stalledPc = t.stalledPc := rfl
@[simp] theorem pushLane_patches : (t.pushLane x).patches = t.patches := rfl
@[simp] theorem pushLane_resume : (t.pushLane x).resume = t.resume := rfl
@[simp] theorem pushLane_saveSeq : (t.pushLane x).saveSeq = t.saveSeq := rfl
@[simp] theorem pushLane_saveStatus : (t.pushLane x).saveStatus = t.saveStatus := rfl
@[simp] theorem pushLane_saveWher : (t.pushLane x).saveWher = t.saveWher := rfl

/-! `pushUni` -/

@[simp] theorem pushUni_tid : (t.pushUni w).tid = t.tid := rfl
@[simp] theorem pushUni_group : (t.pushUni w).group = t.group := rfl
@[simp] theorem pushUni_index : (t.pushUni w).index = t.index := rfl
@[simp] theorem pushUni_cluster : (t.pushUni w).cluster = t.cluster := rfl
@[simp] theorem pushUni_core : (t.pushUni w).core = t.core := rfl
@[simp] theorem pushUni_slot : (t.pushUni w).slot = t.slot := rfl
@[simp] theorem pushUni_lwords : (t.pushUni w).lwords = t.lwords := rfl
@[simp] theorem pushUni_nregs : (t.pushUni w).nregs = t.nregs := rfl
@[simp] theorem pushUni_pc : (t.pushUni w).pc = t.pc := rfl
@[simp] theorem pushUni_v : (t.pushUni w).v = t.v := rfl
@[simp] theorem pushUni_s : (t.pushUni w).s = t.s := rfl
@[simp] theorem pushUni_m : (t.pushUni w).m = t.m := rfl
@[simp] theorem pushUni_stack : (t.pushUni w).stack = t.stack := rfl
@[simp] theorem pushUni_fl : (t.pushUni w).fl = t.fl := rfl
@[simp] theorem pushUni_fu : (t.pushUni w).fu = #v[w, t.fu[0], t.fu[1], t.fu[2]] := rfl
@[simp] theorem pushUni_pidx : (t.pushUni w).pidx = t.pidx := rfl
@[simp] theorem pushUni_fflags : (t.pushUni w).fflags = t.fflags := rfl
@[simp] theorem pushUni_frm : (t.pushUni w).frm = t.frm := rfl
@[simp] theorem pushUni_ftrap : (t.pushUni w).ftrap = t.ftrap := rfl
@[simp] theorem pushUni_recCount : (t.pushUni w).recCount = t.recCount := rfl
@[simp] theorem pushUni_rpc : (t.pushUni w).rpc = t.rpc := rfl
@[simp] theorem pushUni_srCtr : (t.pushUni w).srCtr = t.srCtr := rfl
@[simp] theorem pushUni_srRgn : (t.pushUni w).srRgn = t.srRgn := rfl
@[simp] theorem pushUni_escv : (t.pushUni w).escv = t.escv := rfl
@[simp] theorem pushUni_escs : (t.pushUni w).escs = t.escs := rfl
@[simp] theorem pushUni_qseq : (t.pushUni w).qseq = t.qseq := rfl
@[simp] theorem pushUni_qissued : (t.pushUni w).qissued = t.qissued := rfl
@[simp] theorem pushUni_qfail : (t.pushUni w).qfail = t.qfail := rfl
@[simp] theorem pushUni_qfence : (t.pushUni w).qfence = t.qfence := rfl
@[simp] theorem pushUni_sett : (t.pushUni w).sett = t.sett := rfl
@[simp] theorem pushUni_tcause : (t.pushUni w).tcause = t.tcause := rfl
@[simp] theorem pushUni_tinfo : (t.pushUni w).tinfo = t.tinfo := rfl
@[simp] theorem pushUni_widw : (t.pushUni w).widw = t.widw := rfl
@[simp] theorem pushUni_stage : (t.pushUni w).stage = t.stage := rfl
@[simp] theorem pushUni_workBase : (t.pushUni w).workBase = t.workBase := rfl
@[simp] theorem pushUni_seed : (t.pushUni w).seed = t.seed := rfl
@[simp] theorem pushUni_deadS : (t.pushUni w).deadS = t.deadS := rfl
@[simp] theorem pushUni_deadV : (t.pushUni w).deadV = t.deadV := rfl
@[simp] theorem pushUni_lastCarried : (t.pushUni w).lastCarried = t.lastCarried := rfl
@[simp] theorem pushUni_st : (t.pushUni w).st = t.st := rfl
@[simp] theorem pushUni_tenure : (t.pushUni w).tenure = t.tenure := rfl
@[simp] theorem pushUni_accs : (t.pushUni w).accs = t.accs := rfl
@[simp] theorem pushUni_nextSeq : (t.pushUni w).nextSeq = t.nextSeq := rfl
@[simp] theorem pushUni_relFence : (t.pushUni w).relFence = t.relFence := rfl
@[simp] theorem pushUni_escort : (t.pushUni w).escort = t.escort := rfl
@[simp] theorem pushUni_granted : (t.pushUni w).granted = t.granted := rfl
@[simp] theorem pushUni_arrivedAt : (t.pushUni w).arrivedAt = t.arrivedAt := rfl
@[simp] theorem pushUni_pending : (t.pushUni w).pending = t.pending := rfl
@[simp] theorem pushUni_readyAt : (t.pushUni w).readyAt = t.readyAt := rfl
@[simp] theorem pushUni_readyPrev : (t.pushUni w).readyPrev = t.readyPrev := rfl
@[simp] theorem pushUni_idleSince : (t.pushUni w).idleSince = t.idleSince := rfl
@[simp] theorem pushUni_winCount : (t.pushUni w).winCount = t.winCount := rfl
@[simp] theorem pushUni_memCk : (t.pushUni w).memCk = t.memCk := rfl
@[simp] theorem pushUni_resCk : (t.pushUni w).resCk = t.resCk := rfl
@[simp] theorem pushUni_stalledPc : (t.pushUni w).stalledPc = t.stalledPc := rfl
@[simp] theorem pushUni_patches : (t.pushUni w).patches = t.patches := rfl
@[simp] theorem pushUni_resume : (t.pushUni w).resume = t.resume := rfl
@[simp] theorem pushUni_saveSeq : (t.pushUni w).saveSeq = t.saveSeq := rfl
@[simp] theorem pushUni_saveStatus : (t.pushUni w).saveStatus = t.saveStatus := rfl
@[simp] theorem pushUni_saveWher : (t.pushUni w).saveWher = t.saveWher := rfl

/-! `endTenure` -/

@[simp] theorem endTenure_tid : (t.endTenure).tid = t.tid := rfl
@[simp] theorem endTenure_group : (t.endTenure).group = t.group := rfl
@[simp] theorem endTenure_index : (t.endTenure).index = t.index := rfl
@[simp] theorem endTenure_cluster : (t.endTenure).cluster = t.cluster := rfl
@[simp] theorem endTenure_core : (t.endTenure).core = t.core := rfl
@[simp] theorem endTenure_slot : (t.endTenure).slot = t.slot := rfl
@[simp] theorem endTenure_lwords : (t.endTenure).lwords = t.lwords := rfl
@[simp] theorem endTenure_nregs : (t.endTenure).nregs = t.nregs := rfl
@[simp] theorem endTenure_pc : (t.endTenure).pc = t.pc := rfl
@[simp] theorem endTenure_v : (t.endTenure).v = t.v := rfl
@[simp] theorem endTenure_s : (t.endTenure).s = t.s := rfl
@[simp] theorem endTenure_m : (t.endTenure).m = t.m := rfl
@[simp] theorem endTenure_stack : (t.endTenure).stack = t.stack := rfl
@[simp] theorem endTenure_fl : (t.endTenure).fl = t.fl := rfl
@[simp] theorem endTenure_fu : (t.endTenure).fu = t.fu := rfl
@[simp] theorem endTenure_fvalid : (t.endTenure).fvalid = 0 := rfl
@[simp] theorem endTenure_pidx : (t.endTenure).pidx = t.pidx := rfl
@[simp] theorem endTenure_fflags : (t.endTenure).fflags = t.fflags := rfl
@[simp] theorem endTenure_frm : (t.endTenure).frm = t.frm := rfl
@[simp] theorem endTenure_ftrap : (t.endTenure).ftrap = t.ftrap := rfl
@[simp] theorem endTenure_recCount : (t.endTenure).recCount = t.recCount := rfl
@[simp] theorem endTenure_rpc : (t.endTenure).rpc = t.rpc := rfl
@[simp] theorem endTenure_srCtr : (t.endTenure).srCtr = t.srCtr := rfl
@[simp] theorem endTenure_srRgn : (t.endTenure).srRgn = t.srRgn := rfl
@[simp] theorem endTenure_escv : (t.endTenure).escv = t.escv := rfl
@[simp] theorem endTenure_escs : (t.endTenure).escs = t.escs := rfl
@[simp] theorem endTenure_qseq : (t.endTenure).qseq = t.qseq := rfl
@[simp] theorem endTenure_qissued : (t.endTenure).qissued = t.qissued := rfl
@[simp] theorem endTenure_qfail : (t.endTenure).qfail = t.qfail := rfl
@[simp] theorem endTenure_qfence : (t.endTenure).qfence = t.qfence := rfl
@[simp] theorem endTenure_sett : (t.endTenure).sett = t.sett := rfl
@[simp] theorem endTenure_tcause : (t.endTenure).tcause = t.tcause := rfl
@[simp] theorem endTenure_tinfo : (t.endTenure).tinfo = t.tinfo := rfl
@[simp] theorem endTenure_widw : (t.endTenure).widw = t.widw := rfl
@[simp] theorem endTenure_stage : (t.endTenure).stage = t.stage := rfl
@[simp] theorem endTenure_workBase : (t.endTenure).workBase = t.workBase := rfl
@[simp] theorem endTenure_seed : (t.endTenure).seed = t.seed := rfl
@[simp] theorem endTenure_deadS : (t.endTenure).deadS = t.deadS := rfl
@[simp] theorem endTenure_deadV : (t.endTenure).deadV = t.deadV := rfl
@[simp] theorem endTenure_lastCarried : (t.endTenure).lastCarried = t.lastCarried := rfl
@[simp] theorem endTenure_st : (t.endTenure).st = t.st := rfl
@[simp] theorem endTenure_tenure : (t.endTenure).tenure = .none := rfl
@[simp] theorem endTenure_accs : (t.endTenure).accs = t.accs := rfl
@[simp] theorem endTenure_nextSeq : (t.endTenure).nextSeq = t.nextSeq := rfl
@[simp] theorem endTenure_relFence : (t.endTenure).relFence = t.relFence := rfl
@[simp] theorem endTenure_escort : (t.endTenure).escort = t.escort := rfl
@[simp] theorem endTenure_granted : (t.endTenure).granted = t.granted := rfl
@[simp] theorem endTenure_arrivedAt : (t.endTenure).arrivedAt = t.arrivedAt := rfl
@[simp] theorem endTenure_pending : (t.endTenure).pending = t.pending := rfl
@[simp] theorem endTenure_readyAt : (t.endTenure).readyAt = t.readyAt := rfl
@[simp] theorem endTenure_readyPrev : (t.endTenure).readyPrev = t.readyPrev := rfl
@[simp] theorem endTenure_idleSince : (t.endTenure).idleSince = t.idleSince := rfl
@[simp] theorem endTenure_winCount : (t.endTenure).winCount = t.winCount := rfl
@[simp] theorem endTenure_memCk : (t.endTenure).memCk = t.memCk := rfl
@[simp] theorem endTenure_resCk : (t.endTenure).resCk = t.resCk := rfl
@[simp] theorem endTenure_stalledPc : (t.endTenure).stalledPc = t.stalledPc := rfl
@[simp] theorem endTenure_patches : (t.endTenure).patches = t.patches := rfl
@[simp] theorem endTenure_resume : (t.endTenure).resume = t.resume := rfl
@[simp] theorem endTenure_saveSeq : (t.endTenure).saveSeq = t.saveSeq := rfl
@[simp] theorem endTenure_saveStatus : (t.endTenure).saveStatus = t.saveStatus := rfl
@[simp] theorem endTenure_saveWher : (t.endTenure).saveWher = t.saveWher := rfl

end

end Sys2Proof.Machine
end

