-- ==== Sys2Proof/Laws/Step.lean ====
section
/-! SUPPORT. What the shared operations of a step can do: taking a trap, ending a tenure, a jump, a memory instruction at issue, an
instruction that parks, the fetch of the words at the program counter, and the ways in which a step answers a next state. -/
namespace Sys2Proof.Machine
open Sys2Proof

/-! ## Lists -/

@[simp] theorem setNth_length {α : Type} (l : List α) (i : Nat) (a : α) : (setNth l i a).length = l.length := by
  induction l generalizing i with
  | nil => rfl
  | cons b l ih => cases i with
    | zero => rfl
    | succ i => simp [setNth, ih]

theorem nth_setNth {α : Type} (d : α) (l : List α) (i k : Nat) (a : α) :
    nth d (setNth l i a) k = if k = i ∧ i < l.length then a else nth d l k := by
  induction l generalizing i k with
  | nil => simp [setNth]
  | cons b l ih =>
    cases i with
    | zero => cases k <;> simp [setNth, nth]
    | succ i =>
      cases k with
      | zero => simp [setNth, nth]
      | succ k => simp [setNth, nth, ih]

theorem nth_getElem {α : Type} (d : α) (l : List α) (i : Nat) (h : i < l.length) : nth d l i = l[i] := by
  induction l generalizing i with
  | nil => cases h
  | cons a l ih => cases i with
    | zero => rfl
    | succ i => exact ih i (Nat.lt_of_succ_lt_succ h)

theorem cluster_modCluster (s : State) (c : Nat) (f : Cluster → Cluster) (k : Nat) :
    (s.modCluster c f).cluster k = if k = c ∧ c < s.clusters.length then f (s.cluster c) else s.cluster k :=
  nth_setNth _ _ _ _ _

theorem die_modDie (s : State) (d : Nat) (f : Die → Die) (k : Nat) :
    (s.modDie d f).die k = if k = d ∧ d < s.dies.length then f (s.die d) else s.die k :=
  nth_setNth _ _ _ _ _

/-! ## Tenures and traps -/

theorem release_leads (c : Core) (tid : Nat) :
    c.release tid = { c with laneLead := (c.release tid).laneLead, uniLead := (c.release tid).uniLead } ∧
    (c.release tid).laneLead ≠ some tid ∧ (c.release tid).uniLead ≠ some tid := by
  by_cases h1 : c.laneLead = some tid <;> by_cases h2 : c.uniLead = some tid <;> simp [Core.release, h1, h2]

/-- Everything that the end of a tenure does. -/
theorem endTenure_over (s : State) :
    TenureOver s s.endTenure ∧ s.endTenure.cur = { s.cur with fvalid := 0, tenure := .none, idleSince := s.ck } := by
  have hc : ∀ k, s.endTenure.cluster k = if k = s.cur.cluster ∧ s.cur.cluster < s.clusters.length
      then (s.cluster s.cur.cluster).modCore s.cur.core fun c => c.release s.cur.tid else s.cluster k :=
    fun k => cluster_modCluster _ _ _ k
  have hr : ∀ c : Core, c.release s.cur.tid =
      { c with laneLead := (c.release s.cur.tid).laneLead, uniLead := (c.release s.cur.tid).uniLead } :=
    fun c => (release_leads c _).1
  refine ⟨⟨rfl, rfl, rfl, ?_, ?_, ?_, fun _ => rfl, fun _ _ => rfl⟩, rfl⟩
  · intro c
    rw [hc]
    split
    · rename_i h
      rw [h.1]
      by_cases h0 : s.cur.core = 0 <;> simp [Cluster.modCore, h0]
    · rfl
  · intro c k
    rw [hc]
    split
    · rename_i h
      rw [h.1]
      by_cases h0 : s.cur.core = 0 <;> by_cases hk : k = 0 <;> simp [Cluster.modCore, Cluster.core, h0, hk] <;>
        exact hr _
    · rfl
  · intro h
    rw [hc, if_pos ⟨rfl, h⟩]
    by_cases h0 : s.cur.core = 0 <;> simp [Cluster.modCore, Cluster.core, h0] <;>
      exact (release_leads _ s.cur.tid).2

/-- Taking a trap writes the cause and the detail, ends the tenure, and stops the team where it stands. -/
theorem takeTrap_taken (cause : Nat) (info : Word) (s : State) :
    TrapTaken (BitVec.ofNat 8 cause) info s (takeTrap cause info s) := by
  obtain ⟨h, hc⟩ := endTenure_over s
  refine ⟨⟨rfl, rfl, rfl, h.clusters, h.cores, h.leads, h.bytes⟩, rfl⟩

theorem trapAt_taken {i : Instr} {s : State} {cause : Nat} {info : Word} (h : exec i s = trapAt cause info s) :
    ∃ t, exec i s = .next t ∧ TrapTaken (BitVec.ofNat 8 cause) info s t := ⟨_, h, takeTrap_taken cause info s⟩

/-- The same once the operands are read: their flags are raised first. -/
theorem trapRead_taken {i : Instr} {s : State} {fl : FFlags} {cause : Nat} {info : Word} (h : exec i s = trapRead fl cause info s) :
    ∃ t, exec i s = .next t ∧ TrapRead fl (BitVec.ofNat 8 cause) info s t :=
  ⟨_, h, _, raised_of_raise _ _ _ rfl rfl, rfl, takeTrap_taken cause info _⟩

/-! ## Transfers -/

/-- Everything that a taken transfer can do. -/
theorem jumpTo_jumps {i : Instr} {s : State} {f : Team → Team} {target : Word} (h : exec i s = jumpTo f target s)
    {E : Team → Team → Prop} (hE : E s.cur (f s.cur)) (hpc : E s.cur { f s.cur with pc := s.cur.pc })
    (hid : (f s.cur).tid = s.cur.tid ∧ (f s.cur).cluster = s.cur.cluster ∧ (f s.cur).core = s.cur.core) :
    Jumps i s target E := by
  refine ⟨fun hm => trapAt_taken (h.trans (if_pos hm)), fun hm hq => ?_, fun hm hb hq => ?_⟩
  · refine ⟨_, h.trans (if_neg (not_not.2 hm)), ?_⟩
    rw [if_neg hq]
    exact ⟨⟨rfl, fun _ => rfl, fun _ _ => rfl⟩, rfl, hpc⟩
  · refine ⟨_, f s.cur, h.trans (if_neg (not_not.2 hm)), ?_, hE, ?_⟩
    · rw [if_pos ⟨hb, hq⟩]
      set s1 := s.onCur fun t => { f t with pc := target } with hs1
      obtain ⟨o, -⟩ := endTenure_over s1
      have l := o.leads
      have e : s1.cur.tid = s.cur.tid ∧ s1.cur.cluster = s.cur.cluster ∧ s1.cur.core = s.cur.core := hid
      rw [e.1, e.2.1, e.2.2] at l
      exact ⟨rfl, rfl, rfl, o.clusters, o.cores, l, fun _ => rfl, fun _ _ => rfl⟩
    · rw [if_pos ⟨hb, hq⟩]; rfl

/-- A branch is a transfer where its condition holds and passes where it does not. -/
theorem branchIf_passes {i : Instr} {s : State} {c : Bool} {fl : FFlags} {target : Word}
    (h : exec i s = branchIf c (Team.raise · fl) target s) (hc : c = false) : Runs i s (Passes 4 fl) := by
  subst hc
  exact runs_teamStep h ⟨raised_of_raise _ _ _ rfl rfl, rfl⟩

theorem branchIf_jumps {i : Instr} {s : State} {c : Bool} {f : Team → Team} {target : Word}
    (h : exec i s = branchIf c f target s) (hc : c = true) : exec i s = jumpTo f target s := by
  subst hc; exact h

/-! ## Memory instructions -/

/-- The scope with which an instruction acts is all that scratchpad narrows (R146). -/
theorem narrowed_eq (q : Ask) : q.narrowed = { q with scope := q.narrowed.scope } := by
  unfold Ask.narrowed
  split <;> rfl

@[simp] theorem narrowed_raws (q : Ask) : q.narrowed.raws = q.raws := by rw [narrowed_eq]
@[simp] theorem narrowed_flags (q : Ask) : q.narrowed.flags = q.flags := by rw [narrowed_eq]
@[simp] theorem narrowed_kind (q : Ask) : q.narrowed.kind = q.kind := by rw [narrowed_eq]
@[simp] theorem narrowed_op (q : Ask) : q.narrowed.op = q.op := by rw [narrowed_eq]
@[simp] theorem narrowed_ord (q : Ask) : q.narrowed.ord = q.ord := by rw [narrowed_eq]

/-- An element at an address that is no multiple of its size traps with the lowest such address, and nothing is performed. -/
theorem memIssue_misaligned {q : Ask} {s : State} (h : ∃ r ∈ q.raws, r.va % r.size ≠ 0) :
    memIssue q s = trapRead q.flags 5 (lowest ((q.raws.filter fun r => r.va % r.size != 0).map Raw.va)) s := by
  obtain ⟨r, hr, hm⟩ := h
  unfold memIssue
  dsimp only
  rw [narrowed_raws, narrowed_flags]
  refine if_pos ?_
  simp only [Bool.not_eq_true', List.isEmpty_eq_false_iff, ne_eq, List.map_eq_nil_iff, List.filter_eq_nil_iff]
  exact fun hn => hn r hr (by simpa using hm)

theorem aligned_none {q : Ask} (h : ∀ r ∈ q.raws, r.va % r.size = 0) :
    (q.raws.filter fun r => r.va % r.size != 0).map Raw.va = [] := by
  simp only [List.map_eq_nil_iff, List.filter_eq_nil_iff]
  intro r hr
  simp [h r hr]

theorem unmixed_none {k : AddrKind} {raws : List Raw}
    (h : k = .either → (∀ r ∈ raws, r.va < 0x400000) ∨ ∀ r ∈ raws, 0x400000 ≤ r.va) : mixedAddrs k raws = [] := by
  unfold mixedAddrs
  refine if_neg ?_
  rintro ⟨hk, h1, h2⟩
  simp only [List.any_eq_true, decide_eq_true_eq] at h1 h2
  obtain ⟨a, ha, hla⟩ := h1
  obtain ⟨b, hb, hlb⟩ := h2
  rcases h hk with h | h
  · have := h b hb; omega
  · have := h a ha; omega

theorem waits_none {s : State} {k : AddrKind} {raws : List Raw}
    (h : ∀ r ∈ raws, s.wayOpen s.cur.cluster s.curGroup.ctx k r.va = true) :
    (raws.any fun r => !s.wayOpen s.cur.cluster s.curGroup.ctx k r.va) = false := by
  simp only [List.any_eq_false, Bool.not_eq_true', Bool.not_eq_false]
  exact h

/-- With every element aligned, unmixed and placed or held, and no walk that waits for a link, the instruction issues at the
scope it acts with; one without an element and with an order acts as a fence first. -/
theorem memIssue_admitted {q : Ask} {s s' : State} {es : List Elem} (h : Admitted s q.kind q.op q.raws s' es) :
    memIssue q s =
      if q.raws = [] then
        (if (s'.emptyFence q.ord q.narrowed.scope).2 then placedIssue q.narrowed es s (s'.emptyFence q.ord q.narrowed.scope).1
          else stallDrain s)
      else placedIssue q.narrowed es s s' := by
  unfold memIssue
  simp only [narrowed_raws, narrowed_flags, narrowed_kind, narrowed_op, narrowed_ord, aligned_none h.aligned,
    unmixed_none h.unmixed, waits_none h.ways, h.placed, h.flags]
  simp

/-- A placed instruction issues in place, or abroad where it is escorted and its frame fits; a full class counter keeps it
back. -/
theorem placedIssue_eq (q : Ask) (es : List Elem) (b s : State) :
    placedIssue q es b s =
      if q.esc = false then (if 255 ≤ b.cur.classCount q.cls then stallDrain b else issueInPlace q false es s)
      else
        let charge := b.cur.frameBytes + (if q.reply then 8 * (b.cur.lanesIn q.acting).length else 0)
        match b.escortFit b.cur charge with
        | .unescorted => issueInPlace q true es s
        | .short => .next (b.waitBytes charge)
        | .fits => if s.readyToLeave.2 = false then stallDrain b else issueAbroad q charge es s.readyToLeave.1 := by
  unfold placedIssue
  cases q.esc
  · simp
  · simp only [Bool.not_true, reduceCtorEq, if_false, Bool.false_eq_true]
    cases b.escortFit b.cur _ <;> cases s.readyToLeave.2 <;> simp

/-- With no update of a replicated page on its way, none is brought up. -/
theorem applyAllMulti_calm {s : State} (h : ∀ d, (s.die d).series = []) : s.applyAllMulti = s := by
  refine if_pos ?_
  simp only [List.all_eq_true, List.isEmpty_iff]
  intro d hd
  obtain ⟨i, hi, rfl⟩ := List.mem_iff_getElem.1 hd
  rw [← h i, State.die, nth_getElem _ _ _ hi]

/-- A fence with no access outstanding, no entry of the combining buffer and no update on its way has nothing to wait for. -/
theorem fenceTry_calm {s : State} (ha : s.cur.accs = []) (hc : s.combOf s.cur = []) (hs : ∀ d, (s.die d).series = [])
    (rel : Bool) (sc : Scope) :
    s.fenceTry rel sc = ({ s with cur := { s.cur with accs := [], relFence := s.cur.relFence || rel } }, true) := by
  have ht : s.team s.cur.tid = s.cur := if_pos rfl
  unfold State.fenceTry
  cases rel <;> simp [State.forceAll, applyAllMulti_calm hs, ht, ha, hc, Team.fenced, Team.retire, State.onCur]

/-- An element with no place, or a flag on another device than its data, traps with the lowest such address. -/
theorem memIssue_access {q : Ask} {s : State} (ha : ∀ r ∈ q.raws, r.va % r.size = 0)
    (hu : q.kind = .either → (∀ r ∈ q.raws, r.va < 0x400000) ∨ ∀ r ∈ q.raws, 0x400000 ≤ r.va)
    {s' : State} {es : List Elem} {bad : List Nat} (hp : placeRaws s.cur.cluster s.curGroup q.kind q.op s q.raws = (s', es, bad))
    (hw : ∀ r ∈ q.raws, s.wayOpen s.cur.cluster s.curGroup.ctx q.kind r.va = true) (hb : bad ++ flagsAstray es ≠ []) : memIssue q s = trapRead q.flags 6 (lowest (bad ++ flagsAstray es)) s := by
  unfold memIssue
  simp only [narrowed_raws, narrowed_flags, narrowed_kind, narrowed_op, aligned_none ha, unmixed_none hu, waits_none hw, hp]
  simp [hb]

/-- An instruction on a word at an address that is no multiple of its alignment traps with it. -/
theorem wordIssue_misaligned {k : AddrKind} {n len : Nat} {addr : Word} {o : Ord} {sc : Scope} {dst : SDst} {fl : FFlags}
    {prep : State → Option (State × WordOp)} {s : State} (h : addr.toNat % n ≠ 0) :
    wordIssue k n len addr o sc dst fl prep s = trapRead fl 5 addr s := if_pos h

/-! ## Parking -/

/-- A frame that fits leaves once its team's results are home and its stores have drained. -/
theorem parkTeam_fits {before after : State} {what : EscWhat} {len : Nat} {p : ParkAt}
    (hf : before.escortFit before.cur before.cur.frameBytes = .fits) (hr : after.readyToLeave.2 = true) :
    parkTeam before after what len p = .next (match p with
      | .unit => after.readyToLeave.1.sendAbroad what len before.cur.frameBytes 0 .unit
      | .slice n => after.readyToLeave.1.sendAbroad what len before.cur.frameBytes n .request
      | .lodge => after.readyToLeave.1.sendAbroad what len before.cur.frameBytes 0 .faultHold) := by
  unfold parkTeam
  simp only [hf, hr]
  cases p <;> rfl

/-! ## Fetch -/

theorem fetchWord_of_wordAt {t : Team} {u v : State} {va w : Nat} (h : WordAt t u v va w) :
    u.fetchWord t va = (v, .ok (some w)) := by
  obtain ⟨-, pl, pa, h1, h2, h3, h4, h5, h6⟩ := h
  unfold State.fetchWord
  have hf : t.patches.find? (fun p => p.addr == va) = none := by
    rw [List.find?_eq_none]; intro p hp; simpa using h5 p hp
  simp only [h1, h2]
  have hb : v.badCode pl pa = false := by
    unfold State.badCode
    cases hk : pl.kind with
    | replicated home => exact absurd hk (h3 home)
    | _ => simp [State.poisonedAt, h4]
  simp [hb, overlayWord, hf, h6]

/-- The fetch reads the head and its tail and gives what they decode to. -/
theorem fetch_of_headAt {u v : State} {h : Nat} {tail : Option Nat} (H : HeadAt u v h tail) :
    u.fetch = (v, decodeFor u.part.full u.cur.nregs h tail) := by
  unfold State.fetch
  rcases H with ⟨hw, rfl, H⟩ | ⟨hw, m, w, rfl, H1, H2⟩
  · simp [fetchWord_of_wordAt H, hw, H.1]
  · simp [fetchWord_of_wordAt H1, hw, fetchWord_of_wordAt H2, H1.1, H2.1]

/-! ## The step -/

/-- Everything that a step which answers a next state has done: the head of the agenda, or, with nothing arranged on a device that
runs, the default turn. -/
theorem step_next {s t : State} (h : step s = .next t) :
    (∃ x rest, s.agenda = x :: rest ∧ runTurn x { s with agenda := rest } = .next t) ∨
    (s.agenda = [] ∧ s.mcStop = false ∧ s.boot ≠ .stopped ∧ autoTurn s = .next t) := by
  unfold step stepTurn at h
  split at h
  · rename_i x rest ha
    exact .inl ⟨x, rest, ha, h⟩
  · rename_i ha
    split at h
    · cases h
    · split at h
      · cases h
      · exact .inr ⟨ha, by simp_all, ‹_›, h⟩

/-- Everything that a default turn can be. -/
theorem autoTurn_cases (s : State) :
    (s.live = false ∧ autoTurn s = execWipeComplete s) ∨
    (∃ x, (x ∈ s.issueTurn ∨ x ∈ s.progressTurn) ∧ autoTurn s = x) ∨ autoTurn s = runTurn (.elapse 1) s := by
  unfold autoTurn
  split
  · exact .inl ⟨by simp_all, rfl⟩
  · right
    cases hp : s.progressTurn <;> cases hi : s.issueTurn <;> by_cases h15 : s.ck % 16 = 15 <;> simp [h15]

end Sys2Proof.Machine
end

