-- ==== Sys2Proof/Tests/Slice0.lean ====
section
/-! SUPPORT. Tests: words of the spec's own examples, ill-formed instructions, single steps whose result the spec gives, and for each
obligation with hypotheses a state and operands that meet them, clause by clause. -/
namespace Sys2Proof.Tests
set_option Elab.async false
open Sys2Proof Sys2Proof.Machine

/-! Which theorems meet the hypotheses of which obligation: after `test_meets_` their names begin with the words that stand beside it.
* `StepKeepsMemOk`: stepKeepsMemOk.
* `StepKeepsMasks`: stepKeepsMasks.
* `StepRunsDecoded`: stepRunsDecoded.
* `DecodeEncode`: decodeEncode.
* `EncodeDecode`: encodeDecode.
* `ControlSpaceOutOfReach`: controlSpaceOutOfReach.
* `FormatsDecode`: tapered.
* `EncodingRounds`: encoding_tapered.
* `LaneArithmeticLogicCompares`: laneCompares.
* `FloatMinRoundClassCompare`: fmin_class_nan.
* `Conversions`: conversions.
* `SpecialFunctions`: specialFunctions.
* `ModularArithmetic`: modularArithmetic, butterfly.
* `ScalarInstructions`: scalar_conditions.
* `ControlTransfersAndTraps`: scalar_conditions, jumps.
* `DivergenceAndMaskLogic`, `MaskBranchesAndReaders`: divergence, maskReaders, and `stepKeepsMasks` for `MasksOk`.
* `SpecialRegisters`: specialRegisters.
* `MemoryInstructionsIssue`, `MemoryInstructionsTrap`: memory.
* `EscortedInstructions`: escorted.
* `FencesAndWaits`: waits.
* `BarriersMonitorsAndParking`: arrive, await, arwait, prwait, lkacq.
* `LocksPromisesAndHoldings`: locks, prful, holdings.
* `TagTable`: tags.
* `TaskIssueAndRecords`: tasks.
* `CopiesAndKicks`: copies, kicks.
* `EmitsLaunchesAndExit`: emits, launch.
* `SettInstructions`: sett.
* `FetchAndBoundaryTraps`: fetch, boundary.
* `TenuresAndCongestion`: grants, suspend, windows.
* `FrameMoves`: budget, admit, merge, unit, land, lodged, woken.
* `RecallEvictRestore`: recall, evict, restore.
* `ElementsBuffersReplicas`: elements, buffers, replicas.
* `ParkedWaits`: parked.
* `Tasks`: task.
* `PlantingsAndMultiplies`: plantings, multiplies.
* `Drains`: drains.
* `CopiesAndClearing`: copy, clear.
* `StageScheduling`: evaluate, timeout.
* `ConveyanceAndRecords`: convey, record.
* `StopsSavesKills`: saves, preempt, death.
* `SupervisorCommands`: commands.
* `Launches`: launch_accept, launch_device, chain, launch_end.
* `ControlRegistersAndTables`: invalidate, sett_table, faults, registers, key_use.
* `QuotaRowsAndPartitions`: quota, partition, engine.
* `FrameOwnership`: frames, change, destroy.
* `SealedLinks`: seals, sends, turns, flits, mail_flit, links, outstanding, asked, stalls, stall_sett.
* `PeersAndMail`: peers, remotes.
* `CollectiveSteps`: collectives, chunks, parameters, failure, stops, window.
* `ErrorsAndRecords`: errors, scrub, merge, placement.
* `Audits`: audits, targets, probe.
* `BootChain`: boot.
* `RootCoreService`: sessions, queue, serves, link, firmware, host.

`ResetRegisters` and `SpecWordsDecode` have no hypotheses, and the remaining obligations hold of every state. -/

/-! ## Decoding: words that the spec writes out -/

theorem test_word_add_sat : decodeTableWord 32 0b00000011_0_0000101_0000110_0000111_01 =
    some (.addSat .w16 (some 5) (.v 6) (.v 7)) := by decide
theorem test_word_compare_immediate : decodeTableWord 32 0x2E0309FE = some (.cmpEqImm .w32 3 (.v 4) 0x7F) := by decide
theorem test_word_fadd : decodeTableWord 32 0x300303B1 = some (.fadd .f32 (some 3) (.v 1) (.s 4)) := by decide
theorem test_word_fma3 : decodeTableWord 64 (0x34040209 + 0x7E0C0002 * 2 ^ 32) =
    some (.fma3 .f32 (some 4) (.v 1) (.v 2) (.v 3) false true false) := by decide
theorem test_word_convert : decodeTableWord 32 0x500911B8 = some (.fcvt (some 9) (.v 8) 6) := by decide
theorem test_word_shuffle : decodeTableWord 32 0x61020207 = some (.shfli (some 2) (.v 1) .xor 1) := by decide
theorem test_word_reduce : decodeTableWord 32 0x65060A25 = some (.red (.float .fadd .f32) (some 6) (.v 5)) := by decide
theorem test_word_butterfly : decodeTableWord 32 0x6B040A18 = some (.bfly 0 (some 4) 5 (.v 6)) := by decide
theorem test_word_cas : decodeTableWord 64 (0x798907BC + 0x7E102800 * 2 ^ 32) =
    some (.cas true .ar .dev .w64 9 (.v 3) (.v 4) (.v 5)) := by decide
theorem test_word_sadd : decodeTableWord 32 0b1_0000000_0_000101_000110_000111_00000 =
    some (.sadd (some 5) (.s 6) (.s 7)) := by decide
theorem test_word_branch : decodeTableWord 32 0b1_0100001_010_000100_000101_111111101 =
    some (.bc .lt (.s 4) (.s 5) 0x1FD) := by decide
theorem test_word_call : decodeTableWord 32 0xA37C0014 = some (.call 31 0x14) := by decide
theorem test_word_diverge : decodeTableWord 32 0xB0008002 = some (.dvg 1 2) := by decide
theorem test_word_mask : decodeTableWord 32 0xB5000020 = some (.mand 0 0 1) := by decide
theorem test_word_atomu : decodeTableWord 32 0xC8082CE0 = some (.atomu .rel .dev (.int .add .w64) (some 4) (.s 5)) := by decide
theorem test_word_fence : decodeTableWord 32 0xCD00001B = some (.fence .ar .dev) := by decide
theorem test_word_lock : decodeTableWord 64 (0xD30A30EB + 0xFE900000 * 2 ^ 32) =
    some (.lkacq .acq .dev (some 5) (.s 6) (some (.s 7)) .zero false false) := by decide
theorem test_word_copy : decodeTableWord 32 0xE1145982 = some (.cpy 2 (.s 10) (.s 11) (.s 12)) := by decide
theorem test_word_sett : decodeTableWord 32 0xE60028C2 = some (.sar .max (.s 5) (.s 6)) := by decide
theorem test_word_special : decodeTableWord 32 0xF4002809 = some (.swr .frm (.s 5)) := by decide
theorem test_word_trap : decodeTableWord 32 0xF5000123 = some (.trap 0x123) := by decide
theorem test_word_blank : decodeTableWord 32 0 = none ∧ decodeTableWord 32 0xFFFFFFFF = none := by decide
theorem test_word_tail_alone : decodeTableWord 32 0x7E0C0002 = none := by decide
theorem test_word_reserved_field : decodeTableWord 32 0xA7000001 = none := by decide
theorem test_word_absent_unit : decodeWords false 0xE60028C2 none = .error .absentUnit := by decide

/-! ## Ill-formed instructions, one for each check -/

theorem test_ill_butterfly : (Instr.bfly 0 (some 4) 4 (.v 6)).wellFormed = false ∧
    decodeTableWord 32 0x6B040818 = none := by decide
theorem test_ill_inverse_butterfly : (Instr.ibfly 0 (some 4) 4 (.v 6)).wellFormed = false ∧
    decodeTableWord 32 0x6C040818 = none := by decide
theorem test_ill_store_flag : (Instr.stf false .plain .team .w32 (.v 1) (.v 2) (.v 3) 0).wellFormed = false ∧
    decodeTableWord 64 (0x74010408 + 0x7E0C0000 * 2 ^ 32) = none := by decide
theorem test_ill_read_special : (Instr.srd (some 1) .lane).wellFormed = false ∧ (Instr.srd (some 1) .wid).wellFormed = false ∧
    decodeTableWord 32 0xF2020000 = none ∧ decodeTableWord 32 0xF2020003 = none := by decide
theorem test_ill_register_count : (Instr.add .w32 (some 8) (.v 1) (.v 2)).fits 8 = false ∧
    (Instr.add .w32 (some 7) (.v 1) (.v 2)).fits 8 = true ∧ (Instr.add .w32 (some 7) (.v 1) (.v 2)).legalFor 8 = true := by decide

/-! ## Devices for the tests -/

/-- A device that runs one team, with 4 KiB of scratchpad and a writable page at 0x41_0000 in frame 4 of HBM; its next turn is the
team's issue, at `code`. -/
def devAt (nbits code : Nat) : State :=
  let s := State.reset.withFetchWord nbits code
  let s := (s.hbmWrite 16 (leBytes 4 0x4000)).hbmWrite 0x13008 (leBytes 8 0x4000000000040003)
  s.modGroup 1 fun g => { g with spadBytes := 4096 }
def dev : State := devAt 32 0xA8000000

/-- Scalar registers of the team in focus set. -/
def put (l : List (SReg × Word)) (s : State) : State := l.foldl (fun s p => s.onCur fun t => t.setS p.1 p.2) s
/-- A lane register of the team in focus set, by lane. -/
def putV (r : VReg) (f : Nat → Word) (s : State) : State := s.onCur fun t => t.setV r (tabulate t.lanes f)
/-- Bytes of the page at 0x41_0000 and of the scratchpad. -/
def page (off v : Nat) (s : State) : State := s.hbmWrite (0x40000 + off) (leBytes 8 v)
def spad (off v : Nat) (s : State) : State := s.spadWrite 0 off (leBytes 8 v)
/-- The same team, named twice more, ready and idle. -/
def withTeams (f g : Team → Team) (s : State) : State :=
  { s with others := [f { s.cur with tid := s.cur.tid + 1, index := 1 }, g { s.cur with tid := s.cur.tid + 2, index := 2 }] }

def answers (o : Out) : Bool := match o with | .next _ => true | _ => false
theorem answers_next {o : Out} (h : answers o = true) : ∃ t, o = .next t := by
  cases o with
  | next t => exact ⟨t, rfl⟩
  | fault r => exact Bool.noConfusion h
  | refused r => exact Bool.noConfusion h

/-- What the state after a step satisfies. -/
def after (o : Out) (p : State → Bool) : Bool := match o with | .next t => p t | _ => false

/-! ## The machine -/

theorem test_meets_stepKeepsMemOk : MemOk dev ∧ ∃ t, step dev = .next t := by
  have h : Memory.wf dev.hbm = true ∧ Memory.wf dev.spad = true ∧ answers (step dev) = true := by decide +kernel
  exact ⟨⟨h.1, h.2.1⟩, answers_next h.2.2⟩

/-- The state once the program counter of `devAt` has been translated. -/
def fetched (s : State) : State := (s.translate 0 0 0x400000 3).1

theorem wordAt_dev {s : State} {w : Nat} (hc : s.cur.cluster = 0) (hg : (s.group s.cur.group).ctx = 0) (hp : s.cur.patches = [])
    (ho : s.fetchOpen s.cur 0x400000 = true) (ht : (s.translate 0 0 0x400000 3).2 = .ok ⟨.hbm 0x20000, .relCons, 0⟩) (hpo : (fetched s).poison = [])
    (hw : (fetched s).hbmRead 0x20000 4 = w) : WordAt s.cur s (fetched s) 0x400000 w := by
  refine ⟨ho, ⟨.hbm 0x20000, .relCons, 0⟩, 0x20000, ?_, rfl, fun _ h => PageKind.noConfusion h, hpo, ?_, hw⟩
  · rw [hc, hg]
    exact Prod.ext rfl ht
  · rw [hp]
    intro p h
    cases h

/-- What a device at the issue of the word `w` has to show. -/
def atWord (s : State) (w : ℕ) : Prop :=
  let u : State := { s with agenda := [] }
  s.agenda = [.issue s.cur.tid] ∧ u.arbitrate s.cur.tid = (s.cur.tid, none) ∧ u.live = true ∧ s.cur.st = .ready ∧ s.cur.tenure = .held 0 ∧ s.cur.pending = [] ∧
  s.poison = [] ∧ s.cur.cluster = 0 ∧ (s.group s.cur.group).ctx = 0 ∧ s.cur.patches = [] ∧ u.fetchOpen s.cur 0x400000 = true ∧
  (u.translate 0 0 0x400000 3).2 = .ok ⟨.hbm 0x20000, .relCons, 0⟩ ∧ (fetched u).poison = [] ∧
  (fetched u).hbmRead 0x20000 4 = w ∧ isWide w = false ∧ s.cur.pc.toNat = 0x400000

theorem stepRunsDecoded_of {s : State} {h : ℕ} (hs : atWord s h) :
    ∃ (b u : State) (asked tid n : ℕ) (loser : Option ℕ) (rest : List Turn) (tail : Option ℕ),
    s.agenda = .issue asked :: rest ∧ b = { s with agenda := rest } ∧ b.arbitrate asked = (tid, loser) ∧
    u = (b.noteRefused tid loser).focus tid ∧ u.live = true ∧ u.cur.tid = tid ∧ u.cur.st = .ready ∧
    u.cur.tenure = .held n ∧ n < 512 ∧ u.cur.pending = [] ∧ u.poison = [] ∧ HeadAt u (fetched { s with agenda := [] }) h tail ∧
    tail = none ∧ u.part = s.part ∧ u.cur.nregs = s.cur.nregs := by
  obtain ⟨h1, ha, h2, h3, h4, h5, hp, h6, h7, h8, ho, h9, h10, h11, h12, h13⟩ := hs
  have hf : ({ s with agenda := [] } : State).focus s.cur.tid = { s with agenda := [] } := by simp [State.focus]
  refine ⟨{ s with agenda := [] }, { s with agenda := [] }, s.cur.tid, s.cur.tid, 0,
    none, [], none, h1, rfl, ha, hf.symm, h2, rfl, h3, h4, by decide, h5, hp, .inl ⟨h12, rfl, ?_⟩, rfl, rfl, rfl⟩
  rw [show ({ s with agenda := [] } : State).cur.pc.toNat = 0x400000 from h13]
  exact wordAt_dev (s := { s with agenda := [] }) h6 h7 h8 ho h9 h10 h11

/-- A `nop`; an addition whose registers a kernel of 8 has not; a word with a reserved bit set. -/
def smallDev : State := (devAt 32 0x0200C485).onCur fun t => { t with nregs := 8 }
theorem test_meets_stepRunsDecoded : atWord dev 0xA8000000 ∧ decodeWords dev.part.full 0xA8000000 none = .ok .nop ∧
    Instr.nop.fits dev.cur.nregs = true ∧ (fetched { dev with agenda := [] }).overAllowance .nop = false ∧
    (fetched { dev with agenda := [] }).cur.accs = [] := by unfold atWord; decide +kernel
theorem test_meets_stepRunsDecoded_unfit : atWord smallDev 0x0200C485 ∧
    (match decodeWords smallDev.part.full 0x0200C485 none with | .ok i => i.fits smallDev.cur.nregs == false | .error _ => false) = true := by
  unfold atWord; decide +kernel
theorem test_meets_stepRunsDecoded_illegal : atWord (devAt 32 0xA7000001) 0xA7000001 ∧ decodeWords dev.part.full 0xA7000001 none = .error .badField ∧
    decodeWords false 0xE60028C0 none = .error .absentUnit ∧ isWide 0xE60028C0 = false := by unfold atWord; decide +kernel

theorem test_meets_decodeEncode : (Instr.add .w32 (some 95) (.v 0) (.s 15)).encodable = true ∧
    (Instr.add .w32 (some 95) (.v 0) (.s 15)).wellFormed = true ∧
    (Instr.fma3 .f32 none (.v 0) (.v 95) .zero true true true).encodable = true ∧
    (Instr.fma3 .f32 none (.v 0) (.v 95) .zero true true true).wellFormed = true := by decide
theorem test_meets_encodeDecode : 0x300303B1 < 2 ^ 32 ∧ decodeWords true 0x300303B1 none = .ok (.fadd .f32 (some 3) (.v 1) (.s 4)) ∧
    0x7E0C0002 < 2 ^ 32 ∧ decodeWords true 0x34040209 (some 0x7E0C0002) =
      .ok (.fma3 .f32 (some 4) (.v 1) (.v 2) (.v 3) false true false) := by decide
theorem test_meets_controlSpaceOutOfReach : Instr.nop.encodable = true ∧ ∃ t, exec .nop dev = .next t := ⟨by decide, _, exec_nop dev⟩

/-! ## Lane and uniform instructions -/

theorem test_meets_laneCompares_nwb : ∀ h ∈ [0x1F800000, 0x24FFFFFF, 0x2E800000, 0x2FFFFFFF], h < 2 ^ 31 ∧ 0x1F ≤ h / 2 ^ 24 ∧
    h / 2 ^ 24 ≤ 0x2F ∧ (h / 2 ^ 24 ≤ 0x24 ∨ 0x2E ≤ h / 2 ^ 24) ∧ h.testBit 23 = true ∧ decodeWords true h none ≠ .ok .nop := by
  decide

theorem test_meets_fmin_class_nan : (decodeFmt .f32 0x7F800001).isNan = true ∧ (decodeFmt .f32 0x7F800000).isInf = true ∧
    (decodeFmt .f32 0x80000000).isZero = true ∧ decodeFmt .f32 1 = .fin false 1 (-149) := by decide +kernel

/-- Descriptors: none for a reserved format, FP32 to BF16, and E4M3 under the scales 0, 254 and 255. -/
theorem test_meets_conversions : cvtDesc 0x0A = none ∧ cvtDesc 0x31 = some (.f32, .bf16) ∧ cvtDesc 0x00000115 = some (.e4m3, .f32) ∧
    cvtDesc 0x00FE0115 = some (.e4m3, .f32) ∧ cvtDesc 0x00FF0115 = some (.e4m3, .f32) ∧
    cvtDesc 0xFF000251 = none ∧ cvtDesc 0xFE000251 = some (.f32, .e4m3) ∧
    (0x00FF0115 : Word).getLsbD 8 = true ∧ bits 0x00FF0115 16 8 = 255 ∧ isFin (flushIn .e4m3 false (decodeFmt .e4m3 0x08)) = true ∧
    isFin (flushIn .e4m3 false (decodeFmt .e4m3 0x7F)) = false := by
  refine ⟨by decide +kernel, by decide +kernel, by decide +kernel, by decide +kernel, by decide +kernel, by decide +kernel,
    by decide +kernel, by decide +kernel, by decide +kernel, rfl, rfl⟩

theorem test_meets_specialFunctions : (decodeFmt .f32 0x7FC00000).isNan = true ∧ (decodeFmt .f32 0x80000000).isZero = true ∧
    decodeFmt .f32 0x7F800000 = .inf false ∧ decodeFmt .f32 0xFF800000 = .inf true ∧
    decodeFmt .f32 0x80000001 = .fin true 1 (-149) := by decide +kernel
theorem test_meets_specialFunctions_negative : isFin (decodeFmt .f32 0x80000001) = true ∧ rat (decodeFmt .f32 0x80000001) < 0 := by
  have h : decodeFmt .f32 0x80000001 = .fin true 1 (-149) := by decide +kernel
  rw [h]
  refine ⟨rfl, ?_⟩
  simp [rat]

/-- A modulus at each end of its range and one past each, and a butterfly whose two registers differ. -/
theorem test_meets_modularArithmetic :
    (∀ m : ℕ, m = 3 ∨ m = 2 ^ 63 - 1 → m % 2 = 1 ∧ 3 ≤ m ∧ m < 2 ^ 63) ∧
    (∀ m : ℕ, m = 1 ∨ m = 4 ∨ m = 2 ^ 63 + 1 → ¬ (m % 2 = 1 ∧ 3 ≤ m ∧ m < 2 ^ 63)) ∧
    (some (0 : VReg) : VDst) ≠ some 1 ∧ (none : VDst) ≠ some 0 := by
  refine ⟨?_, ?_, by decide, by decide⟩
  · rintro m (rfl | rfl) <;> omega
  · rintro m (rfl | rfl | rfl) <;> omega

/-- Conditions of `scmp` and `bc` on 5 and -1, which compare one way signed and the other unsigned; the two ends of `loop`. -/
def pair : State := put [(4, 5), (5, BitVec.allOnes 64), (6, 1), (7, 2)] dev
theorem test_meets_scalar_conditions : pair.cur.uniSrc (.s 4) = 5 ∧ pair.cur.uniSrc (.s 5) = BitVec.allOnes 64 ∧
    ¬ (pair.cur.uniSrc (.s 4)).toInt < (pair.cur.uniSrc (.s 5)).toInt ∧
    (pair.cur.uniSrc (.s 4)).toNat < (pair.cur.uniSrc (.s 5)).toNat ∧
    pair.cur.uniSrc (.s 6) - 1 = 0 ∧ pair.cur.uniSrc (.s 7) - 1 ≠ 0 := by decide +kernel
/-- A target that is no multiple of 4, and backward ones in a tenure at the quantum and past it. -/
theorem test_meets_jumps : (pair.cur.pc + 4 * (0x1FF : BitVec 9).signExtend 64).toNat = 0x3FFFFC ∧ (5 : Word).toNat % 4 ≠ 0 ∧
    (pair.onCur fun t => { t with tenure := .held 257 }).cur.quantumSpent = true ∧
    (pair.onCur fun t => { t with tenure := .held 256 }).cur.quantumSpent = false := by decide +kernel

/-- Stacks of 0, 1, 15 and 16 masks, a lane that stays and none that does. -/
def stacked (n : Nat) : State := dev.onCur fun t => { t with stack := List.replicate n 1, m := t.m.set 1 0x2 }
theorem test_meets_divergence : 16 ≤ (stacked 16).cur.stack.length ∧ (stacked 15).cur.stack.length < 16 ∧ (stacked 0).cur.stack = [] ∧
    (stacked 1).cur.stack ≠ [] ∧ (stacked 1).cur.lanes = 32 ∧ (stacked 1).cur.dead.getLsbD 1 = false ∧
    (stacked 1).cur.active 1 = true ∧ ((stacked 1).cur.mask 1).getLsbD 1 = true ∧ (stacked 1).cur.mask 2 = 0 ∧
    (stacked 1).cur.stack.headD 0 = 1 := by decide +kernel
theorem test_meets_divergence_none : ¬ ∃ x, x < 1024 ∧ ((stacked 1).cur.mask 2).getLsbD x = true := by
  rw [show (stacked 1).cur.mask 2 = 0 from test_meets_divergence.2.2.2.2.2.2.2.2.1]
  simp

/-- A cluster whose quota row locks `%frm` and `%ftrap` for the context, and a register no row locks. -/
def locks : State := put [(4, 1)] (dev.modCluster 0 fun c => { c with quota := c.quota.set 0 (0x00008C0000000000, 0, 0) })
theorem test_meets_specialRegisters : (locks.ctxQuota locks.cur.cluster locks.curCtx 0).getLsbD 43 = true ∧
    (locks.ctxQuota locks.cur.cluster locks.curCtx 0).getLsbD 42 = true ∧
    (if bits (locks.cur.uniSrc (.s 4)) 0 3 ≤ 4 then (locks.cur.uniSrc (.s 4)).setWidth 3 else locks.cur.frm) ≠ locks.cur.frm ∧
    (locks.cur.uniSrc (.s 4)).setWidth 5 ≠ locks.cur.ftrap ∧ (dev.ctxQuota 0 0 0).getLsbD 43 = false := by decide +kernel

/-! ## Memory, synchronisation and the estate -/

/-- A device with an abroad quota of 64 KiB for its context, one with none, and one whose budget another team has used up; lane
register 1 holds addresses of the writable page, 2 of the scratchpad, 3 the address of a flag, 4 misaligned ones, 5 one of each
kind, 6 ones that no table maps. -/
def lanes (s : State) : State :=
  putV 6 (fun x => word (0x800000000000 + 8 * x)) (putV 5 (fun x => if x = 0 then 8 else 0x410000) (putV 4 (fun x => word (0x410001 + 8 * x))
    (putV 3 (fun _ => 0x410800) (putV 2 (fun x => word (8 * x)) (putV 1 (fun x => word (0x410000 + 8 * x)) s)))))
def quota (s : State) : State := s.modCluster 0 fun c => { c with quota := c.quota.set 0 (0x0000800000000000, 64, 64) }
def uses : State := put [(4, 0x410000), (5, 0), (6, 8), (7, 0x410008)] (lanes dev)
def roomy : State := quota uses
def tight : State := withTeams (fun t => { t with granted := 65536 }) id roomy

def admits (s : State) (i : Instr) : Bool :=
  match memShape i s.cur with
  | none => false
  | some m =>
    let p := placeRaws s.cur.cluster s.curGroup m.kind m.op s m.raws
    (m.raws.all fun r => r.va % r.size == 0) && (m.kind != .either || (m.raws.all fun r => decide (r.va < 0x400000)) ||
      m.raws.all fun r => decide (0x400000 ≤ r.va)) && p.2.2.isEmpty && (flagsAstray p.2.1).isEmpty && m.raws.all fun r => s.wayOpen s.cur.cluster s.curGroup.ctx m.kind r.va

theorem admitted_of {s : State} {i : Instr} (h : admits s i = true) :
    ∃ m s' es, memShape i s.cur = some m ∧ Admitted s m.kind m.op m.raws s' es := by
  unfold admits at h
  split at h
  · exact Bool.noConfusion h
  · rename_i m hm
    simp only [Bool.and_eq_true, Bool.or_eq_true, List.all_eq_true, beq_iff_eq, bne_iff_ne, ne_eq, List.isEmpty_iff,
      decide_eq_true_eq] at h
    obtain ⟨⟨⟨⟨h1, h2⟩, h3⟩, h4⟩, h5⟩ := h
    refine ⟨m, _, _, hm, h1, ?_, Prod.ext rfl (Prod.ext rfl h3), h4, h5⟩
    intro hk
    rcases h2 with (h2 | h2) | h2
    · exact absurd hk h2
    · exact .inl h2
    · exact .inr h2

def unescorted : List Instr := [
  .ld false .plain .dev .w64 .zx 8 (.v 1), .st false .plain .dev .w64 .whole (.v 2) (.v 1), .ldx false .acq .pod .w64 0 8 (.v 2) (.s 0) 0x3FFF8,
  .stx false .rel .dev .w64 0 (.v 2) (.v 2) (.v 3) 0, .stf false .plain .dev .w64 (.v 2) (.v 1) (.v 3) 1, .lds .plain .team .w8 .sx 8 (.v 2),
  .sts .plain .group .w64 .lo (.v 2) (.v 2), .atom false .plain .dev .w64 .add 8 (.v 1), .atom false .plain .dev .w32 .max 8 (.v 2),
  .atomOffset false .ar .dev (.fadd .f32) 8 (.v 1) (.v 2) 4, .cas false .plain .dev .w64 8 (.v 2) (.v 1) (.v 3),
  .redm .plain .dev (.fadd .bf16) (.v 2) (.v 1), .ldu .plain .dev .w64 (some 8) (.s 4) (.s 5), .stu .rel .dev .w32 (.s 6) (.s 4) (.s 5),
  .atomu .plain .dev (.int .add .w64) (some 8) (.s 4), .casu .ar .pod .w64 none (.s 4) (.s 5) (.s 6)]
def escorted : List Instr := [
  .ld true .plain .dev .w64 .zx 8 (.v 1), .st true .plain .dev .w64 .lo (.v 2) (.v 1), .ldx true .plain .dev .w64 0 8 (.v 2) (.s 0) 0,
  .stx true .plain .dev .w64 0 (.v 2) (.v 2) (.v 3) 0, .stf true .plain .dev .w64 (.v 2) (.v 1) (.v 3) 1,
  .atom true .plain .dev .w64 .add 8 (.v 1), .atomOffset true .plain .dev (.int .xor .w64) 8 (.v 1) (.v 2) 0, .cas true .plain .dev .w64 8 (.v 2) (.v 1) (.v 3)]

/-- `ldx` and `stx` that add a base of zero to scratchpad offsets have no global place; theirs is the page. -/
def based (s : State) : State := put [(0, 0x410008)] s
/-- Lanes 0 and 1 alone active. -/
def few (s : State) : State := (based s).onCur fun t => { t with m := t.m.set 0 3 }

theorem test_meets_memory_calm : calm uses = true ∧ uses.cur.escort = none := by decide +kernel
theorem test_meets_memory : (unescorted.filter fun i => !admits (few uses) i) = [] := by decide +kernel
theorem test_meets_memory_own : (unescorted.filter fun i => ((memShape i uses.cur).map MemShape.esc) != some false) = [] := by decide +kernel
theorem test_meets_memory_shape : (unescorted.map fun i => (encode i).length) = [1, 1, 2, 2, 2, 1, 1, 1, 1, 2, 2, 1, 1, 1, 1, 2] := by decide
theorem test_meets_memory_trap : (Instr.ld false .plain .dev .w64 .zx 8 (.v 4) |> fun i => ((memShape i uses.cur).map fun m =>
      (m.raws.filter fun r => r.va % r.size != 0).length)) = some 32 ∧
    ((memShape (.atom false .plain .dev .w64 .add 8 (.v 5)) uses.cur).map fun m => (m.kind, m.raws.any fun r => decide (r.va < 0x400000),
      m.raws.any fun r => decide (0x400000 ≤ r.va))) = some (.either, true, true) ∧
    ((memShape (.ld false .plain .dev .w64 .zx 8 (.v 2)) uses.cur).map fun m =>
      (placeRaws uses.cur.cluster uses.curGroup m.kind m.op uses m.raws).2.2.length) = some 32 := by decide +kernel
theorem test_meets_escorted_calm : calm roomy = true ∧ calm tight = true ∧ roomy.cur.escort = none ∧ tight.cur.escort = none := by
  decide +kernel
theorem test_meets_escorted : (escorted.filter fun i => !admits (few uses) i) = [] := by decide +kernel
theorem test_meets_escorted_abroad : (escorted.filter fun i => ((memShape i uses.cur).map MemShape.esc) != some true) = [] := by
  decide +kernel
theorem test_meets_escorted_roomy : roomy.escortFit roomy.cur (roomy.cur.frameBytes + 256) = .fits ∧
    admits (few roomy) (.ld true .plain .dev .w64 .zx 8 (.v 1)) = true := by decide +kernel
theorem test_meets_escorted_none : uses.escortFit uses.cur uses.cur.frameBytes = .unescorted := by decide +kernel
theorem test_meets_escorted_short : tight.escortFit tight.cur tight.cur.frameBytes = .short ∧
    admits (few tight) (.ld true .plain .dev .w64 .zx 8 (.v 1)) = true := by decide +kernel

/-- One load in flight beside which `wait` with 0 does not hold, and with 1 does; a queue at 3. -/
def waiting : State := put [(4, 3), (5, 4)] (dev.onCur fun t => { t with
  accs := [⟨0, .load (.zx .w64), .plain, .dev, some .ld, .lane 0, 1, false, [{ Elem.zero with st := .todo }]⟩], qseq := t.qseq.set 1 3 })
theorem test_meets_waits : waiting.outstanding waiting.cur .ld ≤ (1 : BitVec 8).toNat ∧
    (0 : BitVec 8).toNat < waiting.outstanding waiting.cur .ld ∧
    (waiting.cur.uniSrc (.s 4)).toNat ≤ waiting.cur.qseq[1].toNat ∧ waiting.cur.qseq[1].toNat < (waiting.cur.uniSrc (.s 5)).toNat := by
  decide +kernel

/-- Whether a page has one copy. -/
def plainKind : PageKind → Bool
  | .replicated _ => false
  | _ => true
theorem not_replicated {k : PageKind} (h : plainKind k = true) (home : Nat) : k ≠ .replicated home := by
  rintro rfl; exact Bool.noConfusion h

/-- Barrier, monitor and promise words: 0 at the first word of the page and of the scratchpad, a phase of 1 at the second, a
fulfilled promise at the third. -/
def words : State := page 16 (2 ^ 63) (page 8 (2 ^ 48) (spad 8 (2 ^ 48)
  (put [(4, 0x410000), (5, 0), (6, 0x410008), (7, 8), (8, 1), (9, 0x410010)] (quota dev))))
def pageAt (off : Nat) : Place := ⟨.hbm (0x40000 + off), .relCons, off / 256 % 8⟩
def spadAt (off : Nat) : Place := ⟨.spad 0 off, .spad, 0⟩

theorem reaches_words {s : State} {k : AddrKind} {addr acc : Nat} {pl : Place}
    (h : (s.cluster s.cur.cluster).tlb = [] ∧ s.walked = [] ∧ s.poison = [] ∧ s.memoryOpen = true ∧ (s.place s.cur.cluster s.curGroup k addr 8 acc).2 = .ok pl ∧ addr % 8 = 0 ∧
      pl.tgt.device = 16 ∧ plainKind pl.kind = true) : Reaches s k addr acc pl :=
  reaches_of h.1 h.2.1 h.2.2.1 h.2.2.2.1 h.2.2.2.2.1 h.2.2.2.2.2.1 h.2.2.2.2.2.2.1 (not_replicated h.2.2.2.2.2.2.2)

theorem test_words_calm : calm words = true ∧ words.cur.escort = none := by decide +kernel
theorem test_meets_arrive_page : Reaches words .either (words.cur.uniSrc (.s 4)).toNat 2 (pageAt 0) := reaches_words (by decide +kernel)
theorem test_meets_arrive_spad : Reaches words .either (words.cur.uniSrc (.s 7)).toNat 2 (spadAt 8) := reaches_words (by decide +kernel)
theorem test_meets_await : Reaches words .either (words.cur.uniSrc (.s 6)).toNat 0 (pageAt 8) := reaches_words (by decide +kernel)
theorem test_meets_prwait : Reaches words .global (words.cur.uniSrc (.s 9)).toNat 0 (pageAt 16) := reaches_words (by decide +kernel)
/-- The phase at 8 is not 0, so `await` of phase 0 and `mwait` of 0 complete there; those of phase 1 and of the word park. -/
theorem test_meets_await_values : bits (word (words.readAt (.hbm 0x40008) 8)) 48 8 ≠ bits (words.cur.uniSrc (.s 5)) 48 8 ∧
    word (words.readAt (.hbm 0x40008) 8) ≠ words.cur.uniSrc (.s 5) ∧ words.cur.uniFlags .zero = 0 ∧
    (word (words.readAt (.hbm 0x40010) 8)).getLsbD 63 = true ∧ (word (words.readAt (.hbm 0x40000) 8)).getLsbD 63 = false ∧
    bits (word (words.readAt (.hbm 0x40000) 8)) 48 8 = bits (words.cur.uniSrc (.s 5)) 48 8 ∧
    word (words.readAt (.hbm 0x40000) 8) = words.cur.uniSrc (.s 5) ∧ words.cur.arrivedAt = none ∧
    words.escortFit words.cur words.cur.frameBytes = .fits ∧ words.cur.qseq[0].toNat < (words.cur.uniSrc (.s 8)).toNat := by decide +kernel
/-- One arrival at a barrier of one ends its phase, as `arwait` asks of the word it leaves. -/
theorem test_meets_arwait : Arrived 0 1 (word (2 ^ 48)) ∧ bits (word (2 ^ 48)) 48 8 ≠ bits (0 : Word) 48 8 := by
  refine ⟨⟨fun h => ?_, fun _ => ?_⟩, by decide⟩
  · exact absurd h.1 (by decide)
  · exact ⟨by decide, by decide, by decide, by decide, by decide⟩

/-- Lock words: free, free and orphaned, held by another group, held by the own. -/
def lockWords : State := page 24 (1 * 2 ^ 24 + 5) (page 16 (9 * 2 ^ 24) (page 8 (2 ^ 62)
  (put [(4, 0x410000), (5, 0x410008), (6, 0x410010), (7, 0x410018), (8, 2 ^ 62)] dev)))
def fullEstate (s : State) : State := s.modGroup 1 fun g => { g with
  estate := tabulate 64 fun n => ⟨n, 2, word n, 0, 0, .dev, n, 0, false, false⟩ }
theorem test_meets_locks_calm : calm lockWords = true ∧ lockWords.cur.escort = none ∧ (lockWords.group? lockWords.cur.group).isSome = true ∧
    lockWords.cur.group < 2 ^ 32 ∧ lockWords.cur.group ≠ 0 := by decide +kernel
theorem test_meets_locks_reach : ∀ n ∈ [(4 : SReg), 5, 6, 7], ∃ off, Reaches lockWords .global (lockWords.cur.uniSrc (.s n)).toNat 2 (pageAt off) := by
  intro n hn
  simp only [List.mem_cons, List.not_mem_nil, or_false] at hn
  rcases hn with rfl | rfl | rfl | rfl
  · exact ⟨0, reaches_words (by decide +kernel)⟩
  · exact ⟨8, reaches_words (by decide +kernel)⟩
  · exact ⟨16, reaches_words (by decide +kernel)⟩
  · exact ⟨24, reaches_words (by decide +kernel)⟩
theorem test_meets_locks : bits (word (lockWords.readAt (.hbm 0x40000) 8)) 24 32 = 0 ∧ (word (lockWords.readAt (.hbm 0x40000) 8)).getLsbD 62 = false ∧
    bits (word (lockWords.readAt (.hbm 0x40008) 8)) 24 32 = 0 ∧ (word (lockWords.readAt (.hbm 0x40008) 8)).getLsbD 62 = true ∧
    bits (word (lockWords.readAt (.hbm 0x40010) 8)) 24 32 = 9 ∧ bits (word (lockWords.readAt (.hbm 0x40018) 8)) 24 32 = lockWords.cur.group ∧
    lockWords.estateRoom lockWords.cur.group = true ∧ (fullEstate lockWords).estateRoom lockWords.cur.group = false ∧
    (word (lockWords.readAt (.hbm 0x40000) 8)).getLsbD 63 = false := by decide +kernel
/-- The full estate leaves the device calm and the lock in reach. -/
theorem test_meets_locks_full : calm (fullEstate lockWords) = true ∧ (fullEstate lockWords).cur.escort = none ∧
    ((fullEstate lockWords).group? 1).isSome = true := by decide +kernel
theorem test_meets_locks_full_reach : Reaches (fullEstate lockWords) .global (lockWords.cur.uniSrc (.s 4)).toNat 2 (pageAt 0) :=
  reaches_words (by decide +kernel)

/-- Objects within their limits at each end of them, and one past. -/
def objects : State := put [(4, 0), (5, 3), (6, 4), (7, 7), (8, 8), (9, 4096), (10, 1)] dev
def holds : State := objects.modGroup 1 fun g => { g with estate := [⟨7, 3, 3, 0, 0, .dev, 0, g.handle, false, false⟩] }
theorem test_meets_holdings : (objects.group? objects.cur.group).isSome = true ∧
    objects.holdable .queue objects.cur 3 0 = true ∧ objects.holdable .queue objects.cur 4 0 = false ∧
    objects.holdable .chan objects.cur 7 0 = true ∧ objects.holdable .chan objects.cur 8 0 = false ∧
    objects.holdable .spad objects.cur 0 4096 = true ∧ objects.holdable .spad objects.cur 1 4096 = false ∧
    objects.holdable .spad objects.cur 0 0 = false ∧ objects.holdable .plant objects.cur 0 0 = false ∧
    objects.holdable .sbuf objects.cur 64 0 = false ∧
    objects.estateRoom objects.cur.group = true ∧ (fullEstate objects).estateRoom objects.cur.group = false ∧
    (holds.group 1).estate.find? (Holding.names .queue { holds.cur with tid := 1 } 3) = some ⟨7, 3, 3, 0, 0, .dev, 0, 1, false, false⟩ ∧
    ((objects.group 1).estate.find? (Holding.names .queue objects.cur 3)) = none ∧ calm objects = true := by decide +kernel
theorem test_meets_holdings_slot : Reaches (put [(4, 0x410000)] dev) .global ((put [(4, 0x410000)] dev).cur.uniSrc (.s 4)).toNat 2 (pageAt 0) :=
  reaches_words (by decide +kernel)

/-- Slots 0 to 3 are the context's partition 0, with tag 5 valid in slot 0; partition 1 is another context's. -/
def tagged : State := put [(4, 5), (5, 0), (6, 6), (7, 1), (8, 4), (9, 3)] (dev.modCluster 0 fun c => { c with
  tgmap := (c.tgmap.set 0 (word (2 ^ 63 + 4 * 2 ^ 34), 0)).set 1 (word (2 ^ 63 + 4 * 2 ^ 47 + 4 * 2 ^ 34), 1)
  tags := [⟨0, 5, true, false, 1⟩] })
theorem test_meets_tags : tagged.poison = [] ∧ tagged.cur.cluster < tagged.clusters.length ∧
    (let p := (tagged.cluster 0).partition 0; p.1.getLsbD 63 = true ∧ bits p.2 0 16 = tagged.curCtx ∧ bits p.1 47 12 = 0 ∧ bits p.1 34 13 = 4 ∧
      ((tagged.cluster 0).tags.find? fun t => t.valid && t.tag == bits (tagged.cur.uniSrc (.s 4)) 0 48 && tgHas p t.slot) = some ⟨0, 5, true, false, 1⟩ ∧
      (∀ e ∈ (tagged.cluster 0).tags, ¬ (e.valid = true ∧ e.tag = bits (tagged.cur.uniSrc (.s 6)) 0 48)) ∧
      ((tagged.cluster 0).tag 1).valid = false ∧ ((tagged.cluster 0).tag 0).valid = true) ∧
    bits ((tagged.cluster 0).partition 1).2 0 16 ≠ tagged.curCtx ∧ bits (tagged.cur.uniSrc (.s 7)) 0 4 = 1 ∧
    bits (tagged.cur.uniSrc (.s 9)) 0 12 = 3 ∧ bits (tagged.cur.uniSrc (.s 8)) 0 12 = 4 := by decide +kernel

/-! ## Tasks, copies, kicks, launches -/

/-- A word from its fields: value and low bit. -/
def fields (l : List (Nat × Nat)) : Word := word ((l.map fun p => p.1 * 2 ^ p.2).sum)
/-- A `DRAIN` for engine 0 of `m` rows, `k`, `n` columns into the page, in queue `q` and drain mode `mode`. -/
def drainRec (q m k n mode modulus : Nat) : List Word :=
  [fields [(2, 0), (q, 2), (1, 4), (m, 11), (k, 27), (n, 37), (mode, 45)], 0, 0, 0, fields [(0x410000, 0), (64, 48)], 0, word modulus, 0]
/-- A dense `MAC` of binary16 rows from the page, whose dependence names task `dep` of queue 1. -/
def macRec (dep m k : Nat) : List Word :=
  [fields [(1, 0), (1, 4), (1, 21), (1, 22), (m, 11), (k, 27), (1, 37)], word dep, fields [(0x410000, 0), (3, 48)],
    fields [(32, 48)], 0, 0, 0, 0]
def recAt (a : Nat) (l : List Word) (s : State) : State := put (l.zipIdx.map fun p => (Fin.ofNat 32 (8 * a + p.2), p.1)) s
/-- Engine 0 and `n` pool records for the context. -/
def tasked (n : Nat) (s : State) : State := s.modCluster 0 fun c => { c with
  quota := c.quota.set 0 (fields [(1, 47), (1, 44), (n, 15)], 64, 64), e0 := { c.e0 with ctx := some 0 } }
def taskDev (l : List Word) : State := recAt 1 l (tasked 256 dev)
def recOf (s : State) (a : Nat) : List Word := (List.range 8).map fun i => s.cur.s[Fin.ofNat 32 (8 * a + i)]

theorem test_meets_tasks_room : (taskDev (drainRec 3 256 256 128 0 0)).poolRoom (taskDev (drainRec 3 256 256 128 0 0)).cur = true ∧
    (recAt 1 (drainRec 3 256 256 128 0 0) (tasked 0 dev)).poolRoom dev.cur = false ∧
    calm (recAt 1 (drainRec 3 256 256 128 0 0) (tasked 0 dev)) = true ∧
    (tasked 0 dev).escortFit (tasked 0 dev).cur (tasked 0 dev).cur.frameBytes = .fits ∧
    dev.cur.cluster < dev.clusters.length := by decide +kernel
theorem test_meets_tasks_pass : (taskDev (drainRec 3 256 256 128 0 0)).refusal dev.cur (recOf (taskDev (drainRec 3 256 256 128 0 0)) 1) = 0 ∧
    (taskDev (drainRec 0 1 1 1 4 0)).refusal dev.cur (recOf (taskDev (drainRec 0 1 1 1 4 0)) 1) = 0 ∧
    (taskDev (macRec 0 256 256)).refusal dev.cur (recOf (taskDev (macRec 0 256 256)) 1) = 0 ∧
    (taskDev (drainRec 1 32 64 128 7 3)).refusal dev.cur (recOf (taskDev (drainRec 1 32 64 128 7 3)) 1) = 0 := by decide +kernel
theorem test_meets_tasks_refused : (taskDev (drainRec 0 257 1 1 0 0)).refusal dev.cur (recOf (taskDev (drainRec 0 257 1 1 0 0)) 1) = 0x12 ∧
    (taskDev (macRec 1 1 1)).refusal dev.cur (recOf (taskDev (macRec 1 1 1)) 1) = 0x13 ∧
    (taskDev (drainRec 0 1 1 1 7 4)).refusal dev.cur (recOf (taskDev (drainRec 0 1 1 1 7 4)) 1) = 0x15 ∧
    (taskDev (drainRec 0 1 1 1 0 3)).refusal dev.cur (recOf (taskDev (drainRec 0 1 1 1 0 3)) 1) = 0x10 ∧
    bits (fields [(2, 0), (1, 54)]) 54 10 = 1 ∧ bits (fields [(7, 45), (2, 0)]) 45 3 = 7 ∧
    bits (fields [(13, 48)]) 48 4 = 13 := by decide +kernel

/-- The team's group holds 4 KiB of scratchpad from 0; a kick and a copy of another team stand where they are asked for. -/
def owner (s : State) : State := s.modCluster 0 fun c => { c with allocs := [⟨0, 4096, 1, 0, false⟩] }
def kicks (l : List Kick) (s : State) : State := s.modGroup 1 fun g => { g with kicks := l }
def aKick (n : Nat) (popped : Bool) : Kick := ⟨word n, 1, 0, 8, popped, none⟩
/-- s4 names the group, its barrier at 8 and a notice; s5 one at 4092; s6 one outside. -/
def kicking : State := put [(4, fields [(1, 0), (8, 32)]), (5, fields [(1, 0), (4, 32)]), (6, fields [(1, 0), (4096, 32)]), (7, 5)] (owner (quota dev))
theorem test_meets_copies : (let s := put [(4, 2 ^ 32), (5, 0), (6, 2 ^ 32 - 1), (7, 1),
      (8, fields [(17, 0), (2, 16), (1, 48)]), (9, fields [(16, 0), (2, 16), (1, 48)]), (10, fields [(17, 0), (1, 16)])] dev
    s.outstanding s.cur .cp < 255 ∧ 2 ^ 32 ≤ (s.cur.uniSrc (.s 4)).toNat ∧ (s.cur.uniSrc (.s 5)).toNat = 0 ∧
    0 < (s.cur.uniSrc (.s 6)).toNat ∧ (s.cur.uniSrc (.s 6)).toNat < 2 ^ 32 ∧ (s.cur.uniSrc (.s 7)).toNat = 1 ∧
    (1 < bits (s.cur.uniSrc (.s 8)) 16 16 ∧ 16 * bits (s.cur.uniSrc (.s 8)) 48 16 < bits (s.cur.uniSrc (.s 8)) 0 16) ∧
    (1 < bits (s.cur.uniSrc (.s 9)) 16 16 ∧ bits (s.cur.uniSrc (.s 9)) 0 16 = 16 * bits (s.cur.uniSrc (.s 9)) 48 16) ∧
    bits (s.cur.uniSrc (.s 10)) 16 16 = 1) := by decide +kernel
theorem test_meets_kicks : calm kicking = true ∧ (kicking.groups.map Group.handle).Nodup ∧ (kicking.group? kicking.cur.group).isSome = true ∧
    bits (kicking.cur.uniSrc (.s 4)) 32 22 = 8 ∧ kicking.ownsSpad (kicking.group 1) 8 8 = true ∧
    bits (kicking.cur.uniSrc (.s 5)) 32 22 % 8 = 4 ∧ bits (kicking.cur.uniSrc (.s 6)) 32 22 = 4096 ∧
    kicking.ownsSpad (kicking.group 1) 4096 8 = false ∧ kicking.ownsSpad (kicking.group 1) 4088 8 = true ∧
    (kicking.group? (bits (kicking.cur.uniSrc (.s 4)) 0 32)) = some (kicking.group 1) ∧ (kicking.group 1).ctx = 0 ∧
    (kicking.group 1).st = .alive ∧ (kicking.group 1).kicks = [] ∧
    kicking.escortFit kicking.cur kicking.cur.frameBytes = .fits := by decide +kernel
theorem test_meets_kicks_full : calm (kicks (List.replicate 16 (aKick 5 true)) kicking) = true ∧
    ((kicks (List.replicate 16 (aKick 5 true)) kicking).group 1).kicks.length = 16 ∧
    ((kicks (List.replicate 15 (aKick 5 true)) kicking).group 1).kicks.length = 15 := by decide +kernel
/-- Of a taken notice, one not taken, and a second of the same number: the second is popped next, the first is acknowledged. -/
theorem test_meets_kicks_taken : (let s := kicks [aKick 5 true, aKick 6 false, aKick 5 false] kicking
    (s.group 1).kicks = [aKick 5 true] ++ aKick 6 false :: [aKick 5 false] ∧ (s.group 1).kicks = [] ++ aKick 5 true :: [aKick 6 false, aKick 5 false] ∧
    s.cur.uniSrc (.s 7) = (aKick 5 true).notice ∧ (∀ h ∈ s.groups, ∀ y ∈ h.kicks, y.acked = none) ∧ (s.cluster 0).copies = [] ∧
    (s.group? 1).isSome = true ∧ calm s = true) := by decide +kernel

/-- A launch of two stages, the second the first successor of the team's stage, whose queue has `n` slots. -/
def twoStages (n : Nat) (ending : Bool) (s : State) : State :=
  { s with launches := s.launches.map fun l => { l with
      ending := ending
      stages := l.stages.map (fun g => { g with next := [some 1, none, none, none] }) ++
        [{ Stage.empty with cap := n, qbase := 0x410000, rlen := 8, kernel := placedKernel, queues := [.empty 0] }] } }
def emitting (n : Nat) (ending : Bool) : State :=
  twoStages n ending (put [(4, 0), (5, 256), (6, 4), (7, 4088), (8, 8), (9, 9)] (owner (quota dev)))
theorem test_meets_emits : calm (emitting 1 false) = true ∧ (emitting 1 false).successor ((emitting 1 false).group 1) 0 = some 1 ∧
    (emitting 1 false).successor ((emitting 1 false).group 1) 1 = none ∧ ((emitting 1 false).launch 1).ending = false ∧
    ((emitting 1 true).launch 1).ending = true ∧ calm (emitting 1 true) = true ∧
    ((emitting 1 false).group 1).spadBase + ((emitting 1 false).group 1).spadBytes = 4096 ∧
    ((((emitting 1 false).launch 1).stage 1).queue 0).slotFree (((emitting 1 false).launch 1).stage 1) ((emitting 1 false).reservedRoom 1 1 0) = true ∧
    ((((emitting 0 false).launch 1).stage 1).queue 0).slotFree (((emitting 0 false).launch 1).stage 1) ((emitting 0 false).reservedRoom 1 1 0) = false ∧
    calm (emitting 0 false) = true ∧ (emitting 0 false).escortFit (emitting 0 false).cur (emitting 0 false).cur.frameBytes = .fits := by
  decide +kernel
theorem test_meets_emits_lengths : (emitting 1 false).cur.uniSrc (.s 4) = 0 ∧ (emitting 1 false).cur.uniSrc (.s 5) = 256 ∧
    (emitting 1 false).cur.uniSrc (.s 6) = 4 ∧ (emitting 1 false).cur.uniSrc (.s 7) = 4088 ∧
    (emitting 1 false).cur.uniSrc (.s 8) = 8 ∧ (emitting 1 false).cur.uniSrc (.s 9) = 9 := by decide +kernel
theorem test_meets_emits_append : ((emitting 1 false).appendRecord 1 1 0 (leBytes 8 5) none).isOk = true := by
  decide +kernel

/-- A team that launches, asks its supervisor, and exits: with another team of its group, with a copy queued, with neither. -/
def leaving : State := put [(4, 64), (5, 63)] (quota dev)
theorem test_meets_launch : calm leaving = true ∧ (leaving.cur.uniSrc (.s 4)).toNat % 64 = 0 ∧ (leaving.cur.uniSrc (.s 5)).toNat % 64 = 63 ∧
    leaving.escortFit leaving.cur leaving.cur.frameBytes = .fits ∧ leaving.ctxWorld (leaving.group 1).ctx = 0 ∧
    (0x10000 : BitVec 18).toNat = 0x10000 ∧ (0xFFFF : BitVec 18).toNat < 0x10000 := by decide +kernel

/-! ## What the device does with teams -/

def cur (f : Team → Team) (s : State) : State := s.onCur f
/-- A fetch of a word with a reserved bit set, of an address below every page, and of one that no table maps. -/
theorem test_meets_fetch : (match (devAt 32 0xA7000001).fetch.2 with | .illegal c _ => c == 1 | _ => false) = true ∧
    (match (cur (fun t => { t with pc := 0x1000 }) dev).fetch.2 with | .fault .access va => va == 0x1000 | _ => false) = true ∧
    (match (cur (fun t => { t with pc := 0x500000 }) dev).fetch with
      | (s2, .fault .replay va) => va == 0x500000 && s2.cur == (cur (fun t => { t with pc := 0x500000 }) dev).cur && decide (0 < s2.dies.length)
      | _ => false) = true ∧ dev.cur.tid = 1 ∧ dev.cur.st = .ready := by decide +kernel
/-- Pending traps of causes 15, 4 and 4: the first of cause 4 is taken. -/
theorem test_meets_boundary : let l : List (ℕ × Word) := [(15, 1)]
    let p : ℕ × Word := (4, 2)
    let r : List (ℕ × Word) := [(4, 3), (15, 4)]
    (∀ q ∈ l, p.1 < q.1) ∧ (∀ q ∈ r, p.1 ≤ q.1) ∧
    after (exec (.boundaryTrap 1) (cur (fun t => { t with pending := l ++ p :: r }) dev)) (fun t =>
      t.cur.tcause == 4 && t.cur.tinfo == 2 && t.cur.pending == l ++ r && t.cur.st == .stopping) = true := by decide +kernel

/-- Three ready teams, the first in its tenure; the second and third wait for one. -/
def ready3 (prev2 : Bool) (at2 at3 : ℕ) : State := withTeams (fun t => { t with tenure := .none, readyPrev := prev2, readyAt := at2 })
  (fun t => { t with tenure := .suspended 3, readyPrev := false, readyAt := at3 }) dev
def mayRun (v : Team) : Bool := v.cluster == 0 && v.core == 0 && v.st == .ready && !v.tenure.isHeld
theorem test_meets_grants_device : named (ready3 true 5 1) = true ∧ named (ready3 false 1 5) = true ∧ 0 < dev.clusters.length ∧
    (dev.cluster 0).core0.fenced = false ∧ ((ready3 true 5 1).holders 0 0).length = 1 := by decide +kernel
theorem test_meets_grants_passed : (∃ u ∈ (ready3 true 5 1).teams, u.tid = 2 ∧ mayRun u = true ∧ u.readyPrev = true ∧
    ∀ v ∈ (ready3 true 5 1).teams, mayRun v = true → v.readyPrev = true → v.tid = 2) := by decide +kernel
theorem test_meets_grants_oldest : (∃ u ∈ (ready3 false 1 5).teams, u.tid = 2 ∧ mayRun u = true ∧
    ∀ v ∈ (ready3 false 1 5).teams, mayRun v = true → v.readyPrev = false ∧
      (v.tid ≠ 2 → (ready3 false 1 5).pclsOf u = (ready3 false 1 5).pclsOf v ∧ u.readyAt < v.readyAt)) := by decide +kernel
theorem test_meets_suspend : (let s := cur (fun t => { t with tenure := .held 512 }) dev
    named s = true ∧ s.cur.tid ≠ 0 ∧ s.cur.st = .ready ∧ s.cur.cluster < s.clusters.length ∧ s.cur.core = 0) := by decide +kernel
theorem test_meets_windows : named dev = true ∧ 63 < dev.slices.length ∧ (dev.group? 1).isSome = true ∧
    (dev.modGroup 1 fun g => { g with detected := true }).group? 1 = some { dev.group 1 with detected := true } ∧
    (dev.group 1).window = 0 ∧ (dev.cluster 0).window = 0 ∧ (∀ ck ∈ [4095, 4096], ({ dev with ck := ck } : State).ck < 4096 ∨ 4096 ≤ ck) ∧
    ({ dev with ck := 4096 } : State).ck = (dev.group 1).window + 4096 ∧ ({ dev with ck := 256 } : State).ck = (dev.cluster 0).window + 256 ∧
    0 < dev.clusters.length := by decide +kernel

/-- The team's frame at a place, in the state `st`, with an access. -/
def frameOf (what : EscWhat) (place : EscPlace) : Escort := ⟨what, 4, false, place, 0, 0, 0, 0, 256, 0, 0, 0, 0, 0, false, false⟩
def abroad (e : Escort) (accs : List Acc) (s : State) : State := cur (fun t => { t with st := .abroad, escort := some e, accs := accs, tenure := .none }) s
def elemAt (off : ℕ) (st : ElemSt) : Elem := ⟨0, 0, 0x410000 + off, 8, .relCons, some (.hbm (0x40000 + off)), 0, 5, 0, false, 0, st⟩
def accOf (op : AccOp) (dst : AccDst) (e : Elem) : Acc := ⟨0, op, .plain, .dev, none, dst, 1, true, [e]⟩
def storing (st : ElemSt) : Acc := accOf (.store .w64) .none (elemAt 0 st)

theorem test_meets_budget : (let s := cur (fun t => { t with st := .waitBudget 256 0 }) (quota dev)
    named s = true ∧ s.cur.tid ≠ 0 ∧ s.others = [] ∧ s.bytesFree s.cur 256 = true ∧ s.cur.cluster = 0 ∧ s.cur.core = 0) := by decide +kernel
/-- A charge beyond the context's bytes, and one that another team's charge leaves no room for. -/
def pressed (ch : ℕ) (other : List Team) : State := { cur (fun t => { t with st := .waitBudget ch 0 }) (quota dev) with others := other }
theorem test_meets_budget_short : (let s := pressed 65537 []
    named s = true ∧ s.cur.tid ≠ 0 ∧ s.others = [] ∧ s.bytesFree s.cur 65537 = false ∧ s.abroadBudget s.cur < 65537) ∧
    (let s := pressed 65536 [{ dev.cur with tid := 2, granted := 65536 }]
    named s = true ∧ s.cur.tid ≠ 0 ∧ s.bytesFree s.cur 65536 = false ∧ 65536 ≤ s.abroadBudget s.cur ∧
    ∀ v ∈ s.others, v.st = .ready) := by decide +kernel
theorem test_meets_admit : (let s := abroad (frameOf (.access 0) .request) [storing .todo] (quota dev)
    named s = true ∧ s.cur.tid ≠ 0 ∧ s.others = [] ∧ s.penBytes 0 false + 256 ≤ 524288 ∧ (storing .todo).seq = 0 ∧
    (∀ x ∈ (storing .todo).elems, x.st ≠ .queued)) := by decide +kernel
theorem test_meets_merge : (let s := abroad (frameOf (.access 0) .pen) [storing .done] (quota dev)
    named s = true ∧ s.cur.tid ≠ 0 ∧ s.others = [] ∧ s.cur.accs = [storing .done] ∧ (storing .done).op = .store .w64 ∧
    (storing .done).dst = .none ∧ (∀ x ∈ (storing .done).elems, x.st = .done) ∧ s.cur.st = .abroad) := by decide +kernel
theorem test_meets_unit : (let e := frameOf (.queue 1 3) .unit
    let s := cur (fun t => { t with qseq := t.qseq.set 1 3 }) (abroad e [] dev)
    named s = true ∧ s.cur.tid ≠ 0 ∧ e.status = 0 ∧ e.eo = false ∧ (3 : Word).toNat ≤ s.cur.qseq[1].toNat) := by decide +kernel
/-- A reply lands where the core has room, and enters the Lodge where another team fills its registers. -/
def crowded (s : State) : State := { s with others := [{ s.cur with tid := 2, lwords := 16, st := .ready, escort := none }] }
theorem test_meets_land : (let s := abroad (frameOf (.access 0) .reply) [] dev
    named s = true ∧ named (crowded s) = true ∧ s.roomFor s.cur = true ∧ (crowded s).roomFor (crowded s).cur = false ∧
    s.cur.tid ≠ 0 ∧ (crowded s).cur.tid ≠ 0) := by decide +kernel
theorem test_meets_lodged : (let s := abroad (frameOf (.access 0) .lodged) [] dev
    named s = true ∧ s.cur.tid ≠ 0 ∧ s.others = [] ∧ s.roomFor s.cur = true ∧ s.cur.cluster = 0 ∧ s.cur.core = 0) := by decide +kernel
theorem test_meets_woken : (let e := { frameOf (.queue 1 3) .watched with status := 1 }
    let s := abroad e [] dev
    named s = true ∧ s.cur.tid ≠ 0 ∧ s.cur.escort = some e ∧ e.place = .watched ∧ e.status = 1) := by decide +kernel

theorem test_meets_recall : (let e := { frameOf (.access 0) .request with recalled := true }
    let s := abroad e [storing .todo] dev
    named s = true ∧ s.cur.tid ≠ 0 ∧ s.others = [] ∧ s.cur.escort = some e ∧ e.status = 0 ∧ s.cur.accs = [storing .todo] ∧
    s.cur.st = .abroad) := by decide +kernel
/-- The team in focus waits in the Lodge since ck 0; at ck 16,384 the idle team of its core goes. -/
def lodging : State := { abroad (frameOf (.access 0) .lodged) [] dev with
  ck := 16384, others := [{ dev.cur with tid := 2, slot := 1, tenure := .none, idleSince := 7 }] }
theorem test_meets_evict : named lodging = true ∧ (∃ u ∈ lodging.teams, u.tid = 2 ∧ u.slot < 32 ∧ u.st = .ready ∧ u.tenure = .none ∧
    u.cluster = 0 ∧ u.core = 0 ∧ ∀ x ∈ lodging.teams, x ≠ u → x.st = .abroad ∧
      x.escort = some (frameOf (.access 0) .lodged) ∧ x.cluster = 0 ∧ x.core = 0) ∧
    (frameOf (.access 0) .lodged).lodgedAt + 16384 ≤ lodging.ck := by decide +kernel
def savedAs (n : ℕ) : State := cur (fun t => { t with st := .saved n, resume := true, tenure := .none })
  (dev.modCluster 0 fun c => { c with quota := c.quota.set 0 (0x0000800000000000, fields [(32, 32), (384, 16)], 0) })
/-- Saved teams that may come back: an evicted one, a pre-empted one, and a stopped one that a command has released. -/
theorem test_meets_restore : ∀ n ∈ [0, 1, 2], named (savedAs n) = true ∧ (savedAs n).restoreCore (savedAs n).cur = some 0 ∧
    (savedAs n).cur.escort = none ∧ (savedAs n).cur.tid ≠ 0 ∧ (savedAs n).ctxActive 0 = true := by decide +kernel

/-! ## Elements, waits, tasks, copies, stages -/

/-- The team's one access, in place, with one element. -/
def inPlace (a : Acc) : State := page 0 7 (cur (fun t => { t with accs := [a] }) dev)
theorem test_meets_elements : (∀ op ∈ [AccOp.load (.zx .w64), .store .w64, .atom (.int .add .w64), .cas .w64, .redm (.fadd .f64)],
      (let s := inPlace (accOf op .none (elemAt 0 .todo))
      named s = true ∧ s.cur.tid ≠ 0 ∧ s.cur.escort = none ∧ s.cur.st = .ready ∧ s.others = [] ∧ coresIdle s = true ∧ s.poison = [])) ∧
    (elemAt 0 .todo).combines (accOf (.load (.zx .w64)) .none (elemAt 0 .todo)) = false ∧
    (elemAt 0 .todo).combines (accOf (.store .w64) .none (elemAt 0 .todo)) = false ∧
    dev.linkOpen (dieOf dev.cur.cluster) (elemAt 0 .todo).slice = true ∧
    (let a := { accOf (.store .w64) .none (elemAt 0 .todo) with esc := false }
    named (inPlace a) = true ∧ a.esc = false ∧ (elemAt 0 .todo).kind = .relCons ∧ 0x40000 % 64 + (elemAt 0 .todo).size ≤ 64 ∧
      0 < (inPlace a).clusters.length) ∧
    (elemAt 0 .todo).tgt = some (.hbm 0x40000) ∧ (elemAt 0 .todo).size = 8 ∧ (elemAt 0 .todo).arg < 2 ^ 64 ∧
    (let s := inPlace (accOf (.load (.zx .w64)) (.lane 8) (elemAt 0 .done))
    (elemAt 0 .done).lane < s.cur.lanes ∧ s.cur.dead.getLsbD 0 = false ∧ named s = true) := by decide +kernel

/-- An entry of the combining buffer that is 1,024 ck old, and an update on its way to the replicas. -/
def buffered : State := { dev.modCluster 0 fun c => { c with core0 := { c.core0 with
  comb := [⟨1, 16, 0x1000, [(0, 5), (63, 6)], 2 ^ 63 + 1, 0, 0⟩] } } with ck := 1024 }
def updating : State := { dev with dies := setNth dev.dies 0 { dev.die 0 with series := [⟨0, 0x40000, [1, 2], 0, 1, 1, 0, none, false, 0, 0⟩] } }
theorem test_meets_buffers : ((buffered.cur :: buffered.others).all fun t => teamQuiet t && !(buffered.group t.group).killed) = true ∧ buffered.poison = [] ∧ buffered.cur.escort = none ∧
    buffered.others = [] ∧ 0 < buffered.clusters.length ∧ (buffered.team 1).cluster = 0 ∧ (buffered.team 1).core = 0 ∧
    buffered.linkOpen 0 ((buffered.team 1).lineSlice 16 0x1000) = true := by decide +kernel
theorem test_meets_replicas : ((updating.cur :: updating.others).all fun t => teamQuiet t && !(updating.group t.group).killed) = true ∧ 0 < updating.dies.length ∧ 3 < updating.part.dies ∧
    (updating.die 0).series = [⟨0, 0x40000, [1, 2], 0, 1, 1, 0, none, false, 0, 0⟩] ∧ (updating.rofs.toList.getD 3 0).toNat = 0 ∧
    updating.pathUp 0 3 = true ∧ updating.frameOk (updating.ctxWorld 0) 0x40000 = true := by decide +kernel

def away (s : State) : State := { s with cur := .empty, others := s.teams.filter fun t => t.tid != 1 }
def parked (what : EscWhat) (s : State) : State := abroad (frameOf what .unit) [] s
theorem test_meets_parked_lock : (let r : WordReq := ⟨.lkacq none (some 5) false false, 0x410000, some (.hbm 0x40000), .relCons, .plain, .dev, none, 0, true⟩
    let s := { parked (.word r) dev with ck := 5 }
    named s = true ∧ still (away s) = true ∧ s.cur.tid ≠ 0 ∧ s.cur.accs = [] ∧ s.cur.st = .abroad ∧ r.issued + 5 ≤ s.ck) := by decide +kernel
def emitWait (n : ℕ) (ending : Bool) : State := parked (.emit 0 0 8 none) (emitting n ending)
theorem test_meets_parked_emit : (let s := emitWait 1 true
    named s = true ∧ still (away s) = true ∧ s.cur.tid ≠ 0 ∧ s.appendHeld 1 = false ∧ (s.launch (s.group s.cur.group).launch).ending = true) ∧
    (let s := emitWait 1 false
    named s = true ∧ still (away s) = true ∧ s.appendHeld 1 = false ∧ (s.launch (s.group s.cur.group).launch).ending = false) := by decide +kernel
theorem test_meets_parked_append : (match (emitWait 1 false).tryEmit 1 0 0 8 with | .done _ => true | _ => false) = true := by decide +kernel
theorem test_meets_parked_task : (let s := parked (.mtask (drainRec 0 1 1 1 0 0) (some 4)) (tasked 256 dev)
    named s = true ∧ still (away s) = true ∧ s.poolRoom s.cur = true ∧ s.cur.cluster < s.clusters.length) := by decide +kernel
theorem test_meets_parked_kick : (let s := parked (.kick 1 8 5) (owner dev)
    named s = true ∧ still (away s) = true ∧ s.group? 1 = some (s.group 1) ∧ (s.group 1).ctx = 0 ∧ (s.group 1).st = .alive ∧
    (s.group 1).kicks.length < 16) := by decide +kernel

/-- One task of the pool. -/
def taskOf (st : TaskSt) (l : List Word) : Task := ⟨9, 1, 0, 1, 1, 0, 1, l, 0, st, 0, 0, 0, Vector.replicate 4 0, some 0, false, 0, 0, false, [], [], false⟩
def pooled (st : TaskSt) (l : List Word) : State := (tasked 256 dev).modCluster 0 fun c => { c with tasks := [taskOf st l] }
def spadDrain : List Word := [fields [(2, 0), (1, 4), (1, 11), (1, 27), (1, 37)], 0, 0, 0, fields [(64, 0), (1, 48)], 0, 0, 0]
theorem test_meets_task_start : (let s := pooled .queued spadDrain
    still s = true ∧ 0 < s.clusters.length ∧ s.taskReady 0 (taskOf .queued spadDrain) = true ∧ s.enginesFree 0 (taskOf .queued spadDrain) = true) := by
  decide +kernel
theorem test_meets_task_pass : (let s := pooled .running spadDrain
    let w := nth 0 spadDrain
    still s = true ∧ bits (w 0) 0 2 = 2 ∧ bits (w 0) 4 3 = 1 ∧ bits (w 0) 11 9 = 1 ∧ bits (w 0) 37 8 = 1 ∧ bits (w 0) 45 3 = 0 ∧
    (s.ctxQuota 0 0 0).getLsbD 44 = true ∧ (s.cluster 0).e0.accPoison = [] ∧ keyGet (s.cluster 0).e0.acc 0 = 0 ∧
    bits (w 4) 0 48 = 64 ∧ (s.group? 1).isSome = true ∧ s.ownsSpad (s.group 1) 64 4 = true) := by decide +kernel
theorem test_meets_task_complete : (let s := pooled .finished spadDrain
    still s = true ∧ named s = true ∧ s.cur.tid = 1 ∧ s.cur.escort = none ∧ bits (nth 0 spadDrain 7) 0 48 = 0) ∧
    (let s := { pooled .queued spadDrain with ck := 4096 }
    still s = true ∧ (taskOf .queued spadDrain).waiting = some 0 ∧ 0 + 4096 ≤ s.ck) := by decide +kernel

def copying : State := spad 0 0x0102030405060708 (dev.modCluster 0 fun c => { c with
  copies := [⟨9, 1, 0, 1, 0, 3, 256, 0, 8, 1, 0, 0, 0, 0, false, false, false⟩], allocs := [⟨0, 4096, 1, 0, false⟩, ⟨8192, 1024, 0, 0, true⟩] })
theorem test_meets_copy : still copying = true ∧ 0 < copying.clusters.length ∧ (copying.groups.map Group.handle).Nodup ∧
    (copying.group? 1).isSome = true ∧ (copying.group 1).ctx = 0 ∧ (copying.group 1).cluster = 0 ∧
    (∀ h ∈ copying.groups, h.kicks = [] ∧ ∀ e ∈ h.estate, e.kind ≠ 4) ∧ copying.ownsSpad (copying.group 1) 0 8 = true ∧
    copying.ownsSpad (copying.group 1) 256 8 = true := by decide +kernel
theorem test_meets_clear : (let a : Alloc := ⟨8192, 1024, 0, 0, true⟩
    (copying.cluster 0).allocs = [⟨0, 4096, 1, 0, false⟩] ++ a :: [] ∧ a.clearing = true ∧ a ∉ [(⟨0, 4096, 1, 0, false⟩ : Alloc)] ++ [] ∧
    a.base + a.size ≤ 0x400000) := by decide +kernel

/-- A record waits in the queue of the second stage, since ck 0; the stage's timeout is 100. -/
def staged (tmo ck : ℕ) : State :=
  let s := { emitting 1 false with ck := ck, mtcfg := 0x800A000000000000 }
  { (s.modCluster 0 fun c => { c with quota := c.quota.set 0 (fields [(1, 47), (4, 24)], fields [(32, 32), (384, 16)], 0) }) with
    launches := s.launches.map fun l => l.modStage 1 fun g => { g with tmo := tmo, queues := [{ StageQueue.empty 0 with recs := [⟨0, false, 0, 0⟩] }] } }
theorem test_meets_evaluate : ((staged 0 0).evaluate 0).groups ≠ (staged 0 0).groups ∧ (staged 0 0).mtcfg.getLsbD 62 = false ∧
    (∀ l ∈ (staged 0 0).launches, ∀ x ∈ l.stages, ∀ q ∈ x.queues, q.bereaved = []) ∧ ((staged 0 0).launches.map Launch.handle).Nodup ∧
    (staged 0 0).groups.length = 1 ∧ (∀ x ∈ (staged 0 0).groups, x.tests = []) := by decide +kernel
theorem test_meets_timeout : (∀ p ∈ [(100, 100), (100, 99), (0, 0)],
    (((((staged p.1 p.2).launch 1).stage 1).queue 0).recs.filter fun r => !r.bound).head? = some ⟨0, false, 0, 0⟩ ∧
    (((staged p.1 p.2).launch 1).stage 1).tmo = p.1 ∧ (staged p.1 p.2).ck = p.2) := by decide +kernel

/-! ## Sett instructions -/

/-- Buffer 63 registered and reserved by the context. -/
def buffer (s : State) : State := { s with sett := s.sett.set 63 ⟨fields [(1, 63), (3, 56), (10, 15)], 9, fields [(3, 48)], 0, 3, false, 255, 2 ^ 32 - 1, false⟩ }
def settDev : State := put [(4, 63), (5, 0x410000), (6, 0x410004), (7, 0x1000), (8, 62)] (buffer dev)
def inFlight (b : ℕ) : Collective := ⟨b, 1, false, .sum, 0x410000, List.replicate 8 ⟨true, [], true, false, none⟩, [], [], 1, 0⟩
theorem test_meets_sett : calm settDev = true ∧ settDev.cur.uniSrc (.s 4) = 63 ∧ (settDev.settEntry 63).w0.getLsbD 63 = true ∧
    bits (settDev.settEntry 63).w3 48 16 = (settDev.group 1).ctx ∧
    (settDev.settEntry 63).released = false ∧ (settDev.settEntry 62).w0.getLsbD 63 = false ∧
    (settDev.cur.uniSrc (.s 6)).toNat % 8 = 4 ∧ settDev.ctxPlace 0 0x1000 2 = .error .access ∧
    settDev.ctxPlace 0 0x410000 2 = .ok ⟨.hbm 0x40000, .relCons, 0⟩ ∧ (Target.hbm 0x40000).device = 16 ∧
    (settDev.settEntry 63).state < 4 ∧ (settDev.settEntry 63).partials < 256 ∧ (settDev.settEntry 63).gen < 2 ^ 32 ∧
    settDev.collectives = [] := by decide +kernel
theorem test_meets_sett_busy : (let s := { settDev with collectives := [inFlight 63] }
    calm s = true ∧ ∃ k ∈ s.collectives, k.buf = 63) := by decide +kernel

/-! ## Estates, stops, supervisors -/

theorem quietPage {s : State} {ctx n : ℕ} (h : s.ctxPlace ctx 0x410000 1 = .ok ⟨.hbm 0x40000, .relCons, 0⟩) (hn : n ≤ 65536) :
    ∀ i, i < n → ∃ pl, s.ctxPlace ctx (0x410000 + i) 1 = .ok pl := by
  intro i hi
  obtain ⟨_, he⟩ := ctxPlace_page (v := 65) (p := 4) h (Nat.lt_of_lt_of_le hi hn)
  exact ⟨_, he⟩

/-- The team's group in conveyance with one lock, or with nothing, beside a living group 2. -/
def conveying (heir : Word) (entries : ℕ) : State :=
  let e : Holding := ⟨0, 0, 0x410000, heir, 0, .dev, 0, 0, false, false⟩
  let s := page 0 (2 ^ 24 + 5) (dev.modGroup 1 fun g => { g with st := .conveying 2 false, estate := List.replicate entries e })
  { s with groups := s.groups ++ [{ Group.empty with handle := 2, launch := 1 }] }
theorem test_meets_convey : (∀ heir ∈ [3 * 2 ^ 62, 2], (let s := conveying (word heir) 1
    still s = true ∧ (s.groups.map Group.handle).Nodup ∧ (s.group 1).st = .conveying 2 false ∧ (s.group 1).estate.length = 1 ∧
    s.conveyHeld 1 = false ∧ s.ctxPlace 0 0x410000 2 = .ok ⟨.hbm 0x40000, .relCons, 0⟩ ∧
    bits (word (s.readAt (.hbm 0x40000) 8)) 24 32 = 1)) := by decide +kernel
theorem test_meets_convey_heir : (let s := conveying (word 2) 1
    s.group? 2 = some { Group.empty with handle := 2, launch := 1 } ∧ (s.group 2).ctx = (s.group 1).ctx ∧ (s.group 2).st = .alive ∧
    s.ctxState 0 < 2 ∧ s.estateRoom 2 = true) ∧ bits (word 2) 62 2 = 0 ∧ bits (word (3 * 2 ^ 62)) 62 2 = 3 ∧ bits (word 2) 0 32 = 2 := by decide +kernel
theorem test_meets_convey_end : (let s := conveying 0 0
    still s = true ∧ (s.groups.map Group.handle).Nodup ∧ (s.group 1).estate = [] ∧ (s.group 1).tests = [] ∧ (s.group 1).kicks = [] ∧
    s.conveyHeld 1 = false) := by decide +kernel

/-- The descriptor of context 0 with its save area, or its supervisor queue of four slots, at the writable page; context 1 active. -/
def poke (pa : ℕ) (l : List Word) (s : State) : State := s.hbmWrite pa (l.flatMap fun w => leBytes 8 w.toNat)
/-- The same device with its ownership table at 4 GiB, clear of the descriptors. -/
def moved (s : State) : State := poke 0x100000000 [fields [(0xFFFF4000, 0), (0x4000, 32)], fields [(0x4000, 0), (0x4000, 32)], 0x4000]
  { s with fotbase := 0x100000000 }
abbrev clearOfTable (s : State) (a n : ℕ) : Prop := a + n ≤ s.fotbase.toNat ∨ s.fotbase.toNat + 4 * (s.part.hbmBytes / 65536 + 1) ≤ a
def saving (s : State) : State := poke 0x30008 [0x410000, fields [(1, 48)]] s
def queueing : State := poke 0x30010 [0x410000, 4, 3, 0] { moved dev with supRecs := [⟨none, 0, [[1, 2, 3, 4]], 0, false, none⟩] }
theorem test_meets_record_queue : still queueing = true ∧ queueing.ctxbase ≠ 0 ∧ bits (queueing.descWord 0 3) 0 32 = 4 ∧
    (queueing.descWord 0 4).toNat = 3 ∧ (queueing.descWord 0 5).toNat = 0 ∧ bits (queueing.descWord 0 2) 0 48 + 32 * (3 % 4) = 0x410000 + 96 ∧
    (0x410060 : ℕ) % 8 = 0 ∧ 0x40060 + 32 ≤ 2 ^ 48 ∧ queueing.ctxbase.toNat + 64 * 0 + 32 + 8 ≤ 0x40060 ∧ queueing.frameOk 0 0x30020 = true ∧ clearOfTable queueing 0x30020 8 ∧
    clearOfTable queueing 0x40060 32 := by decide +kernel
/-- The slot's four words lie at 0x40060, and do so when some of them have been written. -/
theorem test_meets_record_slots : ∀ i, i < 4 →
    let put (i : ℕ) : State := (List.range i).foldl (fun u j => u.store (.hbm (0x40060 + 8 * j)) 8 (([1, 2, 3, 4] : List Word).getD j 0).toNat) queueing
    queueing.ctxPlace 0 (0x410060 + 8 * i) 1 = .ok ⟨.hbm (0x40060 + 8 * i), .relCons, 0⟩ ∧
    (put i).ctxPlace 0 (0x410060 + 8 * i) 1 = .ok ⟨.hbm (0x40060 + 8 * i), .relCons, 0⟩ := by decide +kernel

def stopped (st : TeamSt) : State := saving (cur (fun t => { t with st := st }) dev)
theorem test_meets_saves : (∀ st ∈ [TeamSt.preempting, .stopping], (let s := stopped st
    still s = true ∧ named s = true ∧ s.cur.tid ≠ 0 ∧ s.cur.escort = none ∧ s.recordBytesOf 0 = 4096 ∧
    s.recordAddr 0 s.cur.recordIndex = 0x410000 ∧ s.privateRange 0 0x410000 4096 1 = true ∧
    s.ctxPlace 0 0x410000 1 = .ok ⟨.hbm 0x40000, .relCons, 0⟩)) := by decide +kernel
theorem test_meets_saves_room (st : TeamSt) (h : st ∈ [TeamSt.preempting, .stopping]) :
    ∀ i, i < 4096 → ∃ pl, (stopped st).ctxPlace 0 (0x410000 + i) 1 = .ok pl :=
  quietPage (test_meets_saves st h).2.2.2.2.2.2.2 (by decide)
theorem test_meets_preempt : still dev = true ∧ named dev = true ∧ (∀ u ∈ dev.teams, (dev.group u.group).ctx = 0 ∧
    2 * u.cluster + u.core ∈ [0] ∧ u.st = .ready ∧ u.pending = []) ∧ (dev.groups.map Group.handle).Nodup ∧ (dev.group 1).st = .alive ∧
    (dev.group 1).estate = [] ∧ (dev.group 1).tests = [] ∧ (dev.group 1).kicks = [] ∧ (∃ u ∈ dev.teams, u.group = 1) := by decide +kernel
theorem test_meets_death : (∀ st ∈ [1, 2], (let s := poke 0x30040 [word st] (moved dev)
    still s = true ∧ named s = true ∧ s.ctxbase ≠ 0 ∧ (s.ctxState 1 = 1 ∨ s.ctxState 1 = 2) ∧ (∀ l ∈ s.launches, l.ctx ≠ 1) ∧
    s.collectives = [] ∧ clearOfTable s 0x30040 8)) := by decide +kernel

/-- Commands: operation `op` on team 0 of group `g`. -/
def command (op g : ℕ) : Word := fields [(op, 60), (g, 0)]
def halted : State := cur (fun t => { t with st := .saved 1 }) dev
theorem test_meets_commands : (∀ op ∈ [1, 2, 3, 4, 5, 6], bits (command op 1) 60 4 = op ∧ bits (command op 1) 36 24 = 0 ∧
      bits (command op 1) 0 32 = 1 ∧ bits (command op 1) 32 4 = 0) ∧ still halted = true ∧ named halted = true ∧ halted.ctxbase ≠ 0 ∧
    halted.cur.tid = 1 ∧ halted.cur.index = 0 ∧ halted.cur.group = 1 ∧ (halted.group 1).ctx = 0 ∧ halted.others = [] ∧ halted.cur.resume = false ∧
    (halted.group 1).st = .alive ∧ halted.ctxWorld 0 = 0 ∧ (∀ v ∈ halted.teams, v.group ≠ 2) ∧ (0x400100 : Word).toNat % 4 = 0 ∧
    bits (0x400100 : Word) 48 16 = 0 := by decide +kernel
theorem test_meets_commands_answer : (let s := parked (.sys 5 true [] none) dev
    still s = true ∧ named s = true ∧ (frameOf (.sys 5 true [] none) .unit).status = 0 ∧ s.cur.group = 1 ∧ s.cur.index = 0) := by decide +kernel

/-! ## Launches -/

/-- A launch header with one stage and its kernel in the page; room for it in the quota row and the descriptor. -/
def header : List Word := [fields [(0x4C414C5A, 0), (1, 32), (1, 40)], fields [(1, 42)], 0, 0, 0, 0, 1, 0,
  fields [(0x410080, 0), (1, 48)], 0x410800, fields [(1, 16), (1, 4)], 1, 0, 0, 0, 0,
  fields [(0x4B584C5A, 0), (1, 32), (8, 40), (1, 48), (1, 54)], fields [(4, 32)], 0, 0, 0, 0, 0, 0]
def launchable (s : State) : State := poke 0x30010 [fields [(2, 48)]] (poke 0x40000 header (s.modCluster 0 fun c => { c with
  quota := c.quota.set 0 (fields [(1, 47)], fields [(32, 32), (384, 16)], 0) }))
def launching : State := launchable (parked (.launch 0x410000 (some 4) none) dev)
theorem test_meets_launch_accept : (match launching.readLaunch 0 0x410000 with
    | .ok (h, ds) => launching.verdict 0 0x410000 h ds == 0 && ds.length == 1 | .error _ => false) = true := by decide +kernel
theorem test_meets_launch_device : still launching = true ∧ named launching = true ∧ (launching.launches.map Launch.handle).Nodup ∧
    launching.appendHeld 1 = false ∧ launching.cur.tid ≠ 0 ∧ launching.launches ≠ [] := by decide +kernel
/-- A chain of one entry at 0x40400, for the header. -/
def chained : State := poke 0x40400 [0, 0x410000, 0, 0] (launchable { dev with lcstart := 0x40400, lctail := 0x40400 })
theorem test_meets_chain : still chained = true ∧ (chained.launches.map Launch.handle).Nodup ∧ bits chained.lcstart 0 48 = 0x40400 ∧
    bits chained.lcdone 0 48 = 0 ∧ chained.lcdone.getLsbD 63 = false ∧ chained.ctxbase ≠ 0 ∧
    (∀ a ∈ [0x40400, 0x40408, 0x40410, 0x40418], (chained.chainWord a).isSome = true) ∧
    bits (word (chained.hbmRead 0x40410 8)) 0 16 = 0 ∧ bits (word (chained.hbmRead 0x40408 8)) 0 48 = 0x410000 := by decide +kernel
theorem test_meets_chain_accept : (match chained.accept 0 0x410000 with | .ok _ => true | .error _ => false) = true := by decide +kernel
theorem test_meets_chain_pointers : bits ({ chained with lcdone := 0x40400 } : State).lcdone 0 48 = bits chained.lctail 0 48 := by decide +kernel
/-- A launch no group of which is left, without and with a completion word. -/
def idle (cword : ℕ) : State := { dev with groups := [], launches := dev.launches.map fun l => { l with cword := cword } }
theorem test_meets_launch_end : (∀ c ∈ [0, 0x410000], still (idle c) = true ∧ ((idle c).launches.map Launch.handle).Nodup ∧
    (∀ g ∈ (idle c).groups, g.launch ≠ 1) ∧ (∀ l ∈ (idle c).launches, (idle c).launchIdle l = true ∧ l.cwordHeld = false ∧ l.cword = c ∧
      l.kills < 2 ^ 24 ∧ l.groups < 2 ^ 32)) ∧ (idle 0x410000).ctxPlace 0 0x410000 1 = .ok ⟨.hbm 0x40000, .relCons, 0⟩ := by decide +kernel

/-! ## Control space, worlds and links -/

theorem test_meets_invalidate : (let s := { dev.modCluster 0 fun c => { c with tlb := [⟨0, 0x400000, 0x10000, 1⟩, ⟨1, 0x400000, 0x10000, 1⟩] } with
      trinv := some (0, false, 0x400000, 0x10000) }
    still s = true ∧ s.trinv.isSome = true ∧ (s.cluster 0).tlb.length = 2) ∧ still dev = true ∧ dev.ctxbase ≠ 0 := by decide +kernel
/-- A buffer of 16 chunks in frame 4, for this device; one of a format that no buffer has. -/
theorem test_meets_sett_table : (let w : Word := fields [(1, 63), (1, 56), (8, 15)]
    (bits w 56 4 = 1 ∧ w.getLsbD 62 = false ∧ (fields [(1, 48)]).getLsbD (48 + dev.podDev) = true ∧
    dev.framesOf (bits (0 : Word) 32 16) (bits w 15 33 * 32768) (4096 * bits (16 : Word) 0 20) = true ∧
    dev.framesOf (bits (0 : Word) 32 16) (bits w 15 33 * 32768) (4096 * bits (17 : Word) 0 20) = false ∧
    dev.mapsUnspread (bits (0 : Word) 48 16) (bits w 15 33 * 32768) (4096 * bits (16 : Word) 0 20) = false ∧ dev.collectives = []) ∧
    (({ dev with collectives := [inFlight 63] } : State).collectives.map Collective.buf).Nodup ∧
    bits (fields [(1, 63), (2, 56)]) 56 4 = 2 ∧ ∀ k ∈ [inFlight 63], k.dies.length = 8) := by decide +kernel
/-- Die 3's fault buffer with one entry, of a launch's completion word, between its head and its tail. -/
def faulted : State := { dev with dies := setNth dev.dies 3 { dev.die 3 with
  faults := [⟨2047, 0, 0x500000, 1, 6, 0, 0, .launchWord 1⟩], fbhead := 2047, fbtail := 2048 } }
theorem test_meets_faults : still faulted = true ∧ 3 < faulted.part.dies ∧ 3 < faulted.dies.length ∧
    (faulted.die 3).faults = [⟨2047, 0, 0x500000, 1, 6, 0, 0, .launchWord 1⟩] ∧ 2047 % 2048 = (2047 : Word).toNat ∧ (faulted.die 3).waits = [] ∧
    (faulted.die 3).fbhead + ((0 : Word).toNat + 2048 - (faulted.die 3).fbhead % 2048) % 2048 = (faulted.die 3).fbtail ∧
    (faulted.die 3).fbtail < (faulted.die 3).fbhead + ((1 : Word).toNat + 2048 - (faulted.die 3).fbhead % 2048) % 2048 := by decide +kernel
theorem test_meets_registers : ctrlReg dev.part 0xFF0000000004 = none ∧ (ctrlReg dev.part 0xFF0000001200).isSome = true ∧
    linkPresent dev.part 24 = true ∧ dev.seals[(24 : Fin 86)].curS = none ∧ dev.seals[(24 : Fin 86)].spent = [] ∧
    dev.seals[(24 : Fin 86)].st ≠ 2 ∧ linkPresent .zlx20 2 = false ∧ linkPresent dev.part 39 = true := by decide +kernel
/-- A port that stalls with a key in use and one spent: 5 and 6 are not fresh, 7 is. -/
def respent : Seal := { Seal.zero with st := 2, stallAt := some 0, curS := some 5, spent := [6] }
theorem test_meets_key_use : (let s := { dev with seals := dev.seals.set 24 respent }
    still s = true ∧ s.seals[(24 : Fin 86)].st = 2 ∧ s.seals[(24 : Fin 86)].curS = some 5 ∧ (6 : ℕ) ∈ s.seals[(24 : Fin 86)].spent ∧
    s.seals[(24 : Fin 86)].curS ≠ some 7 ∧ (7 : ℕ) ∉ s.seals[(24 : Fin 86)].spent) := by decide +kernel

/-- Cluster 0 with engine 0 promised to context 0 and all 3,056 KiB of scratchpad to it. -/
def promised : State := dev.modCluster 0 fun c => { c with
  quota := c.quota.set 0 (fields [(1, 47), (1, 44), (3056, 24)], 0, 0)
  e0 := { c.e0 with ctx := some 0 }
  tgmap := c.tgmap.set 0 (fields [(1, 63), (4, 34)], 0)
  tags := [⟨0, 5, true, true, 1⟩, ⟨4, 6, true, false, 1⟩] }
def quotaSum (n : Fin 16) (w0 : Word) (f : Word → ℕ) : ℕ :=
  ((List.finRange 16).map fun i => let r := if i = n then w0 else (promised.cluster 0).quota[i].1; if r.getLsbD 47 then f r else 0).sum
theorem test_meets_quota : 0 < promised.part.clusters ∧ 0 < promised.clusters.length ∧
    quotaSum 0 (fields [(1, 47), (1, 44), (3056, 24)]) (bits · 24 12) = 3056 ∧ quotaSum 1 (fields [(1, 47), (1, 24)]) (bits · 24 12) = 3057 ∧
    quotaSum 1 (fields [(1, 47), (1, 44)]) (bits · 44 1) = 2 ∧ quotaSum 1 (fields [(1, 47), (256, 15)]) (bits · 15 9) = 256 ∧
    (∀ e ∈ [1, 2], ((promised.cluster 0).engine e).ctx = none) ∧ ((promised.cluster 0).engine 0).ctx = some 0 := by decide +kernel
/-- A partition beside slots 0 to 3, one that overlaps slot 3, one of weight 9. -/
theorem test_meets_partition : (let a (first w : ℕ) : Word := fields [(1, 63), (w, 59), (first, 47), (4, 34)]
    let k := promised.cluster 0
    (k.tgmap[0].1.getLsbD 63 = true ∧ bits k.tgmap[0].1 47 12 + bits k.tgmap[0].1 34 13 = 4 ∧
    bits (a 4 8) 59 4 = 8 ∧ bits (a 4 8) 47 12 = 4 ∧ bits (a 3 8) 47 12 < 4 ∧ bits (a 4 9) 59 4 = 9 ∧ (∀ i : Fin 16, i ≠ 0 → k.tgmap[i].1.getLsbD 63 = false) ∧
    k.tags[0]? = some ⟨0, 5, true, true, 1⟩ ∧ k.tags[1]? = some ⟨4, 6, true, false, 1⟩)) := by decide +kernel

/-- Frame 5 free, frame 4 world 0's, frame 6 shared by it, frame 7 world 9's. -/
def owned : State := { poke 24 [fields [(0x8000, 0), (0x94000, 32)]] dev with ctxbase := 0 }
theorem test_meets_frames : (owned.entryState 5, owned.entryWorld 5) = (0, 0) ∧ (owned.entryState 4, owned.entryWorld 4) = (1, 0) ∧
    (owned.entryState 6, owned.entryWorld 6) = (2, 0) ∧ (owned.entryState 7, owned.entryWorld 7) = (1, 9) ∧ 7 < owned.frameCount ∧
    (owned.entryState 0, owned.entryWorld 0) = (1, 0xFFFF) ∧ (∀ op ∈ [1, 2, 3, 4, 5], bits (fields [(op, 60), (9, 0)]) 16 44 = 0 ∧
      bits (fields [(op, 60), (9, 0)]) 60 4 = op) ∧ owned.ctxbase = 0 := by decide +kernel
theorem test_meets_change : (let s := { owned with changes := [⟨0, [5], [0], 9, 1, true⟩] }
    still s = true ∧ s.fotbase.toNat = 0 ∧ 9 < 65536 ∧ 1 < 4) ∧ ∀ i < 4, (4 * 5 + i) / 65536 ≠ 5 := by decide +kernel

/-- A flit of the replay buffer of port 0, under number `n`. -/
def flit (n : ℕ) : Flit := ⟨n, n, 0, 1, 0, false, 7, .ack⟩
/-- Seal blocks under key 5: 0 and 24 send, 0 and 39 have received counter 6; port 0 has a flit to put on the wire, and `out`
of link control waits; the pod is up, the device number 0. -/
def sealed (out : List (Bool × ℕ × ℕ)) : State := { dev with
  seals := ((dev.seals.set 0 { Seal.zero with st := 1, curS := some 5, curR := some 5, rxCtr := some 6 }).set 39
    { Seal.zero with st := 1, curR := some 5, rxCtr := some 6 }).set 24 { Seal.zero with st := 1, curS := some 5 }
  podLinks := dev.podLinks.set 0 { Link.zero with replay := [flit 0] }
  podcfg := 0x80, controlOut := out }
theorem test_meets_seals : (∀ out ∈ [[], [(false, 0, 9)]], (let s := sealed out
    still s = true ∧ s.podOut = [] ∧ s.podEn = true ∧ s.dirUp 0 = true ∧ s.podLinks[(0 : Fin 15)].up = true ∧
    s.podLinks[(0 : Fin 15)].replay[s.podLinks[(0 : Fin 15)].sent]? = some (flit 0) ∧ s.controlOut = out ∧
    (∀ j ∈ [(0 : Fin 86), 24], linkPresent s.part j.val = true ∧ s.seals[j].st = 1 ∧ s.seals[j].pend = false ∧
      s.seals[j].ctr + 1 < s.seals[j].thr ∧ s.seals[j].ctr < 0xFFFFFFFFFFFE) ∧ s.seals[(70 : Fin 86)].st ≠ 1 ∧
    (∀ j ∈ [(0 : Fin 86), 39], linkPresent s.part j.val = true ∧ s.seals[j].curR = some 5 ∧ s.seals[j].rxCtr = some 6 ∧
      s.seals[j].rxPh = false))) := by decide +kernel
/-- A unit under key 5 and counter 7 verifies, and its counter is new. -/
theorem test_meets_seals_good (j : Fin 86) (h : (sealed []).seals[j].rxPh = false) (hk : (sealed []).seals[j].curR = some 5)
    (hc : (sealed []).seals[j].rxCtr = some 6) : let s := sealed []
    let b := s.seals[j]
    let v := sealUnit 5 (s.identOf j.val) 7 false 0
    let u := sealedUnitFrom v.cipher v.tag v.ctr (b2n v.phase + 2 * v.rest)
    u.phase = b.rxPh ∧ b.curR = some 5 ∧ u.verifies 5 (s.identOf j.val) = true ∧ ∀ c, b.rxCtr = some c → c < u.ctr := by
  dsimp only
  rw [sealedUnitFrom_parts (sealUnit_fits (by norm_num)), h]
  refine ⟨rfl, hk, sealUnit_verifies .., fun c e => ?_⟩
  rw [← Option.some.inj (hc.symm.trans e)]
  exact (by norm_num : 6 < 7)
/-- A unit of zeros has counter 0, which is past. -/
theorem test_meets_seals_bad : (sealedUnitFrom 0 0 0 0).phase = false ∧ (sealedUnitFrom 0 0 0 0).ctr ≤ 6 := ⟨by decide +kernel, by decide +kernel⟩
/-- A flit of number 0 where 0 comes next, one of number 1 there, and one whose CRC fails. -/
theorem test_meets_flits : flitOk (withCrc 0) = true ∧ flitField (withCrc 0) 54 2 ≠ 3 ∧ flitField (withCrc 0) 80 16 = 0 ∧
    flitField (withCrc (2 ^ 80)) 54 2 ≠ 3 ∧ flitField (withCrc (2 ^ 80)) 80 16 = 1 ∧ (∃ f, flitOk f = false) ∧
    dev.podLinks[(0 : Fin 15)].rxSeq = 65535 ∧ dev.podLinks[(0 : Fin 15)].up = true ∧ dev.podLinks[(0 : Fin 15)].replay = [] := by
  simp only [flitField_withCrc, Nat.reduceAdd, Nat.reduceLeDiff]
  exact ⟨flitOk_withCrc (by decide), by decide, by decide, by decide, by decide, flitOk_fails, by decide +kernel⟩
theorem test_meets_mail_flit : (let x : Flit := ⟨0, 0, 3, 0, 2, false, 0, .mailbox 5⟩
    x.body = .mailbox 5 ∧ x.dst = dev.podDev ∧ x.src < 16 ∧ x.eseq = dev.expected x.src ∧ x.eseq < 65536 ∧ dev.early = [] ∧
    ({ x with dst := 1 } : Flit).dst ≠ dev.podDev) := by decide +kernel
/-- A pod link with two flits outstanding since ck 0. -/
def linked (ck : ℕ) : State := { dev with ck := ck, podLinks := dev.podLinks.set 0 { Link.zero with replay := [flit 4, flit 5] } }
theorem test_meets_links : (∀ ck ∈ [159999, 160000], still (linked ck) = true ∧ (linked ck).podLinks[(0 : Fin 15)].up = true ∧
    (linked ck).podOut = [] ∧ (linked ck).podLinks[(0 : Fin 15)].replay = [] ++ flit 4 :: [flit 5] ∧
    (linked ck).podLinks[(0 : Fin 15)].replay = [flit 4] ++ flit 5 :: [] ∧ (flit 4).seq ≠ (flit 5).seq ∧
    (linked ck).podLinks[(0 : Fin 15)].since = 0) := by
  decide +kernel
/-- A link that has stalled since ck 0: an on-package one, and a port with a remote element of context 1 in its queue. -/
def stalledAt (j : Fin 86) (ck : ℕ) (stalled : Bool) : State := poke 0x30040 [1] { moved dev with
  seals := dev.seals.set j { Seal.zero with st := 2, stallAt := some 0 }
  podLinks := dev.podLinks.set 0 { Link.zero with replay := [flit 0] }
  remotes := [⟨7, 0, 0, 0, 1, 1, 1, 0, stalled⟩]
  ck := ck }
theorem test_meets_stalls : (∀ j ∈ [(0 : Fin 86), 24], ∀ ck ∈ [15999999, 16000000], (let s := stalledAt j ck true
    still s = true ∧ s.podOut = [] ∧ (s.seal j).st = 2 ∧ (s.seal j).stallAt = some 0)) ∧
    (∀ r ∈ (stalledAt 24 16000000 false).remotes, r.stalled = false) ∧
    (let s := stalledAt 24 16000000 true
    s.remotes = [⟨7, 0, 0, 0, 1, 1, 1, 0, true⟩] ∧ s.byPort 0 ⟨7, 0, 0, 0, 1, 1, 1, 0, true⟩ = true ∧ (s.ctxState 1 = 1 ∨ s.ctxState 1 = 2) ∧
    (∀ l ∈ s.launches, l.ctx ≠ 1) ∧ s.collectives = [] ∧ clearOfTable s 0x30040 8) := by decide +kernel
/-- A window of peer 3 over frame 4 for world 0, open for reads and writes. -/
def windowed : State := { dev with pwin := dev.pwin.set 63 (fields [(1, 63), (4, 16), (1, 3)], fields [(5, 16), (1, 0)]) }
theorem test_meets_peers : (let p := windowed.pwin[63]
    p.1.getLsbD 63 = true ∧ bits p.1 16 32 * 65536 ≤ 0x40000 ∧ 0x4FFF8 + 8 ≤ bits p.2 16 32 * 65536 ∧ ¬ (0x4FFFC + 8 ≤ bits p.2 16 32 * 65536) ∧
    p.1.getLsbD 3 = true ∧ p.1.getLsbD 4 = false ∧ bits p.2 48 16 = 0 ∧ p.2.getLsbD 0 = true) ∧ still windowed = true ∧
    windowed.expected 3 = 0 ∧ windowed.early = [] ∧ 0x4FFF8 + 8 ≤ windowed.part.hbmBytes ∧ windowed.frameOk 0 0x4FFF8 = true ∧
    windowed.frameWorld 0x4FFF8 = 0 := by decide +kernel
theorem test_meets_remotes : (∀ n ∈ [3199999, 3200000], (let s := poke 0x30040 [1] { moved dev with remotes := [⟨7, 0, 0, 0, 1, 1, 1, n, false⟩] }
    still s = true ∧ (s.remotes.map Remote.tag).Nodup ∧ (s.ctxState 1 = 1 ∨ s.ctxState 1 = 2) ∧ (∀ l ∈ s.launches, l.ctx ≠ 1) ∧
    s.collectives = [] ∧ clearOfTable s 0x30040 8)) := by decide +kernel

/-- A collective of devices 0 and 1 on buffer 63: 17 chunks at frame 5 on, of 32-bit integers; this device is number 0, frames 4
to 7 world 0's; its dies at `x`, with messages `i` that have come to base die 1. -/
def collecting (gather : Bool) (x : SettDie) (i : List FlitBody) : State :=
  (poke 16 [fields [(0x4000, 0), (0x4000, 32)], fields [(0x4000, 0), (0x4000, 32)]] { dev with
    sett := dev.sett.set 63 ⟨fields [(1, 63), (11, 56), (10, 15)], 17, fields [(3, 48)], 0, 1, false, 0, 1, false⟩
    collectives := [{ inFlight 63 with gather := gather, dies := List.replicate 8 x }]
    settIn := i.map fun b => (1, 8000000, ⟨0, 0, 1, 1, 0, false, 0, b⟩)
    ck := 8000000 })
def agreed : SettDie := ⟨true, [1], true, false, none⟩
def ours : FlitBody := .params 63 1 11 17 3 0
/-- The 32 parts of chunk `c` of device 1. -/
def parts (c : ℕ) (complete : Bool) : List FlitBody :=
  (List.range 32).map fun i => .chunk 63 1 c i (((List.replicate 4096 0).drop (128 * i)).take 128) 2 complete
/-- What every clause asks of the device and the collective. -/
def ready_ (s : State) (x : SettDie) : Bool := still s && (s.collectives.all fun k => k.buf == 63 && k.dies.length == 8 && k.die 1 == x) &&
  s.collectives.length == 1
theorem test_meets_collectives : ready_ (collecting false agreed []) agreed = true ∧ (let s := collecting false agreed []
    let e := s.settEntry 63
    e.members = [0, 1] ∧ e.nchk = 17 ∧ e.fmt = 11 ∧ e.pmask / 2 ^ s.podDev % 2 = 1 ∧ s.settPlace e 1 = 1 ∧ e.before 1 1 = 2 ∧
    17 ≠ 1 ∧ 9 < e.nchk ∧ 9 % 8 = 1 ∧ s.settRoom (settPort 1 true) = true ∧ (s.settLink (settPort 1 true)).up = true ∧
    (∀ k ∈ s.collectives, 2 ≠ k.num ∧ (s.chunkStatus k 1).1 = 0 ∧ (s.chunkStatus k 9).1 = 0 ∧ k.chunks = [] ∧ k.opened = [])) := by decide +kernel
/-- Chunks of base die 1 that have come, in part and complete, in a sum and a gather: this device owns chunk 0, device 1 chunk 1. -/
theorem test_meets_chunks : (∀ g ∈ [false, true], (let s := collecting g agreed (parts 1 g)
    ready_ s agreed = true ∧ (s.settEntry 63).world = 0 ∧
    (∀ c ∈ [0, 1], s.frameOk 0 (0x50000 + 4096 * c) = true ∧ s.frameWorld (0x50000 + 4096 * c) = 0) ∧ (s.settEntry 63).base = 0x50000)) ∧
    (let s := collecting false agreed []
    ready_ s agreed = true ∧ s.settIn = [] ∧ s.settPlace (s.settEntry 63) 0 = 0 ∧ 8 < (s.settEntry 63).nchk ∧ 8 % 8 = 0 ∧
    (∀ k ∈ s.collectives, k.die 0 = agreed ∧ (s.chunkStatus k 8).1 = 0)) := by decide +kernel
theorem test_meets_chunks_in (g : Bool) : (collecting g agreed (parts 1 g)).settIn =
    (parts 1 g).map fun b => (1, 8000000, ⟨0, 0, 1, 1, 0, false, 0, b⟩) := rfl
/-- Parameters not yet sent; sent and answered with the same, and with others. -/
theorem test_meets_parameters : (let x : SettDie := ⟨false, [], false, false, none⟩
    ready_ (collecting false x []) x = true ∧ 1 ∉ x.heard) ∧ (let x : SettDie := ⟨true, [], false, false, none⟩
    ready_ (collecting false x [ours]) x = true ∧ (∀ m ∈ (collecting false x [ours]).settIn, m.1 = 1 ∧ m.2.2.body = ours ∧ m.2.2.src = 1) ∧
    ready_ (collecting false x [.params 63 1 11 16 3 0]) x = true ∧ FlitBody.params 63 1 11 16 3 0 ≠ ours ∧
    (collecting false x [ours]).ck = 8000000) := by decide +kernel
/-- A stop of ck 0 at a base die without a chunk, and one that has not come; the place of the barrier. -/
theorem test_meets_failure : (let x : SettDie := ⟨true, [1], true, false, some 0⟩
    let s := { collecting false x [] with sett := dev.sett.set 63 ⟨fields [(1, 63), (11, 56), (10, 15)], 1, fields [(3, 48)], 0, 1, false, 0, 1, false⟩ }
    ready_ s x = true ∧ (s.settEntry 63).nchk ≤ 1 ∧ 0 + 8000000 ≤ s.ck ∧ s.ctxPlace 0 0x410000 2 = .ok ⟨.hbm 0x40000, .relCons, 0⟩ ∧
    s.settIn = [] ∧ (∀ k ∈ s.collectives, (k.die 7).arrived = false ∧ k.ctx = 0 ∧ k.barrier = 0x410000)) ∧
    agreed.arrived = false ∧ agreed.stopAt = none ∧ ({ agreed with arrived := true } : SettDie).arrived = true := by decide +kernel

/-! ## Reliability, boot and attestation -/

/-- The rings of the four dies lie in frames 16 on, which world 0 owns. -/
def ringed : State := (poke 64 (List.replicate 8 (fields [(0x4000, 0), (0x4000, 32)])) { dev with mcbase := 0x100000 })
theorem test_meets_errors : dev.dies.length = dev.part.dies ∧ 3 < dev.part.dies ∧ (∀ d < 4, (ringed.die d).mcw - (ringed.die d).mcr < 4096 ∧
    (ringed.die d).mcRecent = [] ∧ (let slot := ringed.mcbase.toNat + 131072 * d + 32 * ((ringed.die d).mcw % 4096)
      ringed.frameOk 0 slot = true ∧ ringed.frameOk 0 (slot + 31) = true)) ∧ ringed.dies.length = ringed.part.dies ∧
    dev.poison.contains (.line 7) = false ∧ ringed.scrub.getLsbD 63 = true ∧
    ({ dev with poison := [.line 7] } : State).poison.contains (.line 7) = true ∧ ({ dev with scrub := 0 } : State).scrub.getLsbD 63 = false := by
  decide +kernel

def audit (replay : Option ℕ) : Audit := ⟨true, 0, 9, 0, replay, [], 0, 0, [], [], none, none⟩
def audited (replay : Option ℕ) : State := { dev with audits := [audit replay] }
theorem test_meets_audits : (∀ unit ∈ [3, 4], unit / 3 ≠ 0 / 3 ∧ unit / 3 < dev.part.clusters ∧ unit / 3 < dev.clusters.length) ∧ 6 / 3 ≠ 3 / 3 ∧
    (∀ r ∈ [none, some 3], (audited r).audits = [audit r]) ∧
    (∀ c < 3, ∀ e < 3, ((dev.cluster c).engine e).ctx = none) ∧ dev.mtcfg.getLsbD 63 = true ∧
    ((dev.cluster 1).engine 0).due ≤ ({ dev with ck := 3000000 } : State).ck ∧ ((dev.cluster 1).engine 0).owed = false := by decide +kernel
theorem test_meets_probe : (let s := { dev.modCluster 1 fun c => { c with e0 := { c.e0 with owed := true, due := 6000000 } } with ck := 3100000 }
    ((s.cluster 1).engine 0).owed = true ∧ ((s.cluster 1).engine 0).due + 100000 ≤ s.ck + 3000000 ∧ 3 / 3 < s.clusters.length ∧
    ({ s with probes := [(true, 3)] } : State).probes = [(true, 3)] ∧ 3 / 3 ≠ 6 / 3 ∧ 9 / 3 ≠ 3 / 3 ∧ 9 / 3 ≠ 6 / 3) := by decide +kernel

/-- A blank flash fails with code 1, and one that cannot be read with code 6. -/
theorem test_meets_boot : State.reset.boot = .wiping ∧ State.reset.fuses.lcs = 2 ∧ leNat (FlashImage.blank.header.take 4) ≠ 0x5A4C4249 ∧
    FlashImage.blank.readable = true ∧ (∀ n old since, State.reset.fw ≠ .active n old since) := by
  refine ⟨rfl, rfl, by decide, rfl, fun _ _ _ h => ?_⟩
  exact FwSt.noConfusion h
theorem test_meets_boot_stages : ({ State.reset with boot := .romRun } : State).boot = .romRun ∧
    ({ State.reset with boot := .rootRun } : State).boot = .rootRun := ⟨rfl, rfl⟩

/-- A peer with an open session, authenticated as the owner of world 4, and 15 more. -/
def attesting (n : ℕ) : State := { dev with
  podcfg := 0x80
  worlds := [⟨4, 77, 5, 6, 0x40000, [], [8]⟩]
  sessions := [⟨1, some 3, true, true, 77, 0⟩] ++ (List.range n).map fun i => ⟨2 + i, none, false, false, 0, 0⟩
  nextId := 20 }
theorem test_meets_sessions : (3 < (attesting 0).podSize ∧ (attesting 0).boot = .running ∧ (attesting 0).sessions.length = 1 ∧
    (attesting 15).sessions.length = 16 ∧ ((attesting 0).session? (some 3) 1) = some ⟨1, some 3, true, true, 77, 0⟩ ∧
    (attesting 0).session? (some 3) 2 = none ∧ (attesting 0).fw = .idle ∧ (∀ w ∈ (attesting 0).worlds, w.owner = 77) ∧
    ((attesting 1).session? none 2) = some ⟨2, none, false, false, 0, 0⟩ ∧ (∀ w ∈ (attesting 1).worlds, w.owner ≠ 0)) := by decide +kernel
theorem test_meets_firmware : (let s : State := { dev with fw := .active 9 dev.slots 0, ck := 320000000 }
    s.ck ≤ 0 + 320000000 ∧ s.fw = .active 9 s.slots 0) ∧ ({ dev with fw := .staged 9 } : State).fw = .staged 9 := by decide +kernel
/-- Host window 3 over frame 6, which world 0 shares with the host, open for writes; window 0 closed. -/
def hosted : State := { owned with hwin := owned.hwin.set 3 (fields [(3, 62), (6, 16)]) }
theorem test_meets_host : (let w := nth 0 hosted.hwin.toList ((3 * 2 ^ 36 + 0xFFF8) / 2 ^ 36)
    w.getLsbD 63 = true ∧ w.getLsbD 62 = true ∧ bits w 16 32 * 65536 + (3 * 2 ^ 36 + 0xFFF8) % 2 ^ 36 = 0x6FFF8 ∧ 3 * 2 ^ 36 + 0xFFF8 < 2 ^ 38) ∧
    hosted.boot = .running ∧ hosted.poison = [] ∧ still hosted = true ∧ 0x6FFFF < hosted.part.hbmBytes ∧ hosted.frameWorld 0x6FFFF = 0 ∧
    (∀ i < 8, hosted.frameState (0x6FFF8 + i) = 2 ∧ hosted.frameWorld (0x6FFF8 + i) = 0) ∧ (nth 0 hosted.hwin.toList 0).getLsbD 63 = false ∧
    ({ hosted with boot := .osStarting } : State).boot ≠ .running := by decide +kernel

/-- A saved team with its record in the page: magic, index 0, save sequence 5, and the tag that its save key gives, which is opaque. -/
def recordBase (n : ℕ) : State := poke 0x400F0 [5] (poke 0x40000 [0x53564C5A] (saving (cur (fun t => { t with saveSeq := 5 })
  ((savedAs n).modCluster 0 fun c => { c with saveSeq := [(0, 5)] }))))
def recordTag (n : ℕ) : BitVec 128 := Config.gmac ((recordBase n).saveKeyOf 0) (saveIv 0 0 5)
  ((List.range 4080).map fun i => (recordBase n).hbmByte (0x40000 + i))
def recorded (n : ℕ) : State := { recordBase n with
  hbm := (recordBase n).hbm ++ (List.range 16).map fun i => (0x40000 + 4080 + i, byteOf (recordTag n).toNat i) }

theorem recorded_facts : ∀ n ∈ [0, 1, 2], (recordBase n).hbm.all (fun c => decide (c.1 < 0x40000 + 4080)) = true ∧ (recorded n).poison = [] ∧
    (recorded n).ctxPlace 0 0x410000 0 = .ok ⟨.hbm 0x40000, .relCons, 0⟩ ∧ (recorded n).privateRange 0 0x410000 4096 0 = true ∧
    (recorded n).recordBytesOf 0 = 4096 ∧ (recorded n).recordAddr 0 0 = 0x410000 ∧ (recorded n).cur.recordIndex = 0 ∧
    keyGet ((recorded n).cluster 0).saveSeq 0 = 5 ∧ (recorded n).saveKeyOf 0 = (recordBase n).saveKeyOf 0 ∧
    ((recorded n).group (recorded n).cur.group).ctx = 0 ∧ 32 * (recorded n).cur.core + (recorded n).cur.slot = 0 ∧
    (recorded n).cur.saveSeq = 5 ∧ (recorded n).cur.cluster = 0 ∧
    leNat ((List.range 4).map fun i => (recordBase n).hbmByte (0x40000 + i)) = 0x53564C5A ∧
    leNat ((List.range 2).map fun i => (recordBase n).hbmByte (0x40000 + (0xE8 + i))) = 0 ∧
    leNat ((List.range 8).map fun i => (recordBase n).hbmByte (0x40000 + (0xF0 + i))) = 5 ∧
    named (recorded n) = true ∧ (recorded n).restoreCore (recorded n).cur = some 0 ∧ (recorded n).cur.escort = none ∧
    (recorded n).cur.tid ≠ 0 ∧ (recorded n).ctxActive 0 = true := by decide +kernel
theorem recorded_low (n : ℕ) {i : ℕ} (hi : i < 4080) : (recorded n).hbmByte (0x40000 + i) = (recordBase n).hbmByte (0x40000 + i) := by
  refine cellGet_append_low fun c hc => ?_
  obtain ⟨j, _, rfl⟩ := List.mem_map.1 hc
  show 0x40000 + i < 0x40000 + 4080 + j
  omega

theorem recorded_tag {n : ℕ} (h : (recordBase n).hbm.all (fun c => decide (c.1 < 0x40000 + 4080)) = true) :
    leNat ((List.range 16).map fun i => (recorded n).hbmByte (0x40000 + (4080 + i))) = (recordTag n).toNat := by
  have e : ((List.range 16).map fun i => (recorded n).hbmByte (0x40000 + (4080 + i))) = leBytes 16 (recordTag n).toNat := by
    refine List.map_congr_left fun i hi => ?_
    have hi := List.mem_range.1 hi
    rw [← Nat.add_assoc]
    refine (cellGet_append_high fun c hc => ?_).trans ?_
    · have := of_decide_eq_true (List.all_eq_true.1 h c hc)
      omega
    · generalize byteOf (recordTag n).toNat = f
      clear h
      interval_cases i <;> rfl
  rw [e, leNat_leBytes]
  exact Nat.mod_eq_of_lt (recordTag n).isLt

theorem test_meets_restore_record : ∀ n ∈ [0, 1, 2], (recorded n).checkRecord (recorded n).cur = .good := by
  intro n hn
  obtain ⟨h1, h2, h3, h4, h5, h6, h7, h8, h9, h10, h11, h12, h13, h14, h15, h16, _⟩ := recorded_facts n hn
  have low (o k : ℕ) (hk : o + k ≤ 4080) : ((List.range k).map fun i => (recorded n).hbmByte (0x40000 + (o + i))) =
      (List.range k).map fun i => (recordBase n).hbmByte (0x40000 + (o + i)) := by
    refine List.map_congr_left fun i hi => recorded_low n ?_
    have := List.mem_range.1 hi
    omega
  have low0 (k : ℕ) (hk : k ≤ 4080) : ((List.range k).map fun i => (recorded n).hbmByte (0x40000 + i)) =
      (List.range k).map fun i => (recordBase n).hbmByte (0x40000 + i) := by
    refine List.map_congr_left fun i hi => recorded_low n ?_
    have := List.mem_range.1 hi
    omega
  refine checkRecord_good (v := 65) (p := 4) (seq := 5) h2 h10 h5 ?_ h3 h4 ?_ ?_ ?_ ?_ h12 h9 ?_
  · rw [h7, h6]
  · exact (congrArg leNat (low0 4 (by decide))).trans h14
  · exact (congrArg leNat (low 0xE8 2 (by decide))).trans (h15.trans h7.symm)
  · exact (congrArg leNat (low 0xF0 8 (by decide))).trans h16
  · rw [h11, h13]
    exact h8
  · rw [h7]
    refine (recorded_tag h1).trans ?_
    exact (congrArg (fun l => (Config.gmac ((recordBase n).saveKeyOf 0) (saveIv 0 0 5) l).toNat) (low0 4080 (Nat.le_refl _))).symm

/-! ## Further clauses of the statements above -/

theorem test_meets_stepKeepsMasks : AllMasksOk dev ∧ ∃ t, step dev = .next t := by
  refine ⟨?_, test_meets_stepKeepsMemOk.2⟩
  have h : dev.others = [] ∧ ∀ k : MDst, dev.cur.m[k.val] &&& dev.cur.full = dev.cur.m[k.val] ∧ dev.cur.m[k.val] &&& dev.cur.dead = 0 := by decide +kernel
  rintro t (rfl | ht)
  · exact h.2
  · rw [h.1] at ht
    cases ht

/-- A tapered word of one 1 below its sign, the largest, and the least, as `FormatsDecode` reads them. -/
theorem test_meets_tapered :
    (let w := 0x40; let m := 1; let b := 1
      (∀ i, i < m → (w / 2 ^ (8 - 2 - i)) % 2 = b) ∧ (m < 8 - 1 → (w / 2 ^ (8 - 2 - m)) % 2 = 1 - b) ∧ w < 2 ^ (8 - 1)) ∧
    (let w := 0x7F; let m := 7; let b := 1
      (∀ i, i < m → (w / 2 ^ (8 - 2 - i)) % 2 = b) ∧ (m < 8 - 1 → (w / 2 ^ (8 - 2 - m)) % 2 = 1 - b) ∧ m ≤ 8 - 1) ∧
    (let w := 1; let m := 4; let b := 0
      (∀ i, i < m → (w / 2 ^ (6 - 2 - i)) % 2 = b) ∧ (m < 6 - 1 → (w / 2 ^ (6 - 2 - m)) % 2 = 1 - b) ∧ w < 2 ^ (6 - 1)) := by decide
/-- The largest and the least tapered value: 2^13 is above the one, 2^-13 below the other, and 1 between them. -/
theorem test_meets_encoding_tapered : (decodeFmt .t8 127, decodeFmt .t8 1) = (.fin false 1 12, .fin false 1 (-12)) := by decide +kernel

/-- An exact integer, a power of two and 1, for the functions that are rounded once. -/
theorem test_meets_specialFunctions_ordinary : decodeFmt .f32 0x40000000 = .fin false (2 ^ 23) (-22) ∧ decodeFmt .f32 0x3F800000 = .fin false (2 ^ 23) (-23) := by
  decide +kernel
theorem test_meets_butterfly : decodeWords true 0x6B040A18 none = .ok (.bfly 0 (some 4) 5 (.v 6)) := by decide
theorem test_meets_maskReaders : dev.cur.lwords ≤ 1 ∧ (1 : Fin 32).val < 32 := by decide +kernel

theorem test_meets_memory_ways : (∀ i ∈ [Instr.ld false .plain .dev .w64 .zx 8 (.v 2), .ld false .plain .dev .w64 .zx 8 (.v 6)],
    ((memShape i uses.cur).map fun m => m.raws.all fun r => uses.wayOpen uses.cur.cluster uses.curGroup.ctx m.kind r.va) = some true) := by
  decide +kernel
/-- Of a barrier of two, one arrival leaves the phase. -/
theorem test_meets_arwait_parks : Arrived (word (2 * 2 ^ 24)) 1 (word (2 * 2 ^ 24 + 1)) ∧ (word (2 * 2 ^ 24 + 1)).getLsbD 63 = false ∧
    bits (word (2 * 2 ^ 24 + 1)) 48 8 = bits (word (2 * 2 ^ 24)) 48 8 := by
  refine ⟨⟨fun h => ?_, fun _ => ?_⟩, by decide, by decide⟩
  · exact absurd h.1 (by decide)
  · exact ⟨by decide, by decide, by decide, by decide, by decide⟩
theorem test_meets_arwait_word : (let s := page 0 (2 * 2 ^ 24) words
    word (s.readAt (.hbm 0x40000) 8) = word (2 * 2 ^ 24) ∧ s.cur.uniSrc (.s 8) = 1 ∧ calm s = true ∧ s.cur.escort = none ∧
    s.escortFit s.cur s.cur.frameBytes = .fits ∧ s.cur.arrivedAt = none) := by decide +kernel
theorem test_meets_arwait_reaches : Reaches (page 0 (2 * 2 ^ 24) words) .either ((page 0 (2 * 2 ^ 24) words).cur.uniSrc (.s 4)).toNat 2 (pageAt 0) :=
  reaches_words (by decide +kernel)
theorem test_meets_lkacq_parks : (let s := quota lockWords
    calm s = true ∧ s.cur.escort = none ∧ s.escortFit s.cur s.cur.frameBytes = .fits ∧ bits (word (s.readAt (.hbm 0x40010) 8)) 24 32 = 9 ∧
    s.cur.group = 1 ∧ s.cur.uniSrc (.s 8) ≠ 0) := by decide +kernel
theorem test_meets_lkacq_reaches : Reaches (quota lockWords) .global ((quota lockWords).cur.uniSrc (.s 6)).toNat 2 (pageAt 16) :=
  reaches_words (by decide +kernel)
/-- A fulfilled promise, of which the group has an entry, and has none. -/
def promising (n : ℕ) : State := words.modGroup 1 fun g => { g with estate := List.replicate n ⟨3, 1, 0x410010, 0, 0, .dev, 0, 0, false, false⟩ }
theorem test_meets_prful_fulfilled : (∀ n ∈ [0, 1], calm (promising n) = true ∧ (promising n).cur.escort = none ∧
    (word ((promising n).readAt (.hbm 0x40010) 8)).getLsbD 63 = true ∧ ((promising n).group? 1).isSome = true ∧
    (findLast? (fun e : Holding => !e.reserved && e.obj == 0x410010) ((promising n).group 1).estate).isSome = decide (n = 1)) := by decide +kernel
theorem test_meets_prful_reaches : ∀ n ∈ [0, 1], Reaches (promising n) .global ((promising n).cur.uniSrc (.s 9)).toNat 2 (pageAt 16) := by
  intro n hn
  simp only [List.mem_cons, List.not_mem_nil, or_false] at hn
  rcases hn with rfl | rfl
  · exact reaches_words (by decide +kernel)
  · exact reaches_words (by decide +kernel)
/-- All four slots of the partition are valid, and none has the tag 6. -/
def tagsFull : State := tagged.modCluster 0 fun c => { c with tags := (List.range 4).map fun n => ⟨n, 100 + n, true, false, 1⟩ }
theorem test_meets_tags_full : tagsFull.poison = [] ∧ (let c := tagsFull.cluster 0
    bits tagsFull.cur.s[(5 : Fin 32)] 0 4 = 0 ∧ bits (c.partition 0).1 47 12 = 0 ∧ bits (c.partition 0).1 34 13 = 4 ∧
    (∀ e ∈ c.tags, e.tag ≠ bits tagsFull.cur.s[(6 : Fin 32)] 0 48) ∧ ∀ k < 4, (c.tag k).valid = true) := by decide +kernel
/-- A kick of group 9, which is not there. -/
def kickNone : State := put [(8, fields [(9, 0), (8, 32)])] kicking
theorem test_meets_kicks_none : calm kickNone = true ∧ bits (kickNone.cur.uniSrc (.s 8)) 32 22 = 8 ∧ kickNone.ownsSpad (kickNone.group 1) 8 8 = true ∧
    kickNone.group? (bits (kickNone.cur.uniSrc (.s 8)) 0 32) = none := by decide +kernel

/-- What a task reads of its group's scratchpad. -/
theorem taskRead_spad {s : State} {c : TaskCtx} {va n : ℕ} (hn : 0 < n) (hv : va + n ≤ 65536) (ho : s.ownsSpad c.g va n = true) (hp : s.poison = []) :
    s.taskRead c va n = (s, .ok (leBytes n (s.spadRead c.cl va n))) := by
  have hq : pagePieces va n = [(va, n)] := by
    unfold pagePieces
    rw [if_neg (by omega), show (va + n - 1) / 65536 + 1 - va / 65536 = 1 by omega]
    simp only [List.range_one, List.map_cons, List.map_nil, Nat.add_zero]
    rw [show max va (va / 65536 * 65536) = va by omega, show min (va + n) ((va / 65536 + 0 + 1) * 65536) - va = n by omega]
  have hw : s.wayOpen c.cl c.g.ctx .either va = true := by
    rw [State.wayOpen]
    simp [show va < 0x400000 by omega]
  have hpl : s.place c.cl c.g .either va n 0 = (s, .ok ⟨.spad c.cl va, .spad, 0⟩) := by
    rw [State.place, if_pos (.inr ⟨rfl, by omega⟩), if_pos ho]
  have ht : s.taskPlaces c 0 (pagePieces va n) = (s, .ok [(.spad c.cl va, n)]) := by
    rw [hq]
    simp only [State.taskPlaces, hw, hpl, State.taskTarget, Bool.not_true, Bool.false_eq_true, if_false, List.append_nil]
  have hl : s.poisonedAt (.spad c.cl va) n = false := by simp [State.poisonedAt, hp]
  simp only [State.taskRead, ht, State.piecesRead, List.find?_cons, hl, List.find?_nil]
  simp [State.readAt]

/-- Plantings of E5M2: a dense one of two rows and a sparse one of eight of 24 with its index plane in scratchpad, whose 240 rows
lie at one place; multiplications of one row. -/
def plantRec (sparse : ℕ) : List Word := [fields [(0, 0), (1, 4), (sparse, 9), (2, 27), (1, 37)], 0, fields [(512, 0), (4, 48)], 0, 0, 0, 8, 0]
def mulRec (acc : ℕ) : List Word := [fields [(1, 0), (1, 4), (acc, 8), (1, 11), (2, 27), (1, 37)], 0, fields [(512, 0), (4, 48)], 0, 0, 0, 0, 0]
def mulFar : List Word := [fields [(1, 0), (1, 4), (1, 11), (2, 27), (1, 37)], 0, fields [(0x500000, 0), (4, 48)], 0, 0, 0, 0, 0]
/-- A pool whose task reads 0x3C in each element, with its bank and accumulator; the index plane counts 0 to 7 in each eight. -/
def tileDev (l : List Word) (f : Engine → Engine) : State :=
  let s := (pooled .running l).modCluster 0 fun c => { c with e0 := f { c.e0 with bank0 := ⟨.dense, 4, [(0, 0x7F3C)], formChecks 4 [(0, 0x7F3C)], []⟩ } }
  (s.spadWrite 0 512 (List.replicate 240 0x3C)).spadWrite 0 8 ((List.range 240).map fun i => BitVec.ofNat 8 (i % 8))
def tileCtx (s : State) : TaskCtx := s.taskCtx 0 ((s.cluster 0).tasks.headD (taskOf .running []))

theorem test_meets_plantings : (∀ l ∈ [plantRec 0, plantRec 2, mulRec 0, mulRec 1, mulFar], (let s := tileDev l id
    still s = true ∧ (s.cluster 0).tasks = [taskOf .running l] ∧ s.engineOf 0 0 0 = true ∧ fmtOf (recFmt l) = some .e5m2 ∧ recN l = 1 ∧
    recM l ≤ 1 ∧ s.ownsSpad (tileCtx s).g 512 2 = true ∧ s.ownsSpad (tileCtx s).g 512 1 = true ∧ s.ownsSpad (tileCtx s).g 8 240 = true ∧
    0 < s.clusters.length ∧ (tileCtx s).cl = 0)) := by decide +kernel
theorem test_meets_plantings_reads (l : List Word) (h : l ∈ [plantRec 0, plantRec 2, mulRec 0, mulRec 1]) (n : ℕ) (hn : n = 1 ∨ n = 2) :
    (tileDev l id).taskRead (tileCtx (tileDev l id)) 512 n = (tileDev l id, .ok (leBytes n ((tileDev l id).spadRead 0 512 n))) := by
  have h' := test_meets_plantings l (by simp only [List.mem_cons, List.not_mem_nil, or_false] at h ⊢; tauto)
  obtain ⟨h1, -, -, -, -, -, h2, h3, -, -, h4⟩ := h'
  have hp := (still_of h1).poison
  rcases hn with rfl | rfl
  · have := taskRead_spad (c := tileCtx (tileDev l id)) (va := 512) (by decide) (by decide) h3 hp
    rwa [h4] at this
  · have := taskRead_spad (c := tileCtx (tileDev l id)) (va := 512) (by decide) (by decide) h2 hp
    rwa [h4] at this
theorem test_meets_plantings_plane : (tileDev (plantRec 2) id).taskRead (tileCtx (tileDev (plantRec 2) id)) 8 240 =
    (tileDev (plantRec 2) id, .ok (leBytes 240 ((tileDev (plantRec 2) id).spadRead 0 8 240))) := by
  obtain ⟨h1, -, -, -, -, -, -, -, h3, -, h4⟩ := test_meets_plantings (plantRec 2) (by decide)
  have := taskRead_spad (c := tileCtx (tileDev (plantRec 2) id)) (va := 8) (by decide) (by decide) h3 (still_of h1).poison
  rwa [h4] at this
/-- The plane's indices rise in each eight, and one that repeats does not. -/
theorem test_meets_plantings_index : ((leBytes 240 ((tileDev (plantRec 2) id).spadRead 0 8 240)).map BitVec.toNat) = (List.range 240).map (· % 8) ∧
    (∀ m < 240, m % 8 < 24 ∧ (m % 8 ≠ 0 → (m - 1) % 8 < m % 8)) ∧ ¬ (0 : ℕ) < 0 := by
  refine ⟨by decide +kernel, ?_, by decide⟩
  intro m hm
  omega
/-- A planting that suits no dense operand, poison in the planting and in the accumulator, a mismatch, and an operand that no
table maps. -/
theorem test_meets_multiplies : (∀ f ∈ [fun e : Engine => { e with bank0 := { e.bank0 with mode := .sparse 8 [] } },
      fun e => { e with bank0 := { e.bank0 with poison := [0] } }, fun e => { e with accPoison := [0] }, fun e => { e with mismatch := true }],
      still (tileDev (mulRec 1) f) = true) ∧
    (let y := ((tileDev (mulRec 1) id).cluster 0).e0
    y.bank0.mode = .dense ∧ y.bank0.poison = [] ∧ y.accPoison = [] ∧ y.mismatch = false ∧ y.lastMismatch = none ∧
    y.bank0.checks = formChecks y.bank0.fmt y.bank0.slots ∧ y.bank0.slots.length = 1) ∧
    (match ((tileDev mulFar id).taskRead (tileCtx (tileDev mulFar id)) 0x500000 2).2 with | .error (.held va acc) => va == 0x500000 && acc == 0 | _ => false) = true := by
  decide +kernel

/-- Drains of one row into scratchpad: as it is, as BF16, a block of 32 requantised, added, and modulo; and of a spoilt row. -/
def drainTo (mode n : ℕ) : List Word :=
  [fields [(2, 0), (1, 4), (1, 11), (1, 27), (n, 37), (mode, 45), (if mode = 3 then 5 else 0, 48), (if mode = 3 then 2 else 0, 52)], 0, 0, 0,
    fields [(512, 0), (32, 48)], if mode = 3 then 8 else 0, if mode = 7 then 3 else 0, 0]
theorem test_meets_drains : (∀ mode ∈ [0, 1, 2, 3, 4, 5, 6, 7], (let l := drainTo mode (if mode = 3 then 32 else 1)
    let s := tileDev l id
    still s = true ∧ (s.cluster 0).tasks = [taskOf .running l] ∧ (s.group? 1).isSome = true ∧ s.engineOf 0 0 0 = true ∧ recDrain l = mode ∧
    recM l = 1 ∧ (s.cluster 0).e0.accPoison = [] ∧ s.ownsSpad (s.group 1) 512 64 = true ∧ s.ownsSpad (s.group 1) 8 2 = true ∧
    64 ≤ recDpitch l ∧ recDaddr l = 512 ∧ s.faulty = [] ∧ (mode = 3 → (blockShape (recMxblk l)).1 ≤ 32 ∧ recMxfmt l = 5 ∧ recDsaddr l = 8) ∧
    (mode = 7 → recWord l 6 ≠ 0))) ∧ still (tileDev (drainTo 0 1) fun e => { e with accPoison := [0] }) = true := by decide +kernel

theorem test_meets_evaluate_bounds : (∀ l ∈ (staged 0 0).launches, l.stages.length ≤ 65536 ∧ ∀ x ∈ l.stages, x.cap = 0 ∨ 1 ≤ x.cap) ∧
    (staged 0 0).groups.length < 1000000 := by decide +kernel

/-- A promise unfulfilled in the page, conveyed; a lock whose heir is the supervisor queue; one whose stage test passed or failed. -/
def conveys (kind : ℕ) (obj heir : Word) : State :=
  let s := conveying heir 1
  (s.modGroup 1 fun g => { g with estate := [⟨0, kind, obj, heir, 64, .dev, 1, 0, false, false⟩] }).modCluster 0 fun c => { c with
    tasks := [taskOf .queued spadDrain]
    copies := [⟨9, 1, 0, 1, 0, 3, 256, 0, 8, 1, 0, 0, 0, 0, false, false, false⟩] }
def testing (passed : Bool) : State := (conveying (2 ^ 62) 1).modGroup 1 fun g => { g with tests := [⟨0, passed, 3, 2, 0, [], false⟩] }
def supq (n : ℕ) (s : State) : State := { s with launches := s.launches.map fun l => { l with supq := 0x410000, supn := n } }
theorem test_meets_convey_kinds : (∀ s ∈ [testing true, testing false, supq 4 (conveying (word (2 ^ 63)) 1), supq 0 (conveying (word (2 ^ 63)) 1), conveying 9 1,
      conveys 1 0x410008 (word (3 * 2 ^ 62)), conveys 1 0x410008 2, supq 4 (conveys 1 0x410008 (word (2 ^ 63)))],
    still s = true ∧ (s.groups.map Group.handle).Nodup ∧ (s.group 1).st = .conveying 2 false ∧ (s.group 1).estate.length = 1 ∧
    s.conveyHeld 1 = false ∧ s.ctxState 0 < 2 ∧ s.ctxPlace 0 0x410000 2 = .ok ⟨.hbm 0x40000, .relCons, 0⟩ ∧
    s.ctxPlace 0 0x410008 2 = .ok ⟨.hbm 0x40008, .relCons, 0⟩ ∧ bits (word (s.readAt (.hbm 0x40000) 8)) 24 32 = 1 ∧
    (word (s.readAt (.hbm 0x40008) 8)).getLsbD 63 = false) := by decide +kernel
theorem test_meets_convey_tests : (∀ b ∈ [true, false], ((testing b).group 1).tests = [⟨0, b, 3, 2, 0, [], false⟩]) ∧ bits (2 ^ 62 : Word) 62 2 = 1 ∧
    bits (2 ^ 62 : Word) 0 4 = 0 ∧ bits (word (2 ^ 63)) 62 2 = 2 ∧ (conveying 9 1).group? 9 = none := by decide +kernel
/-- Objects of each kind that are not words, for nobody and for group 2, which is alive beside it. -/
theorem test_meets_convey_objects : (∀ kind ∈ [2, 3, 4, 5, 6, 7], ∀ heir ∈ [3 * 2 ^ 62, 2], (let s := conveys kind 0 (word heir)
    still s = true ∧ (s.groups.map Group.handle).Nodup ∧ (s.group 1).st = .conveying 2 false ∧ (s.group 1).cluster < s.clusters.length ∧
    s.conveyHeld 1 = false ∧ s.ctxState 0 < 2 ∧ (s.group 2).ctx = (s.group 1).ctx ∧ (s.group 2).cluster = (s.group 1).cluster ∧
    (s.group? 2).isSome = true ∧ s.estateRoom 2 = true ∧ (s.group 2).st = .alive)) := by decide +kernel

/-! ## Engines, worlds, links -/

/-- Engine 0 of cluster 0, which context 0 has, with an image area at the writable page; what row 0 then says of it. -/
def engineDev (img : List EngineImg) (has : Bool) : State := poke 0x30030 [0x410000] { tasked 256 dev with engImgs := img }
  |>.modCluster 0 fun c => { c with e0 := { c.e0 with ctx := if has then some 0 else none }, quota := if has then c.quota else c.quota.set 0 (0, 0, 0) }
def engineImg : EngineImg := ⟨0, 0, 0, Engine.zero⟩
def rowOwner (s : State) (w0 : Word) (e : ℕ) : Option ℕ := ((List.finRange 16).find? fun i : Fin 16 =>
    let r : Word := if i = 0 then w0 &&& 0xFFFFFC0FFFFF8000 else (s.cluster 0).quota[i].1
    r.getLsbD 47 && r.getLsbD (44 + e)).map fun i : Fin 16 => bits (if i = 0 then w0 &&& 0xFFFFFC0FFFFF8000 else (s.cluster 0).quota[i].1) 48 16
/-- An image takes five pages, which lie in frames 4 to 8. -/
def imagePages (s : State) : State := poke 0x100000010 [fields [(0x4000, 0), (0x4000, 32)], fields [(0x4000, 0), (0x4000, 32)], 0x4000]
  (poke 0x13008 [0x4000000000040003, 0x4000000000050003, 0x4000000000060003, 0x4000000000070003, 0x4000000000080003] (moved s))
theorem test_meets_engine_taken : (let s := imagePages (engineDev [] true)
    still s = true ∧ ((s.cluster 0).engine 0).ctx = some 0 ∧ (∀ e < 3, e ≠ 0 → ((s.cluster 0).engine e).ctx = none ∧ rowOwner s 0 e = none) ∧
    rowOwner s 0 0 = none ∧ s.ctxActive 0 = true ∧ bits (s.descWord 0 6) 0 48 = 0x410000 ∧ s.privateRange 0 0x410000 0x41000 1 = true) := by
  decide +kernel
theorem test_meets_engine_pages : ∀ i, i < 0x41000 → ∃ pl, (imagePages (engineDev [] true)).ctxPlace 0 (0x410000 + i) 1 = .ok pl := by
  have h : ∀ k < 5, (imagePages (engineDev [] true)).ctxPlace 0 (65536 * (65 + k)) 1 =
      .ok ⟨.hbm (65536 * (4 + k)), .relCons, (65536 * (4 + k)) / 256 % 8⟩ := by decide +kernel
  intro i hi
  obtain ⟨sl, he⟩ := ctxPlace_page (h (i / 65536) (by omega)) (i := i % 65536) (by omega)
  rw [show 65536 * (65 + i / 65536) + i % 65536 = 0x410000 + i by omega] at he
  exact ⟨_, he⟩
theorem test_meets_engine_given : (let w0 := fields [(1, 47), (1, 44)]
    ∀ img ∈ [[], [engineImg]], (let s := imagePages (engineDev img false)
    still s = true ∧ ((s.cluster 0).engine 0).ctx = none ∧ (∀ e < 3, e ≠ 0 → ((s.cluster 0).engine e).ctx = none ∧ rowOwner s w0 e = none) ∧
    rowOwner s w0 0 = some 0 ∧ engineImg.ctx = 0 ∧ engineImg.unit = 0 ∧ s.privateRange 0 0x410000 0x41000 0 = true)) := by decide +kernel

theorem cellGet_absent {m : Memory} {a : ℕ} (h : ∀ c ∈ m, c.1 ≠ a) : cellGet m a = 0 := by
  induction m with
  | nil => rfl
  | cons c m ih =>
    obtain ⟨b, v⟩ := c
    have hb : b ≠ a := h _ (List.mem_cons_self ..)
    rw [cellGet, if_neg hb]
    split
    · rfl
    · exact ih fun c hc => h c (List.mem_cons_of_mem _ hc)
/-- No context is there whose descriptor nothing has written. -/
theorem ctxState_absent {s : State} {lo hi n : ℕ} (h : s.hbm.all (fun c => decide (c.1 < lo ∨ hi ≤ c.1)) = true)
    (hl : lo ≤ s.ctxbase.toNat + 64 * n) (hh : s.ctxbase.toNat + 64 * n + 8 ≤ hi) : s.ctxState n = 0 := by
  have hr : s.hbmRead (s.descAddr n 0) 8 = 0 := by
    have : memRead s.hbm (s.descAddr n 0) 8 = memRead [] (s.descAddr n 0) 8 := memRead_congr fun i hi' => by
      refine (cellGet_absent fun c hc => ?_).trans rfl
      have := of_decide_eq_true (List.all_eq_true.1 h c hc)
      simp only [State.descAddr]
      omega
    exact this
  rw [State.ctxState, State.descWord, hr]
  split <;> rfl

/-- Context 1 belongs to world 9, which has frame 7 and no other; a change of frame 7 that cluster 0 and a walk have cached. -/
def worldDev : State := poke 0x10000001C [fields [(0x94000, 0)]] (poke 0x30040 [1, fields [(9, 48)]] (moved dev))
theorem test_meets_destroy : still worldDev = true ∧ worldDev.ctxbase ≠ 0 ∧ worldDev.ctxWorld 1 = 9 ∧ worldDev.ctxState 1 = 1 ∧ worldDev.ctxWorld 0 ≠ 9 ∧
    worldDev.frameCount + 1 = worldDev.part.hbmBytes / 65536 + 1 ∧ clearOfTable worldDev 0x30040 8 ∧ 0x30040 % 8 = 0 ∧ worldDev.entryWorld 3 ≠ 9 ∧
    (∀ l ∈ worldDev.launches, l.ctx ≠ 1) ∧ worldDev.collectives = [] ∧ (worldDev.entryWorld 7, worldDev.entryState 7) = (9, 1) ∧
    bits (fields [(5, 60), (9, 0)]) 0 16 = 9 := by decide +kernel
theorem test_meets_destroy_one : ∀ n, n < 65536 →
    (worldDev.ctxWorld n = 9 ∧ (worldDev.ctxState n = 1 ∨ worldDev.ctxState n = 2) ↔ n = 1) := by
  have h : worldDev.hbm.all (fun c => decide (c.1 < 0x30080 ∨ 0x430000 ≤ c.1)) = true ∧ worldDev.ctxbase.toNat = 0x30000 := by decide +kernel
  obtain ⟨-, -, h1, h2, h3, -⟩ := test_meets_destroy
  intro n hn
  rcases Nat.lt_or_ge n 2 with h4 | h4
  · interval_cases n
    · simp [h3]
    · simp [h1, h2]
  · have := ctxState_absent (n := n) h.1 (by rw [h.2]; omega) (by rw [h.2]; omega)
    simp [this]
    omega
theorem test_meets_change_caches : (let s : State := { worldDev.modCluster 0 (fun c => { c with tlb := [⟨0, 0x410000, 0x10000, 0x4000000000070003⟩] }) with
      changes := [⟨0, [7], [1], 9, 1, true⟩], walked := [⟨0, 0x410000, 0x10000, 0x4000000000070003⟩] }
    still s = true ∧ s.walked.length = 1 ∧ 256 * bits (0x4000000000070003 : Word) 8 40 = 65536 * 7) := by decide +kernel
/-- A store into frame 7 that has been placed there, which the links to its die hold back. -/
def storing7 : Acc := accOf (.store .w64) .none { elemAt 0 .todo with tgt := some (.hbm 0x70000), slice := 5 }
def changing7 : State := abroad (frameOf (.access 0) .request) [storing7] { worldDev with changes := [⟨0, [7], [1], 9, 1, true⟩], seals := dev.seals.map fun b => { b with st := 0 } }
theorem test_meets_change_waits : (let u := (changing7.dropFrames [7]).1
    ∃ y ∈ u.teams, ∃ a ∈ y.accs, ∃ e ∈ a.elems, e.performed = false ∧ e.tgt = some (.hbm 0x70000) ∧ e.kind = .relCons) := by decide +kernel

/-- A sending block at its roll, before its warning and before its stall, on the package, at a pod port and at a Sett port. -/
def sending (j : Fin 86) (b : Seal) : State :=
  { sealed [] with seals := (sealed []).seals.set j b, settLinks := dev.settLinks.set 0 { Link.zero with replay := [flit 0] } }
def rolling : Seal := { Seal.zero with st := 1, curS := some 5, penS := some 6, pend := true, thr := 9, ctr := 9 }
def warning : Seal := { Seal.zero with st := 1, curS := some 5, thr := 9, ctr := 8 }
def stalling : Seal := { Seal.zero with st := 1, curS := some 5, ctr := 0xFFFFFFFFFFFE }
theorem test_meets_sends : (∀ j ∈ [(0 : Fin 86), 24, 54], ∀ b ∈ [rolling, warning, stalling], (let s := sending j b
    still s = true ∧ s.podOut = [] ∧ s.settOut = [] ∧ linkPresent s.part j.val = true ∧ s.seals[j].st = 1 ∧ s.seals[j].curS = some 5 ∧
    s.dirUp 0 = true ∧ s.podEn = true ∧ s.controlOut = [] ∧ s.settLinks[(0 : Fin 16)].up = true ∧
    s.settLinks[(0 : Fin 16)].replay[s.settLinks[(0 : Fin 16)].sent]? = some (flit 0))) ∧
    (rolling.pend = true ∧ rolling.thr ≤ rolling.ctr ∧ rolling.penS = some 6 ∧ rolling.thr ≠ 1) ∧ warning.ctr + 1 = warning.thr ∧
    stalling.ctr + 1 = 0xFFFFFFFFFFFF := by decide +kernel
/-- A receiving block that has the key of the next phase, on the package, at a pod port and at a Sett port. -/
def turning : Seal := { Seal.zero with st := 1, curR := some 5, rxCtr := some 6, penR := some 7 }
theorem test_meets_turns : (∀ j ∈ [(0 : Fin 86), 39, 70], (let s := sending j turning
    linkPresent s.part j.val = true ∧ s.seals[j].rxPh = false ∧ s.seals[j].penR = some 7 ∧ s.seals[j].lastUnder 7 = none)) := by decide +kernel
theorem test_meets_turns_first (ident : ℕ) : let v := sealUnit 7 ident 0 true 0
    let u := sealedUnitFrom v.cipher v.tag v.ctr (b2n v.phase + 2 * v.rest)
    u.phase ≠ turning.rxPh ∧ u.verifies 7 ident = true := by
  dsimp only
  rw [sealedUnitFrom_parts (sealUnit_fits (by norm_num))]
  exact ⟨Bool.noConfusion, sealUnit_verifies ..⟩
theorem test_meets_turns_bad : (sealedUnitFrom 0 0 0 1).phase = true := by decide +kernel

/-- A port with two flits outstanding on the wire since ck 0, resent `n` times; and one that has named its last good number. -/
def outstanding (sett : Bool) (n ck : ℕ) (stalled : Bool) : State :=
  let l := { Link.zero with replay := [flit 4, flit 5], sent := 2, resends := n }
  { dev with
    ck := ck
    podLinks := if sett then dev.podLinks else dev.podLinks.set 0 l
    settLinks := if sett then dev.settLinks.set 0 l else dev.settLinks
    seals := if stalled then dev.seals.set 24 { dev.seals[(24 : Fin 86)] with st := 2 } else dev.seals }
theorem test_meets_outstanding : (∀ sett ∈ [false, true], ∀ n ∈ [0, 14, 15], ∀ ck ∈ [159999, 160000], (let s := outstanding sett n ck false
    still s = true ∧ s.podOut = [] ∧ s.settOut = [] ∧ (s.seal (if sett then 54 else 24)).st ≠ 2 ∧ (s.linkOf sett 0).up = true ∧ (s.linkOf sett 0).sent = 2 ∧
    (s.linkOf sett 0).replay = [flit 4, flit 5] ∧ (s.linkOf sett 0).resends = n ∧ (s.linkOf sett 0).since = 0 ∧ s.collectives = [])) ∧
    ((outstanding false 0 160000 true).seal 24).st = 2 ∧ still (outstanding false 0 160000 true) = true := by decide +kernel
theorem test_meets_asked : (let s : State := { dev with podLinks := dev.podLinks.set 0 { Link.zero with asked := true } }
    still s = true ∧ s.podLinks[(0 : Fin 15)].asked = true ∧ s.podLinks[(0 : Fin 15)].up = true ∧ s.podLinks[(0 : Fin 15)].replay = [] ∧
    flitField (withCrc (2 ^ 81)) 80 16 ≠ (s.podLinks[(0 : Fin 15)].rxSeq + 1) % 65536) := by
  simp only [flitField_withCrc, Nat.reduceAdd, Nat.reduceLeDiff]
  decide +kernel
/-- A Sett port that has stalled, with a collective of the living context 1. -/
theorem test_meets_stall_sett : (let s : State := { stalledAt 54 16000000 false with collectives := [{ inFlight 63 with ctx := 1 }] }
    still s = true ∧ (s.seal 54).st = 2 ∧ (s.seal 54).stallAt = some 0 ∧ s.ctxState 1 = 1 ∧ (∀ l ∈ s.launches, l.ctx ≠ 1) ∧ clearOfTable s 0x30040 8 ∧
    s.settOut = []) := by decide +kernel

/-! ## Collectives, errors, audits, boot and attestation -/

/-- What a walk gives rests on the entries of its trail and on the ownership of their frames. -/
theorem walk_congr {s u : State} {w va B : ℕ} (hr : ∀ a, a + 8 ≤ B → u.hbmRead a 8 = s.hbmRead a 8)
    (hp : ∀ a, a + 8 ≤ B → u.framePrivate w a = s.framePrivate w a) :
    ∀ l t, (∀ a ∈ s.walkTrail va l t, a + 8 ≤ B) → u.walk w va l t = s.walk w va l t := by
  intro l
  induction l with
  | nil => intro t _; rfl
  | cons x l ih =>
    obtain ⟨sh, n⟩ := x
    intro t ht
    rw [State.walkTrail] at ht
    have ha := ht _ (List.mem_cons_self ..)
    rw [State.walk, State.walk]
    simp only [hr _ ha, hp _ ha]
    have hi := fun a h => ht a (List.mem_cons_of_mem _ h)
    revert hi
    generalize word (s.hbmRead (t + 8 * (va / 2 ^ sh % n)) 8) = e
    intro hi
    cases h0 : bitAt e 0 with
    | false => simp
    | true =>
      cases h1 : bitAt e 1 with
      | true => simp
      | false =>
        cases l with
        | nil => simp
        | cons y l =>
          simp only [h0, h1, Bool.not_false, Bool.and_self, if_true] at hi
          rw [ih _ hi]

/-- A die whose failure window is over, with the status records in frame 6. -/
def failing (others : SettDie) : State :=
  let x : SettDie := ⟨true, [1], true, false, some 0⟩
  let s := collecting false x []
  { s with
    sett := dev.sett.set 63 ⟨fields [(1, 63), (11, 56), (10, 15)], 17, fields [(3, 48), (0x60000, 0)], 0, 1, false, 0, 1, false⟩
    collectives := [{ inFlight 63 with dies := setNth (List.replicate 8 others) 1 x }] }
theorem test_meets_window : (∀ b ∈ [false, true], (let s := failing ⟨true, [1], true, b, some 0⟩
    still s = true ∧ s.settOut = [] ∧ s.settIn = [] ∧ s.fotbase.toNat = 0 ∧ (s.settEntry 63).staddr = 0x60000 ∧ (s.settEntry 63).nchk = 17 ∧
    s.ctxPlace 0 0x410000 2 = .ok ⟨.hbm 0x40000, .relCons, 0⟩ ∧ (s.walkTrail 0x410000 walkLevels (s.ptRoot 0)).all (fun a => decide (a + 8 ≤ 0x40000)) = true ∧
    s.descAddr 0 0 = 0x30000 ∧ s.descAddr 0 1 = 0x30008 ∧ (∀ c < 17, s.frameOk 0 (0x60000 + 8 * c) = true) ∧ (s.settEntry 63).world = 0 ∧
    (∀ k ∈ s.collectives, k.dies.length = 8 ∧ (k.die 1).stopAt = some 0 ∧ (k.die 1).arrived = false ∧ (∀ j < 8, j ≠ 1 → (k.die j).arrived = b)) ∧
    8000000 ≤ s.ck)) := by decide +kernel
theorem window_apart {s : State} (hf : s.fotbase.toNat = 0) (hpl : s.ctxPlace 0 0x410000 2 = .ok ⟨.hbm 0x40000, .relCons, 0⟩)
    (htr : (s.walkTrail 0x410000 walkLevels (s.ptRoot 0)).all (fun a => decide (a + 8 ≤ 0x40000)) = true) (h0 : s.descAddr 0 0 = 0x30000)
    (h1 : s.descAddr 0 1 = 0x30008) (hok : ∀ c < 17, s.frameOk 0 (0x60000 + 8 * c) = true) {m : Memory}
    (hm : ∀ pa, ¬ (0x60000 ≤ pa ∧ pa < 0x60000 + 8 * 17) → cellGet m pa = s.hbmByte pa) {u : State} (hu : u = { s with hbm := m }) :
    u.ctxPlace 0 0x410000 2 = .ok ⟨.hbm 0x40000, .relCons, 0⟩ ∧ ∀ c, c < 17 → u.frameOk 0 (0x60000 + 8 * c) = true := by
  have hr : ∀ a n, a + n ≤ 0x60000 → u.hbmRead a n = s.hbmRead a n := fun a n h => by
    subst hu
    exact memRead_congr fun i hi => hm _ (by omega)
  have he : ∀ pa, pa < 0x70000 → u.fotEntry pa = s.fotEntry pa := fun pa h => by
    have e : u.fotbase = s.fotbase := by subst hu; rfl
    rw [State.fotEntry, State.fotEntry, e]
    refine hr _ 4 ?_
    rw [hf]
    omega
  have hp : ∀ w a, a < 0x70000 → u.framePrivate w a = s.framePrivate w a ∧ u.frameOk w a = s.frameOk w a := fun w a h => by
    have e : u.part = s.part := by subst hu; rfl
    simp only [State.framePrivate, State.frameOk, State.frameState, State.frameWorld, he a h, e, and_self]
  have hd : ∀ i, i < 2 → u.descWord 0 i = s.descWord 0 i := fun i hi => by
    have e : u.descAddr 0 i = s.descAddr 0 i := by subst hu; rfl
    have ha : s.descAddr 0 i < 0x30010 := by
      interval_cases i
      · omega
      · omega
    rw [State.descWord, State.descWord, e, (hp _ _ (by omega)).2, hr _ 8 (by omega)]
  refine ⟨?_, fun c hc => ((hp 0 _ (by omega)).2).trans (hok c hc)⟩
  obtain ⟨hv, e, sh, hw, hl⟩ := ctxPlace_plain.1 hpl
  obtain ⟨l1, l2, l3, l4, l5, l6⟩ := useLeaf_plain.1 hl
  have hW : u.ctxWorld 0 = s.ctxWorld 0 := by simp only [State.ctxWorld, hd 1 (by decide)]
  refine ctxPlace_plain.2 ⟨hv, e, sh, ?_, useLeaf_plain.2 ⟨l1, l2, l3, l4, ?_, ?_⟩⟩
  · rw [← hw]
    unfold State.walkCtx
    rw [hW, show u.ptRoot 0 = s.ptRoot 0 by simp only [State.ptRoot, hd 0 (by decide)]]
    refine walk_congr (B := 0x40000) (fun a h => hr a 8 (by omega)) (fun a h => (hp _ a (by omega)).1) _ _ fun a ha => ?_
    exact of_decide_eq_true (List.all_eq_true.1 htr a ha)
  · rw [hW, (hp _ _ (by decide)).2]
    exact l5
  · rw [← l6]
    subst hu
    rfl
theorem test_meets_window_apart (b : Bool) {m : Memory} (hm : ∀ pa, ¬ (0x60000 ≤ pa ∧ pa < 0x60000 + 8 * 17) →
    cellGet m pa = (failing ⟨true, [1], true, b, some 0⟩).hbmByte pa) : let u := { failing ⟨true, [1], true, b, some 0⟩ with hbm := m }
    u.ctxPlace 0 0x410000 2 = .ok ⟨.hbm 0x40000, .relCons, 0⟩ ∧ ∀ c, c < 17 → u.frameOk 0 (0x60000 + 8 * c) = true := by
  obtain ⟨-, -, -, hf, -, -, hpl, htr, h0, h1, hok, -⟩ := test_meets_window b (by cases b <;> decide)
  exact window_apart hf hpl htr h0 h1 hok hm rfl

/-- Three devices in a ring: chunk 9 of base die 1 is this device's own, and of chunk 17 it stands second. -/
def partsOf (c contrib : ℕ) (complete : Bool) : List FlitBody :=
  (List.range 32).map fun i => .chunk 63 1 c i (((List.replicate 4096 0).drop (128 * i)).take 128) contrib complete
def ring3 (gather : Bool) (x : SettDie) (i : List FlitBody) : State := { collecting gather x i with
  sett := dev.sett.set 63 ⟨fields [(1, 63), (11, 56), (10, 15)], 18, fields [(7, 48)], 0, 1, false, 0, 1, false⟩ }
theorem test_meets_chunks_ring : (let s := ring3 false agreed (partsOf 9 7 true)
    ready_ s agreed = true ∧ s.settPlace (s.settEntry 63) 9 = 0 ∧ s.settRoom (settPort 1 true) = true) ∧
    (∀ g ∈ [false, true], (let s := ring3 g agreed (partsOf 17 4 g)
    ready_ s agreed = true ∧ s.settOut = [] ∧ (s.settEntry 63).members = [0, 1, 2] ∧ s.settPlace (s.settEntry 63) 17 = 1 ∧ (s.settEntry 63).before 17 1 = 4 ∧
    (∀ c ∈ [9, 17], c < (s.settEntry 63).nchk ∧ c % 8 = 1 ∧ s.frameOk 0 (0x50000 + 4096 * c) = true ∧ s.frameWorld (0x50000 + 4096 * c) = 0) ∧
    (∀ k ∈ s.collectives, (s.chunkStatus k 1).1 = 0 ∧ (s.chunkStatus k 17).1 = 0 ∧ (s.chunkStatus k 9).1 = 0))) := by decide +kernel
/-- Ports of every die with room, no die stopped; a stop of participants in common with this device's, and of others. -/
theorem test_meets_stops : (∀ b ∈ [false, true], (let x : SettDie := ⟨true, [1], true, b, none⟩
    let s := collecting false x []
    ready_ s x = true ∧ s.settOut = [] ∧ (s.settEntry 63).w0.getLsbD 63 = true ∧ (s.settEntry 63).pmask &&& 3 ≠ 0 ∧ (s.settEntry 63).pmask &&& 4 = 0 ∧
    s.settPeer true ≠ 2 ∧ (∀ h < 8, ∀ onward ∈ [false, true], (s.settLink (settPort h onward)).up = true ∧
      (s.settLink (settPort h onward)).replay.length + 32 ≤ 1024))) := by decide +kernel

/-- Lines of each memory and unit, whose die's ring has room; a record to merge with, and full rings. -/
def ringedAt (f : Die → Die) : State := { ringed with dies := ringed.dies.map f }
theorem test_meets_scrub : memOk ringed = true ∧ ringed.dies.length = ringed.part.dies ∧ ringed.scrub.getLsbD 63 = true ∧ ringed.stackOf (64 * 7) / 2 < 4 ∧
    (∀ d < 4, (ringed.die d).mcRecent = [] ∧ (ringed.die d).mcw - (ringed.die d).mcr < 4096) ∧ (ringed.team 1).cluster / 32 < 4 ∧ 127 / 32 < 4 ∧
    (ringed.group 1).cluster / 32 < 4 := by decide +kernel
def logged : McRec := ⟨7, 0, ringed.ck + Config.unitSkew 2 0, 0, 2, 0, 0, 1, 5⟩
theorem test_meets_merge_record : (let s := ringedAt fun d => { d with mcw := 1, mcRecent := [(0, logged)] }
    memOk s = true ∧ s.dies.length = s.part.dies ∧ (s.die 3).mcr ≤ 0 ∧ s.frameOk 0 (s.mcbase.toNat + 131072 * 3) = true ∧
    s.frameOk 0 (s.mcbase.toNat + 131072 * 3 + 31) = true) ∧
    (let s := ringedAt fun d => { d with mcw := 4096 }
    memOk s = true ∧ 4096 ≤ (s.die 3).mcw - (s.die 3).mcr ∧ (s.die 3).mcRecent = [] ∧ s.dies.length = s.part.dies) := by decide +kernel
theorem test_meets_merge_time : ringed.ck + Config.unitSkew 2 0 < logged.time + 16000000 ∧ logged.addr = 7 ∧ logged.kind = 2 ∧ logged.unit = 0 ∧
    logged.how = 1 := by
  refine ⟨?_, rfl, rfl, rfl, rfl⟩
  show ringed.ck + Config.unitSkew 2 0 < ringed.ck + Config.unitSkew 2 0 + 16000000
  omega
/-- A device whose one leaf, of 64 KiB at frame 2, is die-local to die 1, and one whose leaf is spread. -/
def leafDev (e : ℕ) : State := (State.reset.withFetchWord 32 0xA8000000).hbmWrite 0x13000 (leBytes 8 e)
theorem test_meets_placement : (∀ e ∈ [0x8500000000020003, 0x8000000000020003], (let s := leafDev e
    memOk s = true ∧ s.ctxbase ≠ 0 ∧ s.leaves walkLevels (s.ptRoot 0) = [(word e, 16)] ∧ (word e).getLsbD 51 = false ∧ bits (word e) 60 2 ≠ 3 ∧
    s.ctxState 0 ≠ 0 ∧ s.hbm.all (fun c => decide (c.1 < 0x30040 ∨ 0x430000 ≤ c.1)) = true ∧ s.ctxbase.toNat = 0x30000)) ∧
    bits (word 0x8500000000020003) 58 2 = 1 ∧ 256 * bits (word 0x8500000000020003) 8 40 = 0x20000 := by decide +kernel
theorem test_meets_placement_one (e : ℕ) (h : e ∈ [0x8500000000020003, 0x8000000000020003]) : ∀ m, m < 65536 → ((leafDev e).ctxState m ≠ 0 ↔ m = 0) := by
  obtain ⟨-, -, -, -, -, h1, h2, h3⟩ := test_meets_placement.1 e h
  intro m hm
  rcases Nat.eq_zero_or_pos m with rfl | h4
  · simp [h1]
  · have := ctxState_absent (n := m) h2 (by rw [h3]; omega) (by rw [h3]; omega)
    simp [this]
    omega

/-- An audit whose target is unit 3, and none; the units of two clusters that serve no context. -/
theorem test_meets_targets : (let s := (audited none).modCluster 1 fun c => { c with e0 := { c.e0 with target := true } }
    s.audits = [audit none] ∧ ((s.cluster 1).engine 0).target = true ∧ (∀ n ∈ [4, 6], ((s.cluster (n / 3)).engine (n % 3)).target = false) ∧
    (∀ c < s.clusters.length, ∀ e < 3, ((s.cluster c).engine e).target = true → c = 1 ∧ e = 0)) ∧
    (∀ c < (audited none).clusters.length, ∀ e < 3, (((audited none).cluster c).engine e).target = false) := by decide +kernel

theorem test_meets_bootChain : MemOk State.reset ∧ dev.boot ≠ .wiping := ⟨memOk_of (by decide +kernel), by decide +kernel⟩

/-- The world 4 has the page of its queue privately. -/
def queueWorld (n : ℕ) : State := (attesting n).hbmWrite 16 (leBytes 4 0x44000)
theorem test_meets_queue : (queueWorld 0).worlds = [⟨4, 77, 5, 6, 0x40000, [], [8]⟩] ∧ 0x40000 < (queueWorld 0).part.hbmBytes ∧ (queueWorld 0).frameWorld 0x40000 = 4 ∧
    (queueWorld 0).frameState 0x40000 = 1 ∧ (attesting 0).frameWorld 0x40000 ≠ 4 ∧ (queueWorld 0).live = true ∧
    (queueWorld 0).sessions = [⟨1, some 3, true, true, 77, 0⟩] := by decide +kernel
theorem test_meets_serves_stopped : (let s : State := { dev with boot := .stopped, rootUp := true }
    s.serves = true ∧ s.boot ≠ .running) := by decide +kernel
/-- Ports that a device of the pod stands at, with and without receiving and sending keys. -/
def joined (a : List LinkAuth) (k : Option ℕ) : State := { dev with
  podcfg := 0x80
  linkAuth := a
  seals := ((dev.seals.set 24 { dev.seals[(24 : Fin 86)] with curS := k }).set 39 { dev.seals[(39 : Fin 86)] with curR := k }) }
theorem test_meets_link_sessions : (∀ k ∈ [none, some 5], (let s := joined [] k
    s.serves = true ∧ s.portJoined 0 = true ∧ s.portJoined 16 = true ∧ linkPresent s.part 39 = true ∧ linkPresent s.part 70 = true ∧
    linkPresent s.part 24 = true ∧ linkPresent s.part 54 = true ∧ s.linkAuth = [] ∧ (s.seal 24).curS = k ∧ (s.seal 39).curR = k ∧
    (s.seal 24).spent = [] ∧ (s.seal 24).st ≠ 2)) ∧ (joined [⟨0, 3, 9⟩] none).linkAuth = [⟨0, 3, 9⟩] := by decide +kernel
theorem test_meets_link_key (k : ℕ) : ((joined [⟨0, 3, 9⟩] (some (k + 1))).seal 24).curS = some (k + 1) ∧ some (k + 1) ≠ some k :=
  ⟨rfl, by simp⟩
theorem test_meets_elements_memory : memOk (inPlace (storing .todo)) = true ∧ memOk buffered = true ∧ memOk updating = true ∧ memOk owned = true ∧
    memOk (collecting false agreed []) = true := by decide +kernel
/-! ## Results of single instructions, worked out by hand from the rules -/

/-- Every lane of v1, v2 and v3 holds `a`, `b` and `d`; s4, s5 and s6 hold them too, and s30 the modulus 17. -/
def triple (a b d : Word) : State :=
  put [(4, a), (5, b), (6, d), (30, 17)] (putV 3 (fun _ => d) (putV 2 (fun _ => b) (putV 1 (fun _ => a) dev)))
/-- The instruction completes and leaves `r` in lane 5 of v3. -/
def givesV (i : Instr) (a b d r : Word) : Bool := after (exec i (triple a b d)) fun t => t.cur.laneSrc 0 (.v 3) 5 == r
/-- The instruction completes and leaves `r` in s6. -/
def givesS (i : Instr) (a b d r : Word) : Bool := after (exec i (triple a b d)) fun t => t.cur.uniSrc (.s 6) == r

-- R121, with its own three saturation examples
theorem test_add_wraps : givesV (.add .w32 (some 3) (.v 1) (.v 2)) 0x00000001FFFFFFFF 0x0000000200000001 0 0x0000000300000000 = true := by
  decide +kernel
theorem test_addSat : givesV (.addSat .w8 (some 3) (.v 1) (.v 2)) 0x64 0x64 0 0x7F = true := by decide +kernel
theorem test_addSatu : givesV (.addSatu .w8 (some 3) (.v 1) (.v 2)) 0xC8 0x64 0 0xFF = true := by decide +kernel
theorem test_subSatu : givesV (.subSatu .w8 (some 3) (.v 1) (.v 2)) 0x05 0x09 0 0 = true := by decide +kernel
theorem test_sub_order : givesV (.sub .w16 (some 3) (.v 1) (.v 2)) 0x0000 0x0001 0 0xFFFF = true := by decide +kernel
theorem test_mulh_signs : givesV (.mulh .w16 (some 3) (.v 1) (.v 2)) 0x8000FFFF 0x80000001 0 0x4000FFFF = true := by decide +kernel
theorem test_mulhu : givesV (.mulhu .w16 (some 3) (.v 1) (.v 2)) 0xFFFF 0xFFFF 0 0xFFFE = true := by decide +kernel
theorem test_mad : givesV (.mad .w8 (some 3) (.v 1) (.v 2)) 0x10 0x11 0xF5 0x05 = true := by decide +kernel
theorem test_abs_most_negative : givesV (.abs .w8 (some 3) (.v 1)) 0x80FF7F00 0 0 0x80017F00 = true := by decide +kernel
theorem test_clz_zero : givesV (.clz .w32 (some 3) (.v 1)) 0x0000000000010000 0 0 0x000000200000000F = true := by decide +kernel
theorem test_shl_modulo : givesV (.shl .w8 (some 3) (.v 1) (.v 2)) 0x0101 0x0907 0 0x0280 = true := by decide +kernel
theorem test_sra_imm : givesV (.sraImm .w16 (some 3) (.v 1) 20) 0x8000 0 0 0xF800 = true := by decide +kernel
theorem test_li : givesV (.li .w32 (some 3) 0x7F) 0 0 0 0xFFFFFFFFFFFFFFFF = true := by decide +kernel
theorem test_pack : givesV (.pack .w32 (some 3) (.v 1) (.v 2)) 0xAAAA1111BBBB2222 0xCCCC3333DDDD4444 0 0x3333444411112222 = true := by
  decide +kernel
theorem test_unpack_signed : givesV (.unpack .w32 (some 3) (.v 1) (.v 2)) 0x8000000112345678 3 0 0xFFFF800000000001 = true := by
  decide +kernel
theorem test_swz : givesV (.swz .w16 (some 3) (.v 1) (.v 2)) 0x4444333322221111 0x80010203 0 0x0000222233334444 = true := by decide +kernel
-- R127, R128
theorem test_fadd : givesV (.fadd .f32 (some 3) (.v 1) (.v 2)) 0x3F800000 0x40000000 0 0x40400000 = true := by decide +kernel
theorem test_fma_single_rounding : givesV (.fma .f32 (some 3) (.v 1) (.v 2)) 0x3F800001 0x3F800001 0xBF800002 0x28800000 = true := by
  decide +kernel
theorem test_fmin_zeros : givesV (.fmin .f32 (some 3) (.v 1) (.v 2)) 0x00000000 0x80000000 0 0x80000000 = true := by decide +kernel
theorem test_fsub_invalid : after (exec (.fsub .f32 (some 3) (.v 1) (.v 2)) (triple 0x7F8000007F800000 0x7F8000007F800000 0)) (fun t =>
    t.cur.laneSrc 0 (.v 3) 5 == 0x7FC000007FC00000 && t.cur.fflags.getLsbD 4) = true := by decide +kernel
theorem test_fsqrt : givesV (.fsqrt .f64 (some 3) (.v 1)) 0x4022000000000000 0 0 0x4008000000000000 = true := by decide +kernel
theorem test_icvtf : givesV (.icvtf .f32 (some 3) (.v 1)) 0xFFFFFFFF00000003 0 0 0xBF80000040400000 = true := by decide +kernel
-- R135
theorem test_mmul : givesV (.mmul 2 (some 3) (.v 1) (.v 2)) 16 16 0 1 = true := by decide +kernel
theorem test_msub : givesV (.msub 2 (some 3) (.v 1) (.v 2)) 3 5 0 15 = true := by decide +kernel
-- R126: m2 takes the lanes of m0 whose element compares
theorem test_cmpLt_signed : after (exec (.cmpLt .w8 2 (.v 1) (.v 2)) (triple 0xFF 0x01 0)) (fun t =>
    t.cur.mask 2 == t.cur.mask 0 && t.cur.mask 2 != 0) = true := by decide +kernel
theorem test_cmpLtu : after (exec (.cmpLtu .w8 2 (.v 1) (.v 2)) (triple 0xFF 0x01 0)) (fun t => t.cur.mask 2 == 0) = true := by
  decide +kernel
-- R94
theorem test_sdiv_zero : givesS (.sdiv (some 6) (.s 4) (.s 5)) 7 0 0 0xFFFFFFFFFFFFFFFF = true := by decide +kernel
theorem test_sdiv_negative : givesS (.sdiv (some 6) (.s 4) (.s 5)) 0xFFFFFFFFFFFFFFF9 2 0 0xFFFFFFFFFFFFFFFD = true := by decide +kernel
theorem test_srem_sign : givesS (.srem (some 6) (.s 4) (.s 5)) 0xFFFFFFFFFFFFFFF9 2 0 0xFFFFFFFFFFFFFFFF = true := by decide +kernel
theorem test_smulh : givesS (.smulh (some 6) (.s 4) (.s 5)) 0xFFFFFFFFFFFFFFFF 1 0 0xFFFFFFFFFFFFFFFF = true := by decide +kernel
theorem test_sshl_modulo : givesS (.sshl (some 6) (.s 4) (.s 5)) 3 65 0 6 = true := by decide +kernel
theorem test_saddImm : givesS (.saddImm (some 6) (.s 4) 0x7FF) 1 0 9 0 = true := by decide +kernel
theorem test_sandImm : givesS (.sandImm (some 6) (.s 4) 0x7FF) 0xFFFFFFFF 0 0 0x7FF = true := by decide +kernel
-- R66, and the four examples of R67
theorem test_slim : givesS (.slim 6 0x3FFFF) 0 0 1 0x00003FFFF0000001 = true := by decide +kernel
theorem test_sliF32 : givesS (.sliF32 6 0x3FC0) 0 0 9 0x3FC00000 = true := by decide +kernel
theorem test_sliF16 : givesS (.sliF16 6 0x4049) 0 0 9 0x4248 = true := by decide +kernel
theorem test_sliF16_overflow : givesS (.sliF16 6 0x4780) 0 0 9 0x7C00 = true := by decide +kernel
theorem test_sliF64_nan : givesS (.sliF64 6 0xFFC1) 0 0 9 0x7FF8000000000000 = true := by decide +kernel
theorem test_scmp : givesS (.scmp .ltu (some 6) (.s 4) (.s 5)) 1 0xFFFFFFFFFFFFFFFF 0 1 = true := by decide +kernel
-- R97, R100: the code stands at 0x40_0000
theorem test_bc_taken : after (exec (.bc .lt (.s 5) (.s 4) 0x1FF) (triple 1 0xFFFFFFFFFFFFFFFF 0)) (fun t => t.cur.pc == 0x3FFFFC) = true := by
  decide +kernel
theorem test_call : after (exec (.call 6 3) (triple 0 0 0)) (fun t => t.cur.pc == 0x40000C && t.cur.uniSrc (.s 6) == 0x400004) = true := by
  decide +kernel
theorem test_loop : after (exec (.loop 4 2) (triple 2 0 0)) (fun t => t.cur.pc == 0x400008 && t.cur.uniSrc (.s 4) == 1) = true := by
  decide +kernel
theorem test_dvg : after (exec (.dvg 2 5) dev) (fun t => t.cur.mask 0 == 0 && t.cur.pc == 0x400014 && t.cur.stack == [dev.cur.mask 0]) = true := by
  decide +kernel
theorem test_cvg_empty : after (exec .cvg dev) (fun t => t.cur.st == .stopping && t.cur.tcause == 0x0A && t.cur.tinfo == 0x40002 && t.cur.pc == 0x400000) =
    true := by decide +kernel
-- R106, R109
theorem test_swr_frm : after (exec (.swr .frm (.s 4)) (triple 3 0 0)) (fun t => t.cur.frm == 3 && t.cur.pc == 0x400004) = true := by
  decide +kernel
-- R153, R161: what the accesses give once they are performed; the page stands in frame 4 at 0x4_0000
/-- Performs what the team has in flight, and delivers its results. -/
def perform (s : State) : State := s.cur.accs.foldl (fun s a => (s.performAcc s.cur.tid a.seq).deliverAcc s.cur.tid a.seq) s
theorem test_ldu : after (exec (.ldu .plain .dev .w32 (some 6) (.s 4) (.s 5)) (page 8 0x1122334455667788 (triple 0x410000 8 0))) (fun t =>
    (perform t).cur.uniSrc (.s 6) == 0x55667788) = true := by decide +kernel
theorem test_stu : after (exec (.stu .rel .dev .w16 (.s 6) (.s 4) (.s 5)) (page 8 0x1122334455667788 (triple 0x410000 8 0xABCDEF))) (fun t =>
    ((perform t).drainTeam 1).hbmRead 0x40008 8 == 0x112233445566CDEF) = true := by decide +kernel
theorem test_atomu : after (exec (.atomu .plain .dev (.int .add .w64) (some 6) (.s 4)) (page 8 5 (triple 0x410008 0 7))) (fun t =>
    let u := perform t
    u.cur.uniSrc (.s 6) == 5 && u.hbmRead 0x40008 8 == 12) = true := by decide +kernel

end Sys2Proof.Tests
end

section
/-! PROOFS. The formats with a biased exponent: what the fields of a code stand for (R15), and the codes from zero to the
largest finite magnitude as multiples of the smallest subnormal. -/
namespace Sys2Proof
open Sys2Proof.Machine

variable {f : Fmt} {c e fr : ℕ} {neg : Bool}

/-! ## The shape of a code -/

theorem bits_of_isBinary (hf : isBinary f) : f.bits = 1 + f.expBits + f.fracBits := by
  rcases hf with rfl | rfl | rfl | rfl | rfl | rfl | rfl <;> rfl

theorem decodeFmt_of_isBinary (hf : isBinary f) (c : ℕ) : decodeFmt f c = decodeBin f (c % 2 ^ f.bits) := by
  rcases hf with rfl | rfl | rfl | rfl | rfl | rfl | rfl <;> rfl

theorem encodeFmt_fin (hf : isBinary f) (mode : RMode) (sat ftz neg : Bool) (m : ℕ) (e : ℤ) :
    encodeFmt f mode sat ftz (.fin neg m e) = encodeBin f mode sat ftz neg m e := by
  rcases hf with rfl | rfl | rfl | rfl | rfl | rfl | rfl <;> rfl

/-- The magnitude field of a code: exponent and fraction together. -/
theorem magnitude_lt (hf : isBinary f) (he : e < 2 ^ f.expBits) (hfr : fr < 2 ^ f.fracBits) :
    e * 2 ^ f.fracBits + fr < 2 ^ (f.bits - 1) := by
  rw [bits_of_isBinary hf, show 1 + f.expBits + f.fracBits - 1 = f.expBits + f.fracBits by omega, pow_add]
  calc e * 2 ^ f.fracBits + fr < (e + 1) * 2 ^ f.fracBits := by rw [add_mul]; omega
    _ ≤ _ := Nat.mul_le_mul_right _ he

theorem signCode_add_lt (hf : isBinary f) (hc : c < 2 ^ (f.bits - 1)) (neg : Bool) : signCode f neg + c < 2 ^ f.bits := by
  have hb := bits_of_isBinary hf
  have h2 : 2 ^ f.bits = 2 * 2 ^ (f.bits - 1) := by rw [← pow_succ']; congr 1; omega
  cases neg <;> simp [signCode, b2n] <;> omega

/-- The value of a code by its sign, exponent and fraction fields. -/
theorem decodeFmt_fields (hf : isBinary f) (he : e < 2 ^ f.expBits) (hfr : fr < 2 ^ f.fracBits) :
    decodeFmt f (signCode f neg + (e * 2 ^ f.fracBits + fr)) =
      if f = .e4m3 ∧ e = 15 ∧ fr = 7 then .nan false
      else if e = 2 ^ f.expBits - 1 ∧ f ≠ .e4m3 ∧ f ≠ .e2m1 then
        if fr = 0 then .inf neg else .nan (!fr.testBit (f.fracBits - 1))
      else if e = 0 then .fin neg fr (1 - (f.bias : ℤ) - f.fracBits)
      else .fin neg (2 ^ f.fracBits + fr) ((e : ℤ) - f.bias - f.fracBits) := by
  have hm := magnitude_lt hf he hfr
  have hb : f.bits - 1 = f.expBits + f.fracBits := by rw [bits_of_isBinary hf]; omega
  have hsign : signCode f neg = b2n neg * 2 ^ (f.expBits + f.fracBits) := by rw [signCode, hb]
  rw [decodeFmt_of_isBinary hf, Nat.mod_eq_of_lt (signCode_add_lt hf hm neg)]
  rw [hb] at hm
  set c := signCode f neg + (e * 2 ^ f.fracBits + fr) with hc
  have hfrac : c % 2 ^ f.fracBits = fr := by
    rw [hc, hsign, pow_add, ← mul_assoc, ← add_assoc, ← add_mul, Nat.mul_add_mod_self_right, Nat.mod_eq_of_lt hfr]
  have hexp : c / 2 ^ f.fracBits % 2 ^ f.expBits = e := by
    rw [hc, hsign, pow_add, ← mul_assoc, ← add_assoc, ← add_mul, Nat.add_comm, Nat.add_mul_div_right _ _ (Nat.two_pow_pos _),
      Nat.div_eq_of_lt hfr, Nat.zero_add]
    rw [Nat.mul_add_mod_self_right, Nat.mod_eq_of_lt he]
  have hneg : (c / 2 ^ (f.expBits + f.fracBits) % 2 == 1) = neg := by
    rw [hc, hsign, Nat.add_comm, Nat.add_mul_div_right _ _ (Nat.two_pow_pos _), Nat.div_eq_of_lt hm]
    cases neg <;> rfl
  have hquiet : (fr / 2 ^ (f.fracBits - 1) % 2 == 0) = !fr.testBit (f.fracBits - 1) := by
    rw [Nat.testBit_eq_decide_div_mod_eq]
    rcases Nat.mod_two_eq_zero_or_one (fr / 2 ^ (f.fracBits - 1)) with h | h <;> simp [h]
  simp only [decodeBin, Nat.add_comm f.expBits, hfrac, hexp, ← hquiet]
  rw [Nat.add_comm f.fracBits, hneg]

/-- Every code is its sign, its exponent field and its fraction field. -/
theorem code_eq_fields (hf : isBinary f) (hc : c < 2 ^ f.bits) :
    c = signCode f (c.testBit (f.bits - 1)) +
      (c / 2 ^ f.fracBits % 2 ^ f.expBits * 2 ^ f.fracBits + c % 2 ^ f.fracBits) := by
  have hb : f.bits - 1 = f.fracBits + f.expBits := by rw [bits_of_isBinary hf]; omega
  have hlow : c / 2 ^ f.fracBits % 2 ^ f.expBits * 2 ^ f.fracBits + c % 2 ^ f.fracBits = c % 2 ^ (f.bits - 1) := by
    rw [hb, pow_add, Nat.mod_mul]; ring
  have hhigh : b2n (c.testBit (f.bits - 1)) = c / 2 ^ (f.bits - 1) := by
    have h2 : 2 ^ f.bits = 2 ^ (f.bits - 1) * 2 := by rw [← pow_succ]; congr 1; rw [bits_of_isBinary hf]; omega
    have hlt : c / 2 ^ (f.bits - 1) < 2 := Nat.div_lt_of_lt_mul (h2 ▸ hc)
    rw [Nat.testBit_eq_decide_div_mod_eq, Nat.mod_eq_of_lt hlt]
    generalize c / 2 ^ (f.bits - 1) = k at hlt
    interval_cases k <;> rfl
  rw [signCode, hlow, hhigh, Nat.div_add_mod']

/-- `decodeFmt_fields` at a code's own fields (R15). -/
theorem decodeFmt_code (hf : isBinary f) (hc : c < 2 ^ f.bits) :
    decodeFmt f c =
      let e := c / 2 ^ f.fracBits % 2 ^ f.expBits
      let fr := c % 2 ^ f.fracBits
      let neg := c.testBit (f.bits - 1)
      if f = .e4m3 ∧ e = 15 ∧ fr = 7 then .nan false
      else if e = 2 ^ f.expBits - 1 ∧ f ≠ .e4m3 ∧ f ≠ .e2m1 then
        if fr = 0 then .inf neg else .nan (!fr.testBit (f.fracBits - 1))
      else if e = 0 then .fin neg fr (1 - (f.bias : ℤ) - f.fracBits)
      else .fin neg (2 ^ f.fracBits + fr) ((e : ℤ) - f.bias - f.fracBits) := by
  conv_lhs => rw [code_eq_fields hf hc]
  exact decodeFmt_fields hf (Nat.mod_lt _ (Nat.two_pow_pos _)) (Nat.mod_lt _ (Nat.two_pow_pos _))

end Sys2Proof
end

section
/-! PROOFS. Tapered words (R19), and the obligation on what the words of a format stand for (O9). -/
namespace Sys2Proof
open Sys2Proof.Machine

/-! ## Binary formats (R15) -/

theorem isCode_of_exponent_zero {f : Fmt} {c : ℕ} (hf : isBinary f) (hc : c < 2 ^ f.bits)
    (he : c / 2 ^ f.fracBits % 2 ^ f.expBits = 0) :
    IsCode f c (c.testBit (f.bits - 1)) (2 ^ (1 - f.bias : ℤ) * ((c % 2 ^ f.fracBits : ℕ) / 2 ^ f.fracBits)) := by
  have hE : 2 ^ f.expBits - 1 ≠ 0 := by rcases hf with rfl | rfl | rfl | rfl | rfl | rfl | rfl <;> decide
  refine ⟨hc, c % 2 ^ f.fracBits, 1 - (f.bias : ℤ) - f.fracBits, ?_, ?_⟩
  · rw [decodeFmt_code hf hc]
    simp [he, hE.symm]
  · rw [zpow_sub₀ two_ne_zero, zpow_natCast]
    ring

theorem isCode_of_normal {f : Fmt} {c : ℕ} (hf : isBinary f) (hc : c < 2 ^ f.bits)
    (he : 0 < c / 2 ^ f.fracBits % 2 ^ f.expBits)
    (hn : c / 2 ^ f.fracBits % 2 ^ f.expBits < 2 ^ f.expBits - 1 ∨ f = .e2m1 ∨ (f = .e4m3 ∧ c % 2 ^ f.fracBits ≠ 7)) :
    IsCode f c (c.testBit (f.bits - 1))
      (2 ^ ((c / 2 ^ f.fracBits % 2 ^ f.expBits : ℕ) - f.bias : ℤ) * (1 + (c % 2 ^ f.fracBits : ℕ) / 2 ^ f.fracBits)) := by
  set e := c / 2 ^ f.fracBits % 2 ^ f.expBits
  set fr := c % 2 ^ f.fracBits
  refine ⟨hc, 2 ^ f.fracBits + fr, (e : ℤ) - f.bias - f.fracBits, ?_, ?_⟩
  · have hnan : ¬ (f = .e4m3 ∧ e = 15 ∧ fr = 7) := by
      rintro ⟨rfl, h15, h7⟩
      rcases hn with h | h | ⟨-, h⟩
      · simp [Fmt.expBits, h15] at h
      · cases h
      · exact h h7
    have htop : ¬ (e = 2 ^ f.expBits - 1 ∧ f ≠ .e4m3 ∧ f ≠ .e2m1) := by
      rintro ⟨h1, h2, h3⟩
      rcases hn with h | h | ⟨h, -⟩
      · omega
      · exact h3 h
      · exact h2 h
    rw [decodeFmt_code hf hc]
    show (if f = .e4m3 ∧ e = 15 ∧ fr = 7 then _ else _) = _
    rw [if_neg hnan, if_neg htop, if_neg he.ne']
  · rw [zpow_sub₀ two_ne_zero, zpow_natCast]
    push_cast
    field_simp

theorem decodeFmt_special {f : Fmt} {c : ℕ} (hf : isBinary f) (hc : c < 2 ^ f.bits)
    (he : c / 2 ^ f.fracBits % 2 ^ f.expBits = 2 ^ f.expBits - 1) (h2 : f ≠ .e2m1) (h4 : f ≠ .e4m3) :
    decodeFmt f c = if c % 2 ^ f.fracBits = 0 then .inf (c.testBit (f.bits - 1))
      else .nan (!(c % 2 ^ f.fracBits).testBit (f.fracBits - 1)) := by
  rw [decodeFmt_code hf hc]
  simp [he, h2, h4]

/-! ## Tapered formats (R19) -/

/-- The run of a regime: `m` bits equal to `b` from bit `i - 1` downward, and its end unless it reaches bit 0. -/
theorem runLength_eq (w : ℕ) (b : Bool) (i m : ℕ) (hm : m ≤ i)
    (hrun : ∀ k, k < m → (w / 2 ^ (i - 1 - k) % 2 == 1) = b) (hend : m < i → (w / 2 ^ (i - 1 - m) % 2 == 1) ≠ b) :
    runLength w b i = m := by
  induction i generalizing m with
  | zero => simp [runLength, Nat.le_zero.1 hm]
  | succ i ih =>
    cases m with
    | zero => simpa [runLength] using hend (Nat.succ_pos i)
    | succ m =>
      have hfirst : (w / 2 ^ i % 2 == 1) = b := hrun 0 (Nat.succ_pos m)
      have hrest : runLength w b i = m := by
        refine ih m (Nat.le_of_succ_le_succ hm) (fun k hk => ?_) (fun hk => ?_)
        · rw [show i - 1 - k = i + 1 - 1 - (k + 1) by omega]
          exact hrun (k + 1) (Nat.succ_lt_succ hk)
        · rw [show i - 1 - m = i + 1 - 1 - (m + 1) by omega]
          exact hend (Nat.succ_lt_succ hk)
      simp [runLength, hfirst, hrest, Nat.add_comm]

theorem decodeTapered_positive {n w : ℕ} (h0 : 0 < w) (hw : w < 2 ^ (n - 1)) (hn : 0 < n) :
    decodeTapered n w = .fin false (taperedMag n w).1 (taperedMag n w).2 := by
  have h2 : 2 ^ n = 2 * 2 ^ (n - 1) := by rw [← pow_succ']; congr 1; omega
  have hmod : w % 2 ^ n = w := Nat.mod_eq_of_lt (by omega)
  simp [decodeTapered, hmod, h0.ne', hw.ne, Nat.div_eq_of_lt hw]

theorem decodeTapered_negative {n w : ℕ} (h0 : 0 < w) (hw : w < 2 ^ (n - 1)) (hn : 0 < n) :
    decodeTapered n (2 ^ n - w) = .fin true (taperedMag n w).1 (taperedMag n w).2 := by
  have h2 : 2 ^ n = 2 * 2 ^ (n - 1) := by rw [← pow_succ']; congr 1; omega
  have hmod : (2 ^ n - w) % 2 ^ n = 2 ^ n - w := Nat.mod_eq_of_lt (by omega)
  have hsign : (2 ^ n - w) / 2 ^ (n - 1) = 1 := by
    rw [Nat.div_eq_iff (Nat.two_pow_pos _)]; omega
  have hback : 2 ^ n - (2 ^ n - w) = w := by omega
  have hne0 : 2 ^ n - w ≠ 0 := by omega
  have hnar : 2 ^ n - w ≠ 2 ^ (n - 1) := by omega
  simp [decodeTapered, hmod, hsign, hback, hne0, hnar]

/-- The magnitude of a tapered word from its regime of `m` bits equal to `b`, its exponent bit and its fraction. -/
theorem taperedMag_value {n w m b : ℕ} (h1 : 1 ≤ m) (hm : m ≤ n - 1) (hb : b < 2)
    (hrun : ∀ i, i < m → w / 2 ^ (n - 2 - i) % 2 = b) (hend : m < n - 1 → w / 2 ^ (n - 2 - m) % 2 = 1 - b) :
    let left := n - 2 - m
    let e : ℕ := if 0 < left then w % 2 ^ left / 2 ^ (left - 1) else 0
    ((taperedMag n w).1 : ℝ) * 2 ^ (taperedMag n w).2 =
      2 ^ (2 * (if b = 1 then (m : ℤ) - 1 else -m) + e) *
        (1 + if 1 < left then ((w % 2 ^ (left - 1) : ℕ) : ℝ) / 2 ^ (left - 1) else 0) := by
  intro left e
  have hfirst : w / 2 ^ (n - 2) % 2 = b := hrun 0 h1
  have hm' : runLength w (b == 1) (n - 1) = m := by
    refine runLength_eq w _ _ m hm (fun k hk => ?_) (fun hk => ?_)
    · rw [show n - 1 - 1 - k = n - 2 - k by omega, hrun k hk]
    · rw [show n - 1 - 1 - m = n - 2 - m by omega, hend hk]
      interval_cases b <;> decide
  have hlen : n - 1 - m - 1 = left := by omega
  have he : (if left = 0 then 0 else w % 2 ^ left / 2 ^ (left - 1)) = e := by
    rcases Nat.eq_zero_or_pos left with h | h
    · simp [e, h]
    · simp [e, h, h.ne']
  have hfr : w % 2 ^ left % 2 ^ (left - 1) = w % 2 ^ (left - 1) :=
    Nat.mod_mod_of_dvd _ (pow_dvd_pow 2 (Nat.sub_le _ _))
  have hk : (if (b == 1) = true then (m : ℤ) - 1 else -(m : ℤ)) = if b = 1 then (m : ℤ) - 1 else -m := by
    simp
  simp only [taperedMag, hfirst, hm', hlen, he, hfr, hk]
  rw [zpow_sub₀ two_ne_zero, zpow_natCast]
  push_cast
  by_cases h : 1 < left
  · simp only [if_pos h]
    field_simp
  · have : left - 1 = 0 := by omega
    simp [h, this, Nat.mod_one]

theorem isCode_tapered {f : Fmt} {n w : ℕ} (hf : (f = .t8 ∧ n = 8) ∨ (f = .t6 ∧ n = 6)) (h0 : 0 < w)
    (hw : w < 2 ^ (n - 1)) :
    IsCode f w false ((taperedMag n w).1 * 2 ^ (taperedMag n w).2) ∧
      IsCode f (2 ^ n - w) true ((taperedMag n w).1 * 2 ^ (taperedMag n w).2) := by
  have hn : 0 < n := by omega
  have hbits : f.bits = n ∧ decodeFmt f = decodeTapered n := by
    rcases hf with ⟨rfl, rfl⟩ | ⟨rfl, rfl⟩ <;> exact ⟨rfl, rfl⟩
  have h2 : 2 ^ n = 2 * 2 ^ (n - 1) := by rw [← pow_succ']; congr 1; omega
  unfold IsCode
  rw [hbits.1, hbits.2]
  exact ⟨⟨by omega, _, _, decodeTapered_positive h0 hw hn, rfl⟩,
    ⟨by omega, _, _, decodeTapered_negative h0 hw hn, rfl⟩⟩

/-! ## Scales (R22) -/

theorem isCode_scale {c : ℕ} (hc : c < 255) : IsCode .e8m0 c false (2 ^ (c - 127 : ℤ)) := by
  have hmod : c % 256 = c := Nat.mod_eq_of_lt (by omega)
  refine ⟨show c < 256 by omega, 1, (c : ℤ) - 127, ?_, by simp⟩
  simp [decodeFmt, hmod, hc.ne]

/-! ## O9 -/

/-- Settles O9: the binary formats by their fields, the scale by its exponent, the tapered words by their regime. -/
theorem formatsDecode : Obligations.FormatsDecode := by
  unfold Obligations.FormatsDecode
  refine ⟨?binary, ?layout, fun c hc => isCode_scale hc, by decide, ?tapered, ?zero⟩
  case binary =>
    intro f c hf hc
    refine ⟨bits_of_isBinary hf, isCode_of_exponent_zero hf hc, isCode_of_normal hf hc, ?_, ?_⟩
    · intro he h2 h4
      rw [decodeFmt_special hf hc he h2 h4]
      exact ⟨fun h => if_pos h, fun h => if_neg h⟩
    · rintro rfl he h7
      rw [decodeFmt_code hf hc]
      exact if_pos ⟨rfl, he, h7⟩
  case layout =>
    rintro f (rfl | rfl | rfl | rfl | rfl | rfl | rfl) <;> rfl
  case tapered =>
    intro f n w m e b frac hf h0 hw hrun hend h1 hm hb left he hfrac v
    have hleft : (m < n - 1 ∧ 0 < left) ↔ 0 < left := by omega
    have hv : v = (taperedMag n w).1 * 2 ^ (taperedMag n w).2 := by
      rw [taperedMag_value h1 hm hb hrun hend, ← hfrac]
      simp only [v, he, hleft]
      rfl
    rw [hv]
    exact isCode_tapered hf h0 hw
  case zero =>
    rintro f (rfl | rfl)
    · exact ⟨⟨by decide, 0, 0, rfl, by simp⟩, by decide⟩
    · exact ⟨⟨by decide, 0, 0, rfl, by simp⟩, by decide⟩

end Sys2Proof
end

section
/-! PROOFS. One rounding (R26, R27, R31): the integer rounding of the model against the rounding of a real number, the codes of a
binary format as multiples of its smallest subnormal, and an encoding in a binary format. -/
namespace Sys2Proof
open Sys2Proof.Machine

/-! ## Rounding to an integer -/

@[simp] theorem roundsUp_zero (mode : RMode) (neg : Bool) (n k : ℕ) : roundsUp mode neg n 0 k = false := by
  have : ¬ 0 = 2 ^ k := (Nat.two_pow_pos k).ne
  cases mode <;> simp [roundsUp, this]

theorem floor_add_fraction (n : ℕ) {r k : ℕ} (hr : r < 2 ^ k) : ⌊(n : ℝ) + r / 2 ^ k⌋₊ = n := by
  have h0 : (0 : ℝ) ≤ r / 2 ^ k := by positivity
  have h1 : (r : ℝ) / 2 ^ k < 1 := by rw [div_lt_one (by positivity)]; exact_mod_cast hr
  rw [Nat.floor_eq_iff (by positivity)]
  constructor <;> linarith

theorem ceil_add_fraction (n : ℕ) {r k : ℕ} (hr : r < 2 ^ k) :
    ⌈(n : ℝ) + r / 2 ^ k⌉₊ = if r = 0 then n else n + 1 := by
  split
  · next h => simp [h]
  · next h =>
    have h0 : (0 : ℝ) < r / 2 ^ k := by have := Nat.pos_of_ne_zero h; positivity
    have h1 : (r : ℝ) / 2 ^ k < 1 := by rw [div_lt_one (by positivity)]; exact_mod_cast hr
    rw [Nat.ceil_eq_iff (Nat.succ_ne_zero n), Nat.succ_sub_one]
    push_cast
    constructor <;> linarith

/-- Nearest-even of a magnitude `n + r / 2^k`, by whether its fraction is below, at or above one half. -/
theorem roundedReal_fraction_rne (neg : Bool) (n : ℕ) {r k : ℕ} (hr : r < 2 ^ k) :
    RoundedReal .rne neg ((n : ℝ) + r / 2 ^ k) (if roundsUp .rne neg n r k then n + 1 else n) := by
  have hp : (0 : ℝ) < 2 ^ k := by positivity
  have h0 : (0 : ℝ) ≤ r / 2 ^ k := by positivity
  have hcmp : ∀ c : ℝ, (r : ℝ) / 2 ^ k < c ↔ (r : ℝ) < c * 2 ^ k := fun c => div_lt_iff₀ hp
  have hcmp' : ∀ c : ℝ, c < (r : ℝ) / 2 ^ k ↔ c * 2 ^ k < (r : ℝ) := fun c => lt_div_iff₀ hp
  have h1 : (r : ℝ) / 2 ^ k < 1 := by rw [hcmp, one_mul]; exact_mod_cast hr
  rcases lt_trichotomy (2 * r) (2 ^ k) with h | h | h
  · have hr' : (r : ℝ) / 2 ^ k < 1 / 2 := by
      rw [hcmp]; have : (2 * r : ℝ) < 2 ^ k := by exact_mod_cast h
      linarith
    have hup : roundsUp .rne neg n r k = false := by simp [roundsUp, h.ne, h.le]
    simp only [RoundedReal, hup, Bool.false_eq_true, if_false, add_sub_cancel_left, abs_of_nonneg h0]
    exact ⟨hr'.le, fun he => absurd he hr'.ne⟩
  · have hr' : (r : ℝ) / 2 ^ k = 1 / 2 := by
      rw [div_eq_iff hp.ne']; have : (2 * r : ℝ) = 2 ^ k := by exact_mod_cast h
      linarith
    have hup : roundsUp .rne neg n r k = (n % 2 == 1) := by simp [roundsUp, h]
    simp only [RoundedReal, hup, hr']
    rcases Nat.mod_two_eq_zero_or_one n with hn | hn
    · simp [hn, abs_of_pos]
    · have : (n + 1) % 2 = 0 := by omega
      simp only [hn, this, beq_self_eq_true, if_true, implies_true, and_true]
      push_cast
      rw [abs_le]
      constructor <;> linarith
  · have hr' : 1 / 2 < (r : ℝ) / 2 ^ k := by
      rw [hcmp']; have : (2 ^ k : ℝ) < 2 * r := by exact_mod_cast h
      linarith
    have hup : roundsUp .rne neg n r k = true := by simp [roundsUp, h]
    have habs : |(n : ℝ) + r / 2 ^ k - (n + 1 : ℕ)| = 1 - r / 2 ^ k := by
      push_cast
      rw [abs_of_nonpos (by linarith)]
      ring
    simp only [RoundedReal, hup, if_true, habs]
    exact ⟨by linarith, fun he => by linarith⟩

/-- The model's decision to round up a magnitude `n + r / 2^k` is the rounding of R26 and R27. -/
theorem roundedReal_fraction (mode : RMode) (neg : Bool) (n : ℕ) {r k : ℕ} (hr : r < 2 ^ k) :
    RoundedReal mode neg ((n : ℝ) + r / 2 ^ k) (if roundsUp mode neg n r k then n + 1 else n) := by
  have hfloor := floor_add_fraction n hr
  have hceil := ceil_add_fraction n hr
  cases mode with
  | rtz => simp [RoundedReal, roundsUp, hfloor]
  | rup => cases neg <;> simp [RoundedReal, roundsUp, hfloor, hceil]
  | rdn => cases neg <;> simp [RoundedReal, roundsUp, hfloor, hceil]
  | rsr b =>
    have hbits : ⌊((n : ℝ) + r / 2 ^ k - n) * 2 ^ 24⌋₊ = r * 16777216 / 2 ^ k := by
      rw [← Nat.floor_div_eq_div (K := ℝ)]
      congr 1
      push_cast
      ring
    simp only [RoundedReal, roundsUp, hfloor, hbits, decide_eq_true_eq]
    split <;> rfl
  | rne => exact roundedReal_fraction_rne neg n hr

/-- A rounded magnitude is one of the two integers around it. -/
theorem RoundedReal.bounds {mode : RMode} {neg : Bool} {x : ℝ} {k : ℕ} (hx : 0 ≤ x) (h : RoundedReal mode neg x k) :
    ⌊x⌋₊ ≤ k ∧ k ≤ ⌊x⌋₊ + 1 := by
  have hceil : ⌈x⌉₊ ≤ ⌊x⌋₊ + 1 := Nat.ceil_le_floor_add_one x
  have hfc : ⌊x⌋₊ ≤ ⌈x⌉₊ := Nat.floor_le_ceil x
  cases mode with
  | rtz => simp only [RoundedReal] at h; omega
  | rup => simp only [RoundedReal] at h; split at h <;> omega
  | rdn => simp only [RoundedReal] at h; split at h <;> omega
  | rsr b => simp only [RoundedReal] at h; split at h <;> omega
  | rne =>
    obtain ⟨h, -⟩ := h
    rw [abs_le] at h
    have hlo := Nat.floor_le hx
    have hhi := Nat.lt_floor_add_one x
    constructor
    · have : (⌊x⌋₊ : ℝ) < k + 1 := by linarith
      exact Nat.lt_succ_iff.1 (by exact_mod_cast this)
    · have : (k : ℝ) < ⌊x⌋₊ + 1 + 1 := by linarith
      exact Nat.lt_succ_iff.1 (by exact_mod_cast this)

theorem roundedReal_natCast_bounds {mode : RMode} {neg : Bool} {x : ℝ} {k : ℕ} (hx : 0 ≤ x) (h : RoundedReal mode neg x k) (n : ℕ) :
    (x < n → k ≤ n) ∧ ((n : ℝ) ≤ x → n ≤ k) := by
  obtain ⟨hlo, hhi⟩ := h.bounds hx
  refine ⟨fun hn => ?_, fun hn => (Nat.le_floor hn).trans hlo⟩
  have := (Nat.floor_lt hx).2 hn
  omega

/-- The model's rounding of m * 2^e to a multiple of 2^q: the rounding of R26, and whether it was inexact. -/
theorem roundAt_spec (mode : RMode) (neg : Bool) (m : ℕ) (e q : ℤ) :
    RoundedReal mode neg ((m : ℝ) * 2 ^ e / 2 ^ q) (roundAt mode neg m e q).1 ∧
      ((roundAt mode neg m e q).2 = true ↔ ((roundAt mode neg m e q).1 : ℝ) * 2 ^ q ≠ m * 2 ^ e) := by
  have hq : (2 : ℝ) ^ q ≠ 0 := by positivity
  unfold roundAt
  split
  · next h =>
    have hx : (m : ℝ) * 2 ^ e / 2 ^ q = ((m * 2 ^ (e - q).toNat : ℕ) : ℝ) + (0 : ℕ) / 2 ^ 0 := by
      push_cast
      rw [← zpow_natCast, Int.toNat_of_nonneg (by omega), zpow_sub₀ two_ne_zero]
      ring
    constructor
    · rw [hx]
      simpa only [roundsUp_zero, Bool.false_eq_true, if_false] using
        roundedReal_fraction mode neg (m * 2 ^ (e - q).toNat) (r := 0) (k := 0) one_pos
    · rw [div_eq_iff hq] at hx
      simp [hx]
  · next h =>
    set k := (q - e).toNat with hk
    have hx : (m : ℝ) * 2 ^ e / 2 ^ q = (m / 2 ^ k : ℕ) + ((m % 2 ^ k : ℕ) : ℝ) / 2 ^ k := by
      have hm : (m : ℝ) = 2 ^ k * (m / 2 ^ k : ℕ) + (m % 2 ^ k : ℕ) := by exact_mod_cast (Nat.div_add_mod m (2 ^ k)).symm
      have he : (2 : ℝ) ^ q = 2 ^ e * 2 ^ k := by
        rw [← zpow_natCast, hk, Int.toNat_of_nonneg (by omega), ← zpow_add₀ two_ne_zero]; congr 1; ring
      rw [he, mul_comm, mul_div_mul_left _ _ (by positivity : (2 : ℝ) ^ e ≠ 0), hm]
      field_simp
    have hr : m % 2 ^ k < 2 ^ k := Nat.mod_lt _ (Nat.two_pow_pos k)
    constructor
    · rw [hx]
      exact roundedReal_fraction mode neg _ hr
    · rw [div_eq_iff hq] at hx
      rw [hx, ne_eq, mul_left_inj' hq]
      by_cases h0 : m % 2 ^ k = 0
      · simp [h0]
      · have hfrac : 0 < ((m % 2 ^ k : ℕ) : ℝ) / 2 ^ k := by have := Nat.pos_of_ne_zero h0; positivity
        have hlt : ((m % 2 ^ k : ℕ) : ℝ) / 2 ^ k < 1 := by rw [div_lt_one (by positivity)]; exact_mod_cast hr
        simp only [bne_iff_ne, ne_eq, h0, not_false_eq_true, true_iff]
        split
        · push_cast; intro hc; linarith
        · intro hc; linarith

theorem log2Floor_bounds {m : ℕ} (hm : m ≠ 0) (e : ℤ) :
    (2 : ℝ) ^ log2Floor m e ≤ m * 2 ^ e ∧ (m : ℝ) * 2 ^ e < 2 ^ (log2Floor m e + 1) := by
  have hlo : (2 ^ m.log2 : ℝ) ≤ m := by exact_mod_cast Nat.log2_self_le hm
  have hhi : (m : ℝ) < 2 ^ (m.log2 + 1) := by exact_mod_cast Nat.lt_log2_self
  have he : (0 : ℝ) < 2 ^ e := by positivity
  unfold log2Floor
  rw [add_right_comm, zpow_add₀ two_ne_zero, zpow_add₀ two_ne_zero]
  exact ⟨mul_le_mul_of_nonneg_right (by exact_mod_cast hlo) he.le, mul_lt_mul_of_pos_right (by exact_mod_cast hhi) he⟩

/-! ## The codes of a binary format from zero up -/

/-- The magnitude of code `c` with `F` fraction bits, in multiples of the smallest subnormal (R15). -/
def binUnits (F c : ℕ) : ℕ := if c < 2 ^ F then c else (2 ^ F + c % 2 ^ F) * 2 ^ (c / 2 ^ F - 1)

/-- A significand of at most 2^(F + 1), a carry out of the fraction included, in the code that the encoder forms of it. -/
theorem binUnits_eq {F d k : ℕ} (hk : k ≤ 2 ^ (F + 1)) (hd : d = 0 ∨ 2 ^ F ≤ k) : binUnits F (d * 2 ^ F + k) = k * 2 ^ d := by
  have hp : 0 < 2 ^ F := Nat.two_pow_pos F
  rw [pow_succ'] at hk
  rcases lt_or_ge k (2 ^ F) with hlt | hge
  · obtain rfl : d = 0 := by omega
    simp [binUnits, hlt]
  · have hbig : ¬ d * 2 ^ F + k < 2 ^ F := by omega
    rw [binUnits, if_neg hbig]
    rcases hk.lt_or_eq with hlt | rfl
    · obtain ⟨r, rfl⟩ : ∃ r, k = 2 ^ F + r := ⟨k - 2 ^ F, by omega⟩
      have hr : r < 2 ^ F := by omega
      rw [show d * 2 ^ F + (2 ^ F + r) = (d + 1) * 2 ^ F + r by ring, Nat.mul_add_mod_self_right, Nat.mod_eq_of_lt hr,
        Nat.add_comm ((d + 1) * 2 ^ F), Nat.add_mul_div_right _ _ hp, Nat.div_eq_of_lt hr]
      simp
    · rw [show d * 2 ^ F + 2 * 2 ^ F = (d + 2) * 2 ^ F by ring, Nat.mul_mod_left, Nat.mul_div_cancel _ hp,
        show d + 2 - 1 = d + 1 by omega]
      ring

theorem binUnits_strictMono (F : ℕ) : StrictMono (binUnits F) := by
  refine strictMono_nat_of_lt_succ fun c => ?_
  -- the significand of a code, and the same code with one more
  have hstep : ∀ d k, k + 1 ≤ 2 ^ (F + 1) → (d = 0 ∨ 2 ^ F ≤ k) → binUnits F (d * 2 ^ F + k) < binUnits F (d * 2 ^ F + k + 1) := by
    intro d k hk hd
    rw [Nat.add_assoc, binUnits_eq (by omega) hd, binUnits_eq hk (by omega)]
    exact Nat.mul_lt_mul_of_pos_right (Nat.lt_succ_self k) (Nat.two_pow_pos d)
  have hmod : c % 2 ^ F < 2 ^ F := Nat.mod_lt _ (Nat.two_pow_pos F)
  have hdiv := Nat.div_add_mod' c (2 ^ F)
  have hp := pow_succ' 2 F
  rcases Nat.eq_zero_or_pos (c / 2 ^ F) with h | h
  · have hc : c < 2 ^ F := (Nat.div_eq_zero_iff_lt (Nat.two_pow_pos _)).1 h
    simpa using hstep 0 c (by omega) (Or.inl rfl)
  · obtain ⟨d, hd⟩ : ∃ d, c / 2 ^ F = d + 1 := ⟨c / 2 ^ F - 1, by omega⟩
    have hc : c = d * 2 ^ F + (2 ^ F + c % 2 ^ F) := by rw [hd] at hdiv; linarith
    rw [hc]
    exact hstep d _ (by omega) (Or.inr (Nat.le_add_right _ _))

theorem binUnits_zero (F : ℕ) : binUnits F 0 = 0 := by simp [binUnits]

theorem binUnits_two_pow (F : ℕ) : binUnits F (2 ^ F) = 2 ^ F := by simp [binUnits]

/-- The smallest subnormal of a binary format. -/
noncomputable def leastUnit (f : Fmt) : ℝ := 2 ^ ((1 - f.bias : ℤ) - f.fracBits)

theorem leastUnit_pos (f : Fmt) : 0 < leastUnit f := by unfold leastUnit; positivity

/-- The largest magnitude is that of the largest code (R17). -/
theorem largest_eq {f : Fmt} (hf : isBinary f) : largest f = binUnits f.fracBits f.maxCode * leastUnit f := by
  have key : ∀ F d k : ℕ, k ≤ 2 ^ (F + 1) → 2 ^ F ≤ k → f.fracBits = F → f.maxCode = d * 2 ^ F + k →
      largest f = k * 2 ^ ((d : ℤ) + ((1 - f.bias : ℤ) - F)) → largest f = binUnits f.fracBits f.maxCode * leastUnit f := by
    intro F d k hk hF hfrac hmax hval
    rw [hval, hfrac, hmax, binUnits_eq hk (Or.inr hF), leastUnit, hfrac, zpow_add₀ two_ne_zero, zpow_natCast]
    push_cast
    ring
  have split : ∀ F g : ℤ, (2 - (2 : ℝ) ^ (-F)) * 2 ^ g = (2 * 2 ^ F - 1) * 2 ^ (g - F) := by
    intro F g
    rw [zpow_sub₀ two_ne_zero, zpow_neg]
    field_simp
  rcases hf with rfl | rfl | rfl | rfl | rfl | rfl | rfl
  · refine key 52 2045 (2 ^ 53 - 1) (by norm_num) (by norm_num) rfl (by norm_num [Fmt.maxCode]) ?_
    rw [largest, split 52 1023]
    norm_num [Fmt.bias]
  · refine key 23 253 (2 ^ 24 - 1) (by norm_num) (by norm_num) rfl (by norm_num [Fmt.maxCode]) ?_
    rw [largest, split 23 127]
    norm_num [Fmt.bias]
  · exact key 10 29 (2 ^ 11 - 1) (by norm_num) (by norm_num) rfl (by norm_num [Fmt.maxCode]) (by norm_num [largest, Fmt.bias])
  · refine key 7 253 (2 ^ 8 - 1) (by norm_num) (by norm_num) rfl (by norm_num [Fmt.maxCode]) ?_
    rw [largest, split 7 127]
    norm_num [Fmt.bias]
  · exact key 2 29 (2 ^ 3 - 1) (by norm_num) (by norm_num) rfl (by norm_num [Fmt.maxCode]) (by norm_num [largest, Fmt.bias])
  · exact key 3 14 14 (by norm_num) (by norm_num) rfl (by norm_num [Fmt.maxCode]) (by norm_num [largest, Fmt.bias])
  · exact key 1 2 3 (by norm_num) (by norm_num) rfl (by norm_num [Fmt.maxCode]) (by norm_num [largest, Fmt.bias])

/-- A code up to the largest has an exponent field, and is no special value. -/
theorem fields_of_le_maxCode {f : Fmt} (hf : isBinary f) {c : ℕ} (hc : c ≤ f.maxCode) :
    c / 2 ^ f.fracBits < 2 ^ f.expBits ∧ ¬ (f = .e4m3 ∧ c / 2 ^ f.fracBits = 15 ∧ c % 2 ^ f.fracBits = 7) ∧
      ¬ (c / 2 ^ f.fracBits = 2 ^ f.expBits - 1 ∧ f ≠ .e4m3 ∧ f ≠ .e2m1) := by
  rcases hf with rfl | rfl | rfl | rfl | rfl | rfl | rfl <;>
    simp only [Fmt.maxCode, Fmt.fracBits, Fmt.expBits] at hc ⊢ <;>
    refine ⟨by omega, ?_, ?_⟩ <;> simp <;> omega

theorem isCode_of_le_maxCode {f : Fmt} (hf : isBinary f) {c : ℕ} (hc : c ≤ f.maxCode) (neg : Bool) :
    IsCode f (signCode f neg + c) neg (binUnits f.fracBits c * leastUnit f) := by
  obtain ⟨he, hnan, htop⟩ := fields_of_le_maxCode hf hc
  have hfr : c % 2 ^ f.fracBits < 2 ^ f.fracBits := Nat.mod_lt _ (Nat.two_pow_pos _)
  have hdiv := Nat.div_add_mod' c (2 ^ f.fracBits)
  have hlt := signCode_add_lt hf (hdiv ▸ magnitude_lt hf he hfr) neg
  have hdec := decodeFmt_fields hf he hfr (neg := neg)
  rw [if_neg hnan, if_neg htop, hdiv] at hdec
  by_cases h0 : c / 2 ^ f.fracBits = 0
  · have hsmall : c < 2 ^ f.fracBits := (Nat.div_eq_zero_iff_lt (Nat.two_pow_pos _)).1 h0
    rw [if_pos h0, Nat.mod_eq_of_lt hsmall] at hdec
    exact ⟨hlt, _, _, hdec, by rw [binUnits, if_pos hsmall, leastUnit]⟩
  · have hbig : ¬ c < 2 ^ f.fracBits := fun h => h0 (Nat.div_eq_of_lt h)
    rw [if_neg h0] at hdec
    refine ⟨hlt, _, _, hdec, ?_⟩
    obtain ⟨d, hd⟩ : ∃ d, c / 2 ^ f.fracBits = d + 1 := Nat.exists_eq_succ_of_ne_zero h0
    rw [binUnits, if_neg hbig, leastUnit, hd, Nat.add_sub_cancel,
      show ((d + 1 : ℕ) : ℤ) - f.bias - f.fracBits = (d : ℤ) + ((1 - f.bias : ℤ) - f.fracBits) by push_cast; ring,
      zpow_add₀ two_ne_zero, zpow_natCast]
    push_cast
    ring

theorem isCode_signCode {f : Fmt} (hf : isBinary f) (neg : Bool) : IsCode f (signCode f neg) neg 0 := by
  simpa [binUnits_zero] using isCode_of_le_maxCode hf (Nat.zero_le f.maxCode) neg

end Sys2Proof
end

section
/-! PROOFS. An encoding in a binary format rounds once (R18, R26, R27, R31). -/
namespace Sys2Proof
open Sys2Proof.Machine

variable {f : Fmt}

/-- The formats with infinities (R15). -/
def HasInf (f : Fmt) : Prop := f = .f64 ∨ f = .f32 ∨ f = .f16 ∨ f = .bf16 ∨ f = .e5m2

theorem isBinary_of_hasInf (hf : HasInf f) : isBinary f := by unfold HasInf at hf; unfold isBinary; tauto

theorem hasInf_of_isBinary (hf : isBinary f) (h4 : f ≠ .e4m3) (h2 : f ≠ .e2m1) : HasInf f := by
  unfold isBinary at hf
  unfold HasInf
  tauto

/-! ## Overflow (R31) -/

theorem decodeFmt_infCode (hf : HasInf f) (neg : Bool) :
    signCode f neg + f.infCode < 2 ^ f.bits ∧ decodeFmt f (signCode f neg + f.infCode) = .inf neg := by
  rcases hf with rfl | rfl | rfl | rfl | rfl <;> cases neg <;> decide

/-- The table of R31 with the model's own name for the modes that deliver an infinity. -/
theorem overflowCode_iff (mode : RMode) (sat neg : Bool) (c : ℕ) :
    OverflowCode f mode sat neg c ↔
      if f = .e2m1 ∨ sat = true ∨ overflowsToInf mode neg = false then IsCode f c neg (largest f)
      else if f = .e4m3 then c = if neg then 0xFF else 0x7F
      else c < 2 ^ f.bits ∧ decodeFmt f c = .inf neg := by
  cases mode <;> exact Iff.rfl

theorem overflowCode_spec (hf : isBinary f) (mode : RMode) (sat neg : Bool) :
    OverflowCode f mode sat neg (overflowCode f mode sat neg) := by
  rw [overflowCode_iff, overflowCode]
  have hcond : (decide (f = .e2m1) || sat || !overflowsToInf mode neg) = true ↔
      f = .e2m1 ∨ sat = true ∨ overflowsToInf mode neg = false := by simp [or_assoc]
  by_cases h1 : f = .e2m1 ∨ sat = true ∨ overflowsToInf mode neg = false
  · rw [if_pos h1, if_pos (hcond.2 h1), largest_eq hf]
    exact isCode_of_le_maxCode hf le_rfl neg
  · rw [if_neg h1, if_neg (hcond.not.2 h1)]
    by_cases h4 : f = .e4m3
    · subst h4
      cases neg <;> rfl
    · rw [if_neg h4, if_neg h4]
      exact decodeFmt_infCode (hasInf_of_isBinary hf h4 fun h => h1 (Or.inl h)) neg

/-! ## Finite values -/

/-- The exponent at which a value of magnitude 2^l and above, below 2^(l + 1), is rounded, as a distance from the least one. -/
def roundShift (f : Fmt) (l : ℤ) : ℕ := (max l (1 - f.bias) - (1 - f.bias)).toNat

theorem roundUnit_eq (f : Fmt) (l : ℤ) : (2 : ℝ) ^ (max l (1 - f.bias : ℤ) - f.fracBits : ℤ) = 2 ^ roundShift f l * leastUnit f := by
  have : (roundShift f l : ℤ) = max l (1 - f.bias) - (1 - f.bias) := Int.toNat_of_nonneg (by omega)
  rw [leastUnit, ← zpow_natCast, ← zpow_add₀ two_ne_zero, this]
  congr 1
  ring

/-- A rounded significand keeps within its exponent or carries into the next, so that the code that the encoder forms stands for
the rounded magnitude. -/
theorem rounded_magnitude {mode : RMode} {neg : Bool} {x : ℝ} {l : ℤ} {k : ℕ} (hlo : (2 : ℝ) ^ l ≤ x) (hhi : x < 2 ^ (l + 1))
    (hk : RoundedReal mode neg (x / 2 ^ (max l (1 - f.bias : ℤ) - f.fracBits : ℤ)) k) :
    (k : ℝ) * 2 ^ (max l (1 - f.bias : ℤ) - f.fracBits : ℤ) =
      binUnits f.fracBits (roundShift f l * 2 ^ f.fracBits + k) * leastUnit f := by
  have hu : (0 : ℝ) < 2 ^ (max l (1 - f.bias : ℤ) - f.fracBits : ℤ) := by positivity
  have hx : 0 ≤ x / 2 ^ (max l (1 - f.bias : ℤ) - f.fracBits : ℤ) := div_nonneg (le_trans (by positivity) hlo) hu.le
  have hupper : k ≤ 2 ^ (f.fracBits + 1) := by
    refine (roundedReal_natCast_bounds hx hk _).1 ?_
    rw [div_lt_iff₀ hu, Nat.cast_pow, Nat.cast_ofNat, ← zpow_natCast, ← zpow_add₀ two_ne_zero]
    exact hhi.trans_le (zpow_le_zpow_right₀ one_le_two (by push_cast; omega))
  have hlower : roundShift f l = 0 ∨ 2 ^ f.fracBits ≤ k := by
    rcases le_or_gt l (1 - f.bias) with h | h
    · left; unfold roundShift; omega
    · right
      refine (roundedReal_natCast_bounds hx hk _).2 ?_
      rw [le_div_iff₀ hu, Nat.cast_pow, Nat.cast_ofNat, ← zpow_natCast, ← zpow_add₀ two_ne_zero]
      exact le_trans (zpow_le_zpow_right₀ one_le_two (by omega)) hlo
  rw [binUnits_eq hupper hlower, roundUnit_eq]
  push_cast
  ring

theorem binUnits_lt_iff (f : Fmt) (a b : ℕ) :
    (binUnits f.fracBits a : ℝ) * leastUnit f < binUnits f.fracBits b * leastUnit f ↔ a < b := by
  rw [mul_lt_mul_iff_left₀ (leastUnit_pos f), Nat.cast_lt, (binUnits_strictMono _).lt_iff_lt]

theorem leastNormal_eq (f : Fmt) : (2 : ℝ) ^ (1 - f.bias : ℤ) = binUnits f.fracBits (2 ^ f.fracBits) * leastUnit f := by
  rw [binUnits_two_pow, leastUnit, zpow_sub₀ two_ne_zero (1 - (f.bias : ℤ)), zpow_natCast, Nat.cast_pow, Nat.cast_ofNat]
  field_simp

theorem lt_iff_lt_zpow_of_bounds {x : ℝ} {l : ℤ} (hlo : (2 : ℝ) ^ l ≤ x) (hhi : x < 2 ^ (l + 1)) (n : ℤ) :
    l < n ↔ x < 2 ^ n := by
  constructor
  · exact fun h => hhi.trans_le (zpow_le_zpow_right₀ one_le_two (by omega))
  · intro h
    by_contra hc
    exact absurd (hlo.trans_lt h) (zpow_le_zpow_right₀ one_le_two (not_lt.1 hc)).not_gt

theorem encodeBin_zero (mode : RMode) (sat ftz neg : Bool) (e : ℤ) : encodeBin f mode sat ftz neg 0 e = (signCode f neg, 0) := rfl

/-- The encoder's result by the code that it forms. -/
theorem encodeBin_of_ne_zero (mode : RMode) (sat ftz neg : Bool) {m : ℕ} (hm : m ≠ 0) (e : ℤ) :
    encodeBin f mode sat ftz neg m e =
      let l := log2Floor m e
      let r := roundAt mode neg m e (max l (1 - f.bias) - f.fracBits)
      let code := roundShift f l * 2 ^ f.fracBits + r.1
      if f.maxCode < code then (overflowCode f mode sat neg, flagOF ||| flagNX)
      else if ftz && decide (code < 2 ^ f.fracBits) && code != 0 then (signCode f neg, flagUF ||| flagNX)
      else (signCode f neg + code, flagIf r.2 flagNX ||| flagIf (decide (l < 1 - f.bias) && r.2) flagUF) := by
  have hq : ∀ l : ℤ, max (l - f.fracBits) (1 - f.bias - f.fracBits) = max l (1 - f.bias) - f.fracBits := fun l => by omega
  have hd : ∀ l : ℤ, (max l (1 - f.bias) - f.fracBits - (1 - f.bias - f.fracBits) : ℤ).toNat = roundShift f l :=
    fun l => by rw [roundShift]; congr 1; ring
  simp only [encodeBin, if_neg hm, hq, hd]

/-- A nonzero value encoded in a binary format. -/
theorem encodeBin_roundsTo (hf : isBinary f) (mode : RMode) (sat ftz neg : Bool) {m : ℕ} (hm : m ≠ 0) (e : ℤ) :
    RoundsTo f mode sat ftz neg (m * 2 ^ e) (encodeBin f mode sat ftz neg m e) := by
  obtain ⟨hlo, hhi⟩ := log2Floor_bounds hm e
  have henc := encodeBin_of_ne_zero (f := f) mode sat ftz neg hm e
  dsimp only at henc
  set l := log2Floor m e
  obtain ⟨hround, hinexact⟩ := roundAt_spec mode neg m e (max l (1 - f.bias) - f.fracBits)
  set r := roundAt mode neg m e (max l (1 - f.bias) - f.fracBits)
  have hy := rounded_magnitude hlo hhi hround
  set code := roundShift f l * 2 ^ f.fracBits + r.1
  have hover : f.maxCode < code ↔ largest f < r.1 * 2 ^ (max l (1 - f.bias : ℤ) - f.fracBits : ℤ) := by
    rw [hy, largest_eq hf, binUnits_lt_iff]
  have hsub : code < 2 ^ f.fracBits ↔ (r.1 : ℝ) * 2 ^ (max l (1 - f.bias : ℤ) - f.fracBits : ℤ) < 2 ^ (1 - f.bias : ℤ) := by
    rw [hy, leastNormal_eq, binUnits_lt_iff]
  have hpos : 0 < code ↔ (0 : ℝ) < r.1 * 2 ^ (max l (1 - f.bias : ℤ) - f.fracBits : ℤ) := by
    rw [hy, ← binUnits_lt_iff f 0 code, binUnits_zero, Nat.cast_zero, zero_mul]
  have htiny := lt_iff_lt_zpow_of_bounds hlo hhi (1 - f.bias)
  have hflush : (ftz && decide (code < 2 ^ f.fracBits) && code != 0) = true ↔
      ftz = true ∧ (0 : ℝ) < r.1 * 2 ^ (max l (1 - f.bias : ℤ) - f.fracBits : ℤ) ∧
        (r.1 : ℝ) * 2 ^ (max l (1 - f.bias : ℤ) - f.fracBits : ℤ) < 2 ^ (1 - f.bias : ℤ) := by
    rw [← hpos, ← hsub, Nat.pos_iff_ne_zero]
    simp only [Bool.and_eq_true, decide_eq_true_eq, bne_iff_ne]
    tauto
  refine ⟨l, r.1, hlo, hhi, hround, fun h => ?overflow, fun h hz => ?flushed, fun h hz => ?kept⟩
  case overflow =>
    rw [henc, if_pos (hover.2 h)]
    exact ⟨overflowCode_spec hf mode sat neg, rfl⟩
  case flushed =>
    rw [henc, if_neg (hover.not.2 h.not_gt), if_pos (hflush.2 hz)]
    exact ⟨isCode_signCode hf neg, rfl⟩
  case kept =>
    have hle : ¬ f.maxCode < code := hover.not.2 h.not_gt
    rw [henc, if_neg hle, if_neg (hflush.not.2 hz)]
    refine ⟨hy ▸ isCode_of_le_maxCode hf (not_lt.1 hle) neg, fun he => ?_, fun he => ?_⟩
    · have : r.2 = false := by simpa using fun h2 => hinexact.1 h2 he
      simp [this, flagIf]
    · have : r.2 = true := hinexact.2 he
      simp [this, flagIf, htiny]

end Sys2Proof
end

section
/-! PROOFS. Encodings in the tapered formats (R20, R27) and in a scale (R30), and the obligation on encodings (O10). -/
namespace Sys2Proof
open Sys2Proof.Machine

/-! ## Magnitudes in a common unit -/

theorem natCast_scaled {e u : ℤ} (h : u ≤ e) (m : ℕ) : ((m * 2 ^ (e - u).toNat : ℕ) : ℝ) * 2 ^ u = m * 2 ^ e := by
  push_cast
  rw [← zpow_natCast, Int.toNat_of_nonneg (by omega), mul_assoc, ← zpow_add₀ two_ne_zero]
  congr 2
  ring

theorem magLt_iff (m₁ m₂ : ℕ) (e₁ e₂ : ℤ) : magLt m₁ e₁ m₂ e₂ = true ↔ (m₁ : ℝ) * 2 ^ e₁ < m₂ * 2 ^ e₂ := by
  have hu : (0 : ℝ) < 2 ^ (min e₁ e₂) := by positivity
  rw [← natCast_scaled (min_le_left e₁ e₂), ← natCast_scaled (min_le_right e₁ e₂), mul_lt_mul_iff_left₀ hu, Nat.cast_lt]
  simp [magLt]

/-! ## The values of a tapered format (R19) -/

/-- The magnitude of a tapered pattern. -/
noncomputable def taperedValue (n p : ℕ) : ℝ := (taperedMag n p).1 * 2 ^ (taperedMag n p).2

theorem taperedValue_lt_succ {n p : ℕ} (hn : n = 8 ∨ n = 6) (h1 : 1 ≤ p) (hp : p < 2 ^ (n - 1) - 1) :
    taperedValue n p < taperedValue n (p + 1) := by
  have h8 : ∀ p < 127, 1 ≤ p → magLt (taperedMag 8 p).1 (taperedMag 8 p).2 (taperedMag 8 (p + 1)).1 (taperedMag 8 (p + 1)).2 := by
    decide +kernel
  have h6 : ∀ p < 31, 1 ≤ p → magLt (taperedMag 6 p).1 (taperedMag 6 p).2 (taperedMag 6 (p + 1)).1 (taperedMag 6 (p + 1)).2 := by
    decide +kernel
  rcases hn with rfl | rfl
  · exact (magLt_iff _ _ _ _).1 (h8 p hp h1)
  · exact (magLt_iff _ _ _ _).1 (h6 p hp h1)

theorem taperedValue_lt {n p p' : ℕ} (hn : n = 8 ∨ n = 6) (h1 : 1 ≤ p) (h : p < p') (hp' : p' ≤ 2 ^ (n - 1) - 1) :
    taperedValue n p < taperedValue n p' := by
  induction p', h using Nat.le_induction with
  | base => exact taperedValue_lt_succ hn h1 hp'
  | succ k hk ih => exact (ih (by omega)).trans (taperedValue_lt_succ hn (by omega) hp')

theorem taperedValue_le {n p p' : ℕ} (hn : n = 8 ∨ n = 6) (h1 : 1 ≤ p) (h : p ≤ p') (hp' : p' ≤ 2 ^ (n - 1) - 1) :
    taperedValue n p ≤ taperedValue n p' := by
  rcases h.lt_or_eq with h | rfl
  · exact (taperedValue_lt hn h1 h hp').le
  · exact le_rfl

/-- The model's search: the largest pattern whose magnitude is at most the value. -/
theorem taperedFloor_spec (n m : ℕ) (e : ℤ) (top : ℕ) :
    taperedFloor n m e top ≤ top ∧
      (taperedFloor n m e top ≠ 0 → taperedValue n (taperedFloor n m e top) ≤ m * 2 ^ e) ∧
      ∀ p, taperedFloor n m e top < p → p ≤ top → (m : ℝ) * 2 ^ e < taperedValue n p := by
  induction top with
  | zero => exact ⟨le_rfl, fun h => absurd rfl h, fun p h hp => absurd (h.trans_le hp) (lt_irrefl _)⟩
  | succ t ih =>
    obtain ⟨hle, hval, habove⟩ := ih
    have hcmp := magLt_iff m (taperedMag n (t + 1)).1 e (taperedMag n (t + 1)).2
    by_cases h : magLt m e (taperedMag n (t + 1)).1 (taperedMag n (t + 1)).2 = true
    · simp only [taperedFloor, if_pos h]
      refine ⟨hle.trans (Nat.le_succ t), hval, fun p h1 hp => ?_⟩
      rcases Nat.le_succ_iff.1 hp with hp | rfl
      · exact habove p h1 hp
      · exact hcmp.1 h
    · simp only [taperedFloor, if_neg h]
      exact ⟨le_rfl, fun _ => not_lt.1 (hcmp.not.1 h), fun p h1 hp => absurd (h1.trans_le hp) (lt_irrefl _)⟩

theorem taperedFloor_eq {n p m : ℕ} {e : ℤ} (hn : n = 8 ∨ n = 6) (h1 : 1 ≤ p) (hp : p ≤ 2 ^ (n - 1) - 1)
    (hlo : taperedValue n p ≤ m * 2 ^ e) (hhi : p < 2 ^ (n - 1) - 1 → (m : ℝ) * 2 ^ e < taperedValue n (p + 1)) :
    taperedFloor n m e (2 ^ (n - 1) - 1) = p := by
  obtain ⟨hle, hval, habove⟩ := taperedFloor_spec n m e (2 ^ (n - 1) - 1)
  rcases lt_trichotomy (taperedFloor n m e (2 ^ (n - 1) - 1)) p with h | h | h
  · exact absurd hlo (habove p h hp).not_ge
  · exact h
  · have hnext := taperedValue_le hn (by omega) h hle
    exact absurd ((hnext.trans (hval (by omega))).trans_lt (hhi (by omega))) (lt_irrefl _)

/-! ## Encoding in a tapered format (R20) -/

/-- The code of a tapered pattern with a sign. -/
def taperedCode (n : ℕ) (neg : Bool) (p : ℕ) : ℕ := if neg then 2 ^ n - p else p

/-- Whether a value `x` between the magnitudes of pattern `p` and the next goes to the next (R20, R27). -/
def TaperedUp (mode : RMode) (p : ℕ) (lo x hi : ℝ) : Prop :=
  match mode with
  | .rsr b => b < ⌊(x - lo) / (hi - lo) * 2 ^ 24⌋₊
  | _ => hi - x < x - lo ∨ (hi - x = x - lo ∧ p % 2 = 1)

/-- The model's decision on integers in a common unit. -/
def roundsToNext (mode : RMode) (p lo x hi : ℕ) : Bool :=
  match mode with
  | .rsr r => decide (r < (x - lo) * 16777216 / (hi - lo))
  | _ => decide (hi - x < x - lo) || (decide (hi - x = x - lo) && p % 2 == 1)

theorem roundsToNext_iff (mode : RMode) (p : ℕ) {lo x hi : ℕ} (hlo : lo ≤ x) (hhi : x < hi) {u : ℝ} (hu : 0 < u) :
    roundsToNext mode p lo x hi = true ↔ TaperedUp mode p (lo * u) (x * u) (hi * u) := by
  have h1 : (hi : ℝ) * u - x * u = (hi - x : ℕ) * u := by rw [Nat.cast_sub hhi.le]; ring
  have h2 : (x : ℝ) * u - lo * u = (x - lo : ℕ) * u := by rw [Nat.cast_sub hlo]; ring
  have h3 : (hi : ℝ) * u - lo * u = (hi - lo : ℕ) * u := by rw [Nat.cast_sub (hlo.trans hhi.le)]; ring
  have hnear : ((hi - x : ℕ) : ℝ) * u < (x - lo : ℕ) * u ↔ hi - x < x - lo := by
    rw [mul_lt_mul_iff_left₀ hu, Nat.cast_lt]
  have htie : ((hi - x : ℕ) : ℝ) * u = (x - lo : ℕ) * u ↔ hi - x = x - lo := by
    rw [mul_left_inj' hu.ne', Nat.cast_inj]
  have hbits : ⌊((x - lo : ℕ) : ℝ) * u / ((hi - lo : ℕ) * u) * 2 ^ 24⌋₊ = (x - lo) * 16777216 / (hi - lo) := by
    rw [← Nat.floor_div_eq_div (K := ℝ), mul_div_mul_right _ _ hu.ne']
    congr 1
    push_cast
    ring
  cases mode <;> simp only [TaperedUp, roundsToNext, h1, h2, h3, hnear, htie, hbits] <;> simp

section
variable {n m : ℕ} {e : ℤ} (mode : RMode) (neg : Bool)

/-- The encoder between pattern `p` and the next, in a common unit 2^u. -/
theorem encodeTapered_eq {p : ℕ} (hfloor : taperedFloor n m e (2 ^ (n - 1) - 1) = p) (h0 : p ≠ 0) (hp : p ≠ 2 ^ (n - 1) - 1) :
    let a := taperedMag n p
    let b := taperedMag n (p + 1)
    let u := min e (min a.2 b.2)
    let x := m * 2 ^ (e - u).toNat
    let lo := a.1 * 2 ^ (a.2 - u).toNat
    encodeTapered n mode neg m e =
      if x = lo then (taperedCode n neg p, 0)
      else (taperedCode n neg (if roundsToNext mode p lo x (b.1 * 2 ^ (b.2 - u).toNat) then p + 1 else p), flagNX) := by
  simp only [encodeTapered, hfloor, if_neg h0, if_neg hp]
  cases mode <;> rfl

theorem encodeTapered_below (hn : n = 8 ∨ n = 6) (h : (m : ℝ) * 2 ^ e < taperedValue n 1) :
    encodeTapered n mode neg m e = (taperedCode n neg 1, flagUF ||| flagNX) := by
  obtain ⟨hle, hval, -⟩ := taperedFloor_spec n m e (2 ^ (n - 1) - 1)
  have h0 : taperedFloor n m e (2 ^ (n - 1) - 1) = 0 := by
    by_contra hc
    exact absurd (h.trans_le ((taperedValue_le hn le_rfl (Nat.one_le_iff_ne_zero.2 hc) hle).trans (hval hc))) (lt_irrefl _)
  simp [encodeTapered, h0, taperedCode]

theorem encodeTapered_top (hn : n = 8 ∨ n = 6) (h : taperedValue n (2 ^ (n - 1) - 1) ≤ m * 2 ^ e) :
    encodeTapered n mode neg m e = (taperedCode n neg (2 ^ (n - 1) - 1),
      if taperedValue n (2 ^ (n - 1) - 1) = m * 2 ^ e then 0 else flagOF ||| flagNX) := by
  have hfloor := taperedFloor_eq hn (by rcases hn with rfl | rfl <;> decide) le_rfl h (fun hc => absurd hc (lt_irrefl _))
  have h0 : 2 ^ (n - 1) - 1 ≠ 0 := by rcases hn with rfl | rfl <;> decide
  have hcmp := magLt_iff (taperedMag n (2 ^ (n - 1) - 1)).1 m (taperedMag n (2 ^ (n - 1) - 1)).2 e
  change _ ↔ taperedValue n (2 ^ (n - 1) - 1) < _ at hcmp
  simp only [encodeTapered, hfloor, if_neg h0, if_true]
  rcases h.lt_or_eq with h | h
  · simp [hcmp.2 h, h.ne, taperedCode]
  · simp [hcmp.not.2 h.not_lt, h, taperedCode]

/-- Between two neighbours: the decision of `TaperedUp`, NX unless the value is the lower one. -/
theorem encodeTapered_between {p : ℕ} (hn : n = 8 ∨ n = 6) (h1 : 1 ≤ p) (hp : p < 2 ^ (n - 1) - 1)
    (hlo : taperedValue n p ≤ m * 2 ^ e) (hhi : (m : ℝ) * 2 ^ e < taperedValue n (p + 1)) :
    ∃ p', (TaperedUp mode p (taperedValue n p) (m * 2 ^ e) (taperedValue n (p + 1)) ∧ p' = p + 1 ∧ taperedValue n p ≠ m * 2 ^ e ∨
        ¬ TaperedUp mode p (taperedValue n p) (m * 2 ^ e) (taperedValue n (p + 1)) ∧ p' = p) ∧
      encodeTapered n mode neg m e = (taperedCode n neg p', if taperedValue n p = m * 2 ^ e then 0 else flagNX) := by
  have hfloor := taperedFloor_eq hn h1 hp.le hlo (fun _ => hhi)
  have henc := encodeTapered_eq mode neg hfloor (Nat.one_le_iff_ne_zero.1 h1) hp.ne
  dsimp only at henc
  -- the three magnitudes as integers in a common unit
  set a := taperedMag n p
  set b := taperedMag n (p + 1)
  set u := min e (min a.2 b.2)
  have ex : (m : ℝ) * 2 ^ e = (m * 2 ^ (e - u).toNat : ℕ) * 2 ^ u := (natCast_scaled (min_le_left _ _) m).symm
  have elo : taperedValue n p = (a.1 * 2 ^ (a.2 - u).toNat : ℕ) * 2 ^ u :=
    (natCast_scaled ((min_le_right _ _).trans (min_le_left _ _)) a.1).symm
  have ehi : taperedValue n (p + 1) = (b.1 * 2 ^ (b.2 - u).toNat : ℕ) * 2 ^ u :=
    (natCast_scaled ((min_le_right _ _).trans (min_le_right _ _)) b.1).symm
  set x := m * 2 ^ (e - u).toNat
  set lo := a.1 * 2 ^ (a.2 - u).toNat
  set hi := b.1 * 2 ^ (b.2 - u).toNat
  have hpos : (0 : ℝ) < 2 ^ u := by positivity
  rw [ex, elo, mul_le_mul_iff_left₀ hpos, Nat.cast_le] at hlo
  rw [ex, ehi, mul_lt_mul_iff_left₀ hpos, Nat.cast_lt] at hhi
  have hexact : taperedValue n p = m * 2 ^ e ↔ x = lo := by
    rw [ex, elo, mul_left_inj' hpos.ne', Nat.cast_inj, eq_comm]
  have hup := roundsToNext_iff mode p hlo hhi hpos
  rw [← ex, ← elo, ← ehi] at hup
  simp only [hexact, ← hup, henc]
  by_cases hx : x = lo
  · have hno : ¬ roundsToNext mode p lo x hi = true := by
      rw [hx] at hhi ⊢
      have : 0 < hi - lo := by omega
      cases mode <;> simp [roundsToNext, this.ne']
    exact ⟨p, Or.inr ⟨hno, rfl⟩, by simp [hx]⟩
  · by_cases hr : roundsToNext mode p lo x hi = true
    · exact ⟨p + 1, Or.inl ⟨hr, rfl, hexact.not.2 hx⟩, by simp [hx, hr]⟩
    · exact ⟨p, Or.inr ⟨hr, rfl⟩, by simp [hx, hr]⟩

theorem taperedUp_nearest {mode : RMode} (hmode : ∀ b, mode ≠ .rsr b) (p : ℕ) (lo x hi : ℝ) :
    TaperedUp mode p lo x hi ↔ hi - x < x - lo ∨ (hi - x = x - lo ∧ p % 2 = 1) := by
  cases mode with
  | rsr b => exact absurd rfl (hmode b)
  | _ => exact Iff.rfl

/-- Of two neighbours around `x`, the nearer one, or the one whose pattern is even, is nearest among all patterns. -/
theorem nearest_of_neighbours {p c : ℕ} {x : ℝ} (hn : n = 8 ∨ n = 6) (h1 : 1 ≤ p) (hp : p < 2 ^ (n - 1) - 1)
    (hlo : taperedValue n p ≤ x) (hhi : x < taperedValue n (p + 1))
    (hc : (taperedValue n (p + 1) - x < x - taperedValue n p ∨
          (taperedValue n (p + 1) - x = x - taperedValue n p ∧ p % 2 = 1)) ∧ c = p + 1 ∨
        ¬ (taperedValue n (p + 1) - x < x - taperedValue n p ∨
          (taperedValue n (p + 1) - x = x - taperedValue n p ∧ p % 2 = 1)) ∧ c = p)
    {p' : ℕ} (hp' : 1 ≤ p') (htop : p' ≤ 2 ^ (n - 1) - 1) :
    |x - taperedValue n c| ≤ |x - taperedValue n p'| ∧
      (|x - taperedValue n c| = |x - taperedValue n p'| → p' ≠ c → c % 2 = 0) := by
  have habs : |x - taperedValue n p| = x - taperedValue n p := abs_of_nonneg (by linarith)
  have habs' : |x - taperedValue n (p + 1)| = taperedValue n (p + 1) - x := by rw [abs_of_neg (by linarith)]; ring
  -- where the other pattern lies
  have hother : p' = p ∨ p' = p + 1 ∨ x - taperedValue n p < |x - taperedValue n p'| ∧ p' < p ∨
      taperedValue n (p + 1) - x < |x - taperedValue n p'| ∧ p + 1 < p' := by
    rcases lt_trichotomy p' p with h | h | h
    · have := taperedValue_lt hn hp' h hp.le
      exact Or.inr (Or.inr (Or.inl ⟨lt_of_lt_of_le (by linarith) (le_abs_self _), h⟩))
    · exact Or.inl h
    · rcases Nat.lt_or_ge (p + 1) p' with h' | h'
      · have := taperedValue_lt hn (by omega) h' htop
        exact Or.inr (Or.inr (Or.inr ⟨lt_of_lt_of_le (by linarith) (neg_le_abs _), h'⟩))
      · exact Or.inr (Or.inl (by omega))
  rcases hc with ⟨hup, rfl⟩ | ⟨hdown, rfl⟩
  · have hle : taperedValue n (p + 1) - x ≤ x - taperedValue n p := by
      rcases hup with h | ⟨h, -⟩
      · exact h.le
      · exact h.le
    rw [habs']
    rcases hother with rfl | rfl | ⟨h, -⟩ | ⟨h, -⟩
    · rw [habs]
      refine ⟨hle, fun heq _ => ?_⟩
      rcases hup with h | ⟨-, h⟩
      · exact absurd heq h.ne
      · omega
    · exact ⟨habs'.ge, fun _ hne => absurd rfl hne⟩
    · exact ⟨by linarith, fun heq => by linarith⟩
    · exact ⟨h.le, fun heq => absurd heq h.ne⟩
  · rw [not_or, not_lt] at hdown
    obtain ⟨hle, hodd⟩ := hdown
    rw [habs]
    rcases hother with rfl | rfl | ⟨h, -⟩ | ⟨h, -⟩
    · exact ⟨habs.ge, fun _ hne => absurd rfl hne⟩
    · rw [habs']
      refine ⟨hle, fun heq _ => ?_⟩
      have : c % 2 ≠ 1 := fun h => hodd ⟨heq.symm, h⟩
      omega
    · exact ⟨h.le, fun heq => absurd heq h.ne⟩
    · exact ⟨by linarith, fun heq => by linarith⟩

/-- In the modes that are not stochastic the result is the nearest pattern, the even one on a tie (R20). -/
theorem encodeTapered_nearest (hn : n = 8 ∨ n = 6) (hmode : ∀ b, mode ≠ .rsr b) (hlo : taperedValue n 1 ≤ m * 2 ^ e)
    (hhi : (m : ℝ) * 2 ^ e ≤ taperedValue n (2 ^ (n - 1) - 1)) :
    ∃ p, 1 ≤ p ∧ p ≤ 2 ^ (n - 1) - 1 ∧
      (∀ p', 1 ≤ p' → p' ≤ 2 ^ (n - 1) - 1 → |m * 2 ^ e - taperedValue n p| ≤ |m * 2 ^ e - taperedValue n p'| ∧
        (|m * 2 ^ e - taperedValue n p| = |m * 2 ^ e - taperedValue n p'| → p' ≠ p → p % 2 = 0)) ∧
      encodeTapered n mode neg m e = (taperedCode n neg p, if taperedValue n p = m * 2 ^ e then 0 else flagNX) := by
  obtain ⟨hle, hval, habove⟩ := taperedFloor_spec n m e (2 ^ (n - 1) - 1)
  have htop : 1 ≤ 2 ^ (n - 1) - 1 := by rcases hn with rfl | rfl <;> decide
  set p := taperedFloor n m e (2 ^ (n - 1) - 1)
  have h0 : p ≠ 0 := fun h => absurd hlo (habove 1 (by omega) htop).not_ge
  have h1 : 1 ≤ p := Nat.one_le_iff_ne_zero.2 h0
  rcases hle.lt_or_eq with hp | hp
  · have hnext := habove (p + 1) (Nat.lt_succ_self p) hp
    obtain ⟨c, hc, henc⟩ := encodeTapered_between mode neg hn h1 hp (hval h0) hnext
    rw [taperedUp_nearest hmode] at hc
    have hflag : taperedValue n p = m * 2 ^ e ↔ taperedValue n c = m * 2 ^ e := by
      rcases hc with ⟨-, rfl, hne⟩ | ⟨-, rfl⟩
      · exact iff_of_false hne hnext.ne'
      · exact Iff.rfl
    have hchoice := hc.imp_left fun ⟨h, hc, _⟩ => And.intro h hc
    simp only [hflag] at henc
    exact ⟨c, by omega, by omega, fun p' => nearest_of_neighbours hn h1 hp (hval h0) hnext hchoice, henc⟩
  · have heq : taperedValue n (2 ^ (n - 1) - 1) = m * 2 ^ e := le_antisymm (hp ▸ hval h0) hhi
    refine ⟨2 ^ (n - 1) - 1, htop, le_rfl, fun p' h1' hp' => ⟨?_, fun htie hne => ?_⟩, ?_⟩
    · rw [heq, sub_self, abs_zero]
      exact abs_nonneg _
    · rw [heq, sub_self, abs_zero, eq_comm, abs_eq_zero, sub_eq_zero, ← heq] at htie
      exact absurd htie (taperedValue_lt hn h1' (by omega) le_rfl).ne'
    · rw [encodeTapered_top mode neg hn heq.le, if_pos heq, if_pos heq]

end

/-! ## Encoding in a scale (R30) -/

theorem toScale_spec {neg : Bool} {m : ℕ} {e l : ℤ} (hlo : (2 : ℝ) ^ l ≤ m * 2 ^ e) (hhi : (m : ℝ) * 2 ^ e < 2 ^ (l + 1)) :
    toScale (.fin neg m e) =
      if l + 127 < 0 then (0, flagUF ||| flagNX) else if 254 < l + 127 then (0xFE, flagOF ||| flagNX)
      else ((l + 127).toNat, if (2 : ℝ) ^ l = m * 2 ^ e then 0 else flagNX) := by
  have hm : m ≠ 0 := by
    rintro rfl
    rw [Nat.cast_zero, zero_mul] at hlo
    exact absurd hlo (by positivity : (0 : ℝ) < 2 ^ l).not_ge
  obtain ⟨hlo', hhi'⟩ := log2Floor_bounds hm e
  have hl : log2Floor m e = l := by
    have h1 := (lt_iff_lt_zpow_of_bounds hlo hhi _).2 hhi'
    have h2 := (lt_iff_lt_zpow_of_bounds hlo' hhi' _).2 hhi
    omega
  have hexact : (2 : ℝ) ^ l = m * 2 ^ e ↔ m = 2 ^ m.log2 := by
    rw [← hl, log2Floor, zpow_add₀ two_ne_zero, mul_left_inj' (by positivity), zpow_natCast, eq_comm]
    exact_mod_cast Iff.rfl
  simp only [toScale, if_neg hm, hl, hexact]
  by_cases h : m = 2 ^ m.log2
  · simp [← h, flagIf]
  · simp [h, flagIf]

/-! ## Values by format -/

theorem val_eq_taperedValue {f : Fmt} {n p : ℕ} (hf : (f = .t8 ∧ n = 8) ∨ (f = .t6 ∧ n = 6)) (h1 : 1 ≤ p) (hp : p ≤ 2 ^ (n - 1) - 1) :
    ((rat (decodeFmt f p) : ℚ) : ℝ) = taperedValue n p := by
  have hpos := Nat.two_pow_pos (n - 1)
  have hdec : decodeFmt f p = decodeTapered n p := by rcases hf with ⟨rfl, rfl⟩ | ⟨rfl, rfl⟩ <;> rfl
  rw [hdec, decodeTapered_positive h1 (by omega) (by omega), rat, taperedValue]
  push_cast
  simp

theorem encodeFmt_nan {f : Fmt} (hf : HasInf f) (mode : RMode) (sat ftz sg : Bool) :
    encodeFmt f mode sat ftz (.nan sg) = (f.nanCode, if sg then flagNV else 0) := by
  rcases hf with rfl | rfl | rfl | rfl | rfl <;> rfl

theorem encodeFmt_inf {f : Fmt} (hf : HasInf f) (mode : RMode) (sat ftz neg : Bool) :
    encodeFmt f mode sat ftz (.inf neg) = (signCode f neg + f.infCode, 0) := by
  rcases hf with rfl | rfl | rfl | rfl | rfl <;> rfl

theorem encodeFmt_tapered {f : Fmt} {n : ℕ} (hf : (f = .t8 ∧ n = 8) ∨ (f = .t6 ∧ n = 6)) (mode : RMode) (sat ftz neg : Bool)
    (m : ℕ) (e : ℤ) :
    encodeFmt f mode sat ftz (.fin neg m e) = if m = 0 then (0, 0) else encodeTapered n mode neg m e := by
  rcases hf with ⟨rfl, rfl⟩ | ⟨rfl, rfl⟩ <;> rfl

theorem taperedValue_one_pos {n : ℕ} (hn : n = 8 ∨ n = 6) : 0 < taperedValue n 1 := by
  rcases hn with rfl | rfl <;> norm_num [taperedValue, taperedMag, runLength]

/-! ## O10 -/

/-- Settles O10: a binary format by the one rounding of `encodeBin`, a tapered one by its neighbours, a scale by its exponent. -/
theorem encodingRounds : Obligations.EncodingRounds := by
  unfold Obligations.EncodingRounds
  intro mode sat ftz neg m e sg q
  refine ⟨?binary, ?special, rfl, ?e4m3, rfl, ?e2m1, ?tapered, rfl, rfl, fun hm => if_pos hm, fun l hlo hhi => ?scale⟩
  case binary =>
    intro f hf
    rw [encodeFmt_fin hf]
    refine ⟨?_, fun hm => encodeBin_roundsTo hf mode sat ftz neg hm e⟩
    rintro rfl
    exact ⟨isCode_signCode hf neg, rfl⟩
  case special =>
    intro f hf
    rw [encodeFmt_nan hf, encodeFmt_inf hf]
    exact ⟨rfl, (decodeFmt_infCode hf neg).2, rfl⟩
  case e4m3 => cases sat <;> cases neg <;> rfl
  case e2m1 => cases neg <;> rfl
  case scale => exact toScale_spec (neg := neg) hlo hhi
  case tapered =>
    intro f hf r n top val code
    have hfn : (f = .t8 ∧ n = 8) ∨ (f = .t6 ∧ n = 6) := by rcases hf with rfl | rfl <;> simp [n, Fmt.bits]
    have hn : n = 8 ∨ n = 6 := hfn.imp And.right And.right
    have htop : 1 ≤ top := by rcases hn with h | h <;> simp [top, h]
    have hval : ∀ p, 1 ≤ p → p ≤ top → val p = taperedValue n p := fun p h1 hp => val_eq_taperedValue hfn h1 hp
    have hv1 := hval 1 le_rfl htop
    have hvt := hval top htop le_rfl
    have hr : m ≠ 0 → r = encodeTapered n mode neg m e :=
      fun hm => (encodeFmt_tapered hfn mode sat ftz neg m e).trans (if_neg hm)
    -- a value from the smallest magnitude up is not zero
    have hm : taperedValue n 1 ≤ q → m ≠ 0 := by
      rintro h rfl
      simp only [q, Nat.cast_zero, zero_mul] at h
      exact absurd (taperedValue_one_pos hn) h.not_gt
    refine ⟨?nan, ?inf, ?_, fun hm h => ?above, fun hm h => ?below, fun hlo hhi hmode => ?nearest, fun b p hb h1 hp hlo hhi => ?between,
      fun b hb heq => ?top⟩
    case nan => rcases hf with rfl | rfl <;> rfl
    case inf => rcases hf with rfl | rfl <;> rfl
    · exact fun h => (encodeFmt_tapered hfn mode sat ftz neg m e).trans (if_pos h)
    case above =>
      rw [hvt] at h
      rw [hr hm, encodeTapered_top mode neg hn h.le, if_neg h.ne]
      rfl
    case below =>
      rw [hv1] at h
      rw [hr hm, encodeTapered_below mode neg hn h]
      rfl
    case nearest =>
      rw [hv1] at hlo
      rw [hvt] at hhi
      obtain ⟨p, h1, hp, hnear, henc⟩ := encodeTapered_nearest mode neg hn hmode hlo hhi
      refine ⟨p, h1, hp, fun p' h1' hp' => ?_, ?_⟩
      · rw [hval p h1 hp, hval p' h1' hp']
        exact hnear p' h1' hp'
      · rw [hr (hm hlo), hval p h1 hp]
        exact henc
    case between =>
      subst hb
      rw [hval p h1 hp.le] at hlo
      rw [hval (p + 1) (by omega) hp] at hhi
      have hm0 := hm ((taperedValue_le hn le_rfl h1 hp.le).trans hlo)
      obtain ⟨c, hc, henc⟩ := encodeTapered_between (.rsr b) neg hn h1 hp hlo hhi
      rw [hr hm0, hval p h1 hp.le, hval (p + 1) (by omega) hp, henc]
      have hup : TaperedUp (.rsr b) p (taperedValue n p) q (taperedValue n (p + 1)) ↔
          b < ⌊(q - taperedValue n p) / (taperedValue n (p + 1) - taperedValue n p) * 2 ^ 24⌋₊ := Iff.rfl
      rw [hup] at hc
      rcases hc with ⟨h, rfl, -⟩ | ⟨h, rfl⟩
      · rw [if_pos h]
        rfl
      · rw [if_neg h]
        rfl
    case top =>
      rw [hvt] at heq
      have hlo : taperedValue n 1 ≤ q := heq ▸ taperedValue_le hn le_rfl htop le_rfl
      rw [hr (hm hlo), encodeTapered_top mode neg hn heq.ge, if_pos heq.symm]
      rfl

end Sys2Proof
end

section
/-! PROOFS. Lane instructions whose sub-elements raise flags (R33): the shared forms of the float instructions, in the words of
`FloatEffect`. -/
namespace Sys2Proof
open Sys2Proof.Machine

/-! ## Flags of lists -/

theorem flagUnion_getLsbD (l : List FFlags) (i : ℕ) : (flagUnion l).getLsbD i = true ↔ ∃ a ∈ l, a.getLsbD i = true := by
  have h : ∀ acc : FFlags, (l.foldl (· ||| ·) acc).getLsbD i = true ↔ acc.getLsbD i = true ∨ ∃ a ∈ l, a.getLsbD i = true := by
    induction l with
    | nil => simp
    | cons b l ih => intro acc; simp [ih, or_assoc]
  simpa [flagUnion] using h 0

theorem mem_tabulate {α : Type} {n : ℕ} {f : ℕ → α} {a : α} : a ∈ tabulate n f ↔ ∃ i, i < n ∧ f i = a := by
  simp [tabulate]

theorem subsWith_fst (w n : ℕ) (g : ℕ → ℕ × FFlags) : (subsWith w n g).1 = fromSubs w n fun j => (g j).1 :=
  fromSubs_congr fun j hj => by simp [hj]

theorem subsWith_snd_getLsbD (w n : ℕ) (g : ℕ → ℕ × FFlags) (i : ℕ) :
    (subsWith w n g).2.getLsbD i = true ↔ ∃ j, j < n ∧ (g j).2.getLsbD i = true := by
  simp [subsWith, flagUnion_getLsbD, mem_tabulate]

/-! ## A lane result with flags -/

/-- A result of `N` sub-elements of width `w` that carry flags: the flags of the active lanes are joined, each sub-element stands at
its place, and the bits above them are zero. -/
theorem laneResultF_effect (t : Team) (len : ℕ) {w N : ℕ} (hN : N * w ≤ 64) (d : VDst) (op : FFlags) {g : ℕ → ℕ → ℕ × FFlags}
    (hg : ∀ x j, (g x j).1 < 2 ^ w) :
    ∃ fl, JoinsFlags t N op g fl ∧ LaneEffect len d fl
      (fun x v => (∀ j, j < N → subEl w v j = (g x j).1) ∧ ∀ k, N * w ≤ k → v.getLsbD k = false) t
      ((t.laneResultF d op fun x => subsWith w N (g x)).advance len) := by
  refine ⟨_, fun i => ?_, (laneResult_effect t len d _ _).imp ?_⟩
  · rw [BitVec.getLsbD_or, Bool.or_eq_true, flagUnion_getLsbD]
    refine or_congr Iff.rfl ⟨?_, ?_⟩
    · rintro ⟨a, ha, hi⟩
      obtain ⟨r, hr, rfl⟩ := List.mem_map.1 ha
      obtain ⟨x, hx, rfl⟩ := mem_tabulate.1 hr
      by_cases hact : t.active x = true
      · rw [if_pos hact, subsWith_snd_getLsbD] at hi
        obtain ⟨j, hj, hi⟩ := hi
        exact ⟨x, j, hx, hact, hj, hi⟩
      · rw [if_neg hact] at hi
        simp at hi
    · rintro ⟨x, j, hx, hact, hj, hi⟩
      refine ⟨_, List.mem_map.2 ⟨_, mem_tabulate.2 ⟨x, hx, rfl⟩, rfl⟩, ?_⟩
      rw [if_pos hact, subsWith_snd_getLsbD]
      exact ⟨j, hj, hi⟩
  · rintro x v hx hact rfl
    simp only [nth_tabulate, if_pos hx, if_pos hact, subsWith_fst]
    refine ⟨fun j hj => ?_, fun k hk => ?_⟩
    · rw [subEl_fromSubs _ hN hj, Nat.mod_eq_of_lt (hg x j)]
    · rw [← BitVec.testBit_toNat]
      exact Nat.testBit_lt_two_pow ((fromSubs_toNat_lt _ hN).trans_le (Nat.pow_le_pow_right two_pos hk))

/-- The same where the sub-elements fill the register. -/
theorem laneResultF_floatEffect (t : Team) (len : ℕ) (w : FW) (d : VDst) (op : FFlags) {g : ℕ → ℕ → ℕ × FFlags}
    {Q : ℕ → ℕ → ℕ × FFlags → Prop} (hg : ∀ x j, (g x j).1 < 2 ^ fwBits w) (hQ : ∀ x j, Q x j (g x j)) :
    FloatEffect len (fwBits w) d op Q t
      ((t.laneResultF d op fun x => subsWith (fwBits w) (64 / fwBits w) (g x)).advance len) := by
  obtain ⟨fl, hfl, heff⟩ := laneResultF_effect t len (fwBits_mul w).le d op hg
  exact ⟨fl, g, fun x j _ _ _ => hQ x j, hfl, heff.imp fun x v _ _ h => h.1⟩

/-! ## The shared forms -/

variable {i : Instr} {s : State} {w : FW} {d : VDst} {a b : LSrc}

theorem float2_runs {f : Fmt → RMode → ℕ → ℕ → ℕ × FFlags} {Q : ℕ → ℕ → ℕ × FFlags → Prop} (h : exec i s = float2 w d a b f s)
    (hlt : ∀ x j, (f (fwFmt w) (modeOf s.cur.frm) (s.cur.sub (fwBits w) a x j) (s.cur.sub (fwBits w) b x j)).1 < 2 ^ fwBits w)
    (hQ : ∀ x j, Q x j (f (fwFmt w) (modeOf s.cur.frm) (s.cur.sub (fwBits w) a x j) (s.cur.sub (fwBits w) b x j))) :
    Runs i s (FloatEffect 4 (fwBits w) d (s.cur.srcFlags a ||| s.cur.srcFlags b) Q) :=
  runs_teamStep h (laneResultF_floatEffect s.cur 4 w d _ hlt hQ)

theorem float1_runs {f : Fmt → RMode → ℕ → ℕ × FFlags} {Q : ℕ → ℕ → ℕ × FFlags → Prop} (h : exec i s = float1 w d a f s)
    (hlt : ∀ x j, (f (fwFmt w) (modeOf s.cur.frm) (s.cur.sub (fwBits w) a x j)).1 < 2 ^ fwBits w)
    (hQ : ∀ x j, Q x j (f (fwFmt w) (modeOf s.cur.frm) (s.cur.sub (fwBits w) a x j))) :
    Runs i s (FloatEffect 4 (fwBits w) d (s.cur.srcFlags a) Q) :=
  runs_teamStep h (laneResultF_floatEffect s.cur 4 w d _ hlt hQ)

theorem float2d_runs {ftz : Bool} {Q : ℕ → ℕ → ℕ × FFlags → Prop} (h : exec i s = float2d w d a b ftz s)
    (hlt : ∀ p q r, (floatFma (fwFmt w) (modeOf s.cur.frm) ftz false false p q r).1 < 2 ^ fwBits w)
    (hQ : ∀ x j, Q x j (floatFma (fwFmt w) (modeOf s.cur.frm) ftz false false (s.cur.sub (fwBits w) a x j)
      (s.cur.sub (fwBits w) b x j) (subEl (fwBits w) (s.cur.old d x) j))) :
    Runs i s (FloatEffect 4 (fwBits w) d (s.cur.srcFlags a ||| s.cur.srcFlags b ||| s.cur.oldFlags d) Q) :=
  runs_teamStep h (laneResultF_floatEffect s.cur 4 w d _ (fun _ _ => hlt _ _ _) hQ)

/-- A float compare: the lanes whose sub-elements 0 meet it, and the flags of the active lanes. -/
theorem floatCmp_runs {d : MDst} {p : FVal → FVal → Bool × FFlags} (h : exec i s = floatCmp w d a b p s) :
    Runs i s fun u v => ∃ fl,
      MaskEffect d fl (fun x => s.cur.active x = true ∧
        (p (decodeFmt (fwFmt w) (s.cur.sub (fwBits w) a x 0)) (decodeFmt (fwFmt w) (s.cur.sub (fwBits w) b x 0))).1 = true) u v ∧
      ∀ k, fl.getLsbD k = true ↔ (s.cur.srcFlags a ||| s.cur.srcFlags b).getLsbD k = true ∨ ∃ x, x < s.cur.lanes ∧
        s.cur.active x = true ∧
        (p (decodeFmt (fwFmt w) (s.cur.sub (fwBits w) a x 0)) (decodeFmt (fwFmt w) (s.cur.sub (fwBits w) b x 0))).2.getLsbD k = true := by
  refine runs_teamStep h ⟨_, (setMask_effect s.cur d _ _).iff fun x hx hx' => ?_, fun k => ?_⟩
  · rw [maskOf_getLsbD _ _ _ hx']
    simp [hx]
  · rw [BitVec.getLsbD_or, Bool.or_eq_true, flagUnion_getLsbD]
    simp [Team.activeLanes, and_assoc]

end Sys2Proof
end

section
/-! PROOFS. Codes fit their format, exact sums and products stand for the sums and products of rationals, and the obligation on float
arithmetic (O13). -/
namespace Sys2Proof
open Sys2Proof.Machine

/-! ## Codes fit their format -/

theorem signCode_lt {f : Fmt} (hf : isBinary f) (neg : Bool) : signCode f neg < 2 ^ f.bits := by
  simpa using signCode_add_lt hf (Nat.two_pow_pos _) neg

theorem overflowCode_lt {f : Fmt} (hf : isBinary f) (mode : RMode) (sat neg : Bool) : overflowCode f mode sat neg < 2 ^ f.bits := by
  refine signCode_add_lt hf ?_ neg
  have hmax : f.maxCode < 2 ^ (f.bits - 1) ∧ (f = .e4m3 → f.nanCode < 2 ^ (f.bits - 1)) ∧ f.infCode < 2 ^ (f.bits - 1) := by
    rcases hf with rfl | rfl | rfl | rfl | rfl | rfl | rfl <;> decide
  split
  · exact hmax.1
  · split
    · next h => exact hmax.2.1 h
    · exact hmax.2.2

theorem encodeBin_lt {f : Fmt} (hf : isBinary f) (mode : RMode) (sat ftz neg : Bool) (m : ℕ) (e : ℤ) :
    (encodeBin f mode sat ftz neg m e).1 < 2 ^ f.bits := by
  by_cases hm : m = 0
  · subst hm
    exact signCode_lt hf neg
  · rw [encodeBin_of_ne_zero mode sat ftz neg hm]
    dsimp only
    split
    · exact overflowCode_lt hf mode sat neg
    · next hle =>
      split
      · exact signCode_lt hf neg
      · exact (isCode_of_le_maxCode hf (not_lt.1 hle) neg).1

theorem taperedCode_lt {n p : ℕ} (h1 : 1 ≤ p) (hp : p < 2 ^ n) (neg : Bool) : taperedCode n neg p < 2 ^ n := by
  cases neg <;> simp only [taperedCode] <;> simp <;> omega

theorem encodeTapered_lt {n : ℕ} (hn : n = 8 ∨ n = 6) (mode : RMode) (neg : Bool) (m : ℕ) (e : ℤ) :
    (encodeTapered n mode neg m e).1 < 2 ^ n := by
  have hcode : ∀ p, 1 ≤ p → p ≤ 2 ^ (n - 1) - 1 → taperedCode n neg p < 2 ^ n := fun p h1 hp =>
    taperedCode_lt h1 (by rcases hn with rfl | rfl <;> omega) neg
  have htop : 1 ≤ 2 ^ (n - 1) - 1 := by rcases hn with rfl | rfl <;> decide
  rcases lt_or_ge ((m : ℝ) * 2 ^ e) (taperedValue n 1) with h | h
  · rw [encodeTapered_below mode neg hn h]
    exact hcode 1 le_rfl htop
  · obtain ⟨hle, hval, habove⟩ := taperedFloor_spec n m e (2 ^ (n - 1) - 1)
    have h0 : taperedFloor n m e (2 ^ (n - 1) - 1) ≠ 0 := fun h0 => absurd h (habove 1 (by omega) htop).not_ge
    rcases hle.lt_or_eq with hp | hp
    · obtain ⟨c, hc, henc⟩ := encodeTapered_between mode neg hn (Nat.one_le_iff_ne_zero.2 h0) hp (hval h0)
        (habove _ (Nat.lt_succ_self _) hp)
      rw [henc]
      exact hcode c (by omega) (by omega)
    · rw [encodeTapered_top mode neg hn (hp ▸ hval h0)]
      exact hcode _ htop le_rfl

theorem toInteger_lt (sgn : Bool) (w : ℕ) (mode : RMode) (v : FVal) : (toInteger sgn w mode v).1 < 2 ^ w := by
  cases v with
  | nan s => exact Nat.two_pow_pos w
  | inf n => exact wrap_lt w _
  | fin n m e => exact wrap_lt w _

theorem toScale_lt (v : FVal) : (toScale v).1 < 256 := by
  cases v with
  | nan s => exact Nat.lt_succ_self 255
  | inf n => exact Nat.lt_succ_self 255
  | fin n m e =>
    simp only [toScale]
    split
    · decide
    · split
      · decide
      · split
        · decide
        · show Int.toNat _ < 256
          omega

theorem nanCode_lt (f : Fmt) : f.nanCode < 2 ^ f.bits := by cases f <;> decide

theorem encodeFmt_inf_lt {f : Fmt} (hf : isBinary f) (mode : RMode) (sat ftz neg : Bool) :
    (encodeFmt f mode sat ftz (.inf neg)).1 < 2 ^ f.bits := by
  by_cases h4 : f = .e4m3
  · subst h4
    cases sat <;> exact signCode_add_lt hf (by decide) neg
  · by_cases h2 : f = .e2m1
    · subst h2
      exact signCode_add_lt hf (by decide) neg
    · have hi := hasInf_of_isBinary hf h4 h2
      rw [encodeFmt_inf hi]
      exact (decodeFmt_infCode hi neg).1

theorem encodeFmt_nan_code {f : Fmt} (hf : isBinary f ∨ f = .t8 ∨ f = .t6) (mode : RMode) (sat ftz s : Bool) :
    (encodeFmt f mode sat ftz (.nan s)).1 = f.nanCode := by
  rcases hf with (rfl | rfl | rfl | rfl | rfl | rfl | rfl) | rfl | rfl <;> rfl

theorem encodeFmt_binary_lt {f : Fmt} (hf : isBinary f) (mode : RMode) (sat ftz : Bool) (v : FVal) :
    (encodeFmt f mode sat ftz v).1 < 2 ^ f.bits := by
  cases v with
  | fin neg m e =>
    rw [encodeFmt_fin hf]
    exact encodeBin_lt hf mode sat ftz neg m e
  | nan s => exact (encodeFmt_nan_code (Or.inl hf) mode sat ftz s).trans_lt (nanCode_lt f)
  | inf neg => exact encodeFmt_inf_lt hf mode sat ftz neg

theorem encodeFmt_tapered_lt {f : Fmt} {n : ℕ} (hf : (f = .t8 ∧ n = 8) ∨ (f = .t6 ∧ n = 6)) (mode : RMode) (sat ftz : Bool) (v : FVal) :
    (encodeFmt f mode sat ftz v).1 < 2 ^ f.bits := by
  have hbits : f.bits = n := by rcases hf with ⟨rfl, rfl⟩ | ⟨rfl, rfl⟩ <;> rfl
  cases v with
  | fin neg m e =>
    rw [encodeFmt_tapered hf, hbits]
    split
    · exact Nat.two_pow_pos n
    · exact encodeTapered_lt (hf.imp And.right And.right) mode neg m e
  | nan s => exact (encodeFmt_nan_code (Or.inr (hf.imp And.left And.left)) mode sat ftz s).trans_lt (nanCode_lt f)
  | inf neg =>
    have hinf : (encodeFmt f mode sat ftz (.inf neg)).1 = f.nanCode := by rcases hf with ⟨rfl, -⟩ | ⟨rfl, -⟩ <;> rfl
    exact hinf.trans_lt (nanCode_lt f)

/-- Every code that an encoding gives fits its format. -/
theorem encodeFmt_lt (f : Fmt) (mode : RMode) (sat ftz : Bool) (v : FVal) : (encodeFmt f mode sat ftz v).1 < 2 ^ f.bits := by
  cases f with
  | f64 | f32 | f16 | bf16 | e5m2 | e4m3 | e2m1 => exact encodeFmt_binary_lt (by simp [isBinary]) mode sat ftz v
  | t8 => exact encodeFmt_tapered_lt (Or.inl ⟨rfl, rfl⟩) mode sat ftz v
  | t6 => exact encodeFmt_tapered_lt (Or.inr ⟨rfl, rfl⟩) mode sat ftz v
  | int8 | int16 | int32 | int64 => exact toInteger_lt true _ mode v
  | mod64 => exact Nat.two_pow_pos _
  | e8m0 => exact toScale_lt v

/-! ## The formats of lane registers -/

theorem fwFmt_bits (w : FW) : (fwFmt w).bits = fwBits w := by cases w <;> rfl

theorem hasInf_fwFmt (w : FW) : HasInf (fwFmt w) := by
  cases w <;> simp [fwFmt, HasInf]

theorem isBinary_fwFmt (w : FW) : isBinary (fwFmt w) := isBinary_of_hasInf (hasInf_fwFmt w)

theorem finishBin_lt (w : FW) (mode : RMode) (ftz : Bool) (r : FVal × FFlags) : (finishBin (fwFmt w) mode ftz r).1 < 2 ^ fwBits w :=
  fwFmt_bits w ▸ encodeFmt_lt (fwFmt w) mode false ftz r.1

/-! ## Exact sums and products -/

theorem rat_fin (n : Bool) (m : ℕ) (e : ℤ) : rat (.fin n m e) = (if n then -1 else 1) * m * 2 ^ e := rfl

theorem rat_fin_eq_zero {n : Bool} {m : ℕ} {e : ℤ} : rat (.fin n m e) = 0 ↔ m = 0 := by
  have h2 : (2 : ℚ) ^ e ≠ 0 := by positivity
  cases n <;> simp [rat_fin, h2]

theorem scaledInt_mul (n : Bool) (m : ℕ) {e u : ℤ} (h : u ≤ e) : (scaledInt n m e u : ℚ) * 2 ^ u = rat (.fin n m e) := by
  have hscale : ((m * 2 ^ (e - u).toNat : ℕ) : ℚ) * 2 ^ u = m * 2 ^ e := by
    push_cast
    rw [← zpow_natCast, Int.toNat_of_nonneg (by omega), mul_assoc, ← zpow_add₀ two_ne_zero]
    congr 2
    ring
  cases n
  · simp only [scaledInt, rat_fin, Bool.false_eq_true, if_false, one_mul, Int.cast_natCast, hscale]
  · simp only [scaledInt, rat_fin, if_true, Int.cast_neg, Int.cast_natCast, neg_mul, one_mul, hscale]

/-- The value of an integer in units of 2^u. -/
theorem rat_ofInt (z u : ℤ) : rat (.fin (z < 0) z.natAbs u) = z * 2 ^ u := by
  rw [rat_fin]
  congr 1
  by_cases h : z < 0
  · have : ((z.natAbs : ℤ) : ℚ) = -z := by rw [Int.ofNat_natAbs_of_nonpos h.le]; push_cast; rfl
    simp only [h, decide_true, if_true]
    rw [← Int.cast_natCast, this]
    ring
  · have : ((z.natAbs : ℤ) : ℚ) = z := by rw [Int.natAbs_of_nonneg (not_lt.1 h)]
    simp only [h, decide_false, Bool.false_eq_true, if_false]
    rw [← Int.cast_natCast, this, one_mul]

/-- The exact sum of two finite values, and the sign of a zero sum (R127). -/
theorem addVal_fin (rdn n₁ n₂ : Bool) (m₁ m₂ : ℕ) (e₁ e₂ : ℤ) :
    ∃ n m e, addVal rdn (.fin n₁ m₁ e₁) (.fin n₂ m₂ e₂) = (.fin n m e, 0) ∧
      rat (.fin n m e) = rat (.fin n₁ m₁ e₁) + rat (.fin n₂ m₂ e₂) ∧
      (m = 0 → n = if m₁ = 0 ∧ m₂ = 0 ∧ n₁ = n₂ then n₁ else rdn) := by
  set u := min e₁ e₂ with hu
  set z := scaledInt n₁ m₁ e₁ u + scaledInt n₂ m₂ e₂ u with hz
  have hsum : (z : ℚ) * 2 ^ u = rat (.fin n₁ m₁ e₁) + rat (.fin n₂ m₂ e₂) := by
    rw [hz, Int.cast_add, add_mul, scaledInt_mul _ _ (min_le_left _ _), scaledInt_mul _ _ (min_le_right _ _)]
  have hadd : addVal rdn (.fin n₁ m₁ e₁) (.fin n₂ m₂ e₂) =
      if m₁ = 0 ∧ m₂ = 0 then (.fin (if n₁ = n₂ then n₁ else rdn) 0 0, 0)
      else if z = 0 then (.fin rdn 0 0, 0) else (.fin (z < 0) z.natAbs u, 0) := rfl
  by_cases h0 : m₁ = 0 ∧ m₂ = 0
  · refine ⟨_, _, _, hadd.trans (if_pos h0), ?_, fun _ => by simp [h0]⟩
    rw [rat_fin_eq_zero.2 rfl, rat_fin_eq_zero.2 h0.1, rat_fin_eq_zero.2 h0.2, add_zero]
  · have hsign : ¬ (m₁ = 0 ∧ m₂ = 0 ∧ n₁ = n₂) := fun h => h0 ⟨h.1, h.2.1⟩
    by_cases hz0 : z = 0
    · refine ⟨_, _, _, hadd.trans ((if_neg h0).trans (if_pos hz0)), ?_, fun _ => (if_neg hsign).symm⟩
      rw [rat_fin_eq_zero.2 rfl, ← hsum, hz0, Int.cast_zero, zero_mul]
    · refine ⟨_, _, _, hadd.trans ((if_neg h0).trans (if_neg hz0)), ?_, fun h => absurd (Int.natAbs_eq_zero.1 h) hz0⟩
      rw [rat_ofInt, hsum]

theorem rat_mul (n₁ n₂ : Bool) (m₁ m₂ : ℕ) (e₁ e₂ : ℤ) :
    rat (.fin (n₁ != n₂) (m₁ * m₂) (e₁ + e₂)) = rat (.fin n₁ m₁ e₁) * rat (.fin n₂ m₂ e₂) := by
  have h2 : (2 : ℚ) ^ (e₁ + e₂) = 2 ^ e₁ * 2 ^ e₂ := zpow_add₀ two_ne_zero _ _
  cases n₁ <;> cases n₂ <;> simp only [rat_fin, h2, Nat.cast_mul] <;> simp <;> ring

end Sys2Proof
end

section
/-! PROOFS. The rules of R127 hold of the model's addition, multiplication and fused multiply-add, and so of every arithmetic float
instruction (O13). -/
namespace Sys2Proof
open Sys2Proof.Machine

/-! ## Rounding an exact result -/

section
variable {f : Fmt} (hf : HasInf f) (mode : RMode) (ftz : Bool)
include hf

theorem finishBin_nan (fl : FFlags) : finishBin f mode ftz (.nan false, fl) = (f.nanCode, fl) := by
  simp [finishBin, encodeFmt_nan hf]

theorem finishBin_inf (p : Bool) : finishBin f mode ftz (.inf p, 0) = (signCode f p + f.infCode, 0) := by
  simp [finishBin, encodeFmt_inf hf]

omit hf in
theorem finishBin_fin (n : Bool) (m : ℕ) (e : ℤ) :
    finishBin f mode ftz (.fin n m e, 0) = encodeFmt f mode false ftz (.fin n m e) := by
  simp [finishBin]

theorem finishBin_zero {n : Bool} {m : ℕ} {e : ℤ} (h : m = 0) : finishBin f mode ftz (.fin n m e, 0) = (signCode f n, 0) := by
  rw [finishBin_fin, encodeFmt_fin (isBinary_of_hasInf hf), h, encodeBin_zero]

omit hf in
theorem roundsOnce_finishBin {n : Bool} {m : ℕ} {e : ℤ} {q : ℚ} (h : rat (.fin n m e) = q) :
    RoundsOnce f mode ftz q (finishBin f mode ftz (.fin n m e, 0)) :=
  ⟨n, m, e, h, finishBin_fin mode ftz n m e⟩

end

/-! ## Operands that are no finite values -/

theorem exists_fin {v : FVal} (h : isFin v = true) : ∃ n m e, v = .fin n m e := by
  cases v with
  | fin n m e => exact ⟨n, m, e, rfl⟩
  | inf n => simp [isFin] at h
  | nan s => simp [isFin] at h

theorem exists_nan {v : FVal} (h : v.isNan = true) : ∃ s, v = .nan s := by
  cases v with
  | fin n m e => simp [FVal.isNan] at h
  | inf n => simp [FVal.isNan] at h
  | nan s => exact ⟨s, rfl⟩

theorem exists_inf {v : FVal} (h : v.isInf = true) : ∃ n, v = .inf n := by
  cases v with
  | fin n m e => simp [FVal.isInf] at h
  | inf n => exact ⟨n, rfl⟩
  | nan s => simp [FVal.isInf] at h

theorem exists_zero {v : FVal} (h : v.isZero = true) : ∃ n e, v = .fin n 0 e := by
  cases v with
  | fin n m e => exact ⟨n, e, by simpa [FVal.isZero] using h⟩
  | inf n => simp [FVal.isZero] at h
  | nan s => simp [FVal.isZero] at h

theorem sigFlags_two (x y : FVal) : sigFlags [x, y] = if x.isSig || y.isSig then flagNV else 0 := by
  simp [sigFlags, flagIf]

theorem sigFlags_three (x y z : FVal) : sigFlags [x, y, z] = if x.isSig || y.isSig || z.isSig then flagNV else 0 := by
  simp [sigFlags, flagIf, Bool.or_assoc]

theorem addVal_nan (rdn : Bool) {x y : FVal} (h : x.isNan = true ∨ y.isNan = true) :
    addVal rdn x y = (.nan false, sigFlags [x, y]) := by
  rcases h with h | h
  · obtain ⟨s, rfl⟩ := exists_nan h
    cases y <;> rfl
  · obtain ⟨s, rfl⟩ := exists_nan h
    cases x <;> rfl

theorem mulVal_nan {x y : FVal} (h : x.isNan = true ∨ y.isNan = true) : mulVal x y = (.nan false, sigFlags [x, y]) := by
  rcases h with h | h
  · obtain ⟨s, rfl⟩ := exists_nan h
    cases y <;> rfl
  · obtain ⟨s, rfl⟩ := exists_nan h
    cases x <;> rfl

theorem addVal_inf (rdn : Bool) {x y : FVal} {p : Bool}
    (h : (x = .inf p ∧ isFin y = true) ∨ (isFin x = true ∧ y = .inf p) ∨ (x = .inf p ∧ y = .inf p)) :
    addVal rdn x y = (.inf p, 0) := by
  rcases h with ⟨rfl, hy⟩ | ⟨hx, rfl⟩ | ⟨rfl, rfl⟩
  · obtain ⟨n, m, e, rfl⟩ := exists_fin hy
    rfl
  · obtain ⟨n, m, e, rfl⟩ := exists_fin hx
    rfl
  · exact if_pos rfl

theorem addVal_opposed (rdn p : Bool) : addVal rdn (.inf p) (.inf (!p)) = (.nan false, flagNV) := by
  cases p <;> rfl

/-- A factor that is infinite against one that is neither a NaN nor zero. -/
theorem mulVal_inf {x y : FVal} (h : (x.isInf = true ∧ y.isNan = false ∧ y.isZero = false) ∨
      (y.isInf = true ∧ x.isNan = false ∧ x.isZero = false)) :
    mulVal x y = (.inf (x.neg != y.neg), 0) := by
  rcases h with ⟨hx, hn, hz⟩ | ⟨hy, hn, hz⟩
  · obtain ⟨a, rfl⟩ := exists_inf hx
    cases y with
    | nan s => cases hn
    | inf b => rfl
    | fin n m e => exact if_neg (by simpa [FVal.isZero] using hz)
  · obtain ⟨b, rfl⟩ := exists_inf hy
    cases x with
    | nan s => cases hn
    | inf a => rfl
    | fin n m e =>
      rw [bne_comm]
      exact if_neg (by simpa [FVal.isZero] using hz)

theorem mulVal_invalid {x y : FVal} (h : (x.isZero = true ∧ y.isInf = true) ∨ (x.isInf = true ∧ y.isZero = true)) :
    mulVal x y = (.nan false, flagNV) := by
  rcases h with ⟨hx, hy⟩ | ⟨hx, hy⟩
  · obtain ⟨n, e, rfl⟩ := exists_zero hx
    obtain ⟨b, rfl⟩ := exists_inf hy
    rfl
  · obtain ⟨a, rfl⟩ := exists_inf hx
    obtain ⟨n, e, rfl⟩ := exists_zero hy
    rfl

theorem zeroTimesInf_iff (x y : FVal) :
    zeroTimesInf x y = true ↔ (x.isZero = true ∧ y.isInf = true) ∨ (x.isInf = true ∧ y.isZero = true) := by
  simp [zeroTimesInf]

/-- A fused multiply-add with no NaN and no invalid product is the exact product and the exact sum. -/
theorem fmaVal_eq (rdn : Bool) {x y z : FVal} (hx : x.isNan = false) (hy : y.isNan = false) (hz : z.isNan = false)
    (hinv : ¬ ((x.isZero = true ∧ y.isInf = true) ∨ (x.isInf = true ∧ y.isZero = true))) :
    fmaVal rdn x y z = addVal rdn (mulVal x y).1 z := by
  rw [fmaVal, if_neg ((zeroTimesInf_iff x y).not.2 hinv), hx, hy, hz]
  rfl

theorem not_invalid_of_inf {x y : FVal} (h : (x.isInf = true ∧ y.isNan = false ∧ y.isZero = false) ∨
      (y.isInf = true ∧ x.isNan = false ∧ x.isZero = false)) :
    x.isNan = false ∧ y.isNan = false ∧ ¬ ((x.isZero = true ∧ y.isInf = true) ∨ (x.isInf = true ∧ y.isZero = true)) := by
  rcases h with ⟨hx, hn, hz⟩ | ⟨hy, hn, hz⟩
  · obtain ⟨a, rfl⟩ := exists_inf hx
    exact ⟨rfl, hn, by simp [hz, show (FVal.inf a).isZero = false from rfl]⟩
  · obtain ⟨b, rfl⟩ := exists_inf hy
    exact ⟨hn, rfl, by simp [hz, show (FVal.inf b).isZero = false from rfl]⟩

/-- The sum of an infinity and a value that is no NaN. -/
theorem inf_addVal (rdn p : Bool) {z : FVal} (hz : z.isNan = false) :
    addVal rdn (.inf p) z = if z = .inf (!p) then (.nan false, flagNV) else (.inf p, 0) := by
  cases z with
  | nan s => cases hz
  | fin n m e => exact (if_neg (by simp)).symm
  | inf b => cases p <;> cases b <;> rfl

/-! ## The rules of R127 -/

section
variable {f : Fmt} (hf : HasInf f) (mode : RMode) (ftz : Bool)
include hf

theorem addRule_finishBin (x y : FVal) : AddRule f mode ftz x y (finishBin f mode ftz (addVal (isRdn mode) x y)) where
  nan h := by rw [addVal_nan _ h, finishBin_nan hf, NanRule, sigFlags_two]
  inf p h := by rw [addVal_inf _ h, finishBin_inf hf]
  opposed p h := by rw [h.1, h.2, addVal_opposed, finishBin_nan hf]
  sum h _ := by
    obtain ⟨n₁, m₁, e₁, rfl⟩ := exists_fin h.1
    obtain ⟨n₂, m₂, e₂, rfl⟩ := exists_fin h.2
    obtain ⟨n, m, e, hadd, hrat, -⟩ := addVal_fin (isRdn mode) n₁ n₂ m₁ m₂ e₁ e₂
    rw [hadd]
    exact roundsOnce_finishBin mode ftz hrat
  zero h h0 := by
    obtain ⟨n₁, m₁, e₁, rfl⟩ := exists_fin h.1
    obtain ⟨n₂, m₂, e₂, rfl⟩ := exists_fin h.2
    obtain ⟨n, m, e, hadd, hrat, hsign⟩ := addVal_fin (isRdn mode) n₁ n₂ m₁ m₂ e₁ e₂
    have hm : m = 0 := rat_fin_eq_zero.1 (hrat.trans h0)
    rw [hadd, finishBin_zero hf mode ftz hm, hsign hm]
    simp [FVal.isZero, FVal.neg, isRdn, and_assoc]

theorem mulRule_finishBin (x y : FVal) : MulRule f mode ftz x y (finishBin f mode ftz (mulVal x y)) where
  nan h := by rw [mulVal_nan h, finishBin_nan hf, NanRule, sigFlags_two]
  invalid h := by rw [mulVal_invalid h, finishBin_nan hf]
  inf h := by rw [mulVal_inf h, finishBin_inf hf]
  product h _ := by
    obtain ⟨n₁, m₁, e₁, rfl⟩ := exists_fin h.1
    obtain ⟨n₂, m₂, e₂, rfl⟩ := exists_fin h.2
    exact roundsOnce_finishBin mode ftz (rat_mul n₁ n₂ m₁ m₂ e₁ e₂)
  zero h h0 := by
    obtain ⟨n₁, m₁, e₁, rfl⟩ := exists_fin h.1
    obtain ⟨n₂, m₂, e₂, rfl⟩ := exists_fin h.2
    rw [← rat_mul] at h0
    exact finishBin_zero hf mode ftz (rat_fin_eq_zero.1 h0)

theorem fmaRule_finishBin (x y z : FVal) : FmaRule f mode ftz x y z (finishBin f mode ftz (fmaVal (isRdn mode) x y z)) where
  invalid h := by
    rw [fmaVal, if_pos ((zeroTimesInf_iff x y).2 h), finishBin_nan hf, sigFlags_three]
    congr 1
    split <;> rfl
  nan h hn := by
    have hnan : (x.isNan || y.isNan || z.isNan) = true := by simpa [or_assoc] using hn
    rw [fmaVal, if_neg ((zeroTimesInf_iff x y).not.2 h), if_pos hnan, finishBin_nan hf, sigFlags_three]
  inf h hz := by
    obtain ⟨hx, hy, hinv⟩ := not_invalid_of_inf h
    have hsign : (!(x.neg != y.neg)) = (x.neg == y.neg) := by simp [bne]
    rw [fmaVal_eq _ hx hy hz hinv, mulVal_inf h, inf_addVal _ _ hz, hsign]
    split
    · exact finishBin_nan hf mode ftz flagNV
    · exact finishBin_inf hf mode ftz _
  addend p h := by
    obtain ⟨hx, hy, rfl⟩ := h
    obtain ⟨n₁, m₁, e₁, rfl⟩ := exists_fin hx
    obtain ⟨n₂, m₂, e₂, rfl⟩ := exists_fin hy
    rw [fmaVal_eq _ rfl rfl rfl (by simp [FVal.isInf])]
    exact finishBin_inf hf mode ftz p
  sum h _ := by
    obtain ⟨hx, hy, hz⟩ := h
    obtain ⟨n₁, m₁, e₁, rfl⟩ := exists_fin hx
    obtain ⟨n₂, m₂, e₂, rfl⟩ := exists_fin hy
    obtain ⟨n₃, m₃, e₃, rfl⟩ := exists_fin hz
    obtain ⟨n, m, e, hadd, hrat, -⟩ := addVal_fin (isRdn mode) (n₁ != n₂) n₃ (m₁ * m₂) m₃ (e₁ + e₂) e₃
    rw [fmaVal_eq _ rfl rfl rfl (by simp [FVal.isInf])]
    rw [rat_mul] at hrat
    exact hadd ▸ roundsOnce_finishBin mode ftz hrat
  zero h h0 := by
    obtain ⟨hx, hy, hz⟩ := h
    obtain ⟨n₁, m₁, e₁, rfl⟩ := exists_fin hx
    obtain ⟨n₂, m₂, e₂, rfl⟩ := exists_fin hy
    obtain ⟨n₃, m₃, e₃, rfl⟩ := exists_fin hz
    obtain ⟨n, m, e, hadd, hrat, hsign⟩ := addVal_fin (isRdn mode) (n₁ != n₂) n₃ (m₁ * m₂) m₃ (e₁ + e₂) e₃
    rw [rat_mul, h0] at hrat
    have hm : m = 0 := rat_fin_eq_zero.1 hrat
    rw [fmaVal_eq _ rfl rfl rfl (by simp [FVal.isInf])]
    refine (congrArg _ hadd).trans ?_
    rw [finishBin_zero hf mode ftz hm, hsign hm]
    have hcond : ((((FVal.fin n₁ m₁ e₁).isZero || (FVal.fin n₂ m₂ e₂).isZero) && (FVal.fin n₃ m₃ e₃).isZero &&
        ((FVal.fin n₁ m₁ e₁).neg != (FVal.fin n₂ m₂ e₂).neg) == (FVal.fin n₃ m₃ e₃).neg) = true) ↔
        m₁ * m₂ = 0 ∧ m₃ = 0 ∧ (n₁ != n₂) = n₃ := by
      simp [FVal.isZero, FVal.neg, and_assoc]
    simp only [hcond]
    split
    · next hs => rw [hs.2.2]; rfl
    · rfl

end

/-! ## O13 -/

/-- Settles O13: each instruction is the exact operation on the flushed operands, rounded once. -/
theorem floatArithmetic : Obligations.FloatArithmetic := by
  unfold Obligations.FloatArithmetic
  intro s w d a b c ftz np na n f mode A B C D minus fab
  have hf := hasInf_fwFmt w
  -- every result is an exact value rounded by `finishBin`, whose code fits
  have hlt : ∀ (z : Bool) (v : ℕ → ℕ → FVal × FFlags) (x j : ℕ), (finishBin f mode z (v x j)).1 < 2 ^ n :=
    fun z v x j => finishBin_lt w mode z (v x j)
  have hadd := addRule_finishBin hf mode
  have hmul := mulRule_finishBin hf mode
  have hfma := fmaRule_finishBin hf mode
  exact ⟨float2_runs (exec_fadd w d a b s) (hlt false _) fun x j => hadd false (A false x j) (B false x j),
    float2_runs (exec_faddFtz w d a b s) (hlt true _) fun x j => hadd true (A true x j) (B true x j),
    float2_runs (exec_fsub w d a b s) (hlt false _) fun x j => hadd false (A false x j) (B false x j).negate,
    float2_runs (exec_fsubFtz w d a b s) (hlt true _) fun x j => hadd true (A true x j) (B true x j).negate,
    float2_runs (exec_fmul w d a b s) (hlt false _) fun x j => hmul false (A false x j) (B false x j),
    float2_runs (exec_fmulFtz w d a b s) (hlt true _) fun x j => hmul true (A true x j) (B true x j),
    float2d_runs (exec_fma w d a b s) (fun _ _ _ => finishBin_lt w _ _ _) fun x j =>
      hfma false (A false x j) (B false x j) (D false x j),
    float2d_runs (exec_fmaFtz w d a b s) (fun _ _ _ => finishBin_lt w _ _ _) fun x j =>
      hfma true (A true x j) (B true x j) (D true x j),
    runs_teamStep (exec_fma3 w d a b c ftz np na s) (laneResultF_floatEffect s.cur 8 w d _ (hlt ftz _) fun x j =>
      hfma ftz (minus np (A ftz x j)) (B ftz x j) (minus na (C ftz x j)))⟩

end Sys2Proof
end

section
/-! PROOFS. Order, sign, integral values and classes of floats (R128, R129), and the obligation on them (O14). -/
namespace Sys2Proof
open Sys2Proof.Machine

/-! ## Order -/

theorem scaledInt_lt_iff (n₁ n₂ : Bool) (m₁ m₂ : ℕ) (e₁ e₂ : ℤ) :
    scaledInt n₁ m₁ e₁ (min e₁ e₂) < scaledInt n₂ m₂ e₂ (min e₁ e₂) ↔ rat (.fin n₁ m₁ e₁) < rat (.fin n₂ m₂ e₂) := by
  have hu : (0 : ℚ) < 2 ^ (min e₁ e₂) := by positivity
  rw [← scaledInt_mul n₁ m₁ (min_le_left e₁ e₂), ← scaledInt_mul n₂ m₂ (min_le_right e₁ e₂), mul_lt_mul_iff_left₀ hu, Int.cast_lt]

theorem ltVal_iff (x y : FVal) : ltVal x y = true ↔ LessThan x y := by
  cases x with
  | nan s => simp [ltVal, LessThan]
  | inf a => cases y <;> simp [ltVal, LessThan]
  | fin n₁ m₁ e₁ =>
    cases y with
    | nan s => simp [ltVal, LessThan]
    | inf b => simp [ltVal, LessThan]
    | fin n₂ m₂ e₂ => simp [ltVal, LessThan, scaledInt_lt_iff]

theorem LessThan.ordered {x y : FVal} (h : LessThan x y) : x.isNan = false ∧ y.isNan = false := by
  cases x <;> cases y <;> simp_all [LessThan, FVal.isNan]

theorem LessThan.asymm {x y : FVal} (h : LessThan x y) : ¬ LessThan y x := by
  cases x <;> cases y <;> simp_all [LessThan]
  exact h.le

/-- Two ordered values, neither below the other. -/
def EqualValues (x y : FVal) : Prop := (x.isNan = false ∧ y.isNan = false) ∧ ¬ LessThan x y ∧ ¬ LessThan y x

theorem eqVal_iff (x y : FVal) : eqVal x y = true ↔ EqualValues x y := by
  simp [EqualValues, eqVal, ← ltVal_iff, and_assoc]

theorem eqVal_of_zeros {x y : FVal} (hx : x.isZero = true) (hy : y.isZero = true) : eqVal x y = true := by
  obtain ⟨n₁, e₁, rfl⟩ := exists_zero hx
  obtain ⟨n₂, e₂, rfl⟩ := exists_zero hy
  rw [eqVal_iff, EqualValues]
  simp only [LessThan, rat_fin_eq_zero.2 rfl]
  exact ⟨⟨rfl, rfl⟩, lt_irrefl _, lt_irrefl _⟩

theorem ltTotal_of_lessThan {x y : FVal} (h : LessThan x y) : ltTotal x y = true := by
  simp [ltTotal, (ltVal_iff x y).2 h]

theorem ltTotal_of_greaterThan {x y : FVal} (h : LessThan y x) : ltTotal x y = false := by
  have h1 : ltVal x y = false := by simpa using (ltVal_iff x y).not.2 h.asymm
  have h2 : eqVal x y = false := by simpa using (eqVal_iff x y).not.2 fun he => he.2.2 h
  simp [ltTotal, h1, h2]

/-- Of two zeros the negative one counts as the smaller (R128). -/
theorem ltTotal_of_zeros {x y : FVal} (hx : x.isZero = true) (hy : y.isZero = true) : ltTotal x y = (x.neg && !y.neg) := by
  have he := eqVal_of_zeros hx hy
  have hlt : ltVal x y = false := by simpa using (ltVal_iff x y).not.2 ((eqVal_iff x y).1 he).2.1
  simp [ltTotal, he, hlt]

/-! ## Minimum and maximum -/

section
variable {f : Fmt} {a b : ℕ} (less : Bool) (ha : a < 2 ^ f.bits) (hb : b < 2 ^ f.bits)
include ha hb

theorem floatMinMax_ordered (hx : (decodeFmt f a).isNan = false) (hy : (decodeFmt f b).isNan = false) :
    (floatMinMax f less a b).1 =
      if ltTotal (decodeFmt f a) (decodeFmt f b) then (if less then a else b) else if less then b else a := by
  simp only [floatMinMax, hx, hy]
  cases less <;> cases ltTotal (decodeFmt f a) (decodeFmt f b) <;> simp [Nat.mod_eq_of_lt ha, Nat.mod_eq_of_lt hb]

theorem minMaxRule_floatMinMax : MinMaxRule f less a b (floatMinMax f less a b) where
  flags := by
    simp only [floatMinMax, ← sigFlags_two]
    split_ifs <;> rfl
  nans hx hy := by simp [floatMinMax, hx, hy]
  first hx hy := by simp [floatMinMax, hx, hy, Nat.mod_eq_of_lt hb]
  second hx hy := by simp [floatMinMax, hx, hy, Nat.mod_eq_of_lt ha]
  below h := by rw [floatMinMax_ordered less ha hb h.ordered.1 h.ordered.2, ltTotal_of_lessThan h]; rfl
  above h := by rw [floatMinMax_ordered less ha hb h.ordered.2 h.ordered.1, ltTotal_of_greaterThan h]; rfl
  zeros hx hy hnx hny := by
    obtain ⟨⟨h1, h2⟩, -⟩ := (eqVal_iff _ _).1 (eqVal_of_zeros hx hy)
    rw [floatMinMax_ordered less ha hb h1 h2, ltTotal_of_zeros hx hy, hnx, hny]; rfl
  zeros' hx hy hnx hny := by
    obtain ⟨⟨h1, h2⟩, -⟩ := (eqVal_iff _ _).1 (eqVal_of_zeros hx hy)
    rw [floatMinMax_ordered less ha hb h1 h2, ltTotal_of_zeros hx hy, hnx, hny]; rfl
  either hx hy := by
    rw [floatMinMax_ordered less ha hb hx hy]
    split_ifs <;> simp

end

theorem floatMinMax_lt (f : Fmt) (less : Bool) (a b : ℕ) : (floatMinMax f less a b).1 < 2 ^ f.bits := by
  have hpos := Nat.two_pow_pos f.bits
  simp only [floatMinMax]
  split
  · exact nanCode_lt f
  · split_ifs <;> exact Nat.mod_lt _ hpos

/-! ## Codes of special values -/

section
variable {f : Fmt} {c : ℕ} (hf : HasInf f) (hc : c < 2 ^ f.bits)
include hf hc

/-- `decodeFmt_code` in the formats that have infinities. -/
theorem decodeFmt_code_hasInf :
    decodeFmt f c =
      let e := c / 2 ^ f.fracBits % 2 ^ f.expBits
      let fr := c % 2 ^ f.fracBits
      let neg := c.testBit (f.bits - 1)
      if e = 2 ^ f.expBits - 1 then if fr = 0 then .inf neg else .nan (!fr.testBit (f.fracBits - 1))
      else if e = 0 then .fin neg fr (1 - (f.bias : ℤ) - f.fracBits)
      else .fin neg (2 ^ f.fracBits + fr) ((e : ℤ) - f.bias - f.fracBits) := by
  have h4 : f ≠ .e4m3 := by rintro rfl; simp [HasInf] at hf
  have h2 : f ≠ .e2m1 := by rintro rfl; simp [HasInf] at hf
  rw [decodeFmt_code (isBinary_of_hasInf hf) hc]
  simp [h2, h4]

theorem decodeFmt_neg (hn : (decodeFmt f c).isNan = false) : (decodeFmt f c).neg = c.testBit (f.bits - 1) := by
  rw [decodeFmt_code_hasInf hf hc] at hn ⊢
  dsimp only at hn ⊢
  split_ifs at hn ⊢
  · rfl
  · cases hn
  · rfl
  · rfl

theorem code_of_inf {n : Bool} (h : decodeFmt f c = .inf n) : c = signCode f n + f.infCode := by
  have hinf : f.infCode = (2 ^ f.expBits - 1) * 2 ^ f.fracBits := by rcases hf with rfl | rfl | rfl | rfl | rfl <;> rfl
  have hcode := code_eq_fields (isBinary_of_hasInf hf) hc
  rw [decodeFmt_code_hasInf hf hc] at h
  dsimp only at h
  split_ifs at h with he hfr
  cases h
  rw [he, hfr] at hcode
  rw [hinf]
  exact hcode

theorem code_of_zero {n : Bool} {e : ℤ} (h : decodeFmt f c = .fin n 0 e) : c = signCode f n := by
  have hcode := code_eq_fields (isBinary_of_hasInf hf) hc
  rw [decodeFmt_code_hasInf hf hc] at h
  dsimp only at h
  split_ifs at h with he hfr he0
  · injection h with hn hm
    rw [he0, hm, hn] at hcode
    simpa using hcode
  · injection h with hn hm
    have := Nat.two_pow_pos f.fracBits
    omega

theorem isInf_or_isZero_code (h : (decodeFmt f c).isInf = true ∨ (decodeFmt f c).isZero = true) :
    (∃ n, decodeFmt f c = .inf n ∧ c = signCode f n + f.infCode) ∨ ∃ n e, decodeFmt f c = .fin n 0 e ∧ c = signCode f n := by
  rcases h with h | h
  · obtain ⟨n, hn⟩ := exists_inf h
    exact Or.inl ⟨n, hn, code_of_inf hf hc hn⟩
  · obtain ⟨n, e, hn⟩ := exists_zero h
    exact Or.inr ⟨n, e, hn, code_of_zero hf hc hn⟩

end

/-! ## Sign -/

/-- Turning the sign bit of a code. -/
theorem mod_add_not_sign {k c : ℕ} (hc : c < 2 ^ (k + 1)) : c % 2 ^ k + b2n (!c.testBit k) * 2 ^ k = c ^^^ 2 ^ k := by
  have hr : c % 2 ^ k < 2 ^ k := Nat.mod_lt _ (Nat.two_pow_pos k)
  refine Nat.eq_of_testBit_eq fun i => ?_
  rw [Nat.add_comm, Nat.mul_comm, Nat.testBit_two_pow_mul_add _ hr, Nat.testBit_xor, Nat.testBit_two_pow]
  rcases lt_trichotomy i k with h | rfl | h
  · simp [h, h.ne', Nat.testBit_mod_two_pow]
  · simp
    cases c.testBit i <;> rfl
  · have hhigh : c.testBit i = false := Nat.testBit_lt_two_pow (hc.trans_le (Nat.pow_le_pow_right two_pos h))
    obtain ⟨d, hd⟩ : ∃ d, i - k = d + 1 := ⟨i - k - 1, by omega⟩
    have hb : (b2n (!c.testBit k)).testBit (d + 1) = false := by
      cases c.testBit k <;> simp [b2n, Nat.testBit_succ]
    simp [h.not_gt, h.ne, hhigh, hd, hb]

theorem floatSign_nan {f : Fmt} {c : ℕ} (sg : Bool → Bool) (h : (decodeFmt f c).isNan = true) :
    floatSign f sg c = (f.nanCode, if (decodeFmt f c).isSig then flagNV else 0) := by
  obtain ⟨s, hs⟩ := exists_nan h
  simp only [floatSign, hs]
  rfl

theorem floatSign_ordered {f : Fmt} {c : ℕ} (sg : Bool → Bool) (h : (decodeFmt f c).isNan = false) :
    floatSign f sg c = (c % 2 ^ (f.bits - 1) + signCode f (sg (decodeFmt f c).neg), 0) := by
  cases hv : decodeFmt f c with
  | nan s => rw [hv] at h; cases h
  | inf n => simp only [floatSign, hv]
  | fin n m e => simp only [floatSign, hv]

theorem floatSign_lt {f : Fmt} (hf : isBinary f) (sg : Bool → Bool) (c : ℕ) : (floatSign f sg c).1 < 2 ^ f.bits := by
  cases h : (decodeFmt f c).isNan with
  | true =>
    rw [floatSign_nan sg h]
    exact nanCode_lt f
  | false =>
    rw [floatSign_ordered sg h, Nat.add_comm]
    exact signCode_add_lt hf (Nat.mod_lt _ (Nat.two_pow_pos _)) _

/-! ## Integral values -/

theorem roundedInt_of_roundedReal {mode : RMode} (hmode : ∀ b, mode ≠ .rsr b) {neg : Bool} {q : ℚ} (hq : 0 ≤ q) {k : ℕ}
    (h : RoundedReal mode neg (q : ℝ) k) : RoundedInt mode neg q k := by
  have hq' : (0 : ℝ) ≤ q := by exact_mod_cast hq
  have hdown : k = ⌊(q : ℝ)⌋₊ → (k : ℚ) ≤ q ∧ q < k + 1 := by
    rintro rfl
    exact ⟨by exact_mod_cast Nat.floor_le hq', by exact_mod_cast Nat.lt_floor_add_one (q : ℝ)⟩
  have hup : k = ⌈(q : ℝ)⌉₊ → (k : ℚ) - 1 < q ∧ q ≤ k := by
    rintro rfl
    refine ⟨?_, by exact_mod_cast Nat.le_ceil (q : ℝ)⟩
    have : (⌈(q : ℝ)⌉₊ : ℚ) < q + 1 := by exact_mod_cast Nat.ceil_lt_add_one hq'
    linarith
  cases mode with
  | rsr b => exact absurd rfl (hmode b)
  | rtz => exact hdown h
  | rup =>
    cases neg with
    | true => exact hdown h
    | false => exact hup h
  | rdn =>
    cases neg with
    | true => exact hup h
    | false => exact hdown h
  | rne =>
    obtain ⟨hle, htie⟩ := h
    have hcast : |(q : ℝ) - k| = ((|q - k| : ℚ) : ℝ) := by push_cast; rfl
    have hhalf : (1 / 2 : ℝ) = ((1 / 2 : ℚ) : ℝ) := by norm_num
    rw [hcast, hhalf] at hle htie
    exact ⟨Rat.cast_le.1 hle, fun he => htie (by rw [he])⟩

theorem modeOf_ne_rsr (frm : BitVec 3) (b : ℕ) : modeOf frm ≠ .rsr b := by
  unfold modeOf
  split <;> simp

theorem abs_rat_fin (n : Bool) (m : ℕ) (e : ℤ) : |rat (.fin n m e)| = m * 2 ^ e := by
  have h : (0 : ℚ) ≤ m * 2 ^ e := by positivity
  cases n <;> simp [rat_fin, abs_of_nonneg h]

/-- Rounding to an integer (R26, R128). -/
theorem roundAt_roundedInt {mode : RMode} (hmode : ∀ b, mode ≠ .rsr b) (n : Bool) (m : ℕ) (e : ℤ) :
    RoundedInt mode n |rat (.fin n m e)| (roundAt mode n m e 0).1 ∧
      ((roundAt mode n m e 0).2 = true ↔ ((roundAt mode n m e 0).1 : ℚ) ≠ |rat (.fin n m e)|) := by
  obtain ⟨hround, hinexact⟩ := roundAt_spec mode n m e 0
  rw [zpow_zero, div_one] at hround
  rw [zpow_zero, mul_one] at hinexact
  have hcast : (m : ℝ) * 2 ^ e = ((|rat (.fin n m e)| : ℚ) : ℝ) := by rw [abs_rat_fin]; push_cast; rfl
  rw [hcast] at hround hinexact
  refine ⟨roundedInt_of_roundedReal hmode (abs_nonneg _) hround, hinexact.trans ?_⟩
  rw [ne_eq, ne_eq, not_iff_not]
  exact_mod_cast Iff.rfl

theorem roundAt_zero (mode : RMode) (n : Bool) (e q : ℤ) : (roundAt mode n 0 e q).1 = 0 := by
  simp [roundAt]

section
variable {f : Fmt} {c : ℕ} (mode : RMode)

theorem floatRound_nan (h : (decodeFmt f c).isNan = true) :
    floatRound f mode c = (f.nanCode, if (decodeFmt f c).isSig then flagNV else 0) := by
  obtain ⟨s, hs⟩ := exists_nan h
  simp only [floatRound, hs]
  rfl

theorem floatRound_inf {n : Bool} (h : decodeFmt f c = .inf n) : floatRound f mode c = (signCode f n + f.infCode, 0) := by
  simp only [floatRound, h]

theorem floatRound_fin {n : Bool} {m : ℕ} {e : ℤ} (h : decodeFmt f c = .fin n m e) :
    floatRound f mode c = ((encodeBin f .rne false false n (roundAt mode n m e 0).1 0).1, 0) := by
  simp only [floatRound, h]

theorem floatRound_lt (hf : HasInf f) (c : ℕ) :
    (floatRound f mode c).1 < 2 ^ f.bits := by
  cases h : decodeFmt f c with
  | nan s =>
    rw [floatRound_nan mode (by rw [h]; rfl)]
    exact nanCode_lt f
  | inf n =>
    rw [floatRound_inf mode h]
    exact (decodeFmt_infCode hf n).1
  | fin n m e =>
    rw [floatRound_fin mode h]
    exact encodeBin_lt (isBinary_of_hasInf hf) _ _ _ _ _ _

theorem floatRound_integral (hf : HasInf f) (hc : c < 2 ^ f.bits)
    (h : (decodeFmt f c).isInf = true ∨ (decodeFmt f c).isZero = true) : floatRound f mode c = (c, 0) := by
  rcases isInf_or_isZero_code hf hc h with ⟨n, hv, hcode⟩ | ⟨n, e, hv, hcode⟩
  · rw [floatRound_inf mode hv, ← hcode]
  · rw [floatRound_fin mode hv, roundAt_zero, encodeBin_zero, ← hcode]

end

/-! ## Classes -/

/-- The class of a code by its fields (R128). -/
theorem floatClass_eq {f : Fmt} {c : ℕ} (hf : HasInf f) (hc : c < 2 ^ f.bits) :
    floatClass f c =
      let e := c / 2 ^ f.fracBits % 2 ^ f.expBits
      let fr := c % 2 ^ f.fracBits
      let neg := c.testBit (f.bits - 1)
      2 ^ (if e = 2 ^ f.expBits - 1 then
          (if fr = 0 then (if neg then 0 else 7) else if fr.testBit (f.fracBits - 1) then 9 else 8)
        else if e = 0 then (if fr = 0 then (if neg then 3 else 4) else if neg then 2 else 5)
        else if neg then 1 else 6) := by
  have hfr : c % 2 ^ f.fracBits < 2 ^ f.fracBits := Nat.mod_lt _ (Nat.two_pow_pos _)
  rw [floatClass, decodeFmt_code_hasInf hf hc]
  dsimp only
  generalize c.testBit (f.bits - 1) = neg
  generalize c % 2 ^ f.fracBits = fr at hfr ⊢
  generalize c / 2 ^ f.fracBits % 2 ^ f.expBits = e
  by_cases he : e = 2 ^ f.expBits - 1
  · rw [if_pos he, if_pos he]
    by_cases h0 : fr = 0
    · rw [if_pos h0, if_pos h0]
      cases neg <;> rfl
    · rw [if_neg h0, if_neg h0]
      cases fr.testBit (f.fracBits - 1) <;> rfl
  · rw [if_neg he, if_neg he]
    by_cases he0 : e = 0
    · rw [if_pos he0, if_pos he0]
      by_cases h0 : fr = 0
      · simp only [if_pos h0]
        cases neg <;> rfl
      · simp only [if_neg h0, if_pos hfr]
        cases neg <;> rfl
    · rw [if_neg he0, if_neg he0]
      have hm : 2 ^ f.fracBits + fr ≠ 0 := by have := Nat.two_pow_pos f.fracBits; omega
      simp only [if_neg hm, if_neg (Nat.le_add_right (2 ^ f.fracBits) fr).not_gt]
      cases neg <;> rfl

theorem floatClass_lt {f : Fmt} {c : ℕ} (hf : HasInf f) (hc : c < 2 ^ f.bits)
    (hbits : 16 ≤ f.bits) : floatClass f c < 2 ^ f.bits := by
  rw [floatClass_eq hf hc]
  refine Nat.pow_lt_pow_right one_lt_two (lt_of_lt_of_le ?_ hbits)
  split_ifs <;> decide

/-! ## Compares (R129) -/

theorem flagIf_nv_getLsbD (c : Bool) (k : ℕ) : (flagIf c flagNV).getLsbD k = true ↔ k = 4 ∧ c = true := by
  have hbit : flagNV.getLsbD k = true ↔ k = 4 := by
    rcases Nat.lt_or_ge k 9 with h | h
    · interval_cases k <;> decide
    · rw [BitVec.getLsbD_of_ge _ _ h]
      exact iff_of_false Bool.false_ne_true (by omega)
  cases c
  · simp [flagIf]
  · simp [flagIf, hbit]

/-- A compare whose condition and whose flags are as `P` and `nv` say of the decoded sub-elements 0. -/
theorem floatCmp_sets {i : Instr} {s : State} {w : FW} {d : MDst} {a b : LSrc} {p : FVal → FVal → Bool × FFlags}
    {P nv : FVal → FVal → Prop} (h : exec i s = floatCmp w d a b p s) (hp : ∀ x y, (p x y).1 = true ↔ P x y)
    (hnv : ∀ x y k, (p x y).2.getLsbD k = true ↔ k = 4 ∧ nv x y) :
    Runs i s fun u v => ∃ fl,
      MaskEffect d fl (fun x => s.cur.active x = true ∧ P (decodeFmt (fwFmt w) (s.cur.sub (fwBits w) a x 0))
        (decodeFmt (fwFmt w) (s.cur.sub (fwBits w) b x 0))) u v ∧
      ∀ k, fl.getLsbD k = true ↔ (s.cur.srcFlags a ||| s.cur.srcFlags b).getLsbD k = true ∨ (k = 4 ∧ ∃ x, x < s.cur.lanes ∧
        s.cur.active x = true ∧ nv (decodeFmt (fwFmt w) (s.cur.sub (fwBits w) a x 0))
          (decodeFmt (fwFmt w) (s.cur.sub (fwBits w) b x 0))) := by
  refine (floatCmp_runs h).imp ?_
  rintro u v ⟨fl, hm, hfl⟩
  refine ⟨fl, hm.iff fun x _ _ => and_congr_right fun _ => hp _ _, fun k => (hfl k).trans (or_congr Iff.rfl ?_)⟩
  simp only [hnv]
  constructor
  · rintro ⟨x, hx, ha, hk, hv⟩
    exact ⟨hk, x, hx, ha, hv⟩
  · rintro ⟨hk, x, hx, ha, hv⟩
    exact ⟨x, hx, ha, hk, hv⟩

theorem sigFlags_nv_iff (x y : FVal) (k : ℕ) :
    (sigFlags [x, y]).getLsbD k = true ↔ k = 4 ∧ (x.isSig = true ∨ y.isSig = true) := by
  rw [sigFlags, flagIf_nv_getLsbD]
  simp

theorem not_ordered_iff (x y : FVal) : (x.isNan || y.isNan) = true ↔ ¬ (x.isNan = false ∧ y.isNan = false) := by
  cases x.isNan <;> cases y.isNan <;> simp

theorem anyNan_nv_iff (x y : FVal) (k : ℕ) :
    (anyNan x y).getLsbD k = true ↔ k = 4 ∧ ¬ (x.isNan = false ∧ y.isNan = false) := by
  rw [anyNan, flagIf_nv_getLsbD, not_ordered_iff]

/-! ## O14 -/

/-- Settles O14: each result by the class of its operand, each compare by the order of the exact values. -/
theorem floatMinRoundClassCompare : Obligations.FloatMinRoundClassCompare := by
  unfold Obligations.FloatMinRoundClassCompare
  refine ⟨fun s w d a b => ?values, fun s w d a b => ?compares⟩
  case values =>
    intro n f A B fa fab nanGives e fr neg
    have hf := hasInf_fwFmt w
    have hbits : f.bits = n := fwFmt_bits w
    have h16 : 16 ≤ f.bits := by cases w <;> decide
    have hA : ∀ x j, A x j < 2 ^ f.bits := fun x j => hbits ▸ subEl_lt n _ j
    have hB : ∀ x j, B x j < 2 ^ f.bits := fun x j => hbits ▸ subEl_lt n _ j
    have hlt : ∀ {c : ℕ}, c < 2 ^ f.bits → c < 2 ^ n := fun h => hbits ▸ h
    refine ⟨float2_runs (exec_fmin w d a b s) (fun x j => hlt (floatMinMax_lt f true _ _)) fun x j =>
        minMaxRule_floatMinMax true (hA x j) (hB x j),
      float2_runs (exec_fmax w d a b s) (fun x j => hlt (floatMinMax_lt f false _ _)) fun x j =>
        minMaxRule_floatMinMax false (hA x j) (hB x j),
      float1_runs (exec_fabs w d a s) (fun x j => hlt (floatSign_lt (isBinary_fwFmt w) _ _)) fun x j =>
        ⟨floatSign_nan _, fun h => ?abs⟩,
      float1_runs (exec_fneg w d a s) (fun x j => hlt (floatSign_lt (isBinary_fwFmt w) _ _)) fun x j =>
        ⟨floatSign_nan _, fun h => ?neg⟩,
      float1_runs (exec_frnd w d a s) (fun x j => hlt (floatRound_lt _ hf _)) fun x j =>
        ⟨floatRound_nan _, floatRound_integral _ hf (hA x j), fun g m k h => ?round⟩,
      float1_runs (exec_fclass w d a s) (fun x j => hlt (floatClass_lt hf (hA x j) h16)) fun x j => ?classes⟩
    case abs =>
      rw [floatSign_ordered _ h, ← hbits]
      simp [signCode, b2n, A, f, n]
    case neg =>
      have hk : n = n - 1 + 1 := by omega
      have hneg : f.bits - 1 = n - 1 := by rw [hbits]
      rw [floatSign_ordered _ h, decodeFmt_neg hf (hA x j) h, signCode]
      show (A x j % 2 ^ (f.bits - 1) + b2n (!(A x j).testBit (f.bits - 1)) * 2 ^ (f.bits - 1), (0 : FFlags)) = _
      rw [hneg, mod_add_not_sign (hk ▸ hbits ▸ hA x j)]
    case round =>
      refine ⟨_, (roundAt_roundedInt (modeOf_ne_rsr s.cur.frm) g m k).1, ?_⟩
      rw [floatRound_fin _ h, encodeFmt_fin (isBinary_fwFmt w)]
    case classes =>
      rw [floatClass_eq hf (hA x j), hbits]
  case compares =>
    intro n f X Y ordered equal sets signals
    refine ⟨floatCmp_sets (exec_fcmpEq w d a b s) eqVal_iff sigFlags_nv_iff,
      floatCmp_sets (P := fun x y => ¬ EqualValues x y) (exec_fcmpNe w d a b s) (fun x y => ?_) sigFlags_nv_iff,
      floatCmp_sets (exec_fcmpLt w d a b s) ltVal_iff anyNan_nv_iff,
      floatCmp_sets (P := fun x y => LessThan x y ∨ EqualValues x y) (exec_fcmpLe w d a b s) (fun x y => ?_) anyNan_nv_iff,
      floatCmp_sets (exec_fcmpUn w d a b s) not_ordered_iff sigFlags_nv_iff⟩
    · rw [← eqVal_iff, Bool.not_eq_true', Bool.not_eq_true]
    · rw [← eqVal_iff, ← ltVal_iff, Bool.or_eq_true]

end Sys2Proof
end

section
/-! PROOFS. Conversions through a descriptor, to integers and from integers (R29 to R32, R131, R132), and the obligation on them (O15). -/
namespace Sys2Proof
open Sys2Proof.Machine

/-! ## One element through a descriptor -/

theorem bitAt_eq_getLsbD (x : Word) (i : ℕ) : bitAt x i = x.getLsbD i := by
  rw [bitAt, ← BitVec.testBit_toNat, Nat.testBit_eq_decide_div_mod_eq]
  rfl

theorem rat_shift (n : Bool) (m : ℕ) (e k : ℤ) : rat (.fin n m (e + k)) = rat (.fin n m e) * 2 ^ k := by
  rw [rat_fin, rat_fin, zpow_add₀ two_ne_zero, mul_assoc, mul_assoc, mul_assoc]

/-- The value of an element under the source's scale and over the target's, each where the descriptor has one (R24, R131). -/
def rescaled (desc : Word) (v : FVal) : FVal :=
  let v := if bitAt desc 8 then scaleVal v (bits desc 16 8) else v
  if bitAt desc 9 then unscaleVal v (bits desc 24 8) else v

theorem cvtElem_eq (desc : Word) (sf tf : Fmt) (mode : RMode) (c : ℕ) :
    cvtElem desc sf tf mode c = encodeFmt tf mode (desc.getLsbD 10) (desc.getLsbD 11)
      (rescaled desc (flushIn sf (desc.getLsbD 11) (decodeFmt sf c))) := by
  rw [← bitAt_eq_getLsbD, ← bitAt_eq_getLsbD]
  rfl

theorem cvtElem_lt (desc : Word) (sf tf : Fmt) (mode : RMode) (c : ℕ) : (cvtElem desc sf tf mode c).1 < 2 ^ tf.slot := by
  have hslot : tf.bits ≤ tf.slot := by cases tf <;> decide
  rw [cvtElem_eq]
  exact (encodeFmt_lt tf _ _ _ _).trans_le (Nat.pow_le_pow_right two_pos hslot)

theorem unscaleVal_isNan (v : FVal) (sc : ℕ) : (unscaleVal v sc).isNan = v.isNan := by cases v <;> rfl

theorem scaleVal_isNan (v : FVal) : (scaleVal v 255).isNan = true := by cases v <;> rfl

theorem rescaled_isNan {desc : Word} (h : desc.getLsbD 8 = true) (h255 : bits desc 16 8 = 255) (v : FVal) :
    (rescaled desc v).isNan = true := by
  rw [rescaled, bitAt_eq_getLsbD desc 8, if_pos h, h255]
  split
  · rw [unscaleVal_isNan, scaleVal_isNan]
  · exact scaleVal_isNan v

/-- Without the NaN scale an infinity and a NaN stand as they are. -/
theorem rescaled_of_not_fin {desc : Word} (h : ¬ (desc.getLsbD 8 = true ∧ bits desc 16 8 = 255)) {v : FVal} (hv : isFin v = false) :
    rescaled desc v = v := by
  have hscale : (if bitAt desc 8 then scaleVal v (bits desc 16 8) else v) = v := by
    rw [bitAt_eq_getLsbD]
    split
    · next h8 =>
      have h255 : bits desc 16 8 ≠ 255 := fun h255 => h ⟨h8, h255⟩
      cases v with
      | fin n m e => cases hv
      | inf n => exact if_neg h255
      | nan s => rfl
    · rfl
  have hun : ∀ sc, unscaleVal v sc = v := by
    intro sc
    cases v with
    | fin n m e => cases hv
    | inf n => rfl
    | nan s => rfl
  rw [rescaled, hscale, hun, ite_self]

/-- Without the NaN scale a finite value is multiplied by a power of two. -/
theorem rescaled_fin {desc : Word} (h : ¬ (desc.getLsbD 8 = true ∧ bits desc 16 8 = 255)) (n : Bool) (m : ℕ) (e : ℤ) :
    rescaled desc (.fin n m e) = .fin n m (e + ((if desc.getLsbD 8 then (bits desc 16 8 : ℤ) - 127 else 0) +
      (if desc.getLsbD 9 then 127 - (bits desc 24 8 : ℤ) else 0))) := by
  have hscale : (if bitAt desc 8 then scaleVal (.fin n m e) (bits desc 16 8) else .fin n m e) =
      .fin n m (e + if desc.getLsbD 8 then (bits desc 16 8 : ℤ) - 127 else 0) := by
    rw [bitAt_eq_getLsbD]
    split
    · next h8 => rw [scaleVal, if_neg fun h255 => h ⟨h8, h255⟩, add_sub_assoc]
    · rw [add_zero]
  rw [rescaled, hscale, bitAt_eq_getLsbD desc 9]
  split
  · rw [unscaleVal, add_sub_assoc, add_assoc]
  · rw [add_zero]

/-! ## The stochastic counter (R28) -/

theorem bumpSr_advance (t : Team) (st : Bool) (n : ℕ) : (t.bumpSr st).advance n = (t.advance n).bumpSr st := by
  have hexec : (t.advance n).exec = t.exec := rfl
  rw [Team.bumpSr, Team.bumpSr, hexec]
  split <;> rfl

theorem bumpSr_of_laneEffect {n : ℕ} {d : VDst} {fl : FFlags} {P : ℕ → Word → Prop} {a b : Team} (h : LaneEffect n d fl P a b) (st : Bool) :
    (b.bumpSr st).srCtr = a.srCtr + (if st = true ∧ a.exec ≠ 0 then 1 else 0) ∧ { b.bumpSr st with srCtr := a.srCtr } = b := by
  have hctr : b.srCtr = a.srCtr := by rw [h.frame]
  have hexec : b.exec = a.exec := by rw [h.frame]; rfl
  have hcond : (st && b.exec != 0) = true ↔ st = true ∧ a.exec ≠ 0 := by rw [hexec, Bool.and_eq_true, bne_iff_ne]
  by_cases hst : st = true ∧ a.exec ≠ 0
  · have hb : b.bumpSr st = { b with srCtr := b.srCtr + 1 } := if_pos (hcond.2 hst)
    rw [hb, if_pos hst, ← hctr]
    exact ⟨rfl, rfl⟩
  · have hb : b.bumpSr st = b := if_neg (hcond.not.2 hst)
    rw [hb, if_neg hst, ← hctr]
    exact ⟨(BitVec.add_zero _).symm, rfl⟩

/-- A lane result with flags of an instruction that may round stochastically. -/
theorem laneResultF_bumpSr (t : Team) {w N : ℕ} (hN : N * w ≤ 64) (d : VDst) (op : FFlags) {g : ℕ → ℕ → ℕ × FFlags}
    (hg : ∀ x j, (g x j).1 < 2 ^ w) (st : Bool) :
    let v := (((t.laneResultF d op fun x => subsWith w N (g x)).bumpSr st).advance 4)
    v.srCtr = t.srCtr + (if st = true ∧ t.exec ≠ 0 then 1 else 0) ∧
      ∃ fl, JoinsFlags t N op g fl ∧ LaneEffect 4 d fl
        (fun x r => (∀ j, j < N → subEl w r j = (g x j).1) ∧ ∀ k, N * w ≤ k → r.getLsbD k = false) t { v with srCtr := t.srCtr } := by
  obtain ⟨fl, hfl, heff⟩ := laneResultF_effect t 4 hN d op hg
  obtain ⟨hctr, hrest⟩ := bumpSr_of_laneEffect heff st
  rw [bumpSr_advance]
  exact ⟨hctr, fl, hfl, hrest.symm ▸ heff⟩

theorem invalidFlag_eq (t : Team) : t.invalidFlag = if t.exec = 0 then 0 else flagNV := by
  simp only [Team.invalidFlag, flagIf, bne_iff_ne, ne_eq, ite_not]

theorem fcvt_invalid {s : State} {b : BReg} (d : VDst) (a : LSrc) (h : cvtDesc s.cur.s[b.val] = none) :
    Runs (.fcvt d a b) s (LaneEffect 4 d (s.cur.srcFlagsAt [] (.s b) ||| if s.cur.exec = 0 then 0 else flagNV) fun _ r => r = 0) := by
  refine runs_teamStep (exec_fcvt d a b s) ?_
  simp only [h, ← invalidFlag_eq]
  exact laneResult_effect s.cur 4 d _ _

theorem slots_fit (sf tf : Fmt) : 64 / max sf.slot tf.slot * tf.slot ≤ 64 :=
  (Nat.mul_le_mul_left _ (le_max_right _ _)).trans (Nat.div_mul_le_self _ _)

/-! ## To integers (R32) -/

theorem encodeInt_eq {mode : RMode} (hmode : ∀ b, mode ≠ .rsr b) (lo hi : ℤ) (n : Bool) (m : ℕ) (e : ℤ) :
    encodeInt mode lo hi n m e =
      let r := roundAt mode n m e 0
      let z : ℤ := if n then -(r.1 : ℤ) else r.1
      if z < lo then (lo, flagNV) else if hi < z then (hi, flagNV) else (z, flagIf r.2 flagNX) := by
  cases mode with
  | rsr b => exact absurd rfl (hmode b)
  | _ => rfl

/-- The integer bounds of a width, as the rule of R32 writes them. -/
theorem intBounds_eq (sgn : Bool) (w : ℕ) :
    (if sgn then -((2 ^ (w - 1) : ℕ) : ℤ) else 0) = (if sgn then -2 ^ (w - 1) else 0) ∧
      (if sgn then ((2 ^ (w - 1) : ℕ) : ℤ) - 1 else ((2 ^ w : ℕ) : ℤ) - 1) = (if sgn then 2 ^ (w - 1) - 1 else 2 ^ w - 1) := by
  push_cast
  exact ⟨rfl, rfl⟩

/-- An integer with the sign of a value is the value exactly when its magnitude is. -/
theorem signed_eq_rat_iff (n : Bool) (m k : ℕ) (e : ℤ) :
    (((if n then -(k : ℤ) else k : ℤ)) : ℚ) = rat (.fin n m e) ↔ (k : ℚ) = |rat (.fin n m e)| := by
  rw [abs_rat_fin]
  cases n <;> simp [rat_fin]

theorem intRule_toInteger (sgn : Bool) (w : ℕ) {mode : RMode} (hmode : ∀ b, mode ≠ .rsr b) (v : FVal) :
    IntRule sgn w mode v (toInteger sgn w mode v) := by
  obtain ⟨hlo, hhi⟩ := intBounds_eq sgn w
  refine ⟨fun h => ?_, fun p h => ?_, fun n m e h => ?_⟩
  · obtain ⟨s, rfl⟩ := exists_nan h
    rfl
  · subst h
    rw [toInteger, hlo, hhi]
  · subst h
    obtain ⟨hround, hinexact⟩ := roundAt_roundedInt hmode n m e
    refine ⟨_, hround, ?_⟩
    rw [toInteger, hlo, hhi]
    simp only [encodeInt_eq hmode]
    generalize roundAt mode n m e 0 = r at hinexact ⊢
    have hflag : flagIf r.2 flagNX = if (((if n then -(r.1 : ℤ) else r.1 : ℤ)) : ℚ) = rat (.fin n m e) then 0 else flagNX := by
      have hcond := hinexact.trans (not_congr (signed_eq_rat_iff n m r.1 e).symm)
      by_cases heq : (((if n then -(r.1 : ℤ) else r.1 : ℤ)) : ℚ) = rat (.fin n m e)
      · rw [if_pos heq, flagIf, if_neg (hcond.not.2 (not_not.2 heq))]
      · rw [if_neg heq, flagIf, if_pos (hcond.2 heq)]
    rw [← hflag]
    split_ifs <;> rfl

/-! ## From integers (R32) -/

/-- An integer converted to its format, the signed form stochastically where the mode and the format ask for it (R27). -/
theorem fromInt_runs {i : Instr} {s : State} {w : FW} {d : VDst} {a : LSrc} {sgn : Bool} {z : ℕ → ℕ → ℤ}
    (h : exec i s = fromInt sgn w d a s)
    (hz : ∀ x j, z x j = if sgn then signed (fwBits w) (s.cur.sub (fwBits w) a x j) else (s.cur.sub (fwBits w) a x j : ℤ)) :
    Runs i s fun u v =>
      v.srCtr = u.srCtr + (if sgn = true ∧ u.frm = 4 ∧ fwBits w = 16 ∧ u.exec ≠ 0 then 1 else 0) ∧
      FloatEffect 4 (fwBits w) d (s.cur.srcFlags a) (fun x j r =>
        r = encodeFmt (fwFmt w) (u.convMode (sgn && u.frm == 4 && fwBits w == 16) x j) false false (.fin (z x j < 0) (z x j).natAbs 0))
        u { v with srCtr := u.srCtr } := by
  have hst : (sgn && s.cur.stochastic (fwFmt w)) = (sgn && s.cur.frm == 4 && fwBits w == 16) := by
    have : (fwFmt w).stochastic = (fwBits w == 16) := by cases w <;> rfl
    rw [Team.stochastic, this, Bool.and_assoc]
  have hlt : ∀ x j, (encodeFmt (fwFmt w) (s.cur.convMode (sgn && s.cur.stochastic (fwFmt w)) x j) false false
      (.fin (z x j < 0) (z x j).natAbs 0)).1 < 2 ^ fwBits w := fun x j => fwFmt_bits w ▸ encodeFmt_lt _ _ _ _ _
  refine runs_teamStep h ?_
  simp only [← hz]
  obtain ⟨hctr, fl, hfl, heff⟩ := laneResultF_bumpSr s.cur (fwBits_mul w).le d (s.cur.srcFlags a) hlt (sgn && s.cur.stochastic (fwFmt w))
  refine ⟨hctr.trans ?_, fl, _, fun x j _ _ _ => ?_, hfl, heff.imp fun x v _ _ hv => hv.1⟩
  · simp only [hst, Bool.and_eq_true, beq_iff_eq, and_assoc]
  · rw [hst]

/-! ## O15 -/

/-- Settles O15: a descriptor's conversion by one element, conversions to integers by R32, from integers by one encoding. -/
theorem conversions : Obligations.Conversions := by
  unfold Obligations.Conversions
  refine ⟨fun s d a b => ⟨fcvt_invalid d a, fun sf tf hdesc => ?convert⟩, fun desc sf tf mode c _ => ?element, fun s w d a => ?integers⟩
  case convert =>
    intro mode code
    refine runs_teamStep (exec_fcvt d a b s) ?_
    simp only [hdesc]
    obtain ⟨hctr, fl, hfl, heff⟩ := laneResultF_bumpSr s.cur (slots_fit sf tf) d (s.cur.srcFlagsAt [] (.s b) ||| s.cur.srcFlags a)
      (g := fun x j => cvtElem s.cur.s[b.val] sf tf (mode x j) (code x j)) (fun x j => cvtElem_lt _ _ _ _ _) (s.cur.stochastic tf)
    refine ⟨hctr.trans ?_, fl, _, hfl, fun x j _ _ _ => rfl, heff⟩
    simp only [Team.stochastic, Bool.and_eq_true, beq_iff_eq, and_assoc]
  case element =>
    intro ftz v scale
    refine ⟨rescaled desc v, cvtElem_eq desc sf tf mode c, fun h => rescaled_isNan h.1 h.2 v, fun h hv => rescaled_of_not_fin h hv,
      fun h hv => ?_⟩
    obtain ⟨n, m, e, hfin⟩ := exists_fin hv
    rw [hfin, rescaled_fin h]
    exact ⟨rfl, rfl, rat_shift n m e scale⟩
  case integers =>
    intro n f fa A toInt ofInt
    have hrule : ∀ sgn x j, IntRule sgn n (modeOf s.cur.frm) (decodeFmt f (A x j))
        (toInteger sgn f.bits (modeOf s.cur.frm) (decodeFmt f (A x j))) := fun sgn x j =>
      fwFmt_bits w ▸ intRule_toInteger sgn _ (modeOf_ne_rsr _) _
    have hlt : ∀ sgn x j, (toInteger sgn f.bits (modeOf s.cur.frm) (decodeFmt f (A x j))).1 < 2 ^ n := fun sgn x j =>
      fwFmt_bits w ▸ toInteger_lt sgn _ _ _
    exact ⟨float1_runs (exec_fcvti w d a s) (hlt true) (hrule true), float1_runs (exec_fcvtiu w d a s) (hlt false) (hrule false),
      fromInt_runs (exec_icvtf w d a s) fun x j => rfl, fromInt_runs (exec_icvtfu w d a s) fun x j => rfl⟩

end Sys2Proof
end

section
/-! PROOFS. Fields of instruction words (R54 to R63): what the decoder reads out of a field, as an equivalence with the code
that the encoder
puts there. -/
namespace Sys2Proof

/-! ## Answers of the decoder -/

@[simp] theorem decBind_eq_ok {α β : Type} {x : Dec α} {f : α → Dec β} {b : β} :
    x >>= f = .ok b ↔ ∃ a, x = .ok a ∧ f a = .ok b := by
  cases x with
  | error e => simp [bind, Except.bind]
  | ok a => simp [bind, Except.bind]

@[simp] theorem decMap_eq_ok {α β : Type} {x : Dec α} {f : α → β} {b : β} :
    x.map f = .ok b ↔ ∃ a, x = .ok a ∧ f a = b := by
  cases x with
  | error e => simp [Except.map]
  | ok a => simp [Except.map]

@[simp] theorem decFmap_eq_ok {α β : Type} {x : Dec α} {f : α → β} {b : β} :
    f <$> x = .ok b ↔ ∃ a, x = .ok a ∧ f a = b := decMap_eq_ok

@[simp] theorem decPure_eq_ok {α : Type} {a b : α} : (pure a : Dec α) = .ok b ↔ a = b := Except.ok.injEq a b ▸ Iff.rfl

@[simp] theorem need_eq_ok {c : Bool} {u : Unit} : need c = .ok u ↔ c = true := by
  cases c <;> simp [need]

/-! ## Fields -/

@[simp] theorem fin?_eq_ok {x k : ℕ} {r : Fin k} : fin? k x = .ok r ↔ x = r.val := by
  unfold fin?
  split
  · simp [Fin.ext_iff]
  · simp; omega

@[simp] theorem lsrcOf_eq_ok {x : ℕ} {a : LSrc} : lsrcOf x = .ok a ↔ x = a.code := by
  unfold lsrcOf
  split_ifs <;> cases a <;> simp [LSrc.code, Fin.ext_iff] <;> omega

@[simp] theorem usrcOf_eq_ok {x : ℕ} {a : USrc} : usrcOf x = .ok a ↔ x = a.code := by
  unfold usrcOf
  split_ifs <;> cases a <;> simp [USrc.code, Fin.ext_iff] <;> omega

@[simp] theorem bregOf_eq_ok {x : ℕ} {a : BReg} : bregOf x = .ok a ↔ x = 104 + a.val := by
  unfold bregOf
  split_ifs <;> simp [Fin.ext_iff] <;> omega

@[simp] theorem vregOf_eq_ok {x : ℕ} {r : VReg} : vregOf x = .ok r ↔ x = r.val := fin?_eq_ok

theorem vdstOf_eq_ok {n x : ℕ} {d : VDst} (hn : n < 2) : vdstOf n x = .ok d ↔ n = d.nwb ∧ x = d.code := by
  unfold vdstOf
  split_ifs <;> cases d <;> simp [VDst.nwb, VDst.code] <;> omega

theorem sdstOf_eq_ok {n x : ℕ} {d : SDst} (hn : n < 2) : sdstOf n x = .ok d ↔ n = d.nwb ∧ x = d.code := by
  unfold sdstOf
  split_ifs <;> cases d <;> simp [SDst.nwb, SDst.code] <;> omega

theorem iwOf_eq {x : ℕ} {w : IW} (h : x < 4) : iwOf x = w ↔ x = w.code := by
  interval_cases x <;> cases w <;> simp [iwOf, IW.code]
theorem fwOf_eq {x : ℕ} {w : FW} (h : x < 4) : fwOf x = w ↔ x = w.code := by
  interval_cases x <;> cases w <;> simp [fwOf, FW.code]
theorem ordOf_eq {x : ℕ} {w : Ord} (h : x < 4) : ordOf x = w ↔ x = w.code := by
  interval_cases x <;> cases w <;> simp [ordOf, Ord.code]
theorem shflPatOf_eq {x : ℕ} {w : ShflPat} (h : x < 4) : shflPatOf x = w ↔ x = w.code := by
  interval_cases x <;> cases w <;> simp [shflPatOf, ShflPat.code]
theorem atomAuxOf_eq {x : ℕ} {w : AtomAux} (h : x < 4) : atomAuxOf x = w ↔ x = w.code := by
  interval_cases x <;> cases w <;> simp [atomAuxOf, AtomAux.code]
theorem awBit_eq {x : ℕ} {w : AW} (h : x < 2) : awBit x = w ↔ x = w.bit := by
  interval_cases x <;> cases w <;> simp [awBit, AW.bit]
theorem boolOf_eq {x : ℕ} {b : Bool} (h : x < 2) : boolOf x = b ↔ x = bit b := by
  interval_cases x <;> cases b <;> simp [boolOf, bit]

@[simp] theorem awOf_eq_ok {x : ℕ} {w : AW} : awOf x = .ok w ↔ x = w.code := by
  unfold awOf; split <;> cases w <;> simp_all [AW.code]
@[simp] theorem fenceOrdOf_eq_ok {x : ℕ} {o : FenceOrd} : fenceOrdOf x = .ok o ↔ x = o.code := by
  unfold fenceOrdOf; split <;> cases o <;> simp_all [FenceOrd.code]
@[simp] theorem scopeOf_eq_ok {x : ℕ} {sc : Scope} : scopeOf x = .ok sc ↔ x = sc.code := by
  unfold scopeOf; split <;> cases sc <;> simp_all [Scope.code]
@[simp] theorem sscopeOf_eq_ok {x : ℕ} {sc : SScope} : sscopeOf x = .ok sc ↔ x = sc.code := by
  unfold sscopeOf; split <;> cases sc <;> simp_all [SScope.code]
@[simp] theorem ldAuxOf_eq_ok {x : ℕ} {k : LdAux} : ldAuxOf x = .ok k ↔ x = k.code := by
  unfold ldAuxOf; split <;> cases k <;> simp_all [LdAux.code]
@[simp] theorem stAuxOf_eq_ok {x : ℕ} {k : StAux} : stAuxOf x = .ok k ↔ x = k.code := by
  unfold stAuxOf; split <;> cases k <;> simp_all [StAux.code]
@[simp] theorem voteOf_eq_ok {x : ℕ} {k : VoteKind} : voteOf x = .ok k ↔ x = k.code := by
  unfold voteOf; split <;> cases k <;> simp_all [VoteKind.code]
@[simp] theorem bcOf_eq_ok {x : ℕ} {c : BcCond} : bcOf x = .ok c ↔ x = c.code := by
  unfold bcOf; split <;> cases c <;> simp_all [BcCond.code]
@[simp] theorem scondOf_eq_ok {x : ℕ} {c : SCond} : scondOf x = .ok c ↔ x = c.code := by
  unfold scondOf; split <;> cases c <;> simp_all [SCond.code]
@[simp] theorem intAtomOf_eq_ok {x : ℕ} {o : IntAtom} : intAtomOf x = .ok o ↔ x = o.code := by
  unfold intAtomOf; split <;> cases o <;> simp_all [IntAtom.code]
@[simp] theorem waitClassOf_eq_ok {x : ℕ} {c : WaitClass} : waitClassOf x = .ok c ↔ x = c.code := by
  unfold waitClassOf; split <;> cases c <;> simp_all [WaitClass.code]
@[simp] theorem objKindOf_eq_ok {x : ℕ} {k : ObjKind} : objKindOf x = .ok k ↔ x = k.code := by
  unfold objKindOf; split <;> cases k <;> simp_all [ObjKind.code]
@[simp] theorem sarOpOf_eq_ok {x : ℕ} {o : SarOp} : sarOpOf x = .ok o ↔ x = o.code := by
  unfold sarOpOf; split <;> cases o <;> simp_all [SarOp.code]

theorem atomKindOf_eq_ok {c w : ℕ} {k : AtomKind} (hw : w < 4) : atomKindOf c w = .ok k ↔ c = k.code ∧ w = k.width := by
  unfold atomKindOf
  split
  next h => cases k with
    | int o x => cases o <;> simp [AtomKind.code, IntAtom.code, h]
    | fadd f => simp [AtomKind.code, AtomKind.width, h, fwOf_eq hw]
  next h => cases k <;> simp [AtomKind.code, AtomKind.width, h, and_comm]

theorem redmOf_eq_ok {c w : ℕ} {k : RedmKind} (hc : c < 4) (hw : w < 4) : redmOf c w = .ok k ↔ c = k.code ∧ w = k.width := by
  interval_cases c <;> cases k <;> simp [redmOf, RedmKind.code, RedmKind.width, fwOf_eq hw]

theorem atomuOf_eq_ok {c w : ℕ} {k : AtomuKind} (hw : w < 2) : atomuOf c w = .ok k ↔ c = k.code ∧ w = k.width := by
  unfold atomuOf
  split
  next h => cases k with
    | int o x => cases o <;> simp [AtomuKind.code, IntAtom.code, h]
    | fadd f => simp [AtomuKind.code, AtomuKind.width, h, awBit_eq hw]
  next h => cases k <;> simp [AtomuKind.code, AtomuKind.width, h, awBit_eq hw]

theorem redKindOf_eq_ok {c w : ℕ} {k : RedKind} (hw : w < 4) : redKindOf c w = .ok k ↔ c = k.code ∧ w = k.width := by
  unfold redKindOf
  rcases k with ⟨o, x⟩ | ⟨o, x⟩ <;> cases o <;> split <;> simp_all [RedKind.code, RedKind.width, iwOf_eq hw, fwOf_eq hw]

@[simp] theorem holdKindOf_eq_ok {c x : ℕ} {k : HoldKind} : holdKindOf c x = .ok k ↔ c = k.code ∧ x = k.ext := by
  unfold holdKindOf
  split <;> cases k <;> simp_all [HoldKind.code, HoldKind.ext]

@[simp] theorem specialOf_eq_ok {x : ℕ} {n : Special} : specialOf x = .ok n ↔ x = n.code := by
  constructor
  · unfold specialOf
    split <;> intro h <;> cases h <;> rfl
  · rintro rfl
    cases n with
    | cwp k => fin_cases k <;> rfl
    | qseq k => fin_cases k <;> rfl
    | _ => rfl

/-! ## The decoder of a field on its code -/

@[simp] theorem iwOf_code (w : IW) : iwOf w.code = w := by cases w <;> rfl
@[simp] theorem fwOf_code (w : FW) : fwOf w.code = w := by cases w <;> rfl
@[simp] theorem ordOf_code (o : Ord) : ordOf o.code = o := by cases o <;> rfl
@[simp] theorem shflPatOf_code (p : ShflPat) : shflPatOf p.code = p := by cases p <;> rfl
@[simp] theorem atomAuxOf_code (x : AtomAux) : atomAuxOf x.code = x := by cases x <;> rfl
@[simp] theorem awBit_bit (w : AW) : awBit w.bit = w := by cases w <;> rfl
@[simp] theorem boolOf_bit (b : Bool) : boolOf (bit b) = b := by cases b <;> rfl
@[simp] theorem bit_mod (b : Bool) : bit b % 2 = bit b := by cases b <;> rfl
@[simp] theorem need_true : need true = .ok () := rfl
@[simp] theorem fin?_val {k : ℕ} (r : Fin k) : fin? k r.val = .ok r := fin?_eq_ok.2 rfl
@[simp] theorem lsrcOf_code (a : LSrc) : lsrcOf a.code = .ok a := lsrcOf_eq_ok.2 rfl
@[simp] theorem usrcOf_code (a : USrc) : usrcOf a.code = .ok a := usrcOf_eq_ok.2 rfl
@[simp] theorem bregOf_val (b : BReg) : bregOf (104 + b.val) = .ok b := bregOf_eq_ok.2 rfl
@[simp] theorem vregOf_val (r : VReg) : vregOf r.val = .ok r := vregOf_eq_ok.2 rfl
@[simp] theorem vdstOf_code (d : VDst) : vdstOf d.nwb d.code = .ok d := by
  cases d with
  | none => rfl
  | some r => exact congrArg (Except.map some) (vregOf_val r)
@[simp] theorem sdstOf_code (d : SDst) : sdstOf d.nwb d.code = .ok d := by
  cases d with
  | none => rfl
  | some r => exact congrArg (Except.map some) (fin?_val r)
@[simp] theorem awOf_code (w : AW) : awOf w.code = .ok w := awOf_eq_ok.2 rfl
@[simp] theorem fenceOrdOf_code (o : FenceOrd) : fenceOrdOf o.code = .ok o := fenceOrdOf_eq_ok.2 rfl
@[simp] theorem scopeOf_code (sc : Scope) : scopeOf sc.code = .ok sc := scopeOf_eq_ok.2 rfl
@[simp] theorem sscopeOf_code (sc : SScope) : sscopeOf sc.code = .ok sc := sscopeOf_eq_ok.2 rfl
@[simp] theorem ldAuxOf_code (x : LdAux) : ldAuxOf x.code = .ok x := ldAuxOf_eq_ok.2 rfl
@[simp] theorem stAuxOf_code (x : StAux) : stAuxOf x.code = .ok x := stAuxOf_eq_ok.2 rfl
@[simp] theorem voteOf_code (v : VoteKind) : voteOf v.code = .ok v := voteOf_eq_ok.2 rfl
@[simp] theorem bcOf_code (c : BcCond) : bcOf c.code = .ok c := bcOf_eq_ok.2 rfl
@[simp] theorem scondOf_code (c : SCond) : scondOf c.code = .ok c := scondOf_eq_ok.2 rfl
@[simp] theorem waitClassOf_code (c : WaitClass) : waitClassOf c.code = .ok c := waitClassOf_eq_ok.2 rfl
@[simp] theorem objKindOf_code (k : ObjKind) : objKindOf k.code = .ok k := objKindOf_eq_ok.2 rfl
@[simp] theorem sarOpOf_code (o : SarOp) : sarOpOf o.code = .ok o := sarOpOf_eq_ok.2 rfl
@[simp] theorem specialOf_code (n : Special) : specialOf n.code = .ok n := specialOf_eq_ok.2 rfl
@[simp] theorem holdKindOf_code (k : HoldKind) : holdKindOf k.code k.ext = .ok k := holdKindOf_eq_ok.2 ⟨rfl, rfl⟩
@[simp] theorem atomKindOf_code (k : AtomKind) : atomKindOf k.code k.width = .ok k :=
  (atomKindOf_eq_ok (Laws.atomKind_width_lt k)).2 ⟨rfl, rfl⟩
@[simp] theorem redmOf_code (k : RedmKind) : redmOf k.code k.width = .ok k :=
  (redmOf_eq_ok (Laws.redm_code_lt k) (Laws.redm_width_lt k)).2 ⟨rfl, rfl⟩
@[simp] theorem atomuOf_code (k : AtomuKind) : atomuOf k.code k.width = .ok k :=
  (atomuOf_eq_ok (Nat.lt_succ_of_le (Laws.atomu_width_le k))).2 ⟨rfl, rfl⟩
@[simp] theorem redKindOf_code (k : RedKind) : redKindOf k.code k.width = .ok k :=
  (redKindOf_eq_ok (Laws.red_width_lt k)).2 ⟨rfl, rfl⟩

/-! ## Fields that stand for a value whatever they hold -/

theorem exists_iw {x : ℕ} (h : x < 4) : ∃ w : IW, x = w.code := ⟨_, (iwOf_eq h).1 rfl⟩
theorem exists_fw {x : ℕ} (h : x < 4) : ∃ w : FW, x = w.code := ⟨_, (fwOf_eq h).1 rfl⟩
theorem exists_ord {x : ℕ} (h : x < 4) : ∃ o : Ord, x = o.code := ⟨_, (ordOf_eq h).1 rfl⟩
theorem exists_shflPat {x : ℕ} (h : x < 4) : ∃ p : ShflPat, x = p.code := ⟨_, (shflPatOf_eq h).1 rfl⟩
theorem exists_atomAux {x : ℕ} (h : x < 4) : ∃ k : AtomAux, x = k.code := ⟨_, (atomAuxOf_eq h).1 rfl⟩
theorem exists_awBit {x : ℕ} (h : x < 2) : ∃ w : AW, x = w.bit := ⟨_, (awBit_eq h).1 rfl⟩
theorem exists_bit {x : ℕ} (h : x < 2) : ∃ b : Bool, x = bit b := ⟨_, (boolOf_eq h).1 rfl⟩
theorem exists_imm {n x : ℕ} (h : x < 2 ^ n) : ∃ v : BitVec n, x = v.toNat := ⟨BitVec.ofNat n x, by simp [Nat.mod_eq_of_lt h]⟩

end Sys2Proof
end

section
/-! PROOFS. Lane words that decode (R68, R70): the instruction read from a lane head, and its tail, is well formed and has these words. -/
namespace Sys2Proof

/-! ## Lane words -/

/-- The fields of a lane head are in range. -/
structure LaneF.Ok (r : LaneF) : Prop where
  op : r.op < 128
  n : r.n < 2
  d : r.d < 128
  a : r.a < 128
  b : r.b < 128
  w : r.w < 4

theorem laneF_ok (h : ℕ) : (laneF h).Ok := by
  constructor <;> simp only [laneF] <;> omega

theorem word_laneF {h : ℕ} (hh : h < 2147483648) : (laneF h).word = h := by
  simp only [laneF, LaneF.word]; omega

theorem laneF_word {r : LaneF} (hr : r.Ok) : laneF r.word = r := by
  obtain ⟨op, n, d, a, b, w⟩ := r
  obtain ⟨h1, h2, h3, h4, h5, h6⟩ := hr
  simp only [laneF, LaneF.word, LaneF.mk.injEq] at *
  omega

/-! ## What is read is what would be written -/

/-- Every instruction that `x` answers is well formed, and its words are `ws`. -/
def Faithful (ws : List ℕ) (x : Dec Instr) : Prop := ∀ i, x = .ok i → i.wellFormed = true ∧ encode i = ws

theorem faithful_error (ws : List ℕ) (e : DecodeError) : Faithful ws (.error e) := fun _ h => nomatch h

theorem faithful_need {ws : List ℕ} {c : Bool} {x : Dec Instr} (h : c = true → Faithful ws x) :
    Faithful ws (need c >>= fun _ => x) := by
  cases c with
  | false => exact faithful_error ws _
  | true => exact h rfl

/-! ## The layouts of lane words (R54, R70) -/

section
variable {r : LaneF} (hr : r.Ok)
include hr

theorem faithful_la3 {mk : IW → VDst → LSrc → LSrc → Instr}
    (e : ∀ w d a b, (mk w d a b).wellFormed = true ∧ encode (mk w d a b) = encLa3 r.op w d a b) : Faithful [r.word] (la3 mk r) := by
  obtain ⟨op, n, d, a, b, w⟩ := r
  obtain ⟨w, rfl⟩ := exists_iw hr.w
  intro i hi
  simp only [la3, decBind_eq_ok, vdstOf_eq_ok hr.n, lsrcOf_eq_ok, iwOf_code, decPure_eq_ok] at hi
  obtain ⟨d, ⟨rfl, rfl⟩, a, rfl, b, rfl, rfl⟩ := hi
  exact e w d a b

theorem faithful_la2 {mk : IW → VDst → LSrc → Instr}
    (e : ∀ w d a, (mk w d a).wellFormed = true ∧ encode (mk w d a) = encLa2 r.op w d a) : Faithful [r.word] (la2 mk r) := by
  obtain ⟨op, n, d, a, b, w⟩ := r
  obtain ⟨w, rfl⟩ := exists_iw hr.w
  intro i hi
  simp [la2, vdstOf_eq_ok hr.n] at hi
  obtain ⟨rfl, d, ⟨rfl, rfl⟩, a, rfl, rfl⟩ := hi
  exact e w d a

theorem faithful_fa3 {mk : FW → VDst → LSrc → LSrc → Instr}
    (e : ∀ w d a b, (mk w d a b).wellFormed = true ∧ encode (mk w d a b) = encFa3 r.op w d a b) : Faithful [r.word] (fa3 mk r) := by
  obtain ⟨op, n, d, a, b, w⟩ := r
  obtain ⟨w, rfl⟩ := exists_fw hr.w
  intro i hi
  simp [fa3, vdstOf_eq_ok hr.n] at hi
  obtain ⟨d, ⟨rfl, rfl⟩, a, rfl, b, rfl, rfl⟩ := hi
  exact e w d a b

theorem faithful_fa2 {mk : FW → VDst → LSrc → Instr}
    (e : ∀ w d a, (mk w d a).wellFormed = true ∧ encode (mk w d a) = encFa2 r.op w d a) : Faithful [r.word] (fa2 mk r) := by
  obtain ⟨op, n, d, a, b, w⟩ := r
  obtain ⟨w, rfl⟩ := exists_fw hr.w
  intro i hi
  simp [fa2, vdstOf_eq_ok hr.n] at hi
  obtain ⟨rfl, d, ⟨rfl, rfl⟩, a, rfl, rfl⟩ := hi
  exact e w d a

theorem faithful_lcmp {mk : IW → MDst → LSrc → LSrc → Instr}
    (e : ∀ w d a b, (mk w d a b).wellFormed = true ∧ encode (mk w d a b) = encLcmp r.op w d a b) : Faithful [r.word] (lcmp mk r) := by
  obtain ⟨op, n, d, a, b, w⟩ := r
  obtain ⟨w, rfl⟩ := exists_iw hr.w
  intro i hi
  simp [lcmp] at hi
  obtain ⟨rfl, d, rfl, a, rfl, b, rfl, rfl⟩ := hi
  exact e w d a b

theorem faithful_fcmp {mk : FW → MDst → LSrc → LSrc → Instr}
    (e : ∀ w d a b, (mk w d a b).wellFormed = true ∧ encode (mk w d a b) = encFcmp r.op w d a b) : Faithful [r.word] (fcmp mk r) := by
  obtain ⟨op, n, d, a, b, w⟩ := r
  obtain ⟨w, rfl⟩ := exists_fw hr.w
  intro i hi
  simp [fcmp] at hi
  obtain ⟨rfl, d, rfl, a, rfl, b, rfl, rfl⟩ := hi
  exact e w d a b

theorem faithful_lcar {mk : Fin 4 → VDst → LSrc → LSrc → Instr}
    (e : ∀ m d a b, (mk m d a b).wellFormed = true ∧ encode (mk m d a b) = encLcar r.op m d a b) : Faithful [r.word] (lcar mk r) := by
  obtain ⟨op, n, d, a, b, w⟩ := r
  intro i hi
  simp [lcar, vdstOf_eq_ok hr.n] at hi
  obtain ⟨m, rfl, d, ⟨rfl, rfl⟩, a, rfl, b, rfl, rfl⟩ := hi
  exact e m d a b

/-- A butterfly's two destinations differ (R136). -/
theorem faithful_lbfly {mk : Fin 4 → VDst → VReg → LSrc → Instr}
    (wf : ∀ q d a b, VDst.field d ≠ a → (mk q d a b).wellFormed = true)
    (e : ∀ q d a b, encode (mk q d a b) = [LaneF.word ⟨r.op, d.nwb, d.code, a.val, b.code, q.val⟩]) :
    Faithful [r.word] (lbfly mk r) := by
  obtain ⟨op, n, d, a, b, w⟩ := r
  intro i hi
  simp [lbfly, vdstOf_eq_ok hr.n] at hi
  obtain ⟨hne, q, rfl, d, ⟨rfl, rfl⟩, a, rfl, b, rfl, rfl⟩ := hi
  refine ⟨wf q d a b fun h => hne ?_, e q d a b⟩
  subst h
  cases d <;> rfl

theorem faithful_li3 {mk : IW → VDst → LSrc → BitVec 7 → Instr}
    (e : ∀ w d a k, (mk w d a k).wellFormed = true ∧ encode (mk w d a k) = encLi3 r.op w d a k) : Faithful [r.word] (li3 mk r) := by
  obtain ⟨op, n, d, a, b, w⟩ := r
  obtain ⟨w, rfl⟩ := exists_iw hr.w
  obtain ⟨k, rfl⟩ := exists_imm (n := 7) hr.b
  intro i hi
  simp [li3, vdstOf_eq_ok hr.n] at hi
  obtain ⟨d, ⟨rfl, rfl⟩, a, rfl, rfl⟩ := hi
  exact e w d a k

theorem faithful_licmp {mk : IW → MDst → LSrc → BitVec 7 → Instr}
    (e : ∀ w d a k, (mk w d a k).wellFormed = true ∧ encode (mk w d a k) = encLicmp r.op w d a k) : Faithful [r.word] (licmp mk r) := by
  obtain ⟨op, n, d, a, b, w⟩ := r
  obtain ⟨w, rfl⟩ := exists_iw hr.w
  obtain ⟨k, rfl⟩ := exists_imm (n := 7) hr.b
  intro i hi
  simp [licmp] at hi
  obtain ⟨rfl, d, rfl, a, rfl, rfl⟩ := hi
  exact e w d a k

theorem faithful_lbro {mk : VDst → LSrc → BReg → Instr} {w : ℕ}
    (e : ∀ d a b, (mk d a b).wellFormed = true ∧ encode (mk d a b) = encLbro r.op w d a b) : Faithful [r.word] (lbro mk w r) := by
  obtain ⟨op, n, d, a, b, w⟩ := r
  intro i hi
  simp [lbro, vdstOf_eq_ok hr.n] at hi
  obtain ⟨rfl, d, ⟨rfl, rfl⟩, a, rfl, b, rfl, rfl⟩ := hi
  exact e d a b

/-- The `red` family shares one opcode: the form stands above the operation in the b field (R70). -/
theorem faithful_redOf (ho : r.op = 0x65) : Faithful [r.word] (redOf r) := by
  obtain ⟨op, n, d, a, b, w⟩ := r
  obtain rfl : op = 0x65 := ho
  obtain ⟨k, c, hk, hc, rfl⟩ : ∃ k c, k < 4 ∧ c < 32 ∧ b = k * 32 + c :=
    ⟨b / 32, b % 32, by have := hr.b; simp only at this; omega, by omega, by omega⟩
  have h1 : (k * 32 + c) / 32 = k := by omega
  have h2 : (k * 32 + c) % 32 = c := by omega
  intro i hi
  simp [redOf, vdstOf_eq_ok hr.n, redKindOf_eq_ok hr.w, h1, h2] at hi
  obtain ⟨o, ⟨rfl, rfl⟩, d, ⟨rfl, rfl⟩, a, rfl, rfl⟩ := hi
  interval_cases k <;> exact ⟨rfl, rfl⟩

/-- The b field of a lane memory head by its parts (LM of R54). -/
theorem exists_lm : ∃ (o : Ord) (sc w : ℕ), sc < 8 ∧ w < 4 ∧ r.b = lmB o.code sc w := by
  have hb := hr.b
  obtain ⟨o, ho⟩ := exists_ord (x := r.b / 32) (by omega)
  exact ⟨o, r.b / 4 % 8, r.b % 4, by omega, by omega, by unfold lmB; omega⟩

end

section
variable {op n d a o sc w x : ℕ}

@[simp] theorem ord_lm (hs : sc < 8) (hw : w < 4) : LaneF.ord ⟨op, n, d, a, lmB o sc w, x⟩ = o := by
  simp only [LaneF.ord, lmB]; omega
@[simp] theorem scope_lm (hs : sc < 8) (hw : w < 4) : LaneF.scope ⟨op, n, d, a, lmB o sc w, x⟩ = sc := by
  simp only [LaneF.scope, lmB]; omega
@[simp] theorem lmW_lm (hw : w < 4) : LaneF.lmW ⟨op, n, d, a, lmB o sc w, x⟩ = w := by
  simp only [LaneF.lmW, lmB]; omega

end

/-- The one-word lane instructions: those of a shared layout first, then the moves, immediates and votes, then memory. -/
theorem faithful_decodeLane {r : LaneF} (hr : r.Ok) : Faithful [r.word] (decodeLane r) := by
  obtain ⟨op, n, d, a, b, w⟩ := r
  unfold decodeLane
  dsimp only
  split
  case h_1 | h_2 | h_3 | h_4 | h_5 | h_6 | h_7 | h_8 | h_9 | h_10 | h_13 | h_14 | h_15 | h_16 | h_18 | h_19 | h_20 | h_21 |
      h_22 | h_23 | h_24 | h_27 | h_28 | h_72 | h_73 | h_74 | h_82 | h_85 | h_86 =>
    exact faithful_la3 hr fun _ _ _ _ => ⟨rfl, rfl⟩
  case h_17 | h_25 | h_26 => exact faithful_la2 hr fun _ _ _ => ⟨rfl, rfl⟩
  case h_11 | h_12 | h_29 | h_90 | h_91 | h_92 | h_95 => exact faithful_lcar hr fun _ _ _ _ => ⟨rfl, rfl⟩
  case h_31 | h_32 | h_33 | h_34 | h_35 | h_36 => exact faithful_lcmp hr fun _ _ _ _ => ⟨rfl, rfl⟩
  case h_37 | h_38 | h_39 | h_40 | h_41 | h_42 | h_43 | h_44 => exact faithful_li3 hr fun _ _ _ _ => ⟨rfl, rfl⟩
  case h_46 | h_47 => exact faithful_licmp hr fun _ _ _ _ => ⟨rfl, rfl⟩
  case h_48 | h_49 | h_50 | h_51 | h_52 | h_53 | h_63 | h_64 | h_65 | h_66 => exact faithful_fa3 hr fun _ _ _ _ => ⟨rfl, rfl⟩
  case h_54 | h_55 | h_61 | h_62 | h_68 | h_69 | h_70 | h_71 | h_75 | h_76 | h_77 | h_78 | h_79 | h_80 | h_81 =>
    exact faithful_fa2 hr fun _ _ _ => ⟨rfl, rfl⟩
  case h_56 | h_57 | h_58 | h_59 | h_60 => exact faithful_fcmp hr fun _ _ _ _ => ⟨rfl, rfl⟩
  case h_67 | h_88 | h_89 => exact faithful_lbro hr fun _ _ _ => ⟨rfl, rfl⟩
  case h_87 => exact faithful_redOf hr rfl
  case h_93 | h_94 => exact faithful_lbfly hr (fun _ _ _ _ h => decide_eq_true h) fun _ _ _ _ => rfl
  case h_30 =>
    intro i hi
    simp [vdstOf_eq_ok hr.n] at hi
    obtain ⟨rfl, rfl, d, ⟨rfl, rfl⟩, a, rfl, rfl⟩ := hi
    exact ⟨rfl, rfl⟩
  case h_45 =>
    obtain ⟨w, rfl⟩ := exists_iw hr.w
    obtain ⟨k, rfl⟩ := exists_imm (n := 7) hr.b
    intro i hi
    simp [vdstOf_eq_ok hr.n] at hi
    obtain ⟨rfl, d, ⟨rfl, rfl⟩, rfl⟩ := hi
    exact ⟨rfl, rfl⟩
  case h_83 =>
    obtain ⟨p, k, hk, rfl⟩ : ∃ (p : ShflPat) (k : BitVec 5), k.toNat < 32 ∧ b = p.code * 32 + k.toNat := by
      have hb : b < 128 := hr.b
      obtain ⟨k, hk⟩ := exists_imm (n := 5) (x := b % 32) (by omega)
      obtain ⟨p, hp⟩ := exists_shflPat (x := b / 32) (by omega)
      exact ⟨p, k, k.isLt, by omega⟩
    have h1 : (p.code * 32 + k.toNat) / 32 = p.code := by omega
    have h2 : (p.code * 32 + k.toNat) % 32 = k.toNat := by omega
    intro i hi
    simp [vdstOf_eq_ok hr.n, h1, h2] at hi
    obtain ⟨rfl, d, ⟨rfl, rfl⟩, a, rfl, rfl⟩ := hi
    exact ⟨rfl, rfl⟩
  case h_84 =>
    intro i hi
    simp at hi
    obtain ⟨rfl, rfl, v, rfl, d, rfl, a, rfl, rfl⟩ := hi
    exact ⟨rfl, rfl⟩
  case h_96 =>
    obtain ⟨e, rfl⟩ := exists_bit hr.n
    obtain ⟨o, sc, w', hs, hw, rfl⟩ := exists_lm hr
    obtain ⟨w', rfl⟩ := exists_iw hw
    intro i hi
    simp [hs, hw] at hi
    obtain ⟨sc, rfl, x, rfl, d, rfl, a, rfl, rfl⟩ := hi
    exact ⟨rfl, rfl⟩
  case h_97 =>
    obtain ⟨e, rfl⟩ := exists_bit hr.n
    obtain ⟨o, sc, w', hs, hw, rfl⟩ := exists_lm hr
    obtain ⟨w', rfl⟩ := exists_iw hw
    intro i hi
    simp [hs, hw] at hi
    obtain ⟨sc, rfl, x, rfl, d, rfl, a, rfl, rfl⟩ := hi
    exact ⟨rfl, rfl⟩
  case h_98 =>
    obtain ⟨o, sc, w', hs, hw, rfl⟩ := exists_lm hr
    obtain ⟨w', rfl⟩ := exists_iw hw
    intro i hi
    simp [hs, hw] at hi
    obtain ⟨rfl, sc, rfl, x, rfl, d, rfl, a, rfl, rfl⟩ := hi
    exact ⟨rfl, rfl⟩
  case h_99 =>
    obtain ⟨o, sc, w', hs, hw, rfl⟩ := exists_lm hr
    obtain ⟨w', rfl⟩ := exists_iw hw
    intro i hi
    simp [hs, hw] at hi
    obtain ⟨rfl, sc, rfl, x, rfl, d, rfl, a, rfl, rfl⟩ := hi
    exact ⟨rfl, rfl⟩
  case h_100 =>
    obtain ⟨e, rfl⟩ := exists_bit hr.n
    obtain ⟨o, sc, w', hs, hw, rfl⟩ := exists_lm hr
    obtain ⟨x, rfl⟩ := exists_atomAux hr.w
    intro i hi
    simp [hs, hw] at hi
    obtain ⟨sc, rfl, w', rfl, d, rfl, a, rfl, rfl⟩ := hi
    exact ⟨rfl, rfl⟩
  case h_101 =>
    obtain ⟨o, sc, w', hs, hw, rfl⟩ := exists_lm hr
    intro i hi
    simp [hs, hw, redmOf_eq_ok hr.w hw] at hi
    obtain ⟨rfl, sc, rfl, k, ⟨rfl, rfl⟩, d, rfl, a, rfl, rfl⟩ := hi
    exact ⟨rfl, rfl⟩
  case h_102 => exact faithful_error _ _

/-! ## Tails (R62) -/

theorem exists_tail {set t : ℕ} (ht : t < 2 ^ 32) (h : isTail set t = true) :
    ∃ reg imm, reg < 128 ∧ imm < 2 ^ 18 ∧ t = trWord set reg imm := by
  simp only [isTail, Bool.and_eq_true, decide_eq_true_eq] at h
  exact ⟨tailReg t, tailImm t, by unfold tailReg; omega, by unfold tailImm; omega, by unfold trWord tailReg tailImm; omega⟩

@[simp] theorem tailReg_trWord {set reg imm : ℕ} (hr : reg < 128) (hi : imm < 2 ^ 18) : tailReg (trWord set reg imm) = reg := by
  unfold tailReg trWord; omega
@[simp] theorem tailImm_trWord {set reg imm : ℕ} (hi : imm < 2 ^ 18) : tailImm (trWord set reg imm) = imm := by
  unfold tailImm trWord; omega

theorem exists_bits3 {x : ℕ} (h : x < 8) : ∃ a b c : Bool, x = bit a + 2 * bit b + 4 * bit c := by
  obtain ⟨a, ha⟩ := exists_bit (x := x % 2) (by omega)
  obtain ⟨b, hb⟩ := exists_bit (x := x / 2 % 2) (by omega)
  obtain ⟨c, hc⟩ := exists_bit (x := x / 4) (by omega)
  exact ⟨a, b, c, by omega⟩

section
variable (a b c : Bool)

@[simp] theorem bits3_lt : bit a + 2 * bit b + 4 * bit c < 8 := by
  have := Laws.bit_le a; have := Laws.bit_le b; have := Laws.bit_le c; omega
@[simp] theorem bits3_0 : (bit a + 2 * bit b + 4 * bit c) % 2 = bit a := by
  have := Laws.bit_le a; omega
@[simp] theorem bits3_1 : (bit a + 2 * bit b + 4 * bit c) / 2 % 2 = bit b := by
  have := Laws.bit_le a; have := Laws.bit_le b; omega
@[simp] theorem bits3_2 : (bit a + 2 * bit b + 4 * bit c) / 4 = bit c := by
  have := Laws.bit_le a; have := Laws.bit_le b; omega

end

/-- The wide lane instructions: `fma3`, then memory. -/
theorem faithful_decodeLaneWide {r : LaneF} {t : ℕ} (hr : r.Ok) (ht : t < 2 ^ 32) (hm : isTail 0 t = true) :
    Faithful [r.word, t] (decodeLaneWide r t) := by
  obtain ⟨reg, imm, hreg, himm, rfl⟩ := exists_tail ht hm
  clear ht hm
  obtain ⟨op, n, d, a, b, w⟩ := r
  unfold decodeLaneWide
  simp only [tailReg_trWord hreg himm, tailImm_trWord himm]
  split
  case h_1 =>
    obtain ⟨w, rfl⟩ := exists_fw hr.w
    intro i hi
    simp [vdstOf_eq_ok hr.n] at hi
    obtain ⟨h8, d, ⟨rfl, rfl⟩, a, rfl, b, rfl, c, rfl, rfl⟩ := hi
    obtain ⟨x, y, z, rfl⟩ := exists_bits3 h8
    simp only [bits3_0, bits3_1, bits3_2, bit_mod, boolOf_bit]
    exact ⟨rfl, rfl⟩
  case h_7 => exact faithful_error _ _
  all_goals
    obtain ⟨e, rfl⟩ := exists_bit hr.n
    obtain ⟨o, sc, w', hs, hw, rfl⟩ := exists_lm hr
    intro i hi
    simp [hs, hw, atomKindOf_eq_ok hw] at hi
  case h_2 | h_3 =>
    obtain ⟨w', rfl⟩ := exists_iw hw
    obtain ⟨off, rfl⟩ := exists_imm himm
    obtain ⟨sc, rfl, k, rfl, d, rfl, a, rfl, c, rfl, rfl⟩ := hi
    simp only [iwOf_code, BitVec.ofNat_toNat, BitVec.setWidth_eq]
    exact ⟨rfl, rfl⟩
  case h_4 =>
    obtain ⟨w', rfl⟩ := exists_iw hw
    obtain ⟨off, rfl⟩ := exists_imm himm
    obtain ⟨rfl, hne, sc, rfl, d, rfl, a, rfl, c, rfl, rfl⟩ := hi
    simp only [iwOf_code, BitVec.ofNat_toNat, BitVec.setWidth_eq]
    exact ⟨decide_eq_true fun h => hne (by simp [h]), rfl⟩
  case h_5 =>
    obtain ⟨off, hoff⟩ := exists_imm (n := 14) (x := imm % 16384) (by omega)
    obtain ⟨rfl, sc, rfl, k, ⟨hk, rfl⟩, d, rfl, a, rfl, c, rfl, rfl⟩ := hi
    obtain rfl : imm = k.code * 16384 + off.toNat := by omega
    simp only [hoff, BitVec.ofNat_toNat, BitVec.setWidth_eq]
    exact ⟨rfl, rfl⟩
  case h_6 =>
    obtain ⟨rfl, h0, sc, rfl, w', rfl, d, rfl, a, rfl, c, rfl, n, hn, rfl⟩ := hi
    obtain rfl : imm = n.code * 2048 + 0 := by omega
    exact ⟨rfl, rfl⟩

end Sys2Proof
end

section
/-! PROOFS. Uniform words that decode (R68, R71), and the obligation that words which decode are the encoding of what they
decode to (O7). -/
namespace Sys2Proof

/-! ## Uniform words -/

/-- The fields of a uniform head are in range. -/
structure UniF.Ok (r : UniF) : Prop where
  op : r.op < 128
  n : r.n < 2
  d : r.d < 64
  a : r.a < 64
  b : r.b < 64
  f : r.f < 32

theorem uniF_ok (h : ℕ) : (uniF h).Ok := by
  constructor <;> simp only [uniF] <;> omega

theorem word_uniF {h : ℕ} (h0 : 2 ^ 31 ≤ h) (h1 : h < 2 ^ 32) : (uniF h).word = h := by
  simp only [uniF, UniF.word]; omega

theorem uniF_word {r : UniF} (hr : r.Ok) : uniF r.word = r := by
  obtain ⟨op, n, d, a, b, f⟩ := r
  obtain ⟨h1, h2, h3, h4, h5, h6⟩ := hr
  simp only [uniF, UniF.word, UniF.mk.injEq] at *
  omega

/-- Bit 31 and the opcode of a uniform head. -/
theorem uniF_word_top {r : UniF} (hr : r.Ok) : r.word / 16777216 = 128 + r.op := by
  obtain ⟨h1, h2, h3, h4, h5, h6⟩ := hr
  unfold UniF.word; omega

section
variable {r : UniF} (hr : r.Ok)
include hr

theorem faithful_ua3 {mk : SDst → USrc → USrc → Instr}
    (e : ∀ d a b, (mk d a b).wellFormed = true ∧ encode (mk d a b) = encUa3 r.op r.f d a b) : Faithful [r.word] (ua3 mk r) := by
  obtain ⟨op, n, d, a, b, f⟩ := r
  intro i hi
  simp [ua3, sdstOf_eq_ok hr.n] at hi
  obtain ⟨d, ⟨rfl, rfl⟩, a, rfl, b, rfl, rfl⟩ := hi
  exact e d a b

theorem faithful_ua2 {mk : SDst → USrc → Instr}
    (e : ∀ d a, (mk d a).wellFormed = true ∧ encode (mk d a) = encUa2 r.op r.f d a) : Faithful [r.word] (ua2 mk r) := by
  obtain ⟨op, n, d, a, b, f⟩ := r
  intro i hi
  simp [ua2, sdstOf_eq_ok hr.n] at hi
  obtain ⟨rfl, d, ⟨rfl, rfl⟩, a, rfl, rfl⟩ := hi
  exact e d a

theorem faithful_ua3z {mk : SDst → USrc → USrc → Instr}
    (e : ∀ d a b, (mk d a b).wellFormed = true ∧ encode (mk d a b) = encUa3 r.op 0 d a b) : Faithful [r.word] (ua3z mk r) := by
  intro i hi
  simp [ua3z] at hi
  exact faithful_ua3 hr (hi.1 ▸ e) i hi.2

/-- The low eleven bits of a uniform head (UI of R55). -/
theorem imm11_lt : r.imm11 < 2 ^ 11 := by
  obtain ⟨h1, h2, h3, h4, h5, h6⟩ := hr
  unfold UniF.imm11; omega

theorem word_imm11 : [r.word] = encUi r.op r.n r.d r.a r.imm11 := by
  obtain ⟨op, n, d, a, b, f⟩ := r
  obtain ⟨h1, h2, h3, h4, h5, h6⟩ := hr
  simp only [encUi, UniF.imm11, UniF.word] at *
  congr 1
  omega

theorem faithful_ui3 {mk : SDst → USrc → BitVec 11 → Instr}
    (e : ∀ d a k, (mk d a k).wellFormed = true ∧ encode (mk d a k) = encUi3 r.op d a k) : Faithful [r.word] (ui3 mk r) := by
  obtain ⟨k, hk⟩ := exists_imm (imm11_lt hr)
  rw [word_imm11 hr, hk]
  obtain ⟨op, n, d, a, b, f⟩ := r
  intro i hi
  simp [ui3, sdstOf_eq_ok hr.n, hk] at hi
  obtain ⟨d, ⟨rfl, rfl⟩, a, rfl, rfl⟩ := hi
  exact e d a k

theorem faithful_uaJump {mk : USrc → Instr}
    (e : ∀ a, (mk a).wellFormed = true ∧ encode (mk a) = [UniF.word ⟨r.op, 0, 0, a.code, 0, 0⟩]) :
    Faithful [r.word] (uaJump mk r) := by
  obtain ⟨op, n, d, a, b, f⟩ := r
  intro i hi
  simp [uaJump] at hi
  obtain ⟨rfl, rfl, rfl, rfl, a, rfl, rfl⟩ := hi
  exact e a

/-- The ord and scope of a uniform instruction in its five low bits (R55). -/
theorem exists_os : ∃ (o : Ord) (sc : ℕ), sc < 8 ∧ r.f = o.code * 8 + sc := by
  have hf := hr.f
  obtain ⟨o, ho⟩ := exists_ord (x := r.f / 8) (by omega)
  exact ⟨o, r.f % 8, by omega, by omega⟩

end

theorem os_ord {o sc : ℕ} (hs : sc < 8) : (o * 8 + sc) / 8 = o := by omega
theorem os_scope {o sc : ℕ} (hs : sc < 8) : (o * 8 + sc) % 8 = sc := by omega

section
variable {r : UniF} (hr : r.Ok)
include hr

theorem faithful_uaOrd {mk : Ord → Scope → SDst → USrc → USrc → Instr}
    (e : ∀ o sc d a b, (mk o sc d a b).wellFormed = true ∧ encode (mk o sc d a b) = encUa3 r.op (encOs o sc) d a b) :
    Faithful [r.word] (uaOrd mk r) := by
  obtain ⟨o, sc, hs, hf⟩ := exists_os hr
  obtain ⟨op, n, d, a, b, f⟩ := r
  obtain rfl : f = _ := hf
  intro i hi
  simp [uaOrd, sdstOf_eq_ok hr.n, os_ord hs, os_scope hs] at hi
  obtain ⟨sc, rfl, d, ⟨rfl, rfl⟩, a, rfl, b, rfl, rfl⟩ := hi
  exact e o sc d a b

theorem faithful_ldw {w : IW} (ho : r.op = 0x40 + w.code) : Faithful [r.word] (ldw w r) :=
  faithful_uaOrd (mk := fun o sc => .ldu o sc w) hr fun _ _ _ _ _ => ⟨rfl, by rw [ho]; rfl⟩

theorem faithful_stw {w : IW} (ho : r.op = 0x44 + w.code) : Faithful [r.word] (stw w r) := by
  obtain ⟨o, sc, hs, hf⟩ := exists_os hr
  obtain ⟨op, n, d, a, b, f⟩ := r
  obtain rfl : f = _ := hf
  obtain rfl : op = _ := ho
  intro i hi
  simp [stw, os_ord hs, os_scope hs] at hi
  obtain ⟨rfl, sc, rfl, d, rfl, a, rfl, b, rfl, rfl⟩ := hi
  exact ⟨rfl, rfl⟩

theorem faithful_decodeAlu (ho : r.op = 0) : Faithful [r.word] (decodeAlu r) := by
  obtain ⟨op, n, d, a, b, f⟩ := r
  obtain rfl : op = 0 := ho
  unfold decodeAlu
  dsimp only
  split
  case h_20 | h_21 | h_24 => exact faithful_ua2 hr fun _ _ => ⟨rfl, rfl⟩
  case h_25 => exact faithful_error _ _
  all_goals exact faithful_ua3 hr fun _ _ _ => ⟨rfl, rfl⟩

theorem faithful_decodeMaskLogic (ho : r.op = 0x35) : Faithful [r.word] (decodeMaskLogic r) := by
  obtain ⟨op, n, d, a, b, f⟩ := r
  obtain rfl : op = 0x35 := ho
  unfold decodeMaskLogic
  refine faithful_need fun hn => ?_
  obtain rfl : n = 0 := of_decide_eq_true hn
  dsimp only
  split
  case h_7 => exact faithful_error _ _
  all_goals
    intro i hi
    simp at hi
  case h_5 | h_6 =>
    obtain ⟨rfl, d, rfl, a, rfl, rfl⟩ := hi
    exact ⟨rfl, rfl⟩
  all_goals
    obtain ⟨d, rfl, a, rfl, b, rfl, rfl⟩ := hi
    exact ⟨rfl, rfl⟩

end

/-! ## Uniform words with an immediate or an offset (UB, UL, UJ of R55) -/

section
variable {op h : ℕ} (hop : h / 16777216 = 128 + op)
include hop

theorem faithful_ul {mk : SReg → BitVec 18 → Instr}
    (e : ∀ d k, (mk d k).wellFormed = true ∧ encode (mk d k) = [ulWord op d.val k.toNat]) : Faithful [h] (ul mk h) := by
  obtain ⟨k, hk⟩ := exists_imm (n := 18) (x := h % 262144) (by omega)
  intro i hi
  simp [ul, hk] at hi
  obtain ⟨d, hd, rfl⟩ := hi
  obtain rfl : h = ulWord op d.val k.toNat := by unfold ulWord; omega
  exact e d k

theorem faithful_ulF {mk : SReg → BitVec 16 → Instr}
    (e : ∀ d x, (mk d x).wellFormed = true ∧ encode (mk d x) = [ulWord op d.val x.toNat]) : Faithful [h] (ulF mk h) := by
  obtain ⟨x, hx⟩ := exists_imm (n := 16) (x := h % 65536) (by omega)
  intro i hi
  simp [ulF, hx] at hi
  obtain ⟨h0, d, hd, rfl⟩ := hi
  obtain rfl : h = ulWord op d.val x.toNat := by unfold ulWord; omega
  exact e d x

theorem faithful_ulCode {mk : BitVec 18 → Instr}
    (e : ∀ k, (mk k).wellFormed = true ∧ encode (mk k) = [ulWord op 0 k.toNat]) : Faithful [h] (ulCode mk h) := by
  obtain ⟨k, hk⟩ := exists_imm (n := 18) (x := h % 262144) (by omega)
  intro i hi
  simp [ulCode, hk] at hi
  obtain ⟨h0, rfl⟩ := hi
  obtain rfl : h = ulWord op 0 k.toNat := by unfold ulWord; omega
  exact e k

theorem faithful_ujZero {j : Instr} (e : j.wellFormed = true ∧ encode j = [ujWord op 0]) : Faithful [h] (ujZero j h) := by
  intro i hi
  simp [ujZero] at hi
  obtain ⟨h0, rfl⟩ := hi
  obtain rfl : h = ujWord op 0 := by unfold ujWord; omega
  exact e

theorem faithful_ubMask {mk : MReg → BitVec 9 → Instr}
    (e : ∀ m k, (mk m k).wellFormed = true ∧ encode (mk m k) = [ubWord op 0 m.val 0 k.toNat]) : Faithful [h] (ubMask mk h) := by
  obtain ⟨k, hk⟩ := exists_imm (n := 9) (x := h % 512) (by omega)
  intro i hi
  simp [ubMask, hk] at hi
  obtain ⟨h1, h2, m, hm, rfl⟩ := hi
  obtain rfl : h = ubWord op 0 m.val 0 k.toNat := by unfold ubWord; omega
  exact e m k

end

/-- The one-word uniform instructions: those of a shared layout first, then by where their fields stand. -/
theorem faithful_decodeUni {r : UniF} (hr : r.Ok) : Faithful [r.word] (decodeUni r.word) := by
  have htop := uniF_word_top hr
  unfold decodeUni
  rw [uniF_word hr]
  obtain ⟨op, n, d, a, b, f⟩ := r
  dsimp only at htop ⊢
  split
  case h_1 => exact faithful_decodeAlu hr rfl
  case h_2 | h_3 | h_4 | h_5 | h_6 | h_7 | h_8 | h_9 => exact faithful_ui3 hr fun _ _ _ => ⟨rfl, rfl⟩
  case h_10 | h_11 | h_12 | h_13 | h_14 | h_18 | h_24 => exact faithful_ul htop fun _ _ => ⟨rfl, rfl⟩
  case h_15 | h_16 | h_17 => exact faithful_ulF htop fun _ _ => ⟨rfl, rfl⟩
  case h_23 | h_25 => exact faithful_uaJump hr fun _ => ⟨rfl, rfl⟩
  case h_27 | h_28 | h_29 | h_35 | h_77 => exact faithful_ujZero htop ⟨rfl, rfl⟩
  case h_33 | h_36 | h_37 => exact faithful_ubMask htop fun _ _ => ⟨rfl, rfl⟩
  case h_38 => exact faithful_decodeMaskLogic hr rfl
  case h_44 | h_45 | h_46 | h_47 => exact faithful_ldw hr rfl
  case h_48 | h_49 | h_50 | h_51 => exact faithful_stw hr rfl
  case h_53 | h_54 | h_55 => exact faithful_ua3z hr fun _ _ _ => ⟨rfl, rfl⟩
  case h_58 | h_59 | h_60 | h_61 => exact faithful_uaOrd hr fun _ _ _ _ _ => ⟨rfl, rfl⟩
  case h_81 | h_82 | h_83 => exact faithful_ulCode htop fun _ => ⟨rfl, rfl⟩
  case h_84 => exact faithful_error _ _
  all_goals
    intro i hi
    simp [sdstOf_eq_ok hr.n] at hi
  -- the fields stand in the layout UA
  case h_19 | h_30 =>
    obtain ⟨c, rfl, d, ⟨rfl, rfl⟩, a, rfl, b, rfl, rfl⟩ := hi
    exact ⟨rfl, rfl⟩
  case h_20 =>
    obtain ⟨d, ⟨rfl, rfl⟩, a, rfl, b, rfl, c, rfl, rfl⟩ := hi
    exact ⟨rfl, rfl⟩
  case h_31 | h_39 | h_40 | h_75 =>
    obtain ⟨rfl, rfl, d, ⟨rfl, rfl⟩, a, rfl, rfl⟩ := hi
    exact ⟨rfl, rfl⟩
  case h_65 =>
    obtain ⟨rfl, rfl, rfl, k, rfl, a, rfl, rfl⟩ := hi
    exact ⟨rfl, rfl⟩
  case h_66 | h_70 | h_74 =>
    obtain ⟨rfl, rfl, rfl, a, rfl, b, rfl, rfl⟩ := hi
    exact ⟨rfl, rfl⟩
  case h_67 =>
    obtain ⟨rfl, rfl, h8, d, ⟨rfl, rfl⟩, q, hq, rfl⟩ := hi
    obtain rfl : a = 8 * q.val := by omega
    exact ⟨rfl, rfl⟩
  case h_68 | h_69 =>
    obtain ⟨ch, rfl, rfl, d, rfl, a, rfl, b, rfl, rfl⟩ := hi
    exact ⟨rfl, rfl⟩
  case h_71 =>
    obtain ⟨rfl, rfl, rfl, d, ⟨rfl, rfl⟩, rfl⟩ := hi
    exact ⟨rfl, rfl⟩
  case h_72 =>
    obtain ⟨rfl, rfl, rfl, rfl, a, rfl, rfl⟩ := hi
    exact ⟨rfl, rfl⟩
  case h_73 =>
    obtain ⟨rfl, rfl, o, rfl, a, rfl, b, rfl, rfl⟩ := hi
    exact ⟨rfl, rfl⟩
  case h_76 =>
    obtain ⟨rfl, rfl, d, rfl, a, rfl, b, rfl, rfl⟩ := hi
    exact ⟨rfl, rfl⟩
  -- an order and a scope in the five low bits
  case h_56 =>
    obtain ⟨rfl, rfl, rfl, rfl, o, ho, sc, hs, rfl⟩ := hi
    obtain rfl : f = o.code * 8 + sc.code := by omega
    rw [word_imm11 hr]
    simp only [UniF.imm11, Nat.zero_mul, Nat.zero_add]
    exact ⟨rfl, rfl⟩
  case h_62 =>
    obtain ⟨o, sc, hs, hf⟩ := exists_os hr
    obtain rfl : f = _ := hf
    simp only [os_ord hs, os_scope hs, ordOf_code] at hi
    obtain ⟨rfl, rfl, rfl, sc, rfl, a, rfl, rfl⟩ := hi
    exact ⟨rfl, rfl⟩
  case h_63 =>
    obtain ⟨o, sc, hs, hf⟩ := exists_os hr
    obtain rfl : f = _ := hf
    simp only [os_ord hs, os_scope hs, ordOf_code] at hi
    obtain ⟨rfl, rfl, sc, rfl, a, rfl, b, rfl, rfl⟩ := hi
    exact ⟨rfl, rfl⟩
  case h_64 =>
    obtain ⟨o, sc, hs, hf⟩ := exists_os hr
    obtain rfl : f = _ := hf
    simp only [os_ord hs, os_scope hs, ordOf_code] at hi
    obtain ⟨rfl, sc, rfl, d, ⟨rfl, rfl⟩, a, rfl, rfl⟩ := hi
    exact ⟨rfl, rfl⟩
  -- the layouts UB, UL and UJ
  case h_21 =>
    generalize UniF.word _ = h at *
    obtain ⟨v, hv⟩ := exists_imm (n := 24) (x := h % 16777216) (by omega)
    obtain rfl : h = ujWord 0x20 v.toNat := by unfold ujWord; omega
    rw [hv, BitVec.ofNat_toNat, BitVec.setWidth_eq] at hi
    subst hi
    exact ⟨rfl, rfl⟩
  case h_22 =>
    generalize UniF.word _ = h at *
    obtain ⟨v, hv⟩ := exists_imm (n := 9) (x := h % 512) (by omega)
    obtain ⟨c, hc, a, ha, b, hb, rfl⟩ := hi
    obtain rfl : h = ubWord 0x21 c.code a.code b.code v.toNat := by unfold ubWord; omega
    rw [hv, BitVec.ofNat_toNat, BitVec.setWidth_eq]
    exact ⟨rfl, rfl⟩
  case h_26 =>
    generalize UniF.word _ = h at *
    obtain ⟨v, hv⟩ := exists_imm (n := 9) (x := h % 512) (by omega)
    obtain ⟨h1, h2, a, ha, rfl⟩ := hi
    obtain rfl : h = ubWord 0x25 0 a.val 0 v.toNat := by unfold ubWord; omega
    rw [hv, BitVec.ofNat_toNat, BitVec.setWidth_eq]
    exact ⟨rfl, rfl⟩
  case h_34 =>
    generalize UniF.word _ = h at *
    obtain ⟨v, hv⟩ := exists_imm (n := 9) (x := h % 512) (by omega)
    obtain ⟨h1, rfl⟩ := hi
    obtain rfl : h = ubWord 0x31 0 0 0 v.toNat := by unfold ubWord; omega
    rw [hv, BitVec.ofNat_toNat, BitVec.setWidth_eq]
    exact ⟨rfl, rfl⟩
  case h_79 =>
    generalize UniF.word _ = h at *
    obtain ⟨h1, d, hd, hi⟩ := hi
    split at hi
    case h_1 hk =>
      obtain rfl : h = ulWord 0x73 0 (d.val * 2048 + 0) := by unfold ulWord; omega
      cases hi
      exact ⟨rfl, rfl⟩
    case h_2 hk =>
      obtain rfl : h = ulWord 0x73 0 (d.val * 2048 + 3) := by unfold ulWord; omega
      cases hi
      exact ⟨rfl, rfl⟩
    case h_3 => cases hi
  -- an immediate in the low eleven bits (UI)
  all_goals
    rw [word_imm11 hr]
    have h11 := imm11_lt hr
    generalize UniF.imm11 _ = k at *
  case h_32 =>
    obtain ⟨rfl, h0, d, ⟨rfl, rfl⟩, x, hx, rfl⟩ := hi
    obtain rfl : k = x.val + 1 := by omega
    exact ⟨rfl, rfl⟩
  case h_41 =>
    obtain ⟨d, ⟨rfl, rfl⟩, m, rfl, x, rfl, rfl⟩ := hi
    exact ⟨rfl, rfl⟩
  case h_42 =>
    obtain ⟨v, hv⟩ := exists_imm (n := 8) (x := k % 256) (by omega)
    obtain ⟨rfl, rfl, rfl, c, hc, rfl⟩ := hi
    obtain rfl : k = c.code * 256 + v.toNat := by omega
    simp only [hv, BitVec.ofNat_toNat, BitVec.setWidth_eq]
    exact ⟨rfl, rfl⟩
  case h_43 =>
    obtain ⟨rfl, rfl, a, rfl, q, rfl, rfl⟩ := hi
    exact ⟨rfl, rfl⟩
  case h_52 =>
    obtain ⟨o, ho⟩ := exists_ord (x := k / 512) (by omega)
    rw [ho, ordOf_code] at hi
    obtain ⟨sc, hs, x, hx, d, ⟨rfl, rfl⟩, a, rfl, rfl⟩ := hi
    obtain ⟨h1, h2⟩ := (atomuOf_eq_ok (by omega)).1 hx
    obtain rfl : k = o.code * 512 + sc.code * 64 + x.width * 32 + x.code := by omega
    exact ⟨rfl, rfl⟩
  case h_57 =>
    obtain ⟨rfl, rfl, rfl, h16, rfl⟩ := hi
    obtain ⟨v, rfl⟩ := exists_imm (n := 4) h16
    simp only [BitVec.ofNat_toNat, BitVec.setWidth_eq]
    exact ⟨rfl, rfl⟩
  case h_78 =>
    obtain ⟨rfl, x, rfl, ⟨h1, h2⟩, d, ⟨rfl, rfl⟩, rfl⟩ := hi
    exact ⟨by simp [Instr.wellFormed, h1, h2], rfl⟩
  case h_80 =>
    obtain ⟨rfl, rfl, x, rfl, a, rfl, rfl⟩ := hi
    exact ⟨rfl, rfl⟩

theorem faithful_decodeUniWide {r : UniF} {t : ℕ} (hr : r.Ok) (ht : t < 2 ^ 32) (hm : isTail 1 t = true) :
    Faithful [r.word, t] (decodeUniWide r.word t) := by
  obtain ⟨reg, imm, hreg, himm, rfl⟩ := exists_tail ht hm
  obtain ⟨o, sc, hs, hf⟩ := exists_os hr
  unfold decodeUniWide
  rw [uniF_word hr]
  simp only [tailUsrc, tailReg_trWord hreg himm, tailImm_trWord himm]
  obtain ⟨op, n, d, a, b, f⟩ := r
  dsimp only
  split
  case h_5 => exact faithful_error _ _
  all_goals
    intro i hi
    simp [sdstOf_eq_ok hr.n] at hi
  case h_4 =>
    obtain ⟨h8, k, ⟨rfl, rfl⟩, sc, rfl, d, ⟨rfl, rfl⟩, a, rfl, b, rfl, rfl⟩ := hi
    exact ⟨rfl, rfl⟩
  all_goals
    obtain rfl : f = _ := hf
    simp only [os_ord hs, os_scope hs, ordOf_code] at hi
  case h_1 =>
    obtain ⟨h2, sc, rfl, d, ⟨rfl, rfl⟩, a, rfl, b, rfl, c, rfl, rfl⟩ := hi
    obtain ⟨w, rfl⟩ := exists_awBit (Nat.lt_succ_of_le h2)
    rw [awBit_bit]
    exact ⟨rfl, rfl⟩
  case h_2 =>
    obtain ⟨h8, hi⟩ := hi
    obtain ⟨x, y, z, rfl⟩ := exists_bits3 h8
    simp only [bits3_0, bits3_1, bits3_2, boolOf_bit] at hi
    cases z with
    | false =>
      simp [bit, sdstOf_eq_ok hr.n] at hi
      obtain ⟨b, rfl, sc, rfl, d, ⟨rfl, rfl⟩, a, rfl, c, rfl, rfl⟩ := hi
      exact ⟨rfl, rfl⟩
    | true =>
      simp [bit, sdstOf_eq_ok hr.n] at hi
      obtain ⟨rfl, sc, rfl, d, ⟨rfl, rfl⟩, a, rfl, c, rfl, rfl⟩ := hi
      exact ⟨rfl, rfl⟩
  case h_3 =>
    obtain ⟨rfl, sc, rfl, d, ⟨rfl, rfl⟩, a, rfl, b, rfl, c, rfl, rfl⟩ := hi
    exact ⟨rfl, rfl⟩

/-! ## O7 -/

/-- Everything that words which decode can be (R68). -/
theorem decodeWords_cases {sett : Bool} {h : ℕ} {t : Option ℕ} {i : Instr} (hd : decodeWords sett h t = .ok i) :
    (h / 2147483648 % 2 = 0 ∧
      (decodeLane (laneF h) = .ok i ∨ ∃ w, t = some w ∧ isTail 0 w = true ∧ decodeLaneWide (laneF h) w = .ok i)) ∨
    (h / 2147483648 % 2 = 1 ∧ (decodeUni h = .ok i ∨ ∃ w, t = some w ∧ isTail 1 w = true ∧ decodeUniWide h w = .ok i)) := by
  unfold decodeWords at hd
  split_ifs at hd with h1 h2 h3 h4 h5 h6
  · cases t with
    | none => cases hd
    | some w => 
      dsimp only at hd
      split_ifs at hd with hw
      exact .inl ⟨h3, .inr ⟨w, rfl, hw, hd⟩⟩
  · exact .inl ⟨h3, .inl hd⟩
  · cases t with
    | none => cases hd
    | some w =>
      dsimp only at hd
      split_ifs at hd with hw
      exact .inr ⟨by omega, .inr ⟨w, rfl, hw, hd⟩⟩
  · exact .inr ⟨by omega, .inl hd⟩

/-- Settles O7: the fields of the words are those of the instruction, layout by layout, and every other bit is refused. -/
theorem encodeDecode : Obligations.EncodeDecode := by
  unfold Obligations.EncodeDecode
  intro h t i hh ht hd
  rcases decodeWords_cases hd with ⟨htop, hd | ⟨w, rfl, hw, hd⟩⟩ | ⟨htop, hd | ⟨w, rfl, hw, hd⟩⟩
  · rw [← word_laneF (h := h) (by omega)]
    obtain ⟨wf, e⟩ := faithful_decodeLane (laneF_ok h) i hd
    exact ⟨wf, .inl e⟩
  · rw [← word_laneF (h := h) (by omega)]
    obtain ⟨wf, e⟩ := faithful_decodeLaneWide (laneF_ok h) (ht w rfl) hw i hd
    exact ⟨wf, .inr ⟨w, rfl, e⟩⟩
  · rw [← word_uniF (h := h) (by omega) hh] at hd ⊢
    obtain ⟨wf, e⟩ := faithful_decodeUni (uniF_ok h) i hd
    exact ⟨wf, .inl e⟩
  · rw [← word_uniF (h := h) (by omega) hh] at hd ⊢
    obtain ⟨wf, e⟩ := faithful_decodeUniWide (uniF_ok h) (ht w rfl) hw i hd
    exact ⟨wf, .inr ⟨w, rfl, e⟩⟩

end Sys2Proof
end

section
/-! PROOFS. Lane instructions are read back from their words (R54, R62, R70). -/
namespace Sys2Proof

/-- The words of `i` are read back as `i`; a word that follows an instruction of one word is not looked at. -/
def ReadBack (i : Instr) : Prop :=
  ∃ h, (encode i = [h] ∧ ∀ t, decodeWords true h t = .ok i) ∨ ∃ t, encode i = [h, t] ∧ decodeWords true h (some t) = .ok i

/-! ## Codes fit their fields -/

@[simp] theorem vdst_nwb_lt (d : VDst) : d.nwb < 2 := Nat.lt_succ_of_le (Laws.vdst_nwb_le d)
@[simp] theorem sdst_nwb_lt (d : SDst) : d.nwb < 2 := Nat.lt_succ_of_le (Laws.sdst_nwb_le d)
@[simp] theorem bit_lt (b : Bool) : bit b < 2 := Nat.lt_succ_of_le (Laws.bit_le b)
@[simp] theorem lmB_lt (o : Ord) {sc w : ℕ} (hs : sc < 8) (hw : w < 4) : lmB o.code sc w < 128 := Laws.lmB_lt o sc w hs hw
@[simp] theorem fin_val_lt {k n : ℕ} (r : Fin k) (h : k ≤ n) : r.val < n := Nat.lt_of_lt_of_le r.isLt h
@[simp] theorem imm_lt {k n : ℕ} (v : BitVec k) (h : 2 ^ k ≤ n) : v.toNat < n := Nat.lt_of_lt_of_le v.isLt h

/-! ## Lane words and their layouts -/

/-- The opcodes that the decoder of one-word lane instructions knows. -/
theorem decodeLane_op {r : LaneF} {i : Instr} (h : decodeLane r = .ok i) :
    r.op ≠ 0 ∧ r.op ≠ 126 ∧ r.op ≠ 127 ∧ laneWide r.op = false := by
  refine ⟨?_, ?_, ?_, ?_⟩
  iterate 3 exact fun ho => by simp [decodeLane, ho] at h
  by_contra hw
  simp only [laneWide, Bool.not_eq_false, Bool.or_eq_true, beq_iff_eq] at hw
  rcases hw with ((((ho | ho) | ho) | ho) | ho) | ho <;> simp [decodeLane, ho] at h

/-- The opcodes that the decoder of wide lane instructions knows. -/
theorem decodeLaneWide_op {r : LaneF} {t : ℕ} {i : Instr} (h : decodeLaneWide r t = .ok i) :
    r.op ≠ 0 ∧ r.op ≠ 126 ∧ r.op ≠ 127 ∧ laneWide r.op = true := by
  unfold decodeLaneWide at h
  split at h <;> simp_all [laneWide]

/-- A lane head has bit 31 clear, and its opcode stands in bits 30:24. -/
theorem lane_word_top {r : LaneF} (hr : r.Ok) : r.word / 2147483648 % 2 = 0 ∧ opcodeOf r.word = r.op := by
  obtain ⟨h1, h2, h3, h4, h5, h6⟩ := hr
  unfold LaneF.word opcodeOf
  omega

/-- A lane instruction of one word is read back if the decoder gives it from its fields. -/
theorem readBack_lane {r : LaneF} {i : Instr} (hr : r.Ok) (e : encode i = [r.word]) (hd : decodeLane r = .ok i) : ReadBack i := by
  obtain ⟨h0, h126, h127, hw⟩ := decodeLane_op hd
  obtain ⟨htop, hop⟩ := lane_word_top hr
  refine ⟨r.word, .inl ⟨e, fun t => ?_⟩⟩
  have hb : ¬ (r.word = 0 ∨ r.word = 4294967295) := by unfold opcodeOf at hop; omega
  simp [decodeWords, hb, hop, h126, h127, htop, hw, laneF_word hr, hd]

/-- The same with a tail, whose fields the decoder finds again. -/
theorem readBack_laneWide {r : LaneF} {reg imm : ℕ} {i : Instr} (hr : r.Ok) (hreg : reg < 128) (himm : imm < 2 ^ 18)
    (e : encode i = [r.word, trWord 0 reg imm])
    (hd : tailReg (trWord 0 reg imm) = reg → tailImm (trWord 0 reg imm) = imm → decodeLaneWide r (trWord 0 reg imm) = .ok i) :
    ReadBack i := by
  have hd := hd (tailReg_trWord hreg himm) (tailImm_trWord himm)
  obtain ⟨h0, h126, h127, hw⟩ := decodeLaneWide_op hd
  obtain ⟨htop, hop⟩ := lane_word_top hr
  refine ⟨r.word, .inr ⟨_, e, ?_⟩⟩
  have hb : ¬ (r.word = 0 ∨ r.word = 4294967295) := by unfold opcodeOf at hop; omega
  have ht : isTail 0 (trWord 0 reg imm) = true := (Laws.tail_ok (by decide) hreg himm).2
  simp [decodeWords, hb, hop, h126, h127, htop, hw, laneF_word hr, ht, hd]

section
variable {op : ℕ} (ho : op < 128)
include ho

theorem readBack_la3 {mk : IW → VDst → LSrc → LSrc → Instr} {w : IW} {d : VDst} {a b : LSrc}
    (e : encode (mk w d a b) = encLa3 op w d a b) (hd : ∀ n d a b w, decodeLane ⟨op, n, d, a, b, w⟩ = la3 mk ⟨op, n, d, a, b, w⟩) :
    ReadBack (mk w d a b) :=
  readBack_lane (by constructor <;> simp [ho]) e (by rw [hd]; simp [la3])

theorem readBack_la2 {mk : IW → VDst → LSrc → Instr} {w : IW} {d : VDst} {a : LSrc}
    (e : encode (mk w d a) = encLa2 op w d a) (hd : ∀ n d a b w, decodeLane ⟨op, n, d, a, b, w⟩ = la2 mk ⟨op, n, d, a, b, w⟩) :
    ReadBack (mk w d a) :=
  readBack_lane (by constructor <;> simp [ho]) e (by rw [hd]; simp [la2])

theorem readBack_fa3 {mk : FW → VDst → LSrc → LSrc → Instr} {w : FW} {d : VDst} {a b : LSrc}
    (e : encode (mk w d a b) = encFa3 op w d a b) (hd : ∀ n d a b w, decodeLane ⟨op, n, d, a, b, w⟩ = fa3 mk ⟨op, n, d, a, b, w⟩) :
    ReadBack (mk w d a b) :=
  readBack_lane (by constructor <;> simp [ho]) e (by rw [hd]; simp [fa3])

theorem readBack_fa2 {mk : FW → VDst → LSrc → Instr} {w : FW} {d : VDst} {a : LSrc}
    (e : encode (mk w d a) = encFa2 op w d a) (hd : ∀ n d a b w, decodeLane ⟨op, n, d, a, b, w⟩ = fa2 mk ⟨op, n, d, a, b, w⟩) :
    ReadBack (mk w d a) :=
  readBack_lane (by constructor <;> simp [ho]) e (by rw [hd]; simp [fa2])

theorem readBack_lcmp {mk : IW → MDst → LSrc → LSrc → Instr} {w : IW} {d : MDst} {a b : LSrc}
    (e : encode (mk w d a b) = encLcmp op w d a b) (hd : ∀ n d a b w, decodeLane ⟨op, n, d, a, b, w⟩ = lcmp mk ⟨op, n, d, a, b, w⟩) :
    ReadBack (mk w d a b) :=
  readBack_lane (by constructor <;> simp [ho]) e (by rw [hd]; simp [lcmp])

theorem readBack_fcmp {mk : FW → MDst → LSrc → LSrc → Instr} {w : FW} {d : MDst} {a b : LSrc}
    (e : encode (mk w d a b) = encFcmp op w d a b) (hd : ∀ n d a b w, decodeLane ⟨op, n, d, a, b, w⟩ = fcmp mk ⟨op, n, d, a, b, w⟩) :
    ReadBack (mk w d a b) :=
  readBack_lane (by constructor <;> simp [ho]) e (by rw [hd]; simp [fcmp])

theorem readBack_lcar {mk : Fin 4 → VDst → LSrc → LSrc → Instr} {m : Fin 4} {d : VDst} {a b : LSrc}
    (e : encode (mk m d a b) = encLcar op m d a b) (hd : ∀ n d a b w, decodeLane ⟨op, n, d, a, b, w⟩ = lcar mk ⟨op, n, d, a, b, w⟩) :
    ReadBack (mk m d a b) :=
  readBack_lane (by constructor <;> simp [ho]) e (by rw [hd]; simp [lcar])

theorem readBack_li3 {mk : IW → VDst → LSrc → BitVec 7 → Instr} {w : IW} {d : VDst} {a : LSrc} {k : BitVec 7}
    (e : encode (mk w d a k) = encLi3 op w d a k) (hd : ∀ n d a b w, decodeLane ⟨op, n, d, a, b, w⟩ = li3 mk ⟨op, n, d, a, b, w⟩) :
    ReadBack (mk w d a k) :=
  readBack_lane (by constructor <;> simp [ho]) e (by rw [hd]; simp [li3])

theorem readBack_licmp {mk : IW → MDst → LSrc → BitVec 7 → Instr} {w : IW} {d : MDst} {a : LSrc} {k : BitVec 7}
    (e : encode (mk w d a k) = encLicmp op w d a k) (hd : ∀ n d a b w, decodeLane ⟨op, n, d, a, b, w⟩ = licmp mk ⟨op, n, d, a, b, w⟩) :
    ReadBack (mk w d a k) :=
  readBack_lane (by constructor <;> simp [ho]) e (by rw [hd]; simp [licmp])

theorem readBack_lbro {mk : VDst → LSrc → BReg → Instr} {k : ℕ} {d : VDst} {a : LSrc} {b : BReg} (hk : k < 4)
    (e : encode (mk d a b) = encLbro op k d a b) (hd : ∀ n d a b w, decodeLane ⟨op, n, d, a, b, w⟩ = lbro mk k ⟨op, n, d, a, b, w⟩) :
    ReadBack (mk d a b) :=
  readBack_lane (by constructor <;> simp [ho, hk]; omega) e (by rw [hd]; simp [lbro])

/-- A butterfly's two destinations differ (R136). -/
theorem readBack_lbfly {mk : Fin 4 → VDst → VReg → LSrc → Instr} {q : Fin 4} {d : VDst} {a : VReg} {b : LSrc} (hne : VDst.field d ≠ a)
    (e : encode (mk q d a b) = [LaneF.word ⟨op, d.nwb, d.code, a.val, b.code, q.val⟩])
    (hd : ∀ n d a b w, decodeLane ⟨op, n, d, a, b, w⟩ = lbfly mk ⟨op, n, d, a, b, w⟩) : ReadBack (mk q d a b) := by
  have hc : a.val ≠ d.code := fun h => hne (Fin.ext (h.symm ▸ by cases d <;> rfl))
  exact readBack_lane (by constructor <;> simp [ho]) e (by rw [hd]; simp [lbfly, hc])

end

/-! ## The other lane instructions -/

/-- The `red` family shares one opcode: the form stands above the operation in the b field (R70). -/
theorem readBack_redOf {k : ℕ} {op : RedKind} {d : VDst} {a : LSrc} {i : Instr} (hk : k < 4) (e : encode i = encRed k op d a)
    (hd : (k * 32 + op.code) / 32 = k → (k * 32 + op.code) % 32 = op.code →
      redOf ⟨0x65, d.nwb, d.code, a.code, k * 32 + op.code, op.width⟩ = .ok i) : ReadBack i := by
  have hc := Laws.red_code_lt op
  exact readBack_lane (r := ⟨0x65, d.nwb, d.code, a.code, k * 32 + op.code, op.width⟩) (by constructor <;> simp; omega) e
    (hd (by omega) (by omega))

section
variable (k : RedKind) (d : VDst) (a : LSrc)

theorem readBack_red : ReadBack (.red k d a) :=
  readBack_redOf (k := 0) (by decide) rfl fun h1 h2 => by simp only [redOf, h1, h2]; simp
theorem readBack_scan : ReadBack (.scan k d a) :=
  readBack_redOf (k := 1) (by decide) rfl fun h1 h2 => by simp only [redOf, h1, h2]; simp
theorem readBack_scanEx : ReadBack (.scanEx k d a) :=
  readBack_redOf (k := 2) (by decide) rfl fun h1 h2 => by simp only [redOf, h1, h2]; simp
theorem readBack_segred : ReadBack (.segred k d a) :=
  readBack_redOf (k := 3) (by decide) rfl fun h1 h2 => by simp only [redOf, h1, h2]; simp

end

theorem readBack_mov (d : VDst) (a : LSrc) : ReadBack (.mov d a) :=
  readBack_lane (r := ⟨0x1E, d.nwb, d.code, a.code, 0, 0⟩) (by constructor <;> simp) rfl (by simp [decodeLane])

theorem readBack_li (w : IW) (d : VDst) (k : BitVec 7) : ReadBack (.li w d k) :=
  readBack_lane (r := ⟨0x2D, d.nwb, d.code, 0, k.toNat, w.code⟩) (by constructor <;> simp) rfl (by simp [decodeLane])

theorem readBack_shfli (d : VDst) (a : LSrc) (p : ShflPat) (k : BitVec 5) : ReadBack (.shfli d a p k) := by
  have h1 : (p.code * 32 + k.toNat) / 32 = p.code := by omega
  have h2 : (p.code * 32 + k.toNat) % 32 = k.toNat := by omega
  have hp := Laws.shfl_code_lt p
  exact readBack_lane (r := ⟨0x61, d.nwb, d.code, a.code, p.code * 32 + k.toNat, 3⟩) (by constructor <;> simp; omega) rfl
      (by simp [decodeLane, h1, h2])

theorem readBack_vote (v : VoteKind) (d : MDst) (a : LSrc) : ReadBack (.vote v d a) :=
  readBack_lane (r := ⟨0x62, 0, d.val, a.code, 0, v.code⟩) (by constructor <;> simp) rfl (by simp [decodeLane])

theorem readBack_ld (e : Bool) (o : Ord) (sc : Scope) (w : IW) (x : LdAux) (d : VReg) (a : LSrc) : ReadBack (.ld e o sc w x d a) :=
  readBack_lane (r := ⟨0x70, bit e, d.val, a.code, lmB o.code sc.code w.code, x.code⟩) (by constructor <;> simp) rfl
    (by simp [decodeLane])

theorem readBack_st (e : Bool) (o : Ord) (sc : Scope) (w : IW) (x : StAux) (d a : LSrc) : ReadBack (.st e o sc w x d a) :=
  readBack_lane (r := ⟨0x71, bit e, d.code, a.code, lmB o.code sc.code w.code, x.code⟩) (by constructor <;> simp) rfl
    (by simp [decodeLane])

theorem readBack_lds (o : Ord) (sc : SScope) (w : IW) (x : LdAux) (d : VReg) (a : LSrc) : ReadBack (.lds o sc w x d a) :=
  readBack_lane (r := ⟨0x75, 0, d.val, a.code, lmB o.code sc.code w.code, x.code⟩) (by constructor <;> simp) rfl
    (by simp [decodeLane])

theorem readBack_sts (o : Ord) (sc : SScope) (w : IW) (x : StAux) (d a : LSrc) : ReadBack (.sts o sc w x d a) :=
  readBack_lane (r := ⟨0x76, 0, d.code, a.code, lmB o.code sc.code w.code, x.code⟩) (by constructor <;> simp) rfl
    (by simp [decodeLane])

theorem readBack_atom (e : Bool) (o : Ord) (sc : Scope) (w : AW) (x : AtomAux) (d : VReg) (a : LSrc) : ReadBack (.atom e o sc w x d a) :=
  readBack_lane (r := ⟨0x77, bit e, d.val, a.code, lmB o.code sc.code w.code, x.code⟩) (by constructor <;> simp) rfl
    (by simp [decodeLane])

theorem readBack_redm (o : Ord) (sc : Scope) (k : RedmKind) (d a : LSrc) : ReadBack (.redm o sc k d a) :=
  readBack_lane (r := ⟨0x7A, 0, d.code, a.code, lmB o.code sc.code k.width, k.code⟩) (by constructor <;> simp) rfl
    (by simp [decodeLane])

theorem readBack_fma3 (w : FW) (d : VDst) (a b c : LSrc) (ftz np na : Bool) : ReadBack (.fma3 w d a b c ftz np na) :=
  readBack_laneWide (r := ⟨0x34, d.nwb, d.code, a.code, b.code, w.code⟩) (by constructor <;> simp)
    (Laws.lsrc_code_lt c) ((bits3_lt ftz np na).trans (by decide)) rfl fun h1 h2 => by simp [decodeLaneWide, h1, h2]

theorem readBack_ldx (e : Bool) (o : Ord) (sc : Scope) (w : IW) (k : Fin 4) (d : VReg) (a base : LSrc) (off : BitVec 18)
    : ReadBack (.ldx e o sc w k d a base off) :=
  readBack_laneWide (r := ⟨0x72, bit e, d.val, a.code, lmB o.code sc.code w.code, k.val⟩) (by constructor <;> simp)
    (Laws.lsrc_code_lt base) off.isLt rfl fun h1 h2 => by simp [decodeLaneWide, h1, h2]

theorem readBack_stx (e : Bool) (o : Ord) (sc : Scope) (w : IW) (k : Fin 4) (d a base : LSrc) (off : BitVec 18)
    : ReadBack (.stx e o sc w k d a base off) :=
  readBack_laneWide (r := ⟨0x73, bit e, d.code, a.code, lmB o.code sc.code w.code, k.val⟩) (by constructor <;> simp)
    (Laws.lsrc_code_lt base) off.isLt rfl fun h1 h2 => by simp [decodeLaneWide, h1, h2]

theorem readBack_stf (e : Bool) (o : Ord) (sc : Scope) (w : IW) (d a f : LSrc) (inc : BitVec 18)
    (hwf : (Instr.stf e o sc w d a f inc).wellFormed = true) : ReadBack (.stf e o sc w d a f inc) := by
  have hne : inc.toNat ≠ 0 := fun h => of_decide_eq_true hwf (BitVec.eq_of_toNat_eq h)
  exact readBack_laneWide (r := ⟨0x74, bit e, d.code, a.code, lmB o.code sc.code w.code, 0⟩) (by constructor <;> simp)
      (Laws.lsrc_code_lt f) inc.isLt rfl fun h1 h2 => by simp [decodeLaneWide, h1, h2, hne]

theorem readBack_atomOffset (e : Bool) (o : Ord) (sc : Scope) (k : AtomKind) (d : VReg) (a c : LSrc) (off : BitVec 14)
    : ReadBack (.atomOffset e o sc k d a c off) := by
  have hk := Laws.atomKind_code_lt k
  have h3 : (k.code * 16384 + off.toNat) / 16384 = k.code := by omega
  have h4 : (k.code * 16384 + off.toNat) % 16384 = off.toNat := by omega
  exact readBack_laneWide (r := ⟨0x78, bit e, d.val, a.code, lmB o.code sc.code k.width, 0⟩) (by constructor <;> simp)
      (Laws.lsrc_code_lt c) (by omega) rfl fun h1 h2 => by simp [decodeLaneWide, h1, h2, h3, h4]

theorem readBack_cas (e : Bool) (o : Ord) (sc : Scope) (w : AW) (d : VReg) (a x n : LSrc) : ReadBack (.cas e o sc w d a x n) := by
  have hn := Laws.lsrc_code_lt n
  exact readBack_laneWide (r := ⟨0x79, bit e, d.val, a.code, lmB o.code sc.code w.code, 0⟩) (by constructor <;> simp)
      (Laws.lsrc_code_lt x) (imm := n.code * 2048 + 0) (by omega) rfl fun h1 h2 => by simp only [decodeLaneWide, h1, h2]; simp

end Sys2Proof
end

section
/-! PROOFS. Uniform instructions are read back from their words (R55, R62, R71), and the obligation that every well-formed
instruction is (O6). -/
namespace Sys2Proof

/-! ## Uniform words -/

/-- The opcodes that the decoder of one-word uniform instructions knows. -/
theorem decodeUni_op {h : ℕ} {i : Instr} (hd : decodeUni h = .ok i) :
    opcodeOf h ≠ 126 ∧ opcodeOf h ≠ 127 ∧ uniWide (opcodeOf h) = false := by
  have ho : (uniF h).op = opcodeOf h := rfl
  refine ⟨?_, ?_, ?_⟩
  iterate 2 exact fun e => by simp [decodeUni, ho, e] at hd
  by_contra hw
  simp only [uniWide, Bool.not_eq_false, Bool.or_eq_true, beq_iff_eq] at hw
  rcases hw with ((e | e) | e) | e <;> simp [decodeUni, ho, e] at hd

/-- The opcodes that the decoder of wide uniform instructions knows. -/
theorem decodeUniWide_op {h t : ℕ} {i : Instr} (hd : decodeUniWide h t = .ok i) :
    opcodeOf h ≠ 126 ∧ opcodeOf h ≠ 127 ∧ uniWide (opcodeOf h) = true := by
  have ho : (uniF h).op = opcodeOf h := rfl
  unfold decodeUniWide at hd
  simp only [ho] at hd
  split at hd <;> simp_all [uniWide]

/-- A uniform instruction of one word is read back if the decoder gives it from its fields. -/
theorem readBack_uni {h op : ℕ} {i : Instr} (htop : h / 16777216 = 128 + op) (ho : op < 128) (e : encode i = [h])
    (hd : ∀ n d a b f, uniF h = ⟨op, n, d, a, b, f⟩ → decodeUni h = .ok i) : ReadBack i := by
  have hop : opcodeOf h = op := by unfold opcodeOf; omega
  have hu : uniF h = ⟨op, (uniF h).n, (uniF h).d, (uniF h).a, (uniF h).b, (uniF h).f⟩ := by rw [← hop]; rfl
  have hd := hd _ _ _ _ _ hu
  obtain ⟨h126, h127, hw⟩ := decodeUni_op hd
  have hb : ¬ (h = 0 ∨ h = 4294967295) := by omega
  have h31 : h / 2147483648 % 2 = 1 := by omega
  exact ⟨h, .inl ⟨e, fun t => by simp [decodeWords, hb, h126, h127, h31, hw, hd]⟩⟩

/-- The same for a head whose fields are those of UA. -/
theorem readBack_ua {r : UniF} {i : Instr} (hr : r.Ok) (e : encode i = [r.word]) (hd : uniF r.word = r → decodeUni r.word = .ok i) :
    ReadBack i :=
  readBack_uni (uniF_word_top hr) hr.op e fun _ _ _ _ _ _ => hd (uniF_word hr)

/-- The same with a tail, whose fields the decoder finds again. -/
theorem readBack_uniWide {r : UniF} {reg imm : ℕ} {i : Instr} (hr : r.Ok) (hreg : reg < 128) (himm : imm < 2 ^ 18)
    (e : encode i = [r.word, trWord 1 reg imm])
    (hd : uniF r.word = r → tailReg (trWord 1 reg imm) = reg → tailImm (trWord 1 reg imm) = imm →
      decodeUniWide r.word (trWord 1 reg imm) = .ok i) : ReadBack i := by
  have hd := hd (uniF_word hr) (tailReg_trWord hreg himm) (tailImm_trWord himm)
  obtain ⟨h126, h127, hw⟩ := decodeUniWide_op hd
  have htop := uniF_word_top hr
  have ho := hr.op
  have hb : ¬ (r.word = 0 ∨ r.word = 4294967295) := by unfold opcodeOf at h127; omega
  have h31 : r.word / 2147483648 % 2 = 1 := by omega
  have ht : isTail 1 (trWord 1 reg imm) = true := (Laws.tail_ok (by decide) hreg himm).2
  exact ⟨r.word, .inr ⟨_, e, by simp [decodeWords, hb, h126, h127, h31, hw, ht, hd]⟩⟩

@[simp] theorem encOs_lt (o : Ord) (sc : Scope) : encOs o sc < 32 := Laws.encOs_lt o sc
@[simp] theorem encOs_ord (o : Ord) (sc : Scope) : encOs o sc / 8 = o.code := os_ord (Laws.scope_code_lt sc)
@[simp] theorem encOs_scope (o : Ord) (sc : Scope) : encOs o sc % 8 = sc.code := os_scope (Laws.scope_code_lt sc)

section
variable {op : ℕ} (ho : op < 128)
include ho

theorem readBack_ua3 {mk : SDst → USrc → USrc → Instr} {f : ℕ} {d : SDst} {a b : USrc} (hf : f < 32)
    (e : encode (mk d a b) = encUa3 op f d a b)
    (hd : ∀ h n d a b, uniF h = ⟨op, n, d, a, b, f⟩ → decodeUni h = ua3 mk ⟨op, n, d, a, b, f⟩) : ReadBack (mk d a b) :=
  readBack_ua (by constructor <;> simp [ho, hf]) e fun h => by rw [hd _ _ _ _ _ h]; simp [ua3]

theorem readBack_ua2 {mk : SDst → USrc → Instr} {f : ℕ} {d : SDst} {a : USrc} (hf : f < 32)
    (e : encode (mk d a) = encUa2 op f d a)
    (hd : ∀ h n d a b, uniF h = ⟨op, n, d, a, b, f⟩ → decodeUni h = ua2 mk ⟨op, n, d, a, b, f⟩) : ReadBack (mk d a) :=
  readBack_ua (by constructor <;> simp [ho, hf]) e fun h => by rw [hd _ _ _ _ _ h]; simp [ua2]

theorem readBack_ua3z {mk : SDst → USrc → USrc → Instr} {d : SDst} {a b : USrc} (e : encode (mk d a b) = encUa3 op 0 d a b)
    (hd : ∀ h n d a b, uniF h = ⟨op, n, d, a, b, 0⟩ → decodeUni h = ua3z mk ⟨op, n, d, a, b, 0⟩) : ReadBack (mk d a b) :=
  readBack_ua (by constructor <;> simp [ho]) e fun h => by rw [hd _ _ _ _ _ h]; simp [ua3z, ua3]

theorem readBack_uaOrd {mk : Ord → Scope → SDst → USrc → USrc → Instr} {o : Ord} {sc : Scope} {d : SDst} {a b : USrc}
    (e : encode (mk o sc d a b) = encUa3 op (encOs o sc) d a b)
    (hd : ∀ h n d a b f, uniF h = ⟨op, n, d, a, b, f⟩ → decodeUni h = uaOrd mk ⟨op, n, d, a, b, f⟩) : ReadBack (mk o sc d a b) :=
  readBack_ua (by constructor <;> simp [ho]) e fun h => by rw [hd _ _ _ _ _ _ h]; simp [uaOrd]

theorem readBack_uaJump {mk : USrc → Instr} {a : USrc} (e : encode (mk a) = [UniF.word ⟨op, 0, 0, a.code, 0, 0⟩])
    (hd : ∀ h n d a b f, uniF h = ⟨op, n, d, a, b, f⟩ → decodeUni h = uaJump mk ⟨op, n, d, a, b, f⟩) : ReadBack (mk a) :=
  readBack_ua (by constructor <;> simp [ho]) e fun h => by rw [hd _ _ _ _ _ _ h]; simp [uaJump]

/-- A head whose low eleven bits are one field (UI of R55). -/
theorem readBack_ui {i : Instr} {n d a k : ℕ} (hn : n < 2) (hdst : d < 64) (ha : a < 64) (hk : k < 2048) (e : encode i = encUi op n d a k)
    (hd : ∀ h b f, uniF h = ⟨op, n, d, a, b, f⟩ → UniF.imm11 ⟨op, n, d, a, b, f⟩ = k → decodeUni h = .ok i) : ReadBack i :=
  readBack_ua (r := ⟨op, n, d, a, k / 32, k % 32⟩) ⟨ho, hn, hdst, ha, by simp; omega, by simp; omega⟩ e fun h =>
    hd _ _ _ h (by simp only [UniF.imm11]; omega)

theorem readBack_ui3 {mk : SDst → USrc → BitVec 11 → Instr} {d : SDst} {a : USrc} {k : BitVec 11}
    (e : encode (mk d a k) = encUi3 op d a k)
    (hd : ∀ h n d a b f, uniF h = ⟨op, n, d, a, b, f⟩ → decodeUni h = ui3 mk ⟨op, n, d, a, b, f⟩) : ReadBack (mk d a k) :=
  readBack_ui ho (by simp) (by simp) (by simp) (by simp) e fun h b f hu hk => by rw [hd _ _ _ _ _ _ hu]; simp [ui3, hk]

theorem readBack_ul {mk : SReg → BitVec 18 → Instr} {d : SReg} {k : BitVec 18} (e : encode (mk d k) = [ulWord op d.val k.toNat])
    (hd : ∀ h n d a b f, uniF h = ⟨op, n, d, a, b, f⟩ → decodeUni h = ul mk h) : ReadBack (mk d k) := by
  refine readBack_uni (by unfold ulWord; omega) ho e fun n d' a b f h => ?_
  have h1 : ulWord op d.val k.toNat / 262144 % 64 = d.val := by unfold ulWord; omega
  have h2 : ulWord op d.val k.toNat % 262144 = k.toNat := by unfold ulWord; omega
  rw [hd _ _ _ _ _ _ h]
  simp [ul, h1, h2]

theorem readBack_ulF {mk : SReg → BitVec 16 → Instr} {d : SReg} {x : BitVec 16} (e : encode (mk d x) = [ulWord op d.val x.toNat])
    (hd : ∀ h n d a b f, uniF h = ⟨op, n, d, a, b, f⟩ → decodeUni h = ulF mk h) : ReadBack (mk d x) := by
  refine readBack_uni (by unfold ulWord; omega) ho e fun n d' a b f h => ?_
  have h1 : ulWord op d.val x.toNat / 262144 % 64 = d.val := by unfold ulWord; omega
  have h2 : ulWord op d.val x.toNat % 262144 = x.toNat := by unfold ulWord; omega
  have h3 : ulWord op d.val x.toNat % 65536 = x.toNat := by unfold ulWord; omega
  rw [hd _ _ _ _ _ _ h]
  simp [ulF, h1, h2, h3]

theorem readBack_ulCode {mk : BitVec 18 → Instr} {k : BitVec 18} (e : encode (mk k) = [ulWord op 0 k.toNat])
    (hd : ∀ h n d a b f, uniF h = ⟨op, n, d, a, b, f⟩ → decodeUni h = ulCode mk h) : ReadBack (mk k) := by
  refine readBack_uni (by unfold ulWord; omega) ho e fun n d' a b f h => ?_
  have h1 : ulWord op 0 k.toNat / 262144 % 64 = 0 := by unfold ulWord; omega
  have h2 : ulWord op 0 k.toNat % 262144 = k.toNat := by unfold ulWord; omega
  rw [hd _ _ _ _ _ _ h]
  simp [ulCode, h1, h2]

theorem readBack_ujZero {i : Instr} (e : encode i = [ujWord op 0])
    (hd : ∀ h n d a b f, uniF h = ⟨op, n, d, a, b, f⟩ → decodeUni h = ujZero i h) : ReadBack i := by
  refine readBack_uni (by unfold ujWord; omega) ho e fun n d' a b f h => ?_
  have h1 : ujWord op 0 % 16777216 = 0 := by unfold ujWord; omega
  rw [hd _ _ _ _ _ _ h]
  simp [ujZero, h1]

theorem readBack_ubMask {mk : MReg → BitVec 9 → Instr} {m : MReg} {k : BitVec 9} (e : encode (mk m k) = [ubWord op 0 m.val 0 k.toNat])
    (hd : ∀ h n d a b f, uniF h = ⟨op, n, d, a, b, f⟩ → decodeUni h = ubMask mk h) : ReadBack (mk m k) := by
  refine readBack_uni (by unfold ubWord; omega) ho e fun n d' a b f h => ?_
  have h1 : ubWord op 0 m.val 0 k.toNat / 2097152 % 8 = 0 := by unfold ubWord; omega
  have h2 : ubWord op 0 m.val 0 k.toNat / 512 % 64 = 0 := by unfold ubWord; omega
  have h3 : ubWord op 0 m.val 0 k.toNat / 32768 % 64 = m.val := by unfold ubWord; omega
  have h4 : ubWord op 0 m.val 0 k.toNat % 512 = k.toNat := by unfold ubWord; omega
  rw [hd _ _ _ _ _ _ h]
  simp [ubMask, h1, h2, h3, h4]

end

/-! ## The other uniform instructions -/

/-- Mask logic shares one opcode (R71). -/
theorem readBack_maskLogic {i : Instr} {f : ℕ} {d : MDst} {a b : ℕ} (hf : f < 32) (ha : a < 64) (hb : b < 64)
    (e : encode i = encMl f d a b) (hd : decodeMaskLogic ⟨0x35, 0, d.val, a, b, f⟩ = .ok i) : ReadBack i :=
  readBack_ua (r := ⟨0x35, 0, d.val, a, b, f⟩) (by constructor <;> simp [ha, hb, hf]) e fun h => by
    unfold decodeUni; rw [h]; exact hd

theorem readBack_scmp (c : SCond) (d : SDst) (a b : USrc) : ReadBack (.scmp c d a b) :=
  readBack_ua (r := ⟨0x12, d.nwb, d.code, a.code, b.code, c.code⟩) (by constructor <;> simp) rfl fun h => by
    unfold decodeUni; rw [h]; simp

theorem readBack_ssel (d : SDst) (a b : USrc) (c : SReg) : ReadBack (.ssel d a b c) :=
  readBack_ua (r := ⟨0x13, d.nwb, d.code, a.code, b.code, c.val⟩) (by constructor <;> simp) rfl fun h => by
    unfold decodeUni; rw [h]; simp

theorem readBack_emit (k : Fin 4) (d : SDst) (a b : USrc) : ReadBack (.emit k d a b) :=
  readBack_ua (r := ⟨0x29, d.nwb, d.code, a.code, b.code, k.val⟩) (by constructor <;> simp) rfl fun h => by
    unfold decodeUni; rw [h]; simp

theorem readBack_launch (d : SDst) (a : USrc) : ReadBack (.launch d a) :=
  readBack_ua (r := ⟨0x2A, d.nwb, d.code, a.code, 0, 0⟩) (by constructor <;> simp) rfl fun h => by
    unfold decodeUni; rw [h]; simp

theorem readBack_mcnt (d : SDst) (m : MReg) : ReadBack (.mcnt d m) :=
  readBack_ua (r := ⟨0x36, d.nwb, d.code, m.val, 0, 0⟩) (by constructor <;> simp) rfl fun h => by
    unfold decodeUni; rw [h]; simp

theorem readBack_mfirst (d : SDst) (m : MReg) : ReadBack (.mfirst d m) :=
  readBack_ua (r := ⟨0x37, d.nwb, d.code, m.val, 0, 0⟩) (by constructor <;> simp) rfl fun h => by
    unfold decodeUni; rw [h]; simp

theorem readBack_lkrel (o : Ord) (sc : Scope) (a : USrc) : ReadBack (.lkrel o sc a) :=
  readBack_ua (r := ⟨0x54, 0, 0, a.code, 0, encOs o sc⟩) (by constructor <;> simp) rfl fun h => by
    unfold decodeUni; rw [h]; simp

theorem readBack_prful (o : Ord) (sc : Scope) (a b : USrc) : ReadBack (.prful o sc a b) :=
  readBack_ua (r := ⟨0x56, 0, 0, a.code, b.code, encOs o sc⟩) (by constructor <;> simp) rfl fun h => by
    unfold decodeUni; rw [h]; simp

theorem readBack_prwait (o : Ord) (sc : Scope) (d : SDst) (a : USrc) : ReadBack (.prwait o sc d a) :=
  readBack_ua (r := ⟨0x57, d.nwb, d.code, a.code, 0, encOs o sc⟩) (by constructor <;> simp) rfl fun h => by
    unfold decodeUni; rw [h]; simp

theorem readBack_unhold (k : ObjKind) (a : USrc) : ReadBack (.unhold k a) :=
  readBack_ua (r := ⟨0x59, 0, 0, a.code, 0, k.code⟩) (by constructor <;> simp) rfl fun h => by
    unfold decodeUni; rw [h]; simp

theorem readBack_heir (a b : USrc) : ReadBack (.heir a b) :=
  readBack_ua (r := ⟨0x5A, 0, 0, a.code, b.code, 0⟩) (by constructor <;> simp) rfl fun h => by
    unfold decodeUni; rw [h]; simp

theorem readBack_mtask (d : SDst) (a : Fin 4) : ReadBack (.mtask d a) :=
  readBack_ua (r := ⟨0x60, d.nwb, d.code, 8 * a.val, 0, 0⟩) (by constructor <;> simp; omega) rfl fun h => by
    unfold decodeUni; rw [h]; simp

theorem readBack_cpy (ch : Fin 8) (d a b : USrc) : ReadBack (.cpy ch d a b) :=
  readBack_ua (r := ⟨0x61, 0, d.code, a.code, b.code, ch.val⟩) (by constructor <;> simp) rfl fun h => by
    unfold decodeUni; rw [h]; simp

theorem readBack_cpy2 (ch : Fin 8) (d a b : USrc) : ReadBack (.cpy2 ch d a b) :=
  readBack_ua (r := ⟨0x62, 0, d.code, a.code, b.code, ch.val⟩) (by constructor <;> simp) rfl fun h => by
    unfold decodeUni; rw [h]; simp

theorem readBack_kick (a b : USrc) : ReadBack (.kick a b) :=
  readBack_ua (r := ⟨0x63, 0, 0, a.code, b.code, 0⟩) (by constructor <;> simp) rfl fun h => by
    unfold decodeUni; rw [h]; simp

theorem readBack_kpop (d : SDst) : ReadBack (.kpop d) :=
  readBack_ua (r := ⟨0x64, d.nwb, d.code, 0, 0, 0⟩) (by constructor <;> simp) rfl fun h => by
    unfold decodeUni; rw [h]; simp

theorem readBack_kack (a : USrc) : ReadBack (.kack a) :=
  readBack_ua (r := ⟨0x65, 0, 0, a.code, 0, 0⟩) (by constructor <;> simp) rfl fun h => by
    unfold decodeUni; rw [h]; simp

theorem readBack_sar (op : SarOp) (a b : USrc) : ReadBack (.sar op a b) :=
  readBack_ua (r := ⟨0x66, 0, 0, a.code, b.code, op.code⟩) (by constructor <;> simp) rfl fun h => by
    unfold decodeUni; rw [h]; simp

theorem readBack_sag (a b : USrc) : ReadBack (.sag a b) :=
  readBack_ua (r := ⟨0x67, 0, 0, a.code, b.code, 0⟩) (by constructor <;> simp) rfl fun h => by
    unfold decodeUni; rw [h]; simp

theorem readBack_sstat (d : SDst) (a : USrc) : ReadBack (.sstat d a) :=
  readBack_ua (r := ⟨0x68, d.nwb, d.code, a.code, 0, 0⟩) (by constructor <;> simp) rfl fun h => by
    unfold decodeUni; rw [h]; simp

theorem readBack_escset (d a b : USrc) : ReadBack (.escset d a b) :=
  readBack_ua (r := ⟨0x70, 0, d.code, a.code, b.code, 0⟩) (by constructor <;> simp) rfl fun h => by
    unfold decodeUni; rw [h]; simp

/-- A uniform load has one opcode for each width. -/
theorem readBack_ldu (o : Ord) (sc : Scope) (w : IW) (d : SDst) (a b : USrc) : ReadBack (.ldu o sc w d a b) := by
  cases w <;> exact readBack_ua (r := ⟨_, d.nwb, d.code, a.code, b.code, encOs o sc⟩) (by constructor <;> simp [IW.code]) rfl fun h => by
    unfold decodeUni; rw [h]; simp [IW.code, ldw]

theorem readBack_stu (o : Ord) (sc : Scope) (w : IW) (d a b : USrc) : ReadBack (.stu o sc w d a b) := by
  cases w <;> exact readBack_ua (r := ⟨_, 0, d.code, a.code, b.code, encOs o sc⟩) (by constructor <;> simp [IW.code]) rfl fun h => by
    unfold decodeUni; rw [h]; simp [IW.code, stw]

/-! With an immediate in the low eleven bits. -/

theorem readBack_widf (d : SDst) (f : Fin 6) : ReadBack (.widf d f) := by
  refine readBack_ui (by decide) (by simp) (by simp) (by simp) (by omega) rfl fun h b f hu hk => ?_
  unfold decodeUni; rw [hu]; simp [hk]

theorem readBack_mlw (d : SDst) (m : MReg) (k : Fin 32) : ReadBack (.mlw d m k) := by
  refine readBack_ui (by decide) (by simp) (by simp) (by simp) (by simp) rfl fun h b f hu hk => ?_
  unfold decodeUni; rw [hu]; simp [hk]

theorem readBack_wait (c : WaitClass) (n : BitVec 8) : ReadBack (.wait c n) := by
  have hc := Laws.waitClass_code_lt c
  have h1 : (c.code * 256 + n.toNat) / 256 = c.code := by omega
  have h2 : (c.code * 256 + n.toNat) % 256 = n.toNat := by omega
  refine readBack_ui (by decide) (by simp) (by simp) (by simp) (by omega) rfl fun h b f hu hk => ?_
  unfold decodeUni; rw [hu]; simp [hk, h1, h2]

theorem readBack_waitq (a : USrc) (q : Fin 4) : ReadBack (.waitq a q) := by
  refine readBack_ui (by decide) (by simp) (by simp) (by simp) (by simp) rfl fun h b f hu hk => ?_
  unfold decodeUni; rw [hu]; simp [hk]

theorem readBack_atomu (o : Ord) (sc : Scope) (op : AtomuKind) (d : SDst) (a : USrc) : ReadBack (.atomu o sc op d a) := by
  have ho := Laws.ord_code_lt o
  have hs := Laws.scope_code_lt sc
  have hc := Laws.atomu_code_lt op
  have hw := Laws.atomu_width_le op
  have h1 : (o.code * 512 + sc.code * 64 + op.width * 32 + op.code) / 512 = o.code := by omega
  have h2 : (o.code * 512 + sc.code * 64 + op.width * 32 + op.code) / 64 % 8 = sc.code := by omega
  have h3 : (o.code * 512 + sc.code * 64 + op.width * 32 + op.code) % 32 = op.code := by omega
  have h4 : (o.code * 512 + sc.code * 64 + op.width * 32 + op.code) / 32 % 2 = op.width := by omega
  refine readBack_ui (by decide) (by simp) (by simp) (by simp) (by omega) rfl fun h b f hu hk => ?_
  unfold decodeUni; rw [hu]; simp [hk, h1, h2, h3, h4]

theorem readBack_fence (o : FenceOrd) (sc : Scope) : ReadBack (.fence o sc) := by
  have ho := Laws.fenceOrd_code_lt o
  have hs := Laws.scope_code_lt sc
  have h1 : (o.code * 8 + sc.code) / 8 = o.code := by omega
  have h2 : (o.code * 8 + sc.code) % 8 = sc.code := by omega
  refine readBack_ua (r := ⟨0x4D, 0, 0, 0, 0, o.code * 8 + sc.code⟩) (by constructor <;> simp; omega) ?_ fun h => ?_
  · have hq : (o.code * 8 + sc.code) / 32 = 0 := by omega
    have hm : (o.code * 8 + sc.code) % 32 = o.code * 8 + sc.code := by omega
    show encUi _ _ _ _ _ = _
    rw [encUi, hq, hm]
  · unfold decodeUni; rw [h]; simp [h1, h2]

theorem readBack_qfence (qs : BitVec 4) : ReadBack (.qfence qs) := by
  refine readBack_ui (by decide) (by simp) (by simp) (by simp) (by simp) rfl fun h b f hu hk => ?_
  unfold decodeUni; rw [hu]; simp [hk]

theorem readBack_srd (d : SDst) (n : Special) (hwf : (Instr.srd d n).wellFormed = true) : ReadBack (.srd d n) := by
  have hn : n ≠ .lane ∧ n ≠ .wid := by simpa [Instr.wellFormed] using hwf
  refine readBack_ui (by decide) (by simp) (by simp) (by simp) (by simp) rfl fun h b f hu hk => ?_
  unfold decodeUni; rw [hu]; simp [hk, hn]

theorem readBack_swr (n : Special) (a : USrc) : ReadBack (.swr n a) := by
  refine readBack_ui (by decide) (by simp) (by simp) (by simp) (by simp) rfl fun h b f hu hk => ?_
  unfold decodeUni; rw [hu]; simp [hk]

/-! With an offset. -/

theorem readBack_br (off : BitVec 24) : ReadBack (.br off) := by
  refine readBack_uni (op := 0x20) (by unfold ujWord; omega) (by decide) rfl fun n d a b f hu => ?_
  have h1 : ujWord 0x20 off.toNat % 16777216 = off.toNat := by unfold ujWord; omega
  unfold decodeUni; rw [hu]; simp [h1]

theorem readBack_bc (c : BcCond) (a b : USrc) (off : BitVec 9) : ReadBack (.bc c a b off) := by
  have hc := Laws.bc_code_lt c
  have ha := Laws.usrc_code_lt a
  have hb := Laws.usrc_code_lt b
  refine readBack_uni (op := 0x21) (by unfold ubWord; omega) (by decide) rfl fun n d a' b' f hu => ?_
  have h1 : ubWord 0x21 c.code a.code b.code off.toNat / 2097152 % 8 = c.code := by unfold ubWord; omega
  have h2 : ubWord 0x21 c.code a.code b.code off.toNat / 32768 % 64 = a.code := by unfold ubWord; omega
  have h3 : ubWord 0x21 c.code a.code b.code off.toNat / 512 % 64 = b.code := by unfold ubWord; omega
  have h4 : ubWord 0x21 c.code a.code b.code off.toNat % 512 = off.toNat := by unfold ubWord; omega
  unfold decodeUni; rw [hu]; simp [h1, h2, h3, h4]

theorem readBack_loop (a : SReg) (off : BitVec 9) : ReadBack (.loop a off) := by
  refine readBack_uni (op := 0x25) (by unfold ubWord; omega) (by decide) rfl fun n d a' b' f hu => ?_
  have h1 : ubWord 0x25 0 a.val 0 off.toNat / 2097152 % 8 = 0 := by unfold ubWord; omega
  have h2 : ubWord 0x25 0 a.val 0 off.toNat / 512 % 64 = 0 := by unfold ubWord; omega
  have h3 : ubWord 0x25 0 a.val 0 off.toNat / 32768 % 64 = a.val := by unfold ubWord; omega
  have h4 : ubWord 0x25 0 a.val 0 off.toNat % 512 = off.toNat := by unfold ubWord; omega
  unfold decodeUni; rw [hu]; simp [h1, h2, h3, h4]

theorem readBack_flip (off : BitVec 9) : ReadBack (.flip off) := by
  refine readBack_uni (op := 0x31) (by unfold ubWord; omega) (by decide) rfl fun n d a b f hu => ?_
  have h1 : ubWord 0x31 0 0 0 off.toNat / 512 % 32768 = 0 := by unfold ubWord; omega
  have h2 : ubWord 0x31 0 0 0 off.toNat % 512 = off.toNat := by unfold ubWord; omega
  unfold decodeUni; rw [hu]; simp [h1, h2]

/-- The lane form of `srd` names %lane or %wid in the low eleven bits. -/
theorem readBack_srdLane (d : VReg) (n : LaneSpecial) : ReadBack (.srdLane d n) := by
  cases n with
  | lane =>
    refine readBack_uni (op := 0x73) (h := ulWord 0x73 0 (d.val * 2048 + 0)) (by unfold ulWord; omega) (by decide) rfl
      fun n d' a b f hu => ?_
    have h1 : ulWord 0x73 0 (d.val * 2048 + 0) / 262144 % 64 = 0 := by unfold ulWord; omega
    have h2 : ulWord 0x73 0 (d.val * 2048 + 0) / 2048 % 128 = d.val := by unfold ulWord; omega
    have h3 : ulWord 0x73 0 (d.val * 2048 + 0) % 2048 = 0 := by unfold ulWord; omega
    unfold decodeUni; rw [hu]; simp only [h1, h2, h3]; simp
  | wid =>
    refine readBack_uni (op := 0x73) (h := ulWord 0x73 0 (d.val * 2048 + 3)) (by unfold ulWord; omega) (by decide) rfl
      fun n d' a b f hu => ?_
    have h1 : ulWord 0x73 0 (d.val * 2048 + 3) / 262144 % 64 = 0 := by unfold ulWord; omega
    have h2 : ulWord 0x73 0 (d.val * 2048 + 3) / 2048 % 128 = d.val := by unfold ulWord; omega
    have h3 : ulWord 0x73 0 (d.val * 2048 + 3) % 2048 = 3 := by unfold ulWord; omega
    unfold decodeUni; rw [hu]; simp only [h1, h2, h3]; simp

/-! Wide heads. -/

theorem bit_true : bit true = 1 := rfl
theorem bit_false : bit false = 0 := rfl
theorem usrc_code_lt_tail (a : USrc) : a.code < 128 := (Laws.usrc_code_lt a).trans (by decide)

theorem readBack_casu (o : Ord) (sc : Scope) (w : AW) (d : SDst) (a e n : USrc) : ReadBack (.casu o sc w d a e n) :=
  readBack_uniWide (r := ⟨0x49, d.nwb, d.code, a.code, e.code, encOs o sc⟩) (by constructor <;> simp) (usrc_code_lt_tail n)
    ((Nat.lt_succ_of_le (Laws.aw_bit_le w)).trans (by decide)) rfl fun h h1 h2 => by
    unfold decodeUniWide; rw [h]; simp [tailUsrc, h1, h2]

/-- Bit 2 of the tail's immediate says that no heir is named, whose field then holds zero (R167). -/
theorem readBack_lkacq (o : Ord) (sc : Scope) (d : SDst) (a : USrc) (heir : Option USrc) (t : USrc) (orph once : Bool)
    : ReadBack (.lkacq o sc d a heir t orph once) := by
  have hlt : bit orph + 2 * bit once + 4 * bit heir.isNone < 2 ^ 18 := (bits3_lt _ _ _).trans (by decide)
  cases heir with
  | none =>
    exact readBack_uniWide (r := ⟨0x53, d.nwb, d.code, a.code, 0, encOs o sc⟩) (by constructor <;> simp) (usrc_code_lt_tail t) hlt rfl
      fun h h1 h2 => by unfold decodeUniWide; rw [h]; simp only [tailUsrc, h1, h2, bits3_lt, bits3_0, bits3_1, bits3_2]; simp [bit_true]
  | some b =>
    exact readBack_uniWide (r := ⟨0x53, d.nwb, d.code, a.code, b.code, encOs o sc⟩) (by constructor <;> simp) (usrc_code_lt_tail t) hlt
      rfl fun h h1 h2 => by unfold decodeUniWide; rw [h]; simp only [tailUsrc, h1, h2, bits3_lt, bits3_0, bits3_1, bits3_2]; simp [bit_false]

theorem readBack_prnew (o : Ord) (sc : Scope) (d : SDst) (a heir v : USrc) : ReadBack (.prnew o sc d a heir v) :=
  readBack_uniWide (r := ⟨0x55, d.nwb, d.code, a.code, heir.code, encOs o sc⟩) (by constructor <;> simp) (usrc_code_lt_tail v)
    (by decide) rfl fun h h1 h2 => by unfold decodeUniWide; rw [h]; simp [tailUsrc, h1, h2]

theorem readBack_hold (k : HoldKind) (sc : Scope) (d : SDst) (a heir : USrc) : ReadBack (.hold k sc d a heir) := by
  have hs := Laws.scope_code_lt sc
  exact readBack_uniWide (r := ⟨0x58, d.nwb, d.code, a.code, heir.code, k.code⟩) (by constructor <;> simp)
    ((Laws.holdKind_ext_lt k).trans (by decide)) (hs.trans (by decide)) rfl fun h h1 h2 => by
    unfold decodeUniWide; rw [h]; simp [h1, h2, hs]

/-! ## O6 -/

/-- Settles O6: the decoder finds every field of a head and of a tail where the encoder put it, layout by layout; the device's own
steps have no words. -/
theorem decodeEncode : Obligations.DecodeEncode := by
  unfold Obligations.DecodeEncode
  intro i he hwf
  show ReadBack i
  cases i
  case add w d a b | sub w d a b | addSat w d a b | addSatu w d a b | subSat w d a b | subSatu w d a b | mul w d a b | mulh w d a b |
      mulhu w d a b | mad w d a b | min w d a b | minu w d a b | max w d a b | maxu w d a b | and w d a b | or w d a b |
      xor w d a b | shl w d a b | shr w d a b | sra w d a b | rot w d a b | bfe w d a b | bfi w d a b | pack w d a b |
      unpack w d a b | swz w d a b | shfl w d a b | lget w d a b | lput w d a b =>
    exact readBack_la3 (by decide) rfl fun _ _ _ _ _ => rfl
  case abs w d a | clz w d a | pop w d a => exact readBack_la2 (by decide) rfl fun _ _ _ _ _ => rfl
  case fadd w d a b | fsub w d a b | fmul w d a b | fma w d a b | fmin w d a b | fmax w d a b | faddFtz w d a b | fsubFtz w d a b |
      fmulFtz w d a b | fmaFtz w d a b => exact readBack_fa3 (by decide) rfl fun _ _ _ _ _ => rfl
  case fabs w d a | fneg w d a | frnd w d a | fclass w d a | fcvti w d a | fcvtiu w d a | icvtf w d a | icvtfu w d a | frcp w d a |
      frsq w d a | fsqrt w d a | fex2 w d a | flg2 w d a | fsin w d a | fcos w d a =>
    exact readBack_fa2 (by decide) rfl fun _ _ _ _ _ => rfl
  case addc m d a b | subb m d a b | sel m d a b | mmul q d a b | madd q d a b | msub q d a b | mred q d a b =>
    exact readBack_lcar (by decide) rfl fun _ _ _ _ _ => rfl
  case cmpEq w d a b | cmpNe w d a b | cmpLt w d a b | cmpLtu w d a b | cmpLe w d a b | cmpLeu w d a b =>
    exact readBack_lcmp (by decide) rfl fun _ _ _ _ _ => rfl
  case fcmpEq w d a b | fcmpNe w d a b | fcmpLt w d a b | fcmpLe w d a b | fcmpUn w d a b =>
    exact readBack_fcmp (by decide) rfl fun _ _ _ _ _ => rfl
  case addImm w d a i | andImm w d a i | orImm w d a i | xorImm w d a i | shlImm w d a i | shrImm w d a i | sraImm w d a i |
      rotImm w d a i => exact readBack_li3 (by decide) rfl fun _ _ _ _ _ => rfl
  case cmpEqImm w d a i | cmpLtImm w d a i => exact readBack_licmp (by decide) rfl fun _ _ _ _ _ => rfl
  case fcvt d a b | walki d a b | walk d a b => exact readBack_lbro (by decide) (by decide) rfl fun _ _ _ _ _ => rfl
  case bfly q d a b | ibfly q d a b => exact readBack_lbfly (by decide) (of_decide_eq_true hwf) rfl fun _ _ _ _ _ => rfl
  case red op d a => exact readBack_red op d a
  case scan op d a => exact readBack_scan op d a
  case scanEx op d a => exact readBack_scanEx op d a
  case segred op d a => exact readBack_segred op d a
  case sadd d a b | ssub d a b | smul d a b | smulh d a b | smulhu d a b | sdiv d a b | sdivu d a b | srem d a b | sremu d a b |
      sand d a b | sor d a b | sxor d a b | sshl d a b | sshr d a b | ssra d a b | smin d a b | sminu d a b | smax d a b |
      smaxu d a b | sbfe d a b | sbfi d a b =>
    exact readBack_ua3 (by decide) (by decide) rfl fun _ _ _ _ _ e => by unfold decodeUni; rw [e]; rfl
  case sclz d a | spop d a | smov d a =>
    exact readBack_ua2 (by decide) (by decide) rfl fun _ _ _ _ _ e => by unfold decodeUni; rw [e]; rfl
  case tlook d a b | tins d a b | tinv d a b =>
    exact readBack_ua3z (by decide) rfl fun _ _ _ _ _ e => by unfold decodeUni; rw [e]; rfl
  case saddImm d a i | smulImm d a i | sandImm d a i | sorImm d a i | sxorImm d a i | sshlImm d a i | sshrImm d a i | ssraImm d a i =>
    exact readBack_ui3 (by decide) rfl fun _ _ _ _ _ _ e => by unfold decodeUni; rw [e]; rfl
  case arrive o sc d a b | await o sc d a b | arwait o sc d a b | mwait o sc d a b =>
    exact readBack_uaOrd (by decide) rfl fun _ _ _ _ _ _ e => by unfold decodeUni; rw [e]; rfl
  case jmp a | ret a => exact readBack_uaJump (by decide) rfl fun _ _ _ _ _ _ e => by unfold decodeUni; rw [e]; rfl
  case sliI d i | sliZ d i | slil d i | slim d i | slih d i | sadr d i | call d i =>
    exact readBack_ul (by decide) rfl fun _ _ _ _ _ _ e => by unfold decodeUni; rw [e]; rfl
  case sliF64 d x | sliF32 d x | sliF16 d x => exact readBack_ulF (by decide) rfl fun _ _ _ _ _ _ e => by unfold decodeUni; rw [e]; rfl
  case trap c | brk c | sys c => exact readBack_ulCode (by decide) rfl fun _ _ _ _ _ _ e => by unfold decodeUni; rw [e]; rfl
  case exit | yield | nop | cvg | rgn => exact readBack_ujZero (by decide) rfl fun _ _ _ _ _ _ e => by unfold decodeUni; rw [e]; rfl
  case dvg m off | bany m off | bnone m off => exact readBack_ubMask (by decide) rfl fun _ _ _ _ _ _ e => by unfold decodeUni; rw [e]; rfl
  case mand d a b | mor d a b | mandn d a b | mxor d a b | mnot d a | mmov d a =>
    exact readBack_maskLogic (by decide) (by simp) (by simp) rfl (by simp [decodeMaskLogic])
  case mov d a => exact readBack_mov d a
  case li w d k => exact readBack_li w d k
  case shfli d a p k => exact readBack_shfli d a p k
  case vote v d a => exact readBack_vote v d a
  case ld e o sc w x d a => exact readBack_ld e o sc w x d a
  case st e o sc w x d a => exact readBack_st e o sc w x d a
  case lds o sc w x d a => exact readBack_lds o sc w x d a
  case sts o sc w x d a => exact readBack_sts o sc w x d a
  case atom e o sc w x d a => exact readBack_atom e o sc w x d a
  case redm o sc k d a => exact readBack_redm o sc k d a
  case fma3 w d a b c ftz np na => exact readBack_fma3 w d a b c ftz np na
  case ldx e o sc w k d a base off => exact readBack_ldx e o sc w k d a base off
  case stx e o sc w k d a base off => exact readBack_stx e o sc w k d a base off
  case stf e o sc w d a f inc => exact readBack_stf e o sc w d a f inc hwf
  case atomOffset e o sc k d a c off => exact readBack_atomOffset e o sc k d a c off
  case cas e o sc w d a x n => exact readBack_cas e o sc w d a x n
  case scmp c d a b => exact readBack_scmp c d a b
  case ssel d a b c => exact readBack_ssel d a b c
  case emit k d a b => exact readBack_emit k d a b
  case launch d a => exact readBack_launch d a
  case mcnt d m => exact readBack_mcnt d m
  case mfirst d m => exact readBack_mfirst d m
  case lkrel o sc a => exact readBack_lkrel o sc a
  case prful o sc a b => exact readBack_prful o sc a b
  case prwait o sc d a => exact readBack_prwait o sc d a
  case unhold k a => exact readBack_unhold k a
  case heir a b => exact readBack_heir a b
  case mtask d a => exact readBack_mtask d a
  case cpy ch d a b => exact readBack_cpy ch d a b
  case cpy2 ch d a b => exact readBack_cpy2 ch d a b
  case kick a b => exact readBack_kick a b
  case kpop d => exact readBack_kpop d
  case kack a => exact readBack_kack a
  case sar op a b => exact readBack_sar op a b
  case sag a b => exact readBack_sag a b
  case sstat d a => exact readBack_sstat d a
  case escset d a b => exact readBack_escset d a b
  case ldu o sc w d a b => exact readBack_ldu o sc w d a b
  case stu o sc w d a b => exact readBack_stu o sc w d a b
  case widf d f => exact readBack_widf d f
  case mlw d m k => exact readBack_mlw d m k
  case wait c n => exact readBack_wait c n
  case waitq a q => exact readBack_waitq a q
  case atomu o sc op d a => exact readBack_atomu o sc op d a
  case fence o sc => exact readBack_fence o sc
  case qfence qs => exact readBack_qfence qs
  case srd d n => exact readBack_srd d n hwf
  case swr n a => exact readBack_swr n a
  case br off => exact readBack_br off
  case bc c a b off => exact readBack_bc c a b off
  case loop a off => exact readBack_loop a off
  case flip off => exact readBack_flip off
  case srdLane d n => exact readBack_srdLane d n
  case casu o sc w d a e n => exact readBack_casu o sc w d a e n
  case lkacq o sc d a heir t orph once => exact readBack_lkacq o sc d a heir t orph once
  case prnew o sc d a heir v => exact readBack_prnew o sc d a heir v
  case hold k sc d a heir => exact readBack_hold k sc d a heir
  all_goals exact absurd he Bool.false_ne_true

end Sys2Proof
end

section
/-! PROOFS. The scalar results of the model as bit vectors: products, quotients, bounds, conditions and bit fields (R94 to R96). -/
namespace Sys2Proof
open Sys2Proof.Machine

/-! ## Scalar results as bit vectors -/

theorem word_wrap (z : Int) : word (wrap 64 z) = BitVec.ofInt 64 z := by
  apply BitVec.eq_of_toNat_eq
  rw [word_toNat, wrap_mod, BitVec.toNat_ofInt]
  norm_num

theorem mulHigh_signed (a b : Word) : mulHigh true a b = BitVec.ofInt 64 (a.toInt * b.toInt / 2 ^ 64) := by
  apply BitVec.eq_of_toNat_eq
  rw [mulHigh, if_pos rfl, word_toNat, wrap_eq, BitVec.toNat_ofInt]
  generalize a.toInt * b.toInt = z
  norm_num
  omega

theorem sdivW_eq (a b : Word) : sdivW a b = if b = 0 then BitVec.allOnes 64 else a.sdiv b := by
  have h : word (wrap 64 (Int.tdiv a.toInt b.toInt)) = a.sdiv b := by
    rw [word_wrap]
    exact BitVec.eq_of_toInt_eq (by rw [BitVec.toInt_ofInt, BitVec.toInt_sdiv])
  rw [sdivW, h]

theorem sremW_eq (a b : Word) : sremW a b = if b = 0 then a else a.srem b := by
  have h : word (wrap 64 (Int.tmod a.toInt b.toInt)) = a.srem b := by
    rw [word_wrap, ← BitVec.toInt_srem, BitVec.ofInt_toInt]
  rw [sremW, h]

theorem minSigned_eq (x y : Word) : (if x.slt y then x else y) = if x.toInt ≤ y.toInt then x else y := by
  by_cases h : x = y
  · simp [h]
  · have := mt (BitVec.eq_of_toInt_eq (x := x) (y := y)) h
    exact if_congr (by rw [BitVec.slt_iff_toInt_lt]; omega) rfl rfl

theorem maxSigned_eq (x y : Word) : (if x.slt y then y else x) = if x.toInt ≤ y.toInt then y else x := by
  by_cases h : x = y
  · simp [h]
  · have := mt (BitVec.eq_of_toInt_eq (x := x) (y := y)) h
    exact if_congr (by rw [BitVec.slt_iff_toInt_lt]; omega) rfl rfl

theorem minUnsigned_eq (x y : Word) : (if x.ult y then x else y) = if x.toNat ≤ y.toNat then x else y := by
  by_cases h : x = y
  · simp [h]
  · have := mt (BitVec.eq_of_toNat_eq (x := x) (y := y)) h
    exact if_congr (by rw [BitVec.ult_iff_toNat_lt]; omega) rfl rfl

theorem maxUnsigned_eq (x y : Word) : (if x.ult y then y else x) = if x.toNat ≤ y.toNat then y else x := by
  by_cases h : x = y
  · simp [h]
  · have := mt (BitVec.eq_of_toNat_eq (x := x) (y := y)) h
    exact if_congr (by rw [BitVec.ult_iff_toNat_lt]; omega) rfl rfl

theorem shAmt_imm (imm : BitVec 11) : shAmt (imm11z imm) = imm.toNat % 64 := by
  have := imm.isLt
  rw [shAmt, imm11z, BitVec.toNat_setWidth]
  omega

theorem scondHolds_iff (q : SCond) (a b : Word) : scondHolds q a b = true ↔ match q with
    | .eq => a = b | .ne => a ≠ b | .lt => a.toInt < b.toInt | .ltu => a.toNat < b.toNat
    | .le => a.toInt ≤ b.toInt | .leu => a.toNat ≤ b.toNat := by
  cases q <;>
    simp [scondHolds, BitVec.slt_iff_toInt_lt, BitVec.sle_iff_toInt_le, BitVec.ult_iff_toNat_lt, BitVec.ule_iff_toNat_le]

/-! ## Bit fields -/

theorem word_getLsbD (n k : Nat) : (word n).getLsbD k = (decide (k < 64) && n.testBit k) := BitVec.getLsbD_ofNat 64 n k

/-- The field of `len` bits at `pos`, by its bits. -/
theorem field_testBit (a pos len k : Nat) :
    (a / 2 ^ pos % 2 ^ len).testBit k = (decide (k < len) && a.testBit (pos + k)) := by
  rw [Nat.testBit_mod_two_pow, Nat.testBit_div_two_pow, Nat.add_comm]

/-- A number below 2^len with every bit from `len` to 63 set above it. -/
theorem onesAbove_testBit {f len k : Nat} (hf : f < 2 ^ len) (hl : len ≤ 64) (hk : k < 64) :
    (f + (2 ^ 64 - 2 ^ len)).testBit k = if k < len then f.testBit k else true := by
  have e : f + (2 ^ 64 - 2 ^ len) = 2 ^ len * (2 ^ (64 - len) - 1) + f := by
    rw [Nat.mul_sub, ← pow_add, Nat.add_sub_cancel' hl]
    omega
  rw [e, Nat.testBit_two_pow_mul_add _ hf]
  split
  · rfl
  · rw [Nat.testBit_two_pow_sub_one]
    exact decide_eq_true (by omega)

theorem bfeAt_getLsbD (a d : Word) (k : Nat) (hk : k < 64) :
    let len := min (bits d 0 7) 64
    let pos := bits d 8 6
    (word (bfeAt 64 a.toNat d.toNat)).getLsbD k =
      if k < len then a.getLsbD (pos + k) else d.getLsbD 15 && decide (0 < len) && a.getLsbD (pos + len - 1) := by
  intro len pos
  have hlen : min (d.toNat % 128) 64 = len := by simp [len, bits]
  have hpos : d.toNat / 256 % 64 = pos := by simp [pos, bits]
  have hp : pos < 64 := bits_lt d 8 6
  have hl : len ≤ 64 := Nat.min_le_right _ _
  have hs : (d.toNat / 32768 % 2 = 1) ↔ d.getLsbD 15 = true := by
    rw [← BitVec.testBit_toNat, Nat.testBit_eq_decide_div_mod_eq, decide_eq_true_eq]
  have htop : 0 < len → ((a.toNat / 2 ^ pos % 2 ^ len / 2 ^ (len - 1) % 2 = 1) ↔ a.getLsbD (pos + len - 1) = true) := by
    intro h
    have := field_testBit a.toNat pos len (len - 1)
    rw [Nat.testBit_eq_decide_div_mod_eq, decide_eq_true (by omega : len - 1 < len), Bool.true_and,
      show pos + (len - 1) = pos + len - 1 by omega] at this
    rw [← BitVec.testBit_toNat, ← this, decide_eq_true_eq]
  unfold bfeAt
  dsimp only
  rw [hlen, hpos, Nat.mod_eq_of_lt a.isLt, word_getLsbD, decide_eq_true hk, Bool.true_and]
  by_cases h0 : len = 0
  · simp [h0]
  · rw [if_neg (by omega), decide_eq_true (by omega : 0 < len), Bool.and_true]
    have hf := field_testBit a.toNat pos len k
    split
    · rename_i h
      rw [onesAbove_testBit (Nat.mod_lt _ (Nat.two_pow_pos _)) hl hk, hf, hs.1 h.1, (htop (by omega)).1 h.2]
      by_cases hkl : k < len <;> simp [hkl, BitVec.testBit_toNat]
    · rename_i h
      rw [hf]
      by_cases hkl : k < len
      · simp [hkl, BitVec.testBit_toNat]
      · rw [decide_eq_false hkl, if_neg hkl, Bool.false_and]
        exact (Bool.eq_false_iff.2 fun e => h ((and_congr hs (htop (by omega))).2 (Bool.and_eq_true_iff.1 e))).symm

/-- A number whose bits from `pos` to `top` are replaced by the low ones of `a`, by its bits. -/
theorem insert_testBit (d a pos top k : Nat) (h : pos ≤ top) :
    (d / 2 ^ top * 2 ^ top + a % 2 ^ (top - pos) * 2 ^ pos + d % 2 ^ pos).testBit k =
      if pos ≤ k ∧ k < top then a.testBit (k - pos) else d.testBit k := by
  have hlow : d % 2 ^ pos < 2 ^ pos := Nat.mod_lt _ (Nat.two_pow_pos _)
  have hmid : a % 2 ^ (top - pos) * 2 ^ pos + d % 2 ^ pos < 2 ^ top := by
    have hm : a % 2 ^ (top - pos) < 2 ^ (top - pos) := Nat.mod_lt _ (Nat.two_pow_pos _)
    have ht : 2 ^ top = 2 ^ (top - pos) * 2 ^ pos := by rw [← pow_add, Nat.sub_add_cancel h]
    rw [ht]
    calc a % 2 ^ (top - pos) * 2 ^ pos + d % 2 ^ pos < (a % 2 ^ (top - pos) + 1) * 2 ^ pos := by rw [Nat.succ_mul]; omega
      _ ≤ _ := Nat.mul_le_mul_right _ hm
  rw [Nat.add_assoc, Nat.mul_comm (d / 2 ^ top), Nat.testBit_two_pow_mul_add _ hmid]
  by_cases h1 : k < top
  · rw [if_pos h1, Nat.mul_comm, Nat.testBit_two_pow_mul_add _ hlow]
    by_cases h2 : k < pos
    · rw [if_pos h2, if_neg (by omega), Nat.testBit_mod_two_pow, decide_eq_true h2, Bool.true_and]
    · rw [if_neg h2, if_pos ⟨by omega, h1⟩, Nat.testBit_mod_two_pow, decide_eq_true (by omega), Bool.true_and]
  · rw [if_neg h1, if_neg (by omega), Nat.testBit_div_two_pow]
    congr 1; omega

theorem bfiAt_getLsbD (old a d : Word) (k : Nat) (hk : k < 64) :
    let len := min (bits d 0 7) 64
    let pos := bits d 8 6
    (word (bfiAt 64 old.toNat a.toNat d.toNat)).getLsbD k =
      if pos ≤ k ∧ k < pos + len then a.getLsbD (k - pos) else old.getLsbD k := by
  intro len pos
  have hlen : min (d.toNat % 128) 64 = len := by simp [len, bits]
  have hpos : d.toNat / 256 % 64 = pos := by simp [pos, bits]
  have hp : pos < 64 := bits_lt d 8 6
  unfold bfiAt
  dsimp only
  rw [hlen, hpos, Nat.mod_eq_of_lt old.isLt, word_getLsbD, decide_eq_true hk, Bool.true_and, if_neg (by omega),
    insert_testBit _ _ _ _ _ (by omega)]
  exact if_congr (by omega) rfl rfl

theorem setBits_getLsbD (x : Word) (lo len v k : Nat) (hk : k < 64) :
    (setBits x lo len v).getLsbD k = if lo ≤ k ∧ k < lo + len then v.testBit (k - lo) else x.getLsbD k := by
  have e : x.toNat - bits x lo len * 2 ^ lo + Machine.field v lo len =
      x.toNat / 2 ^ (lo + len) * 2 ^ (lo + len) + v % 2 ^ (lo + len - lo) * 2 ^ lo + x.toNat % 2 ^ lo := by
    have h1 := Nat.div_add_mod x.toNat (2 ^ lo)
    have h2 := Nat.div_add_mod (x.toNat / 2 ^ lo) (2 ^ len)
    rw [Nat.div_div_eq_div_mul, ← pow_add] at h2
    have h3 : x.toNat = x.toNat / 2 ^ (lo + len) * 2 ^ (lo + len) + bits x lo len * 2 ^ lo + x.toNat % 2 ^ lo := by
      rw [bits]
      nth_rw 1 [← h1, ← h2]
      rw [pow_add]; ring
    rw [Nat.add_sub_cancel_left, Machine.field]
    omega
  rw [setBits, e, word_getLsbD, decide_eq_true hk, Bool.true_and, insert_testBit _ _ _ _ _ (by omega)]
  rfl

end Sys2Proof
end

section
/-! PROOFS. The BF16 immediates of `sli.f*` in their target formats (R67), with the encoder's result by the code that it forms. -/
namespace Sys2Proof
open Sys2Proof.Machine

/-! ## BF16 immediates -/

/-- A BF16 word by its sign, exponent and fraction. -/
theorem bf16_fields (x : BitVec 16) : ∃ neg e fr, e < 256 ∧ fr < 128 ∧ x.toNat = signCode .bf16 neg + (e * 2 ^ 7 + fr) ∧
    x.toNat / 32768 = b2n neg ∧ x.toNat / 128 % 256 = e ∧ x.toNat % 128 = fr := by
  have hx := x.isLt
  refine ⟨decide (x.toNat / 32768 = 1), x.toNat / 128 % 256, x.toNat % 128, by omega, by omega, ?_, ?_, rfl, rfl⟩ <;>
    by_cases h : x.toNat / 32768 = 1 <;> simp [signCode, b2n, Fmt.bits, h] <;> omega

/-- What the fields of a BF16 word stand for. -/
theorem decodeFmt_bf16 {neg : Bool} {e fr : ℕ} (he : e < 256) (hfr : fr < 128) :
    decodeFmt .bf16 (signCode .bf16 neg + (e * 2 ^ 7 + fr)) =
      if e = 255 then if fr = 0 then .inf neg else .nan (!fr.testBit 6)
      else if e = 0 then .fin neg fr (-133) else .fin neg (128 + fr) ((e : ℤ) - 134) := by
  rw [show e * 2 ^ 7 + fr = e * 2 ^ Fmt.bf16.fracBits + fr from rfl, decodeFmt_fields (by simp [isBinary]) he hfr]
  simp [Fmt.expBits, Fmt.fracBits, Fmt.bias]
  split <;> [skip; split] <;> simp
  omega

theorem log2_significand {fr : ℕ} (h : fr < 128) : Nat.log2 (128 + fr) = 7 := by
  rw [Nat.log2_eq_iff (by omega)]; omega

/-- A finite value encoded to nearest, by the code that it forms. -/
theorem encodeFmt_rne {f : Fmt} (hf : HasInf f) (neg : Bool) {m : ℕ} (hm : m ≠ 0) {e q : ℤ} {code : ℕ}
    (hq : max (log2Floor m e - f.fracBits) (1 - f.bias - f.fracBits) = q)
    (hcode : (q - (1 - f.bias - f.fracBits)).toNat * 2 ^ f.fracBits + (roundAt .rne neg m e q).1 = code) :
    (encodeFmt f .rne false false (.fin neg m e)).1 =
      signCode f neg + if f.maxCode < code then f.infCode else code := by
  have hb : encodeFmt f .rne false false (.fin neg m e) = encodeBin f .rne false false neg m e := by
    rcases hf with rfl | rfl | rfl | rfl | rfl <;> rfl
  have ho : overflowCode f .rne false neg = signCode f neg + f.infCode := by
    rcases hf with rfl | rfl | rfl | rfl | rfl <;> rfl
  rw [hb, encodeBin, if_neg hm]
  dsimp only
  rw [hq, hcode, ho]
  split <;> simp

/-- The same where the value is a whole number of units of its code, and the code stays in the finite range. -/
theorem encodeFmt_rne_exact {f : Fmt} (hf : HasInf f) (neg : Bool) {m : ℕ} (hm : m ≠ 0) {e q : ℤ} {shift up code : ℕ}
    (hq : max (log2Floor m e - f.fracBits) (1 - f.bias - f.fracBits) = q)
    (hshift : (shift : ℤ) = q - (1 - f.bias - f.fracBits)) (hup : (up : ℤ) = e - q)
    (hcode : shift * 2 ^ f.fracBits + m * 2 ^ up = code) (hle : code ≤ f.maxCode) :
    (encodeFmt f .rne false false (.fin neg m e)).1 = signCode f neg + code := by
  rw [encodeFmt_rne hf neg hm hq (code := code), if_neg (Nat.not_lt.2 hle)]
  rw [roundAt, if_pos (by omega), ← hshift, ← hup, Int.toNat_natCast, Int.toNat_natCast, hcode]

/-- The same where the code is past the finite range. -/
theorem encodeFmt_rne_overflow {f : Fmt} (hf : HasInf f) (neg : Bool) {m : ℕ} (hm : m ≠ 0) {e q : ℤ} {shift up code : ℕ}
    (hq : max (log2Floor m e - f.fracBits) (1 - f.bias - f.fracBits) = q)
    (hshift : (shift : ℤ) = q - (1 - f.bias - f.fracBits)) (hup : (up : ℤ) = e - q)
    (hcode : shift * 2 ^ f.fracBits + m * 2 ^ up = code) (hlt : f.maxCode < code) :
    (encodeFmt f .rne false false (.fin neg m e)).1 = signCode f neg + f.infCode := by
  rw [encodeFmt_rne hf neg hm hq (code := code), if_pos hlt]
  rw [roundAt, if_pos (by omega), ← hshift, ← hup, Int.toNat_natCast, Int.toNat_natCast, hcode]

theorem log2Floor_normal {fr : ℕ} (hfr : fr < 128) (e : ℤ) : log2Floor (128 + fr) e = 7 + e := by
  rw [log2Floor, log2_significand hfr]; rfl

theorem log2_fraction_le {fr : ℕ} (hfr : fr < 128) : Nat.log2 fr ≤ 6 := by
  by_cases h : fr = 0
  · subst h; decide
  · have := (Nat.log2_lt h).2 (show fr < 2 ^ 7 from hfr)
    omega

theorem encodeFmt_zero {f : Fmt} (hf : HasInf f) (neg : Bool) (e : ℤ) :
    (encodeFmt f .rne false false (.fin neg 0 e)).1 = signCode f neg := by
  rcases hf with rfl | rfl | rfl | rfl | rfl <;> rfl

theorem signCode_bf16_widened (neg : Bool) : signCode .bf16 neg * 65536 = signCode .f32 neg := by cases neg <;> rfl
theorem b2n_eq_signCode_f64 (neg : Bool) : b2n neg * 2 ^ 63 = signCode .f64 neg := by cases neg <;> rfl
theorem b2n_eq_signCode_f16 (neg : Bool) : b2n neg * 32768 = signCode .f16 neg := by cases neg <;> rfl

theorem bf16To_f32 (x : BitVec 16) : bf16To 32 x = (encodeFmt .f32 .rne false false (decodeFmt .bf16 x.toNat)).1 := by
  obtain ⟨neg, e, fr, he, hfr, hx, hneg, hex, hfx⟩ := bf16_fields x
  have hf : HasInf .f32 := by simp [HasInf]
  have hl := log2_fraction_le hfr
  rw [hx, decodeFmt_bf16 he hfr, bf16To, hneg, hex, hfx, hx, Nat.add_mul, signCode_bf16_widened]
  clear hx
  by_cases h255 : e = 255
  · by_cases h0 : fr = 0
    · simp [h255, h0, encodeFmt_inf hf, Fmt.infCode]
    · simp [h255, h0, encodeFmt_nan hf, Fmt.nanCode]
  · by_cases he0 : e = 0
    · by_cases h0 : fr = 0
      · simp [he0, h0, encodeFmt_zero hf]
      · have := encodeFmt_rne_exact hf neg h0 (e := -133) (q := -149) (shift := 0) (up := 16) (code := fr * 65536)
          (by simp [log2Floor, Fmt.fracBits, Fmt.bias]; omega) (by decide) (by decide) (by simp) (by simp [Fmt.maxCode]; omega)
        simp [he0, this]
    · have := encodeFmt_rne_exact hf neg (m := 128 + fr) (by omega) (e := e - 134) (q := e - 150) (shift := e - 1) (up := 16)
          (code := (e * 128 + fr) * 65536) (by rw [log2Floor_normal hfr]; simp [Fmt.fracBits, Fmt.bias]; omega)
          (by simp [Fmt.fracBits, Fmt.bias]; omega) (by omega) (by simp only [Fmt.fracBits]; omega) (by show _ ≤ 0x7F7FFFFF; omega)
      simp [he0, h255, this]

/-- The subnormal BF16 values are normal in binary64. -/
theorem bf16To_f64 (x : BitVec 16) : bf16To 64 x = (encodeFmt .f64 .rne false false (decodeFmt .bf16 x.toNat)).1 := by
  obtain ⟨neg, e, fr, he, hfr, hx, hneg, hex, hfx⟩ := bf16_fields x
  have hf : HasInf .f64 := by simp [HasInf]
  have hl := log2_fraction_le hfr
  rw [hx, decodeFmt_bf16 he hfr, bf16To, hneg, hex, hfx]
  clear hx
  simp only [b2n_eq_signCode_f64]
  by_cases h255 : e = 255
  · by_cases h0 : fr = 0
    · simp [h255, h0, encodeFmt_inf hf, Fmt.infCode]
    · simp [h255, h0, encodeFmt_nan hf, Fmt.nanCode]
  · by_cases he0 : e = 0
    · by_cases h0 : fr = 0
      · simp [he0, h0, encodeFmt_zero hf]
      · have hlo : 2 ^ Nat.log2 fr ≤ fr := Nat.log2_self_le h0
        have hhi : fr < 2 ^ (Nat.log2 fr + 1) := Nat.lt_log2_self
        have hmul : fr * 2 ^ (52 - Nat.log2 fr) = 2 ^ 52 + (fr - 2 ^ Nat.log2 fr) * 2 ^ (52 - Nat.log2 fr) := by
          rw [Nat.sub_mul, ← pow_add, Nat.add_sub_cancel' (by omega)]
          have := Nat.mul_le_mul_right (2 ^ (52 - Nat.log2 fr)) hlo
          rw [← pow_add, Nat.add_sub_cancel' (by omega)] at this
          omega
        have hlt : fr * 2 ^ (52 - Nat.log2 fr) < 2 ^ 53 := by
          have := Nat.mul_lt_mul_of_pos_right hhi (Nat.two_pow_pos (52 - Nat.log2 fr))
          rwa [← pow_add, show Nat.log2 fr + 1 + (52 - Nat.log2 fr) = 53 by omega] at this
        have := encodeFmt_rne_exact hf neg h0 (e := -133) (q := Nat.log2 fr - 185) (shift := Nat.log2 fr + 889)
          (up := 52 - Nat.log2 fr) (code := (Nat.log2 fr + 890) * 2 ^ 52 + (fr - 2 ^ Nat.log2 fr) * 2 ^ (52 - Nat.log2 fr))
          (by simp [log2Floor, Fmt.fracBits, Fmt.bias]; omega) (by simp [Fmt.fracBits, Fmt.bias]; omega) (by omega)
          (by simp only [Fmt.fracBits]; omega)
          (by show _ ≤ 0x7FEFFFFFFFFFFFFF; omega)
        simp [he0, h0, this, Nat.add_assoc]
    · have := encodeFmt_rne_exact hf neg (m := 128 + fr) (by omega) (e := e - 134) (q := e - 179) (shift := e + 895) (up := 45)
          (code := (e + 896) * 2 ^ 52 + fr * 2 ^ 45) (by rw [log2Floor_normal hfr]; simp [Fmt.fracBits, Fmt.bias]; omega)
          (by simp [Fmt.fracBits, Fmt.bias]; omega) (by omega) (by simp only [Fmt.fracBits]; omega)
          (by show _ ≤ 0x7FEFFFFFFFFFFFFF; omega)
      simp [he0, h255, this, Nat.add_assoc]

theorem ite_succ_eq (up : Bool) (n : ℕ) : (if up then n + 1 else n) = n + b2n up := by cases up <;> rfl

/-- A magnitude below binary16's least normal, in units of 2^-24. -/
theorem encodeFmt_f16_tiny (neg : Bool) {m k : ℕ} (hm : m < 256) {e : ℤ} (he : e = -24 - k) (hk : 0 < k)
    (hq : m ≠ 0 → log2Floor m e ≤ -14) :
    (encodeFmt .f16 .rne false false (.fin neg m e)).1 = signCode .f16 neg + m / 2 ^ k +
      b2n (decide (2 ^ k < 2 * (m % 2 ^ k)) || (decide (2 * (m % 2 ^ k) = 2 ^ k) && m / 2 ^ k % 2 == 1)) := by
  have hf : HasInf .f16 := by simp [HasInf]
  by_cases h0 : m = 0
  · subst h0
    simp [encodeFmt_zero hf, b2n]
  · have hround : (roundAt .rne neg m e (-24)).1 = m / 2 ^ k +
        b2n (decide (2 ^ k < 2 * (m % 2 ^ k)) || (decide (2 * (m % 2 ^ k) = 2 ^ k) && m / 2 ^ k % 2 == 1)) := by
      rw [roundAt, if_neg (by omega), show ((-24 - e).toNat) = k by omega]
      exact ite_succ_eq _ _
    have hle : m / 2 ^ k ≤ 255 := (Nat.div_le_self _ _).trans (by omega)
    rw [encodeFmt_rne hf neg h0 (q := -24) (by have := hq h0; simp [Fmt.fracBits, Fmt.bias]; omega) rfl, hround]
    generalize (decide (2 ^ k < 2 * (m % 2 ^ k)) || (decide (2 * (m % 2 ^ k) = 2 ^ k) && m / 2 ^ k % 2 == 1)) = up
    have hup : b2n up ≤ 1 := by cases up <;> decide
    simp [Fmt.fracBits, Fmt.bias, Fmt.maxCode]
    rw [if_neg (by omega)]
    omega

theorem bf16To_f16 (x : BitVec 16) : bf16To 16 x = (encodeFmt .f16 .rne false false (decodeFmt .bf16 x.toNat)).1 := by
  obtain ⟨neg, e, fr, he, hfr, hx, hneg, hex, hfx⟩ := bf16_fields x
  have hf : HasInf .f16 := by simp [HasInf]
  have hl := log2_fraction_le hfr
  rw [hx, decodeFmt_bf16 he hfr, bf16To, hneg, hex, hfx]
  clear hx
  simp only [b2n_eq_signCode_f16]
  by_cases h255 : e = 255
  · by_cases h0 : fr = 0
    · simp [h255, h0, encodeFmt_inf hf, Fmt.infCode]
    · simp [h255, h0, encodeFmt_nan hf, Fmt.nanCode]
  rw [if_neg (by tauto), if_neg (by decide), if_neg (by decide), if_neg h255]
  by_cases he0 : e = 0
  · have := encodeFmt_f16_tiny neg (k := 109) (m := fr) (e := -133) (by omega) (by norm_num) (by norm_num)
      (fun _ => by rw [log2Floor]; omega)
    simp only [if_pos he0, this]
    simp [he0]
  simp only [if_neg he0]
  by_cases h110 : e < 110
  · have := encodeFmt_f16_tiny neg (k := 110 - e) (m := 128 + fr) (e := e - 134) (by omega) (by omega) (by omega)
      (fun _ => by rw [log2Floor_normal hfr]; omega)
    rw [if_neg (by omega), if_neg (by omega), this]
    simp [h110]
  by_cases h113 : e < 113
  · have hp : 2 ^ (e - 110) ≤ 2 ^ 2 := Nat.pow_le_pow_right (by norm_num) (by omega)
    have hmul : (128 + fr) * 2 ^ (e - 110) ≤ 255 * 2 ^ 2 := Nat.mul_le_mul (by omega) hp
    have := encodeFmt_rne_exact hf neg (m := 128 + fr) (by omega) (e := e - 134) (q := -24) (shift := 0) (up := e - 110)
      (code := (128 + fr) * 2 ^ (e - 110)) (by rw [log2Floor_normal hfr]; simp [Fmt.fracBits, Fmt.bias]; omega)
      (by decide) (by omega) (by simp) (by show _ ≤ 0x7BFF; omega)
    rw [if_neg (by omega), if_neg (by omega), this]
    simp [h110, b2n]
  by_cases h143 : e < 143
  · have := encodeFmt_rne_exact hf neg (m := 128 + fr) (by omega) (e := e - 134) (q := e - 137) (shift := e - 113) (up := 3)
      (code := (e - 112) * 1024 + fr * 8) (by rw [log2Floor_normal hfr]; simp [Fmt.fracBits, Fmt.bias]; omega)
      (by simp [Fmt.fracBits, Fmt.bias]; omega) (by omega) (by simp only [Fmt.fracBits]; omega) (by show _ ≤ 0x7BFF; omega)
    rw [if_neg (by omega), if_pos (by omega), this, Nat.add_assoc]
  · have := encodeFmt_rne_overflow hf neg (m := 128 + fr) (by omega) (e := e - 134) (q := e - 137) (shift := e - 113) (up := 3)
      (by rw [log2Floor_normal hfr]; simp [Fmt.fracBits, Fmt.bias]; omega)
      (by simp [Fmt.fracBits, Fmt.bias]; omega) (by omega) rfl (by simp [Fmt.fracBits, Fmt.maxCode]; omega)
    rw [if_pos (by omega), this]
    rfl

end Sys2Proof
end

section
/-! PROOFS. The scalar instructions (O20). -/
namespace Sys2Proof
open Sys2Proof.Machine

/-! ## Scalar instructions -/

theorem uniConst_runs {i : Instr} {s : State} {d : SReg} {reads : Bool} {f : Team → Word → Word}
    (h : exec i s = uniConst d reads f s) :
    Runs i s (UniEffect (some d) (if reads then s.cur.sFlags d else 0) (f s.cur (s.cur.uniSrc (.s d)))) :=
  runs_teamStep h (uniResult_effect s.cur (some d) _ _)

/-- A uniform result whose value is known by a property. -/
theorem Runs.value {i : Instr} {s : State} {d : SDst} {fl : FFlags} {v : Word} {P : Word → Prop} (h : Runs i s (UniEffect d fl v))
    (hv : P v) : Runs i s fun a b => ∃ r, UniEffect d fl r a b ∧ P r :=
  h.imp fun _ _ e => ⟨v, e, hv⟩

theorem Runs.value_eq {i : Instr} {s : State} {d : SDst} {fl : FFlags} {v w : Word} (h : Runs i s (UniEffect d fl v)) (hv : v = w) :
    Runs i s (UniEffect d fl w) :=
  hv ▸ h

theorem sbfi_runs (s : State) (d : SDst) (a b : USrc) :
    Runs (.sbfi d a b) s (UniEffect d (s.cur.uniFlags a ||| s.cur.uniFlags b ||| s.cur.uniFlags (.s (d.getD 0)))
      (word (bfiAt 64 (s.cur.uniSrc (.s (d.getD 0))).toNat (s.cur.uniSrc a).toNat (s.cur.uniSrc b).toNat))) :=
  runs_teamStep (exec_sbfi d a b s) (uniResult_effect s.cur d _ _)

theorem scmp_runs (s : State) (q : SCond) (d : SDst) (a b : USrc) (c : Bool)
    (hc : scondHolds q (s.cur.uniSrc a) (s.cur.uniSrc b) = c) :
    Runs (.scmp q d a b) s (UniEffect d (s.cur.uniFlags a ||| s.cur.uniFlags b) (word (b2n c))) :=
  hc ▸ uni2_runs (exec_scmp q d a b s)

theorem ssel_runs (s : State) (d : SDst) (a b : USrc) (c : SReg) :
    Runs (.ssel d a b c) s (UniEffect d (s.cur.uniFlags a ||| s.cur.uniFlags b ||| s.cur.sFlags c)
      (if s.cur.s[c] = 0 then s.cur.uniSrc b else s.cur.uniSrc a)) := by
  have h := runs_teamStep (exec_ssel d a b c s) (uniResult_effect s.cur d _ _)
  rwa [ite_not] at h

/-- A constant builder that places its 18 bits in the old d. -/
theorem uniConst_places {j : Instr} {s : State} {d : SReg} {i : BitVec 18} {lo : ℕ}
    (h : exec j s = uniConst d true (fun _ x => setBits x lo 18 i.toNat) s) :
    Runs j s fun u v => ∃ r, UniEffect (some d) (s.cur.sFlags d) r u v ∧
      ∀ k, k < 64 → r.getLsbD k = if lo ≤ k ∧ k < lo + 18 then i.getLsbD (k - lo) else (s.cur.uniSrc (.s d)).getLsbD k :=
  (uniConst_runs h).value fun _ hk => setBits_getLsbD _ lo 18 i.toNat _ hk

/-- A constant builder of a float gives the BF16 value in its format. -/
theorem uniConst_floats {j : Instr} {s : State} {d : SReg} {x : BitVec 16} {n : ℕ} {f : Fmt}
    (h : exec j s = uniConst d false (fun _ _ => word (bf16To n x)) s)
    (hn : bf16To n x = (encodeFmt f .rne false false (decodeFmt .bf16 x.toNat)).1) (hf : f.bits ≤ 64) :
    Runs j s fun u v => ∃ r, UniEffect (some d) 0 r u v ∧
      r.toNat = (encodeFmt f .rne false false (decodeFmt .bf16 x.toNat)).1 := by
  refine (uniConst_runs h).value ?_
  rw [word_toNat, hn]
  exact Nat.mod_eq_of_lt ((encodeFmt_lt f .rne false false _).trans_le (Nat.pow_le_pow_right two_pos hf))

/-- Settles O20: each instruction is one of the shared uniform forms, with its value read as a bit vector. -/
theorem scalarInstructions : Obligations.ScalarInstructions := by
  unfold Obligations.ScalarInstructions
  refine ⟨fun s d a b imm => ?_, fun s d i x => ?_, fun s d a b c q => ?_⟩
  · refine ⟨uni2_runs (exec_sadd d a b s), uni2_runs (exec_ssub d a b s), uni2_runs (exec_smul d a b s), ?_,
      uni2_runs (exec_smulhu d a b s), ?_, uni2_runs (exec_sdivu d a b s), ?_, uni2_runs (exec_sremu d a b s),
      uni2_runs (exec_sand d a b s), uni2_runs (exec_sor d a b s), uni2_runs (exec_sxor d a b s), uni2_runs (exec_sshl d a b s),
      uni2_runs (exec_sshr d a b s), uni2_runs (exec_ssra d a b s), ?_, ?_, ?_, ?_, ?_, ?_, uni1_runs (exec_smov d a s), ?_, ?_,
      uni1_runs (exec_saddImm d a imm s), uni1_runs (exec_smulImm d a imm s), uni1_runs (exec_sandImm d a imm s),
      uni1_runs (exec_sorImm d a imm s), uni1_runs (exec_sxorImm d a imm s), ?_, ?_, ?_⟩
    · exact (uni2_runs (exec_smulh d a b s)).value_eq (mulHigh_signed _ _)
    · exact (uni2_runs (exec_sdiv d a b s)).value_eq (sdivW_eq _ _)
    · exact (uni2_runs (exec_srem d a b s)).value_eq (sremW_eq _ _)
    · exact (uni2_runs (exec_smin d a b s)).value_eq (minSigned_eq _ _)
    · exact (uni2_runs (exec_sminu d a b s)).value_eq (minUnsigned_eq _ _)
    · exact (uni2_runs (exec_smax d a b s)).value_eq (maxSigned_eq _ _)
    · exact (uni2_runs (exec_smaxu d a b s)).value_eq (maxUnsigned_eq _ _)
    · exact (uni1_runs (exec_sclz d a s)).value_eq (congrArg word (clz_eq 64 _ (s.cur.uniSrc a).isLt))
    · exact (uni1_runs (exec_spop d a s)).value_eq (congrArg word (popCount_eq 64 (s.cur.uniSrc a).toNat))
    · exact (uni2_runs (exec_sbfe d a b s)).value fun k hk => bfeAt_getLsbD _ _ k hk
    · exact (sbfi_runs s d a b).value fun k hk => bfiAt_getLsbD _ _ _ k hk
    · exact (uni1_runs (exec_sshlImm d a imm s)).value_eq (congrArg ((s.cur.uniSrc a) <<< ·) (shAmt_imm imm))
    · exact (uni1_runs (exec_sshrImm d a imm s)).value_eq (congrArg ((s.cur.uniSrc a) >>> ·) (shAmt_imm imm))
    · exact (uni1_runs (exec_ssraImm d a imm s)).value_eq (congrArg (s.cur.uniSrc a).sshiftRight (shAmt_imm imm))
  · exact ⟨uniConst_runs (exec_sliI d i s), uniConst_runs (exec_sliZ d i s), uniConst_places (exec_slil d i s),
      uniConst_places (exec_slim d i s), uniConst_places (exec_slih d i s),
      uniConst_floats (exec_sliF64 d x s) (bf16To_f64 x) (by decide), uniConst_floats (exec_sliF32 d x s) (bf16To_f32 x) (by decide),
      uniConst_floats (exec_sliF16 d x s) (bf16To_f16 x) (by decide), uniConst_runs (exec_sadr d i s)⟩
  · exact ⟨fun h => scmp_runs s q d a b true ((scondHolds_iff q _ _).2 h),
      fun h => scmp_runs s q d a b false (Bool.not_eq_true _ ▸ mt (scondHolds_iff q _ _).1 h), ssel_runs s d a b c⟩

end Sys2Proof
end

section
/-! PROOFS. Control transfers and software traps (O21). -/
namespace Sys2Proof
open Sys2Proof.Machine

/-! ## Transfers and software traps -/

theorem bcHolds_iff (c : BcCond) (a b : Word) : bcHolds c a b = true ↔ match c with
    | .eq => a = b | .ne => a ≠ b | .lt => a.toInt < b.toInt | .ge => b.toInt ≤ a.toInt
    | .ltu => a.toNat < b.toNat | .geu => b.toNat ≤ a.toNat := by
  cases c <;> simp [bcHolds, BitVec.slt_iff_toInt_lt, BitVec.sle_iff_toInt_le, BitVec.ult_iff_toNat_lt, BitVec.ule_iff_toNat_le]

/-- A transfer whose only other effect is to raise the flags of its reads. -/
theorem jumpTo_raises {i : Instr} {s : State} {fl : FFlags} {target : Word}
    (h : exec i s = jumpTo (Team.raise · fl) target s) :
    Jumps i s target fun u m => Raised fl u m ∧ m = { u with fflags := m.fflags, pending := m.pending } :=
  jumpTo_jumps h ⟨raised_of_raise _ _ _ rfl rfl, rfl⟩ ⟨raised_of_raise _ _ _ rfl rfl, rfl⟩ ⟨rfl, rfl, rfl⟩

/-- A transfer that also gives a uniform result. -/
theorem jumpTo_writes {i : Instr} {s : State} {fl : FFlags} {r : SReg} {v target : Word}
    (h : exec i s = jumpTo (fun t => (t.raise fl).uniResult (some r) v) target s) :
    Jumps i s target fun u m => UniEffect (some r) fl v u { m with pc := m.pc + 4 } :=
  jumpTo_jumps h (uniResult_effect s.cur (some r) fl v) (uniResult_effect s.cur (some r) fl v) ⟨rfl, rfl, rfl⟩

theorem exec_br_jumps (s : State) (off : BitVec 24) :
    Jumps (.br off) s (s.cur.pc + 4 * off.signExtend 64) fun u m =>
      Raised 0 u m ∧ m = { u with fflags := m.fflags, pending := m.pending } := by
  have h : exec (.br off) s = jumpTo (Team.raise · 0) (s.cur.pc + 4 * off.signExtend 64) s := by
    rw [exec_br, execBr, show (Team.raise · 0) = id from funext raise_zero]; rfl
  exact jumpTo_raises h

theorem exec_call_jumps (s : State) (d : SReg) (imm : BitVec 18) :
    Jumps (.call d imm) s (s.cur.pc + 4 * imm.signExtend 64) fun u m =>
      UniEffect (some d) 0 (s.cur.pc + 4) u { m with pc := m.pc + 4 } := by
  have h : exec (.call d imm) s =
      jumpTo (fun t => (t.raise 0).uniResult (some d) (s.cur.pc + 4)) (s.cur.pc + 4 * imm.signExtend 64) s := by
    simp only [raise_zero]; rfl
  exact jumpTo_writes h

/-- The end of a tenure after a change that leaves the team's name and place. -/
theorem yieldTenure_over {f : Team → Team} (s : State) (htid : (f s.cur).tid = s.cur.tid)
    (hcluster : (f s.cur).cluster = s.cur.cluster) (hcore : (f s.cur).core = s.cur.core) :
    TenureOver s (s.onCur f).yieldTenure := by
  obtain ⟨o, -⟩ := endTenure_over (s.onCur f)
  have l := o.leads
  have e : (s.onCur f).cur = f s.cur := rfl
  rw [e, htid, hcluster, hcore] at l
  exact ⟨rfl, rfl, rfl, o.clusters, o.cores, l, fun _ => rfl, fun _ _ => rfl⟩

theorem yieldTenure_cur (s : State) (f : Team → Team) :
    (s.onCur f).yieldTenure.cur = { f s.cur with
      fvalid := 0, tenure := .none, st := .ready, idleSince := s.ck, readyAt := s.ck, readyPrev := false } :=
  congrArg (fun t : Team => { t with st := .ready, readyAt := s.ck, readyPrev := false }) (endTenure_over (s.onCur f)).2

/-- What `yield` leaves: the team past it, its tenure over, ready since now. -/
theorem exec_yield_ends (s : State) :
    ∃ t, exec .yield s = .next t ∧ TenureOver s t ∧ t.cur = { s.cur with
      pc := s.cur.pc + 4, fvalid := 0, tenure := .none, st := .ready, idleSince := s.ck, readyAt := s.ck,
      readyPrev := false } :=
  ⟨(s.onCur (Team.advance · 4)).yieldTenure, exec_yield s, yieldTenure_over (f := (Team.advance · 4)) s rfl rfl rfl,
    yieldTenure_cur s _⟩

/-- Settles O21: each transfer is `jumpTo` with its effect, and each software trap is `trapAt`. -/
theorem controlTransfersAndTraps : Obligations.ControlTransfersAndTraps := by
  unfold Obligations.ControlTransfersAndTraps
  refine ⟨fun s off24 off9 imm c a b d => ⟨exec_br_jumps s off24, fun h => ?_, fun h => ?_, jumpTo_raises (exec_jmp a s),
    jumpTo_raises (exec_ret a s), exec_call_jumps s d imm, fun h => ?_, fun h => ?_, exec_yield_ends s, ?_⟩, fun s code => ⟨?_, ?_⟩⟩
  · exact jumpTo_raises (branchIf_jumps (exec_bc c a b off9 s) ((bcHolds_iff c _ _).2 h))
  · exact branchIf_passes (exec_bc c a b off9 s) (Bool.not_eq_true _ ▸ mt (bcHolds_iff c _ _).1 h)
  · exact jumpTo_writes (branchIf_jumps (exec_loop d off9 s) (bne_iff_ne.2 h))
  · have hb : exec (.loop d off9) s = teamStep 4 (fun t => (t.raise (s.cur.sFlags d)).uniResult (some d) 0) s := by
      rw [exec_loop, execLoop, h]; rfl
    exact runs_teamStep hb (uniResult_effect s.cur (some d) _ 0)
  · exact runs_teamStep (exec_nop s) ⟨raised_of_raise s.cur _ 0 (by rw [raise_zero]; rfl) (by rw [raise_zero]; rfl), rfl⟩
  · exact trapAt_taken (exec_trap code s)
  · exact trapAt_taken (exec_brk code s)

end Sys2Proof
end

section
/-! PROOFS. Failed fetches and pending traps (O36). -/
namespace Sys2Proof
open Sys2Proof.Machine

/-! ## The next pending trap -/

theorem foldl_least_stays {α : Type} (key : α → Nat) (p : α) (r : List α) (hr : ∀ q ∈ r, key p ≤ key q) :
    r.foldl (fun b c => if key c < key b then c else b) p = p := by
  induction r with
  | nil => rfl
  | cons q r ih =>
    have hq : ¬ key q < key p := Nat.not_lt.2 (hr q (by simp))
    rw [List.foldl_cons, if_neg hq]
    exact ih fun x hx => hr x (by simp [hx])

theorem foldl_least_reached {α : Type} (key : α → Nat) (p b : α) (l r : List α) (hb : key p < key b)
    (hl : ∀ q ∈ l, key p < key q) (hr : ∀ q ∈ r, key p ≤ key q) :
    (l ++ p :: r).foldl (fun b c => if key c < key b then c else b) b = p := by
  induction l generalizing b with
  | nil =>
    rw [List.nil_append, List.foldl_cons, if_pos hb]
    exact foldl_least_stays key p r hr
  | cons q l ih =>
    rw [List.cons_append, List.foldl_cons]
    have hq : key p < key q := hl q (by simp)
    exact ih _ (by split <;> assumption) fun x hx => hl x (by simp [hx])

/-- An entry below all before it and not above any after it is the least, and the earliest of its key. -/
theorem minBy_append {α : Type} (key : α → Nat) (p : α) (l r : List α) (hl : ∀ q ∈ l, key p < key q)
    (hr : ∀ q ∈ r, key p ≤ key q) : minBy key (l ++ p :: r) = some p := by
  cases l with
  | nil => exact congrArg some (foldl_least_stays key p r hr)
  | cons b l =>
    exact congrArg some (foldl_least_reached key p b l r (hl b (by simp)) (fun q hq => hl q (by simp [hq])) hr)

theorem eraseFirst_append {α : Type} (f : α → Bool) (p : α) (l r : List α) (hl : ∀ q ∈ l, f q = false) (hp : f p = true) :
    eraseFirst f (l ++ p :: r) = l ++ r := by
  induction l with
  | nil => exact if_pos hp
  | cons q l ih =>
    rw [List.cons_append, eraseFirst, hl q (by simp), ih fun x hx => hl x (by simp [hx])]
    rfl

/-! ## The fault buffer -/

theorem addFault_cur (s : State) (cl : Nat) (w : FaultWait) : (s.addFault cl w).cur = s.cur := by
  unfold State.addFault
  dsimp only
  split <;> rfl

theorem addFault_die (s : State) (cl k : Nat) (w : FaultWait) : (s.addFault cl w).die k = (s.holdFault cl w).die k := by
  unfold State.addFault
  dsimp only
  split <;> rfl

theorem addFault_added {s s' : State} (cl : Nat) (w : FaultWait) (hdie : s'.die (dieOf cl) = s.die (dieOf cl))
    (hd : dieOf cl < s'.dies.length) : FaultAdded cl w s (s'.addFault cl w) := by
  unfold FaultAdded
  rw [addFault_die, State.holdFault, die_modDie, if_pos ⟨rfl, hd⟩, hdie]

/-! ## A team whose fetch is held -/

/-- A team waits, resident, with its tenure ended, for the replay of its fetch. -/
def holdFetch (s : State) (va : Nat) : State := s.endTenure.setSt (.fetchHeld va)

theorem holdFetch_cur (s : State) (va : Nat) : (holdFetch s va).cur =
    { s.cur with st := .fetchHeld va, fvalid := 0, tenure := .none, idleSince := s.ck } :=
  congrArg (fun t : Team => { t with st := .fetchHeld va }) (endTenure_over s).2

theorem holdFetch_dies (s : State) (va : Nat) : (holdFetch s va).dies = s.dies := by
  simp [holdFetch, State.setSt, State.endTenure, State.modCore]

theorem holdFetch_die (s : State) (va k : Nat) : (holdFetch s va).die k = s.die k := by
  rw [State.die, holdFetch_dies, State.die]

theorem holdFetch_curCtx (s : State) (va : Nat) : (holdFetch s va).curCtx = (s.group s.cur.group).ctx := by
  simp [holdFetch, State.setSt, State.endTenure, State.modCore, State.curCtx, State.curGroup, State.group, State.group?]

/-! ## The failed fetch and the pending trap -/

theorem exec_illegalWord_traps {s s2 : State} {tid c : Nat} {info : Word} (htid : (s.focus tid).cur.tid = tid)
    (hst : (s.focus tid).cur.st = .ready) (hf : (s.focus tid).fetch = (s2, .illegal c info)) :
    exec (.illegalWord tid) s = trapAt c info s2 := by
  rw [exec_illegalWord, execIllegalWord]
  simp only [htid, hst, hf, ne_eq, not_true, or_self, if_false]

theorem exec_fetchFault_access {s s2 : State} {tid va : Nat} (htid : (s.focus tid).cur.tid = tid)
    (hst : (s.focus tid).cur.st = .ready) (hf : (s.focus tid).fetch = (s2, .fault .access va)) :
    exec (.fetchFault tid) s = trapAt 6 (word va) s2 := by
  rw [exec_fetchFault, execFetchFault]
  simp only [htid, hst, hf, ne_eq, not_true, or_self, if_false]

theorem exec_fetchFault_replay {s s2 : State} {tid va : Nat} (htid : (s.focus tid).cur.tid = tid)
    (hst : (s.focus tid).cur.st = .ready) (hf : (s.focus tid).fetch = (s2, .fault .replay va)) :
    exec (.fetchFault tid) s = .next ((holdFetch s2 va).addFault s2.cur.cluster
      ⟨(s2.group s2.cur.group).ctx, va, 3, 5, s2.cur.cluster, s2.cur.group, .fetch tid⟩) := by
  rw [exec_fetchFault, execFetchFault]
  simp only [htid, hst, hf, ne_eq, not_true, or_self, if_false]
  rw [← holdFetch, holdFetch_curCtx]

theorem exec_boundaryTrap_takes {s : State} {tid : Nat} {p : Nat × Word} {l r : List (Nat × Word)}
    (htid : (s.focus tid).cur.tid = tid) (hst : (s.focus tid).cur.st = .ready)
    (hp : (s.focus tid).cur.pending = l ++ p :: r) (hl : ∀ q ∈ l, p.1 < q.1) (hr : ∀ q ∈ r, p.1 ≤ q.1) :
    exec (.boundaryTrap tid) s = .next (takeTrap p.1 p.2 ((s.focus tid).onCur fun u => { u with
      pending := l ++ r, qfail := if p.1 = 15 then Vector.replicate 4 0 else u.qfail })) := by
  have hn : (s.focus tid).cur.nextTrap = some p := by rw [Team.nextTrap, hp]; exact minBy_append _ p l r hl hr
  have he : eraseFirst (fun q => q == p) (s.focus tid).cur.pending = l ++ r := by
    rw [hp]
    refine eraseFirst_append _ p l r (fun q hq => ?_) (by simp)
    exact beq_eq_false_iff_ne.2 fun e => absurd (hl q hq) (by simp [e])
  rw [exec_boundaryTrap, execBoundaryTrap, State.boundaryTrap]
  simp only [htid, hst, hn, ne_eq, not_true, or_self, if_false, State.onCur, he]

/-- Settles O36: a failed fetch is the trap of its cause, or the team waits and the fault is added; a pending trap is the first
of the least cause. -/
theorem fetchAndBoundaryTraps : Obligations.FetchAndBoundaryTraps := by
  unfold Obligations.FetchAndBoundaryTraps
  intro s tid s1 htid hst
  refine ⟨fun s2 c info hf => ?_, fun s2 va hf => ?_, fun s2 va hf _ hd => ?_, fun l p r hp hl hr => ?_⟩
  · exact ⟨_, exec_illegalWord_traps htid hst hf, takeTrap_taken c info s2⟩
  · exact ⟨_, exec_fetchFault_access htid hst hf, takeTrap_taken 6 (word va) s2⟩
  · refine ⟨_, exec_fetchFault_replay htid hst hf, ?_, addFault_added _ _ (holdFetch_die s2 va _) ?_⟩
    · rw [addFault_cur, holdFetch_cur]
    · rw [holdFetch_dies]; exact hd
  · exact ⟨_, exec_boundaryTrap_takes htid hst hp hl hr, takeTrap_taken p.1 p.2 _⟩

end Sys2Proof
end

section
/-! PROOFS. The words that the spec writes out (O5). -/
namespace Sys2Proof

/-- Settles O5: each fact is closed, and the decoder evaluates to it. -/
theorem specWordsDecode : Obligations.SpecWordsDecode := by
  unfold Obligations.SpecWordsDecode
  exact ⟨by decide, by decide, by decide, by decide, by decide, by decide, by decide, by decide, by decide, by decide,
    by decide, by decide, by decide, by decide, by decide, by decide, by decide, by decide, by decide, by decide,
    by decide, by decide, by decide, by decide, by decide, by decide, by decide, by decide⟩

end Sys2Proof
end

section
/-! PROOFS. The step of a team's issue (R215, R218): a state in which it does not note the refused team where the obligation
says (O4). -/
namespace Sys2Proof
open Sys2Proof.Machine

/-! ## What an issue leaves -/

theorem noteIssued_eq {v w : State} {tid : ℕ} (htid : v.cur.tid = tid) (i : Instr) : v.noteIssued i w = w.modTeam tid fun t =>
    { t with winCount := if v.cur.goesGlobal i then t.winCount + 1 else t.winCount, granted := 0 } := by
  rw [State.noteIssued, htid]

/-! ## A device with two teams of one name -/

/-- A `nop`. -/
def nopWord : ℕ := 0xA8000000

/-- A device whose team 1 is about to issue a `nop` on core 0 of cluster 0. Two more teams stand at the same instruction, both
named 2: the one that the name finds is on core 1, the one that shares team 1's pipe, and leads it, on core 0. -/
def twins : State :=
  let s := State.reset.withFetchWord 32 nopWord
  { s with
    others := [{ s.cur with tid := 2, core := 1 }, { s.cur with tid := 2 }]
    clusters := setNth s.clusters 0 ((s.cluster 0).modCore 0 fun k => { k with uniLead := some 2 }) }

/-- The device once the turn is taken off its agenda. -/
def twinsTurn : State := { twins with agenda := [] }
/-- The device with the refusal noted where the winner's name stands, on core 1, and the winner in focus. -/
def twinsFocus : State := (twinsTurn.noteRefused 2 (some 1)).focus 2
/-- The same once the address of the code has been translated. -/
def twinsFetched : State :=
  (twinsFocus.translate twinsFocus.cur.cluster (twinsFocus.group twinsFocus.cur.group).ctx 0x400000 3).1
/-- And once the `nop` has run. -/
def twinsRun : State := (twinsFetched.onCur Team.countIssue).onCur (Team.advance · 4)

/-- What core 0 of cluster 0 has noted of refusals in the state that an outcome gives. -/
def refusedOnCore0 : Out → Option (ℕ × Bool × ℕ)
  | .next t => ((t.cluster 0).core 0).refused
  | _ => none

theorem twins_arbitrate : twinsTurn.arbitrate 1 = (2, some 1) := by decide +kernel

theorem twinsFocus_issues : twinsFocus.live = true ∧ twinsFocus.cur.tid = 2 ∧ twinsFocus.cur.st = .ready ∧
    twinsFocus.cur.tenure = .held 0 ∧ twinsFocus.cur.pending = [] ∧ twinsFocus.poison = [] ∧ twinsFocus.cur.pc.toNat = 0x400000 := by
  decide +kernel

theorem prod_eq_of_snd {α β : Type} {p : α × β} {b : β} (h : p.2 = b) : p = (p.1, b) := Prod.ext rfl h

theorem twinsFocus_wordAt : WordAt twinsFocus.cur twinsFocus twinsFetched 0x400000 nopWord := by
  have h : twinsFocus.fetchOpen twinsFocus.cur 0x400000 = true ∧
      (twinsFocus.translate twinsFocus.cur.cluster (twinsFocus.group twinsFocus.cur.group).ctx 0x400000 3).2 =
        .ok ⟨.hbm 0x20000, .relCons, 0⟩ ∧ twinsFetched.poison = [] ∧ twinsFocus.cur.patches = [] ∧
      twinsFetched.hbmRead 0x20000 4 = nopWord := by decide +kernel
  obtain ⟨hopen, hplace, hpoison, hpatches, hword⟩ := h
  refine ⟨hopen, ⟨.hbm 0x20000, .relCons, 0⟩, 0x20000, prod_eq_of_snd hplace, rfl,
    fun _ h => PageKind.noConfusion h, hpoison, ?_, hword⟩
  rw [hpatches]
  exact fun p hp => absurd hp List.not_mem_nil

theorem twinsFetched_issues : decodeWords twinsFocus.part.full nopWord none = .ok .nop ∧
    Instr.nop.fits twinsFocus.cur.nregs = true ∧ twinsFetched.cur.tid = 2 ∧ twinsFetched.overAllowance .nop = false ∧
    twinsFetched.cur.accs = [] := by
  decide +kernel

theorem twinsRun_moves : twinsRun.audits = [] ∧ twinsRun.faulty = [] ∧ (twinsRun.team 2).pc ≠ twinsFetched.cur.pc := by
  decide +kernel

/-- The step notes team 1's refusal on the core of team 1. -/
theorem step_twins_refused : refusedOnCore0 (step twins) = some (1, true, 0) := by decide +kernel

/-- No refusal stands there in the state that the statement describes. -/
theorem twinsDone_not_refused :
    refusedOnCore0 (afterIssue twinsTurn 2 (.next (twinsFetched.noteIssued .nop twinsRun))) = none := by decide +kernel

/-- Refutes O4: the step notes the refusal on the core of the team that was asked to issue, the statement on the core of the team
that the winner's name finds. No hypothesis keeps two teams from having one name, and in `twins` these are two cores. -/
theorem not_stepRunsDecoded : ¬ Obligations.StepRunsDecoded := by
  unfold Obligations.StepRunsDecoded
  intro H
  obtain ⟨hlive, htid, hst, hten, hpend, hpoi, hpc⟩ := twinsFocus_issues
  obtain ⟨hdec, hfit, hvtid, hover, hacc⟩ := twinsFetched_issues
  obtain ⟨haud, hfau, hmoved⟩ := twinsRun_moves
  have hhead : HeadAt twinsFocus twinsFetched nopWord none := .inl ⟨by decide, rfl, hpc ▸ twinsFocus_wordAt⟩
  obtain ⟨hruns, -, -⟩ := H twins twinsTurn twinsFocus twinsFetched 1 2 0 nopWord (some 1) [] none (by rfl) rfl twins_arbitrate
    rfl hlive htid hst hten (by decide) hpend hpoi hhead
  have hstep : step twins = afterIssue twinsTurn 2 (.next (twinsFetched.noteIssued .nop twinsRun)) := by
    rw [noteIssued_eq hvtid]
    exact ((hruns .nop hdec hfit hover hacc).1 twinsRun (exec_nop _) haud hfau).2 fun h => hmoved h.2.1
  have hrefused := step_twins_refused
  rw [hstep, twinsDone_not_refused] at hrefused
  exact absurd hrefused (by decide)

end Sys2Proof
end

section
/-! PROOFS. Bit fields, carry chains, selection, moves and packing of lanes (R123 to R125, R133), and the obligation on them (O12). -/
namespace Sys2Proof
open Sys2Proof.Machine

/-! ## Sub-elements by their bits -/

theorem subEl_perSub_testBit {w j k : ℕ} (f : ℕ → ℕ) (hw : 64 / w * w ≤ 64) (hj : j < 64 / w) (hk : k < w) :
    (subEl w (perSub w f) j).testBit k = (f j).testBit k := by
  rw [perSub, subEl_fromSubs f hw hj, Nat.testBit_mod_two_pow, decide_eq_true hk, Bool.true_and]

theorem sub_lt (t : Team) (w : ℕ) (a : LSrc) (x j : ℕ) : t.sub w a x j < 2 ^ w := subEl_lt w _ j

/-! ## Bit fields (R123) -/

/-- A number below 2^len with every bit from `len` to `w - 1` set above it. -/
theorem onesAbove_testBit_of_width {f len w k : ℕ} (hf : f < 2 ^ len) (hl : len ≤ w) (hk : k < w) :
    (f + (2 ^ w - 2 ^ len)).testBit k = if k < len then f.testBit k else true := by
  have e : f + (2 ^ w - 2 ^ len) = 2 ^ len * (2 ^ (w - len) - 1) + f := by
    rw [Nat.mul_sub, ← pow_add, Nat.add_sub_cancel' hl]
    omega
  rw [e, Nat.testBit_two_pow_mul_add _ hf]
  split
  · rfl
  · rw [Nat.testBit_two_pow_sub_one]
    exact decide_eq_true (by omega)

theorem word_bit15 (d : Word) : d.toNat / 32768 % 2 = 1 ↔ d.getLsbD 15 = true := by
  rw [← BitVec.testBit_toNat, Nat.testBit_eq_decide_div_mod_eq, decide_eq_true_eq]

/-- The extracted field at width `w`, bit by bit: a field past the width reads zeros. -/
theorem bfeAt_testBit {w a k : ℕ} (d : Word) (ha : a < 2 ^ w) (hk : k < w) :
    let len := min (bits d 0 7) w
    let pos := bits d 8 6
    (bfeAt w a d.toNat).testBit k = if k < len then a.testBit (pos + k)
      else d.getLsbD 15 && decide (0 < len) && a.testBit (pos + len - 1) := by
  intro len pos
  have hlen : min (d.toNat % 128) w = len := by simp [len, bits]
  have hpos : d.toNat / 256 % 64 = pos := by simp [pos, bits]
  have hl : len ≤ w := Nat.min_le_right _ _
  have hout : ∀ i, w ≤ i → a.testBit i = false := fun i hi =>
    Nat.testBit_eq_false_of_lt (ha.trans_le (Nat.pow_le_pow_right two_pos hi))
  unfold bfeAt
  dsimp only
  rw [hlen, hpos, Nat.mod_eq_of_lt ha]
  by_cases h0 : len = 0
  · simp [h0]
  have hlast : (a / 2 ^ pos % 2 ^ len / 2 ^ (len - 1) % 2 = 1) ↔ a.testBit (pos + len - 1) = true := by
    have h := field_testBit a pos len (len - 1)
    rw [Nat.testBit_eq_decide_div_mod_eq, decide_eq_true (by omega : len - 1 < len), Bool.true_and,
      show pos + (len - 1) = pos + len - 1 by omega] at h
    rw [← h, decide_eq_true_eq]
  rw [decide_eq_true (by omega : 0 < len), Bool.and_true]
  by_cases hp : w ≤ pos
  · rw [if_pos (.inr hp), hout _ (by omega), hout _ (by omega)]
    simp
  rw [if_neg (by omega), if_congr (and_congr (word_bit15 d) hlast) rfl rfl]
  have hf := field_testBit a pos len k
  split
  · rename_i h
    rw [onesAbove_testBit_of_width (Nat.mod_lt _ (Nat.two_pow_pos _)) hl hk, hf, h.1, h.2]
    by_cases hkl : k < len <;> simp [hkl]
  · rename_i h
    rw [hf]
    by_cases hkl : k < len
    · simp [hkl]
    · rw [decide_eq_false hkl, if_neg hkl, Bool.false_and]
      exact (Bool.eq_false_iff.2 fun e => h (Bool.and_eq_true_iff.1 e)).symm

/-- The inserted field at width `w`, bit by bit: what lies past the width is left out. -/
theorem bfiAt_testBit {w old a k : ℕ} (d : Word) (ho : old < 2 ^ w) (hk : k < w) :
    let len := min (bits d 0 7) w
    let pos := bits d 8 6
    (bfiAt w old a d.toNat).testBit k = if pos ≤ k ∧ k < pos + len then a.testBit (k - pos) else old.testBit k := by
  intro len pos
  have hlen : min (d.toNat % 128) w = len := by simp [len, bits]
  have hpos : d.toNat / 256 % 64 = pos := by simp [pos, bits]
  unfold bfiAt
  dsimp only
  rw [hlen, hpos, Nat.mod_eq_of_lt ho]
  by_cases hp : w ≤ pos
  · rw [if_pos hp, if_neg (by omega)]
  · rw [if_neg hp, insert_testBit _ _ _ _ _ (by omega)]
    exact if_congr (by omega) rfl rfl

theorem bfe_runs (s : State) (w : IW) (d : VDst) (a b : LSrc) :
    Runs (.bfe w d a b) s (LaneEffect 4 d (s.cur.srcFlags a ||| s.cur.srcFlags b) fun x v =>
      v = perSub (iwBits w) fun j => bfeAt (iwBits w) (s.cur.sub (iwBits w) a x j) (s.cur.laneSrc 64 b x).toNat) :=
  runs_teamStep (exec_bfe w d a b s) (laneResult_effect s.cur 4 d _ _)

theorem bfi_runs (s : State) (w : IW) (d : VDst) (a b : LSrc) :
    Runs (.bfi w d a b) s (LaneEffect 4 d (s.cur.srcFlags a ||| s.cur.srcFlags b ||| s.cur.oldFlags d) fun x v =>
      v = perSub (iwBits w) fun j => bfiAt (iwBits w) (subEl (iwBits w) (s.cur.old d x) j) (s.cur.sub (iwBits w) a x j)
        (s.cur.laneSrc 64 b x).toNat) :=
  runs_teamStep (exec_bfi w d a b s) (laneResult_effect s.cur 4 d _ _)

/-- A lane result that is known exactly, weakened to a property of it. -/
theorem Runs.laneValue {i : Instr} {s : State} {n : ℕ} {d : VDst} {fl : FFlags} {val : ℕ → Word} {P : ℕ → Word → Prop}
    (h : Runs i s (LaneEffect n d fl fun x v => v = val x)) (hp : ∀ x, P x (val x)) : Runs i s (LaneEffect n d fl P) :=
  h.imp fun _ _ e => e.imp fun x _ _ _ hv => hv ▸ hp x

/-! ## Carry chains (R124) -/

theorem laneResult_keeps (t : Team) (fl : FFlags) (d : VDst) (val : ℕ → Word) :
    ((t.raise fl).laneResult d val).m = t.m ∧ ((t.raise fl).laneResult d val).lwords = t.lwords := by
  have h := (laneResult_effect t 0 d fl val).frame
  have hm := congrArg Team.m h
  have hl := congrArg Team.lwords h
  exact ⟨hm, hl⟩

/-- A mask written beside a lane result, whose correction is that of the team before it. -/
theorem mask_setMask_laneResult (t : Team) (fl : FFlags) (d : VDst) (val : ℕ → Word) (k : MDst) (x : Mask) :
    ((((t.raise fl).laneResult d val).setMask k x).advance 4).m = t.m.set k.val (t.correct x) (by omega) := by
  obtain ⟨hm, hl⟩ := laneResult_keeps t fl d val
  simp only [advance_m, Team.setMask, Team.correct, Team.full, Team.dead, Team.lanes, hm, hl]

/-- What a carry chain does: its result from the carries in, the carries out of the active lanes into the mask, the other lanes'
bits left. -/
theorem laneCarry_chain {i : Instr} {s : State} {c : CMask} {d : VDst} {a b : LSrc} {f : ℕ → ℕ → ℕ → Bool × ℕ}
    (h : exec i s = laneCarry c d a b f s) {out : ℕ → Bool} {val : ℕ → Word}
    (hf : ∀ x, f (s.cur.laneSrc 64 a x).toNat (s.cur.laneSrc 64 b x).toNat (b2n ((s.cur.mask (carrySrc c)).getLsbD x)) =
      (out x, (val x).toNat)) :
    Runs i s fun u v => LaneEffect 4 d (s.cur.srcFlags a ||| s.cur.srcFlags b) (fun x r => r = val x) u { v with m := u.m } ∧
      (∀ j : MReg, j ≠ carrySrc c → v.mask j = u.mask j) ∧
      ∀ x, x < u.lanes → u.dead.getLsbD x = false →
        (v.mask (carrySrc c)).getLsbD x = if u.active x then out x else (u.mask (carrySrc c)).getLsbD x := by
  set t := s.cur with ht
  have hval : ∀ x, word (val x).toNat = val x := fun x => word_toNat_self _
  unfold laneCarry at h
  refine runs_teamStep h ?_
  simp only [← ht, hf, hval]
  set fl := t.srcFlags a ||| t.srcFlags b
  set y : Mask := (t.mask (carrySrc c) &&& ~~~ t.exec) ||| maskOf t.lanes fun x => t.active x && out x with hy
  have hm := mask_setMask_laneResult t fl d val (carryDst c) y
  refine ⟨?_, fun j hj => ?_, fun x hx hdead => ?_⟩
  · have e := laneResult_effect t 4 d fl val
    have em : (((t.raise fl).laneResult d val).advance 4).m = t.m := (laneResult_keeps t fl d val).1
    rw [show { (((t.raise fl).laneResult d val).setMask (carryDst c) y).advance 4 with m := t.m } =
      ((t.raise fl).laneResult d val).advance 4 by rw [← em]; rfl]
    exact e
  · rw [Team.mask, hm]
    exact Vector.getElem_set_ne _ _ fun e => hj (Fin.ext e.symm)
  · rw [Team.mask, hm]
    have hset : (t.m.set (carryDst c).val (t.correct y) (by omega))[(carrySrc c).val] = t.correct y := Vector.getElem_set_self _
    rw [hset]
    by_cases hx' : x < 1024
    · rw [correct_getLsbD t y x hx', decide_eq_true hx, hdead, hy, BitVec.getLsbD_or, BitVec.getLsbD_and, BitVec.getLsbD_not,
        maskOf_getLsbD _ _ x hx', decide_eq_true hx, decide_eq_true hx']
      cases hact : t.active x <;> simp_all [Team.active]
    · have hz : ∀ z : Mask, z.getLsbD x = false := fun z => BitVec.getLsbD_of_ge _ _ (by omega)
      simp [hz, Team.active]

theorem subb_val (a b : Word) (c : Bool) : wrap 64 ((a.toNat : ℤ) - b.toNat - b2n c) = (a - b - word (b2n c)).toNat := by
  have hc : b2n c ≤ 1 := by cases c <;> decide
  have ha := a.isLt
  have hb := b.isLt
  rw [wrap_eq, BitVec.toNat_sub, BitVec.toNat_sub, word_toNat]
  omega

/-! ## Packing and swizzling (R133) -/

theorem halves (w : IW) : 64 / (iwBits w / 2) = 2 * (64 / iwBits w) ∧ 2 * (64 / iwBits w) * (iwBits w / 2) ≤ 64 := by
  cases w <;> decide

theorem pack_runs (s : State) (w : IW) (d : VDst) (a b : LSrc) :
    Runs (.pack w d a b) s (LaneEffect 4 d (s.cur.srcFlags a ||| s.cur.srcFlags b) fun x v =>
      v = fromSubs (iwBits w / 2) (2 * (64 / iwBits w)) fun i =>
        if i < 64 / iwBits w then s.cur.sub (iwBits w) a x i else s.cur.sub (iwBits w) b x (i - 64 / iwBits w)) :=
  runs_teamStep (exec_pack w d a b s) (laneResult_effect s.cur 4 d _ _)

theorem unpack_runs (s : State) (w : IW) (d : VDst) (a b : LSrc) :
    Runs (.unpack w d a b) s (LaneEffect 4 d (s.cur.srcFlags a ||| s.cur.srcFlags b) fun x v =>
      v = perSub (iwBits w) fun i =>
        let c := (s.cur.laneSrc (iwBits w) b x).toNat
        let h := subEl (iwBits w / 2) (s.cur.laneSrc (iwBits w) a x) (c % 2 * (64 / iwBits w) + i)
        if c / 2 % 2 = 1 then wrap (iwBits w) (signed (iwBits w / 2) h) else h) :=
  runs_teamStep (exec_unpack w d a b s) (laneResult_effect s.cur 4 d _ _)

theorem swz_runs (s : State) (w : IW) (d : VDst) (a b : LSrc) :
    Runs (.swz w d a b) s (LaneEffect 4 d (s.cur.srcFlags a ||| s.cur.srcFlags b) fun x v =>
      v = perSub (iwBits w) fun i =>
        let c := subEl 8 (s.cur.laneSrc (iwBits w) b x) i
        if 128 ≤ c then 0 else s.cur.sub (iwBits w) a x (c % (64 / iwBits w))) :=
  runs_teamStep (exec_swz w d a b s) (laneResult_effect s.cur 4 d _ _)

theorem subs_perSub_of {w : ℕ} {f g : ℕ → ℕ} (hw : 64 / w * w ≤ 64) (h : ∀ j, f j % 2 ^ w = g j) : Subs w g (perSub w f) :=
  fun j hj => (subEl_fromSubs f hw hj).trans (h j)

theorem testBit7_of_byte {c : ℕ} (h : c < 256) : c.testBit 7 = decide (128 ≤ c) := by
  rw [Nat.testBit_eq_decide_div_mod_eq]
  exact decide_eq_decide.2 (by omega)

/-- The control bits of `unpack`, as the model reads them out of the number. -/
theorem word_bit0 (c : Word) : c.toNat % 2 = if c.getLsbD 0 then 1 else 0 := by
  rw [← BitVec.testBit_toNat, Nat.testBit_zero]
  rcases Nat.mod_two_eq_zero_or_one c.toNat with h | h <;> simp [h]

theorem word_bit1 (c : Word) : c.toNat / 2 % 2 = 1 ↔ c.getLsbD 1 = true := by
  rw [← BitVec.testBit_toNat, Nat.testBit_eq_decide_div_mod_eq, decide_eq_true_eq]

/-! ## O12 -/

/-- Settles O12: each instruction by its exact result, read bit by bit or element by element. -/
theorem laneFieldsCarriesMovesPacks : Obligations.LaneFieldsCarriesMovesPacks := by
  unfold Obligations.LaneFieldsCarriesMovesPacks
  refine ⟨⟨fun s w d a b => ⟨?_, ?_, ?_⟩, fun s c d a b => ⟨?_, ?_, ?_, ?_⟩⟩, fun s w d a b => ⟨?_, ?_, ?_⟩⟩
  · exact (bfe_runs s w d a b).laneValue fun x j hj k hk =>
      (subEl_perSub_testBit _ (iwBits_mul w).le hj hk).trans (bfeAt_testBit _ (sub_lt _ _ _ _ _) hk)
  · exact (bfi_runs s w d a b).laneValue fun x j hj k hk =>
      (subEl_perSub_testBit _ (iwBits_mul w).le hj hk).trans (bfiAt_testBit _ (subEl_lt _ _ _) hk)
  · refine lane2d_runs (exec_mad w none a b s) _ fun x j => ?_
    rw [Nat.add_mod_mod, Nat.mod_mod]
    rfl
  · refine laneCarry_chain (exec_addc c d a b s) fun x => ?_
    rw [word_toNat]
  · refine laneCarry_chain (exec_subb c d a b s) fun x => ?_
    rw [subb_val]
  · exact runs_teamStep (exec_sel c d a b s) (laneResult_effect s.cur 4 d _ _)
  · have h := laneWhole_runs (exec_mov d a s)
    rwa [BitVec.or_self] at h
  · refine (pack_runs s w d a b).laneValue fun x i hi => ?_
    obtain ⟨hn, hle⟩ := halves w
    exact subEl_fromSubs _ hle (hn ▸ hi)
  · refine (unpack_runs s w d a b).laneValue fun x => subs_perSub_of (iwBits_mul w).le fun i => ?_
    dsimp only
    rw [word_bit0, ite_mul, one_mul, zero_mul, apply_ite (· % 2 ^ iwBits w), wrap_mod,
      Nat.mod_eq_of_lt ((subEl_lt _ _ _).trans_le (Nat.pow_le_pow_right two_pos (Nat.div_le_self _ 2)))]
    exact if_congr (word_bit1 _) rfl rfl
  · refine (swz_runs s w d a b).laneValue fun x => subs_perSub_of (iwBits_mul w).le fun i => ?_
    dsimp only
    rw [testBit7_of_byte (subEl_lt 8 _ i)]
    by_cases h : 128 ≤ subEl 8 (s.cur.laneSrc (iwBits w) b x) i
    · simp [h]
    · simp [h, Nat.mod_eq_of_lt (sub_lt s.cur (iwBits w) a x _)]

end Sys2Proof
end

section
/-! PROOFS. The branches on a mask and the mask readers (R101, R103), and the obligation on them (O23). -/
namespace Sys2Proof
open Sys2Proof.Machine

/-! ## Masks by their lanes -/

/-- Bit `i` of lane word `k` is lane 32 k + i. -/
theorem laneWord_testBit (x : Mask) (k i : ℕ) : (laneWord x k).testBit i = (decide (i < 32) && x.getLsbD (32 * k + i)) := by
  have h := field_testBit x.toNat (32 * k) 32 i
  rwa [BitVec.testBit_toNat] at h

theorem summary_getLsbD (x : Mask) {k : ℕ} (hk : k < 32) : (summary x).getLsbD k = (laneWord x k != 0) := by
  have h := (foldl_bits (fun k => laneWord x k != 0) 32).2 k
  rw [summary, BitVec.getLsbD_ofNat, h, decide_eq_true hk]
  simp

/-- A mask has a lane set exactly when its summary is not zero (R101). -/
theorem summary_ne_zero_iff (x : Mask) : summary x ≠ 0 ↔ ∃ i, i < 1024 ∧ x.getLsbD i = true := by
  constructor
  · intro h
    by_contra hn
    refine h (BitVec.eq_of_getLsbD_eq fun k hk => ?_)
    have hw : laneWord x k = 0 := Nat.eq_of_testBit_eq fun i => by
      rw [laneWord_testBit, Nat.zero_testBit]
      by_cases hi : i < 32
      · have hx : x.getLsbD (32 * k + i) = false := Bool.eq_false_iff.2 fun e => hn ⟨_, by omega, e⟩
        rw [hx, Bool.and_false]
      · rw [decide_eq_false hi, Bool.false_and]
    rw [summary_getLsbD x hk, hw]
    exact BitVec.getLsbD_zero.symm
  · rintro ⟨i, hi, hx⟩ h
    have hs := summary_getLsbD x (k := i / 32) (by omega)
    have hb := laneWord_testBit x (i / 32) (i % 32)
    rw [Nat.div_add_mod, hx, decide_eq_true (Nat.mod_lt _ (by omega))] at hb
    rw [h, show (0 : BitVec 32).getLsbD (i / 32) = false from BitVec.getLsbD_zero] at hs
    have h0 : laneWord x (i / 32) = 0 := by simpa using hs.symm
    rw [h0, Nat.zero_testBit] at hb
    exact absurd hb (by decide)

/-- Lane words past the team's own are zero in a mask that the team keeps (R39). -/
theorem laneWord_past_end {t : Team} {x : Mask} (hx : x &&& t.full = x) {k : ℕ} (hk : t.lwords ≤ k) (hk32 : k < 32) :
    laneWord x k = 0 := Nat.eq_of_testBit_eq fun i => by
  rw [laneWord_testBit, Nat.zero_testBit]
  by_cases hi : i < 32
  · have hl : ¬ 32 * k + i < t.lanes := by unfold Team.lanes; omega
    rw [← hx, BitVec.getLsbD_and, full_getLsbD t _ (by omega), decide_eq_false hl, Bool.and_false, Bool.and_false]
  · rw [decide_eq_false hi, Bool.false_and]

/-! ## Branches on a mask (R101) -/

theorem exec_bany_branches (s : State) (a : MReg) (off : BitVec 9) : exec (.bany a off) s =
    branchIf (summary (s.cur.mask a) != 0) (Team.raise · 0) (s.cur.pc + 4 * off.signExtend 64) s := by
  rw [exec_bany, execBany, show (Team.raise · 0) = id from funext raise_zero]; rfl

theorem exec_bnone_branches (s : State) (a : MReg) (off : BitVec 9) : exec (.bnone a off) s =
    branchIf (summary (s.cur.mask a) == 0) (Team.raise · 0) (s.cur.pc + 4 * off.signExtend 64) s := by
  rw [exec_bnone, execBnone, show (Team.raise · 0) = id from funext raise_zero]; rfl

/-- A taken branch on a mask changes nothing but the PC. -/
theorem branchIf_jumps_only {i : Instr} {s : State} {c : Bool} {target : Word}
    (h : exec i s = branchIf c (Team.raise · 0) target s) (hc : c = true) : Jumps i s target fun u v => v = u :=
  jumpTo_jumps (branchIf_jumps h hc) (raise_zero s.cur) (congrArg (fun t : Team => { t with pc := s.cur.pc }) (raise_zero s.cur))
    ⟨rfl, rfl, rfl⟩

/-! ## Mask readers (R103) -/

theorem popCount_mask (n : ℕ) (x : Mask) : popCount n x.toNat = ((List.range n).filter fun i => x.getLsbD i).length := by
  have h := popCount_eq n x.toNat
  simpa only [BitVec.testBit_toNat] using h

theorem maskCount_eq (x : Mask) : maskCount x = ((List.range 1024).filter fun i => x.getLsbD i).length := by
  have h := popCount_mask 1024 x
  exact h

/-- The numbers below `n` with a property begin with the lowest that has it. -/
theorem head?_filter_range {n i : ℕ} {p : ℕ → Bool} (hin : i < n) (hi : p i = true) (hlow : ∀ j, j < i → ¬ p j = true) :
    ((List.range n).filter p).head? = some i := by
  have hr : List.range n = List.range i ++ i :: (List.range (n - i - 1)).map (i + 1 + ·) := by
    have e : n = i + 1 + (n - i - 1) := by omega
    conv_lhs => rw [e, List.range_add, List.range_succ]
    simp
  rw [hr, List.filter_append, List.filter_eq_nil_iff.2 fun j hj => hlow j (List.mem_range.1 hj), List.nil_append,
    List.filter_cons_of_pos hi]
  rfl

theorem maskFirst_of_head? {x : Mask} {o : Option ℕ} (h : (lanesOf x).head? = o) :
    maskFirst x = (o.map word).getD (BitVec.allOnes 64) := by
  unfold maskFirst
  cases hl : lanesOf x <;> rw [hl] at h <;> rw [← h] <;> rfl

theorem maskFirst_none {x : Mask} (h : ∀ i, i < 1024 → ¬ x.getLsbD i = true) : maskFirst x = BitVec.allOnes 64 := by
  have hall (n : ℕ) (hn : n ≤ 1024) : (List.range n).filter (fun i => x.getLsbD i) = [] :=
    List.filter_eq_nil_iff.2 fun i hi => h i ((List.mem_range.1 hi).trans_le hn)
  have hl : lanesOf x = [] := hall 1024 (Nat.le_refl _)
  exact maskFirst_of_head? (o := none) (congrArg List.head? hl)

/-- The lanes of a mask are listed in rising order, so the first of them is the lowest. -/
theorem maskFirst_lowest {x : Mask} {i : ℕ} (hi : x.getLsbD i = true) (hlow : ∀ j, j < i → ¬ x.getLsbD j = true) :
    maskFirst x = word i := by
  have hi' : i < 1024 := by
    by_contra h
    rw [BitVec.getLsbD_of_ge _ _ (by omega)] at hi
    exact absurd hi (by decide)
  have hl := head?_filter_range (p := fun i => x.getLsbD i) hi' hi hlow
  exact maskFirst_of_head? (o := some i) hl

theorem mreader_runs {i : Instr} {s : State} {d : SDst} {v : Team → Word}
    (h : exec i s = teamStep 4 (fun t => t.uniResult d (v t)) s) : Runs i s (UniEffect d 0 (v s.cur)) := by
  have e := uniResult_effect s.cur d 0 (v s.cur)
  rw [raise_zero] at e
  exact runs_teamStep h e

theorem mlw_runs (s : State) (d : SDst) (m : MReg) (k : Fin 32) :
    Runs (.mlw d m k) s (UniEffect d 0 (word (laneWord (s.cur.mask m) k))) :=
  mreader_runs (v := fun t => word (laneWord (t.mask m) k)) (exec_mlw d m k s)

/-- An opcode 0x38 with a lane word of 32 or above is refused. -/
theorem decodeWords_mlw_past_end {h : ℕ} (hop : h / 2 ^ 24 = 0x80 + 0x38) (himm : 32 ≤ h % 2 ^ 11) (full : Bool)
    (t : Option ℕ) (i : Instr) : decodeWords full h t ≠ .ok i := by
  have ho : opcodeOf h = 0x38 := by unfold opcodeOf; omega
  have hb : ¬ (h = 0 ∨ h = 4294967295) := by omega
  have h31 : h / 2147483648 % 2 = 1 := by omega
  have hu : (uniF h).op = 0x38 := ho
  have hd : decodeWords full h t = decodeUni h := by simp [decodeWords, hb, ho, h31, settOp, uniWide]
  rw [hd]
  intro e
  simp only [decodeUni, hu, decBind_eq_ok, fin?_eq_ok] at e
  obtain ⟨_, -, _, -, k, hk, -⟩ := e
  have := k.isLt
  simp only [UniF.imm11, uniF] at hk
  omega

/-! ## O23 -/

/-- Settles O23: a branch looks at the mask's summary, a reader gives its count, its lowest lane or one of its lane words. -/
theorem maskBranchesAndReaders : Obligations.MaskBranchesAndReaders := by
  unfold Obligations.MaskBranchesAndReaders
  intro s a r k off
  dsimp only
  have hany := summary_ne_zero_iff (s.cur.mask a)
  have hbany := exec_bany_branches s a off
  have hbnone := exec_bnone_branches s a off
  refine ⟨fun h => ⟨?_, ?_⟩, fun h => ⟨?_, ?_⟩, ?_, ?_, ?_, fun hok hk ha => ?_, fun full h t i => ?_⟩
  · exact branchIf_jumps_only hbany (bne_iff_ne.2 (hany.2 h))
  · exact branchIf_passes hbnone (beq_eq_false_iff_ne.2 (hany.2 h))
  · exact branchIf_jumps_only hbnone (beq_iff_eq.2 (not_not.1 (mt hany.1 h)))
  · exact branchIf_passes hbany (bne_eq_false_iff_eq.2 (not_not.1 (mt hany.1 h)))
  · rw [← maskCount_eq]
    exact mreader_runs (v := fun t => word (maskCount (t.mask a))) (exec_mcnt r a s)
  · exact (mreader_runs (v := fun t => maskFirst (t.mask a)) (exec_mfirst r a s)).imp fun _ _ e =>
      ⟨_, e, maskFirst_none, fun x hx hlow => maskFirst_lowest hx hlow⟩
  · refine (mlw_runs s r a k).imp fun _ _ e => ⟨_, e, fun i hi => ?_⟩
    rw [word_getLsbD, decide_eq_true hi, Bool.true_and, laneWord_testBit]
  · have hz : laneWord (s.cur.mask a) k = 0 := laneWord_past_end (hok ⟨a.val, ha⟩).1 hk k.isLt
    have h := mlw_runs s r a k
    rwa [hz] at h
  · exact fun hop himm => decodeWords_mlw_past_end hop himm full t i

end Sys2Proof
end

section
/-! PROOFS. Fences, waits on a class and waits on a queue (R104, R105, R147, R148), and the obligation on them (O28). -/
namespace Sys2Proof
open Sys2Proof.Machine

/-! ## Fences (R147, R148) -/

theorem passes_advance (t : Team) (n : ℕ) : Passes n 0 t (t.advance n) :=
  ⟨raised_of_raise _ _ _ (congrArg Team.fflags (raise_zero t)).symm (congrArg Team.pending (raise_zero t)).symm, rfl⟩

/-- With nothing outstanding a fence passes at once, and a release marks the writes after it. -/
theorem exec_fence_calm {s : State} (h : Calm s) (o : FenceOrd) (sc : Scope) : exec (.fence o sc) s =
    .next (s.onCur fun t => { t with relFence := t.relFence || o != FenceOrd.acq }.advance 4) := by
  have hpass (rel : Bool) : (if (s.fenceTry rel sc).2 then Host.Outcome.next ((s.fenceTry rel sc).1.onCur fun t => t.advance 4)
      else stallDrain s) = .next (s.onCur fun t => { t with relFence := t.relFence || rel }.advance 4) := by
    have haccs : { s.cur with accs := [], relFence := s.cur.relFence || rel } = { s.cur with relFence := s.cur.relFence || rel } := by
      rw [← h.accs]
    rw [fenceTry_calm h.accs (h.comb _ _) h.series, haccs]
    rfl
  rw [exec_fence]
  cases o with
  | acq => exact hpass false
  | rel => exact hpass true
  | ar => exact hpass true

/-! ## Waits (R104, R105) -/

/-- The end of a tenure after a change that leaves the team's name and place. -/
theorem endTenure_over_onCur {f : Team → Team} (s : State) (htid : (f s.cur).tid = s.cur.tid)
    (hcluster : (f s.cur).cluster = s.cur.cluster) (hcore : (f s.cur).core = s.cur.core) : TenureOver s (s.onCur f).endTenure := by
  obtain ⟨o, -⟩ := endTenure_over (s.onCur f)
  have l := o.leads
  have e : (s.onCur f).cur = f s.cur := rfl
  rw [e, htid, hcluster, hcore] at l
  exact ⟨rfl, rfl, rfl, o.clusters, o.cores, l, fun _ => rfl, fun _ _ => rfl⟩

theorem TenureOver.setSt {s t : State} (h : TenureOver s t) (st : TeamSt) : TenureOver s (t.setSt st) :=
  ⟨h.latches, h.tenure, congrArg (State.setSt · st) h.rest, h.clusters, h.cores, h.leads, h.bytes⟩

/-- What a wait leaves whose condition does not hold: the team past it, its tenure over. -/
theorem exec_wait_ends {s : State} {c : WaitClass} {n : BitVec 8} (h : n.toNat < s.outstanding s.cur c) :
    ∃ t, exec (.wait c n) s = .next t ∧ TenureOver s t ∧ t.cur = { s.cur with
      pc := s.cur.pc + 4, fvalid := 0, tenure := .none, idleSince := s.ck, st := .waitClass c n.toNat } := by
  refine ⟨_, ?_, (endTenure_over_onCur (f := (Team.advance · 4)) s rfl rfl rfl).setSt (.waitClass c n.toNat), ?_⟩
  · rw [exec_wait, execWait, if_neg (by omega)]
  · exact congrArg (fun t : Team => { t with st := .waitClass c n.toNat }) (endTenure_over (s.onCur (Team.advance · 4))).2

theorem exec_waitq_passes {s : State} {a : USrc} {q : Fin 4} (h : (s.cur.uniSrc a).toNat ≤ s.cur.qseq[q].toNat) :
    exec (.waitq a q) s = teamStep 4 (Team.raise · (s.cur.uniFlags a)) s := by
  rw [exec_waitq]
  unfold execWaitq
  exact if_pos h

/-! ## Queue fences (R257) -/

/-- A vector that takes some of its elements from another, element by element. -/
theorem getElem_merge {α : Type} (c : Bool) (d : Fin 4 → Bool) (x y : Vector α 4) (p : Fin 4) :
    (if c = true then Vector.ofFn fun p => if d p = true then x[p] else y[p] else y)[p] = if (c && d p) = true then x[p] else y[p] := by
  cases c
  · rfl
  · simp only [if_true, Bool.true_and, Fin.getElem_fin, Vector.getElem_ofFn]

/-! ## O28 -/

/-- Settles O28: a fence with nothing outstanding and a wait whose condition holds only pass, and one whose condition does not
hold is the end of the tenure. -/
theorem fencesAndWaits : Obligations.FencesAndWaits := by
  unfold Obligations.FencesAndWaits
  refine ⟨fun s o sc qs c n => ⟨fun h => ?_, ?_, fun h => ?_, exec_wait_ends⟩, fun s a q h => ?_⟩
  · exact ⟨_, exec_fence_calm h o sc, rfl, passes_advance s.cur 4, onlyTeam_onCur s _⟩
  · refine runs_teamStep (exec_qfence qs s) ⟨rfl, fun q p => ?_⟩
    simp only [advance_qfence, Fin.getElem_fin, Vector.getElem_ofFn]
    exact getElem_merge _ (fun p => qs.getLsbD p.val) _ _ p
  · refine ⟨_, ?_, onlyTeam_onCur s (Team.advance · 4), passes_advance s.cur 4⟩
    rw [exec_wait, execWait, if_pos h]
  · exact runs_teamStep (exec_waitq_passes h) ⟨raised_of_raise _ _ _ rfl rfl, rfl⟩

end Sys2Proof
end

section
/-! PROOFS. The last team of a group leaves while a notice of the group stands unacknowledged (R178, R285, R287): a state in which `exit`
writes memory, against the obligation (O34). -/
namespace Sys2Proof
open Sys2Proof.Machine

/-! ## A group with a notice that it has not acknowledged -/

/-- A device whose group 1 has one team, nothing in its estate, and a notice of group 2, whose barrier is at byte 8 of the scratchpad
of cluster 0. -/
def notified : State :=
  let s := State.reset.withFetchWord 32 nopWord
  let s := s.modGroup 1 fun g => { g with kicks := [⟨7, 2, 0, 8, true, none⟩] }
  { s with groups := s.groups ++ [{ Group.empty with handle := 2, launch := 1 }] }

/-- A byte of the scratchpad of cluster 0 in the state that an outcome gives. -/
def spadByteOf (off : ℕ) : Out → Option Byte
  | .next t => some (t.spadByte 0 off)
  | _ => none

theorem notified_calm : calm notified = true := by decide +kernel

theorem notified_holds :
    notified.cur.escort = none ∧ (notified.cluster notified.cur.cluster).copies = [] ∧ notified.spadByte 0 15 = 0 := by
  decide +kernel

/-- The end of group 1 makes a bereaved arrival on the barrier of group 2: bit 63 of the barrier word is set. -/
theorem exec_exit_notified : spadByteOf 15 (exec .exit notified) = some 0x80 := by decide +kernel

/-- Refutes O34: where the last team of a group exits, the group ends, and each sender whose notice it has not acknowledged is told by
an arrival on its barrier (R178). The statement keeps every byte of memory whenever a team without pending copies exits; in
`notified` the byte with bit 63 of the sender's barrier word changes. -/
theorem not_emitsLaunchesAndExit : ¬ Obligations.EmitsLaunchesAndExit := by
  unfold Obligations.EmitsLaunchesAndExit
  rintro ⟨-, H⟩
  obtain ⟨hescort, hcopies, hbyte⟩ := notified_holds
  obtain ⟨-, -, -, -, hexit, -⟩ := H notified none .zero 0 (calm_of notified_calm hescort)
  obtain ⟨t, hrun, -, -, hbytes, -⟩ := hexit fun k hk => absurd hk (hcopies ▸ List.not_mem_nil)
  have hnew := exec_exit_notified
  rw [hrun, spadByteOf, hbytes.2 0 15, hbyte] at hnew
  exact absurd hnew (by decide)

end Sys2Proof
end

section
/-! PROOFS. A kill by a supervisor of a team whose group the device does not have (R327, R332): a state in which the team stays, against
the obligation (O49). -/
namespace Sys2Proof
open Sys2Proof.Machine

/-! ## A stopped team without a group -/

/-- A device whose one team is stopped and names group 5, which is not among the device's groups. -/
def groupless : State := (State.reset.withFetchWord 32 nopWord).onCur fun t => { t with group := 5, st := .saved 1 }

/-- The command word that kills team 0 of group 5. -/
def killWord : Word := 0x5000000000000005

/-- The groups of the teams in the state that an outcome gives. -/
def teamGroupsOf : Out → List ℕ
  | .next t => t.teams.map Team.group
  | _ => []

theorem groupless_still : still groupless = true := by decide +kernel

theorem groupless_named : named groupless = true := by decide +kernel

theorem groupless_holds : groupless.ctxbase ≠ 0 ∧ groupless.cur.tid ≠ 0 ∧ groupless.cur.group = 5 ∧ groupless.cur.index = 0 ∧
    groupless.cur.st = .saved 1 ∧ groupless.cur.resume = false ∧ groupless.others = [] ∧ (groupless.group 5).ctx = 0 ∧
    (groupless.group 5).st = .alive := by
  decide +kernel

theorem killWord_fields : bits killWord 60 4 = 5 ∧ bits killWord 36 24 = 0 ∧ bits killWord 0 32 = 5 ∧ bits killWord 32 4 = 0 := by
  decide

/-- The kill marks no group, so the team is never let go. -/
theorem exec_tcmdKill_groupless : teamGroupsOf (exec (.tcmdKill (.gp 0) 0 killWord 0) groupless) = [5] := by decide +kernel

/-- Refutes O49: a name of no group reads as a group that is alive, so the statement's hypotheses admit a stopped team whose group the
device does not have. Its kill finds no group to mark as killed, and the team stays. -/
theorem not_supervisorCommands : ¬ Obligations.SupervisorCommands := by
  unfold Obligations.SupervisorCommands
  intro H
  obtain ⟨hbase, htid, hgroup, hindex, hst, hresume, hothers, hctx, halive⟩ := groupless_holds
  obtain ⟨hop, hres, hnamed, hteam⟩ := killWord_fields
  have hteams : ∀ v ∈ groupless.teams, v = groupless.cur := by
    intro v hv
    rw [State.teams, if_neg htid, hothers] at hv
    exact List.mem_singleton.1 hv
  obtain ⟨-, h⟩ := H groupless (.gp 0) 0 killWord 0 groupless.cur (still_of groupless_still) (named_of groupless_named) (by decide) hbase
    (by rw [hop]; decide) (by rw [hop]; decide)
  obtain ⟨-, h, -⟩ := h ⟨0, rfl, .inl rfl⟩ hres (fun _ => rfl) (fun h4 => absurd (hop.symm.trans h4) (by decide))
  obtain ⟨-, h⟩ := h (cur_mem htid) ⟨hgroup.trans hnamed.symm, hindex.trans hteam.symm, by rw [hgroup, hctx]⟩
    (fun v hv hne => absurd (hteams v hv) hne) hst hresume
  obtain ⟨t, hrun, -, hgone⟩ := h hop (by rw [hgroup]; exact halive)
  rw [hop] at hrun
  have hleft : t.teams.map Team.group = [5] := (congrArg teamGroupsOf hrun).symm.trans exec_tcmdKill_groupless
  obtain ⟨v, hv, hvgroup⟩ := List.mem_map.1 (hleft ▸ List.mem_singleton_self 5 : 5 ∈ t.teams.map Team.group)
  exact hgone v hv (hvgroup.trans hgroup.symm)

end Sys2Proof
end

section
/-! PROOFS. The teams of a device by name: a team that is there, and what a change of one leaves of the others. -/
namespace Sys2Proof
open Sys2Proof.Machine

/-! ## Teams by name -/

theorem team_eq_cur {s : State} {tid : ℕ} (h : s.cur.tid = tid) : s.team tid = s.cur := if_pos h

theorem team_eq_find {s : State} {tid : ℕ} (h : s.cur.tid ≠ tid) :
    s.team tid = (s.others.find? fun t => t.tid == tid).getD .empty := if_neg h

/-- A name reads alike in two states with the same teams. -/
theorem team_congr {s t : State} (hcur : t.cur = s.cur) (hothers : t.others = s.others) (tid : ℕ) : t.team tid = s.team tid := by
  rw [State.team, State.team, hcur, hothers]

theorem mem_teams {s : State} {u : Team} : u ∈ s.teams ↔ (s.cur.tid ≠ 0 ∧ u = s.cur) ∨ u ∈ s.others := by
  unfold State.teams
  split <;> simp_all

/-- A team of the device has a name, and the name finds it. -/
theorem team_of_mem {s : State} {u : Team} (hn : Named s) (hu : u ∈ s.teams) : u.tid ≠ 0 ∧ s.team u.tid = u := by
  obtain ⟨hnodup, hpos⟩ := hn
  rcases mem_teams.1 hu with ⟨h0, rfl⟩ | ho
  · exact ⟨h0, team_eq_cur rfl⟩
  have h0 := hpos u ho
  have hne : s.cur.tid ≠ u.tid := by
    intro e
    rw [State.teams, if_neg (e ▸ h0), List.map_cons, List.nodup_cons] at hnodup
    exact hnodup.1 (e ▸ List.mem_map_of_mem ho)
  have hfind : s.others.find? (fun t => t.tid == u.tid) = some u := by
    have hnodup' : (s.others.map Team.tid).Nodup := by
      unfold State.teams at hnodup
      split at hnodup
      · exact hnodup
      · exact (List.nodup_cons.1 hnodup).2
    cases hf : s.others.find? fun t => t.tid == u.tid with
    | none => exact absurd (beq_self_eq_true u.tid) (List.find?_eq_none.1 hf u ho)
    | some v =>
      have hv : v.tid = u.tid := by simpa using List.find?_some hf
      rw [List.inj_on_of_nodup_map hnodup' (List.mem_of_find?_eq_some hf) ho hv]
  exact ⟨h0, by rw [team_eq_find hne, hfind]; rfl⟩

theorem find_updWhere_self {tid : ℕ} {f : Team → Team} (hf : ∀ t, (f t).tid = t.tid) (l : List Team) :
    (updWhere (fun t => t.tid == tid) f l).find? (fun t => t.tid == tid) = (l.find? fun t => t.tid == tid).map f := by
  induction l with
  | nil => rfl
  | cons a l ih =>
    by_cases h : a.tid = tid
    · simp [updWhere, h, hf]
    · simpa [updWhere, h] using ih

theorem find_updWhere_other {tid k : ℕ} (hk : k ≠ tid) {f : Team → Team} (hf : ∀ t, (f t).tid = t.tid) (l : List Team) :
    (updWhere (fun t => t.tid == tid) f l).find? (fun t => t.tid == k) = l.find? fun t => t.tid == k := by
  induction l with
  | nil => rfl
  | cons a l ih =>
    by_cases h : a.tid = tid
    · have hak : a.tid ≠ k := fun e => hk (e.symm.trans h)
      have hfak : (f a).tid ≠ k := by rw [hf]; exact hak
      simp only [updWhere, beq_iff_eq] at ih ⊢
      simp only [List.map_cons, h, if_true, List.find?_cons_of_neg, beq_iff_eq, hfak, hk.symm, not_false_eq_true]
      exact ih
    · simp only [updWhere, List.map_cons, beq_iff_eq, h, if_false, List.find?_cons]
      split
      · rfl
      · simpa [updWhere] using ih

/-- The changed team, where the name finds one. -/
theorem team_modTeam_self {s : State} {tid : ℕ} {f : Team → Team} (hf : ∀ t, (f t).tid = t.tid) (h0 : tid ≠ 0)
    (ht : (s.team tid).tid = tid) : (s.modTeam tid f).team tid = f (s.team tid) := by
  by_cases hc : s.cur.tid = tid
  · rw [team_eq_cur hc, State.modTeam, if_pos hc]
    exact team_eq_cur ((hf _).trans hc)
  · rw [team_eq_find hc] at ht ⊢
    rw [State.modTeam, if_neg hc, team_eq_find (s := { s with others := updWhere (fun t => t.tid == tid) f s.others }) hc,
      find_updWhere_self hf]
    cases hfind : s.others.find? fun t => t.tid == tid with
    | none => rw [hfind] at ht; exact absurd ht.symm h0
    | some v => rfl

theorem team_modTeam_other {s : State} {tid k : ℕ} (hk : k ≠ tid) {f : Team → Team} (hf : ∀ t, (f t).tid = t.tid) :
    (s.modTeam tid f).team k = s.team k := by
  by_cases hc : s.cur.tid = tid
  · have hck : s.cur.tid ≠ k := fun e => hk (e.symm.trans hc)
    rw [State.modTeam, if_pos hc, team_eq_find hck, team_eq_find (s := { s with cur := f s.cur }) (by rwa [hf])]
  · rw [State.modTeam, if_neg hc]
    by_cases hck : s.cur.tid = k
    · rw [team_eq_cur hck]
      exact team_eq_cur hck
    · rw [team_eq_find hck, team_eq_find (s := { s with others := updWhere (fun t => t.tid == tid) f s.others }) hck,
        find_updWhere_other hk hf]

theorem sameBytes_of_mem {s t : State} (hhbm : t.hbm = s.hbm) (hspad : t.spad = s.spad) : SameBytes s t :=
  ⟨fun pa => by rw [State.hbmByte, State.hbmByte, hhbm], fun c off => by rw [State.spadByte, State.spadByte, hspad]⟩

end Sys2Proof
end

section
/-! PROOFS. Stores of a device on which nobody watches memory and no replicated page has an update on its way: they wake no team and
leave every team as it was (R264, R313). -/
namespace Sys2Proof
open Sys2Proof.Machine

/-! ## Nobody watches -/

/-- No team waits on a word, and no die has an update on its way. -/
structure Unwatched (s : State) : Prop where
  deaf : ∀ t ∈ s.teams, t.listening = none
  series : ∀ d, (s.die d).series = []

/-- The teams and the dies are as they were. -/
structure KeepsTeams (s t : State) : Prop where
  cur : t.cur = s.cur
  others : t.others = s.others
  dies : t.dies = s.dies

theorem KeepsTeams.refl (s : State) : KeepsTeams s s := ⟨rfl, rfl, rfl⟩

theorem KeepsTeams.trans {s t u : State} (h : KeepsTeams s t) (h' : KeepsTeams t u) : KeepsTeams s u :=
  ⟨h'.cur.trans h.cur, h'.others.trans h.others, h'.dies.trans h.dies⟩

theorem KeepsTeams.unwatched {s t : State} (h : KeepsTeams s t) (hs : Unwatched s) : Unwatched t := by
  refine ⟨fun u hu => hs.deaf u ?_, fun d => ?_⟩
  · rwa [State.teams, h.cur, h.others] at hu
  · rw [State.die, h.dies]; exact hs.series d

/-- A loop whose every step keeps the teams keeps them. -/
theorem KeepsTeams.foldl {α : Type} {f : State → α → State} (hf : ∀ s a, Unwatched s → KeepsTeams s (f s a)) (l : List α) {s : State}
    (hs : Unwatched s) : KeepsTeams s (l.foldl f s) := by
  induction l generalizing s with
  | nil => exact .refl s
  | cons a l ih => exact (hf s a hs).trans (ih ((hf s a hs).unwatched hs))

theorem listening_of_not_word {t : Team} (h : ∀ e, t.escort = some e → ∀ r, e.what ≠ .word r) : t.listening = none := by
  unfold Team.listening
  cases he : t.escort with
  | none => rfl
  | some e =>
    dsimp only
    cases hw : e.what with
    | word r => exact absurd hw (h e he r)
    | _ => rfl

theorem wakeAt_unwatched {s : State} (h : ∀ t ∈ s.teams, t.listening = none) (tgt : Target) (n : ℕ) : s.wakeAt tgt n = s := by
  have hw : s.waitersAt tgt n = [] := List.filterMap_eq_nil_iff.2 fun t ht => by rw [h t ht]
  unfold State.wakeAt
  dsimp only
  rw [hw]
  rfl

theorem catchUp_unwatched {s : State} (h : Unwatched s) (home die : ℕ) : s.catchUp home die = s := by
  rw [State.catchUp, h.series home]; rfl

/-! ## Stores -/

theorem keepsTeams_healAt (s : State) (tgt : Target) (n : ℕ) : KeepsTeams s (s.healAt tgt n) := by
  unfold State.healAt; split <;> exact ⟨rfl, rfl, rfl⟩

theorem keepsTeams_storeAt (s : State) (tgt : Target) (n v : ℕ) : KeepsTeams s (s.storeAt tgt n v) := by
  refine KeepsTeams.trans ?_ (keepsTeams_healAt _ _ _)
  cases tgt <;> exact ⟨rfl, rfl, rfl⟩

theorem keepsTeams_store {s : State} (h : Unwatched s) (tgt : Target) (n v : ℕ) : KeepsTeams s (s.store tgt n v) := by
  have hk := keepsTeams_storeAt s tgt n v
  rw [State.store, wakeAt_unwatched (hk.unwatched h).deaf]
  exact hk

theorem keepsTeams_markPoison (s : State) (p : Poison) : KeepsTeams s (s.markPoison p) := by
  unfold State.markPoison; split <;> exact ⟨rfl, rfl, rfl⟩

theorem keepsTeams_applyBytes {s : State} (h : Unwatched s) (home die : ℕ) {m : Multi} (hm : m.part = none) :
    KeepsTeams s (s.applyBytes home die m).1 := by
  unfold State.applyBytes
  simp only [hm]
  split
  · exact KeepsTeams.trans (t := s.hbmWrite _ _) ⟨rfl, rfl, rfl⟩ (keepsTeams_healAt _ _ _)
  · refine KeepsTeams.trans (KeepsTeams.foldl (fun s p _ => ?_) _ h) ⟨rfl, rfl, rfl⟩
    split
    · exact keepsTeams_markPoison _ _
    · exact .refl s

theorem keepsTeams_ctxStore {s : State} (h : Unwatched s) (ctx : ℕ) (pl : Place) (n v : ℕ) :
    KeepsTeams s (s.ctxStore ctx pl n v) := by
  unfold State.ctxStore
  split
  · refine KeepsTeams.foldl (fun s d hs => ?_) _ h
    dsimp only
    rw [catchUp_unwatched hs]
    have hk (home : ℕ) {m : Multi} (hm : m.part = none) (tgt : Target) : KeepsTeams s ((s.applyBytes home d m).1.wakeAt tgt n) := by
      have hk := keepsTeams_applyBytes hs home d hm
      rwa [wakeAt_unwatched (hk.unwatched hs).deaf]
    exact hk _ rfl _
  · exact keepsTeams_store h _ _ _

theorem keepsTeams_ctxPut {s : State} (h : Unwatched s) (ctx va : ℕ) (l : List Byte) : KeepsTeams s (s.ctxPut ctx va l) := by
  refine KeepsTeams.foldl (fun s i hs => ?_) _ h
  split
  · exact keepsTeams_ctxStore hs _ _ _ _
  · exact .refl s

/-! ## Appending a record (R313) -/

theorem keepsTeams_writeRecord {s s' : State} (h : Unwatched s) {l : Launch} {g : Stage} {c seq : ℕ} {bytes : List Byte}
    (hw : s.writeRecord l g c seq bytes = .ok s') : KeepsTeams s s' := by
  unfold State.writeRecord at hw
  dsimp only at hw
  split at hw
  · cases hw
  · cases hw
    exact KeepsTeams.foldl (fun s a hs => keepsTeams_ctxPut hs _ _ _) _ h

theorem keepsTeams_appendRecord {s s' : State} (h : Unwatched s) {lh k c : ℕ} {bytes : List Byte} {owner : Option ℕ}
    (ha : s.appendRecord lh k c bytes owner = .ok s') : KeepsTeams s s' := by
  unfold State.appendRecord at ha
  dsimp only at ha
  split at ha
  · cases ha
  · rename_i s1 hw
    cases ha
    exact (keepsTeams_writeRecord h hw).trans ⟨rfl, rfl, rfl⟩

theorem keepsTeams_tryEmit {s s' : State} (h : Unwatched s) {tid : ℕ} {k : Fin 4} {off len : ℕ}
    (he : s.tryEmit tid k off len = .done s') : KeepsTeams s s' := by
  unfold State.tryEmit at he
  dsimp only at he
  split at he
  · cases he
  · split at he
    · cases he
    · split at he
      · rename_i ha
        cases he
        exact keepsTeams_appendRecord h ha
      · cases he
      · cases he

end Sys2Proof
end

section
/-! PROOFS. Parked instructions whose condition has come (R112, R167, R177, R192), and the obligation on them (O41). -/
namespace Sys2Proof
open Sys2Proof.Machine

/-! ## Completing a parked instruction -/

theorem setSDst_writes (t : Team) (d : SDst) (v : Word) :
    (∀ r, d = some r → (t.setSDst d v).s[r] = v ∧ (t.setSDst d v).deadS.getLsbD r.val = false) ∧
    ∀ r : SReg, d ≠ some r → (t.setSDst d v).s[r] = t.s[r] ∧ (t.setSDst d v).deadS.getLsbD r.val = t.deadS.getLsbD r.val := by
  have h := uniResult_effect t d 0 v
  rw [raise_zero] at h
  exact ⟨h.dest, h.others⟩

/-- The frame of a completed wait as it sets out with its reply. -/
def replyEscort (arrived : ℕ) (e : Escort) (dst : SDst) : Escort :=
  { e with
    status := 1, liveS := e.liveS ||| (match dst with | some r => 1#32 <<< r.val | none => 0)
    place := if e.place = .watched then .watched else .reply, arrived := arrived }

/-- The result of a completed wait in its team: the destination, the PC past the instruction, the latches. -/
def waitResult (e : Escort) (dst : SDst) (v : Word) (push : Bool) (u : Team) : Team :=
  { u with
    s := (u.setSDst dst v).s, deadS := (u.setSDst dst v).deadS, pc := u.pc + word e.len
    fu := if push then #v[v, u.fu[0], u.fu[1], u.fu[2]] else u.fu }

/-- What `completeWait` makes of its team, whose frame `e` waited in place or at the unit. -/
def waitOver (ck arrived : ℕ) (e : Escort) (dst : SDst) (v : Word) (push : Bool) (u : Team) : Team :=
  if e.eo then { waitResult e dst v push u with escort := none, st := .ready, readyAt := ck, readyPrev := false }
  else { waitResult e dst v push u with escort := some (replyEscort arrived e dst) }

theorem waitOver_completed (ck arrived : ℕ) (e : Escort) (dst : SDst) (v : Word) (push : Bool) (u : Team) :
    Completed e dst v u { waitOver ck arrived e dst v push u with fu := u.fu } := by
  obtain ⟨hdest, hothers⟩ := setSDst_writes u dst v
  unfold waitOver
  split
  · rename_i he
    exact ⟨rfl, hdest, hothers, fun h => absurd (he.symm.trans h) (by decide), fun _ => ⟨rfl, rfl⟩, rfl⟩
  · rename_i he
    exact ⟨rfl, hdest, hothers, fun _ => ⟨rfl, _, rfl, rfl, rfl⟩, fun h => absurd h he, rfl⟩

theorem waitOver_fu (ck arrived : ℕ) (e : Escort) (dst : SDst) (v : Word) (push : Bool) (u : Team) :
    (waitOver ck arrived e dst v push u).fu = if push then #v[v, u.fu[0], u.fu[1], u.fu[2]] else u.fu := by
  unfold waitOver; split <;> rfl

theorem waitOver_tid (ck arrived : ℕ) (e : Escort) (dst : SDst) (v : Word) (push : Bool) (u : Team) :
    (waitOver ck arrived e dst v push u).tid = u.tid := by
  unfold waitOver; split <;> rfl

/-- The change of a team that `completeWait` is. -/
def endWait (ck arrived : ℕ) (dst : SDst) (v : Word) (push : Bool) (t : Team) : Team :=
  match t.escort with
  | none => t
  | some e => waitOver ck arrived e dst v push t

theorem endWait_tid (ck arrived : ℕ) (dst : SDst) (v : Word) (push : Bool) (t : Team) :
    (endWait ck arrived dst v push t).tid = t.tid := by
  unfold endWait
  split
  · rfl
  · exact waitOver_tid _ _ _ _ _ _ _

theorem completeWait_eq_modTeam (s : State) (tid : ℕ) (dst : SDst) (v : Word) (push : Bool) :
    s.completeWait tid dst v push = s.modTeam tid (endWait s.ck s.events dst v push) := by
  unfold State.completeWait
  congr 1
  funext t
  unfold endWait
  cases t.escort with
  | none => rfl
  | some e => cases dst <;> cases push <;> rfl

/-- What an instruction that completes after its wait leaves: its team done, `u` before it but for the counts of its task queues, and
every other team as it was. -/
structure WaitDone (s t : State) (u : Team) (e : Escort) (dst : SDst) (v : Word) (push : Bool) : Prop where
  completed : Completed e dst v u { t.team u.tid with qissued := u.qissued, qfail := u.qfail, fu := u.fu }
  latches : (t.team u.tid).fu = if push then #v[v, u.fu[0], u.fu[1], u.fu[2]] else u.fu
  others : ∀ k, k ≠ u.tid → t.team k = s.team k

theorem completeWait_done {s m : State} {u : Team} {e : Escort} (h0 : u.tid ≠ 0) (he : u.escort = some e) {qi qf : Vector Word 4}
    (hm : m.team u.tid = { u with qissued := qi, qfail := qf }) (ho : ∀ k, k ≠ u.tid → m.team k = s.team k)
    (dst : SDst) (v : Word) (push : Bool) : WaitDone s (m.completeWait u.tid dst v push) u e dst v push ∧
      ((m.completeWait u.tid dst v push).team u.tid).qissued = qi := by
  have hteam : (m.completeWait u.tid dst v push).team u.tid =
      waitOver m.ck m.events e dst v push { u with qissued := qi, qfail := qf } := by
    rw [completeWait_eq_modTeam, team_modTeam_self (endWait_tid _ _ _ _ _) h0 (by rw [hm]), hm]
    unfold endWait
    rw [he]
  have hc := waitOver_completed m.ck m.events e dst v push { u with qissued := qi, qfail := qf }
  have hframe := hc.frame
  refine ⟨⟨?_, ?_, fun k hk => ?_⟩, ?_⟩
  · rw [hteam]
    exact ⟨hc.pc, hc.dest, hc.others, hc.away, hc.here,
      congrArg (fun t : Team => { t with qissued := u.qissued, qfail := u.qfail }) hframe⟩
  · rw [hteam]
    exact waitOver_fu _ _ _ _ _ _ _
  · rw [completeWait_eq_modTeam, team_modTeam_other hk (endWait_tid _ _ _ _ _)]
    exact ho k hk
  · rw [hteam]
    exact congrArg Team.qissued hframe

theorem completeWait_frame (s : State) (tid : ℕ) (dst : SDst) (v : Word) (push : Bool) :
    s.completeWait tid dst v push = { s with
      cur := (s.completeWait tid dst v push).cur, others := (s.completeWait tid dst v push).others } := by
  rw [completeWait_eq_modTeam, State.modTeam]
  split <;> rfl

/-! ## The parked instructions -/

section
variable {s : State} {u : Team} {e : Escort}

/-- What is given of a parked team: its frame waits at the unit, or in place, and nothing of it or of the device is on its way. -/
structure Waits (s : State) (u : Team) (e : Escort) : Prop where
  tid : u.tid ≠ 0
  team : s.team u.tid = u
  escort : u.escort = some e
  status : e.status = 0
  place : e.place = .unit ∨ e.eo = true

theorem Waits.atUnit (h : Waits s u e) : e.atUnit = true := by
  simp [Escort.atUnit, h.status, h.place]

theorem Waits.listens (h : Waits s u e) : e.listens = true := by
  rcases h.place with hp | hp <;> simp [Escort.listens, h.status, hp]

theorem Waits.done (h : Waits s u e) {m : State} (hcur : m.cur = s.cur) (hothers : m.others = s.others) (dst : SDst) (v : Word)
    (push : Bool) : WaitDone s (m.tickEvent.completeWait u.tid dst v push) u e dst v push :=
  (completeWait_done h.tid h.escort (m := m.tickEvent) (qi := u.qissued) (qf := u.qfail) ((team_congr hcur hothers _).trans h.team)
    (fun k _ => team_congr hcur hothers k) dst v push).1

/-- A parked `lkacq` whose timeout has run out (R167). -/
theorem exec_lkacqTimeout_out (h : Waits s u e) {r : WordReq} {n : ℕ} {orph once : Bool} {tgt : Target} (hw : e.what = .word r)
    (hop : r.op = .lkacq none (some n) orph once) (htgt : r.tgt = some tgt) (hacted : r.acted = true)
    (hkind : ∀ home, r.kind ≠ .replicated home) (hck : r.issued + n ≤ s.ck) :
    exec (.lkacqTimeout u.tid) s = .next (s.tickEvent.completeWait u.tid r.dst (word (s.readAt tgt 8)) false) := by
  have hhome : r.home = none := by
    unfold WordReq.home
    split
    · exact absurd ‹_› (hkind _)
    · rfl
  have hat : s.wordAt u.tid r = some tgt := by
    unfold State.wordAt
    rw [hhome, htgt]
    split <;> simp_all
  have hprep : s.prepareHome u.tid r = s := by
    unfold State.prepareHome
    rw [hhome]
  rw [exec_lkacqTimeout, execLkacqTimeout, h.team, h.escort]
  simp only [hw, hop, hat, hprep]
  exact if_pos ⟨h.listens, hacted, hck⟩

/-- A parked `emit` of a launch that is ending (R112). -/
theorem retryEmit_ending (h : Waits s u e) {k : Fin 4} {off len : ℕ} {d : SDst} (hw : e.what = .emit k off len d)
    (hheld : s.appendHeld u.tid = false) (hend : (s.launch (s.group u.group).launch).ending = true) :
    exec (.emitSlotGrant u.tid) s = .next (s.tickEvent.completeWait u.tid d 3 true) := by
  rw [exec_emitSlotGrant, execEmitSlotGrant, State.retryEmit, h.team, h.escort]
  simp [hw, h.atUnit, hheld, hend]

/-- A parked `emit` whose slot may be taken (R313). -/
theorem retryEmit_appends (h : Waits s u e) {k : Fin 4} {off len : ℕ} {d : SDst} {s' : State} (hw : e.what = .emit k off len d)
    (hheld : s.appendHeld u.tid = false) (hend : (s.launch (s.group u.group).launch).ending = false)
    (hdone : s.tryEmit u.tid k off len = .done s') :
    exec (.emitSlotGrant u.tid) s = .next (s'.tickEvent.completeWait u.tid d 0 true) := by
  rw [exec_emitSlotGrant, execEmitSlotGrant, State.retryEmit, h.team, h.escort]
  simp [hw, h.atUnit, hheld, hend, hdone]

theorem postKick_room {g h : Group} {target bar : ℕ} {n : Word} (ht : s.group? target = some h) (hctx : h.ctx = g.ctx)
    (hst : h.st = .alive) (hroom : h.kicks.length < 16) : s.postKick g target bar n = some (s.modGroup target fun x =>
      { x with kicks := x.kicks ++ [⟨n, g.handle, g.cluster, bar, false, none⟩] }) := by
  unfold State.postKick
  simp [ht, Option.filter, hctx, hst, hroom]

/-- A parked `kick` whose target's queue has room (R177). -/
theorem exec_kickEntryGrant_room (h : Waits s u e) {target bar : ℕ} {n : Word} (hw : e.what = .kick target bar n) {x : Group}
    (ht : s.group? target = some x) (hctx : x.ctx = (s.group u.group).ctx) (hst : x.st = .alive) (hroom : x.kicks.length < 16) :
    exec (.kickEntryGrant u.tid) s = .next ((s.modGroup target fun y => { y with
      kicks := y.kicks ++ [⟨n, (s.group u.group).handle, (s.group u.group).cluster, bar, false, none⟩] }).tickEvent.completeWait
        u.tid none 0 false) := by
  rw [exec_kickEntryGrant, execKickEntryGrant, h.team, h.escort]
  simp [hw, h.atUnit, postKick_room ht hctx hst hroom]

end

theorem group_modGroup_self {s : State} {target : ℕ} {x : Group} (h : s.group? target = some x) {f : Group → Group}
    (hf : ∀ g, (f g).handle = g.handle) : (s.modGroup target f).group target = f x := by
  have hfind : ∀ l : List Group, l.find? (fun g => g.handle == target) = some x →
      (updWhere (fun g => g.handle == target) f l).find? (fun g => g.handle == target) = some (f x) := by
    intro l
    induction l with
    | nil => exact fun h => by cases h
    | cons a l ih =>
      intro h
      by_cases ha : a.handle = target
      · have hax : a = x := by simpa [ha] using h
        simp [updWhere, ha, hf, ← hax]
      · have h' : l.find? (fun g => g.handle == target) = some x := by simpa [ha] using h
        simpa [updWhere, ha] using ih h'
  rw [State.group, State.group?, State.modGroup]
  rw [hfind s.groups h]
  rfl

theorem kicks_addKick {s : State} {target : ℕ} {x : Group} (h : s.group? target = some x) (k : Kick) :
    ((s.modGroup target fun y => { y with kicks := y.kicks ++ [k] }).group target).kicks = x.kicks ++ [k] := by
  have hg := group_modGroup_self h (f := fun y => { y with kicks := y.kicks ++ [k] }) fun _ => rfl
  rw [hg]

/-! ## A parked `mtask` (R192) -/

theorem drainTeam_empty {s : State} {tid : ℕ} (h : s.combOf (s.team tid) = []) : s.drainTeam tid = s := by
  rw [State.drainTeam, h]; rfl

theorem recQueue_eq (r : List Word) : recQueue r = bits (r.getD 0 0) 2 2 := by
  rw [recQueue, recWord, nth_eq_getD]

/-- The entry of a record into the pool, where nothing has to drain before it: a task at the pool's end, and the queue's counts. -/
theorem enterTask_calm {s : State} {u : Team} (hu : s.team u.tid = u) (hcomb : s.combOf u = [])
    (hseries : ∀ d, (s.die d).series = []) {r : List Word} {q : Fin 4} (hq : q = Fin.ofNat 4 (bits (r.getD 0 0) 2 2)) :
    ∃ (k : Task) (qf : Team → Vector Word 4), s.enterTask u.tid r =
      (({ s with nextId := s.nextId + 1 }.modCluster u.cluster fun c => { c with tasks := c.tasks ++ [k] }).modTeam u.tid
        fun t => { t with qissued := t.qissued.set q.val (u.qissued[q] + 1), qfail := qf t }, u.qissued[q] + 1) ∧
      k.words = r ∧ k.seq = u.qissued[q] + 1 ∧ k.tid = u.tid ∧ k.st = .queued := by
  rw [← recQueue_eq] at hq
  subst hq
  unfold State.enterTask
  simp only [drainTeam_empty (hu.symm ▸ hcomb), applyAllMulti_calm hseries, hu]
  exact ⟨_, _, rfl, rfl, rfl, rfl, rfl⟩

/-- The teams and the pool after such an entry. -/
theorem enterTask_enters {s : State} {u : Team} (h0 : u.tid ≠ 0) (hu : s.team u.tid = u) (hcomb : s.combOf u = [])
    (hseries : ∀ d, (s.die d).series = []) (hc : u.cluster < s.clusters.length) {r : List Word} {q : Fin 4}
    (hq : q = Fin.ofNat 4 (bits (r.getD 0 0) 2 2)) :
    (s.enterTask u.tid r).2 = u.qissued[q] + 1 ∧
    (∃ qf, (s.enterTask u.tid r).1.team u.tid = { u with qissued := u.qissued.set q.val (u.qissued[q] + 1), qfail := qf }) ∧
    (∀ k, k ≠ u.tid → (s.enterTask u.tid r).1.team k = s.team k) ∧
    ∃ k : Task, ((s.enterTask u.tid r).1.cluster u.cluster).tasks = (s.cluster u.cluster).tasks ++ [k] ∧ k.words = r ∧
      k.seq = u.qissued[q] + 1 ∧ k.tid = u.tid ∧ k.st = .queued := by
  obtain ⟨k, qf, he, hk⟩ := enterTask_calm hu hcomb hseries hq
  rw [he]
  generalize hm : State.modCluster _ _ _ = m
  have hmu : m.team u.tid = u := by rw [← hm]; exact hu
  have hmo (i : ℕ) : m.team i = s.team i := by rw [← hm]; rfl
  have hmk : (m.cluster u.cluster).tasks = (s.cluster u.cluster).tasks ++ [k] := by
    rw [← hm]
    exact congrArg Cluster.tasks ((cluster_modCluster _ _ _ _).trans (if_pos ⟨rfl, hc⟩))
  refine ⟨rfl, ⟨qf u, ?_⟩, fun i hi => ?_, k, ?_, hk⟩
  · have h := team_modTeam_self (s := m) (f := fun t => { t with qissued := t.qissued.set q.val (u.qissued[q] + 1), qfail := qf t })
      (fun _ => rfl) h0 (congrArg Team.tid hmu)
    rwa [hmu] at h
  · refine (team_modTeam_other hi ?_).trans (hmo i)
    exact fun _ => rfl
  · rw [State.cluster, modTeam_clusters]
    exact hmk

theorem exec_mtaskRecordGrant_room {s : State} {u : Team} {e : Escort} (h : Waits s u e) {r : List Word} {d : SDst}
    (hw : e.what = .mtask r d) (hroom : s.poolRoom u = true) : exec (.mtaskRecordGrant u.tid) s =
      .next ((s.enterTask u.tid r).1.completeWait u.tid d (s.enterTask u.tid r).2 true) := by
  rw [exec_mtaskRecordGrant, execMtaskRecordGrant, State.grantRecord, h.team, h.escort]
  simp only [hw]
  rw [if_pos ⟨h.status, h.place, hroom⟩]

/-- With no other team parked on a word, and this one not either, nobody watches memory. -/
theorem unwatched_of_still {s : State} {u : Team} {e : Escort} (hn : Named s) (hu : u ∈ s.teams)
    (hstill : Still { s with cur := .empty, others := s.teams.filter (·.tid != u.tid) }) (he : u.escort = some e)
    (hword : ∀ r, e.what ≠ .word r) : Unwatched s := by
  refine ⟨fun t ht => listening_of_not_word ?_, hstill.series⟩
  by_cases h : t.tid = u.tid
  · have htu : t = u := by rw [← (team_of_mem hn ht).2, h, (team_of_mem hn hu).2]
    intro x hx
    rw [htu, he] at hx
    cases hx
    exact hword
  · exact hstill.parked t (.inr (List.mem_filter.2 ⟨ht, bne_iff_ne.2 h⟩))

/-! ## O41 -/

/-- Settles O41: each parked instruction completes by `completeWait`, after a change that leaves every team but the counts of its task
queues. -/
theorem parkedWaits : Obligations.ParkedWaits := by
  unfold Obligations.ParkedWaits
  intro s u e hn hu hstill he haccs hst hstatus hplace
  obtain ⟨h0, hteam⟩ := team_of_mem hn hu
  have hw : Waits s u e := ⟨h0, hteam, he, hstatus, hplace⟩
  dsimp only
  refine ⟨fun r n orph once tgt hwhat hop htgt hacted hkind hck => ?_, fun k off len d hwhat hheld hend => ?_,
    fun k off len d s' hwhat hheld hend hdone => ?_, fun r d hwhat hroom hc => ?_, fun target bar n hwhat x ht hctx hlive hroom => ?_⟩
  · have hd := hw.done (m := s) rfl rfl r.dst (word (s.readAt tgt 8)) false
    exact ⟨_, _, exec_lkacqTimeout_out hw hwhat hop htgt hacted hkind hck,
      ⟨rfl, by rw [completeWait_frame]; exact sameBytes_of_mem rfl rfl⟩,
      hd.completed, hd.latches, hd.others⟩
  · have hd := hw.done (m := s) rfl rfl d 3 true
    exact ⟨_, _, retryEmit_ending hw hwhat hheld hend, ⟨rfl, by rw [completeWait_frame]; exact sameBytes_of_mem rfl rfl⟩,
      hd.completed, hd.latches, hd.others⟩
  · have hun := unwatched_of_still hn hu hstill he fun r hr => by rw [hwhat] at hr; cases hr
    have hk := keepsTeams_tryEmit hun hdone
    have hd := hw.done hk.cur hk.others d 0 true
    exact ⟨_, _, retryEmit_appends hw hwhat hheld hend hdone,
      ⟨rfl, by rw [completeWait_frame]; rfl, by rw [completeWait_frame]; exact sameBytes_of_mem rfl rfl⟩,
      hd.completed, hd.latches, hd.others⟩
  · obtain ⟨hv, ⟨qf, hself⟩, hothers, hk⟩ := enterTask_enters h0 hteam (hstill.comb _ _) hstill.series hc (r := r) rfl
    obtain ⟨hd, hqi⟩ := completeWait_done h0 he hself hothers d (s.enterTask u.tid r).2 true
    refine ⟨_, _, exec_mtaskRecordGrant_room hw hwhat hroom, ⟨hv, ?_, ?_⟩, hd.completed, hd.latches, hd.others⟩
    · rw [hqi, hv]
      exact Vector.getElem_set_self _
    · rw [hv, completeWait_frame]
      exact hk
  · have hd (f : Group → Group) := hw.done (m := s.modGroup target f) rfl rfl none 0 false
    refine ⟨_, _, exec_kickEntryGrant_room hw hwhat ht hctx hlive hroom, ⟨rfl, ?_⟩, (hd _).completed, (hd _).latches, (hd _).others⟩
    rw [completeWait_frame]
    exact kicks_addKick ht _

end Sys2Proof
end

section
/-! PROOFS. Modular arithmetic and butterflies (R135, R136), words that decode being well formed whatever stands above their 32 bits,
and the obligation on them (O17). -/
namespace Sys2Proof
open Sys2Proof.Machine

/-! ## Words that decode are well formed -/

/-- The decoder reads only the 32 bits of a word. -/
theorem uniF_mod (h : ℕ) : uniF (h % 2 ^ 32) = uniF h := by
  simp only [uniF, UniF.mk.injEq]
  omega

theorem tailReg_mod (t : ℕ) : tailReg (t % 2 ^ 32) = tailReg t := by
  unfold tailReg
  omega

theorem tailImm_mod (t : ℕ) : tailImm (t % 2 ^ 32) = tailImm t := by
  unfold tailImm
  omega

theorem isTail_mod (set t : ℕ) : isTail set (t % 2 ^ 32) = isTail set t := by
  have h1 : t % 2 ^ 32 / 2147483648 % 2 = t / 2147483648 % 2 := by omega
  have h2 : t % 2 ^ 32 / 33554432 % 64 = t / 33554432 % 64 := by omega
  rw [isTail, h1, h2]
  rfl

theorem decodeLaneWide_mod (r : LaneF) (t : ℕ) : decodeLaneWide r (t % 2 ^ 32) = decodeLaneWide r t := by
  simp only [decodeLaneWide, tailReg_mod, tailImm_mod]

theorem decodeUniWide_mod (h t : ℕ) : decodeUniWide (h % 2 ^ 32) (t % 2 ^ 32) = decodeUniWide h t := by
  simp only [decodeUniWide, uniF_mod, tailUsrc, tailReg_mod, tailImm_mod]

theorem decodeUni_mod (h : ℕ) : decodeUni (h % 2 ^ 32) = decodeUni h := by
  have h9 : h % 2 ^ 32 % 512 = h % 512 := by omega
  have h11 : h % 2 ^ 32 % 2048 = h % 2048 := by omega
  have h16 : h % 2 ^ 32 % 65536 = h % 65536 := by omega
  have h18 : h % 2 ^ 32 % 262144 = h % 262144 := by omega
  have h24 : h % 2 ^ 32 % 16777216 = h % 16777216 := by omega
  have ha : h % 2 ^ 32 / 32768 % 64 = h / 32768 % 64 := by omega
  have hb : h % 2 ^ 32 / 512 % 64 = h / 512 % 64 := by omega
  have hc : h % 2 ^ 32 / 2097152 % 8 = h / 2097152 % 8 := by omega
  have hd : h % 2 ^ 32 / 262144 % 64 = h / 262144 % 64 := by omega
  have hf : h % 2 ^ 32 / 512 % 32768 = h / 512 % 32768 := by omega
  have hv : h % 2 ^ 32 / 2048 % 128 = h / 2048 % 128 := by omega
  simp only [decodeUni, uniF_mod, ul, ulF, ulCode, ujZero, ubMask, h9, h11, h16, h18, h24, ha, hb, hc, hd, hf, hv]

/-- No word that decodes, whatever stands above its 32 bits, is ill formed (R68 step 7). -/
theorem wellFormed_of_decodeWords {sett : Bool} {h : ℕ} {t : Option ℕ} {i : Instr} (hd : decodeWords sett h t = .ok i) :
    i.wellFormed = true := by
  have low (w : ℕ) : w % 2 ^ 32 < 2 ^ 32 := Nat.mod_lt _ (Nat.two_pow_pos 32)
  rcases decodeWords_cases hd with ⟨-, hd | ⟨w, -, hw, hd⟩⟩ | ⟨htop, hd | ⟨w, -, hw, hd⟩⟩
  · exact (faithful_decodeLane (laneF_ok h) i hd).1
  · rw [← decodeLaneWide_mod] at hd
    exact (faithful_decodeLaneWide (laneF_ok h) (low w) (isTail_mod 0 w ▸ hw) i hd).1
  · rw [← decodeUni_mod, ← word_uniF (h := h % 2 ^ 32) (by omega) (low h)] at hd
    exact (faithful_decodeUni (uniF_ok _) i hd).1
  · rw [← decodeUniWide_mod, ← word_uniF (h := h % 2 ^ 32) (by omega) (low h)] at hd
    exact (faithful_decodeUniWide (uniF_ok _) (low w) (isTail_mod 1 w ▸ hw) i hd).1

/-! ## Residues (R135) -/

/-- A valid modulus: odd, 3 or more, below 2^63 (R135). -/
def ValidModulus (m : ℕ) : Prop := m % 2 = 1 ∧ 3 ≤ m ∧ m < 2 ^ 63

theorem modulusOk_iff (m : ℕ) : modulusOk m = true ↔ ValidModulus m := by
  simp [ValidModulus, modulusOk, and_assoc]

/-- A residue of a modulus below 2^63 fits a lane. -/
theorem word_residue {m r : ℕ} (hm : m < 2 ^ 63) (hr : r < m) : (word r).toNat = r := by
  rw [word_toNat, Nat.mod_eq_of_lt (by omega)]

theorem modSub_lt {m : ℕ} (hm : 0 < m) (x y : ℕ) : modSub m x y < m := by
  have h := Int.emod_lt_of_pos ((x : ℤ) - y) (Int.natCast_pos.2 hm)
  unfold modSub
  omega

theorem modSub_cast {m : ℕ} (hm : 0 < m) (x y : ℕ) : (modSub m x y : ℤ) = ((x : ℤ) - y) % m :=
  Int.toNat_of_nonneg (Int.emod_nonneg _ (by omega))

/-- Subtracting a residue of a product subtracts the product. -/
theorem modSub_mod_right {m : ℕ} (x y : ℕ) : modSub m x (y % m) = (((x : ℤ) - y) % m).toNat := by
  rw [modSub, Int.natCast_mod, Int.sub_emod_emod]

/-- The product of a difference, with no bound on the modulus. -/
theorem modSub_mul_mod (m x y z : ℕ) : modSub m x y * z % m = (((x : ℤ) - y) * z % m).toNat := by
  rcases Nat.eq_zero_or_pos m with rfl | hm
  · rw [Nat.mod_zero, modSub, Nat.cast_zero, Int.emod_zero, Int.emod_zero]
    rcases le_total (y : ℤ) x with h | h
    · rw [Int.toNat_mul (sub_nonneg.2 h) (Int.natCast_nonneg z), Int.toNat_natCast]
    · have hneg := sub_nonpos.2 h
      rw [Int.toNat_of_nonpos hneg, Int.toNat_of_nonpos (mul_nonpos_of_nonpos_of_nonneg hneg (Int.natCast_nonneg z)), zero_mul]
  · have h : ((modSub m x y * z % m : ℕ) : ℤ) = ((x : ℤ) - y) * z % m := by
      rw [Int.natCast_mod, Int.natCast_mul, modSub_cast hm]
      exact (Int.mod_modEq _ _).mul_right _
    rw [← h, Int.toNat_natCast]

/-- The flags of a modular instruction: those of its operands, and NV for an invalid modulus where a lane is active. -/
def ModFlags (t : Team) (m : ℕ) (op fl : FFlags) : Prop :=
  (ValidModulus m → fl = 0 ||| op) ∧ (¬ ValidModulus m → fl = 0 ||| op ||| if t.exec = 0 then 0 else flagNV)

theorem modFlags_invalidFlag (t : Team) (m : ℕ) (op : FFlags) :
    ModFlags t m op (op ||| if modulusOk m then 0 else t.invalidFlag) := by
  have hop : 0 ||| op = op := BitVec.zero_or
  refine ⟨fun h => ?_, fun h => ?_⟩
  · rw [if_pos ((modulusOk_iff m).2 h), hop]
    exact BitVec.or_zero
  · rw [if_neg ((modulusOk_iff m).not.2 h), invalidFlag_eq, hop]

/-- A lane holds `f` under a valid modulus and zero under an invalid one. -/
def Residue (m f : ℕ) (r : Word) : Prop := (ValidModulus m → r.toNat = f) ∧ (¬ ValidModulus m → r = 0)

theorem residue_word {m r : ℕ} (hr : 0 < m → r < m) : Residue m r (if modulusOk m then word r else 0) := by
  refine ⟨fun h => ?_, fun h => if_neg ((modulusOk_iff m).not.2 h)⟩
  have hpos : 0 < m := lt_of_lt_of_le (by decide) h.2.1
  rw [if_pos ((modulusOk_iff m).2 h), word_residue h.2.2 (hr hpos)]

section
variable {i : Instr} {s : State} {q : QReg} {d : VDst} {b : LSrc}

theorem laneMod_runs {a : LSrc} {f : ℕ → ℕ → ℕ → ℕ} (h : exec i s = laneMod q d a b f s) (hlt : ∀ m x y, 0 < m → f m x y < m) :
    let m := s.cur.s[modReg q].toNat
    Runs i s fun u v => ∃ fl, ModFlags s.cur m (s.cur.srcFlags a ||| s.cur.srcFlags b ||| s.cur.sFlags (modReg q)) fl ∧
      LaneEffect 4 d fl (fun x r => Residue m (f m (s.cur.laneSrc 64 a x).toNat (s.cur.laneSrc 64 b x).toNat) r) u v := by
  intro m
  refine runs_teamStep h ⟨_, modFlags_invalidFlag s.cur m _, (laneResult_effect s.cur 4 d _ _).imp ?_⟩
  rintro x _ - - rfl
  exact residue_word (hlt m _ _)

/-! ## Butterflies (R136) -/

/-- A write of one register leaves a team that is as before once the register is put back. -/
theorem writeLanes_restore (t : Team) (a : VReg) (act : ℕ → Bool) (val : ℕ → Word) (n : ℕ) :
    { (t.writeLanes a act val).advance n with
      v := ((t.writeLanes a act val).advance n).v.set a t.v[a]
      deadV := ((t.writeLanes a act val).advance n).deadV.set a t.deadV[a] } = t.advance n := by
  unfold Team.writeLanes
  split <;> simp [Team.setV, Team.advance]

/-- The two results of a butterfly: the new d as a lane result, and the new a in the active lanes. -/
theorem butterfly_writes (t : Team) (fl : FFlags) {d : VDst} {a : VReg} (hda : d ≠ some a) (f g : ℕ → Word) :
    let v := (((t.raise fl).laneResult d f).writeLanes a t.active g).advance 4
    LaneEffect 4 d fl (fun x r => r = f x) t { v with v := v.v.set a t.v[a], deadV := v.deadV.set a t.deadV[a] } ∧
      ∀ x, x < t.lanes → laneAt v.v[a] x = if t.active x then g x else laneAt t.v[a] x := by
  intro v
  have e := laneResult_effect t 4 d fl f
  obtain ⟨hv, hdead⟩ : ((t.raise fl).laneResult d f).v[a] = t.v[a] ∧ ((t.raise fl).laneResult d f).deadV[a] = t.deadV[a] :=
    e.dest.others a hda
  have hlanes : ((t.raise fl).laneResult d f).lanes = t.lanes := congrArg (32 * ·) (laneResult_keeps t fl d f).2
  have hrestore := writeLanes_restore ((t.raise fl).laneResult d f) a t.active g 4
  have hself := writeLanes_self ((t.raise fl).laneResult d f) a t.active g
  rw [hv, hdead] at hrestore
  refine ⟨hrestore ▸ e, fun x hx => ?_⟩
  rw [← hv]
  exact hself x (hlanes ▸ hx)

theorem butterfly_runs {a : VReg} {f : ℕ → ℕ → ℕ → ℕ → ℕ × ℕ} (h : exec i s = butterfly q d a b f s) (hda : d ≠ some a)
    (hlt : ∀ m x y z, 0 < m → (f m x y z).1 < m ∧ (f m x y z).2 < m) :
    let m := s.cur.s[modReg q].toNat
    let r := fun x => f m (s.cur.old d x).toNat (laneAt s.cur.v[a] x).toNat (s.cur.laneSrc 64 b x).toNat
    Runs i s fun u v => ∃ fl,
      ModFlags s.cur m (s.cur.srcFlags (.v a) ||| s.cur.srcFlags b ||| s.cur.oldFlags d ||| s.cur.sFlags (modReg q)) fl ∧
      LaneEffect 4 d fl (fun x w => Residue m (r x).1 w) u { v with v := v.v.set a u.v[a], deadV := v.deadV.set a u.deadV[a] } ∧
      ∀ x, x < u.lanes → if u.active x then Residue m (r x).2 (laneAt v.v[a] x) else laneAt v.v[a] x = laneAt u.v[a] x := by
  intro m r
  have hres (x : ℕ) : Residue m (r x).1 (word (if modulusOk m then r x else (0, 0)).1) ∧
      Residue m (r x).2 (word (if modulusOk m then r x else (0, 0)).2) := by
    rw [apply_ite Prod.fst, apply_ite Prod.snd, apply_ite word, apply_ite word]
    exact ⟨residue_word fun hm => (hlt m _ _ _ hm).1, residue_word fun hm => (hlt m _ _ _ hm).2⟩
  obtain ⟨heff, hreg⟩ := butterfly_writes s.cur (_ ||| if modulusOk m then 0 else s.cur.invalidFlag) hda
    (fun x => word (if modulusOk m then r x else (0, 0)).1) (fun x => word (if modulusOk m then r x else (0, 0)).2)
  refine runs_teamStep h ⟨_, modFlags_invalidFlag s.cur m _, heff.imp ?_, fun x hx => ?_⟩
  · rintro x _ - - rfl
    exact (hres x).1
  · split
    · next hact => exact ((hreg x hx).trans (if_pos hact)).symm ▸ (hres x).2
    · next hact => exact (hreg x hx).trans (if_neg hact)

end

/-! ## O17 -/

/-- Settles O17: each result is a residue of the exact one, and a butterfly of one register is ill formed. -/
theorem modularArithmetic : Obligations.ModularArithmetic := by
  unfold Obligations.ModularArithmetic
  intro s q d a b av m good A B V D eq nv gives fly
  refine ⟨laneMod_runs (exec_mmul q d a b s) fun m x y hm => Nat.mod_lt _ hm,
    laneMod_runs (exec_madd q d a b s) fun m x y hm => Nat.mod_lt _ hm,
    laneMod_runs (exec_msub q d a b s) fun m x y hm => modSub_lt hm x y,
    laneMod_runs (exec_mred q d a b s) fun m x y hm => Nat.mod_lt _ hm, fun hda => ?bfly, fun hda => ?ibfly,
    fun full h t i hd => ⟨?_, ?_⟩⟩
  case bfly =>
    have h := butterfly_runs (exec_bfly q d av b s) hda fun m x y z hm => ⟨Nat.mod_lt _ hm, modSub_lt hm _ _⟩
    simp only [modSub_mod_right, Nat.add_mod_mod] at h
    push_cast at h
    exact h
  case ibfly =>
    have h := butterfly_runs (exec_ibfly q d av b s) hda fun m x y z hm => ⟨Nat.mod_lt _ hm, Nat.mod_lt _ hm⟩
    simp only [modSub_mul_mod] at h
    exact h
  · rintro rfl
    exact absurd (wellFormed_of_decodeWords hd) (by simp [Instr.wellFormed, VDst.field])
  · rintro rfl
    exact absurd (wellFormed_of_decodeWords hd) (by simp [Instr.wellFormed, VDst.field])

end Sys2Proof
end

section
/-! PROOFS. Integer arithmetic, logic, shifts and compares at a width (R121, R122, R126): the model's results on numbers below 2^w, and
the obligation on them (O11). -/
namespace Sys2Proof
open Sys2Proof.Machine

/-! ## Clamping -/

theorem clampTo_eq {w : ℕ} {lo hi : ℤ} (h : lo ≤ hi) (z : ℤ) : clampTo w lo hi z = (max lo (min hi z) % 2 ^ w).toNat := by
  have hz : (if z < lo then lo else if hi < z then hi else z) = max lo (min hi z) := by
    split_ifs <;> omega
  rw [clampTo, hz, wrap_eq]

theorem smin'_eq (w : ℕ) : smin' w = -2 ^ (w - 1) := by simp [smin']

theorem smax'_eq (w : ℕ) : smax' w = 2 ^ (w - 1) - 1 := by simp [smax']

theorem clampTo_signed (w : ℕ) (z : ℤ) :
    clampTo w (smin' w) (smax' w) z % 2 ^ w = (max (-2 ^ (w - 1)) (min (2 ^ (w - 1) - 1) z) % 2 ^ w).toNat := by
  have hp : (0 : ℤ) < 2 ^ (w - 1) := by positivity
  rw [smin'_eq, smax'_eq, Nat.mod_eq_of_lt (by exact wrap_lt w _), clampTo_eq (by omega)]

/-- Clamping to the unsigned range of a width. -/
theorem clampTo_unsigned (w : ℕ) (z : ℤ) : clampTo w 0 (umax' w) z % 2 ^ w = min z.toNat (2 ^ w - 1) := by
  have hp := Nat.two_pow_pos w
  have hu : umax' w = ((2 ^ w - 1 : ℕ) : ℤ) := by unfold umax'; omega
  rw [Nat.mod_eq_of_lt (by exact wrap_lt w _), clampTo_eq (by omega), hu,
    show max 0 (min ((2 ^ w - 1 : ℕ) : ℤ) z) = (min z.toNat (2 ^ w - 1) : ℕ) by omega]
  have hlt : min z.toNat (2 ^ w - 1) < 2 ^ w := by omega
  exact_mod_cast Nat.mod_eq_of_lt hlt

theorem addSatuAt_mod (w a b : ℕ) : addSatuAt w a b % 2 ^ w = min (a + b) (2 ^ w - 1) := by
  rw [addSatuAt, clampTo_unsigned, ← Nat.cast_add, Int.toNat_natCast]

theorem subSatuAt_mod {w a : ℕ} (ha : a < 2 ^ w) (b : ℕ) : subSatuAt w a b % 2 ^ w = a - b := by
  rw [subSatuAt, clampTo_unsigned]
  omega

/-! ## Signed order -/

theorem sltAt_iff (w a b : ℕ) : sltAt w a b = true ↔ signed w a < signed w b := decide_eq_true_iff

theorem signed_injOn {w a b : ℕ} (ha : a < 2 ^ w) (hb : b < 2 ^ w) (h : signed w a = signed w b) : a = b := by
  rw [← wrap_signed ha, h, wrap_signed hb]

theorem minAt_eq (w a b : ℕ) : minAt w a b = if signed w a ≤ signed w b then a else b := by
  rw [minAt, ← ite_not]
  exact if_congr ((sltAt_iff w b a).not.trans not_lt) rfl rfl

theorem maxAt_eq {w a b : ℕ} (ha : a < 2 ^ w) (hb : b < 2 ^ w) : maxAt w a b = if signed w a ≤ signed w b then b else a := by
  rcases eq_or_ne (signed w a) (signed w b) with h | h
  · rw [maxAt, signed_injOn ha hb h, ite_self, ite_self]
  · exact if_congr ((sltAt_iff w a b).trans (lt_iff_le_and_ne.trans (and_iff_left h))) rfl rfl

/-- A value in the signed range of a width comes back from its bits. -/
theorem signed_wrap {w : ℕ} (hw : 0 < w) {z : ℤ} (hlo : -2 ^ (w - 1) ≤ z) (hhi : z < 2 ^ (w - 1)) : signed w (wrap w z) = z := by
  have hpow : (2 : ℤ) ^ w = 2 * 2 ^ (w - 1) := by rw [← pow_succ', Nat.sub_add_cancel hw]
  obtain ⟨hlo', hhi'⟩ := signed_bounds hw (wrap w z)
  have hmod : signed w (wrap w z) ≡ z [ZMOD 2 ^ w] := by
    rw [Int.ModEq, signed_emod, Nat.mod_eq_of_lt (wrap_lt _ z), wrap_eq, Int.toNat_of_nonneg (Int.emod_nonneg _ (by positivity))]
  have h0 := Int.eq_zero_of_abs_lt_dvd hmod.dvd (abs_lt.2 ⟨by omega, by omega⟩)
  omega

/-! ## Products -/

/-- The upper half of a product, taken from its low 2 w bits. -/
theorem wrap_double_div (w : ℕ) (z : ℤ) : wrap (2 * w) z / 2 ^ w % 2 ^ w = (z / 2 ^ w % 2 ^ w).toNat := by
  have hp : (2 : ℤ) ^ w ≠ 0 := by positivity
  have hdiv : z % 2 ^ (2 * w) / 2 ^ w % 2 ^ w = z / 2 ^ w % 2 ^ w := by
    rw [two_mul, pow_add, Int.emod_def z, mul_assoc, mul_comm ((2 : ℤ) ^ w) (2 ^ w * _), Int.sub_mul_ediv_right _ _ hp,
      Int.sub_mul_emod_self_left]
  obtain ⟨c, hc⟩ := Int.eq_ofNat_of_zero_le (Int.emod_nonneg z (b := 2 ^ (2 * w)) (by positivity))
  rw [← hdiv, wrap_eq, hc, Int.toNat_natCast]
  norm_cast

theorem mul_div_two_pow_lt {w a b : ℕ} (ha : a < 2 ^ w) (hb : b < 2 ^ w) : a * b / 2 ^ w < 2 ^ w := by
  rw [Nat.div_lt_iff_lt_mul (Nat.two_pow_pos w)]
  exact Nat.mul_lt_mul'' ha hb

theorem absAt_mod (w a : ℕ) : absAt w a % 2 ^ w = (|signed w a| % 2 ^ w).toNat := by
  rw [absAt, wrap_mod, Int.natCast_natAbs]

theorem add_wrap_mod (w a : ℕ) (z : ℤ) : (a + wrap w z) % 2 ^ w = ((a + z) % 2 ^ w).toNat := by
  have h : ((a + wrap w z : ℕ) : ℤ) ≡ a + z [ZMOD 2 ^ w] := by
    rw [wrap_eq, Nat.cast_add, Int.toNat_of_nonneg (Int.emod_nonneg _ (by positivity))]
    exact (Int.mod_modEq z _).add_left _
  rw [← h.eq]
  norm_cast

/-! ## Shifts -/

theorem sraAt_mod (w a b : ℕ) : sraAt w a b % 2 ^ w = (signed w a / 2 ^ (b % w) % 2 ^ w).toNat := by
  rw [sraAt, wrap_mod, Nat.cast_pow, Nat.cast_ofNat]

/-- A rotation is the sum of its two parts, which share no bit. -/
theorem rotAt_eq {w a : ℕ} (hw : 0 < w) (ha : a < 2 ^ w) (b : ℕ) :
    rotAt w a b = ((BitVec.ofNat w a).rotateLeft (b % w)).toNat := by
  have hk : b % w < w := Nat.mod_lt b hw
  have hlow : a / 2 ^ (w - b % w) < 2 ^ (b % w) := by
    rw [Nat.div_lt_iff_lt_mul (Nat.two_pow_pos _), ← pow_add, Nat.add_sub_cancel' hk.le]
    exact ha
  have hhigh : a * 2 ^ (b % w) % 2 ^ w = 2 ^ (b % w) * (a % 2 ^ (w - b % w)) := by
    rw [Nat.mul_comm, ← Nat.mul_mod_mul_left, ← pow_add, Nat.add_sub_cancel' hk.le]
  rw [rotAt, BitVec.toNat_rotateLeft, BitVec.toNat_ofNat, Nat.mod_eq_of_lt ha, Nat.mod_mod, Nat.shiftLeft_eq,
    Nat.shiftRight_eq_div_pow, hhigh]
  exact Nat.two_pow_add_eq_or_of_lt hlow _

theorem rotAt_mod {w a : ℕ} (hw : 0 < w) (ha : a < 2 ^ w) (b : ℕ) :
    rotAt w a b % 2 ^ w = ((BitVec.ofNat w a).rotateLeft (b % w)).toNat := by
  rw [rotAt_eq hw ha, Nat.mod_eq_of_lt (BitVec.isLt _)]

/-! ## Immediates -/

theorem imm7_bounds (w : IW) (imm : BitVec 7) :
    imm.toNat < 2 ^ iwBits w ∧ -2 ^ (iwBits w - 1) ≤ imm.toInt ∧ imm.toInt < 2 ^ (iwBits w - 1) := by
  have h1 := imm.isLt
  have h2 := imm.le_toInt
  have h3 := imm.toInt_lt
  cases w <;> norm_num [iwBits] at * <;> omega

theorem eq_wrap_iff {w a : ℕ} (hw : 0 < w) (ha : a < 2 ^ w) {z : ℤ} (hlo : -2 ^ (w - 1) ≤ z) (hhi : z < 2 ^ (w - 1)) :
    a = wrap w z ↔ signed w a = z := by
  constructor
  · rintro rfl
    exact signed_wrap hw hlo hhi
  · rintro rfl
    exact (wrap_signed ha).symm

theorem li_runs (s : State) (w : IW) (d : VDst) (imm : BitVec 7) :
    Runs (.li w d imm) s (LaneEffect 4 d 0 fun _ => Subs (iwBits w) fun _ => (imm.toInt % 2 ^ iwBits w).toNat) := by
  have h := laneResult_effect s.cur 4 d 0 fun _ => perSub (iwBits w) fun _ => wrap (iwBits w) imm.toInt
  rw [raise_zero] at h
  refine runs_teamStep (exec_li w d imm s) (h.imp ?_)
  rintro x v - - rfl
  exact subs_perSub_of (iwBits_mul w).le fun _ => wrap_mod _ _

/-! ## Refused words -/

/-- The opcodes of the lane compares. -/
def IsLaneCmp (op : ℕ) : Prop := 0x1F ≤ op ∧ op ≤ 0x2F ∧ (op ≤ 0x24 ∨ 0x2E ≤ op)

theorem lcmp_nwb (mk : IW → MDst → LSrc → LSrc → Instr) {r : LaneF} (hn : r.n = 1) (i : Instr) : lcmp mk r ≠ .ok i := by
  simp [lcmp, hn]

theorem licmp_nwb (mk : IW → MDst → LSrc → BitVec 7 → Instr) {r : LaneF} (hn : r.n = 1) (i : Instr) : licmp mk r ≠ .ok i := by
  simp [licmp, hn]

theorem decodeLane_cmp_nwb {r : LaneF} (hop : IsLaneCmp r.op) (hn : r.n = 1) (i : Instr) : decodeLane r ≠ .ok i := by
  obtain ⟨op, n, d, a, b, w⟩ := r
  obtain ⟨hlo, hhi, hset⟩ := hop
  dsimp only at hlo hhi hset
  rcases hset with h | h
  · interval_cases op <;> exact lcmp_nwb _ hn i
  · interval_cases op <;> exact licmp_nwb _ hn i

/-- A lane compare with `nwb` is refused (R126). -/
theorem decodeWords_cmp_nwb {h : ℕ} (h31 : h < 2 ^ 31) (hop : IsLaneCmp (h / 2 ^ 24)) (hn : h.testBit 23 = true) (full : Bool)
    (t : Option ℕ) (i : Instr) : decodeWords full h t ≠ .ok i := by
  have hop' : (laneF h).op = h / 2 ^ 24 := Nat.mod_eq_of_lt (by omega)
  have hn' : (laneF h).n = 1 := by
    rw [Nat.testBit_eq_decide_div_mod_eq, decide_eq_true_eq] at hn
    exact hn
  intro hd
  rcases decodeWords_cases hd with ⟨-, hd | ⟨w, -, -, hd⟩⟩ | ⟨htop, -⟩
  · exact decodeLane_cmp_nwb (hop' ▸ hop) hn' i hd
  · obtain ⟨hlo, hhi, -⟩ := hop
    unfold decodeLaneWide at hd
    split at hd
    case h_7 => cases hd
    all_goals omega
  · omega

/-! ## O11 -/

/-- Settles O11: each instruction is one of the shared lane forms, with its value read as a number of the width. -/
theorem laneArithmeticLogicCompares : Obligations.LaneArithmeticLogicCompares := by
  unfold Obligations.LaneArithmeticLogicCompares
  refine ⟨fun s w d a b imm => ?arithmetic, fun s w d a b imm => ?logic, fun s w d a b imm => ?compares⟩
  case arithmetic =>
    intro n A B D sA sB low least most gives fa fab
    have hA (x j : ℕ) : A x j < 2 ^ n := sub_lt s.cur n a x j
    have hB (x j : ℕ) : B x j < 2 ^ n := sub_lt s.cur n b x j
    have hn : 0 < n := iwBits_pos w
    have hite (p : Prop) [Decidable p] (x j : ℕ) : (if p then A x j else B x j) < 2 ^ n ∧ (if p then B x j else A x j) < 2 ^ n := by
      split
      · exact ⟨hA x j, hB x j⟩
      · exact ⟨hB x j, hA x j⟩
    refine ⟨lane2_runs (exec_add w d a b s) _ fun x j => Nat.mod_mod _ _,
      lane2_runs (exec_sub w d a b s) _ fun x j => wrap_mod n _,
      lane2_runs (exec_addSat w d a b s) _ fun x j => clampTo_signed n _,
      lane2_runs (exec_addSatu w d a b s) _ fun x j => addSatuAt_mod n _ _,
      lane2_runs (exec_subSat w d a b s) _ fun x j => clampTo_signed n _,
      lane2_runs (exec_subSatu w d a b s) _ fun x j => subSatuAt_mod (hA x j) _,
      lane2_runs (exec_mul w d a b s) _ fun x j => Nat.mod_mod _ _,
      lane2_runs (exec_mulh w d a b s) _ fun x j => wrap_double_div n _,
      lane2_runs (exec_mulhu w d a b s) _ fun x j => Nat.mod_eq_of_lt (mul_div_two_pow_lt (hA x j) (hB x j)),
      fun r _ => lane2d_runs (exec_mad w d a b s) _ fun x j => ?mad,
      lane2_runs (exec_min w d a b s) _ fun x j => ?min,
      lane2_runs (exec_minu w d a b s) _ fun x j => Nat.mod_eq_of_lt ((min_le_left _ _).trans_lt (hA x j)),
      lane2_runs (exec_max w d a b s) _ fun x j => ?max,
      lane2_runs (exec_maxu w d a b s) _ fun x j => Nat.mod_eq_of_lt (max_lt (hA x j) (hB x j)),
      lane1_runs (exec_abs w d a s) _ fun x j => absAt_mod n _,
      lane1_runs (exec_clz w d a s) _ fun x j => ?clz,
      lane1_runs (exec_pop w d a s) _ fun x j => ?pop,
      lane1_runs (exec_addImm w d a imm s) _ fun x j => ?addImm,
      li_runs s w d imm⟩
    case mad => rw [Nat.add_mod_mod, Nat.mod_mod]
    case min => rw [minAt_eq, Nat.mod_eq_of_lt (hite _ x j).1]
    case max => rw [maxAt_eq (hA x j) (hB x j), Nat.mod_eq_of_lt (hite _ x j).2]
    case clz => rw [clz_eq n _ (hA x j), Nat.mod_eq_of_lt ((Nat.sub_le _ _).trans_lt Nat.lt_two_pow_self)]
    case pop => rw [popCount_lt n _ (iw_cases w), popCount_eq]
    case addImm => rw [Nat.mod_mod, add_wrap_mod]
  case logic =>
    intro n A B low rotate gives fa fab
    have hA (x j : ℕ) : A x j < 2 ^ n := sub_lt s.cur n a x j
    have hB (x j : ℕ) : B x j < 2 ^ n := sub_lt s.cur n b x j
    have hn : 0 < n := iwBits_pos w
    obtain ⟨hI, -, -⟩ := imm7_bounds w imm
    have hdiv (x j k : ℕ) : A x j / k % 2 ^ n = A x j / k := Nat.mod_eq_of_lt ((Nat.div_le_self _ _).trans_lt (hA x j))
    exact ⟨lane2_runs (exec_and w d a b s) _ fun x j => Nat.mod_eq_of_lt (Nat.and_lt_two_pow _ (hB x j)),
      lane2_runs (exec_or w d a b s) _ fun x j => Nat.mod_eq_of_lt (Nat.or_lt_two_pow (hA x j) (hB x j)),
      lane2_runs (exec_xor w d a b s) _ fun x j => Nat.mod_eq_of_lt (Nat.xor_lt_two_pow (hA x j) (hB x j)),
      lane2_runs (exec_shl w d a b s) _ fun x j => Nat.mod_mod _ _,
      lane2_runs (exec_shr w d a b s) _ fun x j => hdiv x j _,
      lane2_runs (exec_sra w d a b s) _ fun x j => sraAt_mod n _ _,
      lane2_runs (exec_rot w d a b s) _ fun x j => rotAt_mod hn (hA x j) _,
      lane1_runs (exec_andImm w d a imm s) _ fun x j => Nat.mod_eq_of_lt (Nat.and_lt_two_pow _ hI),
      lane1_runs (exec_orImm w d a imm s) _ fun x j => Nat.mod_eq_of_lt (Nat.or_lt_two_pow (hA x j) hI),
      lane1_runs (exec_xorImm w d a imm s) _ fun x j => Nat.mod_eq_of_lt (Nat.xor_lt_two_pow (hA x j) hI),
      lane1_runs (exec_shlImm w d a imm s) _ fun x j => Nat.mod_mod _ _,
      lane1_runs (exec_shrImm w d a imm s) _ fun x j => hdiv x j _,
      lane1_runs (exec_sraImm w d a imm s) _ fun x j => sraAt_mod n _ _,
      lane1_runs (exec_rotImm w d a imm s) _ fun x j => rotAt_mod hn (hA x j) _⟩
  case compares =>
    intro n A B I fab sets
    have hA (x : ℕ) : A x < 2 ^ n := sub_lt s.cur n a x 0
    obtain ⟨-, hlo, hhi⟩ := imm7_bounds w imm
    refine ⟨laneCmp_runs (exec_cmpEq w d a b s) _ fun x => beq_iff_eq, laneCmp_runs (exec_cmpNe w d a b s) _ fun x => bne_iff_ne,
      laneCmp_runs (exec_cmpLt w d a b s) _ fun x => sltAt_iff n _ _, laneCmp_runs (exec_cmpLtu w d a b s) _ fun x => decide_eq_true_iff,
      laneCmp_runs (exec_cmpLe w d a b s) _ fun x => ?le, laneCmp_runs (exec_cmpLeu w d a b s) _ fun x => decide_eq_true_iff,
      laneCmpImm_runs (exec_cmpEqImm w d a imm s) _ fun x => ?eqImm, laneCmpImm_runs (exec_cmpLtImm w d a imm s) _ fun x => ?ltImm,
      fun h t i h31 hlo hhi hset hn => decodeWords_cmp_nwb h31 ⟨hlo, hhi, hset⟩ hn true t i⟩
    case le => rw [Bool.not_eq_true', ← Bool.not_eq_true, sltAt_iff, not_lt]
    case eqImm => rw [beq_iff_eq, eq_wrap_iff (iwBits_pos w) (hA x) hlo hhi]
    case ltImm => rw [sltAt_iff, signed_wrap (iwBits_pos w) hlo hhi]

end Sys2Proof
end

section
/-! PROOFS. Rounding an exact value by a finite computation (R134): two values on one side of every multiple of 2^g round alike where
the format's unit is coarser, and a quotient or a root cut to an integer, with one bit for its remainder, is on one side with the
exact one. -/
namespace Sys2Proof
open Sys2Proof.Machine

/-! ## Values on one side of every multiple of a power of two -/

/-- No multiple of 2^g lies between the two values, and one is such a multiple only if the other is the same. -/
def SameSide (g : ℤ) (q q' : ℝ) : Prop := ∀ j : ℤ, ((j : ℝ) * 2 ^ g ≤ q ↔ (j : ℝ) * 2 ^ g ≤ q') ∧ (q ≤ j * 2 ^ g ↔ q' ≤ j * 2 ^ g)

theorem sameSide_refl (g : ℤ) (q : ℝ) : SameSide g q q := fun _ => ⟨Iff.rfl, Iff.rfl⟩

theorem sameSide_of_between {g n : ℤ} {q q' : ℝ} (h : n * 2 ^ g < q ∧ q < (n + 1) * 2 ^ g)
    (h' : n * 2 ^ g < q' ∧ q' < (n + 1) * 2 ^ g) : SameSide g q q' := by
  have hp : (0 : ℝ) < 2 ^ g := by positivity
  intro j
  rcases le_or_gt j n with hj | hj
  · have hle : (j : ℝ) * 2 ^ g ≤ n * 2 ^ g := mul_le_mul_of_nonneg_right (by exact_mod_cast hj) hp.le
    exact ⟨iff_of_true (hle.trans h.1.le) (hle.trans h'.1.le), iff_of_false (hle.trans_lt h.1).not_ge (hle.trans_lt h'.1).not_ge⟩
  · have hle : ((n : ℝ) + 1) * 2 ^ g ≤ j * 2 ^ g := mul_le_mul_of_nonneg_right (by exact_mod_cast hj) hp.le
    exact ⟨iff_of_false (h.2.trans_le hle).not_ge (h'.2.trans_le hle).not_ge, iff_of_true (h.2.le.trans hle) (h'.2.le.trans hle)⟩

section
variable {g a : ℤ} {q q' : ℝ} (h : SameSide g q q')
include h

theorem SameSide.mono (hga : g ≤ a) : SameSide a q q' := by
  intro j
  have hj : ((j * 2 ^ (a - g).toNat : ℤ) : ℝ) * 2 ^ g = j * 2 ^ a := by
    push_cast
    rw [← zpow_natCast, Int.toNat_of_nonneg (by omega), mul_assoc, ← zpow_add₀ two_ne_zero, sub_add_cancel]
  rw [← hj]
  exact h _

theorem SameSide.div (a : ℤ) : SameSide (g - a) (q / 2 ^ a) (q' / 2 ^ a) := by
  intro j
  have hp : (0 : ℝ) < 2 ^ a := by positivity
  rw [le_div_iff₀ hp, le_div_iff₀ hp, div_le_iff₀ hp, div_le_iff₀ hp, mul_assoc, ← zpow_add₀ two_ne_zero, sub_add_cancel]
  exact h j

theorem SameSide.eq_iff (j : ℤ) : (j : ℝ) * 2 ^ g = q ↔ (j : ℝ) * 2 ^ g = q' := by
  rw [le_antisymm_iff, le_antisymm_iff, (h j).1, (h j).2]

theorem SameSide.two_pow_le_iff (hga : g ≤ a) : (2 : ℝ) ^ a ≤ q ↔ (2 : ℝ) ^ a ≤ q' := by
  simpa using (h.mono hga 1).1

end

/-! ## Values on one side of every half round alike -/

theorem SameSide.half_le_iff {x x' : ℝ} (h : SameSide (-1) x x') (j : ℤ) :
    ((j : ℝ) / 2 ≤ x ↔ (j : ℝ) / 2 ≤ x') ∧ (x ≤ (j : ℝ) / 2 ↔ x' ≤ (j : ℝ) / 2) := by
  simpa [div_eq_mul_inv] using h j

theorem SameSide.natCast_le_iff {x x' : ℝ} (h : SameSide (-1) x x') (n : ℕ) : ((n : ℝ) ≤ x ↔ (n : ℝ) ≤ x') ∧ (x ≤ n ↔ x' ≤ n) := by
  have hn : ((2 * n : ℤ) : ℝ) / 2 = n := by push_cast; ring
  simpa [hn] using h.half_le_iff (2 * n)

theorem SameSide.nearest_iff {x x' : ℝ} (h : SameSide (-1) x x') (k : ℕ) :
    (|x - k| ≤ 1 / 2 ↔ |x' - k| ≤ 1 / 2) ∧ (|x - k| = 1 / 2 ↔ |x' - k| = 1 / 2) := by
  have hlo := h.half_le_iff (2 * k - 1)
  have hhi := h.half_le_iff (2 * k + 1)
  push_cast at hlo hhi
  have hle : ∀ y : ℝ, |y - k| ≤ 1 / 2 ↔ (2 * k - 1) / 2 ≤ y ∧ y ≤ ((2 * k + 1) / 2 : ℝ) := fun y => by
    rw [abs_le]
    constructor <;> rintro ⟨h1, h2⟩ <;> constructor <;> linarith
  have hge : ∀ y : ℝ, 1 / 2 ≤ |y - k| ↔ y ≤ (2 * k - 1) / 2 ∨ ((2 * k + 1) / 2 : ℝ) ≤ y := fun y => by
    rw [le_abs, or_comm]
    exact or_congr ⟨fun h => by linarith, fun h => by linarith⟩ ⟨fun h => by linarith, fun h => by linarith⟩
  have hle' : |x - k| ≤ 1 / 2 ↔ |x' - k| ≤ 1 / 2 := by rw [hle, hle, hlo.1, hhi.2]
  refine ⟨hle', ?_⟩
  rw [le_antisymm_iff, le_antisymm_iff, hle', hge, hge, hlo.2, hhi.1]

theorem roundedReal_congr {mode : RMode} (hmode : ∀ b, mode ≠ .rsr b) {neg : Bool} {x x' : ℝ} (hx : 0 ≤ x) (hx' : 0 ≤ x')
    (h : SameSide (-1) x x') {k : ℕ} (hk : RoundedReal mode neg x' k) : RoundedReal mode neg x k := by
  have hfloor : ⌊x⌋₊ = ⌊x'⌋₊ := eq_of_forall_le_iff fun n => by
    rw [Nat.le_floor_iff hx, Nat.le_floor_iff hx', (h.natCast_le_iff n).1]
  have hceil : ⌈x⌉₊ = ⌈x'⌉₊ := eq_of_forall_ge_iff fun n => by rw [Nat.ceil_le, Nat.ceil_le, (h.natCast_le_iff n).2]
  obtain ⟨hle, heq⟩ := h.nearest_iff k
  cases mode with
  | rsr b => exact absurd rfl (hmode b)
  | rne => exact ⟨hle.2 hk.1, fun e => hk.2 (heq.1 e)⟩
  | rtz | rup | rdn => simpa only [RoundedReal, hfloor, hceil] using hk

/-- Two values on one side of every multiple of a unit well below the format's, rounded into it. -/
theorem RoundsTo.congr {f : Fmt} {mode : RMode} (hmode : ∀ b, mode ≠ .rsr b) {sat ftz neg : Bool} {g : ℤ} {q q' : ℝ}
    (h : SameSide g q q') (hbig : (2 : ℝ) ^ (g + f.fracBits + 2) ≤ q') {r : ℕ × FFlags} (hr : RoundsTo f mode sat ftz neg q' r) :
    RoundsTo f mode sat ftz neg q r := by
  obtain ⟨l, k, hlo, hhi, hround, hover, hflush, hkeep⟩ := hr
  have hl : g + f.fracBits + 2 ≤ l := by
    have := (zpow_lt_zpow_iff_right₀ (one_lt_two (α := ℝ))).1 (hbig.trans_lt hhi)
    omega
  have hlo' : (2 : ℝ) ^ l ≤ q := (h.two_pow_le_iff (by omega)).2 hlo
  have hhi' : q < (2 : ℝ) ^ (l + 1) := not_le.1 ((h.two_pow_le_iff (by omega)).not.2 hhi.not_ge)
  have hq : 0 ≤ q := le_trans (by positivity) hlo'
  have hq' : 0 ≤ q' := le_trans (by positivity) hlo
  set a : ℤ := max l (1 - f.bias) - f.fracBits with ha
  have hga : g + 1 ≤ a := by omega
  have hside : SameSide (-1) (q / 2 ^ a) (q' / 2 ^ a) := (h.div a).mono (by omega)
  have hexact : (k : ℝ) * 2 ^ a = q ↔ (k : ℝ) * 2 ^ a = q' := by simpa using (h.mono (by omega : g ≤ a)).eq_iff k
  have htiny : q < 2 ^ (1 - f.bias : ℤ) ↔ q' < 2 ^ (1 - f.bias : ℤ) := by
    rcases le_or_gt (1 - f.bias : ℤ) l with he | he
    · have hle : (2 : ℝ) ^ (1 - f.bias : ℤ) ≤ 2 ^ l := zpow_le_zpow_right₀ one_le_two he
      exact iff_of_false (hle.trans hlo').not_gt (hle.trans hlo).not_gt
    · rw [← not_le, ← not_le, h.two_pow_le_iff (by omega)]
  refine ⟨l, k, hlo', hhi', roundedReal_congr hmode (by positivity) (by positivity) hside hround, hover, hflush, fun hy hz => ?_⟩
  obtain ⟨hcode, hzero, hflags⟩ := hkeep hy hz
  refine ⟨hcode, fun e => hzero (hexact.1 e), fun e => ?_⟩
  rw [hflags (fun e' => e (hexact.2 e'))]
  exact congrArg (flagNX ||| ·) (if_congr htiny.symm rfl rfl)

/-! ## One bit for a remainder -/

theorem fracBits_le (f : Fmt) : f.fracBits ≤ 52 := by cases f <;> decide

/-- An exact value cut to the integer `n` in units of 2^e, one bit below telling whether it was cut, rounds as the exact one. -/
theorem encodeBin_withSticky {f : Fmt} (hf : isBinary f) {mode : RMode} (hmode : ∀ b, mode ≠ .rsr b) (sat ftz neg : Bool) {n : ℕ}
    {x : ℝ} (hn : 2 ^ 54 ≤ n) (hlo : (n : ℝ) ≤ x) (hhi : x < n + 1) {exact : Bool} (hex : exact = true ↔ x = n) (e : ℤ) :
    RoundsTo f mode sat ftz neg (x * 2 ^ e)
      (encodeBin f mode sat ftz neg (withSticky n e exact).1 (withSticky n e exact).2) := by
  have hp : (0 : ℝ) < 2 ^ e := by positivity
  have hm : (withSticky n e exact).1 ≠ 0 := by
    simp only [withSticky]
    omega
  have hval : ((withSticky n e exact).1 : ℝ) * 2 ^ (withSticky n e exact).2 = (n + if exact then 0 else 1 / 2) * 2 ^ e := by
    rw [withSticky, zpow_sub_one₀ two_ne_zero]
    cases exact <;> simp [b2n] <;> ring
  have hside : SameSide e (x * 2 ^ e) ((n + if exact then 0 else 1 / 2) * 2 ^ e) := by
    cases exact with
    | true =>
      rw [hex.1 rfl]
      simpa using sameSide_refl e (n * 2 ^ e)
    | false =>
      have hne : (n : ℝ) < x := lt_of_le_of_ne hlo fun he => absurd (hex.2 he.symm) Bool.false_ne_true
      have hcut : (n : ℝ) < n + 1 / 2 ∧ (n : ℝ) + 1 / 2 < n + 1 := by constructor <;> linarith
      refine sameSide_of_between (n := n) ⟨?_, ?_⟩ ⟨?_, ?_⟩ <;> refine mul_lt_mul_of_pos_right ?_ hp
      · exact hne
      · exact hhi
      · exact hcut.1
      · exact hcut.2
  refine RoundsTo.congr hmode (hval ▸ hside) ?_ (encodeBin_roundsTo hf mode sat ftz neg hm _)
  have hbig : (2 : ℝ) ^ (f.fracBits + 2) ≤ n := by
    have h54 : 2 ^ (f.fracBits + 2) ≤ n := (Nat.pow_le_pow_right two_pos (Nat.add_le_add_right (fracBits_le f) 2)).trans hn
    exact_mod_cast h54
  have hsticky : (0 : ℝ) ≤ if exact then 0 else 1 / 2 := by split <;> norm_num
  rw [hval, add_assoc, zpow_add₀ two_ne_zero, mul_comm]
  refine mul_le_mul_of_nonneg_right (le_trans ?_ (le_add_of_nonneg_right hsticky)) hp.le
  exact_mod_cast hbig

/-! ## Integer square roots -/

theorem isqrtBits_spec (n : ℕ) : ∀ k r : ℕ, r * r ≤ n → n < (r + 2 ^ k) * (r + 2 ^ k) → isqrtBits n k r = Nat.sqrt n := by
  intro k
  induction k with
  | zero => exact fun r hlo hhi => Nat.eq_sqrt.2 ⟨hlo, hhi⟩
  | succ k ih =>
    intro r hlo hhi
    rw [isqrtBits]
    split
    · next h =>
      refine ih _ h ?_
      rwa [add_assoc, ← two_mul, ← pow_succ']
    · next h => exact ih r hlo (not_le.1 h)

theorem isqrt_eq (n : ℕ) : isqrt n = Nat.sqrt n := by
  refine isqrtBits_spec n _ 0 (Nat.zero_le n) ?_
  rw [Nat.zero_add, ← pow_add]
  exact Nat.lt_log2_self.trans_le (Nat.pow_le_pow_right two_pos (by omega))

/-- The integer square root of the floor of a real number is the floor of its root. -/
theorem sqrt_floor_bounds {y : ℝ} {n : ℕ} (hlo : (n : ℝ) ≤ y) (hhi : y < n + 1) :
    (Nat.sqrt n : ℝ) ≤ √y ∧ √y < Nat.sqrt n + 1 := by
  have hy : 0 ≤ y := le_trans (Nat.cast_nonneg n) hlo
  have h1 : (Nat.sqrt n : ℝ) ^ 2 ≤ n := by exact_mod_cast Nat.sqrt_le' n
  have h2 : (n : ℝ) + 1 ≤ (Nat.sqrt n + 1) ^ 2 := by exact_mod_cast Nat.succ_le_succ_sqrt' n
  refine ⟨Real.le_sqrt_of_sq_le (h1.trans hlo), ?_⟩
  rw [Real.sqrt_lt hy (by positivity)]
  exact hhi.trans_le h2

/-! ## Quotients -/

theorem natDiv_bounds (a m : ℕ) : ((a / m : ℕ) : ℝ) ≤ a / m ∧ (a : ℝ) / m < (a / m : ℕ) + 1 := by
  refine ⟨Nat.cast_div_le, ?_⟩
  rw [← Nat.floor_div_eq_div (K := ℝ)]
  exact Nat.lt_floor_add_one _

theorem natDiv_exact_iff (a : ℕ) {m : ℕ} (hm : m ≠ 0) : a % m = 0 ↔ (a : ℝ) / m = (a / m : ℕ) := by
  have hm' : (m : ℝ) ≠ 0 := Nat.cast_ne_zero.2 hm
  constructor
  · exact fun h => (Nat.cast_div (Nat.dvd_of_mod_eq_zero h) hm').symm
  · intro h
    rw [div_eq_iff hm'] at h
    have : a = a / m * m := by exact_mod_cast h
    rw [this, Nat.mul_mod_left]

/-! ## An even exponent for a root -/

/-- A magnitude with half of its exponent, the significand doubled where the exponent is odd. -/
def evened (m : ℕ) (e : ℤ) : ℕ × ℤ := if e % 2 = 0 then (m, e / 2) else (2 * m, (e - 1) / 2)

theorem evened_value (m : ℕ) (e : ℤ) : ((evened m e).1 : ℝ) * (2 ^ (evened m e).2) ^ 2 = m * 2 ^ e := by
  have hsq (k : ℤ) : ((2 : ℝ) ^ k) ^ 2 = 2 ^ (k * 2) := by rw [← zpow_natCast, ← zpow_mul]; rfl
  rw [hsq]
  unfold evened
  split
  · next h => rw [Int.ediv_mul_cancel (Int.dvd_of_emod_eq_zero h)]
  · next h =>
    rw [Int.ediv_mul_cancel (by omega), Nat.cast_mul, mul_comm ((2 : ℕ) : ℝ), mul_assoc, zpow_sub_one₀ two_ne_zero]
    congr 1
    norm_num
    ring

theorem evened_ne_zero {m : ℕ} (hm : m ≠ 0) (e : ℤ) : (evened m e).1 ≠ 0 := by
  unfold evened
  split <;> simp [hm]

theorem sqrt_evened (m : ℕ) (e : ℤ) : √((m : ℝ) * 2 ^ e) = √(evened m e).1 * 2 ^ (evened m e).2 := by
  rw [← evened_value, Real.sqrt_mul (Nat.cast_nonneg _), Real.sqrt_sq (by positivity)]

theorem sqrtMag_eq (m : ℕ) (e : ℤ) :
    let n := (evened m e).1 * 2 ^ 120
    sqrtMag m e = withSticky (Nat.sqrt n) ((evened m e).2 - 60) (Nat.sqrt n * Nat.sqrt n == n) := by
  simp only [← isqrt_eq]
  by_cases h : e % 2 = 0 <;> simp [sqrtMag, evened, h]

theorem rsqrtMag_eq (m : ℕ) (e : ℤ) :
    let m' := (evened m e).1
    let k := Nat.log2 m' + 62
    let r := Nat.sqrt (2 ^ (2 * k) / m')
    rsqrtMag m e = withSticky r (-(k : ℤ) - (evened m e).2) (r * r * m' == 2 ^ (2 * k)) := by
  simp only [← isqrt_eq]
  by_cases h : e % 2 = 0 <;> simp [rsqrtMag, evened, h]

/-! ## Reciprocals and roots -/

section
variable {f : Fmt} (hf : isBinary f) {mode : RMode} (hmode : ∀ b, mode ≠ .rsr b) {m : ℕ} (hm : m ≠ 0) (e : ℤ) (neg : Bool)
include hf hmode hm

theorem recipMag_roundsTo :
    RoundsTo f mode false false neg (1 / (m * 2 ^ e)) (encodeBin f mode false false neg (recipMag m e).1 (recipMag m e).2) := by
  set k := Nat.log2 m + 60 with hk
  have hpos : 0 < m := Nat.pos_of_ne_zero hm
  have hn : 2 ^ 54 ≤ 2 ^ k / m := by
    rw [Nat.le_div_iff_mul_le hpos]
    calc 2 ^ 54 * m ≤ 2 ^ 54 * 2 ^ (Nat.log2 m + 1) := Nat.mul_le_mul_left _ Nat.lt_log2_self.le
      _ ≤ 2 ^ k := by rw [← pow_add]; exact Nat.pow_le_pow_right two_pos (by omega)
  have hx : (1 : ℝ) / (m * 2 ^ e) = ((2 ^ k : ℕ) : ℝ) / m * 2 ^ (-(k : ℤ) - e) := by
    rw [zpow_sub₀ two_ne_zero, zpow_neg, zpow_natCast, Nat.cast_pow]
    field_simp
    norm_num
  obtain ⟨hlo, hhi⟩ := natDiv_bounds (2 ^ k) m
  rw [hx]
  exact encodeBin_withSticky hf hmode false false neg hn hlo hhi (beq_iff_eq.trans (natDiv_exact_iff _ hm)) _

theorem sqrtMag_roundsTo :
    RoundsTo f mode false false neg √(m * 2 ^ e) (encodeBin f mode false false neg (sqrtMag m e).1 (sqrtMag m e).2) := by
  set m' := (evened m e).1 with hm'
  have hm0 : 1 ≤ m' := Nat.one_le_iff_ne_zero.2 (evened_ne_zero hm e)
  set n := m' * 2 ^ 120 with hn
  have hbig : 2 ^ 54 ≤ Nat.sqrt n := by
    rw [Nat.le_sqrt, hn]
    omega
  have hx : √((m : ℝ) * 2 ^ e) = √(n : ℝ) * 2 ^ ((evened m e).2 - 60) := by
    have h120 : ((2 : ℝ) ^ 120) = (2 ^ 60) ^ 2 := by norm_num
    rw [sqrt_evened, hn, Nat.cast_mul, Real.sqrt_mul (Nat.cast_nonneg _), Nat.cast_pow, Nat.cast_ofNat, h120,
      Real.sqrt_sq (by positivity), zpow_sub₀ two_ne_zero]
    norm_num
    ring
  obtain ⟨hlo, hhi⟩ := sqrt_floor_bounds (y := n) le_rfl (lt_add_one _)
  have hexact : (Nat.sqrt n * Nat.sqrt n == n) = true ↔ √(n : ℝ) = Nat.sqrt n := by
    rw [beq_iff_eq, Real.sqrt_eq_iff_mul_self_eq (Nat.cast_nonneg _) (Nat.cast_nonneg _)]
    exact_mod_cast eq_comm
  rw [hx, sqrtMag_eq]
  exact encodeBin_withSticky hf hmode false false neg hbig hlo hhi hexact _

theorem rsqrtMag_roundsTo :
    RoundsTo f mode false false neg (1 / √(m * 2 ^ e)) (encodeBin f mode false false neg (rsqrtMag m e).1 (rsqrtMag m e).2) := by
  set m' := (evened m e).1 with hm'
  have hm0 : m' ≠ 0 := evened_ne_zero hm e
  have hpos : 0 < m' := Nat.pos_of_ne_zero hm0
  have hposR : (0 : ℝ) < m' := Nat.cast_pos.2 hpos
  set k := Nat.log2 m' + 62 with hk
  set n := 2 ^ (2 * k) / m' with hn
  have hbig : 2 ^ 54 ≤ Nat.sqrt n := by
    rw [Nat.le_sqrt, hn, Nat.le_div_iff_mul_le hpos, ← pow_add]
    calc 2 ^ (54 + 54) * m' ≤ 2 ^ (54 + 54) * 2 ^ (Nat.log2 m' + 1) := Nat.mul_le_mul_left _ Nat.lt_log2_self.le
      _ ≤ 2 ^ (2 * k) := by rw [← pow_add]; exact Nat.pow_le_pow_right two_pos (by omega)
  set y : ℝ := ((2 ^ (2 * k) : ℕ) : ℝ) / m' with hy
  have hx : 1 / √((m : ℝ) * 2 ^ e) = √y * 2 ^ (-(k : ℤ) - (evened m e).2) := by
    have hsq : ((2 ^ (2 * k) : ℕ) : ℝ) = (2 ^ k) ^ 2 := by rw [Nat.cast_pow, Nat.cast_ofNat, mul_comm, pow_mul]
    have hroot : √(m' : ℝ) ≠ 0 := (Real.sqrt_pos.2 hposR).ne'
    rw [sqrt_evened, ← hm', hy, hsq, Real.sqrt_div (by positivity), Real.sqrt_sq (by positivity),
      zpow_sub₀ two_ne_zero, zpow_neg, zpow_natCast]
    field_simp
  obtain ⟨hfl, hfh⟩ := natDiv_bounds (2 ^ (2 * k)) m'
  obtain ⟨hlo, hhi⟩ := sqrt_floor_bounds hfl hfh
  have hexact : (Nat.sqrt n * Nat.sqrt n * m' == 2 ^ (2 * k)) = true ↔ √y = Nat.sqrt n := by
    rw [beq_iff_eq, Real.sqrt_eq_iff_mul_self_eq (by positivity) (Nat.cast_nonneg _), hy, div_eq_iff hposR.ne']
    exact_mod_cast eq_comm
  rw [hx, rsqrtMag_eq]
  exact encodeBin_withSticky hf hmode false false neg hbig hlo hhi hexact _

end

end Sys2Proof
end

section
/-! PROOFS. The special functions (R134): their codes fit, their special inputs, and one rounding of the exact value for the others,
and the obligation on them (O16). -/
namespace Sys2Proof
open Sys2Proof.Machine

/-! ## Codes fit -/

theorem roundBetween_lt {f : Fmt} (hf : isBinary f) {p : ℕ} {sc lo hi : ℤ} {r : ℕ × FFlags} (h : roundBetween f p sc lo hi = some r) :
    r.1 < 2 ^ f.bits := by
  unfold roundBetween at h
  split at h
  · dsimp only at h
    split at h
    · cases h
      exact encodeBin_lt hf _ _ _ _ _ _
    · cases h
  · cases h

theorem transRound_lt {f : Fmt} (hf : isBinary f) (fn : TransFn) (neg : Bool) (m : ℕ) (e : ℤ) {r : ℕ × FFlags} :
    ∀ {tries extra : ℕ}, transRound f fn neg m e tries extra = some r → r.1 < 2 ^ f.bits := by
  intro tries
  induction tries with
  | zero => exact fun h => nomatch h
  | succ tries ih =>
    intro extra h
    rw [transRound] at h
    split at h
    · next hb =>
      cases h
      exact roundBetween_lt hf hb
    · exact ih h

theorem transVal_lt {f : Fmt} (hf : isBinary f) (fn : TransFn) (code neg m : ℕ) (e : ℤ) :
    (transVal f fn code neg m e).1 < 2 ^ f.bits := by
  unfold transVal
  cases h : transRound f fn (neg == 1) m e 7 96 with
  | none => exact Nat.mod_lt _ (Nat.two_pow_pos _)
  | some r => exact transRound_lt hf fn _ m e h

theorem hugePow_lt {f : Fmt} (hf : isBinary f) (neg : Bool) : (hugePow f neg).1 < 2 ^ f.bits := encodeBin_lt hf ..

theorem ite_fst_lt {p : Prop} [Decidable p] {r r' : ℕ × FFlags} {n : ℕ} (h : r.1 < n) (h' : r'.1 < n) : (if p then r else r').1 < n := by
  split <;> assumption

/-- Every code that a special function gives fits its format. -/
theorem specialFunctions_lt {f : Fmt} (hf : HasInf f) (mode : RMode) (c : ℕ) :
    (floatRcp f c).1 < 2 ^ f.bits ∧ (floatRsq f c).1 < 2 ^ f.bits ∧ (floatSqrt f mode c).1 < 2 ^ f.bits ∧
      (floatEx2 f c).1 < 2 ^ f.bits ∧ (floatLg2 f c).1 < 2 ^ f.bits ∧ (floatSin f c).1 < 2 ^ f.bits ∧
      (floatCos f c).1 < 2 ^ f.bits := by
  have hb := isBinary_of_hasInf hf
  have hnan := nanCode_lt f
  have hs := signCode_lt hb
  have hinf (n : Bool) : signCode f n + f.infCode < 2 ^ f.bits := (decodeFmt_infCode hf n).1
  have hpos : f.infCode < 2 ^ f.bits := (Nat.le_add_left _ _).trans_lt (hinf false)
  have h0 := Nat.two_pow_pos f.bits
  have henc := encodeBin_lt hb
  have htrans := transVal_lt hb
  unfold floatRcp floatRsq floatSqrt floatEx2 floatLg2 floatSin floatCos
  cases decodeFmt f c with
  | nan s => exact ⟨hnan, hnan, hnan, hnan, hnan, hnan, hnan⟩
  | inf n => exact ⟨hs n, ite_fst_lt hnan h0, ite_fst_lt hnan hpos, ite_fst_lt h0 hpos, ite_fst_lt hnan hpos, hnan, hnan⟩
  | fin n m e =>
    dsimp only
    refine ⟨ite_fst_lt (hinf n) (henc ..), ite_fst_lt (hinf n) (ite_fst_lt hnan (henc ..)), ite_fst_lt (hs n) (ite_fst_lt hnan (henc ..)),
      ite_fst_lt (henc ..) (ite_fst_lt (hugePow_lt hb n) ?_), ite_fst_lt (hinf true) (ite_fst_lt hnan (ite_fst_lt (henc ..) (htrans ..))),
      ite_fst_lt (hs n) (htrans ..), ite_fst_lt (henc ..) (htrans ..)⟩
    split
    · exact henc ..
    · exact htrans ..

/-! ## Special inputs -/

section
variable {f : Fmt} (mode : RMode) {c : ℕ}

/-- All seven functions at once. -/
def AllFunctions (f : Fmt) (mode : RMode) (c : ℕ) (p : ℕ × FFlags → Prop) : Prop :=
  p (floatRcp f c) ∧ p (floatRsq f c) ∧ p (floatSqrt f mode c) ∧ p (floatEx2 f c) ∧ p (floatLg2 f c) ∧ p (floatSin f c) ∧ p (floatCos f c)

theorem specialFunctions_nan (h : (decodeFmt f c).isNan = true) :
    AllFunctions f mode c fun r => r = (f.nanCode, if (decodeFmt f c).isSig then flagNV else 0) := by
  obtain ⟨s, hs⟩ := exists_nan h
  unfold AllFunctions floatRcp floatRsq floatSqrt floatEx2 floatLg2 floatSin floatCos
  rw [hs]
  exact ⟨rfl, rfl, rfl, rfl, rfl, rfl, rfl⟩

/-- The code of one. -/
theorem encodeBin_one (hf : HasInf f) : encodeBin f .rne false false false 1 0 = (f.bias * 2 ^ f.fracBits, 0) := by
  rcases hf with rfl | rfl | rfl | rfl | rfl <;> decide

theorem specialFunctions_zero (hf : HasInf f) {n : Bool} {e : ℤ} (h : decodeFmt f c = .fin n 0 e) :
    floatRcp f c = (signCode f n + f.infCode, flagDZ) ∧ floatRsq f c = (signCode f n + f.infCode, flagDZ) ∧
      floatSqrt f mode c = (signCode f n, 0) ∧ floatEx2 f c = (f.bias * 2 ^ f.fracBits, 0) ∧
      floatLg2 f c = (signCode f true + f.infCode, flagDZ) ∧ floatSin f c = (signCode f n, 0) ∧
      floatCos f c = (f.bias * 2 ^ f.fracBits, 0) := by
  rw [← encodeBin_one hf]
  unfold floatRcp floatRsq floatSqrt floatEx2 floatLg2 floatSin floatCos
  rw [h]
  exact ⟨rfl, rfl, rfl, rfl, rfl, rfl, rfl⟩

theorem specialFunctions_inf (h : decodeFmt f c = .inf false) :
    floatRcp f c = (0, 0) ∧ floatRsq f c = (0, 0) ∧ floatSqrt f mode c = (f.infCode, 0) ∧ floatEx2 f c = (f.infCode, 0) ∧
      floatLg2 f c = (f.infCode, 0) ∧ floatSin f c = (f.nanCode, flagNV) ∧ floatCos f c = (f.nanCode, flagNV) := by
  have hs : signCode f false = 0 := Nat.zero_mul _
  unfold floatRcp floatRsq floatSqrt floatEx2 floatLg2 floatSin floatCos
  rw [h]
  exact ⟨congrArg (·, 0) hs, rfl, rfl, rfl, rfl, rfl, rfl⟩

theorem specialFunctions_negInf (h : decodeFmt f c = .inf true) :
    floatRcp f c = (signCode f true, 0) ∧ floatRsq f c = (f.nanCode, flagNV) ∧ floatSqrt f mode c = (f.nanCode, flagNV) ∧
      floatEx2 f c = (0, 0) ∧ floatLg2 f c = (f.nanCode, flagNV) ∧ floatSin f c = (f.nanCode, flagNV) ∧
      floatCos f c = (f.nanCode, flagNV) := by
  unfold floatRcp floatRsq floatSqrt floatEx2 floatLg2 floatSin floatCos
  rw [h]
  exact ⟨rfl, rfl, rfl, rfl, rfl, rfl, rfl⟩

theorem specialFunctions_negative {m : ℕ} {e : ℤ} (hm : m ≠ 0) (h : decodeFmt f c = .fin true m e) :
    floatRsq f c = (f.nanCode, flagNV) ∧ floatSqrt f mode c = (f.nanCode, flagNV) ∧ floatLg2 f c = (f.nanCode, flagNV) := by
  simp [floatRsq, floatSqrt, floatLg2, h, hm]

end

/-! ## Ordinary inputs -/

/-- A finite value by its sign and its magnitude in the reals. -/
theorem rat_cast_fin (n : Bool) (m : ℕ) (e : ℤ) : (rat (.fin n m e) : ℝ) = (if n then -1 else 1) * (m * 2 ^ e) := by
  rw [rat_fin]
  push_cast
  split <;> simp

theorem rat_cast_abs (n : Bool) (m : ℕ) (e : ℤ) : |(rat (.fin n m e) : ℝ)| = m * 2 ^ e := by
  have h : (0 : ℝ) ≤ m * 2 ^ e := by positivity
  cases n <;> simp [rat_cast_fin, abs_of_nonneg h]

theorem rat_fin_neg_iff {n : Bool} {m : ℕ} {e : ℤ} : rat (.fin n m e) < 0 ↔ n = true ∧ m ≠ 0 := by
  have hp : (0 : ℚ) < 2 ^ e := by positivity
  rcases Nat.eq_zero_or_pos m with rfl | hm
  · simp [rat_fin]
  · have hm' : (0 : ℚ) < m * 2 ^ e := by positivity
    cases n <;> simp [rat_fin, hm.ne', hm'.le, hm']

theorem rat_fin_pos_iff {n : Bool} {m : ℕ} {e : ℤ} : 0 < rat (.fin n m e) ↔ n = false ∧ m ≠ 0 := by
  have hp : (0 : ℚ) < 2 ^ e := by positivity
  rcases Nat.eq_zero_or_pos m with rfl | hm
  · simp [rat_fin]
  · have hm' : (0 : ℚ) < m * 2 ^ e := by positivity
    cases n <;> simp [rat_fin, hm.ne', hm'.le, hm']

section
variable {f : Fmt} (hf : HasInf f) {c m : ℕ} {n : Bool} {e : ℤ}
include hf

/-- The reciprocal of a nonzero value. -/
theorem floatRcp_roundsTo (h : decodeFmt f c = .fin n m e) (hm : m ≠ 0) :
    RoundsTo f .rne false false n (1 / (m * 2 ^ e)) (floatRcp f c) := by
  have hval : floatRcp f c = encodeBin f .rne false false n (recipMag m e).1 (recipMag m e).2 := by
    simp only [floatRcp, h, if_neg hm]
  exact hval ▸ recipMag_roundsTo (isBinary_of_hasInf hf) (by simp) hm e n

theorem floatRsq_roundsTo (h : decodeFmt f c = .fin false m e) (hm : m ≠ 0) :
    RoundsTo f .rne false false false (1 / √(m * 2 ^ e)) (floatRsq f c) := by
  have hval : floatRsq f c = encodeBin f .rne false false false (rsqrtMag m e).1 (rsqrtMag m e).2 := by
    simp only [floatRsq, h, if_neg hm, Bool.false_eq_true, if_false]
  exact hval ▸ rsqrtMag_roundsTo (isBinary_of_hasInf hf) (by simp) hm e false

theorem floatSqrt_roundsTo {mode : RMode} (hmode : ∀ b, mode ≠ .rsr b) (h : decodeFmt f c = .fin false m e) (hm : m ≠ 0) :
    RoundsTo f mode false false false √(m * 2 ^ e) (floatSqrt f mode c) := by
  have hval : floatSqrt f mode c = encodeBin f mode false false false (sqrtMag m e).1 (sqrtMag m e).2 := by
    simp only [floatSqrt, h, if_neg hm, Bool.false_eq_true, if_false]
  exact hval ▸ sqrtMag_roundsTo (isBinary_of_hasInf hf) hmode hm e false

/-! ## Powers of two -/

/-- Past the largest exponent a value overflows, and the code depends on its sign alone. -/
theorem encodeBin_of_huge (neg : Bool) (hm : m ≠ 0) (hl : 2 ^ 13 < log2Floor m e) :
    encodeBin f .rne false false neg m e = (overflowCode f .rne false neg, flagOF ||| flagNX) := by
  have hmax : f.maxCode < (2 * f.bias + 1) * 2 ^ f.fracBits ∧ f.bias < 2 ^ 13 := by
    rcases hf with rfl | rfl | rfl | rfl | rfl <;> decide
  have hshift : 2 * f.bias + 1 ≤ roundShift f (log2Floor m e) := by
    unfold roundShift
    omega
  rw [encodeBin_of_ne_zero _ _ _ _ hm]
  exact if_pos (hmax.1.trans_le ((Nat.mul_le_mul_right _ hshift).trans (Nat.le_add_right _ _)))

/-- Far below the least subnormal a value rounds to a zero of its sign. -/
theorem encodeBin_of_tiny (neg : Bool) (hm : m ≠ 0) (hl : log2Floor m e < -2 ^ 13) :
    encodeBin f .rne false false neg m e = (signCode f neg, flagNX ||| flagUF) := by
  have hbias : (f.bias : ℤ) + f.fracBits + 1 < 2 ^ 13 := by
    rcases hf with rfl | rfl | rfl | rfl | rfl <;> decide
  obtain ⟨-, hhi⟩ := log2Floor_bounds hm e
  have henc := encodeBin_of_ne_zero (f := f) .rne false false neg hm e
  dsimp only at henc
  set l := log2Floor m e
  set q : ℤ := max l (1 - f.bias) - f.fracBits with hq
  obtain ⟨hround, hinexact⟩ := roundAt_spec .rne neg m e q
  have hm' : (0 : ℝ) < m * 2 ^ e := by have := Nat.pos_of_ne_zero hm; positivity
  have hhalf : (m : ℝ) * 2 ^ e / 2 ^ q < 1 / 2 := by
    have hunit : 1 / 2 * (2 : ℝ) ^ q = 2 ^ (q - 1) := by rw [zpow_sub_one₀ two_ne_zero]; ring
    rw [div_lt_iff₀ (by positivity), hunit]
    exact hhi.trans_le (zpow_le_zpow_right₀ one_le_two (by omega))
  have h0 : (roundAt .rne neg m e q).1 = 0 := by
    by_contra hne
    have h1 : (1 : ℝ) ≤ (roundAt .rne neg m e q).1 := by exact_mod_cast Nat.one_le_iff_ne_zero.2 hne
    have := (abs_le.1 hround.1).1
    linarith
  have h2 : (roundAt .rne neg m e q).2 = true := hinexact.2 (by rw [h0]; simpa using hm'.ne)
  have hshift : roundShift f l = 0 := by unfold roundShift; omega
  have htiny : l < 1 - f.bias := by omega
  rw [henc, hshift, h0, h2]
  simp [flagIf, htiny]

theorem encodeBin_two_pow (k : ℤ) : RoundsTo f .rne false false false (2 ^ k) (encodeBin f .rne false false false 1 k) := by
  simpa using encodeBin_roundsTo (isBinary_of_hasInf hf) .rne false false false one_ne_zero k

omit hf in
/-- A finite value that is a nonzero integer. -/
theorem fin_of_rat_int {k : ℤ} (hk : rat (.fin n m e) = k) (h0 : k ≠ 0) : m ≠ 0 ∧ n = decide (k < 0) ∧ (m : ℝ) * 2 ^ e = k.natAbs := by
  have hm : m ≠ 0 := fun hm => h0 (by exact_mod_cast (hk.symm.trans (rat_fin_eq_zero.2 hm)))
  refine ⟨hm, ?_, ?_⟩
  · have hneg : k < 0 ↔ n = true := by
      rw [← Int.cast_lt_zero (R := ℚ), ← hk, rat_fin_neg_iff, and_iff_left hm]
    rw [Bool.eq_iff_iff, decide_eq_true_iff, hneg]
  · rw [← rat_cast_abs n m e, hk, Nat.cast_natAbs]
    simp

omit hf in
theorem asInteger_of_rat {k : ℤ} (hk : rat (.fin n m e) = k) (h0 : k ≠ 0) : asInteger n m e = some k := by
  obtain ⟨-, rfl, hmag⟩ := fin_of_rat_int hk h0
  obtain ⟨hround, hinexact⟩ := roundAt_spec .rtz (decide (k < 0)) m e 0
  rw [zpow_zero, div_one, hmag] at hround
  have h1 : (roundAt .rtz (decide (k < 0)) m e 0).1 = k.natAbs := Eq.trans hround (Nat.floor_natCast _)
  have h2 : (roundAt .rtz (decide (k < 0)) m e 0).2 = false := by
    rw [← Bool.not_eq_true, hinexact, h1, hmag]
    simp
  simp only [asInteger, h1, h2, Bool.false_eq_true, if_false, decide_eq_true_eq]
  congr 1
  omega

omit hf in
theorem log2Floor_one (k : ℤ) : log2Floor 1 k = k := by
  rw [log2Floor, show Nat.log2 1 = 0 from rfl]
  exact zero_add k

/-- A power of two far outside the range of the formats, whose code depends on the sign of the exponent alone. -/
theorem hugePow_eq {k : ℤ} (hk : 2 ^ 13 < k.natAbs) : hugePow f (decide (k < 0)) = encodeBin f .rne false false false 1 k := by
  have hlog := log2Floor_one k
  have hlog3 (e : ℤ) : log2Floor 3 e = 1 + e := congrArg (· + e) (show ((Nat.log2 3 : ℕ) : ℤ) = 1 from rfl)
  unfold hugePow
  by_cases hneg : k < 0
  · rw [decide_eq_true hneg, if_pos rfl, encodeBin_of_tiny hf false three_ne_zero (by rw [hlog3]; norm_num),
      encodeBin_of_tiny hf false one_ne_zero (by omega)]
  · rw [decide_eq_false hneg, if_neg Bool.false_ne_true, encodeBin_of_huge hf false three_ne_zero (by rw [hlog3]; norm_num),
      encodeBin_of_huge hf false one_ne_zero (by omega)]

/-- The power of two of an integer. -/
theorem floatEx2_roundsTo (h : decodeFmt f c = .fin n m e) {k : ℤ} (hk : rat (.fin n m e) = k) (h0 : k ≠ 0) :
    RoundsTo f .rne false false false (2 ^ k) (floatEx2 f c) := by
  obtain ⟨hm, rfl, hmag⟩ := fin_of_rat_int hk h0
  have hval : floatEx2 f c = encodeBin f .rne false false false 1 k := by
    simp only [floatEx2, h, if_neg hm]
    split
    · next hbig =>
      have habs : (2 : ℝ) ^ (14 : ℤ) ≤ k.natAbs :=
        hmag ▸ (zpow_le_zpow_right₀ one_le_two (by omega)).trans (log2Floor_bounds hm e).1
      have habs' : 2 ^ 14 ≤ k.natAbs := by exact_mod_cast habs
      exact hugePow_eq hf (by omega)
    · rw [asInteger_of_rat hk h0]
  exact hval ▸ encodeBin_two_pow hf k

omit hf in
/-- A value that is a power of two has a significand that is one. -/
theorem fin_of_rat_two_pow {k : ℤ} (hk : rat (.fin n m e) = 2 ^ k) :
    n = false ∧ m ≠ 0 ∧ m = 2 ^ Nat.log2 m ∧ log2Floor m e = k := by
  obtain ⟨rfl, hm⟩ := rat_fin_pos_iff.1 (hk ▸ (by positivity : (0 : ℚ) < 2 ^ k))
  have hmag : (m : ℝ) * 2 ^ e = 2 ^ k := by
    rw [← rat_cast_abs false m e, hk]
    simp
  obtain ⟨hlo, hhi⟩ := log2Floor_bounds hm e
  have hlog : log2Floor m e = k := by
    have h1 := lt_iff_lt_zpow_of_bounds hlo hhi k
    have h2 := lt_iff_lt_zpow_of_bounds hlo hhi (k + 1)
    rw [hmag] at h1 h2
    have hstep : (2 : ℝ) ^ k < 2 ^ (k + 1) := zpow_lt_zpow_right₀ one_lt_two (lt_add_one k)
    have := h2.2 hstep
    have := h1.not.2 (lt_irrefl _)
    omega
  refine ⟨rfl, hm, ?_, hlog⟩
  have hp : (2 : ℝ) ^ e ≠ 0 := by positivity
  have hpow : (m : ℝ) = 2 ^ Nat.log2 m := by
    rw [← mul_left_inj' hp, hmag, ← hlog, log2Floor, zpow_add₀ two_ne_zero, zpow_natCast]
  exact_mod_cast hpow

omit hf in
/-- The logarithm of a power of two. -/
theorem floatLg2_of_two_pow (h : decodeFmt f c = .fin n m e) {k : ℤ} (hk : rat (.fin n m e) = 2 ^ k) :
    floatLg2 f c = encodeBin f .rne false false (decide (k < 0)) k.natAbs 0 := by
  obtain ⟨rfl, hm, hpow, hlog⟩ := fin_of_rat_two_pow hk
  simp only [floatLg2, h, if_neg hm, if_pos hpow, hlog, Bool.false_eq_true, if_false]

theorem floatLg2_roundsTo (h : decodeFmt f c = .fin n m e) {k : ℤ} (hk : rat (.fin n m e) = 2 ^ k) (h0 : k ≠ 0) :
    RoundsTo f .rne false false (decide (k < 0)) |(k : ℝ)| (floatLg2 f c) := by
  rw [floatLg2_of_two_pow h hk]
  have henc := encodeBin_roundsTo (isBinary_of_hasInf hf) .rne false false (decide (k < 0)) (Int.natAbs_ne_zero.2 h0) 0
  rwa [zpow_zero, mul_one, Nat.cast_natAbs, Int.cast_abs] at henc

omit hf in
theorem floatLg2_one (h : decodeFmt f c = .fin n m e) (hk : rat (.fin n m e) = 1) : floatLg2 f c = (0, 0) := by
  rw [floatLg2_of_two_pow h (k := 0) (by rw [hk, zpow_zero])]
  exact congrArg (·, 0) (Nat.zero_mul _)

end

/-! ## O16 -/

/-- Settles O16: the special inputs by the class of the operand, the others by an integer quotient or root whose last bit tells
whether it was cut. -/
theorem specialFunctions : Obligations.SpecialFunctions := by
  unfold Obligations.SpecialFunctions
  refine ⟨fun s w d a => ?instructions, fun w mode c => ?values⟩
  case instructions =>
    intro n f gives
    have hlt := specialFunctions_lt (hasInf_fwFmt w) (modeOf s.cur.frm)
    simp only [fwFmt_bits, forall_and] at hlt
    obtain ⟨hrcp, hrsq, hsqrt, hex2, hlg2, hsin, hcos⟩ := hlt
    exact ⟨float1_runs (exec_frcp w d a s) (fun _ _ => hrcp _) fun _ _ => rfl,
      float1_runs (exec_frsq w d a s) (fun _ _ => hrsq _) fun _ _ => rfl,
      float1_runs (exec_fsqrt w d a s) (fun _ _ => hsqrt _) fun _ _ => rfl,
      float1_runs (exec_fex2 w d a s) (fun _ _ => hex2 _) fun _ _ => rfl,
      float1_runs (exec_flg2 w d a s) (fun _ _ => hlg2 _) fun _ _ => rfl,
      float1_runs (exec_fsin w d a s) (fun _ _ => hsin _) fun _ _ => rfl,
      float1_runs (exec_fcos w d a s) (fun _ _ => hcos _) fun _ _ => rfl⟩
  case values =>
    intro f v one all
    have hf := hasInf_fwFmt w
    refine ⟨specialFunctions_nan mode, fun h => ?zero, specialFunctions_inf mode, specialFunctions_negInf mode, fun hv hneg => ?negative,
      fun hv h0 => ?rcp, fun hv hpos => ?roots, fun k hv hk h0 => ?ex2, fun k hv hk h0 => ?lg2, fun hv h1 => ?lg2one⟩
    case zero =>
      obtain ⟨n, e, hz⟩ := exists_zero h
      have hneg : v.neg = n := congrArg FVal.neg hz
      rw [hneg]
      exact specialFunctions_zero mode hf hz
    all_goals
      obtain ⟨n, m, e, hfin⟩ := exists_fin hv
      have hrat : rat v = rat (.fin n m e) := congrArg rat hfin
    case negative =>
      obtain ⟨rfl, hm⟩ := rat_fin_neg_iff.1 (hrat ▸ hneg)
      exact specialFunctions_negative mode hm hfin
    case rcp =>
      have hneg : v.neg = n := congrArg FVal.neg hfin
      rw [hneg, hrat, rat_cast_abs]
      exact floatRcp_roundsTo hf hfin (rat_fin_eq_zero.not.1 (hrat ▸ h0))
    case roots =>
      obtain ⟨rfl, hm⟩ := rat_fin_pos_iff.1 (hrat ▸ hpos)
      have hmag : (rat v : ℝ) = m * 2 ^ e := by simp [hrat, rat_cast_fin]
      rw [hmag]
      exact ⟨floatRsq_roundsTo hf hfin hm, fun hmode => floatSqrt_roundsTo hf hmode hfin hm⟩
    case ex2 => exact floatEx2_roundsTo hf hfin (hrat.symm.trans hk) h0
    case lg2 => exact floatLg2_roundsTo hf hfin (hrat.symm.trans hk) h0
    case lg2one => exact floatLg2_one hfin (hrat.symm.trans h1)

end Sys2Proof
end

section
/-! PROOFS. Lanes written whether or not they are active, the flags of operand reads, row ends and the deal of a walk (R141, R142), and the
obligation on ragged walks (O19). -/
namespace Sys2Proof
open Sys2Proof.Machine

/-! ## Active lanes -/

theorem mem_activeLanes {t : Team} {x : ℕ} : x ∈ t.activeLanes ↔ x < t.lanes ∧ t.active x = true := by
  rw [Team.activeLanes, List.mem_filter, List.mem_range]

theorem activeLanes_ascending (t : Team) : t.activeLanes.Pairwise (· < ·) := List.pairwise_lt_range.filter _

/-! ## Scattered results -/

/-- The raised flags, the lanes `act` of `d` written, and a value pushed: what `lput` and `walk` have in common. -/
def Machine.Team.scatter (t : Team) (fl : FFlags) (d : VDst) (act : ℕ → Bool) (val : ℕ → Word) (latch : LaneVal) : Team :=
  match d with
  | some r => ((t.raise fl).writeLanes r act val).pushLane latch
  | none => (t.raise fl).pushLane latch

/-- What such a result does: as `LaneEffect`, but for the lanes that it writes. -/
structure ScatterEffect (fl : FFlags) (d : VDst) (act : ℕ → Bool) (val : ℕ → Word) (latch : LaneVal) (a b : Team) : Prop where
  raised : Raised fl a b
  push : LanePush a b
  latch : b.fl[0] = latch
  written : ∀ r, d = some r → ∀ x, x < a.lanes → laneAt b.v[r] x = if act x then val x else laneAt a.v[r] x
  others : ∀ r, d ≠ some r → b.v[r] = a.v[r] ∧ b.deadV[r] = a.deadV[r]
  frame : b = { a with fflags := b.fflags, pending := b.pending, fl := b.fl, fvalid := b.fvalid, v := b.v, deadV := b.deadV }

theorem scatter_effect (t : Team) (fl : FFlags) (d : VDst) (act : ℕ → Bool) (val : ℕ → Word) (latch : LaneVal) :
    ScatterEffect fl d act val latch t (t.scatter fl d act val latch) := by
  cases d with
  | none =>
    exact ⟨raised_of_raise _ _ _ rfl rfl, lanePush_of_pushLane _ _ latch rfl rfl rfl, rfl, nofun, fun _ _ => ⟨rfl, rfl⟩, rfl⟩
  | some q =>
    rw [Team.scatter, writeLanes_frame]
    refine ⟨raised_of_raise _ _ _ rfl rfl, lanePush_of_pushLane _ _ latch rfl rfl rfl, rfl, ?_, fun r hr => ?_, rfl⟩
    · rintro r hr x hx
      cases hr
      exact writeLanes_self (t.raise fl) q act val x hx
    · exact writeLanes_other (t.raise fl) q r act val fun h => hr (congrArg some h)

section
variable {fl : FFlags} {d : VDst} {act : ℕ → Bool} {val : ℕ → Word} {latch : LaneVal} {a b : Team}

theorem ScatterEffect.pc (e : ScatterEffect fl d act val latch a b) : b.pc = a.pc := by rw [e.frame]

theorem ScatterEffect.mask (e : ScatterEffect fl d act val latch a b) (k : MReg) : b.mask k = a.mask k := by
  rw [e.frame]
  rfl

theorem ScatterEffect.correct (e : ScatterEffect fl d act val latch a b) (x : Mask) : b.correct x = a.correct x := by
  rw [e.frame]
  rfl

end

/-! ## Flags of operand reads -/

/-- Flags that a read alone raises: neither an arithmetic flag nor EO. -/
def ReadFlags (fl : FFlags) : Prop := fl &&& 0x5F = 0

theorem readFlags_zero : ReadFlags 0 := rfl

theorem ReadFlags.or {x y : FFlags} (hx : ReadFlags x) (hy : ReadFlags y) : ReadFlags (x ||| y) := by
  unfold ReadFlags at *
  rw [BitVec.and_or_distrib_right, hx, hy]
  exact BitVec.or_zero

theorem readFlags_flagUnion {l : List FFlags} (h : ∀ x ∈ l, ReadFlags x) : ReadFlags (flagUnion l) := by
  suffices ∀ acc, ReadFlags acc → ReadFlags (l.foldl (· ||| ·) acc) from this 0 readFlags_zero
  induction l with
  | nil => exact fun _ hacc => hacc
  | cons x l ih =>
    obtain ⟨hx, hl⟩ := List.forall_mem_cons.1 h
    exact fun acc hacc => ih hl _ (hacc.or hx)

theorem readFlags_srcFlagsAt (t : Team) (xs : List ℕ) (a : LSrc) : ReadFlags (t.srcFlagsAt xs a) := by
  have hif (c : Bool) {fl : FFlags} (h : ReadFlags fl) : ReadFlags (flagIf c fl) := by
    cases c
    · exact readFlags_zero
    · exact h
  cases a with
  | v r => exact hif _ rfl
  | f k => exact hif _ rfl
  | s r => exact hif _ rfl
  | zero => exact readFlags_zero
  | lane => exact readFlags_zero
  | sub => exact readFlags_zero

theorem readFlags_laneRead (t : Team) (w : ℕ) (a : LSrc) (k j : ℕ) : ReadFlags (t.laneRead w a k j).2 := by
  unfold Team.laneRead
  split_ifs
  · exact readFlags_zero
  · exact (rfl : ReadFlags flagPZ)
  · exact readFlags_srcFlagsAt t _ a

/-! ## Masks -/

theorem setMask_mask_self (t : Team) (k : MDst) (x : Mask) {j : MReg} (h : j.val = k.val) : (t.setMask k x).mask j = t.correct x := by
  simp [Team.mask, Team.setMask, h]

theorem setMask_mask_other (t : Team) (k : MDst) (x : Mask) {j : MReg} (h : j.val ≠ k.val) : (t.setMask k x).mask j = t.mask j :=
  Vector.getElem_set_ne (by omega) _ h.symm

theorem setMask_correct (t : Team) (k : MDst) (x y : Mask) : (t.setMask k x).correct y = t.correct y := by
  have hdead : (t.setMask k x).dead = t.dead := Vector.getElem_set_ne (by omega) _ (by omega)
  rw [Team.correct, hdead]
  rfl

/-- The two masks that a walk writes. -/
theorem setMask_4_5 (t : Team) (x y : Mask) :
    ((t.setMask 4 x).setMask 5 y).mask 4 = t.correct x ∧ ((t.setMask 4 x).setMask 5 y).mask 5 = t.correct y ∧
      ∀ k : MReg, k ≠ 4 → k ≠ 5 → ((t.setMask 4 x).setMask 5 y).mask k = t.mask k := by
  refine ⟨?_, ?_, fun k h4 h5 => ?_⟩
  · rw [setMask_mask_other _ 5 y (by decide), setMask_mask_self t 4 x rfl]
  · rw [setMask_mask_self _ 5 y rfl, setMask_correct]
  · rw [setMask_mask_other _ 5 y fun h => h5 (Fin.ext h), setMask_mask_other t 4 x fun h => h4 (Fin.ext h)]

/-- A mask of lanes of the team, corrected. -/
theorem correct_maskOf (t : Team) (p : ℕ → Bool) {q : ℕ → Prop} (hp : ∀ x, p x = true ↔ q x) (hq : ∀ x, q x → x < t.lanes) {x : ℕ}
    (hx : x < 1024) : (t.correct (maskOf t.lanes p)).getLsbD x = true ↔ t.dead.getLsbD x = false ∧ q x := by
  rw [correct_getLsbD _ _ _ hx, maskOf_getLsbD _ _ _ hx]
  simp only [Bool.and_eq_true, decide_eq_true_eq, Bool.not_eq_true', hp]
  have := hq x
  tauto

/-! ## Rows -/

theorem getLastD_tabulate {α : Type} (n : ℕ) (f : ℕ → α) (d : α) : (tabulate n f).getLastD d = if n = 0 then d else f (n - 1) := by
  cases n with
  | zero => rfl
  | succ n => simp [tabulate, List.range_succ]

theorem tabulate_succ {α : Type} (n : ℕ) (f : ℕ → α) : tabulate (n + 1) f = f 0 :: tabulate n fun i => f (i + 1) := by
  simp [tabulate, List.range_succ_eq_map]

/-- The value of row `r`, zero in a dead lane. -/
def Machine.Team.row (t : Team) (a : LSrc) (r : ℕ) : ℕ := if t.dead.getLsbD r then 0 else (t.laneSrc 64 a r).toNat

theorem row_lt (t : Team) (a : LSrc) (r : ℕ) : t.row a r < 2 ^ 64 := by
  unfold Team.row
  split
  · exact Nat.two_pow_pos 64
  · exact (t.laneSrc 64 a r).isLt

theorem rows_values (t : Team) (a : LSrc) {n : ℕ} (hn : n ≤ t.lanes) : (t.rows a n).map Prod.fst = tabulate n (t.row a) := by
  rw [Team.rows, tabulate, List.map_map]
  refine tabulate_congr fun r hr => ?_
  rw [Function.comp_apply, Team.laneRead, if_neg (by omega), Team.row, apply_ite Prod.fst]
  exact if_congr Iff.rfl rfl (subEl_64_0 _)

theorem readFlags_rows {t : Team} {a : LSrc} {n : ℕ} {r : ℕ × FFlags} (h : r ∈ t.rows a n) : ReadFlags r.2 := by
  obtain ⟨k, -, rfl⟩ := mem_tabulate.1 h
  exact readFlags_laneRead t 64 a k 0

/-- Flags of some of the rows. -/
theorem readFlags_rowsUnion {t : Team} {a : LSrc} {n : ℕ} {l : List (ℕ × FFlags)} (h : ∀ r ∈ l, r ∈ t.rows a n) :
    ReadFlags (flagUnion (l.map Prod.snd)) := by
  refine readFlags_flagUnion fun fl hfl => ?_
  obtain ⟨r, hr, rfl⟩ := List.mem_map.1 hfl
  exact readFlags_rows (h r hr)

/-! ## Row ends (`walki`) -/

/-- The sum of the lengths of rows 0 to `r`, each cut to 32 bits. -/
def rowEnd (f : ℕ → ℕ) (r : ℕ) : ℕ := ((List.range (r + 1)).map fun q => f q % 2 ^ 32).sum

theorem rowEnd_zero (f : ℕ → ℕ) : rowEnd f 0 = f 0 % 2 ^ 32 := by simp [rowEnd]

theorem rowEnd_succ (f : ℕ → ℕ) (r : ℕ) : rowEnd f (r + 1) = f 0 % 2 ^ 32 + rowEnd (fun q => f (q + 1)) r := by
  rw [rowEnd, List.range_succ_eq_map, List.map_cons, List.sum_cons, List.map_map]
  rfl

theorem runningSums_tabulate (acc n : ℕ) (f : ℕ → ℕ) :
    runningSums acc (tabulate n f) = tabulate n fun r => (acc + rowEnd f r) % 2 ^ 64 := by
  induction n generalizing acc f with
  | zero => rfl
  | succ n ih =>
    rw [tabulate_succ, runningSums, ih, tabulate_succ, rowEnd_zero]
    refine congrArg _ (tabulate_congr fun r _ => ?_)
    rw [rowEnd_succ, Nat.mod_add_mod, add_assoc]
    rfl

theorem word_mod (n : ℕ) : word (n % 2 ^ 64) = word n := BitVec.eq_of_toNat_eq (by simp only [word_toNat, Nat.mod_mod])

/-- The last running end stands in every lane past the rows. -/
theorem word_rowEnds (n x : ℕ) (f : ℕ → ℕ) :
    word (nth ((runningSums 0 (tabulate n f)).getLastD 0) (runningSums 0 (tabulate n f)) x) =
      word (if n = 0 then 0 else rowEnd f (min x (n - 1))) := by
  rw [runningSums_tabulate, nth_tabulate, getLastD_tabulate]
  simp only [zero_add]
  by_cases hn : n = 0
  · rw [if_neg (by omega), if_pos hn, if_pos hn]
  · rw [if_neg hn, if_neg hn]
    split
    · rw [word_mod, min_eq_left (by omega)]
    · rw [word_mod, min_eq_right (by omega)]

/-! ## Deals (`walk`) -/

/-- What the lane dealt number `k` from element `p` on receives. -/
def dealtItem (rows : List ℕ) (p k x : ℕ) : Dealt :=
  let r := rows.findIdx fun e => decide (p + k < e)
  let c := wrap 64 (((p + k : ℕ) : ℤ) - (if r = 0 then 0 else nth 0 rows (r - 1)))
  ⟨x, word (r * 4294967296 + c % 4294967296), c == 0 || k == 0, r + 1⟩

theorem findIdx?_eq_findIdx {α : Type} {p : α → Bool} {l : List α} (h : ∃ a ∈ l, p a = true) : l.findIdx? p = some (l.findIdx p) :=
  List.findIdx?_eq_some_iff_findIdx_eq.2 ⟨List.findIdx_lt_length.2 h, rfl⟩

theorem deal_past {rows : List ℕ} {p total k : ℕ} (h : total ≤ (p + k) % 2 ^ 64) (xs : List ℕ) : deal rows p total k xs = [] := by
  induction xs with
  | nil => rfl
  | cons x xs ih => rw [deal, if_neg (by omega), ih]

theorem deal_cons {rows : List ℕ} {p total k : ℕ} (hk : p + k < total) (htotal : total < 2 ^ 64) (hrow : ∃ e ∈ rows, p + k < e)
    (x : ℕ) (xs : List ℕ) : deal rows p total k (x :: xs) = dealtItem rows p k x :: deal rows p total (k + 1) xs := by
  have hel : (p + k) % 2 ^ 64 = p + k := Nat.mod_eq_of_lt (hk.trans htotal)
  have hfind : rows.findIdx? (fun e => decide (p + k < e)) = some (rows.findIdx fun e => decide (p + k < e)) :=
    findIdx?_eq_findIdx (by simpa using hrow)
  simp only [deal, hel, if_pos hk, hfind]
  rfl

/-- Element `p + k` and those after it go to the first lanes, as many as there are of both. -/
theorem deal_eq {rows : List ℕ} {p total : ℕ} (htotal : total < 2 ^ 64) (hrows : ∀ el, el < total → ∃ e ∈ rows, el < e) (xs : List ℕ)
    {k : ℕ} (hk : p + k < 2 ^ 64) :
    deal rows p total k xs = (xs.take (total - (p + k))).mapIdx fun i x => dealtItem rows p (k + i) x := by
  induction xs generalizing k with
  | nil => rw [List.take_nil]; rfl
  | cons x xs ih =>
    rcases lt_or_ge (p + k) total with hlt | hge
    · obtain ⟨n, hn⟩ : ∃ n, total - (p + k) = n + 1 := ⟨total - (p + k) - 1, by omega⟩
      have hn' : total - (p + (k + 1)) = n := by omega
      rw [deal_cons hlt htotal (hrows _ hlt), ih (by omega), hn, hn', List.take_succ_cons, List.mapIdx_cons]
      simp only [add_zero, Nat.add_assoc, Nat.add_comm 1]
    · rw [deal_past (by rwa [Nat.mod_eq_of_lt hk]), Nat.sub_eq_zero_of_le hge]
      rfl

/-- The place of `x` in an ascending list. -/
def rankIn (xs : List ℕ) (x : ℕ) : ℕ := (xs.filter (· < x)).length

/-- Of what is dealt to the first `n` lanes of an ascending list, lane `x` receives what falls to its place. -/
theorem find_dealt {xs : List ℕ} (hxs : xs.Pairwise (· < ·)) {g : ℕ → ℕ → Dealt} (hg : ∀ k y, (g k y).lane = y) (n k x : ℕ) :
    ((xs.take n).mapIdx fun i y => g (k + i) y).find? (fun e => e.lane == x) =
      if x ∈ xs ∧ rankIn xs x < n then some (g (k + rankIn xs x) x) else none := by
  induction xs generalizing n k with
  | nil => simp
  | cons y ys ih =>
    obtain ⟨hy, hys⟩ := List.pairwise_cons.1 hxs
    cases n with
    | zero => simp
    | succ n =>
      rw [List.take_succ_cons, List.mapIdx_cons, List.find?_cons, hg]
      simp only [add_zero, ← Nat.add_assoc, Nat.add_right_comm k _ 1]
      rcases eq_or_ne y x with rfl | hne
      · have hrank : rankIn (y :: ys) y = 0 := by
          rw [rankIn, List.length_eq_zero_iff, List.filter_eq_nil_iff]
          simpa using fun z hz => (hy z hz).le
        simp [hrank]
      · have hbeq : (y == x) = false := beq_eq_false_iff_ne.2 hne
        rw [hbeq, ih hys]
        by_cases hx : x ∈ ys
        · have hrank : rankIn (y :: ys) x = rankIn ys x + 1 := by
            simp [rankIn, hy x hx]
          simp only [hrank, Nat.add_assoc, Nat.add_comm 1]
          simp [hx]
        · simp [hx, hne.symm]

section
variable (t : Team) (d : VDst) (a : LSrc) (b : BReg)

/-- What lane `x` receives of a walk. -/
def Machine.Team.walkItem (x : ℕ) : Option Dealt := (t.dealt a b).find? fun e => e.lane == x

/-- The end of the last row. -/
def Machine.Team.walkEnd : ℕ := if t.rowCount b = 0 then 0 else t.row a (t.rowCount b - 1)

theorem walkEnd_lt : t.walkEnd a b < 2 ^ 64 := by
  unfold Team.walkEnd
  split
  · exact Nat.two_pow_pos 64
  · exact row_lt t a _

theorem rows_walk : (t.rows a (t.rowCount b)).map Prod.fst = tabulate (t.rowCount b) (t.row a) := rows_values t a (min_le_right _ _)

theorem exists_row {el : ℕ} (h : el < t.walkEnd a b) : ∃ e ∈ tabulate (t.rowCount b) (t.row a), el < e := by
  unfold Team.walkEnd at h
  split at h
  · omega
  · exact ⟨_, mem_tabulate.2 ⟨t.rowCount b - 1, by omega, rfl⟩, h⟩

theorem dealt_eq : t.dealt a b = (t.activeLanes.take (t.walkEnd a b - t.pidx.toNat)).mapIdx fun i x =>
    dealtItem (tabulate (t.rowCount b) (t.row a)) t.pidx.toNat (0 + i) x := by
  simp only [Team.dealt, rows_walk, getLastD_tabulate]
  exact deal_eq (walkEnd_lt t a b) (fun _ => exists_row t a b) _ t.pidx.isLt

theorem length_dealt : (t.dealt a b).length = min (t.walkEnd a b - t.pidx.toNat) t.activeLanes.length := by
  rw [dealt_eq, List.length_mapIdx, List.length_take]

/-- Lane `x` is active, and its element lies before the end of the last row. -/
def Machine.Team.isDealt (x : ℕ) : Prop :=
  x < t.lanes ∧ t.active x = true ∧ t.pidx.toNat + rankIn t.activeLanes x < t.walkEnd a b

theorem walkItem_eq_some {x : ℕ} (h : t.isDealt a b x) :
    t.walkItem a b x = some (dealtItem (tabulate (t.rowCount b) (t.row a)) t.pidx.toNat (rankIn t.activeLanes x) x) := by
  obtain ⟨hx, hact, hel⟩ := h
  rw [Team.walkItem, dealt_eq, find_dealt (activeLanes_ascending t) (fun _ _ => rfl), if_pos ⟨mem_activeLanes.2 ⟨hx, hact⟩, by omega⟩,
    zero_add]

theorem walkItem_eq_none {x : ℕ} (h : ¬ t.isDealt a b x) : t.walkItem a b x = none := by
  rw [Team.walkItem, dealt_eq, find_dealt (activeLanes_ascending t) (fun _ _ => rfl), if_neg]
  rintro ⟨hmem, hel⟩
  obtain ⟨hx, hact⟩ := mem_activeLanes.1 hmem
  exact h ⟨hx, hact, by omega⟩

/-- Row `r` is the first whose end lies past the element of lane `x`. -/
def Machine.Team.isRow (x r : ℕ) : Prop :=
  r < t.rowCount b ∧ t.pidx.toNat + rankIn t.activeLanes x < t.row a r ∧
    ∀ q, q < r → t.row a q ≤ t.pidx.toNat + rankIn t.activeLanes x

/-- The place of lane `x`'s element in row `r`. -/
def Machine.Team.col (x r : ℕ) : ℤ := (t.pidx.toNat + rankIn t.activeLanes x : ℤ) - (if r = 0 then 0 else t.row a (r - 1))

theorem isRow_iff (x r : ℕ) : t.isRow a b x r ↔ r < t.rowCount b ∧
    (tabulate (t.rowCount b) (t.row a)).findIdx (fun e => decide (t.pidx.toNat + rankIn t.activeLanes x < e)) = r := by
  refine and_congr_right fun hr => ?_
  rw [List.findIdx_eq (by rwa [tabulate_length])]
  simp [tabulate]

theorem exists_isRow {x : ℕ} (h : t.isDealt a b x) : ∃ r, t.isRow a b x r := by
  refine ⟨_, (isRow_iff t a b x _).2 ⟨?_, rfl⟩⟩
  obtain ⟨-, -, hel⟩ := h
  obtain ⟨e, he, hlt⟩ := exists_row t a b hel
  have hidx := (List.findIdx_lt_length (p := fun e => decide (t.pidx.toNat + rankIn t.activeLanes x < e))).2 ⟨e, he, decide_eq_true hlt⟩
  rwa [tabulate_length] at hidx

/-- What lane `x` receives, its row known. -/
theorem dealtItem_of_isRow {x r : ℕ} (h : t.isRow a b x r) :
    dealtItem (tabulate (t.rowCount b) (t.row a)) t.pidx.toNat (rankIn t.activeLanes x) x =
      ⟨x, word (r * 2 ^ 32 + (t.col a x r % 2 ^ 32).toNat), t.col a x r % 2 ^ 64 == 0 || rankIn t.activeLanes x == 0, r + 1⟩ := by
  obtain ⟨hr, hfind⟩ := (isRow_iff t a b x r).1 h
  have hprev : nth 0 (tabulate (t.rowCount b) (t.row a)) (r - 1) = t.row a (r - 1) := by rw [nth_tabulate, if_pos (by omega)]
  have hcol : wrap 64 (t.col a x r) % 4294967296 = (t.col a x r % 2 ^ 32).toNat := by
    rw [wrap_eq]
    omega
  have hstart : (wrap 64 (t.col a x r) == 0) = (t.col a x r % 2 ^ 64 == 0) := by
    rw [wrap_eq, Bool.eq_iff_iff, beq_iff_eq, beq_iff_eq]
    omega
  rw [← hcol, ← hstart, Team.col, ← hprev]
  simp only [dealtItem, hfind, Nat.cast_add]
  rfl

/-- The flags of a walk: those of the rows it reads, of its latches and of the lanes that keep their old d. -/
def Machine.Team.walkFlags : FFlags :=
  let rs := t.rows a (t.rowCount b)
  flagUnion ((rs.take (rowsUsed (t.dealt a b))).map Prod.snd) ||| (rs.getLastD (0, 0)).2 ||| t.latchFlag a |||
    t.latchFlag (.s b) ||| t.srcFlagsAt (t.undealt (t.dealt a b)) (.v (VDst.field d))

theorem readFlags_walkFlags : ReadFlags (t.walkFlags d a b) := by
  refine ((((readFlags_rowsUnion fun r => List.mem_of_mem_take).or ?_).or (readFlags_srcFlagsAt t _ a)).or
    (readFlags_srcFlagsAt t _ (.s b))).or (readFlags_srcFlagsAt t _ _)
  rw [Team.rows, getLastD_tabulate]
  split
  · exact readFlags_zero
  · exact readFlags_laneRead t 64 a _ 0

/-- What a walk pushes. -/
def Machine.Team.walkLatch : LaneVal :=
  tabulate t.lanes fun x => if t.active x then ((t.walkItem a b x).map Dealt.value).getD (t.old d x) else 0

/-- The lanes dealt to, and those whose element begins a segment. -/
def Machine.Team.dealtMask : Mask := maskOf t.lanes fun x => (t.walkItem a b x).isSome
def Machine.Team.startMask : Mask := maskOf t.lanes fun x => ((t.walkItem a b x).map Dealt.start).getD false

theorem exec_walk_scatter (s : State) : exec (.walk d a b) s = teamStep 4 (fun t =>
    { ((t.scatter (t.walkFlags d a b) d (fun x => (t.walkItem a b x).isSome) (fun x => ((t.walkItem a b x).map Dealt.value).getD 0)
        (t.walkLatch d a b)).setMask 4 (t.dealtMask a b)).setMask 5 (t.startMask a b) with
      pidx := t.pidx + word (t.dealt a b).length }) s := by
  rw [exec_walk]
  cases d <;> rfl

theorem walkLatch_dealt {x : ℕ} (h : t.isDealt a b x) :
    laneAt (t.walkLatch d a b) x = ((t.walkItem a b x).map Dealt.value).getD 0 := by
  rw [Team.walkLatch, laneAt, nth_tabulate, if_pos h.1, if_pos h.2.1, walkItem_eq_some t a b h]
  rfl

theorem walkLatch_undealt {x : ℕ} (hx : x < t.lanes) (hact : t.active x = true) (h : ¬ t.isDealt a b x) :
    laneAt (t.walkLatch d a b) x = t.old d x := by
  rw [Team.walkLatch, laneAt, nth_tabulate, if_pos hx, if_pos hact, walkItem_eq_none t a b h]
  rfl

theorem walkItem_isSome {x : ℕ} : (t.walkItem a b x).isSome = true ↔ t.isDealt a b x := by
  by_cases h : t.isDealt a b x
  · simp [walkItem_eq_some t a b h, h]
  · simp [walkItem_eq_none t a b h, h]

/-- The value of a dealt lane, its row known. -/
theorem walkItem_value {x r : ℕ} (h : t.isDealt a b x) (hr : t.isRow a b x r) :
    ((t.walkItem a b x).map Dealt.value).getD 0 = word (r * 2 ^ 32 + (t.col a x r % 2 ^ 32).toNat) := by
  rw [walkItem_eq_some t a b h, dealtItem_of_isRow t a b hr]
  rfl

theorem walkItem_start {x : ℕ} : ((t.walkItem a b x).map Dealt.start).getD false = true ↔
    t.isDealt a b x ∧ (rankIn t.activeLanes x = 0 ∨ ∃ r, t.isRow a b x r ∧ t.col a x r % 2 ^ 64 = 0) := by
  by_cases h : t.isDealt a b x
  · obtain ⟨r, hr⟩ := exists_isRow t a b h
    have huniq {q : ℕ} (hq : t.isRow a b x q) : q = r := ((isRow_iff t a b x q).1 hq).2.symm.trans ((isRow_iff t a b x r).1 hr).2
    have hcol : (∃ q, t.isRow a b x q ∧ t.col a x q % 2 ^ 64 = 0) ↔ t.col a x r % 2 ^ 64 = 0 :=
      ⟨fun ⟨q, hq, hz⟩ => huniq hq ▸ hz, fun hz => ⟨r, hr, hz⟩⟩
    rw [walkItem_eq_some t a b h, dealtItem_of_isRow t a b hr, hcol]
    simp [h, or_comm]
  · simp [walkItem_eq_none t a b h, h]

theorem correct_dealtMask {x : ℕ} (hx : x < 1024) :
    (t.correct (t.dealtMask a b)).getLsbD x = true ↔ t.dead.getLsbD x = false ∧ t.isDealt a b x :=
  correct_maskOf t _ (fun _ => walkItem_isSome t a b) (fun _ h => h.1) hx

theorem correct_startMask {x : ℕ} (hx : x < 1024) : (t.correct (t.startMask a b)).getLsbD x = true ↔ t.dead.getLsbD x = false ∧
    t.isDealt a b x ∧ (rankIn t.activeLanes x = 0 ∨ ∃ r, t.isRow a b x r ∧ t.col a x r % 2 ^ 64 = 0) :=
  correct_maskOf t _ (fun _ => walkItem_start t a b) (fun _ h => h.1.1) hx

theorem walkLatch_idle {x : ℕ} (hx : x < t.lanes) (hact : t.active x = false) : laneAt (t.walkLatch d a b) x = 0 := by
  rw [Team.walkLatch, laneAt, nth_tabulate, if_pos hx, hact]
  rfl

end

/-! ## O19 -/

/-- The row ends stand in the active lanes, and `%pidx` alone moves beside them. -/
theorem walki_runs (s : State) (d : VDst) (a : LSrc) (b : BReg) :
    let R := s.cur.rowCount b
    Runs (.walki d a b) s fun u v => v.pidx = 0 ∧ ∃ fl, ReadFlags fl ∧
      LaneEffect 4 d fl (fun x r => r = word (if R = 0 then 0 else rowEnd (s.cur.row a) (min x (R - 1)))) u
        { v with pidx := u.pidx } := by
  intro R
  have hrows : (s.cur.rows a (s.cur.rowCount b)).map Prod.fst = tabulate R (s.cur.row a) := rows_walk s.cur a b
  let fl : FFlags := flagUnion ((s.cur.rows a R).map Prod.snd) ||| s.cur.latchFlag a ||| s.cur.latchFlag (.s b)
  have hfl : ReadFlags fl := ((readFlags_rowsUnion fun _ => id).or (readFlags_srcFlagsAt s.cur _ a)).or
    (readFlags_srcFlagsAt s.cur _ (.s b))
  have e := laneResult_effect s.cur 4 d fl fun x => word (if R = 0 then 0 else rowEnd (s.cur.row a) (min x (R - 1)))
  refine runs_teamStep (exec_walki d a b s) ⟨rfl, fl, hfl, ?_⟩
  simp only [hrows, word_rowEnds]
  have hp := congrArg Team.pidx e.frame
  rw [← (show _ = s.cur.pidx from hp)]
  exact e

/-- Settles O19: the deal gives the active lanes the elements in order, each with the first row whose end lies past it. -/
theorem raggedWalks : Obligations.RaggedWalks := by
  unfold Obligations.RaggedWalks
  intro s d a b t R row ends P T rank dealt isRow col item
  refine ⟨walki_runs s d a b, runs_teamStep (exec_walk_scatter d a b s) ?_⟩
  have e := scatter_effect t (t.walkFlags d a b) d (fun x => (t.walkItem a b x).isSome)
    (fun x => ((t.walkItem a b x).map Dealt.value).getD 0) (t.walkLatch d a b)
  have hitem (x : ℕ) (hd : dealt x) : item x (((t.walkItem a b x).map Dealt.value).getD 0) := fun r hr => walkItem_value t a b hd hr
  generalize t.scatter _ d _ _ _ = W at e
  obtain ⟨h4, h5, hrest⟩ := setMask_4_5 W (t.dealtMask a b) (t.startMask a b)
  rw [e.correct] at h4 h5
  rw [length_dealt]
  refine ⟨rfl, fun k hk4 hk5 => (hrest k hk4 hk5).trans (e.mask k), fun x hx => h4 ▸ correct_dealtMask t a b hx,
    fun x hx => h5 ▸ correct_startMask t a b hx,
    ⟨t.walkFlags d a b, readFlags_walkFlags t d a b, e.raised.flags, e.raised.pending⟩, congrArg (· + word 4) e.pc,
    ⟨e.push.shift, e.push.uniform⟩, fun x hx => ⟨fun hact => e.latch ▸ walkLatch_idle t d a b hx hact, fun hd => ?value,
      fun hact hd => e.latch ▸ walkLatch_undealt t d a b hx hact hd⟩,
    fun r hr x hx => ⟨fun hd => ?written, fun hd => (e.written r hr x hx).trans (if_neg ((walkItem_isSome t a b).not.2 hd))⟩,
    e.others, ?frame⟩
  case value =>
    have h := hitem x hd
    rw [← walkLatch_dealt t d a b hd, ← e.latch] at h
    exact h
  case written =>
    have h := hitem x hd
    rw [← (e.written r hr x hx).trans (if_pos ((walkItem_isSome t a b).2 hd))] at h
    exact h
  case frame =>
    rw [e.frame]
    rfl

end Sys2Proof
end

section
/-! PROOFS. Lanes that read other lanes, votes, and lanes that write other lanes (R137 to R139), the first part of O18. -/
namespace Sys2Proof
open Sys2Proof.Machine

/-! ## Reads of other lanes (R137, R138) -/

/-- Elements with flags at any width, where they fill the register. -/
theorem laneResultF_elements (t : Team) (len : ℕ) {w : ℕ} (hw : 64 / w * w ≤ 64) (d : VDst) (op : FFlags) {g : ℕ → ℕ → ℕ × FFlags}
    {Q : ℕ → ℕ → ℕ × FFlags → Prop} (hg : ∀ x j, (g x j).1 < 2 ^ w) (hQ : ∀ x j, Q x j (g x j)) :
    FloatEffect len w d op Q t ((t.laneResultF d op fun x => subsWith w (64 / w) (g x)).advance len) := by
  obtain ⟨fl, hfl, heff⟩ := laneResultF_effect t len hw d op hg
  exact ⟨fl, g, fun x j _ _ _ => hQ x j, hfl, heff.imp fun x v _ _ h => h.1⟩

/-- What a read of element `j` of lane `k` gives (R137). -/
def LaneRead (t : Team) (w : ℕ) (a : LSrc) (k j : ℕ) (r : ℕ × FFlags) : Prop :=
  if t.lanes ≤ k then r = (0, 0) else if t.dead.getLsbD k then r = (0, flagPZ) else r = (t.sub w a k j, t.srcFlagsAt [k] a)

theorem laneRead_reads (t : Team) (w : ℕ) (a : LSrc) (k j : ℕ) : LaneRead t w a k j (t.laneRead w a k j) := by
  unfold LaneRead Team.laneRead
  split_ifs
  · rfl
  · rfl
  · rfl

theorem laneRead_lt (t : Team) (w : ℕ) (a : LSrc) (k j : ℕ) : (t.laneRead w a k j).1 < 2 ^ w := by
  unfold Team.laneRead
  split_ifs
  · exact Nat.two_pow_pos w
  · exact Nat.two_pow_pos w
  · exact sub_lt t w a k j

theorem laneGather_runs {i : Instr} {s : State} {w : IW} {d : VDst} {a b : LSrc} {pick : ℕ → ℕ → ℕ}
    (h : exec i s = laneGather w d a b pick s) :
    let n := iwBits w
    let idx := s.cur.sub n b
    Runs i s (FloatEffect 4 n d (s.cur.srcFlagsAt [] a ||| s.cur.srcFlags b) fun x j =>
      LaneRead s.cur n a (pick x (idx x j)) (idx x j % 16 % (64 / n))) :=
  runs_teamStep h (laneResultF_elements s.cur 4 (iwBits_mul w).le d _ (fun _ _ => laneRead_lt _ _ _ _ _)
    fun _ _ => laneRead_reads _ _ _ _ _)

/-- A whole lane as the one sub-element of its width. -/
theorem subsWith_whole (r : ℕ × FFlags) : subsWith 64 (64 / 64) (fun _ => r) = (word r.1, r.2) := by
  have hfield : Machine.field r.1 0 64 = r.1 % 2 ^ 64 := Nat.mul_one _
  refine Prod.ext ?_ BitVec.zero_or
  rw [subsWith_fst, ← word_mod r.1, ← hfield]
  exact congrArg word (Nat.zero_add _)

theorem shfli_runs (s : State) (d : VDst) (a : LSrc) (p : ShflPat) (k : BitVec 5) :
    Runs (.shfli d a p k) s (FloatEffect 4 64 d (s.cur.srcFlagsAt [] a) fun x _ => LaneRead s.cur 64 a (shfliLane p k.toNat x) 0) := by
  refine runs_teamStep (exec_shfli d a p k s) ?_
  simp only [← subsWith_whole]
  exact laneResultF_elements s.cur 4 le_rfl d _ (fun _ _ => laneRead_lt _ _ _ _ _) fun _ _ => laneRead_reads _ _ _ _ _

/-! ## Votes (R139) -/

theorem voteHolds_any {l : List ℕ} {p : ℕ → Bool} : voteHolds .any (l.map p) = true ↔ ∃ y ∈ l, p y = true := by
  simp [voteHolds]

theorem voteHolds_all {l : List ℕ} {p : ℕ → Bool} : voteHolds .all (l.map p) = true ↔ ∀ y ∈ l, p y = true := by
  simp [voteHolds]

/-- All or none is every two alike. -/
theorem voteHolds_eq {l : List ℕ} {p : ℕ → Bool} :
    voteHolds .eq (l.map p) = true ↔ ∀ y ∈ l, ∀ z ∈ l, (p y = true ↔ p z = true) := by
  have hsplit : voteHolds .eq (l.map p) = true ↔ (∀ y ∈ l, p y = true) ∨ ∀ y ∈ l, ¬ p y = true := by simp [voteHolds]
  rw [hsplit]
  constructor
  · rintro (h | h) y hy z hz
    · exact iff_of_true (h y hy) (h z hz)
    · exact iff_of_false (h y hy) (h z hz)
  · intro h
    by_cases hex : ∃ z ∈ l, p z = true
    · obtain ⟨z, hz, hpz⟩ := hex
      exact .inl fun y hy => (h y hy z hz).2 hpz
    · exact .inr fun y hy hp => hex ⟨y, hy, hp⟩

theorem vote_runs (s : State) (kind : VoteKind) (md : MDst) (a : LSrc) :
    Runs (.vote kind md a) s (MaskEffect md (s.cur.srcFlags a) fun x => s.cur.active x = true ∧
      voteHolds kind (s.cur.activeLanes.map fun y => s.cur.laneSrc 64 a y != 0) = true) := by
  refine runs_teamStep (exec_vote kind md a s) ((setMask_effect s.cur md _ _).iff fun x _ _ => ?_)
  split
  · next h => exact (and_iff_left h).symm
  · next h => exact iff_of_false (by simp) fun hx => h hx.2

/-! ## Writes of other lanes (R137) -/

theorem subEl_testBit (w : ℕ) (x : Word) (j : ℕ) {k : ℕ} (hk : k < w) : (subEl w x j).testBit k = x.getLsbD (j * w + k) := by
  rw [subEl, bits, Nat.testBit_mod_two_pow, decide_eq_true hk, Bool.true_and, Nat.testBit_div_two_pow, BitVec.testBit_toNat, add_comm]

theorem eq_of_testBit_lt {w x y : ℕ} (hx : x < 2 ^ w) (hy : y < 2 ^ w) (h : ∀ k, k < w → x.testBit k = y.testBit k) : x = y := by
  refine Nat.eq_of_testBit_eq fun k => ?_
  rcases lt_or_ge k w with hk | hk
  · exact h k hk
  · rw [Nat.testBit_lt_two_pow (hx.trans_le (Nat.pow_le_pow_right two_pos hk)),
      Nat.testBit_lt_two_pow (hy.trans_le (Nat.pow_le_pow_right two_pos hk))]

theorem element_fits {w j : ℕ} (hw : 64 / w * w ≤ 64) (hj : j < 64 / w) : j * w + w ≤ 64 :=
  (Nat.succ_mul j w ▸ Nat.mul_le_mul_right w hj).trans hw

theorem subEl_setBits_same {w j : ℕ} (hw : 64 / w * w ≤ 64) (hj : j < 64 / w) (x : Word) (v : ℕ) :
    subEl w (setBits x (j * w) w v) j = v % 2 ^ w := by
  have hfit := element_fits hw hj
  refine eq_of_testBit_lt (subEl_lt w _ _) (Nat.mod_lt _ (Nat.two_pow_pos w)) fun k hk => ?_
  rw [subEl_testBit w _ _ hk, setBits_getLsbD _ _ _ _ _ (by omega), if_pos (by omega), Nat.add_sub_cancel_left,
    Nat.testBit_mod_two_pow, decide_eq_true hk, Bool.true_and]

theorem subEl_setBits_other {w i j : ℕ} (hw : 64 / w * w ≤ 64) (hj : j < 64 / w) (hij : i ≠ j) (x : Word) (v : ℕ) :
    subEl w (setBits x (i * w) w v) j = subEl w x j := by
  have hfit := element_fits hw hj
  refine eq_of_testBit_lt (subEl_lt w _ _) (subEl_lt w _ _) fun k hk => ?_
  have hout : ¬ (i * w ≤ j * w + k ∧ j * w + k < i * w + w) := by
    rcases lt_or_gt_of_ne hij with h | h
    · have := Nat.mul_le_mul_right w h
      rw [Nat.succ_mul] at this
      omega
    · have := Nat.mul_le_mul_right w h
      rw [Nat.succ_mul] at this
      omega
  rw [subEl_testBit w _ _ hk, subEl_testBit w _ _ hk, setBits_getLsbD _ _ _ _ _ (by omega), if_neg hout]

section
variable {n t m : ℕ} (hn : 64 / n * n ≤ 64) (hm : m < 64 / n)
include hn hm

/-- An element that no write names stays. -/
theorem subEl_lputLane_of_none {ws : List (ℕ × ℕ × ℕ)} (h : ∀ p ∈ ws, ¬ (p.1 = t ∧ p.2.1 = m)) (old : Word) :
    subEl n (lputLane n ws t old) m = subEl n old m := by
  induction ws generalizing old with
  | nil => rfl
  | cons p ws ih =>
    obtain ⟨hp, hws⟩ := List.forall_mem_cons.1 h
    refine (ih hws _).trans ?_
    dsimp only
    split
    · next ht => exact subEl_setBits_other hn hm (fun hpm => hp ⟨ht, hpm⟩) _ _
    · rfl

/-- The last write of an element remains. -/
theorem subEl_lputLane_of_last {ws₁ ws₂ : List (ℕ × ℕ × ℕ)} (h : ∀ p ∈ ws₂, ¬ (p.1 = t ∧ p.2.1 = m)) (v : ℕ) (old : Word) :
    subEl n (lputLane n (ws₁ ++ (t, m, v) :: ws₂) t old) m = v % 2 ^ n := by
  have hsplit : lputLane n (ws₁ ++ (t, m, v) :: ws₂) t old = lputLane n ws₂ t (setBits (lputLane n ws₁ t old) (m * n) n v) := by
    rw [lputLane, List.foldl_append, List.foldl_cons, if_pos rfl]
    rfl
  rw [hsplit, subEl_lputLane_of_none hn hm h, subEl_setBits_same hn hm]

end

theorem lputLane_of_untouched {n t : ℕ} {ws : List (ℕ × ℕ × ℕ)} (h : ∀ p ∈ ws, p.1 ≠ t) (old : Word) : lputLane n ws t old = old := by
  induction ws with
  | nil => rfl
  | cons p ws ih =>
    obtain ⟨hp, hws⟩ := List.forall_mem_cons.1 h
    rw [lputLane, List.foldl_cons, if_neg hp]
    exact ih hws

section
variable (t : Team) (n : ℕ) (a b : LSrc)

/-- Element `j` of lane `x` is put into element `m` of lane `k`. -/
def Machine.Team.puts (k m x j : ℕ) : Prop :=
  x < t.lanes ∧ t.active x = true ∧ j < 64 / n ∧ t.sub n b x j / 16 = k ∧ t.sub n b x j % 16 % (64 / n) = m ∧ t.dead.getLsbD k = false

/-- The write that element `j` of lane `x` makes, if its target is live. -/
def Machine.Team.putOf (x j : ℕ) : Option (ℕ × ℕ × ℕ) :=
  let i := t.sub n b x j
  if i / 16 < t.lanes && !t.dead.getLsbD (i / 16) then some (i / 16, i % 16 % (64 / n), t.sub n a x j) else none

theorem lputWrites_eq : t.lputWrites n a b = t.activeLanes.flatMap fun x => (List.range (64 / n)).filterMap (t.putOf n a b x) := rfl

variable {t n a b}

theorem putOf_eq_some {k m x j : ℕ} (hk : k < t.lanes) (h : t.puts n b k m x j) :
    t.putOf n a b x j = some (k, m, t.sub n a x j) := by
  obtain ⟨-, -, -, rfl, rfl, hdead⟩ := h
  simp [Team.putOf, hk, hdead]

theorem puts_of_putOf {x j : ℕ} {p : ℕ × ℕ × ℕ} (hx : x ∈ t.activeLanes) (hj : j < 64 / n) (h : t.putOf n a b x j = some p) :
    t.puts n b p.1 p.2.1 x j := by
  unfold Team.putOf at h
  dsimp only at h
  split at h
  · next hlive =>
    cases h
    rw [Bool.and_eq_true, Bool.not_eq_true'] at hlive
    obtain ⟨hlanes, hact⟩ := mem_activeLanes.1 hx
    exact ⟨hlanes, hact, hj, rfl, rfl, hlive.2⟩
  · cases h

theorem exists_puts_of_mem {p : ℕ × ℕ × ℕ} (h : p ∈ t.lputWrites n a b) : ∃ x j, t.puts n b p.1 p.2.1 x j := by
  obtain ⟨x, hx, hp⟩ := List.mem_flatMap.1 h
  obtain ⟨j, hj, hput⟩ := List.mem_filterMap.1 hp
  exact ⟨x, j, puts_of_putOf hx (List.mem_range.1 hj) hput⟩

theorem mem_of_puts {k m x j : ℕ} (hk : k < t.lanes) (h : t.puts n b k m x j) : (k, m, t.sub n a x j) ∈ t.lputWrites n a b :=
  List.mem_flatMap.2 ⟨x, mem_activeLanes.2 ⟨h.1, h.2.1⟩, List.mem_filterMap.2 ⟨j, List.mem_range.2 h.2.2.1, putOf_eq_some hk h⟩⟩

theorem written_iff {k m : ℕ} (hk : k < t.lanes) : (∃ p ∈ t.lputWrites n a b, p.1 = k ∧ p.2.1 = m) ↔ ∃ x j, t.puts n b k m x j := by
  constructor
  · rintro ⟨p, hp, rfl, rfl⟩
    exact exists_puts_of_mem hp
  · rintro ⟨x, j, h⟩
    exact ⟨_, mem_of_puts hk h, rfl, rfl⟩

/-- A member of an ascending list splits it into what is below it and what is above. -/
theorem ascending_split {xs : List ℕ} (hxs : xs.Pairwise (· < ·)) {x : ℕ} (hx : x ∈ xs) :
    ∃ l₁ l₂, xs = l₁ ++ x :: l₂ ∧ (∀ y ∈ l₁, y < x) ∧ ∀ y ∈ l₂, x < y := by
  obtain ⟨l₁, l₂, rfl⟩ := List.append_of_mem hx
  obtain ⟨-, htail, hcross⟩ := List.pairwise_append.1 hxs
  exact ⟨l₁, l₂, rfl, fun y hy => hcross y hy x (List.mem_cons_self ..), (List.pairwise_cons.1 htail).1⟩

/-- Element `j` of lane `x` is the last one put into element `m` of lane `k`. -/
def Machine.Team.lastPut (t : Team) (n : ℕ) (b : LSrc) (k m x j : ℕ) : Prop :=
  t.puts n b k m x j ∧ ∀ y i, t.puts n b k m y i → y < x ∨ (y = x ∧ i ≤ j)

/-- The writes after the last one of an element leave it. -/
theorem lputWrites_split {k m x j : ℕ} (hk : k < t.lanes) (h : t.lastPut n b k m x j) :
    ∃ ws₁ ws₂, t.lputWrites n a b = ws₁ ++ (k, m, t.sub n a x j) :: ws₂ ∧ ∀ p ∈ ws₂, ¬ (p.1 = k ∧ p.2.1 = m) := by
  obtain ⟨hput, hlast⟩ := h
  obtain ⟨l₁, l₂, hlanes, -, hafter⟩ := ascending_split (activeLanes_ascending t) (mem_activeLanes.2 ⟨hput.1, hput.2.1⟩)
  obtain ⟨r₁, r₂, hrange, -, hrest⟩ := ascending_split List.pairwise_lt_range (List.mem_range.2 hput.2.2.1)
  have hmem (y : ℕ) (hy : y ∈ l₂) : y ∈ t.activeLanes := hlanes ▸ List.mem_append_right _ (List.mem_cons_of_mem _ hy)
  have hmem' (i : ℕ) (hi : i ∈ r₂) : i < 64 / n := List.mem_range.1 (hrange ▸ List.mem_append_right _ (List.mem_cons_of_mem _ hi))
  refine ⟨(l₁.flatMap fun y => (List.range (64 / n)).filterMap (t.putOf n a b y)) ++ r₁.filterMap (t.putOf n a b x),
    r₂.filterMap (t.putOf n a b x) ++ l₂.flatMap fun y => (List.range (64 / n)).filterMap (t.putOf n a b y), ?_, ?_⟩
  · rw [lputWrites_eq, hlanes, List.flatMap_append, List.flatMap_cons]
    nth_rw 2 [hrange]
    rw [List.filterMap_append, List.filterMap_cons_some (putOf_eq_some hk hput)]
    simp only [List.append_assoc, List.cons_append]
  · rintro p hp ⟨rfl, rfl⟩
    rcases List.mem_append.1 hp with hp | hp
    · obtain ⟨i, hi, hput'⟩ := List.mem_filterMap.1 hp
      rcases hlast x i (puts_of_putOf (mem_activeLanes.2 ⟨hput.1, hput.2.1⟩) (hmem' i hi) hput') with hlt | ⟨-, hle⟩
      · exact lt_irrefl x hlt
      · exact absurd (hrest i hi) (not_lt.2 hle)
    · obtain ⟨y, hy, hp⟩ := List.mem_flatMap.1 hp
      obtain ⟨i, hi, hput'⟩ := List.mem_filterMap.1 hp
      have hxy := hafter y hy
      rcases hlast y i (puts_of_putOf (hmem y hy) (List.mem_range.1 hi) hput') with hlt | ⟨heq, -⟩
      · exact absurd hlt (lt_asymm hxy)
      · exact absurd heq hxy.ne'

/-- What lane `k` holds after the writes: in each element the last one, or what stood there. -/
def Machine.Team.putInto (t : Team) (n : ℕ) (a b : LSrc) (k : ℕ) (old r : Word) : Prop := ∀ m, m < 64 / n →
  (∀ x j, t.lastPut n b k m x j → subEl n r m = t.sub n a x j) ∧
  ((∀ x j, ¬ t.puts n b k m x j) → subEl n r m = subEl n old m)

theorem putInto_lputLane (hn : 64 / n * n ≤ 64) {k : ℕ} (hk : k < t.lanes) (old : Word) :
    t.putInto n a b k old (lputLane n (t.lputWrites n a b) k old) := by
  refine fun m hm => ⟨fun x j hlast => ?_, fun hnone => ?_⟩
  · obtain ⟨ws₁, ws₂, hws, hrest⟩ := lputWrites_split (a := a) hk hlast
    rw [hws, subEl_lputLane_of_last hn hm hrest, Nat.mod_eq_of_lt (sub_lt t n a x j)]
  · refine subEl_lputLane_of_none hn hm (fun p hp hpm => ?_) old
    obtain ⟨x, j, hput⟩ := (written_iff hk).1 ⟨p, hp, hpm⟩
    exact hnone x j hput

theorem mem_lputKeeps {x : ℕ} : x ∈ t.lputKeeps n (t.lputWrites n a b) ↔
    x < t.lanes ∧ t.active x = true ∧ ∃ m, m < 64 / n ∧ ∀ y j, ¬ t.puts n b x m y j := by
  rw [Team.lputKeeps, List.mem_filter, mem_activeLanes, and_assoc]
  refine and_congr_right fun hx => and_congr_right fun _ => ?_
  have hwhole : lputWhole n (t.lputWrites n a b) x = true ↔
      ∀ m, m < 64 / n → ∃ p ∈ t.lputWrites n a b, p.1 = x ∧ p.2.1 = m := by
    simp [lputWhole]
  rw [Bool.not_eq_true', ← Bool.not_eq_true, hwhole]
  simp only [written_iff hx]
  push Not
  rfl

end

theorem exec_lput_scatter (w : IW) (d : VDst) (a b : LSrc) (s : State) : exec (.lput w d a b) s = teamStep 4 (fun t =>
    let ws := t.lputWrites (iwBits w) a b
    t.scatter (t.srcFlags a ||| t.srcFlags b ||| t.srcFlagsAt (t.lputKeeps (iwBits w) ws) (.v (VDst.field d))) d
      (fun k => ws.any (·.1 == k)) (fun k => lputLane (iwBits w) ws k (t.old d k))
      (tabulate t.lanes fun x => if t.active x then lputLane (iwBits w) ws x (t.old d x) else 0)) s := by
  rw [exec_lput]
  cases d <;> rfl

theorem lput_runs (s : State) (w : IW) (d : VDst) (a b : LSrc) :
    let n := iwBits w
    let t := s.cur
    Runs (.lput w d a b) s fun u v => v.pc = u.pc + 4 ∧
      (∃ l : List ℕ, (∀ x, x ∈ l ↔ x < t.lanes ∧ t.active x = true ∧ ∃ m, m < 64 / n ∧ ∀ y j, ¬ t.puts n b x m y j) ∧
        Raised (u.srcFlags a ||| u.srcFlags b ||| u.srcFlagsAt l (.v (VDst.field d))) u v) ∧ LanePush u v ∧
      (∀ x, x < u.lanes → if u.active x then t.putInto n a b x (t.old d x) (laneAt v.fl[0] x) else laneAt v.fl[0] x = 0) ∧
      (∀ r, d = some r → ∀ k, k < u.lanes → t.putInto n a b k (t.old d k) (laneAt v.v[r] k)) ∧
      (∀ r, d ≠ some r → v.v[r] = u.v[r] ∧ v.deadV[r] = u.deadV[r]) ∧
      v = { u with pc := v.pc, fflags := v.fflags, pending := v.pending, fl := v.fl, fvalid := v.fvalid, v := v.v, deadV := v.deadV } := by
  intro n t
  refine runs_teamStep (exec_lput_scatter w d a b s) ?_
  have hinto (k : ℕ) (hk : k < t.lanes) := putInto_lputLane (t := t) (a := a) (b := b) (iwBits_mul w).le hk (t.old d k)
  have e := scatter_effect t (t.srcFlags a ||| t.srcFlags b ||| t.srcFlagsAt (t.lputKeeps n (t.lputWrites n a b)) (.v (VDst.field d))) d
    (fun k => (t.lputWrites n a b).any (·.1 == k)) (fun k => lputLane n (t.lputWrites n a b) k (t.old d k))
    (tabulate t.lanes fun x => if t.active x then lputLane n (t.lputWrites n a b) x (t.old d x) else 0)
  dsimp only
  generalize t.scatter _ d _ _ _ = W at e
  refine ⟨congrArg (· + word 4) e.pc, ⟨_, fun x => mem_lputKeeps, e.raised.flags, e.raised.pending⟩, ⟨e.push.shift, e.push.uniform⟩,
    fun x hx => ?latch, fun r hr k hk => ?written, e.others, ?frame⟩
  case latch =>
    have hlatch : laneAt (W.advance 4).fl[0] x = if t.active x then lputLane n (t.lputWrites n a b) x (t.old d x) else 0 := by
      have h := congrArg (laneAt · x) e.latch
      simp only [laneAt, nth_tabulate, if_pos (show x < t.lanes from hx)] at h
      exact h
    rw [hlatch]
    split
    · exact hinto x hx
    · rfl
  case written =>
    have hold : laneAt t.v[r] k = t.old d k := by rw [hr]; rfl
    have hval : laneAt (W.advance 4).v[r] k = lputLane n (t.lputWrites n a b) k (t.old d k) := by
      refine (e.written r hr k hk).trans ?_
      rw [hold, ite_eq_left_iff, List.any_eq_true]
      intro hno
      exact (lputLane_of_untouched (fun p hp hpk => hno ⟨p, hp, beq_iff_eq.2 hpk⟩) _).symm
    exact hval ▸ hinto k hk
  case frame =>
    rw [e.frame]
    rfl

end Sys2Proof
end

section
/-! PROOFS. Combinations from left to right over the active lanes and their segments (R140), and the obligation on cross-lane instructions
and reductions (O18). -/
namespace Sys2Proof
open Sys2Proof.Machine

/-! ## Ascending lists -/

theorem nth_map_idxOf {α : Type} (d : α) (f : ℕ → α) {xs : List ℕ} {x : ℕ} (hx : x ∈ xs) : nth d (xs.map f) (xs.idxOf x) = f x := by
  rw [nth_eq_getD, List.getD_eq_getElem?_getD, List.getElem?_map, List.getElem?_idxOf hx]
  rfl

/-- `y` and `x` are neighbours in the list. -/
theorem exists_append_of_next {xs : List ℕ} (hxs : xs.Pairwise (· < ·)) {y x : ℕ} (hy : y ∈ xs) (hx : x ∈ xs)
    (hlt : y < x) (hbetween : ∀ z ∈ xs, z ≤ y ∨ x ≤ z) : ∃ l₁ l₂, xs = l₁ ++ y :: x :: l₂ := by
  obtain ⟨l₁, l₂, rfl, hbelow, habove⟩ := ascending_split hxs hy
  have hx₂ : x ∈ l₂ := by
    rcases List.mem_append.1 hx with h | h
    · exact absurd (hbelow x h) (lt_asymm hlt)
    · exact (List.mem_cons.1 h).resolve_left hlt.ne'
  obtain ⟨z, l₃, rfl⟩ := List.exists_cons_of_ne_nil (List.ne_nil_of_mem hx₂)
  have hz : z ∈ z :: l₃ := List.mem_cons_self ..
  have hxz : x ≤ z := (hbetween z (List.mem_append_right _ (List.mem_cons_of_mem _ hz))).resolve_left (not_le.2 (habove z hz))
  have htail : (y :: z :: l₃).Pairwise (· < ·) := (List.pairwise_append.1 hxs).2.1
  rcases List.mem_cons.1 hx₂ with rfl | h
  · exact ⟨l₁, l₃, rfl⟩
  · exact absurd ((List.pairwise_cons.1 (List.pairwise_cons.1 htail).2).1 x h) (not_lt.2 hxz)

/-! ## Combining steps -/

theorem redBits_mul (op : RedKind) : 64 / redBits op * redBits op = 64 := by
  cases op with
  | int k w => exact iwBits_mul w
  | float k w => exact fwBits_mul w

theorem combine_lt {op : RedKind} {x y : ℕ} (mode : RMode) (hx : x < 2 ^ redBits op) (hy : y < 2 ^ redBits op) :
    (combine op mode x y).1 < 2 ^ redBits op := by
  have hite (c : Prop) [Decidable c] : (if c then y else x) < 2 ^ redBits op := by
    split
    · exact hy
    · exact hx
  cases op with
  | int k w =>
    cases k with
    | add => exact Nat.mod_lt _ (Nat.two_pow_pos _)
    | min => exact hite _
    | max => exact hite _
    | minu => exact (Nat.min_le_left x y).trans_lt hx
    | maxu => exact Nat.max_lt.2 ⟨hx, hy⟩
    | and => exact Nat.and_lt_two_pow x hy
    | or => exact Nat.or_lt_two_pow hx hy
    | xor => exact Nat.xor_lt_two_pow hx hy
  | float k w =>
    cases k with
    | fadd => exact finishBin_lt w mode false _
    | fmin => exact (floatMinMax_lt (fwFmt w) true x y).trans_eq (congrArg _ (fwFmt_bits w))
    | fmax => exact (floatMinMax_lt (fwFmt w) false x y).trans_eq (congrArg _ (fwFmt_bits w))

/-- What one value gives after what has been combined before it. -/
def reduceStep (op : RedKind) (mode : RMode) (acc : Option ℕ) (v : ℕ) (start : Bool) : ℕ × FFlags :=
  match acc with
  | some c => if start then (v, 0) else combine op mode c v
  | none => (v, 0)

theorem prefixes_cons (op : RedKind) (mode : RMode) (acc : Option ℕ) (v : ℕ) (start : Bool) (l : List (ℕ × Bool)) :
    prefixes op mode acc ((v, start) :: l) =
      reduceStep op mode acc v start :: prefixes op mode (some (reduceStep op mode acc v start).1) l := by
  cases acc <;> rfl

theorem reduceStep_lt {op : RedKind} (mode : RMode) {acc : Option ℕ} (hacc : ∀ c, acc = some c → c < 2 ^ redBits op) {v : ℕ}
    (hv : v < 2 ^ redBits op) (start : Bool) : (reduceStep op mode acc v start).1 < 2 ^ redBits op := by
  cases acc with
  | none => exact hv
  | some c =>
    cases start with
    | true => exact hv
    | false => exact combine_lt mode (hacc c rfl) hv

theorem signCode_fwFmt (w : FW) : signCode (fwFmt w) true = 2 ^ (fwBits w - 1) := by
  cases w <;> rfl

theorem flushIn_false (f : Fmt) (v : FVal) : flushIn f false v = v := by
  cases v <;> rfl

theorem floatAdd_addRule (w : FW) (mode : RMode) (x y : ℕ) :
    AddRule (fwFmt w) mode false (decodeFmt (fwFmt w) x) (decodeFmt (fwFmt w) y) (floatAdd (fwFmt w) mode false x y) := by
  rw [floatAdd, flushIn_false, flushIn_false]
  exact addRule_finishBin (hasInf_fwFmt w) mode false _ _

theorem floatMinMax_minMaxRule (w : FW) (less : Bool) {x y : ℕ} (hx : x < 2 ^ fwBits w) (hy : y < 2 ^ fwBits w) :
    MinMaxRule (fwFmt w) less x y (floatMinMax (fwFmt w) less x y) :=
  minMaxRule_floatMinMax less (by rwa [fwFmt_bits]) (by rwa [fwFmt_bits])

/-- `P` gives each value what has been combined up to it, and the flags of its step. -/
structure Combined (op : RedKind) (mode : RMode) (V : ℕ → ℕ) (st : ℕ → Bool) (acc : Option ℕ) (xs : List ℕ) (P : ℕ → ℕ × FFlags) :
    Prop where
  prefixes_eq : prefixes op mode acc (xs.map fun x => (V x, st x)) = xs.map P
  head : ∀ x l, xs = x :: l → P x = reduceStep op mode acc (V x) (st x)
  step : ∀ l₁ y x l₂, xs = l₁ ++ y :: x :: l₂ → P x = reduceStep op mode (some (P y).1) (V x) (st x)
  bound : ∀ x ∈ xs, (P x).1 < 2 ^ redBits op

/-- Such a `P` exists, as no value stands twice. -/
theorem exists_combined (op : RedKind) (mode : RMode) {V : ℕ → ℕ} (hV : ∀ x, V x < 2 ^ redBits op) (st : ℕ → Bool) {xs : List ℕ}
    (hxs : xs.Nodup) {acc : Option ℕ} (hacc : ∀ c, acc = some c → c < 2 ^ redBits op) : ∃ P, Combined op mode V st acc xs P := by
  induction xs generalizing acc with
  | nil => exact ⟨fun _ => (0, 0), rfl, by simp, by simp, by simp⟩
  | cons z zs ih =>
    obtain ⟨hz, hzs⟩ := List.nodup_cons.1 hxs
    have hlt := reduceStep_lt mode hacc (hV z) (st z)
    obtain ⟨P, hP⟩ := ih hzs (acc := some (reduceStep op mode acc (V z) (st z)).1) (by rintro c ⟨⟩; exact hlt)
    -- `Q` is `P` with the first value's result in its place
    obtain ⟨Q, hself, hne⟩ : ∃ Q : ℕ → ℕ × FFlags, Q z = reduceStep op mode acc (V z) (st z) ∧ ∀ x ∈ zs, Q x = P x :=
      ⟨Function.update P z _, Function.update_self .., fun x hx => Function.update_of_ne (ne_of_mem_of_not_mem hx hz) ..⟩
    refine ⟨Q, ?_, ?_, ?_, ?_⟩
    · rw [List.map_cons, List.map_cons, hself, prefixes_cons, hP.prefixes_eq, List.map_congr_left hne]
    · rintro x l ⟨⟩
      exact hself
    · intro l₁ y x l₂ heq
      cases l₁ with
      | nil =>
        obtain ⟨rfl, rfl⟩ := List.cons.inj heq
        rw [hself, hne x (List.mem_cons_self ..)]
        exact hP.head x l₂ rfl
      | cons a l₁ =>
        obtain ⟨rfl, rfl⟩ := List.cons.inj heq
        rw [hne x (by simp), hne y (by simp)]
        exact hP.step l₁ y x l₂ rfl
    · intro x hx
      rcases List.mem_cons.1 hx with rfl | hx
      · exact hself ▸ hlt
      · exact hne x hx ▸ hP.bound x hx

section
variable {op : RedKind} {mode : RMode} {V : ℕ → ℕ} {st : ℕ → Bool} {xs : List ℕ} {P : ℕ → ℕ × FFlags}

/-- The first value, and one that begins a segment, are handed on. -/
theorem Combined.first (h : Combined op mode V st none xs P) {x : ℕ} (hx : x ∈ xs) (hxs : xs.Pairwise (· < ·))
    (hfirst : (∀ y ∈ xs, x ≤ y) ∨ st x = true) : P x = (V x, 0) := by
  obtain ⟨l₁, l₂, heq, hbelow, -⟩ := ascending_split hxs hx
  rcases List.eq_nil_or_concat l₁ with rfl | ⟨l, y, rfl⟩
  · exact h.head x l₂ heq
  · rw [List.concat_eq_append] at heq hbelow
    have hy : y < x := hbelow y (by simp)
    have hst : st x = true := hfirst.resolve_left fun hmin => absurd (hmin y (by rw [heq]; simp)) (not_le.2 hy)
    rw [h.step l y x l₂ (by rw [heq, List.append_assoc]; rfl), hst]
    rfl

/-- Every other value is combined with what its neighbour has. -/
theorem Combined.next (h : Combined op mode V st none xs P) (hxs : xs.Pairwise (· < ·)) {y x : ℕ} (hy : y ∈ xs) (hx : x ∈ xs)
    (hlt : y < x) (hbetween : ∀ z ∈ xs, z ≤ y ∨ x ≤ z) (hst : ¬ st x = true) : P x = combine op mode (P y).1 (V x) := by
  obtain ⟨l₁, l₂, heq⟩ := exists_append_of_next hxs hy hx hlt hbetween
  rw [h.step l₁ y x l₂ heq, Bool.eq_false_of_not_eq_true hst]
  rfl

end

/-! ## Segments -/

/-- `y` is the last value of the segment of `x`: none begins after `x` and up to `y`, and one does before any later value. -/
structure SegmentLast (xs : List ℕ) (st : ℕ → Bool) (x y : ℕ) : Prop where
  mem : y ∈ xs
  le : x ≤ y
  within : ∀ z ∈ xs, x < z → z ≤ y → st z = false
  last : ∀ z ∈ xs, x ≤ z → (∀ u ∈ xs, x < u → u ≤ z → st u = false) → z ≤ y

theorem SegmentLast.unique {xs : List ℕ} {st : ℕ → Bool} {x y z : ℕ} (hy : SegmentLast xs st x y) (hz : SegmentLast xs st x z) : y = z :=
  le_antisymm (hz.last y hy.mem hy.le hy.within) (hy.last z hz.mem hz.le hz.within)

/-- A lower value in front leaves the segments' last values. -/
theorem SegmentLast.cons {l : List ℕ} {st : ℕ → Bool} {v x y : ℕ} (h : SegmentLast l st x y) (hvx : v < x) :
    SegmentLast (v :: l) st x y where
  mem := List.mem_cons_of_mem _ h.mem
  le := h.le
  within z hz hxz hzy := by
    rcases List.mem_cons.1 hz with rfl | hz
    · exact absurd hvx (lt_asymm hxz)
    · exact h.within z hz hxz hzy
  last z hz hxz hfree := by
    rcases List.mem_cons.1 hz with rfl | hz
    · exact absurd hxz (not_le.2 hvx)
    · exact h.last z hz hxz fun u hu => hfree u (List.mem_cons_of_mem _ hu)

/-- The first value is of a segment of its own if the second begins one, else of the second's. -/
theorem segmentLast_head {v w y : ℕ} {l : List ℕ} {st : ℕ → Bool} (hvw : v < w) (hw : ∀ x ∈ l, w < x)
    (h : SegmentLast (w :: l) st w y) : SegmentLast (v :: w :: l) st v (if st w then v else y) := by
  have hle {z : ℕ} (hz : z ∈ w :: l) : w ≤ z := by
    rcases List.mem_cons.1 hz with rfl | hz
    · exact le_rfl
    · exact (hw z hz).le
  have hwmem : w ∈ v :: w :: l := List.mem_cons_of_mem _ (List.mem_cons_self ..)
  by_cases hst : st w = true
  · rw [if_pos hst]
    refine ⟨List.mem_cons_self .., le_rfl, fun z _ hlt hge => absurd hlt (not_lt.2 hge), fun z hz _ hfree => ?_⟩
    rcases List.mem_cons.1 hz with rfl | hz
    · exact le_rfl
    · exact absurd (hfree w hwmem hvw (hle hz)) (by simp [hst])
  · rw [if_neg hst]
    refine ⟨List.mem_cons_of_mem _ h.mem, hvw.le.trans h.le, fun z hz hvz hzy => ?_, fun z hz _ hfree => ?_⟩
    · rcases List.mem_cons.1 ((List.mem_cons.1 hz).resolve_left hvz.ne') with rfl | hz'
      · exact Bool.eq_false_of_not_eq_true hst
      · exact h.within z (List.mem_cons_of_mem _ hz') (hw z hz') hzy
    · rcases List.mem_cons.1 hz with rfl | hz
      · exact hvw.le.trans h.le
      · exact h.last z hz (hle hz) fun u hu hwu => hfree u (List.mem_cons_of_mem _ hu) (hvw.trans hwu)

/-- The model's segment ends are the values of the segments' last lanes. -/
theorem segmentEnds_eq {xs : List ℕ} (hxs : xs.Pairwise (· < ·)) (st : ℕ → Bool) :
    ∃ e : ℕ → ℕ, (∀ p : ℕ → ℕ, segmentEnds (xs.map p) (xs.map st) = xs.map fun x => p (e x)) ∧ ∀ x ∈ xs, SegmentLast xs st x (e x) := by
  induction xs with
  | nil => exact ⟨id, fun _ => rfl, by simp⟩
  | cons v l ih =>
    obtain ⟨hv, hl⟩ := List.pairwise_cons.1 hxs
    obtain ⟨e, heq, hlast⟩ := ih hl
    -- `g` is `e` with the first value's end in its place
    have hupdate (y : ℕ) : ∃ g : ℕ → ℕ, g v = y ∧ ∀ x ∈ l, g x = e x :=
      ⟨Function.update e v y, Function.update_self .., fun x hx => Function.update_of_ne (hv x hx).ne' ..⟩
    have htail {g : ℕ → ℕ} (hg : ∀ x ∈ l, g x = e x) (x : ℕ) (hx : x ∈ l) : SegmentLast (v :: l) st x (g x) :=
      hg x hx ▸ (hlast x hx).cons (hv x hx)
    cases l with
    | nil =>
      refine ⟨id, fun _ => rfl, fun x hx => ?_⟩
      rw [List.mem_singleton.1 hx]
      exact ⟨List.mem_cons_self .., le_rfl, fun z _ hlt hge => absurd hlt (not_lt.2 hge), fun z hz _ _ => (List.mem_singleton.1 hz).le⟩
    | cons w l =>
      obtain ⟨g, hself, hg⟩ := hupdate (if st w then v else e w)
      refine ⟨g, fun p => ?_, fun x hx => ?_⟩
      · have hmap : ((w :: l).map fun x => p (g x)) = (w :: l).map fun x => p (e x) :=
          List.map_congr_left fun x hx => congrArg p (hg x hx)
        rw [List.map_cons (f := fun x => p (g x)), hmap, hself, ← heq, apply_ite p]
        have h := heq p
        simp only [List.map_cons] at h
        simp only [List.map_cons, segmentEnds, List.tail_cons, List.headD_cons, h]
      · rcases List.mem_cons.1 hx with rfl | hx
        · exact hself ▸ segmentLast_head (hv w (List.mem_cons_self ..)) (List.pairwise_cons.1 hl).1 (hlast w (List.mem_cons_self ..))
        · exact htail hg x hx

/-- Values `x` and `y` of one segment. -/
def together (xs : List ℕ) (st : ℕ → Bool) (x y : ℕ) : Bool :=
  xs.all fun z => !(decide (min x y < z) && decide (z ≤ max x y) && st z)

theorem together_iff {xs : List ℕ} {st : ℕ → Bool} {x y : ℕ} (hxy : x ≤ y) :
    together xs st x y = true ↔ ∀ z ∈ xs, x < z → z ≤ y → st z = false := by
  simp only [together, min_eq_left hxy, max_eq_right hxy, List.all_eq_true, Bool.not_eq_true', Bool.and_eq_false_imp, Bool.and_eq_true,
    decide_eq_true_eq, and_imp]

/-- The last of an ascending list bounds it. -/
theorem le_getLastD {l : List ℕ} (hl : l.Pairwise (· < ·)) (d : ℕ) {x : ℕ} (hx : x ∈ l) : l.getLastD d ∈ l ∧ x ≤ l.getLastD d := by
  rcases List.eq_nil_or_concat l with rfl | ⟨l', y, rfl⟩
  · cases hx
  · rw [List.concat_eq_append] at hl hx ⊢
    have hlast : (l' ++ [y]).getLastD d = y := by simp
    rw [hlast]
    refine ⟨by simp, ?_⟩
    rcases List.mem_append.1 hx with h | h
    · exact ((List.pairwise_append.1 hl).2.2 x h y (by simp)).le
    · exact (List.mem_singleton.1 h).le

/-- The last value together with `x` ends its segment. -/
theorem segmentLast_filter {xs : List ℕ} (hxs : xs.Pairwise (· < ·)) (st : ℕ → Bool) {x : ℕ} (hx : x ∈ xs) :
    SegmentLast xs st x ((xs.filter (together xs st x)).getLastD x) := by
  have hself : x ∈ xs.filter (together xs st x) :=
    List.mem_filter.2 ⟨hx, (together_iff le_rfl).2 fun z _ hlt hge => absurd hlt (not_lt.2 hge)⟩
  have hasc := hxs.filter (together xs st x)
  obtain ⟨hmem, hle⟩ := le_getLastD hasc x hself
  obtain ⟨hmem, htog⟩ := List.mem_filter.1 hmem
  exact ⟨hmem, hle, (together_iff hle).1 htog, fun z hz hxz hfree =>
    (le_getLastD hasc x (List.mem_filter.2 ⟨hz, (together_iff hxz).2 hfree⟩)).2⟩

/-- Without segments the last value ends the list. -/
theorem segmentLast_whole {xs : List ℕ} (hxs : xs.Pairwise (· < ·)) {st : ℕ → Bool} (hst : ∀ x, st x = false) {x : ℕ} (hx : x ∈ xs) :
    SegmentLast xs st x (xs.getLastD 0) := by
  obtain ⟨hmem, hle⟩ := le_getLastD hxs 0 hx
  exact ⟨hmem, hle, fun z _ _ _ => hst z, fun z hz _ _ => (le_getLastD hxs 0 hz).2⟩

/-! ## Exclusive scans -/

/-- What stands in front of a value in a list shifted by one. -/
theorem nth_shift {xs : List ℕ} (hxs : xs.Pairwise (· < ·)) (p : ℕ → ℕ) (d₀ d : ℕ) {x : ℕ} (hx : x ∈ xs) :
    nth d (d₀ :: (xs.map p).dropLast) (xs.idxOf x) = ((xs.filter (· < x)).getLast?.map p).getD d₀ := by
  obtain ⟨l₁, l₂, rfl, hbelow, habove⟩ := ascending_split hxs hx
  have hidx : (l₁ ++ x :: l₂).idxOf x = l₁.length := by
    rw [List.idxOf_append_of_notMem fun h => lt_irrefl x (hbelow x h), List.idxOf_cons_self, add_zero]
  have hfilter : (l₁ ++ x :: l₂).filter (· < x) = l₁ := by
    have hrest : (x :: l₂).filter (· < x) = [] := by
      rw [List.filter_eq_nil_iff, List.forall_mem_cons]
      exact ⟨by simp, fun y hy => by simpa using (habove y hy).le⟩
    rw [List.filter_append, hrest, List.filter_eq_self.2 fun y hy => decide_eq_true (hbelow y hy), List.append_nil]
  rw [hidx, hfilter]
  rcases List.eq_nil_or_concat l₁ with rfl | ⟨l, y, rfl⟩
  · rfl
  · rw [List.concat_eq_append, List.getLast?_concat, List.length_append, nth_eq_getD]
    simp

theorem mem_dropLast {xs : List ℕ} (hxs : xs.Pairwise (· < ·)) {x : ℕ} : x ∈ xs.dropLast ↔ x ∈ xs ∧ ∃ y ∈ xs, x < y := by
  rcases List.eq_nil_or_concat xs with rfl | ⟨l, z, rfl⟩
  · simp
  · rw [List.concat_eq_append] at hxs ⊢
    obtain ⟨-, -, hz⟩ := List.pairwise_append.1 hxs
    have hlast (x : ℕ) (hx : x ∈ l) : x < z := hz x hx z (by simp)
    rw [List.dropLast_concat]
    constructor
    · exact fun hx => ⟨List.mem_append_left _ hx, z, by simp, hlast x hx⟩
    · rintro ⟨hx, y, hy, hxy⟩
      refine (List.mem_append.1 hx).resolve_right fun hxz => ?_
      rw [List.mem_singleton.1 hxz] at hxy
      rcases List.mem_append.1 hy with hy | hy
      · exact lt_asymm hxy (hlast y hy)
      · exact hxy.ne' (List.mem_singleton.1 hy)

/-! ## Reductions and scans -/

theorem flagUnion_map_getLsbD {α : Type} (l : List α) (f : α → ℕ × FFlags) (k : ℕ) :
    (flagUnion ((l.map f).map Prod.snd)).getLsbD k = true ↔ ∃ x ∈ l, (f x).2.getLsbD k = true := by
  simp [flagUnion_getLsbD]

/-- The flags of the steps that enter a result. -/
def EnterFlags (xs : List ℕ) (enters : ℕ → Prop) (P : ℕ → ℕ × FFlags) (fl : FFlags) : Prop :=
  ∀ k, fl.getLsbD k = true ↔ ∃ x ∈ xs, enters x ∧ (P x).2.getLsbD k = true

section
variable {op : RedKind} {mode : RMode} {V : ℕ → ℕ} {st : ℕ → Bool} {xs : List ℕ} {P : ℕ → ℕ × FFlags}
  (h : Combined op mode V st none xs P) (hxs : xs.Pairwise (· < ·))
include h

theorem Combined.allFlags :
    EnterFlags xs (fun _ => True) P (flagUnion ((prefixes op mode none (xs.map fun x => (V x, st x))).map Prod.snd)) := by
  intro k
  rw [h.prefixes_eq, flagUnion_map_getLsbD]
  simp

theorem Combined.values : (prefixes op mode none (xs.map fun x => (V x, st x))).map Prod.fst = xs.map fun x => (P x).1 := by
  rw [h.prefixes_eq, List.map_map]
  rfl

/-- A scan gives each lane what has been combined up to it. -/
theorem Combined.scan : let r := reduceSub op mode false false (xs.map fun x => (V x, st x))
    (∀ x ∈ xs, nth 0 r.1 (xs.idxOf x) = (P x).1) ∧ EnterFlags xs (fun _ => True) P r.2 := by
  refine ⟨fun x hx => ?_, h.allFlags⟩
  rw [← nth_map_idxOf 0 (fun y => (P y).1) hx, ← h.values]
  rfl

include hxs

/-- A reduction gives each lane what its segment's last lane has. -/
theorem Combined.whole {e : ℕ → ℕ} (he : ∀ x ∈ xs, SegmentLast xs st x (e x)) :
    let r := reduceSub op mode true false (xs.map fun x => (V x, st x))
    (∀ x ∈ xs, nth 0 r.1 (xs.idxOf x) = (P (e x)).1) ∧ EnterFlags xs (fun _ => True) P r.2 := by
  refine ⟨fun x hx => ?_, h.allFlags⟩
  obtain ⟨g, hg, hlast⟩ := segmentEnds_eq hxs st
  have hends : (reduceSub op mode true false (xs.map fun x => (V x, st x))).1 = xs.map fun x => (P (g x)).1 := by
    have hstarts : (xs.map fun x => (V x, st x)).map Prod.snd = xs.map st := by rw [List.map_map]; rfl
    rw [← hg fun x => (P x).1, ← h.values, ← hstarts]
    rfl
  rw [hends, nth_map_idxOf 0 (fun y => (P (g y)).1) hx, (hlast x hx).unique (he x hx)]

/-- An exclusive scan gives each lane what the one before it has, and the first the identity. -/
theorem Combined.shifted : let r := reduceSub op mode false true (xs.map fun x => (V x, st x))
    (∀ x ∈ xs, nth 0 r.1 (xs.idxOf x) = ((xs.filter (· < x)).getLast?.map fun y => (P y).1).getD (redIdentity op)) ∧
      EnterFlags xs (fun x => ∃ y ∈ xs, x < y) P r.2 := by
  refine ⟨fun x hx => ?_, fun k => ?_⟩
  · rw [← nth_shift hxs (fun y => (P y).1) (redIdentity op) 0 hx, ← h.values]
    rfl
  · have hfl : (reduceSub op mode false true (xs.map fun x => (V x, st x))).2 = flagUnion ((xs.dropLast.map P).map Prod.snd) := by
      rw [List.map_dropLast, ← h.prefixes_eq]
      rfl
    rw [hfl, flagUnion_map_getLsbD]
    simp only [mem_dropLast hxs, and_assoc]

end

/-- A lane result of reductions, from what the columns give. -/
theorem laneReduce_runs {i : Instr} {s : State} {op : RedKind} {d : VDst} {a : LSrc} {whole shift seg : Bool}
    (h : exec i s = laneReduce op d a whole shift seg s) {P : ℕ → ℕ → ℕ × FFlags} {enters : ℕ → Prop} {val : (ℕ → ℕ) → ℕ → ℕ}
    (hcol : ∀ j, let xs := s.cur.activeLanes
      let r := reduceSub op (modeOf s.cur.frm) whole shift
        (xs.map fun x => (s.cur.sub (redBits op) a x j, seg && s.cur.m[5].getLsbD x))
      (∀ x ∈ xs, nth 0 r.1 (xs.idxOf x) = val (fun y => (P j y).1) x) ∧ EnterFlags xs enters (P j) r.2) :
    Runs i s fun u v => ∃ fl, (∀ k, fl.getLsbD k = true ↔ (u.srcFlags a).getLsbD k = true ∨
        ∃ j x, j < 64 / redBits op ∧ x ∈ s.cur.activeLanes ∧ enters x ∧ (P j x).2.getLsbD k = true) ∧
      LaneEffect 4 d fl (fun x => Subs (redBits op) fun j => val (fun y => (P j y).1) x % 2 ^ redBits op) u v := by
  refine runs_teamStep h ⟨_, fun k => ?_, (laneResult_effect s.cur 4 d _ _).imp ?_⟩
  · rw [BitVec.getLsbD_or, Bool.or_eq_true, flagUnion_getLsbD]
    refine or_congr Iff.rfl ⟨?_, ?_⟩
    · rintro ⟨fl, hfl, hk⟩
      obtain ⟨r, hr, rfl⟩ := List.mem_map.1 hfl
      obtain ⟨j, hj, rfl⟩ := mem_tabulate.1 hr
      obtain ⟨x, hx, hent, hbit⟩ := ((hcol j).2 k).1 hk
      exact ⟨j, x, hj, hx, hent, hbit⟩
    · rintro ⟨j, x, hj, hx, hent, hbit⟩
      exact ⟨_, List.mem_map.2 ⟨_, mem_tabulate.2 ⟨j, hj, rfl⟩, rfl⟩, ((hcol j).2 k).2 ⟨x, hx, hent, hbit⟩⟩
  · rintro x v hx hact rfl j hj
    rw [subEl_fromSubs _ (redBits_mul op).le hj, nth_tabulate, if_pos hj]
    exact congrArg (· % 2 ^ redBits op) ((hcol j).1 x (mem_activeLanes.2 ⟨hx, hact⟩))

/-! ## O18 -/

/-- Settles O18: gathers read, votes count, `lput` scatters, and reductions combine neighbour by neighbour. -/
theorem crossLaneAndReductions : Obligations.CrossLaneAndReductions := by
  unfold Obligations.CrossLaneAndReductions
  refine ⟨fun s w d md a b p k kind => ?lanes, fun s op d a => ?reductions⟩
  case lanes =>
    intro n fb latch read idx base
    refine ⟨laneGather_runs (exec_shfl w d a b s), laneGather_runs (exec_lget w d a b s), ?shfli, ?vote, lput_runs s w d a b⟩
    case shfli => cases p <;> exact shfli_runs s d a _ k
    case vote =>
      refine (vote_runs s kind md a).imp fun u v h => h.iff fun x _ _ => and_congr_right fun _ => ?_
      cases kind with
      | any => exact voteHolds_any.trans (by simp [mem_activeLanes, and_assoc])
      | all => exact voteHolds_all.trans (by simp [mem_activeLanes])
      | eq =>
        refine voteHolds_eq.trans ⟨fun h y z hy hz hya hza => ?_, fun h y hy z hz => ?_⟩
        · simpa using h y (mem_activeLanes.2 ⟨hy, hya⟩) z (mem_activeLanes.2 ⟨hz, hza⟩)
        · obtain ⟨hyl, hya⟩ := mem_activeLanes.1 hy
          obtain ⟨hzl, hza⟩ := mem_activeLanes.1 hz
          simpa using h y z hyl hzl hya hza
  case reductions =>
    intro n xs V step identity starts next running tog gives
    have hxs : xs.Pairwise (· < ·) := activeLanes_ascending s.cur
    have hV (j x : ℕ) : V j x < 2 ^ n := sub_lt s.cur n a x j
    have hstep {x y : ℕ} (hx : x < 2 ^ n) (hy : y < 2 ^ n) : step x y (combine op (modeOf s.cur.frm) x y) := by
      cases op with
      | int k w =>
        cases k with
        | min => exact Prod.ext (minAt_eq n x y) rfl
        | max => exact Prod.ext (maxAt_eq hx hy) rfl
        | add | minu | maxu | and | or | xor => rfl
      | float k w =>
        cases k with
        | fadd => exact floatAdd_addRule w _ x y
        | fmin => exact floatMinMax_minMaxRule w true hx hy
        | fmax => exact floatMinMax_minMaxRule w false hx hy
    have hidentity : redIdentity op = identity := by
      cases op with
      | int k w => cases k <;> rfl
      | float k w =>
        cases k with
        | fadd => exact signCode_fwFmt w
        | fmin => rfl
        | fmax => exact congrArg (· + (fwFmt w).infCode) (signCode_fwFmt w)
    have hrun (seg : Bool) : ∃ P : ℕ → ℕ → ℕ × FFlags,
        (∀ j, Combined op (modeOf s.cur.frm) (V j) (fun x => seg && starts x) none xs (P j)) ∧ running seg P := by
      choose P hP using fun j =>
        exists_combined op (modeOf s.cur.frm) (hV j) (fun x => seg && starts x) (xs := xs) hxs.nodup (acc := none) nofun
      refine ⟨P, hP, fun j x _ hx => ⟨fun hfirst => ?_, fun y ⟨hy, _, hlt, hbetween⟩ hst => ?_⟩⟩
      · exact (hP j).first hx hxs (hfirst.imp_right (Bool.and_eq_true _ _).mpr)
      · rw [(hP j).next hxs hy hx hlt hbetween fun h => hst (Bool.and_eq_true_iff.1 h)]
        exact hstep ((hP j).bound y hy) (hV j x)
    obtain ⟨P, hP, hrunning⟩ := hrun false
    obtain ⟨Q, hQ, hQrunning⟩ := hrun true
    have hgives {i : Instr} {whole shift seg : Bool} {enters : ℕ → Prop} {val : (ℕ → ℕ) → ℕ → ℕ} {P : ℕ → ℕ → ℕ × FFlags}
        (h : exec i s = laneReduce op d a whole shift seg s) (hP : running seg P)
        (hcol : ∀ j, let r := reduceSub op (modeOf s.cur.frm) whole shift (xs.map fun x => (V j x, seg && starts x))
          (∀ x ∈ xs, nth 0 r.1 (xs.idxOf x) = val (fun y => (P j y).1) x) ∧ EnterFlags xs enters (P j) r.2) :
        gives i seg enters val :=
      (laneReduce_runs h hcol).imp fun _ _ ⟨fl, hfl, he⟩ => ⟨fl, P, hP, hfl, he⟩
    -- the four results now follow by the columns alone
    clear_value gives
    refine ⟨?red, ?scan, ?scanEx, ?segred⟩
    case red => exact hgives (exec_red op d a s) hrunning fun j => (hP j).whole hxs fun x => segmentLast_whole hxs fun _ => rfl
    case scan => exact hgives (exec_scan op d a s) hrunning fun j => (hP j).scan
    case scanEx =>
      refine hgives (exec_scanEx op d a s) hrunning fun j => ?_
      obtain ⟨hvalue, hfl⟩ := (hP j).shifted hxs
      refine ⟨fun x hx => (hvalue x hx).trans ?_, hfl⟩
      cases (xs.filter (· < x)).getLast? with
      | none => exact hidentity
      | some y => rfl
    case segred => exact hgives (exec_segred op d a s) hQrunning fun j => (hQ j).whole hxs fun x => segmentLast_filter hxs _

end Sys2Proof
end
